-- ==== Sys2Proof/Word.lean ====
section
/-!
DEFINITION. Word.lean: the widths the spec works in (R4, R8) and their plainest readings.
-/

namespace Sys2Proof

/-- One byte of memory. -/
abbrev Byte := BitVec 8
/-- A 32-bit instruction word or vector slot. -/
abbrev W32 := BitVec 32
/-- A 64-bit uniform register, address or literal. -/
abbrev W64 := BitVec 64

/-- The 64-bit value read as two's complement, given as a sign extension of a narrower word. -/
def sext64 {n : Nat} (x : BitVec n) : W64 := x.signExtend 64

/-- The 64-bit value with zeros above a narrower word. -/
def zext64 {n : Nat} (x : BitVec n) : W64 := x.setWidth 64

end Sys2Proof
end

