-- ==== Sys2Proof/Machine/Kmac.lean ====
section
/-!
DEFINITION. Machine/Kmac.lean: KMAC128 of NIST SP 800-185 over Keccak-f[1600] of FIPS 202, by which R337 names contents.
-/

namespace Sys2Proof.Machine

open Sys2Proof

/-- The state of Keccak-f[1600]: its five planes, y = 0 first, each the five lanes of one y, x = 0 first. -/
abbrev Planes := List (List W64)

/-- Lanewise exclusive-or of two planes. -/
def xorPlane (p q : List W64) : List W64 := List.zipWith (· ^^^ ·) p q

/-- Step theta: a column takes the parity of the column before it, and of the column after it one place up in z. -/
def mixColumns (a : Planes) : Planes :=
  let parity := a.foldl xorPlane (List.replicate 5 0)
  let mix := List.zipWith (fun before after => before ^^^ after.rotateLeft 1) (parity.rotateRight 1) (parity.rotateLeft 1)
  a.map (xorPlane mix)

/-- Five planes of a list of 25 lanes. -/
def toPlanes (ls : List W64) : Planes := (List.range 5).map fun y => (ls.drop (5 * y)).take 5

/-- Steps rho and pi in one walk from (x, y) on: the lane met at step t of the walk turns by the t-th triangular number,
and takes the place (y, 2 x + 3 y), where the walk goes on. -/
def walkLanes (from25 : List W64) : (steps t x y : Nat) → (to25 : List W64) → List W64
  | 0, _, _, _, to25 => to25
  | steps + 1, t, x, y, to25 =>
    let y' := (2 * x + 3 * y) % 5
    walkLanes from25 steps (t + 1) y y'
      (to25.set (y + 5 * y') ((from25.getD (x + 5 * y) 0).rotateLeft (t * (t + 1) / 2 % 64)))

/-- Rho and pi: the walk meets every lane but (0, 0), which stays. -/
def turnAndMove (a : Planes) : Planes := toPlanes (walkLanes a.flatten 24 1 1 0 a.flatten)

/-- Step chi, in each plane alone. -/
def bendPlane (p : List W64) : List W64 :=
  xorPlane p (List.zipWith (fun one two => ~~~one &&& two) (p.rotateLeft 1) (p.rotateLeft 2))

/-- FIPS 202's rc: the register of x^8 + x^6 + x^5 + x^4 + 1, clocked once. -/
def clockRc (r : Nat) : Nat := if 128 ≤ r then (2 * r % 256) ^^^ 0x71 else 2 * r

/-- Step iota's constant from the register at the round's start: clock j gives bit 2^j - 1. -/
def roundConstant (r : Nat) : Nat :=
  ((List.range 7).foldl (fun (acc : Nat × Nat) j => (acc.1 + acc.2 % 2 * 2 ^ (2 ^ j - 1), clockRc acc.2)) (0, r)).1

/-- One round, with the register at its start. -/
def keccakRound (a : Planes) (r : Nat) : Planes :=
  match ((turnAndMove (mixColumns a)).map bendPlane) with
  | (l :: p) :: ps => ((l ^^^ BitVec.ofNat 64 (roundConstant r)) :: p) :: ps
  | ps => ps

/-- `n` rounds, the register clocked seven times in each. -/
def keccakRounds : (n : Nat) → Planes → (r : Nat) → Planes
  | 0, a, _ => a
  | n + 1, a, r => keccakRounds n (keccakRound a r) ((List.range 7).foldl (fun r _ => clockRc r) r)

/-- A number from bytes, the lowest first. -/
def numberOf (bs : List Byte) : Nat := bs.foldr (fun b n => b.toNat + 256 * n) 0

/-- Take in one block of 168 bytes, as the number `m` it writes, and run the 24 rounds. -/
def takeBlock (a : Planes) (m : Nat) : Planes :=
  keccakRounds 24 (List.zipWith xorPlane a (toPlanes ((List.range 25).map fun i => BitVec.ofNat 64 (m / 2 ^ (64 * i))))) 1

/-- Take in `n` blocks of 168 bytes. -/
def takeBlocks : (n : Nat) → Planes → List Byte → Planes
  | 0, a, _ => a
  | n + 1, a, bs => takeBlocks n (takeBlock a (numberOf (bs.take 168))) (bs.drop 168)

def byteOf (n : Nat) : Byte := BitVec.ofNat 8 n

/-- Zeros up to a multiple of the rate. -/
def padRate (bs : List Byte) : List Byte := bs ++ List.replicate ((168 - bs.length % 168) % 168) 0

/-- left_encode of a number below 2^16. -/
def leftEncode (n : Nat) : List Byte := if n < 256 then [1, byteOf n] else [2, byteOf (n / 256), byteOf n]

def encodeString (bs : List Byte) : List Byte := leftEncode (8 * bs.length) ++ bs
def bytepad (bs : List Byte) : List Byte := padRate (leftEncode 168 ++ bs)

/-- The domain suffix 00 of cSHAKE and the final bit of the padding. -/
def padMessage (bs : List Byte) : List Byte :=
  let p := padRate (bs ++ [0x04])
  p.dropLast ++ [(p.getLastD 0) ||| 0x80]

/-- "KMAC" and "KRATIK-CA". -/
def kmacName : List Byte := [0x4B, 0x4D, 0x41, 0x43]
def kratikCa : List Byte := [0x4B, 0x52, 0x41, 0x54, 0x49, 0x4B, 0x2D, 0x43, 0x41]

/-- The first lane of KMAC128(key, x, `bits`, custom), its eight first output bytes little-endian; `bits` below 256.
DEDUCED, log 69. -/
def kmac128 (key x custom : List Byte) (bits : Nat) : W64 :=
  let m := padMessage (bytepad (encodeString kmacName ++ encodeString custom) ++ bytepad (encodeString key) ++ x ++
    [byteOf bits, 1])
  ((takeBlocks (m.length / 168) (List.replicate 5 (List.replicate 5 0)) m).headD []).headD 0

/-- R337: the 56-bit hash of contents under a 32-byte name key. -/
def nameHash (nkey : Nat) (kind : Bool) (c : List Byte) : Nat :=
  let key : List Byte := (List.range 32).map fun i => byteOf (nkey / 256 ^ i)
  (kmac128 key ((if kind then 1 else 0) :: c) kratikCa 64).toNat % 2 ^ 56

end Sys2Proof.Machine
end

