-- ==== Sys2Proof/Config.lean ====
section
/-!
DEFINITION. Config.lean: what the spec leaves to an implementation.  The opaque constants are the free values: nothing
can evaluate them, so a statement that holds, holds whatever they are.  The numbers below them are the unloaded latencies
that the spec gives for the VK7208 (R2 makes none of them architectural).
-/

namespace Sys2Proof.Config

/-- A byte that the spec calls unpredictable (R448), of draw `n`. DEDUCED, log 82. -/
opaque freeByte (n i : Nat) : Byte

/-- What a byte of scratchpad or main memory that nothing has written reads as under a key, none of which is 0 (R293, R361: it
is one value). DEDUCED, log 8. -/
opaque initialByte (data tweak pa : Nat) : Byte

/-- What a byte reads as under a key when its sector stands under another: the decryption of the sector's ciphertext, which
the spec calls unpredictable (R293). DEDUCED, log 8. -/
opaque foreignByte (sector : List Byte) (data tweak data' tweak' pa : Nat) : Byte

/-- Whether the FP32 special function `fn` of the argument with these bits delivers the upper of the two neighbours of an
inexact result (R247: the choice is fixed on a stepping and not stated). DEDUCED, log 10. -/
opaque faithfulUp (fn arg : Nat) : Bool

/-- The bits that a constant, given in FP32, supplies to a position of a format of 4 to 8 bits that does not hold its value
(R60 states none). DEDUCED, log 26. -/
opaque narrowConst (format : Nat) (value : W32) : Byte

/-- The network segments of the fixed route between a field and a field (R403), as indices within the module's 8 x 12.
DEDUCED, log 11. -/
opaque segments (src dst : Nat) : List Nat

/-- The Tchivan ports (0-11) that a field of this module uses to reach another module, which the spec leaves to the
installation. -/
opaque ports (field module : Nat) : List Nat

/-- The ports of another module through which accesses from this one to a field of it enter it, which the spec leaves to the
installation. -/
opaque peerPorts (module field : Nat) : List Nat

/-- From the entry of a Tchivan port to the core, in mc, which the spec does not give (R2). DESIGN CHOICE, log 157. -/
opaque portFlight : Nat

/-- The cells of the route from a field to main or host memory and back, which Table 20-1 leaves to the installation.
DEDUCED, log 11. -/
opaque memoryPath (field pa : Nat) : List CellRef

/-- The latency of main and host memory, which Table 14-1 leaves open. DEDUCED, log 11. -/
opaque memoryLatency : Nat

/-- The next of `n` atomics of one instruction on one location to perform (R362: the order is chosen anew each time).
DEDUCED, log 12, 13. -/
opaque pick (draw n : Nat) : Nat

/-- Whether a fetched 64-byte unit of a command stream whose bytes have changed since executes as fetched (R88).
DEDUCED, log 14. -/
opaque unitKept (draw addr : Nat) : Bool

/-- The strike and droop cells, by index in field 0 of a die, that cover its parser cores (R93), to which Table 20-1 gives no
index. DESIGN CHOICE, log 132. -/
opaque parserCells (die : Nat) : List Nat

/-- How many runs a checkpoint splits `draw` memory into (R451 does not say). DEDUCED, log 15. -/
opaque sinkRuns (draw : Nat) : Nat

/-- Whether erratum `n` is known to the loader and still shown by the running stepping (R42; the spec numbers none).
DESIGN CHOICE, log 16. -/
opaque erratumShown (n : Nat) : Bool

/-- A value the spec leaves unstated, of draw `n`. DEDUCED, log 9. -/
opaque freeValue (n : Nat) : W64

/-- The allowance refill per mc that is the equivalent of 60 A (R140), which the spec does not convert.
DESIGN CHOICE, log 17. -/
opaque inrushRefill : Nat

/-- The resistance of the supply path of a pin group of a die as bring-up measures it (R138), in units in which its product
with the current is in mV. DESIGN CHOICE, log 124. -/
opaque pathResistance (die pin : Nat) : Nat

/-- Which of `n` places in the splice cache that would hold a run it is laid at (R452 leaves it open). DEDUCED, log 18. -/
opaque splicePlace (draw n : Nat) : Nat

/-- Latencies in mc: bench memory on the local core and across the span; scratchpad at the issuing field, at another field
of the die, on the other die (170 ns) and in another module (450 ns) (Table 14-1). -/
def latBench : Nat := 8
def latBenchFar : Nat := 14
/-- DEDUCED, log 7. -/
def latScratch : Nat := 40
def latScratchField : Nat := 48
def latScratchDie : Nat := 170
def latScratchModule : Nat := 450
/-- Half of a scratchpad round trip: a released write reaches its slice (Table 15-3). -/
def latDrain : Nat := 20
/-- From a link's entry to the core: across the seam (Table 15-3). -/
def seamFlight : Nat := 31
/-- d of R315. -/
def seamHold : Nat := 48
def portHold : Nat := 400

end Sys2Proof.Config
end

