-- ==== Sys2Proof/Syntax.lean ====
section
/-!
DEFINITION. Syntax.lean: the ONE inductive of the hardware's instructions and device events, one constructor for each
row of spec/opcode_table.json, with the records that hold the fields of each instruction format (Tables 3-2 and 3-5 to
3-7 and 3-12).  A base form and its extended form are different rows, so they are different constructors.  The rows that
have no encoding are the events of the device (a packet performing, a region committing, a firmware write); each carries
the plain data that says which queue, group, region or register it concerns.
-/

namespace Sys2Proof

/-- The fields of an extended instruction, words 0 to 2, and its literal (Tables 3-5, 3-6, 3-7; R44, R52). -/
structure Ext where
  kp : BitVec 3 := 0
  kn : Bool := false
  rm : BitVec 3 := 0
  sat : Bool := false
  ta : Bool := false
  tb : Bool := false
  tc : Bool := false
  yh : BitVec 2 := 0
  ch : BitVec 2 := 0
  d : BitVec 10 := 0
  a : BitVec 10 := 0
  b : BitVec 10 := 0
  na : Bool := false
  xa : Bool := false
  c : BitVec 10 := 0
  nb : Bool := false
  xb : Bool := false
  nc : Bool := false
  xc : Bool := false
  imm8 : BitVec 8 := 0
  e : BitVec 10 := 0
  lit : Option W64 := none
  deriving DecidableEq, Repr

/-- The fields of a BU or BV base form (Table 3-2): the short operand codes, and the literal of LEN 01. -/
structure BaseF where
  b : BitVec 6 := 0
  a : BitVec 6 := 0
  d : BitVec 6 := 0
  lit : Option W64 := none
  deriving DecidableEq, Repr

/-- SLUI and SAUIPC (MAJ 1, 2). -/
structure UiF where
  imm : BitVec 20
  d : BitVec 5
  deriving DecidableEq, Repr

/-- The UA format (MAJ 3). -/
structure UaF where
  imm : BitVec 12
  a : BitVec 5
  d : BitVec 5
  deriving DecidableEq, Repr

/-- The shifts of the UA format, whose count is six bits (R71). -/
structure UsF where
  cnt : BitVec 6
  a : BitVec 5
  d : BitVec 5
  deriving DecidableEq, Repr

/-- BRAC (MAJ 10). -/
structure BracF where
  off : BitVec 18
  k : BitVec 3
  cond : BitVec 4
  deriving DecidableEq, Repr

/-- BM: the short LD and ST (MAJ 12); `scr` is FN[3] and `w` is FN[1:0] (R49). -/
structure BmF where
  off : BitVec 4
  a : BitVec 6
  b : BitVec 5
  d : BitVec 6
  scr : Bool
  w : BitVec 2
  deriving DecidableEq, Repr

/-- MAJ 13: LDU and STU with an immediate offset (R49). -/
structure UmF where
  imm : BitVec 12
  a : BitVec 5
  d : BitVec 5
  w : BitVec 2
  deriving DecidableEq, Repr

/-- The pair word (Table 3-12). -/
structure PairF where
  xfn : BitVec 6 := 0
  xd : BitVec 7 := 0
  xa : BitVec 8 := 0
  xkp : BitVec 3 := 0
  xb : BitVec 7 := 0
  xc : BitVec 7 := 0
  yfn : BitVec 6 := 0
  yd : BitVec 7 := 0
  ykp : BitVec 3 := 0
  ya : BitVec 8 := 0
  yb : BitVec 7 := 0
  yc : BitVec 7 := 0
  deriving DecidableEq, Repr

/-- The name of a block: its task id and its number in the launch (R1, R168). -/
structure BlockRef where
  task : Nat
  bid : Nat
  deriving DecidableEq, Repr

/-- The name of a group, which no squash, pre-emption or JOIN changes (R168). -/
structure GroupRef where
  task : Nat
  bid : Nat
  gid : Nat
  deriving DecidableEq, Repr

/-- A sensor cell (R403): the field it stands in, numbered 4 x die + field, and its number within the field. -/
structure CellRef where
  field : Nat
  cell : Nat
  deriving DecidableEq, Repr

/-- What an uncorrectable error has struck (R421): a 64-byte sector of memory, or storage of a core: a register of a group by its
absolute code, an entry of the store queue, the staging of a copy by its bench and table entry, or a tile (0-7), a slot (8-25) or
the codebook (26) of a matrix engine. -/
inductive PoisonSite where
  | sector (pa : Nat)
  | register (g : GroupRef) (code : Nat)
  | storeQueue (id : Nat)
  | staging (bench entry : Nat)
  | frame (core item : Nat)
  deriving DecidableEq, Repr

/-- A pin group as the supply-path measurement finds it: its current in A, the drop on it in mV (R138). -/
structure PathReading where
  current : Nat
  drop : Nat
  deriving DecidableEq, Repr

/-- A junction sensor of a field, and its temperature in °C (R143). -/
structure SensorReading where
  field : Nat
  sensor : Nat
  temp : Nat
  deriving DecidableEq, Repr

/-- One constructor for each row of spec/opcode_table.json: first the device events, then the instructions. -/
inductive Instr where
  | loadObject (owner base pa0 pa1 : Nat) (frames : List Nat) (bytes : List Byte)
  | registerWrite (fn off size val : Nat)
  | w0BadAccess (write : Bool) (off size : Nat)
  | qwptrWrite (fn q val : Nat)
  | queueEnable (fn q val : Nat)
  | queueHalt (fn q val : Nat)
  | packetParse (die : Nat)
  | packetPerform (q : Nat)
  | nopPacket (q : Nat)
  | write (q : Nat)
  | launch (q : Nat)
  | edge (q : Nat)
  | ib (q : Nat)
  | pred (q : Nat)
  | loopPacket (q : Nat)
  | wait (q : Nat)
  | waitReevaluate (q : Nat)
  | waitTimeout (q : Nat)
  | signal (q : Nat)
  | fetchFence (q : Nat)
  | timestamp (q : Nat)
  | checkpoint (q : Nat)
  | checkpointDone (q : Nat)
  | owner (q : Nat)
  | parserStallResume (q : Nat)
  | droneMismatch
  | droneRecoveryEnd
  | spliceDecision (task : Nat)
  | placeBlock (die : Nat)
  | reservation (task : Nat)
  | reservationPreempt (task : Nat)
  | dispenserRefill (task die : Nat)
  | blockEnd (b : BlockRef)
  | taskRetire (task : Nat)
  | blockResume (b : BlockRef)
  | preempt (die : Nat)
  | kill (die : Nat)
  | saveComplete (b : BlockRef)
  | powerUp (strap pool0 pool1 failed : Nat) (signed : Bool)
  | fieldPowerUp (f : Nat)
  | fieldPowerDown (f : Nat)
  | supplyPath (die pin fields : Nat) (drop : PathReading)
  | fieldTrip (f : Nat)
  | fieldTripRelease (f : Nat)
  | modtrip (current : Nat)
  | pwrWatchdog (f : Nat)
  | pwrUpdate (pattern : BitVec 16)
  | thermal (f sensor temp : Nat)
  | thermalRelease (f : SensorReading)
  | strumWrite (bench : Nat) (pattern : BitVec 16)
  | allowRefillWrite (bench refill : Nat)
  | slewStep
  | throttleEdge (bench : Nat)
  | groupSwap (core : Nat)
  | forcedSwap (core : Nat)
  | sleepWake (g : GroupRef)
  | registerFill (id : Nat)
  | trapEntry (g : GroupRef)
  | regionTimeoutHead (g : GroupRef)
  | regionClose (g : GroupRef)
  | regionCommit (g : GroupRef)
  | storeDrain (id : Nat)
  | taggedHoldEnd (id : Nat)
  | sensorReport (c : CellRef)
  | cellCountDecay (c : CellRef)
  | cellInject (fn : Nat) (c : CellRef)
  | cellClear (fn : Nat) (c : CellRef)
  | eccCorr (die array row : Nat) (spare : Bool)
  | poison (site : PoisonSite)
  | linkEvent (die link code lanes : Nat)
  | eventRecordWrite (die : Nat)
  | pageWalk (owner die field va : Nat)
  | shootdown (die : Nat)
  | shootdownDone (die : Nat)
  | ownerRetire (owner : Nat)
  | capDisable (owner : Nat)
  | copyPieceRead (bench entry : Nat)
  | copyPieceDrain (bench entry : Nat)
  | atomicPerform (id : Nat)
  | monitorEvaluate (id : Nat)
  | waitcTimeout (id : Nat)
  | lockPerform (id : Nat)
  | barrierArrival (id : Nat)
  | courseUpdate (id : Nat)
  | spawnPerform (id : Nat)
  | joinPerform (id : Nat)
  | caputPerform (id : Nat)
  | caCountChange (id : Nat)
  | caswapPerform (id : Nat)
  | reclaimRelease
  | slui (f : UiF)
  | sauipc (f : UiF)
  | saddi (f : UaF)
  | sandi (f : UaF)
  | sori (f : UaF)
  | sxori (f : UaF)
  | sslti (f : UaF)
  | ssltiu (f : UaF)
  | sshli (f : UsF)
  | sshri (f : UsF)
  | ssrai (f : UsF)
  | bra (off : BitVec 25)
  | call (off : BitVec 25)
  | brac (f : BracF)
  | nop
  | exit
  | ret
  | yield
  | rgn
  | rcv
  | trap (imm : BitVec 18)
  | ldShort (f : BmF)
  | stShort (f : BmF)
  | lduImm (f : UmF)
  | stuImm (f : UmF)
  | saddBase (f : BaseF)
  | ssubBase (f : BaseF)
  | smulBase (f : BaseF)
  | smulhBase (f : BaseF)
  | smulhuBase (f : BaseF)
  | sdivBase (f : BaseF)
  | sdivuBase (f : BaseF)
  | sremBase (f : BaseF)
  | sremuBase (f : BaseF)
  | sandBase (f : BaseF)
  | sorBase (f : BaseF)
  | sxorBase (f : BaseF)
  | sshlBase (f : BaseF)
  | sshrBase (f : BaseF)
  | ssraBase (f : BaseF)
  | sminBase (f : BaseF)
  | smaxBase (f : BaseF)
  | sminuBase (f : BaseF)
  | smaxuBase (f : BaseF)
  | ssltBase (f : BaseF)
  | ssltuBase (f : BaseF)
  | sseqBase (f : BaseF)
  | spopcBase (f : BaseF)
  | sclzBase (f : BaseF)
  | sctzBase (f : BaseF)
  | smovBase (f : BaseF)
  | ssx32Base (f : BaseF)
  | sadd (x : Ext)
  | ssub (x : Ext)
  | smul (x : Ext)
  | smulh (x : Ext)
  | smulhu (x : Ext)
  | sdiv (x : Ext)
  | sdivu (x : Ext)
  | srem (x : Ext)
  | sremu (x : Ext)
  | sand (x : Ext)
  | sor (x : Ext)
  | sxor (x : Ext)
  | sshl (x : Ext)
  | sshr (x : Ext)
  | ssra (x : Ext)
  | smin (x : Ext)
  | smax (x : Ext)
  | sminu (x : Ext)
  | smaxu (x : Ext)
  | sslt (x : Ext)
  | ssltu (x : Ext)
  | sseq (x : Ext)
  | ssel (x : Ext)
  | sbfx (x : Ext)
  | sbfi (x : Ext)
  | spopc (x : Ext)
  | sclz (x : Ext)
  | sctz (x : Ext)
  | smov (x : Ext)
  | sidx (x : Ext)
  | ssx32 (x : Ext)
  | vaddBase (f : BaseF)
  | vsubBase (f : BaseF)
  | vmulBase (f : BaseF)
  | vmulhBase (f : BaseF)
  | vmulhuBase (f : BaseF)
  | vmadBase (f : BaseF)
  | vandBase (f : BaseF)
  | vorBase (f : BaseF)
  | vxorBase (f : BaseF)
  | vshlBase (f : BaseF)
  | vshrBase (f : BaseF)
  | vsraBase (f : BaseF)
  | vminBase (f : BaseF)
  | vmaxBase (f : BaseF)
  | vminuBase (f : BaseF)
  | vmaxuBase (f : BaseF)
  | vabsdBase (f : BaseF)
  | vpopcBase (f : BaseF)
  | vclzBase (f : BaseF)
  | vmovBase (f : BaseF)
  | vdot4Base (f : BaseF)
  | vdot8Base (f : BaseF)
  | vadd (x : Ext)
  | vsub (x : Ext)
  | vmul (x : Ext)
  | vmulh (x : Ext)
  | vmulhu (x : Ext)
  | vmad (x : Ext)
  | vmadw (x : Ext)
  | vand (x : Ext)
  | vor (x : Ext)
  | vxor (x : Ext)
  | vshl (x : Ext)
  | vshr (x : Ext)
  | vsra (x : Ext)
  | vmin (x : Ext)
  | vmax (x : Ext)
  | vminu (x : Ext)
  | vmaxu (x : Ext)
  | vabsd (x : Ext)
  | vcmp (x : Ext)
  | vsel (x : Ext)
  | vbfx (x : Ext)
  | vbfi (x : Ext)
  | vpopc (x : Ext)
  | vclz (x : Ext)
  | vmov (x : Ext)
  | vidx (x : Ext)
  | vaddc (x : Ext)
  | vperm (x : Ext)
  | vsatp (x : Ext)
  | vdot4 (x : Ext)
  | vdot8 (x : Ext)
  | vlea (x : Ext)
  | faddBase (f : BaseF)
  | fsubBase (f : BaseF)
  | fmulBase (f : BaseF)
  | ffmaBase (f : BaseF)
  | fminBase (f : BaseF)
  | fmaxBase (f : BaseF)
  | fclassBase (f : BaseF)
  | frndBase (f : BaseF)
  | fdivBase (f : BaseF)
  | fsqrtBase (f : BaseF)
  | frcpBase (f : BaseF)
  | frsqBase (f : BaseF)
  | fexpBase (f : BaseF)
  | fexp2Base (f : BaseF)
  | flog2Base (f : BaseF)
  | fsinpiBase (f : BaseF)
  | fcospiBase (f : BaseF)
  | ftanhBase (f : BaseF)
  | fsigmBase (f : BaseF)
  | fgeluBase (f : BaseF)
  | fsiluBase (f : BaseF)
  | ferfBase (f : BaseF)
  | fldexpBase (f : BaseF)
  | ffracBase (f : BaseF)
  | fdot2Base (f : BaseF)
  | hadd2Base (f : BaseF)
  | hmul2Base (f : BaseF)
  | hfma2Base (f : BaseF)
  | hmin2Base (f : BaseF)
  | hmax2Base (f : BaseF)
  | fadd (x : Ext)
  | fsub (x : Ext)
  | fmul (x : Ext)
  | ffma (x : Ext)
  | fmin (x : Ext)
  | fmax (x : Ext)
  | fcmp (x : Ext)
  | fclass (x : Ext)
  | frnd (x : Ext)
  | fdiv (x : Ext)
  | fsqrt (x : Ext)
  | frcp (x : Ext)
  | frsq (x : Ext)
  | fexp (x : Ext)
  | fexp2 (x : Ext)
  | flog2 (x : Ext)
  | fsinpi (x : Ext)
  | fcospi (x : Ext)
  | ftanh (x : Ext)
  | fsigm (x : Ext)
  | fgelu (x : Ext)
  | fsilu (x : Ext)
  | ferf (x : Ext)
  | fldexp (x : Ext)
  | ffrac (x : Ext)
  | fcvt (x : Ext)
  | fcvti (x : Ext)
  | icvtf (x : Ext)
  | fpack (x : Ext)
  | funpk (x : Ext)
  | fdot2 (x : Ext)
  | hadd2 (x : Ext)
  | hmul2 (x : Ext)
  | hfma2 (x : Ext)
  | hmin2 (x : Ext)
  | hmax2 (x : Ext)
  | qbcstBase (f : BaseF)
  | stovBase (f : BaseF)
  | vtagBase (f : BaseF)
  | vgenBase (f : BaseF)
  | qswap (x : Ext)
  | qbcst (x : Ext)
  | gshuf (x : Ext)
  | gshfx (x : Ext)
  | gshfu (x : Ext)
  | gshfd (x : Ext)
  | gvote (x : Ext)
  | gbalt (x : Ext)
  | gred (x : Ext)
  | gscan (x : Ext)
  | vtos (x : Ext)
  | stov (x : Ext)
  | vtag (x : Ext)
  | vgen (x : Ext)
  | pairWord (p : PairF)
  | divb (x : Ext)
  | callr (x : Ext)
  | jmpr (x : Ext)
  | loop (x : Ext)
  | sbrc (x : Ext)
  | kand (x : Ext)
  | kor (x : Ext)
  | kxor (x : Ext)
  | kandn (x : Ext)
  | knot (x : Ext)
  | kmov (x : Ext)
  | ld (x : Ext)
  | st (x : Ext)
  | ldu (x : Ext)
  | stu (x : Ext)
  | ldt (x : Ext)
  | stt (x : Ext)
  | spill (x : Ext)
  | fill (x : Ext)
  | prf (x : Ext)
  | cpy (x : Ext)
  | cpyt (x : Ext)
  | cpyg (x : Ext)
  | cpys (x : Ext)
  | cpyr (x : Ext)
  | cpyw (x : Ext)
  | cpyq (x : Ext)
  | cpyx (x : Ext)
  | caput (x : Ext)
  | caget (x : Ext)
  | cahash (x : Ext)
  | caref (x : Ext)
  | carel (x : Ext)
  | caswap (x : Ext)
  | caout (x : Ext)
  | caprb (x : Ext)
  | atom (x : Ext)
  | waitc (x : Ext)
  | qlock (x : Ext)
  | qunlk (x : Ext)
  | fence (x : Ext)
  | promote (x : Ext)
  | bar (x : Ext)
  | lbar (x : Ext)
  | csini (x : Ext)
  | csarv (x : Ext)
  | cswt (x : Ext)
  | csrel (x : Ext)
  | mma (x : Ext)
  | mlda (x : Ext)
  | mldb (x : Ext)
  | mcbt (x : Ext)
  | mzero (x : Ext)
  | mrd (x : Ext)
  | mwr (x : Ext)
  | mst (x : Ext)
  | mcmp (x : Ext)
  | mscl (x : Ext)
  | tfetch (x : Ext)
  | spawn (x : Ext)
  | join (x : Ext)
  | sget (x : Ext)
  | sset (x : Ext)
  | icinv (x : Ext)
  | tarm (x : Ext)
  | sleep (x : Ext)
  | time (x : Ext)
  | rte (x : Ext)
  | pwrq (x : Ext)
  | waitcPerform (id : Nat)
  | icinvDone (g : GroupRef)
  | fieldRampDone (f : Nat)
  | pwrUpdateEnd
  | keyWrite (fn off size val : Nat)
  | peerRead (owner pa len : Nat)
  deriving DecidableEq, Repr

end Sys2Proof
end

