-- ==== Sys2Proof/WellFormed.lean ====
section
/-!
DEFINITION. WellFormed.lean: what a legal encoding is.  A `Shape` is the fields of an instruction before its family and
FN name it; `Shape.defects` lists every defect that R45, R47, R53, R57, R61, R62, R71 and the families' own rules find in
it, each with the fault it takes and the bit R47 reports.  An instruction is well formed when its shape has none.
-/

namespace Sys2Proof

/-- The decode faults, in the order R47 ranks them (the fetch faults stand before, ROLE_ENGINE behind them). -/
inductive DecodeFault where
  | illOpc | illLit | illRsv | illOpd | illPair
  deriving DecidableEq, Repr

/-- The rank of R47. -/
def DecodeFault.rank : DecodeFault → Nat
  | .illOpc => 0 | .illLit => 1 | .illRsv => 2 | .illOpd => 3 | .illPair => 4

/-- One defect: the fault and the bit that R47 gives for it, 32 x word + bit. -/
structure Defect where
  fault : DecodeFault
  bit : Nat
  deriving DecidableEq, Repr

/-- The register counts of the kernel that an instruction is checked against (R22). -/
structure Limits where
  vcount : Nat
  scount : Nat
  deriving DecidableEq, Repr

/-- Every register of the file: the counts used where no kernel sets any. -/
def Limits.all : Limits := { vcount := 128, scount := 376 }

/-- The fields of an instruction word, before MAJ and FN are read as a name. -/
inductive Shape where
  | ui (pc : Bool) (f : UiF)
  | ua (fn : Nat) (f : UaF)
  | base (maj fn : Nat) (f : BaseF)
  | bra (link : Bool) (off : BitVec 25)
  | brac (f : BracF)
  | bctl (fn : Nat) (imm : BitVec 18)
  | bm (store : Bool) (f : BmF)
  | um (store : Bool) (f : UmF)
  | ext (maj fn : Nat) (x : Ext)
  | pair (p : PairF)
  deriving DecidableEq, Repr

/-! ### Operand positions -/

/-- What an operand position admits (R57 and the families' own lists). -/
inductive OpKind where
  /-- not read: the field must hold 0 (R53) -/
  | unread
  /-- part of a 20-bit offset (R55, R209): selects nothing -/
  | offset
  /-- a destination `s0`-`s383` -/
  | uReg
  /-- `s1`-`s383` (LOOP, the copy family) -/
  | uReg1
  /-- `span` consecutive uniform registers (format blocks, R264) -/
  | uBlock (span : Nat)
  /-- a descriptor of `span` registers inside s1-s375 (R319, R355) -/
  | uDesc (span : Nat)
  /-- `span` consecutive vector registers from a multiple of `align` -/
  | vReg (span align : Nat)
  /-- a mask register -/
  | kReg
  /-- a uniform source (R187) -/
  | uSrc
  /-- a uniform source, or code 0 for "no operand" (R385, R392) -/
  | uSrcOpt
  /-- the U-source of Table 9-6 (R178) -/
  | sysSrc
  /-- a uniform register or the literal (addresses and names) -/
  | addr
  /-- a 32-bit vector source (R196, R239) -/
  | vSrc
  /-- a 32-bit vector source or a mask (C of VSEL) -/
  | vSrcK
  /-- a 64-bit vector source (R196, R246, R382) -/
  | v64
  /-- the base of a memory access (R297) -/
  | base
  /-- the stride of LDT and STT (R297) -/
  | stride
  /-- the "uniform kind" of Table 12-4 -/
  | uKind
  /-- a source of a mask operation (R220) -/
  | mSrc
  /-- the 32-bit scalar of the matrix family (R273) -/
  | scalar32
  /-- the byte count of ICINV (R150) -/
  | count
  /-- the register range of SPILL and FILL (R297, R302) -/
  | spill (span : Nat)
  /-- the even vector pair or the bench offset of CAPUT and CAHASH (R349) -/
  | gather (bench : Bool)
  deriving DecidableEq, Repr

/-- Code ranges of Table 3-8. -/
def codeIsV (c : Nat) : Bool := c < 128
def codeIsS (c : Nat) : Bool := 128 ≤ c && c < 512
def codeIsK (c : Nat) : Bool := 512 ≤ c && c < 520
def codeIsSpecial (c : Nat) : Bool := 520 ≤ c && c ≤ 532
def codeIsUSpecial (c : Nat) : Bool := 523 ≤ c && c ≤ 532
def codeIsInt (c : Nat) : Bool := 576 ≤ c && c ≤ 655
def codeIsConst (c : Nat) : Bool := 576 ≤ c && c ≤ 703

/-- Whether a position admits a 10-bit code, the kernel's register counts aside. DEDUCED, log 24. -/
def OpKind.admits : OpKind → Nat → Bool
  | .unread, c => c = 0
  | .offset, _ => true
  | .uReg, c => codeIsS c
  | .uReg1, c => codeIsS c && c ≠ 128
  | .uBlock n, c => codeIsS c && c + n ≤ 512
  | .uDesc n, c => codeIsS c && c ≠ 128 && c - 128 + n ≤ 376
  | .vReg n al, c => codeIsV c && c % al = 0 && c + n ≤ 128
  | .kReg, c => codeIsK c
  | .uSrc, c => codeIsS c || codeIsK c || codeIsUSpecial c || codeIsConst c || c = 768
  | .uSrcOpt, c => c = 0 || codeIsS c || codeIsK c || codeIsUSpecial c || codeIsConst c || c = 768
  | .sysSrc, c => codeIsS c || codeIsInt c || c = 768
  | .addr, c => codeIsS c || c = 768
  | .vSrc, c => codeIsV c || codeIsS c || codeIsSpecial c || codeIsConst c || c = 768 || c = 769
  | .vSrcK, c => codeIsV c || codeIsS c || codeIsK c || codeIsSpecial c || codeIsConst c || c = 768 || c = 769
  | .v64, c => (codeIsV c && c % 2 = 0) || codeIsS c || codeIsConst c || c = 768
  | .base, c => (codeIsV c && c % 2 = 0) || codeIsS c || c = 768
  | .stride, c => codeIsS c || codeIsInt c || c = 768 || c = 769
  | .uKind, c => codeIsS c || codeIsUSpecial c || codeIsConst c || c = 768 || c = 769
  | .mSrc, c => codeIsS c || codeIsK c || codeIsUSpecial c || codeIsInt c || c = 768 || c = 769
  | .scalar32, c => codeIsS c || codeIsConst c || c = 768 || c = 769
  | .count, c => codeIsS c || (576 ≤ c && c ≤ 639) || c = 768
  | .spill n, c =>
    (codeIsV c && c + n ≤ 128) ||
      (codeIsS c && c ≠ 128 && c + n ≤ 512 && (c + n ≤ 504 || 504 ≤ c))
  | .gather bench, c => if bench then codeIsS c || c = 768 else codeIsV c && c % 2 = 0

/-- Whether the position selects the literal with this code: it admits the literal and holds one of its codes (R45, R329); 769
in a 64-bit position selects it and is not admitted (R57). DEDUCED, log 19. -/
def OpKind.selects (k : OpKind) (c : Nat) : Bool := (c = 768 || c = 769) && k ≠ .offset && k.admits 768

/-- How many registers a code of this position covers (R22). -/
def OpKind.covers : OpKind → Nat → Nat
  | .uBlock n, _ | .uDesc n, _ | .vReg n _, _ | .spill n, _ => n
  | .v64, c | .base, c | .gather _, c => if codeIsV c then 2 else 1
  | _, _ => 1

/-- R22: the registers that a code covers lie below the kernel's counts; s376-s383 are exempt. -/
def Limits.allows (l : Limits) (span c : Nat) : Bool :=
  if codeIsV c then c + span ≤ l.vcount
  else if codeIsS c then (List.range span).all fun i => c - 128 + i < l.scount || (376 ≤ c - 128 + i && c - 128 + i ≤ 383)
  else true

/-- The lowest set bit of a field: the bit R47 reports for a field that must be 0 and is no operand code. -/
def lowBit : Nat → Nat → Nat
  | 0, _ => 0
  | n + 1, v => if v % 2 = 1 then 0 else lowBit n (v / 2) + 1

/-- The defects of one operand field whose lowest bit is `bit`. DEDUCED, log 20. -/
def operandDefects (l : Limits) (k : OpKind) (code bit : Nat) : List Defect :=
  match k with
  | .unread => if code = 0 then [] else [⟨.illRsv, bit⟩]
  | .offset => []
  | _ =>
    if k = .uSrcOpt && code = 0 then []
    else if k.admits code && l.allows (k.covers code) code then [] else [⟨.illOpd, bit⟩]

/-- A field that must hold 0. -/
def zeroDefect (ok : Bool) (v bit : Nat) : List Defect :=
  if ok || v = 0 then [] else [⟨.illRsv, bit + lowBit 32 v⟩]

/-- A reserved value of a field (R47: the bit is the field's lowest). DEDUCED, log 25. -/
def reserved (bad : Bool) (bit : Nat) : List Defect := if bad then [⟨.illRsv, bit⟩] else []

/-! ### What each instruction uses -/

/-- The fields an extended instruction uses (R53). -/
structure Usage where
  d : OpKind := .unread
  a : OpKind := .unread
  b : OpKind := .unread
  c : OpKind := .unread
  e : OpKind := .unread
  /-- takes a predicate -/
  kp : Bool := false
  rm : Bool := false
  sat : Bool := false
  ta : Bool := false
  tb : Bool := false
  tc : Bool := false
  /-- N and X may be set on A, B, C -/
  na : Bool := false
  nb : Bool := false
  nc : Bool := false
  /-- the bits of IMM8 that are used -/
  imm : Nat := 0
  /-- has a base form -/
  isBase : Bool := false
  /-- reserved values of the used fields -/
  more : List Defect := []
  deriving DecidableEq, Repr

/-- IMM8's lowest bit, numbered by R47. -/
def immBit : Nat := 78

/-- R240: format 3 is reserved. -/
def fmtRsv (x : Ext) : List Defect := reserved (x.imm8.toNat % 4 = 3) immBit

/-- R252: width codes 0, 6 and 7 are reserved. -/
def widthRsv (x : Ext) : List Defect :=
  reserved (x.imm8.toNat % 8 = 0 || 6 ≤ x.imm8.toNat % 8) immBit

/-- R359: scope codes 6 and 7 are reserved. -/
def scopeRsv (x : Ext) : List Defect := reserved (6 ≤ x.imm8.toNat / 16 % 8) (immBit + 4)

/-- One destination, one source. -/
def Usage.one (d a : OpKind) : Usage := { d, a, ta := true }
/-- One destination, two sources. -/
def Usage.two (d a b : OpKind) : Usage := { d, a, b, ta := true, tb := true }
/-- One destination, three sources. -/
def Usage.three (d a b c : OpKind) : Usage := { d, a, b, c, ta := true, tb := true, tc := true }

/-- Uniform family (R186, R187, Table 4-4). -/
def uniformUsage (fn : Nat) (_x : Ext) : Option Usage :=
  let two := Usage.two .uReg .uSrc .uSrc
  match fn with
  | 22 | 24 => some (.three .uReg .uSrc .uSrc .uSrc)
  | 23 => some { two with imm := 1 }
  | 25 | 26 | 27 | 28 | 30 => some { Usage.one .uReg .uSrc with isBase := true }
  | 29 => some { Usage.one .uReg .uSrc with imm := 15 }
  | _ => if fn < 31 then some { two with isBase := true } else none

/-- Vector integer family (R195, R196, Tables 4-5 and 10-2). -/
def vectorUsage (fn : Nat) (x : Ext) : Option Usage :=
  let v := OpKind.vReg 1 1
  let one := { Usage.one v .vSrc with kp := true }
  let two := { Usage.two v .vSrc .vSrc with kp := true }
  let three := { Usage.three v .vSrc .vSrc .vSrc with kp := true }
  match fn with
  | 5 => some { three with isBase := true }
  | 6 => some { three with d := .vReg 2 2, c := .v64, imm := 1 }
  | 17 => some { two with imm := 1, isBase := true }
  | 18 => some { two with d := .kReg, imm := 7 }
  | 19 => some { three with c := .vSrcK }
  | 20 => some { two with imm := 1 }
  | 21 | 27 => some three
  | 22 | 23 | 24 => some { one with isBase := true }
  | 25 => some { one with imm := 15 }
  | 26 => some { three with c := .kReg, e := .kReg, imm := 1 }
  | 28 =>
    let m := x.imm8.toNat % 8
    some { (if m ≤ 2 then two else three) with imm := 7, more := reserved (6 ≤ m) immBit }
  | 29 | 30 => some { three with imm := 3, sat := true, isBase := true }
  | 31 => some { two with d := .vReg 2 2, a := .v64, imm := 15 }
  | _ => if fn < 32 then some { two with isBase := true } else none

/-- The width in bits of a packable floating-point format (R250); none for the others. -/
def packWidth : Nat → Option Nat
  | 1 | 2 => some 16
  | 3 | 4 => some 8
  | 5 | 6 => some 6
  | 7 => some 4
  | _ => none

/-- The integer formats of FCVTI and ICVTF (R249). -/
def isIntFormat (f : Nat) : Bool := f = 8 || f = 9 || f = 12 || f = 13

/-- Vector float family (R239, R240, Table 12-1). -/
def floatUsage (fn : Nat) (x : Ext) : Option Usage :=
  let v := OpKind.vReg 1 1
  let one : Usage := { Usage.one v .vSrc with kp := true, na := true }
  let two : Usage := { Usage.two v .vSrc .vSrc with kp := true, na := true, nb := true }
  let three : Usage := { Usage.three v .vSrc .vSrc .vSrc with kp := true, na := true, nb := true, nc := true }
  let dst := x.imm8.toNat % 16
  let src := x.imm8.toNat / 16
  let fmt (u : Usage) : Usage := { u with imm := u.imm ||| 3, more := fmtRsv x }
  match fn with
  | 0 | 1 | 2 | 9 => some (fmt { two with rm := true, isBase := true })
  | 3 => some (fmt { three with rm := true, isBase := true })
  | 4 | 5 => some (fmt { two with isBase := true })
  | 6 => some (fmt { two with d := .kReg, imm := 0x1c })
  | 7 | 24 => some (fmt { one with isBase := true })
  | 8 => some (fmt { one with rm := true, imm := 4, isBase := true })
  | 10 => some (fmt { one with rm := true, isBase := true })
  | 23 => some (fmt { two with rm := true, nb := false, isBase := true })
  | 25 => some { one with
        rm := true, sat := true, imm := 255,
        more := reserved (8 ≤ dst) immBit ++ reserved (8 ≤ src) (immBit + 4) }
  | 26 => some { one with
        rm := true, imm := 255,
        more := reserved (!isIntFormat dst) immBit ++ reserved (8 ≤ src) (immBit + 4) }
  | 27 => some { one with
        rm := true, sat := true, na := false, imm := 255,
        more := reserved (8 ≤ dst) immBit ++ reserved (!isIntFormat src) (immBit + 4) }
  | 28 =>
    some { three with
          nc := false, rm := true, sat := true, imm := 127,
          more := match packWidth dst with
          | none => reserved true immBit
          | some w => reserved (32 < 2 * w * (src % 8) + 2 * w) (immBit + 4) }
  | 29 =>
    some { one with
          na := false, imm := 255,
          more := match packWidth dst with
          | none => reserved true immBit
          | some w => reserved (32 < w * (src + 1)) (immBit + 4) }
  | 30 => some { three with a := .v64, b := .v64, rm := true, isBase := true }
  | 31 | 32 => some { two with rm := true, isBase := true }
  | 33 => some { three with rm := true, isBase := true }
  | 34 | 35 => some { two with isBase := true }
  | _ => if fn < 36 then some (fmt { one with isBase := true }) else none

/-- Cross-thread family (R185, R252, Table 12-4). -/
def crossUsage (fn : Nat) (x : Ext) : Option Usage :=
  let v := OpKind.vReg 1 1
  let one := { Usage.one v .vSrc with kp := true }
  let two := { Usage.two v .vSrc .vSrc with kp := true }
  let op := x.imm8.toNat / 8 % 16
  match fn with
  | 0 => some { one with imm := 255 }
  | 1 => some { two with isBase := true }
  | 2 | 3 | 4 | 5 => some { two with imm := 7, more := widthRsv x }
  | 6 => some { one with d := .kReg, imm := 3, more := reserved (x.imm8.toNat % 4 = 3) immBit }
  | 7 => some { one with d := .uReg }
  | 8 => some { one with rm := op = 8, imm := 127, more := widthRsv x ++ reserved (11 ≤ op) (immBit + 3) }
  | 9 => some { one with rm := op = 8, imm := 255, more := widthRsv x ++ reserved (11 ≤ op) (immBit + 3) }
  | 10 => if x.imm8.getLsbD 0 then some { one with d := .uReg, imm := 1 }
          else some { two with d := .uReg, b := .uKind, imm := 1 }
  | 11 => some { two with b := .uKind, isBase := true }
  | 12 => some { Usage.one v v with isBase := true }
  | 13 => some { one with isBase := true }
  | _ => none

/-- Control and mask family (R209, R214, R217-R220). -/
def controlUsage (fn : Nat) (_x : Ext) : Option Usage :=
  match fn with
  | 0 => some { a := .kReg, c := .offset, e := .offset, imm := 1 }
  | 1 => some (.one .uReg .addr)
  | 2 => some (.one .unread .addr)
  | 3 => some { d := .uReg1, c := .offset, e := .offset }
  | 4 => some { Usage.two .unread .uSrc .uSrc with c := .offset, e := .offset, imm := 7 }
  | 5 | 6 | 7 | 8 => some { Usage.two .kReg .mSrc .mSrc with kp := true }
  | 9 | 10 => some { Usage.one .kReg .mSrc with kp := true }
  | _ => none

/-- Memory family (R297-R303, Table 14-5). -/
def memoryUsage (fn : Nat) (x : Ext) : Option Usage :=
  let size := x.imm8.toNat % 8
  let n := if size = 3 then 2 else if size = 4 then 4 else 1
  let r := x.imm8.toNat % 8 + 1
  let mem (u : Usage) : Usage := { u with c := .offset, e := .offset }
  match fn with
  | 0 => some (mem { Usage.two (.vReg n n) .base .vSrc with
        kp := true, imm := 255,
        more := reserved (5 ≤ size) immBit ++ reserved (2 ≤ size && x.imm8.getLsbD 3) (immBit + 3) })
  | 1 => some (mem { Usage.two (.vReg n n) .base .vSrc with
        kp := true, tc := true, imm := 0xf7,
        more := reserved (5 ≤ size) immBit })
  | 2 => some (mem { Usage.one .uReg .addr with imm := 0x1b })
  | 3 => some (mem { Usage.one .uReg .addr with tc := true, imm := 0x13 })
  | 4 => some (mem { Usage.two (.vReg r 1) .addr .stride with imm := 0x17 })
  | 5 => some (mem { Usage.two (.vReg r 1) .addr .stride with tc := true, imm := 0x17 })
  | 6 => some (mem { d := .spill r, tc := true, imm := 7 })
  | 7 => some (mem { d := .spill r, imm := 7 })
  | 8 => some (mem { Usage.two .unread .base .vSrc with kp := true, imm := 0x60 })
  | _ => none

/-- Copy family (R319, R329). -/
def copyUsage (fn : Nat) (_x : Ext) : Option Usage :=
  match fn with
  | 0 | 1 | 2 | 3 | 4 | 5 => some (.one .uReg (.uDesc 6))
  | 6 => some { Usage.one .uReg .uReg1 with imm := 1 }
  | 7 => some { Usage.one .unread .uReg1 with imm := 1 }
  | _ => none

/-- Content-addressed family (R348, R349, R355). -/
def contentUsage (fn : Nat) (x : Ext) : Option Usage :=
  match fn with
  | 0 | 2 => some { Usage.one .uReg (.gather (x.imm8.getLsbD 1)) with imm := 3 }
  | 1 => some (.one (.vReg 2 2) .addr)
  | 3 | 4 => some (.one .unread .addr)
  | 5 => some (.three .uReg .addr .addr .addr)
  | 6 => some (.one .uReg (.uDesc 4))
  | 7 => some (.one .uReg .addr)
  | _ => none

/-- ATOM (R381, R382, R383): the kind of D fixes the mode, SAT is the width bit. DEDUCED, log 22. -/
def atomUsage (x : Ext) : Usage :=
  let op := x.imm8.toNat % 16
  let ret := x.imm8.getLsbD 7
  let grp := codeIsS x.d.toNat
  let bk : OpKind := if grp then .uSrc else if x.sat then .v64 else .vSrc
  { Usage.three (if grp then .uReg else if x.sat then .vReg 2 2 else .vReg 1 1)
      (if grp then .addr else .base) bk (if op = 9 then bk else .unread) with
    tc := op = 9, kp := !grp, sat := !(10 ≤ op && op ≤ 13), imm := 255,
    more := reserved (14 ≤ op) immBit ++ scopeRsv x ++
      (if ret || x.d = 0 || x.d = 128 then [] else zeroDefect false x.d.toNat 32) }

/-- Synchronisation family (R381-R401, Table 19-2). -/
def syncUsage (fn : Nat) (x : Ext) : Option Usage :=
  let form := x.imm8.toNat / 16 % 4
  let bar (imm : Nat) : Usage :=
    if form = 2 then { imm }
    else { Usage.one .unread .uSrcOpt with imm, ta := x.a ≠ 0, more := reserved (form = 3) (immBit + 4) }
  match fn with
  | 0 => some (atomUsage x)
  | 1 => some { Usage.three .uReg .addr .uSrc .uSrc with
                  e := .uSrcOpt, imm := 127,
                  more := scopeRsv x ++ reserved (x.imm8.toNat % 8 = 7 && x.e = 0) immBit }
  | 2 | 3 => some { Usage.one .unread .addr with imm := 0x70, more := scopeRsv x }
  | 4 => some { imm := 0x73, more := scopeRsv x ++ reserved (x.imm8.toNat % 4 = 0) immBit }
  | 5 => some { Usage.one .uReg .addr with imm := 1 }
  | 6 => some (bar 0x3f)
  | 7 => some (bar 0x30)
  | 8 | 9 | 11 => some (.two .unread .uSrc .uSrc)
  | 10 => some { Usage.two .unread .uSrc .uSrc with imm := 1 }
  | _ => none

/-- Matrix family (R273, R278-R281, Table 13-5). -/
def matrixUsage (fn : Nat) (x : Ext) : Option Usage :=
  let pack := x.imm8.getLsbD 7
  let mem (u : Usage) : Usage := { u with c := .offset, e := .offset }
  match fn with
  | 0 => some { Usage.one .unread (.uBlock 4) with kp := true, imm := 255 }
  | 1 => some (mem { Usage.two .unread .addr (.uBlock 4) with imm := 3 })
  | 2 => some (mem { Usage.two .unread .addr (.uBlock 4) with imm := 0x1f })
  | 3 => some (mem { Usage.one .unread .addr with imm := 1 })
  | 4 => some { imm := 7 }
  | 5 => some { d := .vReg (if pack then 4 else 8) 1, kp := true, rm := pack, sat := pack, imm := 255 }
  | 6 => some { Usage.one .unread (.vReg 8 1) with kp := true, imm := 127 }
  | 7 =>
    let f := x.imm8.toNat / 16
    some (mem { Usage.two .unread .addr .scalar32 with
                  rm := true, sat := f ≠ 0 && f ≠ 8, imm := 255,
                  more := reserved (!(f ≤ 4 || f = 8)) (immBit + 4) })
  | 8 => some { Usage.one .unread (.uBlock 4) with imm := 15 }
  | 9 => some { Usage.one .unread .scalar32 with rm := true, imm := 127 }
  | _ => none

/-- Task and system family (R121, R123, R134, R150, R176, R178, R183, R430). DEDUCED, log 23. -/
def systemUsage (fn : Nat) (x : Ext) : Option Usage :=
  let imm := x.imm8.toNat
  let sreg : List Defect := if 0x0b ≤ imm && imm ≤ 0x7f then [⟨.illOpd, immBit⟩] else []
  match fn with
  | 0 | 2 | 10 => some { d := .uReg }
  | 1 => some (.one .uReg .addr)
  | 3 => some { d := .uReg, imm := 255, more := sreg }
  | 4 => some { Usage.one .unread .sysSrc with imm := 255, more := sreg }
  | 5 => some { Usage.two .unread .addr .count with imm := 7, more := reserved (5 ≤ imm % 8) immBit }
  | 6 => some (.one .uReg .sysSrc)
  | 7 => some (.one .unread .sysSrc)
  | 8 => some { d := .uReg, imm := 255, more := reserved (2 ≤ imm) immBit }
  | 9 => some {}
  | _ => none

/-- The usage of an extended instruction; none where FN names no instruction (R52, R70). -/
def usage (maj fn : Nat) (x : Ext) : Option Usage :=
  match maj with
  | 16 => uniformUsage fn x
  | 17 => vectorUsage fn x
  | 18 => floatUsage fn x
  | 19 => crossUsage fn x
  | 20 => controlUsage fn x
  | 21 => memoryUsage fn x
  | 22 => copyUsage fn x
  | 23 => contentUsage fn x
  | 24 => syncUsage fn x
  | 25 => matrixUsage fn x
  | 26 => systemUsage fn x
  | _ => none

/-! ### Defects of a shape -/

/-- The literal's defects (R45): `sel` lists the lowest bits of the fields that select it. -/
def literalDefects (present : Bool) (sel : List Nat) : List Defect :=
  match present, sel with
  | true, [] => [⟨.illLit, 0⟩]
  | false, s => s.map fun b => ⟨.illLit, b⟩
  | true, _ => []

def boolNat (b : Bool) : Nat := if b then 1 else 0

/-- The defects of an extended instruction (R53, R57, R45). -/
def extDefects (l : Limits) (maj fn : Nat) (x : Ext) : List Defect :=
  if maj < 16 || 26 < maj then [⟨.illOpc, 2⟩] else
  match usage maj fn x with
  | none => [⟨.illOpc, 7⟩]
  | some u =>
    let ops := [(u.d, x.d.toNat, 32), (u.a, x.a.toNat, 42), (u.b, x.b.toNat, 52), (u.c, x.c.toNat, 64),
                (u.e, x.e.toNat, 86)]
    literalDefects x.lit.isSome ((ops.filter fun o => o.1.selects o.2.1).map fun o => o.2.2) ++
    (ops.map fun o => operandDefects l o.1 o.2.1 o.2.2).flatten ++
    zeroDefect u.kp x.kp.toNat 16 ++ zeroDefect (x.kp ≠ 0) (boolNat x.kn) 19 ++
    zeroDefect u.rm x.rm.toNat 20 ++ reserved (6 ≤ x.rm.toNat) 20 ++ zeroDefect u.sat (boolNat x.sat) 23 ++
    zeroDefect u.ta (boolNat x.ta) 24 ++ zeroDefect u.tb (boolNat x.tb) 25 ++ zeroDefect u.tc (boolNat x.tc) 26 ++
    zeroDefect u.na (boolNat x.na) 62 ++ zeroDefect u.na (boolNat x.xa) 63 ++
    zeroDefect u.nb (boolNat x.nb) 74 ++ zeroDefect u.nb (boolNat x.xb) 75 ++
    zeroDefect u.nc (boolNat x.nc) 76 ++ zeroDefect u.nc (boolNat x.xc) 77 ++
    zeroDefect false (x.imm8.toNat - (x.imm8.toNat &&& u.imm)) immBit ++ u.more

/-- Short operand codes as 10-bit codes (Tables 3-3 and 3-4); 63 is reserved and becomes a reserved code. -/
def shortCode (uniform : Bool) (c : Nat) : Nat :=
  if c < 32 then (if uniform then 128 + c else c)
  else if c < 48 then (if uniform then 128 + c else 96 + c)
  else match c with
    | 48 => 576 | 49 => 577 | 50 => 578 | 51 => 579 | 52 => 580 | 53 => 584 | 54 => 592 | 55 => 608
    | 56 => 640 | 57 => 662 | 58 => 664 | 59 => 666 | 60 => 665 | 61 => 663 | 62 => 768
    | _ => 1023

/-- R50: the extended fields a base form stands for.  `maj` is the extended MAJ (16-19); a third source is read from D,
and a source that the instruction does not read holds 0. -/
def Ext.ofBase (maj fn : Nat) (f : BaseF) : Ext :=
  let r (c : Nat) : Nat := if maj = 16 then 128 + c else c
  match usage maj fn {} with
  | none => {}
  | some u =>
    { d := BitVec.ofNat 10 (r f.d.toNat), a := BitVec.ofNat 10 (r f.a.toNat),
      b := if u.b = .unread then 0 else BitVec.ofNat 10 (shortCode (maj = 16) f.b.toNat),
      c := if u.c = .unread then 0 else BitVec.ofNat 10 (r f.d.toNat), lit := f.lit }

/-- The defects of a base form (R49-R51, R70). -/
def baseDefects (l : Limits) (maj fn : Nat) (f : BaseF) : List Defect :=
  let x := Ext.ofBase maj fn f
  match usage maj fn {} with
  | none => [⟨.illOpc, 7⟩]
  | some u =>
    if !u.isBase then [⟨.illOpc, 7⟩] else
    literalDefects f.lit.isSome (if u.b.selects x.b.toNat then [26] else []) ++
    (if u.b = .unread then (if f.b = 0 then [] else [⟨.illRsv, 26⟩]) else operandDefects l u.b x.b.toNat 26) ++
    operandDefects l u.a x.a.toNat 20 ++ operandDefects l u.d x.d.toNat 14

/-- R22 for a uniform register that a base format names. -/
def sDefect (l : Limits) (n bit : Nat) : List Defect := if n < l.scount then [] else [⟨.illOpd, bit⟩]
/-- R22 and the alignment of a vector register that a base format names. -/
def vDefect (l : Limits) (n span bit : Nat) : List Defect :=
  if n % span = 0 && n + span ≤ l.vcount then [] else [⟨.illOpd, bit⟩]

/-- The defects of a UA word (R71, R22). -/
def uaDefects (l : Limits) (fn : Nat) (f : UaF) : List Defect :=
  (if fn = 6 then zeroDefect false (f.imm.toNat / 64) 26
   else if fn = 7 then zeroDefect false (f.imm.toNat / 128) 27 else []) ++
  sDefect l f.d.toNat 10 ++ sDefect l f.a.toNat 15

/-! ### Pair words (R61, R62, R75) -/

/-- Table 4-17: the family instruction of a half, as MAJ and FN. -/
def pairable : Nat → Option (Nat × Nat)
  | 0 => some (18, 0) | 1 => some (18, 1) | 2 => some (18, 2) | 3 => some (18, 3) | 4 => some (18, 4)
  | 5 => some (18, 5) | 6 => some (17, 0) | 7 => some (17, 1) | 8 => some (17, 2) | 9 => some (17, 5)
  | 10 => some (17, 7) | 11 => some (17, 8) | 12 => some (17, 9) | 13 => some (17, 10) | 14 => some (17, 11)
  | 15 => some (17, 12) | 16 => some (17, 13) | 17 => some (17, 14) | 18 => some (17, 19) | 19 => some (17, 24)
  | 20 => some (18, 31) | 21 => some (18, 32) | 22 => some (18, 33) | 23 => some (18, 30)
  | _ => none

/-- R61: the 8-bit A code as a 10-bit code. -/
def pairACode (c : Nat) : Nat := if c < 192 then c else c + 384

/-- One half of a pair word: the extended fields it stands for (R75), and the lowest bits of its fields. -/
structure Half where
  fn : Nat
  x : Ext
  fnBit : Nat
  dBit : Nat
  aBit : Nat
  bBit : Nat
  cBit : Nat
  deriving DecidableEq, Repr

def PairF.halfX (p : PairF) : Half :=
  { fn := p.xfn.toNat, fnBit := 7, dBit := 13, aBit := 20, bBit := 32, cBit := 39,
    x := { kp := p.xkp, d := p.xd.setWidth 10, a := BitVec.ofNat 10 (pairACode p.xa.toNat), b := p.xb.setWidth 10,
           c := p.xc.setWidth 10 } }

def PairF.halfY (p : PairF) : Half :=
  { fn := p.yfn.toNat, fnBit := 46, dBit := 52, aBit := 64, bBit := 72, cBit := 79,
    x := { kp := p.ykp, d := p.yd.setWidth 10, a := BitVec.ofNat 10 (pairACode p.ya.toNat), b := p.yb.setWidth 10,
           c := p.yc.setWidth 10 } }

/-- The usage of a half's operation (R75). -/
def Half.usage (h : Half) : Option Usage :=
  match pairable h.fn with
  | none => none
  | some (maj, fn) => Sys2Proof.usage maj fn {}

/-- The operand fields a half reads: the kind, the 10-bit code and the field's lowest bit. -/
def Half.reads (h : Half) : List (OpKind × Nat × Nat) :=
  match h.usage with
  | none => []
  | some u =>
    [(u.a, h.x.a.toNat, h.aBit), (u.b, h.x.b.toNat, h.bBit), (u.c, h.x.c.toNat, h.cBit)].filter fun r => r.1 ≠ .unread

/-- The vector banks a field reads (R62), with the field's bit. -/
def readBanks (r : OpKind × Nat × Nat) : List (Nat × Nat) :=
  if codeIsV r.2.1 then
    if r.1 = .v64 then [(r.2.1 % 4, r.2.2), ((r.2.1 + 1) % 4, r.2.2)] else [(r.2.1 % 4, r.2.2)]
  else []

/-- The vector registers a field reads. -/
def readRegs (r : OpKind × Nat × Nat) : List Nat :=
  if codeIsV r.2.1 then (if r.1 = .v64 then [r.2.1, r.2.1 + 1] else [r.2.1]) else []

/-- R62: the defects that only the two halves together show, each at the lowest bit of the fields that make it.
DEDUCED, log 21. -/
def pairRuleDefects (x y : Half) : List Defect :=
  let rs := x.reads ++ y.reads
  let odd := rs.filter fun r => r.1 = .v64 && codeIsV r.2.1 && r.2.1 % 2 = 1
  let banks := (rs.map readBanks).flatten
  let crowded := [0, 1, 2, 3].filter fun b => 2 < (banks.filter fun p => p.1 = b).length
  let overBits := (banks.filter fun p => crowded.contains p.1).map fun p => p.2
  (if x.x.d = y.x.d then [⟨.illPair, x.dBit⟩] else []) ++
  (if y.reads.any fun r => (readRegs r).contains x.x.d.toNat then [⟨.illPair, x.dBit⟩] else []) ++
  overBits.map (fun b => ⟨.illPair, b⟩) ++
  (if x.reads.any (fun r => codeIsS r.2.1) && y.reads.any (fun r => codeIsS r.2.1) then [⟨.illPair, x.aBit⟩] else []) ++
  odd.map fun r => ⟨.illPair, r.2.2⟩

/-- The defects of one half alone: an FN without an operation, an unread field that is not 0, a register outside the
kernel's counts (R61, R22).  An odd 64-bit register is R62's. -/
def Half.defects (l : Limits) (h : Half) : List Defect :=
  match h.usage with
  | none => [⟨.illOpc, h.fnBit⟩]
  | some u =>
    let one (k : OpKind) (code bit : Nat) : List Defect :=
      match k with
      | .unread => if code = 0 then [] else [⟨.illRsv, bit⟩]
      | .v64 => if l.allows (k.covers code) (if codeIsV code then code - code % 2 else code) then [] else [⟨.illOpd, bit⟩]
      | k => if l.allows (k.covers code) code then [] else [⟨.illOpd, bit⟩]
    one u.d h.x.d.toNat h.dBit ++ one u.a h.x.a.toNat h.aBit ++ one u.b h.x.b.toNat h.bBit ++
      one u.c h.x.c.toNat h.cBit

/-- The defects of a pair word's fields. -/
def pairDefects (l : Limits) (p : PairF) : List Defect :=
  p.halfX.defects l ++ p.halfY.defects l ++
  (if p.halfX.usage.isSome && p.halfY.usage.isSome then pairRuleDefects p.halfX p.halfY else [])

/-- Every defect of a shape. -/
def Shape.defects (l : Limits) : Shape → List Defect
  | .ui _ f => sDefect l f.d.toNat 7
  | .ua fn f => if fn < 8 then uaDefects l fn f else [⟨.illOpc, 7⟩]
  | .base maj fn f => if 4 ≤ maj && maj ≤ 7 then baseDefects l (maj + 12) fn f else [⟨.illOpc, 2⟩]
  | .bra _ _ => []
  | .brac f => if 5 ≤ f.cond.toNat then [⟨.illOpc, 7⟩] else []
  | .bctl fn imm =>
    if 7 ≤ fn then [⟨.illOpc, 7⟩] else if fn = 6 then [] else zeroDefect false imm.toNat 14
  | .bm _ f =>
    if f.w = 3 then [⟨.illOpc, 7⟩]
    else sDefect l f.b.toNat 17 ++ vDefect l f.a.toNat 1 22 ++ vDefect l f.d.toNat (2 ^ f.w.toNat) 11
  | .um _ f => sDefect l f.a.toNat 15 ++ sDefect l f.d.toNat 10
  | .ext maj fn x => extDefects l maj fn x
  | .pair p => pairDefects l p


/-! ### Names -/

/-- The shape of an instruction; none for a device event, which no word encodes. -/
def Instr.shape : Instr → Option Shape
  | .loadObject _ _ _ _ _ _ => none
  | .registerWrite _ _ _ _ => none
  | .w0BadAccess _ _ _ => none
  | .qwptrWrite _ _ _ => none
  | .queueEnable _ _ _ => none
  | .queueHalt _ _ _ => none
  | .packetParse _ => none
  | .packetPerform _ => none
  | .nopPacket _ => none
  | .write _ => none
  | .launch _ => none
  | .edge _ => none
  | .ib _ => none
  | .pred _ => none
  | .loopPacket _ => none
  | .wait _ => none
  | .waitReevaluate _ => none
  | .waitTimeout _ => none
  | .signal _ => none
  | .fetchFence _ => none
  | .timestamp _ => none
  | .checkpoint _ => none
  | .checkpointDone _ => none
  | .owner _ => none
  | .parserStallResume _ => none
  | .droneMismatch => none
  | .droneRecoveryEnd => none
  | .spliceDecision _ => none
  | .placeBlock _ => none
  | .reservation _ => none
  | .reservationPreempt _ => none
  | .dispenserRefill _ _ => none
  | .blockEnd _ => none
  | .taskRetire _ => none
  | .blockResume _ => none
  | .preempt _ => none
  | .kill _ => none
  | .saveComplete _ => none
  | .powerUp _ _ _ _ _ => none
  | .fieldPowerUp _ => none
  | .fieldPowerDown _ => none
  | .supplyPath _ _ _ _ => none
  | .fieldTrip _ => none
  | .fieldTripRelease _ => none
  | .modtrip _ => none
  | .pwrWatchdog _ => none
  | .pwrUpdate _ => none
  | .thermal _ _ _ => none
  | .thermalRelease _ => none
  | .strumWrite _ _ => none
  | .allowRefillWrite _ _ => none
  | .slewStep => none
  | .throttleEdge _ => none
  | .groupSwap _ => none
  | .forcedSwap _ => none
  | .sleepWake _ => none
  | .registerFill _ => none
  | .trapEntry _ => none
  | .regionTimeoutHead _ => none
  | .regionClose _ => none
  | .regionCommit _ => none
  | .storeDrain _ => none
  | .taggedHoldEnd _ => none
  | .sensorReport _ => none
  | .cellCountDecay _ => none
  | .cellInject _ _ => none
  | .cellClear _ _ => none
  | .eccCorr _ _ _ _ => none
  | .poison _ => none
  | .linkEvent _ _ _ _ => none
  | .eventRecordWrite _ => none
  | .pageWalk _ _ _ _ => none
  | .shootdown _ => none
  | .shootdownDone _ => none
  | .ownerRetire _ => none
  | .capDisable _ => none
  | .copyPieceRead _ _ => none
  | .copyPieceDrain _ _ => none
  | .atomicPerform _ => none
  | .monitorEvaluate _ => none
  | .waitcTimeout _ => none
  | .lockPerform _ => none
  | .barrierArrival _ => none
  | .courseUpdate _ => none
  | .spawnPerform _ => none
  | .joinPerform _ => none
  | .caputPerform _ => none
  | .caCountChange _ => none
  | .caswapPerform _ => none
  | .reclaimRelease => none
  | .slui f => some (.ui false f)
  | .sauipc f => some (.ui true f)
  | .saddi f => some (.ua 0 f)
  | .sandi f => some (.ua 1 f)
  | .sori f => some (.ua 2 f)
  | .sxori f => some (.ua 3 f)
  | .sslti f => some (.ua 4 f)
  | .ssltiu f => some (.ua 5 f)
  | .sshli f => some (.ua 6 ⟨f.cnt.setWidth 12, f.a, f.d⟩)
  | .sshri f => some (.ua 7 ⟨f.cnt.setWidth 12, f.a, f.d⟩)
  | .ssrai f => some (.ua 7 ⟨(1#1 ++ f.cnt).setWidth 12, f.a, f.d⟩)
  | .bra off => some (.bra false off)
  | .call off => some (.bra true off)
  | .brac f => some (.brac f)
  | .nop => some (.bctl 0 0)
  | .exit => some (.bctl 1 0)
  | .ret => some (.bctl 2 0)
  | .yield => some (.bctl 3 0)
  | .rgn => some (.bctl 4 0)
  | .rcv => some (.bctl 5 0)
  | .trap imm => some (.bctl 6 imm)
  | .ldShort f => some (.bm false f)
  | .stShort f => some (.bm true f)
  | .lduImm f => some (.um false f)
  | .stuImm f => some (.um true f)
  | .saddBase f => some (.base 4 0 f)
  | .ssubBase f => some (.base 4 1 f)
  | .smulBase f => some (.base 4 2 f)
  | .smulhBase f => some (.base 4 3 f)
  | .smulhuBase f => some (.base 4 4 f)
  | .sdivBase f => some (.base 4 5 f)
  | .sdivuBase f => some (.base 4 6 f)
  | .sremBase f => some (.base 4 7 f)
  | .sremuBase f => some (.base 4 8 f)
  | .sandBase f => some (.base 4 9 f)
  | .sorBase f => some (.base 4 10 f)
  | .sxorBase f => some (.base 4 11 f)
  | .sshlBase f => some (.base 4 12 f)
  | .sshrBase f => some (.base 4 13 f)
  | .ssraBase f => some (.base 4 14 f)
  | .sminBase f => some (.base 4 15 f)
  | .smaxBase f => some (.base 4 16 f)
  | .sminuBase f => some (.base 4 17 f)
  | .smaxuBase f => some (.base 4 18 f)
  | .ssltBase f => some (.base 4 19 f)
  | .ssltuBase f => some (.base 4 20 f)
  | .sseqBase f => some (.base 4 21 f)
  | .spopcBase f => some (.base 4 25 f)
  | .sclzBase f => some (.base 4 26 f)
  | .sctzBase f => some (.base 4 27 f)
  | .smovBase f => some (.base 4 28 f)
  | .ssx32Base f => some (.base 4 30 f)
  | .sadd x => some (.ext 16 0 x)
  | .ssub x => some (.ext 16 1 x)
  | .smul x => some (.ext 16 2 x)
  | .smulh x => some (.ext 16 3 x)
  | .smulhu x => some (.ext 16 4 x)
  | .sdiv x => some (.ext 16 5 x)
  | .sdivu x => some (.ext 16 6 x)
  | .srem x => some (.ext 16 7 x)
  | .sremu x => some (.ext 16 8 x)
  | .sand x => some (.ext 16 9 x)
  | .sor x => some (.ext 16 10 x)
  | .sxor x => some (.ext 16 11 x)
  | .sshl x => some (.ext 16 12 x)
  | .sshr x => some (.ext 16 13 x)
  | .ssra x => some (.ext 16 14 x)
  | .smin x => some (.ext 16 15 x)
  | .smax x => some (.ext 16 16 x)
  | .sminu x => some (.ext 16 17 x)
  | .smaxu x => some (.ext 16 18 x)
  | .sslt x => some (.ext 16 19 x)
  | .ssltu x => some (.ext 16 20 x)
  | .sseq x => some (.ext 16 21 x)
  | .ssel x => some (.ext 16 22 x)
  | .sbfx x => some (.ext 16 23 x)
  | .sbfi x => some (.ext 16 24 x)
  | .spopc x => some (.ext 16 25 x)
  | .sclz x => some (.ext 16 26 x)
  | .sctz x => some (.ext 16 27 x)
  | .smov x => some (.ext 16 28 x)
  | .sidx x => some (.ext 16 29 x)
  | .ssx32 x => some (.ext 16 30 x)
  | .vaddBase f => some (.base 5 0 f)
  | .vsubBase f => some (.base 5 1 f)
  | .vmulBase f => some (.base 5 2 f)
  | .vmulhBase f => some (.base 5 3 f)
  | .vmulhuBase f => some (.base 5 4 f)
  | .vmadBase f => some (.base 5 5 f)
  | .vandBase f => some (.base 5 7 f)
  | .vorBase f => some (.base 5 8 f)
  | .vxorBase f => some (.base 5 9 f)
  | .vshlBase f => some (.base 5 10 f)
  | .vshrBase f => some (.base 5 11 f)
  | .vsraBase f => some (.base 5 12 f)
  | .vminBase f => some (.base 5 13 f)
  | .vmaxBase f => some (.base 5 14 f)
  | .vminuBase f => some (.base 5 15 f)
  | .vmaxuBase f => some (.base 5 16 f)
  | .vabsdBase f => some (.base 5 17 f)
  | .vpopcBase f => some (.base 5 22 f)
  | .vclzBase f => some (.base 5 23 f)
  | .vmovBase f => some (.base 5 24 f)
  | .vdot4Base f => some (.base 5 29 f)
  | .vdot8Base f => some (.base 5 30 f)
  | .vadd x => some (.ext 17 0 x)
  | .vsub x => some (.ext 17 1 x)
  | .vmul x => some (.ext 17 2 x)
  | .vmulh x => some (.ext 17 3 x)
  | .vmulhu x => some (.ext 17 4 x)
  | .vmad x => some (.ext 17 5 x)
  | .vmadw x => some (.ext 17 6 x)
  | .vand x => some (.ext 17 7 x)
  | .vor x => some (.ext 17 8 x)
  | .vxor x => some (.ext 17 9 x)
  | .vshl x => some (.ext 17 10 x)
  | .vshr x => some (.ext 17 11 x)
  | .vsra x => some (.ext 17 12 x)
  | .vmin x => some (.ext 17 13 x)
  | .vmax x => some (.ext 17 14 x)
  | .vminu x => some (.ext 17 15 x)
  | .vmaxu x => some (.ext 17 16 x)
  | .vabsd x => some (.ext 17 17 x)
  | .vcmp x => some (.ext 17 18 x)
  | .vsel x => some (.ext 17 19 x)
  | .vbfx x => some (.ext 17 20 x)
  | .vbfi x => some (.ext 17 21 x)
  | .vpopc x => some (.ext 17 22 x)
  | .vclz x => some (.ext 17 23 x)
  | .vmov x => some (.ext 17 24 x)
  | .vidx x => some (.ext 17 25 x)
  | .vaddc x => some (.ext 17 26 x)
  | .vperm x => some (.ext 17 27 x)
  | .vsatp x => some (.ext 17 28 x)
  | .vdot4 x => some (.ext 17 29 x)
  | .vdot8 x => some (.ext 17 30 x)
  | .vlea x => some (.ext 17 31 x)
  | .faddBase f => some (.base 6 0 f)
  | .fsubBase f => some (.base 6 1 f)
  | .fmulBase f => some (.base 6 2 f)
  | .ffmaBase f => some (.base 6 3 f)
  | .fminBase f => some (.base 6 4 f)
  | .fmaxBase f => some (.base 6 5 f)
  | .fclassBase f => some (.base 6 7 f)
  | .frndBase f => some (.base 6 8 f)
  | .fdivBase f => some (.base 6 9 f)
  | .fsqrtBase f => some (.base 6 10 f)
  | .frcpBase f => some (.base 6 11 f)
  | .frsqBase f => some (.base 6 12 f)
  | .fexpBase f => some (.base 6 13 f)
  | .fexp2Base f => some (.base 6 14 f)
  | .flog2Base f => some (.base 6 15 f)
  | .fsinpiBase f => some (.base 6 16 f)
  | .fcospiBase f => some (.base 6 17 f)
  | .ftanhBase f => some (.base 6 18 f)
  | .fsigmBase f => some (.base 6 19 f)
  | .fgeluBase f => some (.base 6 20 f)
  | .fsiluBase f => some (.base 6 21 f)
  | .ferfBase f => some (.base 6 22 f)
  | .fldexpBase f => some (.base 6 23 f)
  | .ffracBase f => some (.base 6 24 f)
  | .fdot2Base f => some (.base 6 30 f)
  | .hadd2Base f => some (.base 6 31 f)
  | .hmul2Base f => some (.base 6 32 f)
  | .hfma2Base f => some (.base 6 33 f)
  | .hmin2Base f => some (.base 6 34 f)
  | .hmax2Base f => some (.base 6 35 f)
  | .fadd x => some (.ext 18 0 x)
  | .fsub x => some (.ext 18 1 x)
  | .fmul x => some (.ext 18 2 x)
  | .ffma x => some (.ext 18 3 x)
  | .fmin x => some (.ext 18 4 x)
  | .fmax x => some (.ext 18 5 x)
  | .fcmp x => some (.ext 18 6 x)
  | .fclass x => some (.ext 18 7 x)
  | .frnd x => some (.ext 18 8 x)
  | .fdiv x => some (.ext 18 9 x)
  | .fsqrt x => some (.ext 18 10 x)
  | .frcp x => some (.ext 18 11 x)
  | .frsq x => some (.ext 18 12 x)
  | .fexp x => some (.ext 18 13 x)
  | .fexp2 x => some (.ext 18 14 x)
  | .flog2 x => some (.ext 18 15 x)
  | .fsinpi x => some (.ext 18 16 x)
  | .fcospi x => some (.ext 18 17 x)
  | .ftanh x => some (.ext 18 18 x)
  | .fsigm x => some (.ext 18 19 x)
  | .fgelu x => some (.ext 18 20 x)
  | .fsilu x => some (.ext 18 21 x)
  | .ferf x => some (.ext 18 22 x)
  | .fldexp x => some (.ext 18 23 x)
  | .ffrac x => some (.ext 18 24 x)
  | .fcvt x => some (.ext 18 25 x)
  | .fcvti x => some (.ext 18 26 x)
  | .icvtf x => some (.ext 18 27 x)
  | .fpack x => some (.ext 18 28 x)
  | .funpk x => some (.ext 18 29 x)
  | .fdot2 x => some (.ext 18 30 x)
  | .hadd2 x => some (.ext 18 31 x)
  | .hmul2 x => some (.ext 18 32 x)
  | .hfma2 x => some (.ext 18 33 x)
  | .hmin2 x => some (.ext 18 34 x)
  | .hmax2 x => some (.ext 18 35 x)
  | .qbcstBase f => some (.base 7 1 f)
  | .stovBase f => some (.base 7 11 f)
  | .vtagBase f => some (.base 7 12 f)
  | .vgenBase f => some (.base 7 13 f)
  | .qswap x => some (.ext 19 0 x)
  | .qbcst x => some (.ext 19 1 x)
  | .gshuf x => some (.ext 19 2 x)
  | .gshfx x => some (.ext 19 3 x)
  | .gshfu x => some (.ext 19 4 x)
  | .gshfd x => some (.ext 19 5 x)
  | .gvote x => some (.ext 19 6 x)
  | .gbalt x => some (.ext 19 7 x)
  | .gred x => some (.ext 19 8 x)
  | .gscan x => some (.ext 19 9 x)
  | .vtos x => some (.ext 19 10 x)
  | .stov x => some (.ext 19 11 x)
  | .vtag x => some (.ext 19 12 x)
  | .vgen x => some (.ext 19 13 x)
  | .pairWord p => some (.pair p)
  | .divb x => some (.ext 20 0 x)
  | .callr x => some (.ext 20 1 x)
  | .jmpr x => some (.ext 20 2 x)
  | .loop x => some (.ext 20 3 x)
  | .sbrc x => some (.ext 20 4 x)
  | .kand x => some (.ext 20 5 x)
  | .kor x => some (.ext 20 6 x)
  | .kxor x => some (.ext 20 7 x)
  | .kandn x => some (.ext 20 8 x)
  | .knot x => some (.ext 20 9 x)
  | .kmov x => some (.ext 20 10 x)
  | .ld x => some (.ext 21 0 x)
  | .st x => some (.ext 21 1 x)
  | .ldu x => some (.ext 21 2 x)
  | .stu x => some (.ext 21 3 x)
  | .ldt x => some (.ext 21 4 x)
  | .stt x => some (.ext 21 5 x)
  | .spill x => some (.ext 21 6 x)
  | .fill x => some (.ext 21 7 x)
  | .prf x => some (.ext 21 8 x)
  | .cpy x => some (.ext 22 0 x)
  | .cpyt x => some (.ext 22 1 x)
  | .cpyg x => some (.ext 22 2 x)
  | .cpys x => some (.ext 22 3 x)
  | .cpyr x => some (.ext 22 4 x)
  | .cpyw x => some (.ext 22 5 x)
  | .cpyq x => some (.ext 22 6 x)
  | .cpyx x => some (.ext 22 7 x)
  | .caput x => some (.ext 23 0 x)
  | .caget x => some (.ext 23 1 x)
  | .cahash x => some (.ext 23 2 x)
  | .caref x => some (.ext 23 3 x)
  | .carel x => some (.ext 23 4 x)
  | .caswap x => some (.ext 23 5 x)
  | .caout x => some (.ext 23 6 x)
  | .caprb x => some (.ext 23 7 x)
  | .atom x => some (.ext 24 0 x)
  | .waitc x => some (.ext 24 1 x)
  | .qlock x => some (.ext 24 2 x)
  | .qunlk x => some (.ext 24 3 x)
  | .fence x => some (.ext 24 4 x)
  | .promote x => some (.ext 24 5 x)
  | .bar x => some (.ext 24 6 x)
  | .lbar x => some (.ext 24 7 x)
  | .csini x => some (.ext 24 8 x)
  | .csarv x => some (.ext 24 9 x)
  | .cswt x => some (.ext 24 10 x)
  | .csrel x => some (.ext 24 11 x)
  | .mma x => some (.ext 25 0 x)
  | .mlda x => some (.ext 25 1 x)
  | .mldb x => some (.ext 25 2 x)
  | .mcbt x => some (.ext 25 3 x)
  | .mzero x => some (.ext 25 4 x)
  | .mrd x => some (.ext 25 5 x)
  | .mwr x => some (.ext 25 6 x)
  | .mst x => some (.ext 25 7 x)
  | .mcmp x => some (.ext 25 8 x)
  | .mscl x => some (.ext 25 9 x)
  | .tfetch x => some (.ext 26 0 x)
  | .spawn x => some (.ext 26 1 x)
  | .join x => some (.ext 26 2 x)
  | .sget x => some (.ext 26 3 x)
  | .sset x => some (.ext 26 4 x)
  | .icinv x => some (.ext 26 5 x)
  | .tarm x => some (.ext 26 6 x)
  | .sleep x => some (.ext 26 7 x)
  | .time x => some (.ext 26 8 x)
  | .rte x => some (.ext 26 9 x)
  | .pwrq x => some (.ext 26 10 x)
  | .waitcPerform _ => none
  | .icinvDone _ => none
  | .fieldRampDone _ => none
  | .pwrUpdateEnd => none
  | .keyWrite _ _ _ _ => none
  | .peerRead _ _ _ => none

/-- An instruction is well formed for a kernel when it is one (no device event) and its fields carry no defect. -/
def Instr.WellFormed (l : Limits) (i : Instr) : Prop := ∃ sh, i.shape = some sh ∧ sh.defects l = []

/-- The decidable form of `Instr.WellFormed`. -/
def Instr.wf (l : Limits) (i : Instr) : Bool :=
  match i.shape with
  | none => false
  | some sh => (sh.defects l).isEmpty

end Sys2Proof
end

