-- ==== Sys2Proof/Decode.lean ====
section
/-!
DEFINITION. Decode.lean: the words of an instruction to the instruction and back.  `readShape` takes the words apart by
Tables 3-1, 3-2, 3-5 to 3-7 and 3-12, `Shape.toInstr?` names it by Tables 4-3 to 4-15, and `decodeWith` refuses what
carries a defect, with the fault that R47 chooses.  `encode` writes the words again from the same tables.
-/

namespace Sys2Proof

/-! ### From words to fields -/

/-- Bits [lo + n - 1 : lo] of a word. -/
def field (w : W32) (lo n : Nat) : BitVec n := w.extractLsb' lo n

/-- LEN and MAJ of word 0 (R44). -/
def lenOf (w0 : W32) : Nat := (field w0 0 2).toNat
def majOf (w0 : W32) : Nat := (field w0 2 5).toNat

/-- Table 3-1: the words an instruction occupies. -/
def wordCount (w0 : W32) : Nat :=
  match lenOf w0 with
  | 0 => 1
  | 1 => 3
  | 2 => 3
  | _ => 5

/-- Tables 3-5 to 3-7. -/
def readExt (w0 w1 w2 : W32) (lit : Option W64) : Ext :=
  { kp := field w0 16 3, kn := w0.getLsbD 19, rm := field w0 20 3, sat := w0.getLsbD 23, ta := w0.getLsbD 24,
    tb := w0.getLsbD 25, tc := w0.getLsbD 26, yh := field w0 27 2, ch := field w0 29 2,
    d := field w1 0 10, a := field w1 10 10, b := field w1 20 10, na := w1.getLsbD 30, xa := w1.getLsbD 31,
    c := field w2 0 10, nb := w2.getLsbD 10, xb := w2.getLsbD 11, nc := w2.getLsbD 12, xc := w2.getLsbD 13,
    imm8 := field w2 14 8, e := field w2 22 10, lit }

/-- Table 3-12. -/
def readPair (w0 w1 w2 : W32) : PairF :=
  { xfn := field w0 7 6, xd := field w0 13 7, xa := field w0 20 8, xkp := field w0 28 3,
    xb := field w1 0 7, xc := field w1 7 7, yfn := field w1 14 6, yd := field w1 20 7, ykp := field w1 27 3,
    ya := field w2 0 8, yb := field w2 8 7, yc := field w2 15 7 }

/-- What the words of an instruction are before their fields are checked: the shape, and the defects that the words
carry outside its fields (reserved bits; a literal in a format that has no field for one). -/
inductive RawShape where
  | shape (sh : Shape) (extra : List Defect)
  | bad (d : Defect)
  deriving DecidableEq, Repr

/-- Table 3-2: a word with LEN 00 or 01.  A format with no field for a literal takes ILL_LIT with LEN 01 (R45). -/
def readBase (w0 : W32) (lit : Option W64) : RawShape :=
  let maj := majOf w0
  let extra : List Defect := if lit.isSome then [⟨.illLit, 0⟩] else []
  let ua : UaF := { imm := field w0 20 12, a := field w0 15 5, d := field w0 10 5 }
  match maj with
  | 1 => .shape (.ui false { imm := field w0 12 20, d := field w0 7 5 }) extra
  | 2 => .shape (.ui true { imm := field w0 12 20, d := field w0 7 5 }) extra
  | 3 => .shape (.ua (field w0 7 3).toNat ua) extra
  | 8 => .shape (.bra false (field w0 7 25)) extra
  | 9 => .shape (.bra true (field w0 7 25)) extra
  | 10 => .shape (.brac { off := field w0 14 18, k := field w0 11 3, cond := field w0 7 4 }) extra
  | 11 => .shape (.bctl (field w0 7 7).toNat (field w0 14 18)) extra
  | 12 =>
    .shape (.bm (w0.getLsbD 9) { off := field w0 28 4, a := field w0 22 6, b := field w0 17 5, d := field w0 11 6,
                                 scr := w0.getLsbD 10, w := field w0 7 2 }) extra
  | 13 => .shape (.um (w0.getLsbD 9) { imm := ua.imm, a := ua.a, d := ua.d, w := field w0 7 2 }) extra
  | _ =>
    if 4 ≤ maj && maj ≤ 7 then
      .shape (.base maj (field w0 7 7).toNat { b := field w0 26 6, a := field w0 20 6, d := field w0 14 6, lit }) []
    else .bad ⟨.illOpc, 2⟩

/-- A word with LEN 10 or 11 (R52). -/
def readExtended (w0 w1 w2 : W32) (lit : Option W64) : RawShape :=
  let maj := majOf w0
  if maj = 31 then
    if lit.isSome then .bad ⟨.illLit, 0⟩
    else .shape (.pair (readPair w0 w1 w2))
      (zeroDefect false (field w0 31 1).toNat 31 ++ zeroDefect false (field w1 30 2).toNat 62 ++
        zeroDefect false (field w2 22 10).toNat 86)
  else if 16 ≤ maj && maj ≤ 26 then
    .shape (.ext maj (field w0 7 9).toNat (readExt w0 w1 w2 lit)) (zeroDefect false (field w0 31 1).toNat 31)
  else .bad ⟨.illOpc, 2⟩

/-- R44: the shape of an instruction's words; a list too short for LEN is no instruction (`none`). -/
def readShape : List W32 → Option RawShape
  | [] => none
  | w0 :: rest =>
    match lenOf w0, rest with
    | 0, _ => some (readBase w0 none)
    | 1, l0 :: l1 :: _ => some (readBase w0 (some (l1 ++ l0)))
    | 2, w1 :: w2 :: _ => some (readExtended w0 w1 w2 none)
    | 3, w1 :: w2 :: l0 :: l1 :: _ => some (readExtended w0 w1 w2 (some (l1 ++ l0)))
    | _, _ => none

/-- R47: of two defects, the one that is reported. -/
def Defect.first (p q : Defect) : Defect :=
  if p.fault.rank < q.fault.rank || (p.fault.rank = q.fault.rank && p.bit ≤ q.bit) then p else q

/-- R47: the defect that is reported of several. -/
def firstDefect : List Defect → Option Defect
  | [] => none
  | d :: ds =>
    match firstDefect ds with
    | none => some d
    | some e => some (d.first e)

/-- What a decoder answers. -/
inductive Decoded where
  | ok (i : Instr)
  | bad (d : Defect)
  deriving DecidableEq, Repr

/-- What the words are once their fields are checked: the shape, or the defect R47 reports. -/
inductive CheckedShape where
  | ok (sh : Shape)
  | bad (d : Defect)
  deriving DecidableEq, Repr

/-- The checks of the decoder, total on any words, for a kernel's register counts (R22).  Words too few for LEN are
ILL_OPC. -/
def checkShape (l : Limits) (ws : List W32) : CheckedShape :=
  match readShape ws with
  | none => .bad ⟨.illOpc, 0⟩
  | some (.bad d) => .bad d
  | some (.shape sh extra) =>
    match firstDefect (extra ++ sh.defects l) with
    | some d => .bad d
    | none => .ok sh

/-! ### Bytes -/

/-- Four bytes as a little-endian word (R4). -/
def wordOfBytes (b0 b1 b2 b3 : Byte) : W32 := b3 ++ b2 ++ b1 ++ b0

/-- The little-endian bytes of a word. -/
def bytesOfWord (w : W32) : List Byte :=
  [w.extractLsb' 0 8, w.extractLsb' 8 8, w.extractLsb' 16 8, w.extractLsb' 24 8]

/-- Bytes as words; a tail of fewer than four bytes is dropped. -/
def wordsOfBytes : List Byte → List W32
  | b0 :: b1 :: b2 :: b3 :: rest => wordOfBytes b0 b1 b2 b3 :: wordsOfBytes rest
  | _ => []

/-! ### The encoder -/

/-- A flag as a one-bit field. -/
def flag (b : Bool) : BitVec 1 := BitVec.ofBool b

/-- The literal words of an instruction, low word first (Table 3-1). -/
def litWords : Option W64 → List W32
  | none => []
  | some v => [v.extractLsb' 0 32, v.extractLsb' 32 32]

/-- LEN of a base form and of an extended form. -/
def lenBits (ext : Bool) (lit : Option W64) : BitVec 2 :=
  match ext, lit with
  | false, none => 0
  | false, some _ => 1
  | true, none => 2
  | true, some _ => 3

/-- The words of a shape. -/
def Shape.encode : Shape → List W32
  | .ui pc f => [f.imm ++ f.d ++ (if pc then 2#5 else 1#5) ++ 0#2]
  | .ua fn f => [f.imm ++ f.a ++ f.d ++ BitVec.ofNat 3 fn ++ 3#5 ++ 0#2]
  | .base maj fn f =>
    (f.b ++ f.a ++ f.d ++ BitVec.ofNat 7 fn ++ BitVec.ofNat 5 maj ++ lenBits false f.lit) :: litWords f.lit
  | .bra link off => [off ++ (if link then 9#5 else 8#5) ++ 0#2]
  | .brac f => [f.off ++ f.k ++ f.cond ++ 10#5 ++ 0#2]
  | .bctl fn imm => [imm ++ BitVec.ofNat 7 fn ++ 11#5 ++ 0#2]
  | .bm store f => [f.off ++ f.a ++ f.b ++ f.d ++ flag f.scr ++ flag store ++ f.w ++ 12#5 ++ 0#2]
  | .um store f => [f.imm ++ f.a ++ f.d ++ flag store ++ f.w ++ 13#5 ++ 0#2]
  | .ext maj fn x =>
    (0#1 ++ x.ch ++ x.yh ++ flag x.tc ++ flag x.tb ++ flag x.ta ++ flag x.sat ++ x.rm ++ flag x.kn ++ x.kp ++
      BitVec.ofNat 9 fn ++ BitVec.ofNat 5 maj ++ lenBits true x.lit) ::
    (flag x.xa ++ flag x.na ++ x.b ++ x.a ++ x.d) ::
    (x.e ++ x.imm8 ++ flag x.xc ++ flag x.nc ++ flag x.xb ++ flag x.nb ++ x.c) :: litWords x.lit
  | .pair p =>
    [0#1 ++ p.xkp ++ p.xa ++ p.xd ++ p.xfn ++ 31#5 ++ 2#2,
     0#2 ++ p.ykp ++ p.yd ++ p.yfn ++ p.xc ++ p.xb,
     0#10 ++ p.yc ++ p.yb ++ p.ya]

/-- The words of an instruction; a device event has none. DESIGN CHOICE, log 117. -/
def encode (i : Instr) : List W32 :=
  match i.shape with
  | none => []
  | some sh => sh.encode

/-- The length of an instruction in bytes (R44). -/
def Instr.bytes (i : Instr) : Nat := 4 * (encode i).length

/-- The bytes of an instruction as they lie in memory. -/
def encodeBytes (i : Instr) : List Byte := (encode i).flatMap bytesOfWord

/-! ### The host's numbering of a table row's bits -/

/-- The low `n` bytes of a number, least significant first. -/
def natBytes : Nat → Nat → List Byte
  | 0, _ => []
  | n + 1, w => BitVec.ofNat 8 (w % 256) :: natBytes n (w / 256)

/-- The bytes of an instruction whose low `nbits` bits are `w` and whose other bits, up to the longest instruction's
twenty bytes, are 0. -/
def tableBytes (nbits w : Nat) : List Byte := natBytes 20 (w % 2 ^ nbits)

/-! ### From fields to a name

Lean's code generator builds no constructor with fields past its 245th, so the naming half is not compiled; the kernel
evaluates it. -/

noncomputable section

/-- FN of MAJ 16 as an instruction. -/
def extUniform : Nat → Ext → Option Instr
  | 0, x => some (.sadd x)
  | 1, x => some (.ssub x)
  | 2, x => some (.smul x)
  | 3, x => some (.smulh x)
  | 4, x => some (.smulhu x)
  | 5, x => some (.sdiv x)
  | 6, x => some (.sdivu x)
  | 7, x => some (.srem x)
  | 8, x => some (.sremu x)
  | 9, x => some (.sand x)
  | 10, x => some (.sor x)
  | 11, x => some (.sxor x)
  | 12, x => some (.sshl x)
  | 13, x => some (.sshr x)
  | 14, x => some (.ssra x)
  | 15, x => some (.smin x)
  | 16, x => some (.smax x)
  | 17, x => some (.sminu x)
  | 18, x => some (.smaxu x)
  | 19, x => some (.sslt x)
  | 20, x => some (.ssltu x)
  | 21, x => some (.sseq x)
  | 22, x => some (.ssel x)
  | 23, x => some (.sbfx x)
  | 24, x => some (.sbfi x)
  | 25, x => some (.spopc x)
  | 26, x => some (.sclz x)
  | 27, x => some (.sctz x)
  | 28, x => some (.smov x)
  | 29, x => some (.sidx x)
  | 30, x => some (.ssx32 x)
  | _, _ => none

/-- FN of MAJ 17 as an instruction. -/
def extVector : Nat → Ext → Option Instr
  | 0, x => some (.vadd x)
  | 1, x => some (.vsub x)
  | 2, x => some (.vmul x)
  | 3, x => some (.vmulh x)
  | 4, x => some (.vmulhu x)
  | 5, x => some (.vmad x)
  | 6, x => some (.vmadw x)
  | 7, x => some (.vand x)
  | 8, x => some (.vor x)
  | 9, x => some (.vxor x)
  | 10, x => some (.vshl x)
  | 11, x => some (.vshr x)
  | 12, x => some (.vsra x)
  | 13, x => some (.vmin x)
  | 14, x => some (.vmax x)
  | 15, x => some (.vminu x)
  | 16, x => some (.vmaxu x)
  | 17, x => some (.vabsd x)
  | 18, x => some (.vcmp x)
  | 19, x => some (.vsel x)
  | 20, x => some (.vbfx x)
  | 21, x => some (.vbfi x)
  | 22, x => some (.vpopc x)
  | 23, x => some (.vclz x)
  | 24, x => some (.vmov x)
  | 25, x => some (.vidx x)
  | 26, x => some (.vaddc x)
  | 27, x => some (.vperm x)
  | 28, x => some (.vsatp x)
  | 29, x => some (.vdot4 x)
  | 30, x => some (.vdot8 x)
  | 31, x => some (.vlea x)
  | _, _ => none

/-- FN of MAJ 18 as an instruction. -/
def extFloat : Nat → Ext → Option Instr
  | 0, x => some (.fadd x)
  | 1, x => some (.fsub x)
  | 2, x => some (.fmul x)
  | 3, x => some (.ffma x)
  | 4, x => some (.fmin x)
  | 5, x => some (.fmax x)
  | 6, x => some (.fcmp x)
  | 7, x => some (.fclass x)
  | 8, x => some (.frnd x)
  | 9, x => some (.fdiv x)
  | 10, x => some (.fsqrt x)
  | 11, x => some (.frcp x)
  | 12, x => some (.frsq x)
  | 13, x => some (.fexp x)
  | 14, x => some (.fexp2 x)
  | 15, x => some (.flog2 x)
  | 16, x => some (.fsinpi x)
  | 17, x => some (.fcospi x)
  | 18, x => some (.ftanh x)
  | 19, x => some (.fsigm x)
  | 20, x => some (.fgelu x)
  | 21, x => some (.fsilu x)
  | 22, x => some (.ferf x)
  | 23, x => some (.fldexp x)
  | 24, x => some (.ffrac x)
  | 25, x => some (.fcvt x)
  | 26, x => some (.fcvti x)
  | 27, x => some (.icvtf x)
  | 28, x => some (.fpack x)
  | 29, x => some (.funpk x)
  | 30, x => some (.fdot2 x)
  | 31, x => some (.hadd2 x)
  | 32, x => some (.hmul2 x)
  | 33, x => some (.hfma2 x)
  | 34, x => some (.hmin2 x)
  | 35, x => some (.hmax2 x)
  | _, _ => none

/-- FN of MAJ 19 as an instruction. -/
def extCross : Nat → Ext → Option Instr
  | 0, x => some (.qswap x)
  | 1, x => some (.qbcst x)
  | 2, x => some (.gshuf x)
  | 3, x => some (.gshfx x)
  | 4, x => some (.gshfu x)
  | 5, x => some (.gshfd x)
  | 6, x => some (.gvote x)
  | 7, x => some (.gbalt x)
  | 8, x => some (.gred x)
  | 9, x => some (.gscan x)
  | 10, x => some (.vtos x)
  | 11, x => some (.stov x)
  | 12, x => some (.vtag x)
  | 13, x => some (.vgen x)
  | _, _ => none

/-- FN of MAJ 20 as an instruction. -/
def extControl : Nat → Ext → Option Instr
  | 0, x => some (.divb x)
  | 1, x => some (.callr x)
  | 2, x => some (.jmpr x)
  | 3, x => some (.loop x)
  | 4, x => some (.sbrc x)
  | 5, x => some (.kand x)
  | 6, x => some (.kor x)
  | 7, x => some (.kxor x)
  | 8, x => some (.kandn x)
  | 9, x => some (.knot x)
  | 10, x => some (.kmov x)
  | _, _ => none

/-- FN of MAJ 21 as an instruction. -/
def extMemory : Nat → Ext → Option Instr
  | 0, x => some (.ld x)
  | 1, x => some (.st x)
  | 2, x => some (.ldu x)
  | 3, x => some (.stu x)
  | 4, x => some (.ldt x)
  | 5, x => some (.stt x)
  | 6, x => some (.spill x)
  | 7, x => some (.fill x)
  | 8, x => some (.prf x)
  | _, _ => none

/-- FN of MAJ 22 as an instruction. -/
def extCopy : Nat → Ext → Option Instr
  | 0, x => some (.cpy x)
  | 1, x => some (.cpyt x)
  | 2, x => some (.cpyg x)
  | 3, x => some (.cpys x)
  | 4, x => some (.cpyr x)
  | 5, x => some (.cpyw x)
  | 6, x => some (.cpyq x)
  | 7, x => some (.cpyx x)
  | _, _ => none

/-- FN of MAJ 23 as an instruction. -/
def extContent : Nat → Ext → Option Instr
  | 0, x => some (.caput x)
  | 1, x => some (.caget x)
  | 2, x => some (.cahash x)
  | 3, x => some (.caref x)
  | 4, x => some (.carel x)
  | 5, x => some (.caswap x)
  | 6, x => some (.caout x)
  | 7, x => some (.caprb x)
  | _, _ => none

/-- FN of MAJ 24 as an instruction. -/
def extSync : Nat → Ext → Option Instr
  | 0, x => some (.atom x)
  | 1, x => some (.waitc x)
  | 2, x => some (.qlock x)
  | 3, x => some (.qunlk x)
  | 4, x => some (.fence x)
  | 5, x => some (.promote x)
  | 6, x => some (.bar x)
  | 7, x => some (.lbar x)
  | 8, x => some (.csini x)
  | 9, x => some (.csarv x)
  | 10, x => some (.cswt x)
  | 11, x => some (.csrel x)
  | _, _ => none

/-- FN of MAJ 25 as an instruction. -/
def extMatrix : Nat → Ext → Option Instr
  | 0, x => some (.mma x)
  | 1, x => some (.mlda x)
  | 2, x => some (.mldb x)
  | 3, x => some (.mcbt x)
  | 4, x => some (.mzero x)
  | 5, x => some (.mrd x)
  | 6, x => some (.mwr x)
  | 7, x => some (.mst x)
  | 8, x => some (.mcmp x)
  | 9, x => some (.mscl x)
  | _, _ => none

/-- FN of MAJ 26 as an instruction. -/
def extSystem : Nat → Ext → Option Instr
  | 0, x => some (.tfetch x)
  | 1, x => some (.spawn x)
  | 2, x => some (.join x)
  | 3, x => some (.sget x)
  | 4, x => some (.sset x)
  | 5, x => some (.icinv x)
  | 6, x => some (.tarm x)
  | 7, x => some (.sleep x)
  | 8, x => some (.time x)
  | 9, x => some (.rte x)
  | 10, x => some (.pwrq x)
  | _, _ => none

/-- FN of the base MAJ 4 as an instruction. -/
def base4 : Nat → BaseF → Option Instr
  | 0, f => some (.saddBase f)
  | 1, f => some (.ssubBase f)
  | 2, f => some (.smulBase f)
  | 3, f => some (.smulhBase f)
  | 4, f => some (.smulhuBase f)
  | 5, f => some (.sdivBase f)
  | 6, f => some (.sdivuBase f)
  | 7, f => some (.sremBase f)
  | 8, f => some (.sremuBase f)
  | 9, f => some (.sandBase f)
  | 10, f => some (.sorBase f)
  | 11, f => some (.sxorBase f)
  | 12, f => some (.sshlBase f)
  | 13, f => some (.sshrBase f)
  | 14, f => some (.ssraBase f)
  | 15, f => some (.sminBase f)
  | 16, f => some (.smaxBase f)
  | 17, f => some (.sminuBase f)
  | 18, f => some (.smaxuBase f)
  | 19, f => some (.ssltBase f)
  | 20, f => some (.ssltuBase f)
  | 21, f => some (.sseqBase f)
  | 25, f => some (.spopcBase f)
  | 26, f => some (.sclzBase f)
  | 27, f => some (.sctzBase f)
  | 28, f => some (.smovBase f)
  | 30, f => some (.ssx32Base f)
  | _, _ => none

/-- FN of the base MAJ 5 as an instruction. -/
def base5 : Nat → BaseF → Option Instr
  | 0, f => some (.vaddBase f)
  | 1, f => some (.vsubBase f)
  | 2, f => some (.vmulBase f)
  | 3, f => some (.vmulhBase f)
  | 4, f => some (.vmulhuBase f)
  | 5, f => some (.vmadBase f)
  | 7, f => some (.vandBase f)
  | 8, f => some (.vorBase f)
  | 9, f => some (.vxorBase f)
  | 10, f => some (.vshlBase f)
  | 11, f => some (.vshrBase f)
  | 12, f => some (.vsraBase f)
  | 13, f => some (.vminBase f)
  | 14, f => some (.vmaxBase f)
  | 15, f => some (.vminuBase f)
  | 16, f => some (.vmaxuBase f)
  | 17, f => some (.vabsdBase f)
  | 22, f => some (.vpopcBase f)
  | 23, f => some (.vclzBase f)
  | 24, f => some (.vmovBase f)
  | 29, f => some (.vdot4Base f)
  | 30, f => some (.vdot8Base f)
  | _, _ => none

/-- FN of the base MAJ 6 as an instruction. -/
def base6 : Nat → BaseF → Option Instr
  | 0, f => some (.faddBase f)
  | 1, f => some (.fsubBase f)
  | 2, f => some (.fmulBase f)
  | 3, f => some (.ffmaBase f)
  | 4, f => some (.fminBase f)
  | 5, f => some (.fmaxBase f)
  | 7, f => some (.fclassBase f)
  | 8, f => some (.frndBase f)
  | 9, f => some (.fdivBase f)
  | 10, f => some (.fsqrtBase f)
  | 11, f => some (.frcpBase f)
  | 12, f => some (.frsqBase f)
  | 13, f => some (.fexpBase f)
  | 14, f => some (.fexp2Base f)
  | 15, f => some (.flog2Base f)
  | 16, f => some (.fsinpiBase f)
  | 17, f => some (.fcospiBase f)
  | 18, f => some (.ftanhBase f)
  | 19, f => some (.fsigmBase f)
  | 20, f => some (.fgeluBase f)
  | 21, f => some (.fsiluBase f)
  | 22, f => some (.ferfBase f)
  | 23, f => some (.fldexpBase f)
  | 24, f => some (.ffracBase f)
  | 30, f => some (.fdot2Base f)
  | 31, f => some (.hadd2Base f)
  | 32, f => some (.hmul2Base f)
  | 33, f => some (.hfma2Base f)
  | 34, f => some (.hmin2Base f)
  | 35, f => some (.hmax2Base f)
  | _, _ => none

/-- FN of the base MAJ 7 as an instruction. -/
def base7 : Nat → BaseF → Option Instr
  | 1, f => some (.qbcstBase f)
  | 11, f => some (.stovBase f)
  | 12, f => some (.vtagBase f)
  | 13, f => some (.vgenBase f)
  | _, _ => none

/-- FN of a MAJ 16-26 word as an instruction (Tables 4-4 to 4-15). -/
def extInstr (maj fn : Nat) (x : Ext) : Option Instr :=
  match maj with
  | 16 => extUniform fn x
  | 17 => extVector fn x
  | 18 => extFloat fn x
  | 19 => extCross fn x
  | 20 => extControl fn x
  | 21 => extMemory fn x
  | 22 => extCopy fn x
  | 23 => extContent fn x
  | 24 => extSync fn x
  | 25 => extMatrix fn x
  | 26 => extSystem fn x
  | _ => none

/-- FN of a MAJ 4-7 word as an instruction. -/
def baseInstr (maj fn : Nat) (f : BaseF) : Option Instr :=
  match maj with
  | 4 => base4 fn f
  | 5 => base5 fn f
  | 6 => base6 fn f
  | 7 => base7 fn f
  | _ => none

/-- FN of a UA word as an instruction (Table 4-3, R71). -/
def uaInstr : Nat → UaF → Option Instr
  | 0, f => some (.saddi f)
  | 1, f => some (.sandi f)
  | 2, f => some (.sori f)
  | 3, f => some (.sxori f)
  | 4, f => some (.sslti f)
  | 5, f => some (.ssltiu f)
  | 6, f => some (.sshli ⟨f.imm.setWidth 6, f.a, f.d⟩)
  | 7, f =>
    if f.imm.getLsbD 6 then some (.ssrai ⟨f.imm.setWidth 6, f.a, f.d⟩)
    else some (.sshri ⟨f.imm.setWidth 6, f.a, f.d⟩)
  | _, _ => none

/-- FN of a base control word as an instruction (Table 4-8). -/
def bctlInstr : Nat → BitVec 18 → Option Instr
  | 0, _ => some .nop
  | 1, _ => some .exit
  | 2, _ => some .ret
  | 3, _ => some .yield
  | 4, _ => some .rgn
  | 5, _ => some .rcv
  | 6, imm => some (.trap imm)
  | _, _ => none

/-- The instruction a shape names. -/
def Shape.toInstr? : Shape → Option Instr
  | .ui false f => some (.slui f)
  | .ui true f => some (.sauipc f)
  | .ua fn f => uaInstr fn f
  | .base maj fn f => baseInstr maj fn f
  | .bra false off => some (.bra off)
  | .bra true off => some (.call off)
  | .brac f => some (.brac f)
  | .bctl fn imm => bctlInstr fn imm
  | .bm false f => some (.ldShort f)
  | .bm true f => some (.stShort f)
  | .um false f => some (.lduImm f)
  | .um true f => some (.stuImm f)
  | .ext maj fn x => extInstr maj fn x
  | .pair p => some (.pairWord p)

/-- The decoder: total on any words, for a kernel's register counts (R22). -/
def decodeWith (l : Limits) (ws : List W32) : Decoded :=
  match checkShape l ws with
  | .bad d => .bad d
  | .ok sh =>
    match sh.toInstr? with
    | some i => .ok i
    | none => .bad ⟨.illOpc, 7⟩

/-- Decode from the bytes as they lie in memory. -/
def decodeBytes (l : Limits) (bs : List Byte) : Decoded := decodeWith l (wordsOfBytes bs)

/-- The instruction the decoder reads from a row of spec/opcode_table.json. -/
def decodeTableWord (nbits w : Nat) : Option Instr :=
  match decodeBytes Limits.all (tableBytes nbits w) with
  | .ok i => some i
  | .bad _ => none

end

end Sys2Proof
end

