-- ==== Sys2Proof/Machine/Table.lean ====
section
/-!
DEFINITION. Machine/Table.lean: the one sparse table the state is built from: (key, value) pairs in strictly ascending
key order, none equal to what an unlisted key reads as, so that equal tables are equal data.
-/

namespace Sys2Proof.Machine

/-- A sparse table from numbers; an unlisted key reads as a default that the caller names. -/
abbrev Table (α : Type) := List (Nat × α)

/-- The value at a key. -/
def tget {α : Type} (d : α) : Table α → Nat → α
  | [], _ => d
  | (k, v) :: t, i => if k = i then v else tget d t i

/-- The table without a key. -/
def terase {α : Type} : Table α → Nat → Table α
  | [], _ => []
  | (k, v) :: t, i => if k = i then terase t i else (k, v) :: terase t i

/-- Insert a key that is not listed, keeping ascending order. -/
def tinsert {α : Type} : Table α → Nat → α → Table α
  | [], i, v => [(i, v)]
  | (k, w) :: t, i, v => if i < k then (i, v) :: (k, w) :: t else (k, w) :: tinsert t i v

/-- Write a key; writing the default removes the entry. -/
def tset {α : Type} [DecidableEq α] (d : α) (t : Table α) (i : Nat) (v : α) : Table α :=
  if v = d then terase t i else tinsert (terase t i) i v

/-- Change the value at a key. -/
def tmod {α : Type} [DecidableEq α] (d : α) (t : Table α) (i : Nat) (f : α → α) : Table α := tset d t i (f (tget d t i))

/-- Write consecutive keys from `i` up. -/
def tsetList {α : Type} [DecidableEq α] (d : α) : Table α → Nat → List α → Table α
  | t, _, [] => t
  | t, i, v :: vs => tsetList d (tset d t i v) (i + 1) vs

/-- The values of `n` consecutive keys. -/
def tgetList {α : Type} (d : α) (t : Table α) (i n : Nat) : List α := (List.range n).map fun j => tget d t (i + j)

/-- The value listed at a key, if one is. -/
def tfind {α : Type} : Table α → Nat → Option α
  | [], _ => none
  | (k, v) :: t, i => if k = i then some v else tfind t i

/-- List a value at a key, in place of any that stands there. -/
def tput {α : Type} (t : Table α) (i : Nat) (v : α) : Table α := tinsert (terase t i) i v

/-- The canonical form of a table whose unlisted keys hold nothing: keys strictly ascending. -/
def Table.sorted {α : Type} : Table α → Bool
  | [] => true
  | [_] => true
  | (k, _) :: (k', v') :: t => k < k' && Table.sorted ((k', v') :: t)

/-- The canonical form: keys strictly ascending, no entry equal to the default. -/
def Table.wf {α : Type} [DecidableEq α] (d : α) : Table α → Bool
  | [] => true
  | [(_, v)] => v ≠ d
  | (k, v) :: (k', v') :: t => (k < k' && v ≠ d) && Table.wf d ((k', v') :: t)

end Sys2Proof.Machine
end

