-- ==== Sys2Proof/Machine/State.lean ====
section
/-!
DEFINITION. Machine/State.lean: everything the spec gives the machine, as plain data.  A field's docstring names the rule
that gives it.  The fields that are the model's own (the schedule, the group a step acts for, the counters that name
pending results and free values) are marked MODEL.
-/

namespace Sys2Proof.Machine

open Sys2Proof

/-! ### A group's registers -/

/-- The value of a vector register with its shape tag (R160, R161): one value, a base and a stride, or 32 slots. -/
inductive VVal where
  | u (x : W32)
  | a (base stride : W32)
  | g (slots : List W32)
  deriving DecidableEq, Repr

/-- A vector register; `pend` names the pending result that will fill it, so it is empty exactly when `pend` is some
(R163). -/
structure VReg where
  val : VVal := .u 0
  pend : Option Nat := none
  deriving DecidableEq, Repr

/-- A uniform register (R158, R163). -/
structure UReg where
  val : W64 := 0
  pend : Option Nat := none
  deriving DecidableEq, Repr

/-- An entry of the divergence stack (R213). -/
inductive DivEntry where
  | pending (mask : W32) (pc : Nat)
  | join (mask : W32) (point : Option Nat)
  deriving DecidableEq, Repr

/-- A fault code with what the trap frame holds of it (R423): s378, s382, s383. -/
structure Trap where
  code : Nat
  addr : W64 := 0
  cause0 : W64 := 0
  cause1 : W64 := 0
  /-- the address of the faulting instruction, where the trap is not taken at it (R118) -/
  site : Option Nat := none
  deriving DecidableEq, Repr

/-- What a squash restores of a group (R313, R412): registers with their full/empty bits, the program counter, $run, the
divergence stack (top first) with the count of spilled entries, FMODE, the window bases, GINFO.HANDLER, entry_run, the
TFETCH cursor and SPILLMARK, with the deferred faults that have arrived and are still to be delivered (R346, R426). -/
structure Arch where
  v : Table VReg := []
  s : Table UReg := []
  k : Table W32 := []
  pc : Nat := 0
  run : W32 := 0
  stack : List DivEntry := []
  spilled : Nat := 0
  fmode : W64 := 1
  vwb : Nat := 0
  swb : Nat := 0
  handler : Bool := false
  entryRun : W32 := 0
  cursor : Nat := 0
  spillMark : Nat := 0
  deferred : List Trap := []
  deriving DecidableEq, Repr

/-- A value to write to one register. -/
inductive RegVal where
  | v (n : Nat) (val : VVal)
  | u (n : Nat) (val : W64)
  deriving DecidableEq, Repr

/-! ### Regions -/

/-- A buffer slot of the matrix engine with its tag (Table 13-1): the bytes loaded into its frames, the scales in the order
of rows and blocks, and the 2-bit positions of a compressed tile's kept elements. -/
structure MxSlot where
  data : List Byte := []
  scale : List Byte := []
  index : List Nat := []
  /-- 0 empty, 1 dense, 2 dense for compression, 3 compressed, 4 second half of a pair (Table 21-6) -/
  state : Nat := 0
  fmt : Nat := 0
  len32 : Bool := false
  scaled : Bool := false
  stride : Nat := 0
  deriving DecidableEq, Repr

/-- A saved version of the matrix engine (R261): an accumulator tile, a slot (0-1 ab, 2-17 wb), or the codebook. -/
inductive MxSaved where
  | acc (tile : Nat) (old : Table W32)
  | slot (n : Nat) (old : MxSlot)
  | codebook (old : Table W64)
  deriving DecidableEq, Repr

/-- A request that a region holds to its commit (R307, R311): the closing operations, and the count changes and course
releases that are held like stores. -/
inductive Request where
  | atom (op : Nat) (wide : Bool) (scope : Nat) (ret : Bool) (lanes : List (Option Nat × Nat × W64 × W64 × W64))
      (dst : Option Nat) (slots : Bool)
  | waitc (va pa : Nat) (cc : Nat) (wide : Bool) (scope : Nat) (ref mask : W64) (timeout : Nat) (dst : Nat)
  | qlock (va pa scope : Nat)
  | qunlk (va pa scope : Nat)
  | bar (id form count : Nat)
  | lbar (form count : Nat)
  | csarv (off stage : Nat)
  | csrel (off stage : Nat)
  | spawn (rec : List Byte) (dst : Nat)
  | join (dst : Nat)
  | caput (kind : Bool) (content : List Byte) (hash : Nat) (addr : W64) (dst : Nat)
  | caref (name : W64)
  | carel (name : W64)
  | caswap (va pa : Nat) (expect new : W64) (dst : Nat)
  | copyStop (handle : Nat) (resume : Bool)
  | emptyCopy (handle : Nat) (course : Option Nat)
  deriving DecidableEq, Repr

/-- By scope, what a release waits for (R368, R369): the id before which the group's own writes, and the GTC by which the writes
of others that happen-before it have been released. -/
abbrev Marks := Table (Nat × Nat)

/-- A request as its region holds it: its id, GTC of issue, the address of its instruction, and what it waits for. -/
structure Held where
  id : Nat
  issued : Nat := 0
  addr : Nat := 0
  req : Request
  after : Marks := []
  /-- it stands behind an acquire: results older than this id must have arrived (R367) -/
  acq : Option Nat := none
  deriving DecidableEq, Repr

/-- A released request on its way to where it performs. -/
structure Pending where
  id : Nat
  g : GroupRef
  issued : Nat := 0
  addr : Nat := 0
  req : Request
  after : Marks := []
  acq : Option Nat := none
  /-- GTC of the commit of its region (R380) -/
  commit : Nat := 0
  /-- GTC at which it performs, of an ATOM the next of its lanes; none while an acknowledgement holds it (R369) -/
  due : Option Nat := none
  /-- the GTC for each of the homes that serve it, and the lanes of an ATOM that have performed, with what each found; its
  request holds the others (R380) -/
  dues : List Nat := []
  got : List ((Option Nat × Nat × W64 × W64 × W64) × Option Nat) := []
  /-- it has found the overflow area full and is counted in SOVF.WAITS (R379) -/
  waited : Bool := false
  deriving DecidableEq, Repr

/-- A 64-byte-chunk write (R295): a store-queue entry, then a drain. -/
structure QEntry where
  id : Nat
  g : GroupRef
  region : Nat
  /-- the block's bench memory, or a physical address of an owner's scratchpad -/
  bench : Bool
  owner : Nat
  /-- the chunk's physical address or block offset -/
  pa : Nat
  /-- the bytes written, by offset in the chunk -/
  bytes : Table Byte
  /-- the entries of the queue that it takes: none where a row of MST needs a second chunk for one of its entries (R279) -/
  slots : Nat := 1
  /-- its region has committed -/
  released : Bool := false
  /-- 0 queued, 1 crossing a link under its tag (R315), 2 performed and not yet acknowledged -/
  phase : Nat := 0
  due : Nat := 0
  /-- it follows a FENCE.rel: by scope, the id before which entries must have been acknowledged (R369) -/
  fence : Marks := []
  /-- it follows a FENCE.acq: results older than this id must have arrived (R367) -/
  acq : Option Nat := none
  /-- GTC of its release -/
  relAt : Nat := 0
  deriving DecidableEq, Repr

/-- The tag of data from a link (R315): its stamp, the module that sent it, and the end of its hold once W of that module has
changed. -/
structure Tag where
  stamp : Nat
  module : Nat
  fixed : Option Nat := none
  deriving DecidableEq, Repr

/-- A result that is to arrive (R163, R308). -/
structure Fill where
  id : Nat
  g : GroupRef
  /-- the region whose instruction issued it; for the result of a closing operation, the region that received it -/
  region : Nat
  closing : Bool := false
  due : Nat
  vals : List RegVal := []
  /-- the deferred fault it brings (R346, R388, R421) -/
  fault : Option Trap := none
  /-- it has arrived; the result of a closing operation stays listed until the region that received it commits (R308) -/
  arrived : Bool := false
  /-- the path cells of its return, and its tags (R308, R310, R315) -/
  cells : List CellRef := []
  tags : List Tag := []
  /-- CPYQ: its region does not wait for it; the handle whose final state it waits for (R332) -/
  async : Bool := false
  handle : Option Nat := none
  deriving DecidableEq, Repr

/-- An uncommitted region (R305-R313). -/
structure Region where
  seq : Nat
  /-- the group at the head; `ctx.pc` is the restart address -/
  ctx : Arch
  firstIssue : Nat
  /-- it has issued an instruction other than an RGN at its head (R306) -/
  started : Bool := false
  /-- GTC of its next head -/
  headAt : Option Nat := none
  /-- GTC of its close, and W as read there -/
  close : Option (Nat × Nat) := none
  cover : List CellRef := []
  /-- the tags of its replies (R309, R315) -/
  tags : List Tag := []
  /-- the effective cycle of its bench at which its last instruction has made its last pass (R309) -/
  lastPass : Nat := 0
  /-- it stands open for the result of a closing operation, and its first instruction has still to issue (R308) -/
  waitFirst : Bool := false
  /-- its last instruction is a CSWT whose condition does not hold yet (R400) -/
  stalled : Bool := false
  /-- vector, uniform and mask registers and specials it has written (R162): code of Table 3-8, specials from 1024 -/
  wrote : List Nat := []
  mxSaved : List MxSaved := []
  requests : List Held := []
  /-- the trap that ends it (R425): the code, whether a FAULT record is due, and the task's FAULT where it ends the task -/
  trap : Option (Nat × Bool × Option Nat) := none
  trapPc : Nat := 0
  trapTask : Nat := 0
  /-- the last instruction of a group that ended here (R216) -/
  ends : Bool := false
  deriving DecidableEq, Repr

/-! ### Groups and blocks -/

/-- What a group waits for (R163, R306, R307, R369, R442). -/
inductive Wait where
  | ready
  /-- an empty register, or a stall that R165 counts as one -/
  | empty
  | yield
  | sleep (wake : Nat)
  /-- ICINV until its GTC: the scope and the physical ranges, none for every line (R150) -/
  | icinv (wake scope : Nat) (ranges : Option (List (Nat × Nat)))
  deriving DecidableEq, Repr

/-- A resident or saved group. -/
structure Group where
  ref : GroupRef
  core : Nat := 0
  arch : Arch := {}
  launched : W32 := 0
  role : Nat := 2
  regions : List Region := []
  nextSeq : Nat := 0
  /-- an implicit head stands before the next instruction (Table 15-1) -/
  headPending : Bool := true
  lastCommit : Nat := 0
  wait : Wait := .ready
  /-- one of the 8 lanes is its own (R165) -/
  active : Bool := true
  activeSince : Nat := 0
  waitSince : Nat := 0
  /-- GTC from which its next instruction could have issued, while it is pending (R165) -/
  readySince : Option Nat := none
  lastIssue : Nat := 0
  /-- the effective cycle of its bench from which its lane is free (R156) -/
  busyUntil : Nat := 0
  /-- MODEL: GTC at which the scheduler last tried its next instruction -/
  tried : Option Nat := none
  /-- its candidate has been withheld in every effective cycle from the first of these to the second; GTC of the last
  withholding (R170) -/
  withheldSince : Option Nat := none
  withheldLast : Nat := 0
  withheldAt : Option Nat := none
  /-- YH of its last issue (R59) -/
  hint : Nat := 0
  /-- closing operations of committed regions that still owe a result, a completion or a refusal, each with the region that
  receives it (R308) -/
  owed : Table Nat := []
  /-- memory-touching issues wait for these operations (R307) -/
  waiting : List Nat := []
  /-- every issue waits for the reply to this PROMOTE (R391) -/
  stall : Option Nat := none
  /-- reads wait until every result older than this id has arrived (FENCE.acq) -/
  acqBefore : Option Nat := none
  /-- by scope, the id before which a FENCE.ar or FENCE.rel has marked the store queue -/
  arBefore : Marks := []
  relMark : Marks := []
  /-- a pending THROTTLE delivery: edge kind and cause (R175) -/
  throttle : Option (Nat × Nat) := none
  /-- STEP is due: address and length of the stepped instruction (R432) -/
  step : Option (Nat × Nat) := none
  /-- its last thread has ended (R442) -/
  ended : Bool := false
  /-- its last region has committed, so it has left the counts (R442) -/
  exited : Bool := false
  /-- an unhandled or double fault stops it until its region commits (R425) -/
  doomed : Bool := false
  squashes : Nat := 0
  /-- barrier ids whose unclaimed token it holds (R393) -/
  tokens : Table (Option Nat) := []
  lbarToken : Option Nat := none
  deriving DecidableEq, Repr

/-- The fixed descriptor of a kernel as read at placement (Table 2-3, R39), with the fused task's sums (R115). -/
structure Kernel where
  desc : Nat := 0
  entry : Nat := 0
  vcount : Nat := 128
  scount : Nat := 376
  groups : Nat := 1
  threads : Nat := 32
  span : Nat := 1
  ncopy : Nat := 0
  nmatrix : Nat := 0
  nvector : Nat := 1
  benchMem : Nat := 0
  trapOff : Option Nat := none
  curClass : Nat := 0
  spillSz : Nat := 0
  /-- the launch arguments, as read at placement -/
  argv : List W64 := []
  splOff : Option Nat := none
  shapes : List Byte := []
  textBase : Nat := 0
  textSize : Nat := 0
  /-- interlocked mode (R41) -/
  ilk : Bool := false
  deriving DecidableEq, Repr

/-- One instruction of fused code (R113): its words, the kernel it came from (false P, true C) and its address there. -/
structure FusedWord where
  addr : Nat
  words : List W32
  fromC : Bool
  orig : Nat
  /-- the Y half of a pair word that R452 splits -/
  second : Bool := false
  /-- where a range of its registers is not in one piece (R114, R115): where what it reads and what it writes stand, by the codes
  that its fields give, which are its own kernel's -/
  regs : List (Nat × Nat) := []
  dests : List (Nat × Nat) := []
  deriving DecidableEq, Repr

/-- The fused code of a pair and both kernels (R113-R119). -/
structure Fused where
  base : Nat
  /-- where its groups start, as an offset from `base` -/
  entry : Nat := 0
  code : List FusedWord
  p : Kernel
  c : Kernel
  consumer : Nat
  /-- the addresses in the kernels' own texts that the splicer reached (R456) -/
  pText : List Nat := []
  cText : List Nat := []
  deriving DecidableEq, Repr

/-- A block-barrier or launch-barrier record (R393, R396). -/
structure Barrier where
  gen : Nat := 0
  tally : Nat := 0
  /-- the standing count; 0 for "all" and where no arrival stands -/
  count : Nat := 0
  /-- the waits that stand: the id each owes, its group, its target generation -/
  waits : List (Nat × GroupRef × Nat) := []
  deriving DecidableEq, Repr

/-- Matrix work of a region that its engine has still to do, in quarter-cycles (R172, R272). -/
structure MxJob where
  g : GroupRef
  region : Nat
  left : Nat
  deriving DecidableEq, Repr

/-- An MST that its engine has still to write: the store-queue entries of its rows (R279). -/
structure RowStore where
  g : GroupRef
  region : Nat
  rows : List (List QEntry)
  deriving DecidableEq, Repr

/-- A core: the matrix engine (Table 13-1) and what is taken offline (R417). -/
structure Core where
  offline : Bool := false
  rungs : Nat := 0
  /-- matrix work waiting, in issue order -/
  jobs : List MxJob := []
  /-- stores of tiles under way, in issue order -/
  stores : List RowStore := []
  /-- tile, then 64 × row + column -/
  acc : Table (Table W32) := []
  /-- 0-1 are ab0 and ab1, 2-17 are wb0-wb15 -/
  slots : Table MxSlot := []
  codebook : Table W64 := []
  deriving DecidableEq, Repr

/-- A staged piece of a copy (R314, R318). -/
structure Piece where
  pos : Nat
  bytes : List Byte
  /-- its destination bytes -/
  dst : List Nat
  firstRead : Nat
  arrived : Nat
  cells : List CellRef := []
  /-- the tags of its data from the links that it has crossed (R315) -/
  tags : List Tag := []
  /-- GTC from which it may drain: its last read arrived + W, and the holds of R315 -/
  due : Nat := 0
  /-- it has left for another die or module and stands there under its tag (R315) -/
  sent : Bool := false
  deriving DecidableEq, Repr

/-- The states of a copy (R317), by the codes of R332. -/
inductive CopyState where
  | complete | running | faulted | cancelled
  deriving DecidableEq, Repr

/-- What a copy moves (Tables 16-1, 16-2, R355), with bench offsets as the block sees them after R114; `kind` is the FN of
MAJ 22, or 8 for CAOUT, whose `src` is the root name, `op` the depth, and the whole copy one row. -/
structure CopyDesc where
  kind : Nat := 0
  src : Nat := 0
  dst : Nat := 0
  rowBytes : Nat := 0
  rows : Nat := 0
  sstride : Nat := 0
  dstride : Nat := 0
  sspace : Bool := false
  dspace : Bool := false
  op : Nat := 0
  course : Option Nat := none
  index : List Nat := []
  deriving DecidableEq, Repr

/-- A copy-table entry (R317-R333). -/
structure Copy where
  gen : Nat := 0
  /-- allocated: its copy is RUNNING or FAULTED -/
  live : Bool := false
  g : GroupRef := ⟨0, 0, 0⟩
  owner : Nat := 0
  region : Nat := 0
  committed : Bool := false
  state : CopyState := .complete
  desc : CopyDesc := {}
  /-- its registration in table order, and the store-queue entries its reads see -/
  order : Nat := 0
  /-- speculative and committed positions (R318) -/
  spec : Nat := 0
  pos : Nat := 0
  pieces : List Piece := []
  readAt : Nat := 0
  /-- the fault that stopped its reads (R327), and the address of its instruction -/
  fault : Option Trap := none
  addr : Nat := 0
  /-- its reads stand behind an acquire, and behind the writes that a FENCE.ar marked (R367, R369, R373) -/
  acq : Option Nat := none
  ar : Marks := []
  deriving DecidableEq, Repr

/-- An entry of a die's range-lock table (R321). -/
structure RangeLock where
  bench : Nat
  entry : Nat
  owner : Nat
  /-- the block whose bench memory it names; none for virtual addresses -/
  block : Option BlockRef
  lo : Nat
  hi : Nat
  isDst : Bool
  deriving DecidableEq, Repr

/-- A key under which a sector stands (R293): data key and tweak key. -/
structure KeyVal where
  data : Nat
  tweak : Nat
  deriving DecidableEq, Repr

/-- Where a block stands in its life. -/
inductive BlockState where
  | placed
  /-- groups stopped, the save waits for copies and drains (R434): the cause (Table 21-4), the first 64-KiB unit of the save
  area in the pool of the block's die, its units, and the GTC at which the area is written -/
  | saving (reason unit units due : Nat)
  /-- saved: the same, with SAVEGTC -/
  | saved (reason unit units gtc : Nat)
  /-- stopped by R439, draining -/
  | killed
  deriving DecidableEq, Repr

/-- A block of a launch. -/
structure Block where
  ref : BlockRef
  kernel : Kernel := {}
  fused : Option Fused := none
  owner : Nat := 0
  /-- $core of the span's lowest core (Table 7-1) -/
  lead : Nat := 0
  die : Nat := 0
  state : BlockState := .placed
  resumed : Bool := false
  bench : Table Byte := []
  /-- the virtual address of each group's spill slot (R283) -/
  spillSlots : List Nat := []
  /-- the last write of TARMCFG: GTC and group (R177) -/
  armLast : Option (Nat × Nat) := none
  /-- TARMCFG.BEGIN, END, PEND, PENDEDGE (R175) -/
  armBegin : Bool := false
  armEnd : Bool := false
  edgePend : Bool := false
  edgeKind : Nat := 0
  edgeCause : Nat := 0
  barriers : Table Barrier := []
  /-- the tile record (R134): rec(b, i), rec_next, exhausted -/
  tileRec : Table Int := []
  recNext : Nat := 0
  exhausted : Bool := false
  /-- child count and failed JOINABLE children (R124, R125) -/
  children : Nat := 0
  failed : Nat := 0
  /-- JOINs that performed and wait: the ids they owe and their destinations -/
  joins : List (Nat × GroupRef × Nat) := []
  /-- GTC of the ready stamp under which a saved block competes (R124, R440) -/
  readyAt : Nat := 0
  /-- the FAULTED copies that were saved with it, with their locks (R328) -/
  copiesSaved : List (Copy × List RangeLock) := []
  deriving DecidableEq, Repr

/-! ### Tasks -/

/-- A buffer edge (R100, Table 6-1). -/
structure EdgeRec where
  handle : Nat := 0
  producer : Nat := 0
  pslot : Nat := 0
  cslot : Nat := 0
  transient : Bool := false
  keep : Bool := false
  /-- not so where system software has written a record that it has still to make valid, or has taken one out (R95) -/
  valid : Bool := true
  deriving DecidableEq, Repr

/-- The task states of Table 6-2, by their codes; `other` is a code that the table does not name and system software has
written (R95). -/
inductive TaskState where
  | free | waiting | ready | running | retiring | retired | fused
  | other (code : Nat)
  deriving DecidableEq, Repr

/-- A task control block (Table 6-1) with the device's own record of the launch: the dispenser (R132, R133), the launch
barrier (R396), the block count and the next block to place (R128), the reservation (R102). -/
structure Tcb where
  state : TaskState := .free
  prio : Nat := 0
  preds : Nat := 0
  coresident : Bool := false
  spliceOk : Bool := false
  fusedFlag : Bool := false
  spawned : Bool := false
  cancel : Bool := false
  joinable : Bool := false
  refusal : Nat := 0
  fault : Nat := 0
  /-- the first successor chunk and the number of successors (R97) -/
  succAddr : Nat := 0
  succCnt : Nat := 0
  queue : Nat := 0
  seq : Nat := 0xFFFFFFFF
  fusedWith : Nat := 0xFFFFFFFF
  kdesc : Nat := 0
  args : Nat := 0
  tiles : Nat := 0
  tshape : Nat := 0
  fmask : Nat := 0
  curClass : Nat := 0
  parent : Nat := 0xFFFFFFFF
  parentBlk : Nat := 0
  blkLeft : Nat := 0
  /-- MODEL: which of the launches that have used this TCB it is, and which of its parent's -/
  launchId : Nat := 0
  parentLaunch : Nat := 0
  readyGtc : Nat := 0
  retireGtc : Nat := 0
  edges : List EdgeRec := []
  /-- the distinct producers its EDGE packets named, and whether its splice decision is pending (R110, R111) -/
  producers : List Nat := []
  splicing : Bool := false
  /-- the protection owner whose space the task uses (R77, R90) -/
  owner : Nat := 0
  /-- R128's BLOCKS, and how many have been placed -/
  blocks : Nat := 0
  placed : Nat := 0
  kernel : Option Kernel := none
  fusedCode : Option Fused := none
  /-- R132: the counter, the dies that have marked it spent, the stock of each die, the return list, and the GTC at which the
  refill a die has requested performs -/
  counter : Nat := 0
  spent : List Nat := []
  stock : Table (List Nat) := []
  returned : List Nat := []
  asked : Table Nat := []
  lbar : Barrier := {}
  /-- GTC since which it has been passed over, and whether it holds a reservation -/
  passedSince : Option Nat := none
  reserved : Bool := false
  reservedSince : Nat := 0
  deriving DecidableEq, Repr

/-! ### Queues and the front end -/

/-- The compare of a standing WAIT (R86), at its physical address, and whether a write has made it hold. -/
structure Watch where
  pa : Nat
  cc : Nat
  ref : Nat
  mask : Nat
  met : Bool := false
  deriving DecidableEq, Repr

/-- A parsed packet that has not performed (R81). -/
structure Packet where
  type : Nat
  predicated : Bool := false
  fence : Bool := false
  /-- predicated, and the predicate was false when it was parsed: the body is skipped -/
  skip : Bool := false
  body : List W32
  /-- the virtual address of its header, its stream level, its words -/
  addr : Nat
  level : Nat
  words : Nat
  /-- the physical addresses of its addresses, in body order -/
  pas : List Nat := []
  /-- the queue fault it takes (Table 5-4); 0 for none -/
  fault : Nat := 0
  /-- its effect has been applied (R81: effect, then performance) -/
  done : Bool := false
  /-- GTC at which its parser core is free again; the path cells of its fetch, and the tags of what was fetched across a link
  (R309, R310) -/
  parseEnd : Nat := 0
  cover : List CellRef := []
  tags : List Tag := []
  /-- the commit of its region, once that has closed; the end of its writes' hold at another die (R315) -/
  commitAt : Option Nat := none
  sent : Option Nat := none
  /-- GTC at which a standing WAIT times out (R86) -/
  waitUntil : Option Nat := none
  watch : Option Watch := none
  /-- what the compare of a PRED or a WAIT came to as its region read the word (R81, R86) -/
  value : Option Bool := none
  /-- GTC of the next poll of a host-memory WAIT -/
  pollAt : Nat := 0
  deriving DecidableEq, Repr

/-- A 64-byte unit of a fetch-ahead window (R88): the bytes fetched, none where the stream had no byte yet, and the bytes that
memory held when a packet was last executed from it. -/
structure Unit64 where
  bytes : List (Option Byte)
  seen : Option (List (Option Byte)) := none
  deriving DecidableEq, Repr

/-- An open stream level: next address, remaining words, and its window by unit (R85, R88). -/
structure Level where
  addr : Nat
  left : Nat
  window : Table Unit64 := []
  deriving DecidableEq, Repr

/-- A LOOP in progress (R87): its level and address, N, K, the pass (from 1), the parser's copy of the body, and the next packet
of the pass. -/
structure LoopState where
  level : Nat
  addr : Nat
  size : Nat
  count : Nat
  pass : Nat := 1
  body : List Packet := []
  next : Nat := 0
  deriving DecidableEq, Repr

/-- A hardware queue: Table 5-1 and the parser's state of it (R79-R93). -/
structure Queue where
  base : Nat := 0
  log : Nat := 12
  en : Bool := false
  prio : Nat := 0
  priv : Bool := false
  fie : Bool := false
  owner : Nat := 0
  vec : Nat := 0
  wptr : Nat := 0
  rptr : Nat := 0
  code : Nat := 0
  level : Nat := 0
  badPtr : Bool := false
  foff : Nat := 0
  /-- parse position in the ring with its window, and the open levels, innermost first -/
  pos : Nat := 0
  window : Table Unit64 := []
  levels : List Level := []
  pred : Bool := true
  /-- innermost first -/
  loops : List LoopState := []
  /-- pending edges: the valid buffer edges, and the distinct producers (R84) -/
  edges : List EdgeRec := []
  preds : List Nat := []
  launches : Nat := 0
  ownerNow : Option Nat := none
  inflight : List Packet := []
  /-- GTC from which a parser takes its next packet: after a squash, the following mc (R93) -/
  parseFrom : Nat := 0
  /-- stalled for a TCB or a successor chunk (R83, R97) -/
  stalled : Bool := false
  /-- the task ids of the last 4,095 LAUNCHes since EN went to 1, newest first (R84, R109) -/
  recent : List Nat := []
  deriving DecidableEq, Repr

/-- The drone pairs (R94). -/
structure Drone where
  activeDie : Nat := 0
  /-- GTCs of the mismatches in the last 2^30 mc -/
  mismatches : List Nat := []
  recovering : Option Nat := none
  deriving DecidableEq, Repr

/-- A checkpoint that runs (Table 22-2, R449-R451): the physical addresses of its descriptor's bytes, and when it started. -/
structure Checkpoint where
  queue : Nat
  desc : List Nat
  owner : Nat
  flags : Nat
  ports : Nat
  sink : Nat
  limit : Nat
  start : Nat
  deriving DecidableEq, Repr

/-- A run of a sink's stream (R451): PA, or the name of a CA line; LENGTH; OWNER; for a CA line the GTC of its allocation; and the
bytes behind its header that were sent, as those that stood in memory and the keys they stood under, which together are the
ciphertext: by physical address and sector, of a CA line by offset. -/
structure SinkRun where
  pa : Nat
  length : Nat
  owner : Nat
  line : Option Nat := none
  sent : Nat
  cells : List Host.Cell
  keys : Table KeyVal
  deriving DecidableEq, Repr

/-- What a sink holds of a checkpoint (R450, R451). -/
structure SinkImage where
  ports : Nat
  sink : Nat
  runs : List SinkRun
  deriving DecidableEq, Repr

/-! ### Power, benches and cores -/

/-- A field's power registers and guards (Table 7-3, R137-R143). -/
structure Field where
  lim : Nat := 1600
  cur : Nat := 0
  baseI : Nat := 240
  /-- CURCLASS of the resident blocks; FCOMMIT.SUM is this plus FBASE.I -/
  commit : Nat := 0
  on : Bool := false
  /-- GTC at which its 2 ms ramp ends; a ramp asked for that waits (R140) -/
  ramping : Option Nat := none
  rampAsked : Bool := false
  /-- GTC to which its inrush is reserved, and the neighbours it is reserved from -/
  inrushUntil : Option Nat := none
  inrushFrom : List Nat := []
  halved : Bool := false
  tripped : Bool := false
  modTrip : Bool := false
  offline : Bool := false
  /-- its junction sensors that have reached 115 °C and not fallen below 105 °C (R143) -/
  hot : List Nat := []
  /-- GTC since which VLG current has been below 90 % of EFF -/
  lowSince : Option Nat := none
  /-- the starting bench of the slew limiter at step n is this plus n mod 12; from the step of the second number on, the first
  number in its place (R173) -/
  slewStart : Nat := 0
  slewNext : Option (Nat × Nat) := none
  deriving DecidableEq, Repr

/-- A bench: strum pattern, allowance, throttling, and the copy engine (R139, R169-R175). -/
structure Bench where
  pattern : BitVec 16 := 0xFFFF
  parked : Option (BitVec 16) := none
  refill : Nat := 64
  inrush : Nat := 0
  allow : Nat := 0
  /-- `allow` is the counter before the refill of this mc -/
  allowAt : Nat := 0
  effBase : Nat := 0
  effAt : Nat := 0
  /-- the newest mc in which an issue was withheld, newest first, at most 64 -/
  withheld : List Nat := []
  throttling : Bool := false
  cause : Nat := 0
  /-- the last mc at which a condition of R174 held, as far as it is no longer to be seen in the pattern in force and in
  `withheld` -/
  throttleLast : Nat := 0
  deriving DecidableEq, Repr

/-! ### Memory, owners and the content-addressed region -/

/-- An owner's registers (Table 14-4) and its content-addressed pool's (Table 17-1). -/
structure Owner where
  en : Bool := false
  keyOk : Bool := false
  /-- EN = 0 has been written (R447): the id that accesses made before it are below, and its GTC -/
  retiring : Option (Nat × Nat) := none
  root0 : Nat := 0
  root1 : Nat := 0
  spillBase : Nat := 0
  spillSize : Nat := 0
  mkeyData : Nat := 0
  mkeyTweak : Nat := 0
  nkey : Nat := 0
  capEn : Bool := false
  capBase0 : Nat := 0
  capBase1 : Nat := 0
  capSize0 : Nat := 0
  capSize1 : Nat := 0
  stray : Nat := 0
  capFull : Nat := 0
  /-- spill slots in use: address, bytes -/
  spill : List (Nat × Nat) := []
  deriving DecidableEq, Repr

/-- A live line of the content-addressed region (R335, R340): where in its range its contents stand, its count, and the GTC of
its allocation. -/
structure CaLine where
  slot : Nat
  count : Nat
  allocGtc : Nat
  deriving DecidableEq, Repr

/-- A cached translation (R290): a leaf by the 64-KiB page it covers, the page's size in pages; of a core's TLB or of its
field's. -/
structure TlbEntry where
  owner : Nat
  field : Nat
  core : Option Nat := none
  page : Nat
  npages : Nat
  pa : Nat
  r : Bool
  w : Bool
  x : Bool
  ca : Bool
  deriving DecidableEq, Repr

/-- A use of physical frames through a walk (R145): executable or writable, with the virtual page it came through. -/
structure FrameUse where
  die : Nat
  frame : Nat
  npages : Nat
  owner : Nat
  vpage : Nat
  exec : Bool
  /-- a shootdown that has not completed covers it -/
  dying : Bool := false
  deriving DecidableEq, Repr

/-- A die's registers and per-die structures. -/
structure Die where
  /-- the base of the TCB pool (R95), once bring-up has placed it, and the successor chunks in use (R97) -/
  tcbPool : Nat := 0
  poolUp : Bool := false
  chunksUsed : List Nat := []
  /-- TLBI (R291) -/
  tlbiVa : Nat := 0
  tlbiCount : Nat := 0
  tlbiOwner : Nat := 0
  tlbiDone : Bool := true
  /-- the owner and the pages of the shootdown that runs, the id that accesses made before it are below, and its GTC -/
  tlbiWho : Nat := 0
  tlbiLo : Nat := 0
  tlbiHi : Nat := 0
  tlbiFrom : Nat := 0
  tlbiGtc : Nat := 0
  /-- SOVF (R379) -/
  ovfBase : Nat := 0
  ovfSize : Nat := 0
  ovfWaits : Nat := 0
  ovfAbandon : Nat := 0
  /-- event ring (R408) -/
  evBase : Nat := 0
  evLog : Nat := 10
  evEn : Bool := false
  evIe : Bool := false
  evVec : Nat := 0
  evHead : Nat := 0
  evTail : Nat := 0
  evLost : Nat := 0
  evGap : Bool := false
  /-- PCTL, STEP, SAVE (Table 21-3) -/
  pctlTask : Nat := 0xFFFFFFFF
  pctlOp : Nat := 0
  pctlDone : Bool := true
  /-- the task and the operation of the request that GO started -/
  runTask : Nat := 0xFFFFFFFF
  runOp : Nat := 0
  pctlResult : Nat := 0
  /-- a kill request has ended its task and waits for RETIRING (R439) -/
  pctlBegun : Bool := false
  stepTask : Nat := 0xFFFFFFFF
  stepEn : Bool := false
  saveBase : Nat := 0
  saveSize : Nat := 0
  /-- 64-KiB units in use, as (first unit, units) -/
  saveUnits : List (Nat × Nat) := []
  batch : Nat := 64
  /-- round-robin pointer of the parser cores, by priority (R79) -/
  rr : Table Nat := []
  retireQueue : List Nat := []
  deriving DecidableEq, Repr

/-- A sensor cell (R403, R416, R418). -/
structure Cell where
  /-- GTCs at which the events of the last 2^20 mc began, newest first -/
  events : List Nat := []
  off : Bool := false
  /-- GTC at which an injected report is due (R419) -/
  inject : Option Nat := none
  deriving DecidableEq, Repr

/-- A record of Table 20-2, held until STAMP + 512 (R409). -/
structure EventRec where
  stamp : Nat
  src : Nat
  type : Nat
  injected : Bool := false
  code : Nat := 0
  data0 : Nat := 0
  data1 : Nat := 0
  deriving DecidableEq, Repr

/-- A monitor entry (R386). -/
structure Monitor where
  id : Nat
  g : GroupRef
  pa : Nat
  cc : Nat
  wide : Bool
  ref : W64
  mask : W64
  deadline : Option Nat
  dst : Nat
  owner : Nat
  va : Nat := 0
  /-- it stands in the overflow area (R379) -/
  ovf : Bool := false
  /-- a write has performed on its sector since it was last evaluated -/
  dirty : Bool := false
  deriving DecidableEq, Repr

/-- A lock (R386-R389): the holder, and the FIFO of waiting groups with what they are owed. -/
structure Lock where
  owner : Nat
  pa : Nat
  holder : GroupRef
  fifo : List (Nat × GroupRef) := []
  ovf : Bool := false
  deriving DecidableEq, Repr

/-- A 32-byte fetch block, by its physical address, as the caches of a field and its cores hold it (R146); `gone` lists the
cores that may no longer read it (R151). -/
structure FetchBlock where
  field : Nat
  pa : Nat
  bytes : List Byte
  gone : List Nat := []
  deriving DecidableEq, Repr

/-- A failure that a core's fetch unit has recorded against a block it read ahead (R147). -/
structure FetchFail where
  core : Nat
  owner : Nat
  va : Nat
  code : Nat
  deriving DecidableEq, Repr

/-- A promotion record (R370). -/
structure PromoRec where
  pa : Nat
  owner : Nat
  core : Nat
  g : GroupRef
  /-- the group's writes with ids below this one, and others' released by this GTC, must have performed -/
  before : Nat
  seen : Nat := 0
  unlock : Bool
  /-- the bytes of its location -/
  bytes : Nat := 8
  /-- its slice has asked for the acknowledgement that discards it -/
  retiring : Bool := false
  deriving DecidableEq, Repr

/-- A loaded object as the loader has it: its owner, its base and extent, the image offset of area 0, and whether its
STEPPING note names the device's stepping (R37, R41). -/
structure LoadedObject where
  owner : Nat
  base : Nat
  extent : Nat
  voff0 : Nat
  native : Bool
  deriving DecidableEq, Repr

/-- A write that a W0 or host access reads or leaves (R76). DEDUCED, log 101. -/
structure HostReply where
  off : Nat
  value : Option Nat
  deriving DecidableEq, Repr

/-- MODEL.  One input from outside: an event, an access of the host or of another module, or an act of the firmware.
DESIGN CHOICE, log 118. -/
inductive Move where
  | event (i : Instr)
  | hostWrite (pa : Nat) (bytes : List Byte)
  | peerWrite (owner pa : Nat) (bytes : List Byte)
  | hostRead (fn off size : Nat)
  | hostReadPa (pa size : Nat)
  | firmwareBatch (die v : Nat)
  | measureCurrent (field v : Nat)
  | measureInput (v : Nat)
  | prefetch (g : GroupRef) (va : Nat)
  | evict (field : Nat) (core : Option Nat) (page : Nat)
  | absent (modules : List Nat)
  | peerKey (module owner : Nat) (key : KeyVal)
  | peerWindow (module w : Nat)
  | firmwareWindow (w : Nat)
  | hostLink (down : Bool)
  | serveWatchdog
  | updateEnd
  deriving DecidableEq, Repr

/-- A bring-up under way (R141): what the self-tests and the firmware image give, and the field that comes up. -/
structure BringUp where
  pool0 : Nat
  pool1 : Nat
  failed : Nat
  signed : Bool
  field : Nat
  deriving DecidableEq, Repr

/-- A squash message on its way across the seam link (R404): its arrival, the mc and the cell of the report. -/
structure Message where
  due : Nat
  stamp : Nat
  cell : CellRef
  deriving DecidableEq, Repr

/-- The whole machine. -/
structure State where
  /-- GTC, the 64-bit cycle counter of the module (R7); registers read it mod 2^64 -/
  gtc : Nat := 0
  /-- the last bring-up step that has completed (Table 7-4) -/
  step : Nat := 0
  bringUp : Option BringUp := none
  /-- the failed step that the SMBus sideband interface reports (R142) -/
  smbus : Option Nat := none
  /-- DEVID (Table 5-9) -/
  family : Nat := 0x7208
  stepLetter : Nat := 1
  stepDigit : Nat := 0
  /-- DOMID.MOD -/
  domid : Nat := 0
  /-- QWIN.W -/
  qwin : Nat := 64
  /-- QWIN.MAXLAT -/
  maxlat : Nat := 40
  /-- W of the other modules of the domain, an input (R315); one not listed stands at its reset value -/
  peerWindows : Table Nat := []
  /-- the modules that the domain lacks (R286), and the keys that a module holds for an owner where they differ from this
  module's, by 65536 x module + owner (R293); inputs -/
  absentModules : List Nat := []
  peerKeys : Table KeyVal := []
  queues : Table Queue := []
  tcbs : Table Tcb := []
  blocks : List Block := []
  groups : List Group := []
  fills : List Fill := []
  pendings : List Pending := []
  entries : List QEntry := []
  fields : Table Field := []
  benches : Table Bench := []
  cores : Table Core := []
  dies : Table Die := []
  owners : Table Owner := []
  /-- physical memory by byte; unlisted is never written (R293) -/
  mem : List Host.Cell := []
  /-- the key a 64-byte sector stands under; unlisted is none (device and system software) -/
  keys : Table KeyVal := []
  /-- poisoned sectors (R421) -/
  poison : List Nat := []
  /-- the walks that have set a frame's executable or writable attribute (R145) -/
  frames : List FrameUse := []
  tlb : List TlbEntry := []
  /-- the fetch blocks held, newest first; more than one version of a block may be (R146, R153) -/
  icache : List FetchBlock := []
  fetchFails : List FetchFail := []
  caLines : List (Nat × W64 × CaLine) := []
  /-- names whose children the reclaim walker has still to release (R342) -/
  reclaim : List (Nat × W64) := []
  copies : Table Copy := []
  rangeLocks : List RangeLock := []
  monitors : List Monitor := []
  locks : List Lock := []
  promos : List PromoRec := []
  cells : Table Cell := []
  /-- squash messages between the dies, and the cells that have reported at a die in this mc, which still strike what begins
  later in it (R309, R314, R404) -/
  messages : List (Nat × Message) := []
  reported : List (Nat × Message) := []
  events : List EventRec := []
  /-- corrected errors per array row: event times (R420) -/
  rows : Table (List Nat) := []
  spared : List Nat := []
  offlineRows : List Nat := []
  drone : Drone := {}
  checkpoints : List Checkpoint := []
  /-- what the safe tier holds: the streams of its sinks, and the CA lines, keyed by owner, name and allocation GTC (R357) -/
  sinks : List SinkImage := []
  tierLines : List SinkRun := []
  /-- links that are down, as die and 4 x field + link (Table 20-3) -/
  linksDown : List (Nat × Nat) := []
  /-- the host link is down, an input -/
  hostDown : Bool := false
  /-- MSI-X vectors raised, oldest first (R76, R91) -/
  msix : List Nat := []
  /-- firmware update in progress (R139) -/
  updating : Bool := false
  /-- GTC at which the power firmware last served its watchdog (R139) -/
  watchdog : Nat := 0
  /-- the power firmware hangs (R139) -/
  hung : Bool := false
  /-- power drawn at the 50 V input in W, an input (R136, R140) -/
  inputPower : Nat := 0
  /-- the last slew step made (R172) -/
  slewed : Nat := 0
  /-- load reports (R37) as (code, operands) -/
  loadReports : List (List Nat) := []
  /-- the loaded objects, newest first (R37) -/
  objects : List LoadedObject := []
  /-- the last reply to a host or peer read -/
  reply : List HostReply := []
  peerReply : List (List (Option Byte)) := []
  /-- MODEL: the group the next instruction acts for -/
  cur : Option GroupRef := none
  /-- MODEL: the schedule, as (GTC, move); the moves whose GTC has come are made first -/
  agenda : List (Nat × Move) := []
  /-- MODEL: the next id of a fill, a request or a queue entry -/
  nextId : Nat := 0
  /-- MODEL: how many free values have been drawn -/
  freeCtr : Nat := 0
  /-- MODEL: extra latency of the next accesses, in mc; the spec fixes none (R2) -/
  jitter : List Nat := []
  deriving DecidableEq, Repr

/-- The faults that stop a step. DEDUCED, log 114. -/
inductive Fault where
  /-- Raised by every instruction when `cur` names no group of the state, which no step does. Safe: the hardware has no
  such state. -/
  | noCurrentGroup
  deriving DecidableEq, Repr

/-- The refusals. -/
inductive Refusal where
  /-- Raised by `exec` for an instruction that has no meaning yet. Safe: the step stops. -/
  | notModelled (mnemonic : String)
  deriving DecidableEq, Repr

/-- The machine right after device reset: the registers' reset values, no task, no block, nothing in memory.
DESIGN CHOICE, log 1, 2. -/
def State.reset : State := {}

end Sys2Proof.Machine
end

