-- ==== Sys2Proof/Machine/Ops.lean ====
section
/-!
DEFINITION. Machine/Ops.lean: the named operations over the state: who is who, registers, physical memory and keys,
translation, path cells, event records, taking a trap and returning from one, and the one wrapper that issues an
instruction.
-/

namespace Sys2Proof.Machine

open Sys2Proof

/-! ### Places -/

/-- R1: the die, the field (0-7) and the bench (0-95) of a core, which is numbered 0-383. -/
def dieOfCore (c : Nat) : Nat := c / 192
def fieldOfCore (c : Nat) : Nat := c / 48
def benchOfCore (c : Nat) : Nat := c / 4
def dieOfField (f : Nat) : Nat := f / 4
def fieldOfBench (b : Nat) : Nat := b / 12

def State.field (s : State) (f : Nat) : Field := tget {} s.fields f
def State.bench (s : State) (b : Nat) : Bench := tget {} s.benches b
def State.core (s : State) (c : Nat) : Core := tget {} s.cores c
def State.die (s : State) (d : Nat) : Die := tget {} s.dies d
def State.owner (s : State) (o : Nat) : Owner := tget {} s.owners o
def State.queue (s : State) (q : Nat) : Queue := tget {} s.queues q
def State.tcb (s : State) (t : Nat) : Tcb := tget {} s.tcbs t
def State.setField (s : State) (f : Nat) (x : Field) : State := { s with fields := tset {} s.fields f x }
def State.setBench (s : State) (b : Nat) (x : Bench) : State := { s with benches := tset {} s.benches b x }
def State.setCore (s : State) (c : Nat) (x : Core) : State := { s with cores := tset {} s.cores c x }
def State.setDie (s : State) (d : Nat) (x : Die) : State := { s with dies := tset {} s.dies d x }
def State.setOwner (s : State) (o : Nat) (x : Owner) : State := { s with owners := tset {} s.owners o x }
def State.setQueue (s : State) (q : Nat) (x : Queue) : State := { s with queues := tset {} s.queues q x }
def State.setTcb (s : State) (t : Nat) (x : Tcb) : State := { s with tcbs := tset {} s.tcbs t x }

/-- R95: the die of a task id's pool, and the address of its TCB. -/
def dieOfTask (t : Nat) : Nat := t / 2 ^ 20 % 2
def State.tcbPa (s : State) (t : Nat) : Nat := (s.die (dieOfTask t)).tcbPool + 256 * (t % 2 ^ 20)

/-- GTC as a register reads it (R7). -/
def State.gtc64 (s : State) : W64 := BitVec.ofNat 64 s.gtc

def findGroup (gs : List Group) (r : GroupRef) : Option Group := gs.find? fun g => g.ref = r
def findBlock (bs : List Block) (r : BlockRef) : Option Block := bs.find? fun b => b.ref = r

/-- Replace the group of the same name. -/
def putGroup (gs : List Group) (g : Group) : List Group := gs.map fun h => if h.ref = g.ref then g else h
def putBlock (bs : List Block) (b : Block) : List Block := bs.map fun c => if c.ref = b.ref then b else c

def blockOf (r : GroupRef) : BlockRef := ⟨r.task, r.bid⟩

def State.group? (s : State) (r : GroupRef) : Option Group := findGroup s.groups r
def State.block? (s : State) (r : BlockRef) : Option Block := findBlock s.blocks r
def State.setGroup (s : State) (g : Group) : State := { s with groups := putGroup s.groups g }
def State.setBlock (s : State) (b : Block) : State := { s with blocks := putBlock s.blocks b }
def State.modGroup (s : State) (r : GroupRef) (f : Group → Group) : State :=
  { s with groups := s.groups.map fun h => if h.ref = r then f h else h }
def State.modBlock (s : State) (r : BlockRef) (f : Block → Block) : State :=
  { s with blocks := s.blocks.map fun h => if h.ref = r then f h else h }

/-- The groups of a block, and those of a core. -/
def State.groupsOf (s : State) (r : BlockRef) : List Group := s.groups.filter fun g => (blockOf g.ref) = r
def State.residents (s : State) (c : Nat) : List Group :=
  s.groups.filter fun g => g.core = c && (match s.block? (blockOf g.ref) with | some b => b.state = .placed | none => false)

/-- A fresh id. -/
def State.fresh (s : State) : Nat × State := (s.nextId, { s with nextId := s.nextId + 1 })

/-- The extra latency of the next access (MODEL), and the rest of the list. -/
def State.delay (s : State) (base : Nat) : Nat × State :=
  match s.jitter with
  | [] => (base, s)
  | j :: js => (base + j, { s with jitter := js })

/-- The number of 1 bits among the low `n`. -/
def popCount : Nat → Nat → Nat
  | 0, _ => 0
  | n + 1, v => v % 2 + popCount n (v / 2)

/-! ### The clock of a bench (R139, R171, R183) -/

def popOf (p : BitVec 16) : Nat := popCount 16 p.toNat

/-- The pattern that a guard forces on a field's benches; 0x8888 outranks 0xAAAA. -/
def Field.forced (f : Field) : Option (BitVec 16) :=
  if f.modTrip || !f.hot.isEmpty then some 0x8888 else if f.tripped then some 0xAAAA else none

/-- A bench's own pattern: firmware's, or the one it is parked at. -/
def Bench.own (b : Bench) : BitVec 16 := b.parked.getD b.pattern

/-- A forced pattern replaces the bench's own only where its popcount is lower. -/
def inForce (f : Field) (b : Bench) : BitVec 16 :=
  match f.forced with
  | some p => if popOf p < popOf b.own then p else b.own
  | none => b.own

def State.strum (s : State) (bench : Nat) : BitVec 16 := inForce (s.field (fieldOfBench bench)) (s.bench bench)
def State.strumForced (s : State) (bench : Nat) : Bool :=
  match (s.field (fieldOfBench bench)).forced with
  | some p => popOf p < popOf (s.bench bench).own
  | none => false

/-- R171: whether the pulse of this mc passes. -/
def State.pulse (s : State) (bench : Nat) : Bool := (s.strum bench).getLsbD (s.gtc % 16)

/-- The pulses that a pattern passes in the mc 0 to n - 1. -/
def pulsesTo (p : BitVec 16) (n : Nat) : Nat := n / 16 * popOf p + popCount (n % 16) (p.toNat % 2 ^ (n % 16))

/-- R183: effective cycles of a bench since device reset. -/
def State.effCycles (s : State) (bench : Nat) : Nat :=
  let b := s.bench bench
  let p := s.strum bench
  b.effBase + (pulsesTo p s.gtc - pulsesTo p b.effAt)

/-- The effective cycle in which a lane that is held for the rest of this mc is free again. -/
def State.nextCycle (s : State) (bench : Nat) : Nat := s.effCycles bench + if s.pulse bench then 1 else 0

/-! ### Slots -/

/-- The 32 slots of a group. -/
def slots : List Nat := List.range 32

/-- Build a mask from the slots that satisfy a test. -/
def maskOf (f : Nat → Bool) : W32 := BitVec.ofNat 32 (slots.foldl (fun n i => if f i then n + 2 ^ i else n) 0)

/-- The lowest launched slot of a slot's quad (R157); none where the quad was never launched. -/
def quadLead (launched : W32) (i : Nat) : Option Nat :=
  let q := 4 * (i / 4)
  if launched.getLsbD q then some q
  else if launched.getLsbD (q + 1) then some (q + 1)
  else if launched.getLsbD (q + 2) then some (q + 2)
  else if launched.getLsbD (q + 3) then some (q + 3)
  else none

/-- R56, R157: whether a slot takes part, under a predicate mask `p` (all ones for none).  A launched slot needs its bit in
$run and in `p`; a helper slot follows the lowest launched slot of its quad. -/
def takesPart (launched run p : W32) (i : Nat) : Bool :=
  if launched.getLsbD i then run.getLsbD i && p.getLsbD i
  else match quadLead launched i with
    | some j => run.getLsbD j && p.getLsbD j
    | none => false

/-- The value of a slot under a shape tag (R161). -/
def VVal.slot : VVal → Nat → W32
  | .u x, _ => x
  | .a b d, i => b + BitVec.ofNat 32 i * d
  | .g xs, i => xs.getD i 0

/-- A G value from the value of each slot. -/
def VVal.ofSlots (f : Nat → W32) : VVal := .g (slots.map f)

/-- The tag VTAG reads (R185). -/
def VVal.tag : VVal → Nat
  | .u _ => 0
  | .a _ _ => 1
  | .g _ => 2

/-! ### The issuing group -/

/-- What a meaning works on: the state, the issuing group and its block (their copies in the state are written back after
the body), the address of the instruction, its length, and whether the code is the consumer's of a fused pair (R113,
R118). -/
structure Env where
  s : State
  g : Group
  b : Block
  addr : Nat
  len : Nat
  fromC : Bool := false
  /-- where what it reads and what it writes stand, where fused code leaves a range of them in no one piece (R114, R115) -/
  regs : List (Nat × Nat) := []
  dests : List (Nat × Nat) := []
  /-- passes of the result (Table 9-1) -/
  passes : Nat := 1
  deriving DecidableEq, Repr

/-- How a body ends: it has taken effect; the group waits at this instruction; or a precise trap. -/
inductive Res where
  | done (e : Env)
  | wait (w : Wait)
  /-- the instruction waits with an implicit head before it (Table 15-1) -/
  | waitHead
  /-- it has issued and waits for its condition (R400) -/
  | stall
  | trap (t : Trap)
  /-- a precise trap of an access, whose walks leave what they set (R145) -/
  | trapAfter (t : Trap) (walked : State)
  deriving DecidableEq, Repr

/-- The kernel whose code runs (R118): in fused code, the producer's or the consumer's. -/
def Env.kernel (e : Env) : Kernel :=
  match e.b.fused with
  | none => e.b.kernel
  | some f => if e.fromC then f.c else f.p

def Env.arch (e : Env) : Arch := e.g.arch
def Env.setArch (e : Env) (a : Arch) : Env := { e with g := { e.g with arch := a } }
def Env.setS (e : Env) (s : State) : Env := { e with s }
def Env.setPc (e : Env) (pc : Nat) : Env := e.setArch { e.g.arch with pc := pc % 2 ^ 64 }
def Env.field (e : Env) : Nat := fieldOfCore e.g.core
def Env.withPasses (e : Env) (n : Nat) : Env := { e with passes := max e.passes n }

/-- The offset that a fused consumer's bench memory and spill offsets are moved by (R114, R119). -/
def Env.benchShift (e : Env) : Nat :=
  match e.b.fused with
  | some f => if e.fromC then f.p.benchMem else 0
  | none => 0
def Env.spillShift (e : Env) : Nat :=
  match e.b.fused with
  | some f => if e.fromC then f.p.spillSz else 0
  | none => 0

/-! ### Registers -/

/-- Where a register that an instruction of fused code names stands (R114, R115). -/
def placedAt (l : List (Nat × Nat)) (c : Nat) : Nat := match l with | [] => c | l => (tfind l c).getD c

/-- R119: the vector register that a destination's number names under VWB, and a source's. -/
def Env.vIdx (e : Env) (n : Nat) : Nat := placedAt e.dests n + e.g.arch.vwb
def Env.vSrc (e : Env) (n : Nat) : Nat := placedAt e.regs n + e.g.arch.vwb
/-- R119: the same of a uniform register under SWB; s0, s1 and the trap frame are not offset. -/
def Env.sAt (e : Env) (l : List (Nat × Nat)) (n : Nat) : Nat :=
  if n < 2 || 376 ≤ n then n else placedAt l (128 + n) - 128 + e.g.arch.swb
def Env.sIdx (e : Env) (n : Nat) : Nat := e.sAt e.dests n
def Env.sSrc (e : Env) (n : Nat) : Nat := e.sAt e.regs n

def Arch.vreg (a : Arch) (n : Nat) : VReg := tget {} a.v n
def Arch.ureg (a : Arch) (n : Nat) : UReg := tget {} a.s n
def Arch.kreg (a : Arch) (n : Nat) : W32 := tget 0 a.k n
def Arch.setV (a : Arch) (n : Nat) (r : VReg) : Arch := { a with v := tset {} a.v n r }
/-- s0 discards writes (R158). -/
def Arch.setS (a : Arch) (n : Nat) (r : UReg) : Arch := if n = 0 then a else { a with s := tset {} a.s n r }
def Arch.setK (a : Arch) (n : Nat) (x : W32) : Arch := { a with k := tset 0 a.k n x }

def Env.vval (e : Env) (n : Nat) : VVal := (e.g.arch.vreg (e.vSrc n)).val
/-- What a destination holds, which the slots that a write leaves out keep. -/
def Env.vOld (e : Env) (n : Nat) : VVal := (e.g.arch.vreg (e.vIdx n)).val
/-- s0 reads 0 (R158). -/
def Env.sval (e : Env) (n : Nat) : W64 := if n = 0 then 0 else (e.g.arch.ureg (e.sSrc n)).val
def Env.kval (e : Env) (n : Nat) : W32 := e.g.arch.kreg n

/-- Codes of Table 3-8 for the registers a region has written (R162); 1024 up for the specials SSET writes. -/
def Region.note (r : Region) (c : Nat) : Region := if r.wrote.contains c then r else { r with wrote := c :: r.wrote }

/-- The youngest uncommitted region changed. -/
def modLast {α : Type} (f : α → α) : List α → List α
  | [] => []
  | [x] => [f x]
  | x :: y :: t => x :: modLast f (y :: t)

def Env.modRegion (e : Env) (f : Region → Region) : Env := { e with g := { e.g with regions := modLast f e.g.regions } }
def Env.note (e : Env) (c : Nat) : Env := e.modRegion fun r => r.note c

def Env.setV (e : Env) (n : Nat) (x : VVal) : Env :=
  (e.setArch (e.g.arch.setV (e.vIdx n) { val := x })).note (e.vIdx n)
def Env.setS64 (e : Env) (n : Nat) (x : W64) : Env :=
  if n = 0 then e else (e.setArch (e.g.arch.setS (e.sIdx n) { val := x })).note (128 + e.sIdx n)
def Env.setK (e : Env) (n : Nat) (x : W32) : Env := (e.setArch (e.g.arch.setK n x)).note (512 + n)

/-- Mark a register empty: `id` will fill it (R163). -/
def Env.emptyV (e : Env) (n id : Nat) : Env :=
  (e.setArch (e.g.arch.setV (e.vIdx n) { e.g.arch.vreg (e.vIdx n) with pend := some id })).note (e.vIdx n)
def Env.emptyS (e : Env) (n id : Nat) : Env :=
  if n = 0 then e
  else (e.setArch (e.g.arch.setS (e.sIdx n) { e.g.arch.ureg (e.sIdx n) with pend := some id })).note (128 + e.sIdx n)

/-- Whether the register a code names is empty (R163), at the places of vector and of uniform registers; s0 never. -/
def Arch.emptyAt (a : Arch) (v s : Nat → Nat) (c : Nat) : Bool :=
  if c < 128 then (a.vreg (v c)).pend.isSome
  else if c = 128 then false
  else if c < 512 then (a.ureg (s (c - 128))).pend.isSome
  else false

/-- A source, or a destination, is empty. -/
def Env.isEmpty (e : Env) (c : Nat) : Bool := e.g.arch.emptyAt e.vSrc e.sSrc c
def Env.isEmptyDst (e : Env) (c : Nat) : Bool := e.g.arch.emptyAt e.vIdx e.sIdx c

/-- R163 before an instruction reads its sources, given as (code, T bit), and writes its destinations: FE_EMPTY, a wait, or
neither. -/
def Env.blocked (e : Env) (srcs : List (Nat × Bool)) (dsts : List Nat) : Option Res :=
  if srcs.any fun c => c.2 && e.isEmpty c.1 then some (.trap { code := 7 })
  else if srcs.any (fun c => e.isEmpty c.1) || dsts.any (fun c => e.isEmptyDst c) then some (.wait .empty)
  else none

/-- Run a body once no register it needs is empty. DEDUCED, log 30. -/
def Env.whenFull (e : Env) (srcs : List (Nat × Bool)) (dsts : List Nat) (k : Env → Res) : Res :=
  match e.blocked srcs dsts with
  | some r => r
  | none => k e

/-- Consecutive codes from `c`. -/
def codes (c n : Nat) : List Nat := (List.range n).map fun i => c + i

/-! ### Physical memory (R286, R293) -/

/-- CLASS, MODULE and DIE of a physical address (Table 14-2). -/
def paClass (pa : Nat) : Nat := pa / 2 ^ 46 % 4
def paModule (pa : Nat) : Nat := pa / 2 ^ 48 % 16
def paDie (pa : Nat) : Nat := pa / 2 ^ 37 % 2

/-- R286: a malformed physical address. DEDUCED, log 108. -/
def paMalformed (pa : Nat) : Bool :=
  2 ^ 52 ≤ pa || paClass pa = 3 || (paClass pa = 0 && pa / 2 ^ 38 % 2 ^ 8 ≠ 0) ||
    (paClass pa = 1 && (pa / 2 ^ 40 % 2 ^ 6 ≠ 0 || 768 * 2 ^ 30 ≤ pa % 2 ^ 40))

/-- A malformed address of this domain: one of a module that does not exist too. -/
def State.paMalformed (s : State) (pa : Nat) : Bool := Machine.paMalformed pa || s.absentModules.contains (paModule pa)

/-- R287: the home slice of a scratchpad line within its die, and its field (0-7). -/
def homeSlice (pa : Nat) : Nat := pa / 2 ^ 8 % 2 ^ 29 % 96
def homeField (pa : Nat) : Nat := 4 * paDie pa + homeSlice pa / 24

/-- The key that this module has for an owner. -/
def State.keyOf (s : State) (owner : Nat) : KeyVal := { data := (s.owner owner).mkeyData, tweak := (s.owner owner).mkeyTweak }

/-- The key of an owner's accesses to a physical address: another module's own where it lies there (R293).
DEDUCED, log 39. -/
def State.keyAt (s : State) (owner pa : Nat) : KeyVal :=
  if paModule pa = s.domid then s.keyOf owner else (tfind s.peerKeys (65536 * paModule pa + owner)).getD (s.keyOf owner)

/-- Whether a sector stands under a key (none: written by the device or by system software, unencrypted). -/
def State.keyFits (s : State) (key : Option KeyVal) (pa : Nat) : Bool :=
  paClass pa = 2 || tfind s.keys (pa / 64) = key

/-- Nothing has been written to a sector. -/
def State.untouched (s : State) (pa : Nat) : Bool :=
  (tfind s.keys (pa / 64)).isNone && !(s.mem.any fun c => c.1 / 64 = pa / 64)

/-- The numbers of a key; host memory has none. -/
def keyNums (key : Option KeyVal) (pa : Nat) : Nat × Nat :=
  match (if paClass pa = 2 then none else key) with
  | some k => (k.data + 1, k.tweak + 1)
  | none => (0, 0)

/-- What a byte of a sector that nothing has written there reads as under a key. -/
def initialUnder (key : Option KeyVal) (pa : Nat) : Byte := Config.initialByte (keyNums key pa).1 (keyNums key pa).2 pa

/-- The byte as it stands under the key of its sector. -/
def State.plainByte (s : State) (pa : Nat) : Byte := (tfind s.mem pa).getD (initialUnder (tfind s.keys (pa / 64)) pa)

/-- The byte a read under a key returns (R293, R361). -/
def State.readByte (s : State) (key : Option KeyVal) (pa : Nat) : Byte :=
  if s.keyFits key pa then s.plainByte pa
  else if s.untouched pa then initialUnder key pa
  else
    let own := keyNums (tfind s.keys (pa / 64)) pa
    let k := keyNums key pa
    Config.foreignByte ((codes (pa / 64 * 64) 64).map s.plainByte) own.1 own.2 k.1 k.2 pa

def State.readBytes (s : State) (key : Option KeyVal) (pa n : Nat) : List Byte :=
  (List.range n).map fun i => s.readByte key (pa + i)

/-- Write one byte under a key.  The rest of a sector that stood under another key is what it reads as under the writer's, which
re-encrypts it (R293). -/
def State.writeByte (s : State) (key : Option KeyVal) (pa : Nat) (b : Byte) : State :=
  if s.keyFits key pa then { s with mem := tput s.mem pa b }
  else
    let sector := if s.untouched pa then s.mem
      else (codes (pa / 64 * 64) 64).foldl (fun m a => tput m a (s.readByte key a)) s.mem
    { s with
      mem := tput sector pa b,
      keys := match key with
        | some k => tput s.keys (pa / 64) k
        | none => terase s.keys (pa / 64) }

def State.writeBytes (s : State) (key : Option KeyVal) (pa : Nat) : List Byte → State
  | [] => s
  | b :: bs => (s.writeByte key pa b).writeBytes key (pa + 1) bs

/-- Little-endian value of bytes (R4). -/
def leNat : List Byte → Nat
  | [] => 0
  | b :: bs => b.toNat + 256 * leNat bs

/-- R421: a write that covers a whole sector clears its poison. -/
def State.unpoison (s : State) (pa n : Nat) : State :=
  { s with poison := s.poison.filter fun sec => !(pa ≤ 64 * sec && 64 * sec + 64 ≤ pa + n) }

/-- The poisoned sectors that a read of `n` bytes meets. -/
def State.poisonAt (s : State) (pa n : Nat) : Bool := s.poison.any fun sec => 64 * sec < pa + n && pa < 64 * sec + 64

/-- Bytes of a die's TCB pool, and of its area of successor chunks, which stands behind the pool (R95, R97).
DESIGN CHOICE, log 133. -/
def poolBytes : Nat := 2 ^ 28
def chunkBytes : Nat := 2 ^ 24

/-- Pages that belong to the device (R95, R431): the TCB pools with their chunks and the save pools. -/
def State.devicePage (s : State) (pa : Nat) : Bool :=
  [0, 1].any fun d =>
    ((s.die d).poolUp && (s.die d).tcbPool ≤ pa && pa < (s.die d).tcbPool + poolBytes + chunkBytes) ||
      ((s.die d).saveBase ≤ pa && pa < (s.die d).saveBase + (s.die d).saveSize * 65536)

/-! ### Translation (R288-R290, R145) -/

/-- The levels of Table 14-3: the shift and width of the index, the bytes of the table. -/
def walkLevels : List (Nat × Nat × Nat) :=
  [(47, 9, 4096), (38, 9, 4096), (29, 9, 4096), (25, 4, 128), (21, 4, 128), (16, 5, 256)]

/-- How a walk ends. -/
inductive Walk where
  | leaf (pa npages : Nat) (r w x ca : Bool)
  | page (level : Nat)
  deriving DecidableEq, Repr

def bit (v i : Nat) : Bool := v / 2 ^ i % 2 = 1

/-- R289, R290: the walk from a table at `level` down; it reads what has been written, under whatever key.
DEDUCED, log 130. -/
def walkFrom (s : State) (die va : Nat) : List (Nat × Nat × Nat) → Nat → Nat → Walk
  | [], level, _ => .page level
  | (sh, w, _) :: rest, level, table =>
    let pte := leNat ((codes (table + 8 * (va / 2 ^ sh % 2 ^ w)) 8).map s.plainByte)
    let leaf := bit pte 1
    let addr := pte / 2 ^ 7 % 2 ^ 45 * 2 ^ 7
    let size := 2 ^ sh
    if !bit pte 0 then .page level
    else if (leaf && level < 2) || (!leaf && level = 5) then .page level
    else if pte / 2 ^ 52 ≠ 0 || (!leaf && pte / 4 % 16 ≠ 0) then .page level
    else if leaf then
      if addr % size ≠ 0 || s.paMalformed addr then .page level
      else if bit pte 3 && bit pte 4 then .page level
      else .leaf addr (size / 65536) (bit pte 2) (bit pte 3) (bit pte 4) (bit pte 5)
    else
      match rest with
      | [] => .page level
      | (_, _, tsz) :: _ =>
        if paClass addr ≠ 0 || paModule addr ≠ s.domid || s.paMalformed addr || paDie addr ≠ die || addr % tsz ≠ 0 then
          .page level
        else walkFrom s die va rest (level + 1) addr

/-- R288: the walk of a virtual address in an owner's tables on a die. -/
def pageWalk (s : State) (owner die va : Nat) : Walk :=
  walkFrom s die va walkLevels 0 (if die = 0 then (s.owner owner).root0 else (s.owner owner).root1)

def FrameUse.covers (u : FrameUse) (die frame n : Nat) : Bool :=
  u.die = die && u.frame < frame + n && frame < u.frame + u.npages

/-- What a translation answers: the entry, or the failing level of a walk (none where no walk was made), or `frame`, for an
address that no table may map there: a frame that is executable already (R145), or the splice cache (R452). -/
inductive Xlat where
  | ok (e : TlbEntry)
  | page (level : Option Nat)
  | frame
  deriving DecidableEq, Repr

/-- R452: the splice cache of both dies, in every owner's address space. -/
def spliceBase (die : Nat) : Nat := 0x00FFFFE000000000 + die * 0x200000
def inSpliceCache (va : Nat) : Bool := spliceBase 0 ≤ va && va < spliceBase 2

/-- Who translates: a core, through its own TLB and its field's, or a unit of a field. -/
inductive Viewer where
  | core (c : Nat)
  | unit (field : Nat)
  deriving DecidableEq, Repr

def Viewer.field : Viewer → Nat
  | .core c => fieldOfCore c
  | .unit f => f

/-- Of a core, where it is one. -/
def Viewer.core? : Viewer → Option Nat
  | .core c => some c
  | .unit _ => none

/-- An entry of a TLB maps a virtual address of an owner. -/
def TlbEntry.maps (e : TlbEntry) (owner field : Nat) (core : Option Nat) (va : Nat) : Bool :=
  e.owner = owner && e.field = field && e.core = core && e.page ≤ va / 65536 && va / 65536 < e.page + e.npages

/-- A TLB takes an entry: 256 of a core's or 16,384 of a field's; a full one first gives up any (R290 names none).
DESIGN CHOICE, log 43. -/
def State.tlbTake (s : State) (e : TlbEntry) : State :=
  let mine := s.tlb.filter fun t => t.field = e.field && t.core = e.core
  if mine.length < (if e.core.isSome then 256 else 16384) then { s with tlb := e :: s.tlb }
  else
    let out := mine[Config.pick s.freeCtr mine.length % mine.length]?
    { s with tlb := e :: s.tlb.filter (fun t => some t ≠ out), freeCtr := s.freeCtr + 1 }

/-- The TLBs of a viewer take a leaf: the field's, and the core's own. -/
def State.tlbHold (s : State) (v : Viewer) (e : TlbEntry) : State :=
  match v with
  | .core c => (s.tlbTake e).tlbTake { e with core := some c }
  | .unit _ => s.tlbTake e

/-- R290, R145: look a virtual address up in the core's TLB and the field's, or walk and cache the leaf.  A leaf whose
X R145 refuses is not cached, so that the next fetch walks again. DEDUCED, log 154. -/
def State.translateBy (s : State) (v : Viewer) (owner va : Nat) : Xlat × State :=
  if 2 ^ 56 ≤ va || !(s.owner owner).en then (.page none, s)
  else if inSpliceCache va then (.frame, s)
  else
  match v.core?.bind fun c => s.tlb.find? fun e => e.maps owner v.field (some c) va with
  | some e => (.ok e, s)
  | none =>
  match s.tlb.find? fun e => e.maps owner v.field none va with
  | some e => (.ok e, match v with | .core c => s.tlbTake { e with core := some c } | .unit _ => s)
  | none =>
    let die := dieOfField v.field
    match pageWalk s owner die va with
    | .page l => (.page (some l), s)
    | .leaf pa np r w x ca =>
      let vp := va / 65536 / np * np
      let frame := pa / 65536
      let isX := s.frames.any fun u => u.exec && u.covers die frame np
      let isW := s.frames.any fun u => !u.exec && u.covers die frame np
      if w && isX then (.frame, s)
      else
        let x' := x && !isW
        let e : TlbEntry := { owner, field := v.field, page := vp, npages := np, pa, r, w, x := x', ca }
        let use (exec : Bool) : FrameUse := { die, frame, npages := np, owner, vpage := vp, exec }
        let uses := (if x' then [use true] else []) ++ (if w then [use false] else [])
        let s1 : State := { s with frames := uses ++ s.frames }
        (.ok e, if x && isW then s1 else s1.tlbHold v e)

/-- A unit of a field translates. -/
def State.translate (s : State) (owner field va : Nat) : Xlat × State := s.translateBy (.unit field) owner va

/-- The physical address of a virtual address under an entry. -/
def TlbEntry.addr (e : TlbEntry) (va : Nat) : Nat := e.pa + (va - 65536 * e.page)

/-! ### Path cells (R287, R310, R403) -/

/-- The field and the cell of a port 0-11. -/
def portCell (p : Nat) : CellRef := ⟨4 * (p / 6) + 1 + p % 6 / 3, 259 + p % 3⟩

/-- The segments between two fields, and the seam link where they lie on two dies. -/
def routeCells (f t : Nat) : List CellRef :=
  (Config.segments f t).map (fun i => ⟨i / 12, 246 + i % 12⟩) ++
    (if dieOfField f ≠ dieOfField t then [⟨f, 258⟩, ⟨t, 258⟩] else [])

/-- A cell of another module. -/
def CellRef.inModule (m : Nat) (c : CellRef) : CellRef := ⟨8 * (m + 1) + c.field, c.cell⟩

/-- The cells of the route from a field to the home of a physical address and back: to the home slice, by way of a port of each
module where another one holds the byte.  Main and host memory have no home slice (R287). DEDUCED, log 39. -/
def pathCells (s : State) (field pa : Nat) : List CellRef :=
  if paClass pa ≠ 0 then Config.memoryPath field pa else
  let hf := homeField pa
  let slice : CellRef := ⟨hf, 222 + homeSlice pa % 24⟩
  let m := paModule pa
  if m = s.domid then slice :: routeCells field hf
  else
    ((Config.ports field m).flatMap fun p => portCell p :: routeCells field (portCell p).field) ++
      ((slice :: (Config.peerPorts m hf).flatMap fun p => portCell p :: routeCells (portCell p).field hf).map (CellRef.inModule m))

/-- Unloaded latency of a scratchpad access (Table 14-1), and the tag hold d of R315 (0 on the own die). -/
def scratchLatency (s : State) (field pa : Nat) : Nat × Nat :=
  if paModule pa ≠ s.domid then (Config.latScratchModule, Config.portHold)
  else if paClass pa ≠ 0 then (Config.memoryLatency, 0)
  else if dieOfField field ≠ paDie pa then (Config.latScratchDie, Config.seamHold)
  else if field = homeField pa then (Config.latScratch, 0)
  else (Config.latScratchField, 0)

/-- The cells every region of a core has in its cover (R310). -/
def ownCells (core : Nat) : List CellRef :=
  let f := fieldOfCore core
  (List.range 4).map (fun j => ⟨f, 4 * (core % 48) + j⟩) ++
  (List.range 2).map (fun j => ⟨f, 192 + 2 * (core % 48 / 4) + j⟩) ++
  (List.range 6).map (fun j => ⟨f, 216 + j⟩)

/-- Add cells to the current region's cover. -/
def Env.cover (e : Env) (cells : List CellRef) : Env := e.modRegion fun r => { r with cover := r.cover ++ cells }
/-- R315: W as the sending module has it, and d across the seam link or a port. -/
def State.windowOf (s : State) (module : Nat) : Nat :=
  if module = s.domid then s.qwin else max 64 (tget 64 s.peerWindows module)
def State.holdOf (s : State) (module : Nat) : Nat := if module = s.domid then Config.seamHold else Config.portHold

/-- The GTC to which a tag holds, by the W in force at its stamp. -/
def State.tagEnd (s : State) (t : Tag) : Nat := t.fixed.getD (t.stamp + s.windowOf t.module + s.holdOf t.module)
def State.tagsEnd (s : State) (ts : List Tag) : Nat := (ts.map s.tagEnd).foldl max 0

/-- Data that leaves a link at `arrival` entered it a flight before (Table 15-3). -/
def State.tagAt (s : State) (arrival module : Nat) : Tag :=
  { stamp := arrival - (if module = s.domid then Config.seamFlight else Config.portFlight), module }

/-- The GTC before which the tagged replies of a region keep it from committing (R309). -/
def Region.tagEnd (r : Region) (s : State) : Nat := s.tagsEnd r.tags

/-- Before the W of a module changes: tags whose stamp has come keep the W they carry. -/
def State.fixTag (s : State) (module : Nat) (t : Tag) : Tag :=
  if t.module = module && t.stamp ≤ s.gtc then { t with fixed := some (s.tagEnd t) } else t
def State.fixTags (s : State) (module : Nat) : State :=
  { s with
    groups := s.groups.map fun g => { g with regions := g.regions.map fun r => { r with tags := r.tags.map (s.fixTag module) } },
    fills := s.fills.map fun f => { f with tags := f.tags.map (s.fixTag module) },
    copies := s.copies.map fun c => (c.1, { c.2 with pieces := c.2.pieces.map fun p => { p with tags := p.tags.map (s.fixTag module) } }),
    queues := s.queues.map fun q => (q.1, { q.2 with inflight := q.2.inflight.map fun p =>
      { p with tags := p.tags.map (s.fixTag module) } }) }

/-- A tagged reply (R315): its stamp + W_t + d enters the commit of the current region. -/
def Env.tagged (e : Env) (t : Tag) : Env := e.modRegion fun r => { r with tags := t :: r.tags }

/-! ### Event records (R405-R409) -/

/-- A source number (R405). -/
def srcNum (die field cls idx : Nat) : Nat := die * 2 ^ 15 + field * 2 ^ 13 + cls * 2 ^ 9 + idx

/-- R408: a die records, and its ring lies where it may. -/
def State.recording (s : State) (d : Die) : Bool :=
  d.evEn && paClass d.evBase ≠ 1 && paClass d.evBase ≠ 3 && !s.paMalformed d.evBase

/-- Leave an event record with its die, which is bit 15 of the source; it is dropped and counted where the die records
nothing. -/
def State.record (s : State) (r : EventRec) : State :=
  let die := r.src / 2 ^ 15
  let d := s.die die
  if s.recording d then { s with events := s.events ++ [r] }
  else s.setDie die { d with evLost := (d.evLost + 1) % 2 ^ 32, evGap := true }

/-- The source number of a core. -/
def coreSrc (c : Nat) : Nat := srcNum (dieOfCore c) (fieldOfCore c % 4) 1 (c % 48)

/-! ### Regions: opening (R305, R306) -/

/-- The region's next head is issued now, unless it has been. -/
def Region.headNow (r : Region) (gtc : Nat) : Region := if r.headAt.isSome then r else { r with headAt := some gtc }

/-- Open a region at the next instruction; the state of the group there is what a squash restores. -/
def Group.openRegion (g : Group) (gtc : Nat) : Group :=
  { g with
    regions := (modLast (fun r => r.headNow gtc) g.regions) ++
      [{ seq := g.nextSeq, ctx := g.arch, firstIssue := gtc, cover := ownCells g.core }],
    nextSeq := g.nextSeq + 1, headPending := false }

/-- Open a region before its first instruction issues, for a result that arrives with none open (R308). DEDUCED, log 123. -/
def Group.openEarly (g : Group) (gtc : Nat) : Group :=
  let h := g.openRegion gtc
  { h with regions := modLast (fun r => { r with waitFirst := true }) h.regions }

/-- A head is passed where the group's next instruction waits: the region before it may close, and the region it opens begins
at that instruction's issue (R305, R307, R309). DEDUCED, log 31. -/
def Group.passHead (g : Group) (gtc : Nat) : Group := { g with regions := modLast (fun r => r.headNow gtc) g.regions }

/-- Whether the youngest region has issued an instruction other than its own head (R306). -/
def Group.started (g : Group) : Bool := match g.regions.getLast? with | some r => r.started | none => false

/-- The group waits in a CSWT, which its region holds (R400). -/
def Group.inCswt (g : Group) : Bool := match g.regions.getLast? with | some r => r.stalled | none => false

/-- Whether the next instruction opens a region: at a head, unless the current region is empty (R306), or with none open.  A
CSWT that waits has issued in its region already. -/
def Group.opens (g : Group) : Bool := g.regions.isEmpty || (g.headPending && g.started && !g.inCswt)

/-! ### Traps (R118, R422-R430) -/

/-- The instruction at an address of fused code. -/
def Block.fusedAt (b : Block) (pc : Nat) : Option FusedWord := b.fused.bind fun f => f.code.find? fun w => w.addr = pc

/-- An address lies in a kernel's text. -/
def Kernel.inText (k : Kernel) (pc : Nat) : Bool := k.textBase ≤ pc && pc < k.textBase + k.textSize

/-- Whether the code at an address is a fused consumer's (R118): by the run; in the kernels' own texts (R428), by what only one
of them reaches, then by what only one of them holds; `dflt` elsewhere. DEDUCED, log 127. -/
def Block.codeFromC (b : Block) (dflt : Bool) (pc : Nat) : Bool :=
  match b.fusedAt pc, b.fused with
  | some w, _ => w.fromC
  | none, none => dflt
  | none, some f =>
    if f.cText.contains pc ≠ f.pText.contains pc then f.cText.contains pc
    else if f.c.inText pc ≠ f.p.inText pc then f.c.inText pc
    else dflt

/-- The task of P or of C. -/
def Block.taskOf (b : Block) (fromC : Bool) : Nat :=
  match b.fused with
  | some f => if fromC then f.consumer else b.ref.task
  | none => b.ref.task

/-- The address in its own kernel's text of the instruction at an address (R118). -/
def Block.original (b : Block) (pc : Nat) : Nat := match b.fusedAt pc with | some w => w.orig | none => pc

/-- What s380 holds of a trap of kernel `fromC` at `site` that resumes at `resume`: where the next instruction is the other
kernel's, the address past the faulting one in its own text. DEDUCED, log 127. -/
def Block.originalPc (b : Block) (fromC : Bool) (site resume : Nat) : Nat :=
  match b.fusedAt resume, b.fusedAt site with
  | some w, some v => if w.fromC = fromC then w.orig else v.orig + 4 * v.words.length
  | _, _ => b.original resume

/-- 1 for the Y half of a pair word that fused code has split (R452): cause word 1 of its floating-point exceptions. -/
def Env.half (e : Env) : Nat :=
  match e.b.fused with
  | none => 0
  | some f => if f.code.any fun w => w.addr = e.addr && w.second then 1 else 0

/-- R22, R115, R119: the counts an instruction is checked against: the fused ones in fused code, the consumer's own in its
own text. -/
def limitsAt (b : Block) (a : Arch) : Limits :=
  match b.fused with
  | none => { vcount := b.kernel.vcount, scount := b.kernel.scount }
  | some f =>
    if a.vwb = 0 then { vcount := b.kernel.vcount, scount := b.kernel.scount }
    else { vcount := f.c.vcount, scount := f.c.scount }

/-- TRAPBASE.ADDR of the code now running (R176); 0 for none. -/
def Env.trapBase (e : Env) : Nat :=
  match e.kernel.trapOff with
  | some o => e.kernel.textBase + o
  | none => 0

/-- Write the trap frame (R423). -/
def Arch.frame (a : Arch) (t : Trap) (resume task orig gtc : Nat) : Arch :=
  let w (a : Arch) (n : Nat) (x : W64) : Arch := a.setS n { val := x }
  let n64 (n : Nat) : W64 := BitVec.ofNat 64 n
  w (w (w (w (w (w (w (w a 376 (n64 t.code)) 377 (n64 resume)) 378 t.addr) 379 (n64 task)) 380 (n64 orig)) 381 (n64 gtc))
    382 t.cause0) 383 t.cause1

/-- The group's last region, made where none is uncommitted, so that a fault that ends the task has a commit to wait for
(R425). -/
def Group.ensureRegion (g : Group) (gtc : Nat) : Group := if g.regions.isEmpty then g.openRegion gtc else g

/-- R427: the group stops; the task ends with `fault` when the region in which the trap arose commits. -/
def Env.doom (e : Env) (code fault task orig : Nat) : Env :=
  let g := e.g.ensureRegion e.s.gtc
  { e with
    g := { g with
      regions := modLast (fun r =>
        { (r.headNow e.s.gtc) with stalled := false, trap := some (code, true, some fault), trapPc := orig, trapTask := task })
        g.regions,
      doomed := true } }

/-- R424: take a trap with the given resume address, in the kernel whose code the faulting instruction came from (R118).  A
fault's FAULT record waits for the commit of the region in which it arose (R425); with none uncommitted it is left at once. -/
def Env.takeTrap (e : Env) (t : Trap) (resume : Nat) : Env :=
  let site := t.site.getD e.addr
  let fromC := e.b.codeFromC e.fromC site
  let task := e.b.taskOf fromC
  let orig := e.b.originalPc fromC site resume
  let handler := { e with fromC }.trapBase
  if e.g.arch.handler then e.doom t.code 34 task orig
  else if handler = 0 then
    if t.code = 32 || t.code = 33 then e else e.doom t.code t.code task orig
  else
    let record := !(t.code = 31 || t.code = 32 || t.code = 33)
    let vw := match e.b.fused with | some f => if fromC then (f.p.vcount, f.p.scount) else (0, 0) | none => (0, 0)
    let a := e.g.arch
    let a' := { (a.frame t resume task orig e.s.gtc) with
      entryRun := a.run, handler := true, vwb := vw.1, swb := vw.2, pc := handler }
    let rec' : EventRec :=
      { stamp := e.s.gtc, src := coreSrc e.g.core, type := 8, code := t.code, data0 := task, data1 := orig }
    let s := if record && e.g.regions.isEmpty then e.s.record rec' else e.s
    { e with
      s,
      g := { e.g with
        arch := a', headPending := true, step := none,
        regions := modLast (fun r => if record then { r with started := true, stalled := false, trap := some (t.code, true, none),
                                                             trapPc := orig, trapTask := task }
                                     else { r with started := true, stalled := false }) e.g.regions } }

/-- R430: the return from a trap; `entryRun` has lost the slots that exited since entry (`Arch.exitRun`). -/
def Arch.returnFromTrap (a : Arch) : Arch :=
  { a with pc := (a.ureg 377).val.toNat / 4 * 4, run := a.entryRun, handler := false, vwb := 0, swb := 0 }

/-! ### Issue -/

/-- What the issue of an instruction depends on beside its operands. -/
structure IssueInfo where
  len : Nat
  /-- reads memory, writes memory (R307, R367) -/
  reads : Bool := false
  writes : Bool := false
  closing : Bool := false
  /-- counts as memory for the wait behind a waiting operation (R307) -/
  mem : Bool := false
  /-- the role that may issue it (R73) -/
  role : Option Nat := none
  /-- RGN: a head of its own (R316) -/
  rgn : Bool := false
  deriving DecidableEq, Repr

/-- Rename cost of one register in a region (Table 9-3); the storage of a result on its way is that of a G value, as every vector
result that a register waits for is (R160, R162). -/
def renameCost (a : Arch) (c : Nat) : Nat :=
  if c < 128 then
    if (a.vreg c).pend.isSome then 128
    else match (a.vreg c).val with
      | .u _ => 4
      | .a _ _ => 8
      | .g _ => 128
  else if 512 ≤ c && c < 520 then 4
  else 8

/-- The rename storage of uncommitted regions, each register by its shape at the region's end, which stands in the next
region's context, or now. -/
def renameRegions (now : Arch) : List Region → Nat
  | [] => 0
  | [r] => (r.wrote.map (renameCost now)).sum
  | r :: q :: rs => (r.wrote.map (renameCost q.ctx)).sum + renameRegions now (q :: rs)

/-- The rename storage that a group's uncommitted regions hold (R162). -/
def Group.renameUse (g : Group) : Nat := renameRegions g.arch g.regions

/-- The rename pool of a core (R162): its vector storage less what placement has assigned. -/
def State.renamePool (s : State) (core : Nat) : Nat :=
  1310720 - ((s.residents core).map fun g =>
    match s.block? (blockOf g.ref) with
    | some b => 128 * b.kernel.vcount
    | none => 0).sum

def State.renameUsed (s : State) (core : Nat) (except : GroupRef) : Nat :=
  ((s.residents core).map fun g => if g.ref = except then 0 else g.renameUse).sum

/-- REGION.SQHWM (Table 9-5). -/
def State.sqHwm (s : State) (core : Nat) : Nat := max 16 (1536 / max 1 (s.residents core).length)

/-- The store-queue entries a request takes (R344, R384, R399). -/
def Request.entries : Request → Nat
  | .atom _ _ _ _ lanes _ _ => lanes.length
  | .csrel .. | .caref _ | .carel _ | .caswap .. => 1
  | .caput .. => 4
  | _ => 0

/-- A closing operation that owes the group a result, a completion or a refusal (R307). -/
def Request.owes : Request → Bool
  | .atom _ _ _ ret _ _ _ => ret
  | .waitc .. | .qlock .. | .qunlk .. | .bar .. | .lbar .. | .csarv .. | .spawn .. | .join _ | .caput .. | .caswap .. => true
  | _ => false

/-- The locations a request writes: bench memory or scratchpad, and the place. -/
def Request.writes : Request → List (Bool × Nat)
  | .atom _ _ _ _ lanes _ _ => lanes.map fun l => (false, l.2.1)
  | .csarv off st | .csrel off st => [(true, off + 16 + 8 * st)]
  | .caswap _ pa _ _ _ => [(false, pa)]
  | _ => []

/-- The requests of a group that have not performed: those its regions hold and those released. -/
def Group.held (g : Group) : List Held := g.regions.flatMap fun r => r.requests
def State.unperformed (s : State) (g : Group) : List Held :=
  g.held ++ (s.pendings.filter fun p => p.g = g.ref).map fun p => { id := p.id, req := p.req }

def heldEntries (l : List Held) : Nat := (l.map fun h => h.req.entries).sum

/-- What the current region holds, and its MSTs will hold, of the store queue, the copy table and the range-lock table (Table 15-1, R311, R321). -/
def Group.ownEntries (g : Group) (s : State) : Nat :=
  match g.regions.getLast? with
  | some r => ((s.entries.filter fun q => q.g = g.ref && q.region = r.seq).map fun q => q.slots).sum +
      ((s.copies.filter fun c => c.2.live && c.2.g = g.ref && c.2.region = r.seq).map fun c =>
        1 + (s.rangeLocks.filter fun l => 64 * l.bench + l.entry = c.1).length).sum + heldEntries r.requests +
      (((s.core g.core).stores.filter fun t => t.g = g.ref && t.region = r.seq).flatMap fun t =>
        t.rows.flatMap fun q => q.map fun x => x.slots).sum
  | none => 0

/-- REGION.SQUSED (R311): unfreed entries of a group, and of the groups of a core. -/
def State.sqUsed (s : State) (r : GroupRef) : Nat :=
  ((s.entries.filter fun q => q.g = r).map fun q => q.slots).sum +
    (match s.group? r with | some g => heldEntries (s.unperformed g) | none => 0)
def State.sqCore (s : State) (core : Nat) : Nat := ((s.groups.filter fun g => g.core = core).map fun g => s.sqUsed g.ref).sum

/-- The extent of a scope (Table 18-2) for a group of a core: bench memory, or a scratchpad address. -/
def inExtent (s : State) (scope core : Nat) (bench : Bool) (pa : Nat) : Bool :=
  match scope with
  | 0 => false
  | 1 | 2 => bench || (paModule pa = s.domid && paDie pa = dieOfCore core)
  | 3 => bench || paModule pa = s.domid
  | _ => true

/-- Writes of others that happen-before a release by its marks are still to be acknowledged: releases are cumulative (R368).
DESIGN CHOICE, log 55: every write of another group that a region's commit has released by the mark's GTC counts as one. -/
def State.unackedOthers (s : State) (r : GroupRef) (core : Nat) (marks : Marks) : Bool :=
  marks.any fun m =>
    let counts (ws : List (Bool × Nat)) : Bool := ws.any fun w => inExtent s m.1 core w.1 w.2
    (s.entries.any fun q => q.g ≠ r && q.released && q.relAt ≤ m.2.2 && counts [(q.bench, q.pa)]) ||
      (s.pendings.any fun p => p.g ≠ r && p.commit ≤ m.2.2 && counts p.req.writes)

/-- Whether writes before the marks of a group, each in the extent of its scope, are still to be acknowledged (R369). -/
def State.unacked (s : State) (r : GroupRef) (core : Nat) (marks : Marks) : Bool :=
  (marks.any fun m =>
    let counts (id : Nat) (ws : List (Bool × Nat)) : Bool := id < m.2.1 && ws.any fun w => inExtent s m.1 core w.1 w.2
    (s.entries.any fun q => q.g = r && counts q.id [(q.bench, q.pa)]) ||
      (s.pendings.any fun p => p.g = r && counts p.id p.req.writes) ||
      (match s.group? r with
       | some g => g.held.any fun h => counts h.id h.req.writes
       | none => false)) ||
    s.unackedOthers r core marks

/-- A mark that stands now, at a scope. -/
def State.markAt (s : State) (marks : Marks) (scope id : Nat) : Marks := tput marks scope (id, s.gtc)

/-- A result has arrived: a mark behind the read that brought it counts what others had released by now (R368). -/
def Marks.raise (ms : Marks) (id gtc : Nat) : Marks := ms.map fun m => if id < m.2.1 then (m.1, (m.2.1, gtc)) else m

/-- Results of a group older than an acquire's mark have still to arrive (R367). -/
def Group.awaits (g : Group) (s : State) (mark : Option Nat) : Bool :=
  mark.any fun n =>
    (s.fills.any fun f => f.g = g.ref && f.id < n && !f.arrived) || (g.owed.any fun i => i.1 < n) ||
      (g.held.any fun h => h.id < n && h.req.owes)

/-- What stands behind an acquire of a group may not perform yet. -/
def State.acquiring (s : State) (r : GroupRef) (mark : Option Nat) : Bool := (s.group? r).any fun g => g.awaits s mark

/-- A read stands behind a FENCE.acq or FENCE.ar (R369, R390). -/
def Env.readHeld (e : Env) : Bool := e.g.awaits e.s e.g.acqBefore || e.s.unacked e.g.ref e.g.core e.g.arBefore

/-- Accesses to memory wait: behind an operation of the waiting class (R307), and while an MST has rows still to enter the
store queue, so that the group's writes keep their order (R279, R311). -/
def Group.memHeld (g : Group) (s : State) : Bool :=
  !g.waiting.isEmpty || (s.core g.core).stores.any fun t => t.g = g.ref

/-- Write the group and the block of an environment back. -/
def Env.close (e : Env) : State := (e.s.setGroup e.g).setBlock e.b

/-- The group waits: nothing else changes. -/
def State.waitAt (s : State) (g : Group) (w : Wait) : State :=
  s.setGroup { g with wait := w, waitSince := if g.wait = w then g.waitSince else s.gtc }

/-- A result of a group has arrived: the marks behind it are raised (R368). -/
def State.raiseMarks (s : State) (r : GroupRef) (id : Nat) : State :=
  let up (ms : Marks) : Marks := ms.raise id s.gtc
  { s with
    groups := s.groups.map fun g => if g.ref = r then { g with
      relMark := up g.relMark, arBefore := up g.arBefore,
      regions := g.regions.map fun q => { q with requests := q.requests.map fun h => { h with after := up h.after } } } else g,
    entries := s.entries.map fun q => if q.g = r then { q with fence := up q.fence } else q,
    pendings := s.pendings.map fun p => if p.g = r then { p with after := up p.after } else p,
    copies := s.copies.map fun c => if c.2.g = r then (c.1, { c.2 with ar := up c.2.ar }) else c }

/-- A state with what the walks of another have set (R145, R290). -/
def State.walked (s t : State) : State := { s with tlb := t.tlb, frames := t.frames, freeCtr := t.freeCtr }

/-- A CSWT has issued and its condition does not hold: its region stays open with it (R400). -/
def Env.stalls (e : Env) (since : Nat) : Env :=
  { e with g := { e.g with
      wait := .empty, waitSince := since,
      regions := modLast (fun r => { r with
        started := true, stalled := true, firstIssue := if r.waitFirst then e.s.gtc else r.firstIssue, waitFirst := false })
        e.g.regions } }

/-- Whether the code at an address is a fused consumer's (R118, R119). -/
def Block.fromC (b : Block) (a : Arch) : Bool := b.fused.isSome && b.codeFromC (a.vwb ≠ 0) a.pc

/-- The environment in which the current group issues an instruction of `len` bytes. -/
def envOf (s : State) (g : Group) (b : Block) (len : Nat) : Env :=
  { s, g, b, addr := g.arch.pc, len, fromC := b.fromC g.arch,
    regs := ((b.fusedAt g.arch.pc).map fun w => w.regs).getD [],
    dests := ((b.fusedAt g.arch.pc).map fun w => w.dests).getD [] }

/-- An instruction of kind `i` opens a region (R305, R306, R316). -/
def Group.opensFor (g : Group) (i : IssueInfo) : Bool := g.opens || (i.rgn && g.started)

/-- The group as an instruction of kind `i` is issued: behind its head, but a head that has come while a CSWT waited stands behind
that. -/
def Group.atIssue (g : Group) (i : IssueInfo) (gtc : Nat) : Group :=
  { (if g.opensFor i then g.openRegion gtc else g) with wait := .ready, headPending := g.headPending && g.inCswt }

/-- The environment of an issue of kind `i`, at the instruction and past it. -/
def envBefore (i : IssueInfo) (s : State) (g : Group) (b : Block) : Env :=
  { (envOf s g b i.len) with g := g.atIssue i s.gtc }
def envAt (i : IssueInfo) (s : State) (g : Group) (b : Block) : Env := (envBefore i s g b).setPc (g.arch.pc + i.len)

/-- After an instruction has issued, `inHandler` where it issued in a handler: the lane is busy, the head behind a closing
operation and behind a full share of the store queue stand, and STEP is due (R156, R305, R432). -/
def Env.issued (e : Env) (i : IssueInfo) (opened inHandler : Bool) : Env :=
  let full := e.s.sqHwm e.g.core ≤ e.g.ownEntries e.s
  let cycle := e.s.effCycles (benchOfCore e.g.core) + e.passes
  let stepped := !inHandler && !e.g.arch.handler && [0, 1].any fun d => (e.s.die d).stepEn && (e.s.die d).stepTask = e.g.ref.task
  { e with
    g := { e.g with
      regions := modLast (fun r => { r with
        started := r.started || !(i.rgn && (opened || r.waitFirst)), lastPass := cycle,
        firstIssue := if r.waitFirst then e.s.gtc else r.firstIssue, waitFirst := false, stalled := false }) e.g.regions,
      headPending := e.g.headPending || i.closing || full,
      lastIssue := e.s.gtc, busyUntil := cycle,
      wait := if e.g.wait = .empty then .ready else e.g.wait,
      step := if stepped then some (e.addr, e.len) else none } }

/-- The issue of one instruction by the current group: role, the fifth region, the waits of R307 and R369, the body, the
rename pool, and what follows the issue. -/
def issue (i : IssueInfo) (body : Env → Res) (s : State) : Host.Outcome State Fault Refusal :=
  match s.cur.bind s.group? with
  | none => .fault .noCurrentGroup
  | some g =>
    match s.block? (blockOf g.ref) with
    | none => .fault .noCurrentGroup
    | some b =>
      if g.ended || g.doomed || b.state ≠ .placed then .next s else
      let trapped (s : State) (t : Trap) : State := ((envBefore i s g b).takeTrap t g.arch.pc).close
      let held := if g.opensFor i then g.passHead s.gtc else g
      if g.opensFor i && 4 ≤ g.regions.length then .next (s.waitAt g .empty)
      else if i.role.any fun r => r ≠ g.role then .next (trapped s { code := 6 })
      else if g.stall.isSome || ((i.reads || i.writes || i.mem) && g.memHeld s) then .next (s.waitAt held .empty)
      else if i.reads && (envBefore i s g b).readHeld then .next (s.waitAt held .empty)
      else
        match body (envAt i s g b) with
        | .trap t => .next (trapped s t)
        | .trapAfter t w => .next (trapped (s.walked w) t)
        | .stall => .next ((envBefore i s g b).stalls (if g.wait = .empty then g.waitSince else s.gtc)).close
        | .wait w => .next (s.waitAt held w)
        | .waitHead =>
          .next (s.waitAt (if 4 ≤ g.regions.length then g else { (g.passHead s.gtc) with headPending := true }) .empty)
        | .done e =>
          if s.renamePool g.core < e.g.renameUse + s.renameUsed g.core g.ref then .next (s.waitAt held .empty)
          else .next (e.issued i (g.opensFor i) g.arch.handler).close

end Sys2Proof.Machine
end

