-- ==== Sys2Proof/Machine/Operands.lean ====
section
/-!
DEFINITION. Machine/Operands.lean: what every operand form reads (R54, R57-R60, Tables 3-8, 3-9 and 3-11), the shapes of
results (R160, R197) and the writing of destinations under the run mask and a predicate (R56, R199).
-/

namespace Sys2Proof.Machine

open Sys2Proof

/-! ### Formats (Table 11-2) -/

/-- A floating-point format: its code of Table 11-1, its width, its exponent and mantissa bits. -/
structure FSpec where
  code : Nat
  width : Nat
  eb : Nat
  mb : Nat
  bias : Nat
  deriving DecidableEq, Repr

def specOf (code : Nat) : FSpec :=
  match code with
  | 0 => ⟨0, 32, 8, 23, 127⟩
  | 1 => ⟨1, 16, 8, 7, 127⟩
  | 2 => ⟨2, 16, 5, 10, 15⟩
  | 3 => ⟨3, 8, 4, 3, 7⟩
  | 4 => ⟨4, 8, 5, 2, 15⟩
  | 5 => ⟨5, 6, 3, 2, 3⟩
  | 6 => ⟨6, 6, 2, 3, 1⟩
  | _ => ⟨7, 4, 2, 1, 1⟩

/-- FP32, BF16, FP16, E5M2 have infinities. -/
def FSpec.hasInf (f : FSpec) : Bool := f.code ≤ 2 || f.code = 4
/-- FP32, BF16 and FP16 have signalling NaNs (R232). -/
def FSpec.hasSig (f : FSpec) : Bool := f.code ≤ 2
/-- The canonical NaN (R232); E3M2, E2M3 and E2M1 have none. -/
def FSpec.nan (f : FSpec) : Nat :=
  match f.code with
  | 0 => 0x7FC00000
  | 1 => 0x7FC0
  | 2 => 0x7E00
  | 3 => 0x7F
  | 4 => 0x7E
  | _ => 0
/-- The code of the largest finite magnitude. -/
def FSpec.maxCode (f : FSpec) : Nat :=
  match f.code with
  | 0 => 0x7F7FFFFF
  | 1 => 0x7F7F
  | 2 => 0x7BFF
  | 3 => 0x7E
  | 4 => 0x7B
  | 5 | 6 => 0x1F
  | _ => 7
/-- The code of +infinity. -/
def FSpec.infCode (f : FSpec) : Nat := (2 ^ f.eb - 1) * 2 ^ f.mb
def FSpec.signBit (f : FSpec) : Nat := 2 ^ (f.width - 1)
/-- Precision with the hidden bit, exponent of the minimum normal, exponent of the last place of a subnormal. -/
def FSpec.prec (f : FSpec) : Nat := f.mb + 1
def FSpec.emin (f : FSpec) : Int := 1 - (f.bias : Int)
def FSpec.qmin (f : FSpec) : Int := f.emin - (f.mb : Int)

/-- The floating-point formats that an operand position can have. -/
inductive FFmt where
  | f32 | f16 | bf16
  /-- a format of 4 to 8 bits, as the source of a conversion (R249) -/
  | small (f : FSpec)
  deriving DecidableEq, Repr

/-- The type of an operand position, which decides the bits a constant supplies (R60). -/
inductive Pos where
  | int
  | flt (f : FFmt)
  | packed (bf : Bool)
  deriving DecidableEq, Repr

/-! ### Constants -/

/-- The value of an integer constant code (576-655). -/
def intConst (c : Nat) : Int := if c < 640 then (c : Int) - 576 else 639 - (c : Int)

/-- FP32 encoding of a sign, a magnitude m × 2^e with m < 64. -/
def f32OfSmall (neg : Bool) (m : Nat) (e : Int) : W32 :=
  if m = 0 then (if neg then 0x80000000 else 0)
  else
    let l := Nat.log2 m
    BitVec.ofNat 32 ((if neg then 2 ^ 31 else 0) + (e + (l : Int) + 127).toNat * 2 ^ 23 + (m - 2 ^ l) * 2 ^ (23 - l))

/-- Codes 656-703 as FP32 (Table 3-11). -/
def fltConst (c : Nat) : W32 :=
  if c < 688 then f32OfSmall (c % 2 = 1) 1 (((c - 656) / 2 : Nat) - 4 : Int)
  else
    let neg := c % 2 = 1
    match c with
    | 688 => 0x80000000
    | 689 => 0x7F800000
    | 690 => 0xFF800000
    | 691 => 0x7FC00000
    | 692 | 693 => f32OfSmall neg 3 (-1)
    | 694 | 695 => f32OfSmall neg 3 0
    | 696 | 697 => f32OfSmall neg 3 (-2)
    | 698 | 699 => f32OfSmall neg 5 0
    | 700 | 701 => f32OfSmall neg 10 0
    | _ => f32OfSmall neg 6 0

/-- A constant, given in FP32, exactly in a format of 4 to 8 bits (R60).  Where the format does not hold the value the spec
states no bits, and they are free. -/
def smallConst (f : FSpec) (x : W32) : W32 :=
  let free : W32 := (Config.narrowConst f.code x).setWidth 32
  let sign := x.toNat / 2 ^ 31 * f.signBit
  let e : Nat := x.toNat / 2 ^ 23 % 256
  let m : Nat := x.toNat % 2 ^ 23
  if e = 0 then BitVec.ofNat 32 sign
  else if e = 255 then
    if m ≠ 0 then (if f.code < 5 then BitVec.ofNat 32 f.nan else free)
    else if f.hasInf then BitVec.ofNat 32 (sign + f.infCode) else free
  else
    let q : Int := max ((e : Int) - 127 - f.mb) f.qmin
    let d : Nat := (q - ((e : Int) - 150)).toNat
    let k : Nat := (2 ^ 23 + m) / 2 ^ d
    let code : Nat := if f.emin ≤ (e : Int) - 127 then ((e : Int) - 127 + f.bias - 1).toNat * 2 ^ f.mb + k else k
    if (2 ^ 23 + m) % 2 ^ d = 0 && code ≤ f.maxCode then BitVec.ofNat 32 (sign + code) else free

/-- An FP32 constant in another format: every constant is exact in the 16- and 32-bit formats, and a NaN is the canonical
NaN (R60). DEDUCED, log 26. -/
def constIn (f : FFmt) (x : W32) : W32 :=
  match f with
  | .f32 => x
  | .bf16 => (x >>> 16)
  | .f16 =>
    let sign : W32 := (x >>> 16) &&& 0x8000
    let e := (x.toNat / 2 ^ 23) % 256
    let m := x.toNat % 2 ^ 23
    if e = 0 then sign
    else if e = 255 then (if m = 0 then sign ||| 0x7C00 else 0x7E00)
    else sign ||| BitVec.ofNat 32 ((e - 112) * 2 ^ 10 + m / 2 ^ 13)
  | .small f => smallConst f x

/-- The FP32 value of a constant code, integer or floating-point. -/
def constF32 (c : Nat) : W32 :=
  if c < 656 then
    let v := intConst c
    f32OfSmall (v < 0) v.natAbs 0
  else fltConst c

/-- A 16-bit value in both halves. -/
def bothHalves (x : W32) : W32 := (x <<< 16) ||| (x &&& 0xFFFF)

/-- R60: the 32 bits that a constant code supplies. -/
def constBits (p : Pos) (c : Nat) : W32 :=
  match p with
  | .int => if c < 656 then BitVec.ofInt 32 (intConst c) else fltConst c
  | .flt f => constIn f (constF32 c)
  | .packed bf => bothHalves (constIn (if bf then .bf16 else .f16) (constF32 c))

/-- R60: the 64 bits that a constant code supplies to an integer, untyped or 64-bit position. -/
def const64 (c : Nat) : W64 := if c < 656 then BitVec.ofInt 64 (intConst c) else zext64 (fltConst c)

/-! ### Specials (R58, Table 3-9) -/

/-- A special with one value per group. -/
def Env.special (e : Env) (c : Nat) : W32 :=
  let n (v : Nat) : W32 := BitVec.ofNat 32 v
  match c with
  | 523 => n e.g.ref.gid
  | 524 => n e.g.ref.bid
  | 525 => n e.g.core
  | 526 => n (benchOfCore e.g.core)
  | 527 => n (fieldOfCore e.g.core)
  | 528 => n (dieOfCore e.g.core)
  | 529 => n (e.s.tcb e.g.ref.task).blocks
  | 530 => n e.b.kernel.groups
  | 531 => e.g.arch.run
  | 532 => n e.s.gtc
  | _ => 0

/-- A special with its shape. -/
def Env.specialV (e : Env) (c : Nat) : VVal :=
  match c with
  | 520 => .a (BitVec.ofNat 32 (32 * e.g.ref.gid)) 1
  | 521 => .a 0 1
  | 522 => .ofSlots fun i => BitVec.ofNat 32 (i / 4)
  | _ => .u (e.special c)

/-! ### Sources -/

def litLow (l : Option W64) : W32 := (l.getD 0).setWidth 32
def litHigh (l : Option W64) : W32 := ((l.getD 0) >>> 32).setWidth 32

/-- A scalar source in a position: to a packed one it supplies its bits [15:0] in both halves (R251). DEDUCED, log 120. -/
def Pos.scalar (p : Pos) (x : W32) : W32 :=
  match p with
  | .packed _ => bothHalves x
  | _ => x

/-- A 32-bit vector source (R196, R239). -/
def Env.src32 (e : Env) (p : Pos) (lit : Option W64) (code : BitVec 10) : VVal :=
  let c := code.toNat
  if c < 128 then e.vval c
  else if c < 512 then .u (p.scalar ((e.sval (c - 128)).setWidth 32))
  else if c < 520 then .ofSlots fun i => if (e.kval (c - 512)).getLsbD i then 1 else 0
  else if c < 523 then e.specialV c
  else if c < 576 then .u (p.scalar (e.special c))
  else if c < 704 then .u (constBits p c)
  else if c = 769 then .u (litHigh lit)
  else .u (litLow lit)

/-- The two words of a 64-bit vector source, each with its shape (R196, R246). -/
def Env.src64 (e : Env) (lit : Option W64) (code : BitVec 10) : VVal × VVal :=
  let c := code.toNat
  let split (x : W64) : VVal × VVal := (.u (x.setWidth 32), .u ((x >>> 32).setWidth 32))
  if c < 128 then (e.vval c, e.vval (c + 1))
  else if c < 512 then split (e.sval (c - 128))
  else if c < 704 then split (const64 c)
  else split (lit.getD 0)

/-- A slot of a 64-bit vector source. -/
def slot64 (v : VVal × VVal) (i : Nat) : W64 := (v.2.slot i) ++ (v.1.slot i)

/-- A uniform source, 64 bits wide (R187). -/
def Env.srcU (e : Env) (lit : Option W64) (code : BitVec 10) : W64 :=
  let c := code.toNat
  if c < 128 then 0
  else if c < 512 then e.sval (c - 128)
  else if c < 520 then zext64 (e.kval (c - 512))
  else if c < 576 then zext64 (e.special c)
  else if c < 704 then const64 c
  else lit.getD 0

/-- A 32-bit scalar source: bits [31:0] of a register, a constant in its position, or a half of the literal (R220, R273,
R297). -/
def Env.srcS32 (e : Env) (p : Pos) (lit : Option W64) (code : BitVec 10) : W32 := (e.src32 p lit code).slot 0

/-- The 20-bit offset of C and E (R55). -/
def offsetOf (x : Ext) : Int := (x.e ++ x.c : BitVec 20).toInt

/-- A 64-bit address from an integer. -/
def wrap64 (v : Int) : Nat := (v % 2 ^ 64).toNat

/-! ### Waiting for operands -/

/-- The register codes an instruction reads in A, B and C, each with its T bit; TA governs a format block wherever it stands
(R264), and an optional source of code 0 is none. -/
def srcCodes (u : Usage) (x : Ext) : List (Nat × Bool) :=
  let one (k : OpKind) (c : BitVec 10) (t : Bool) : List (Nat × Bool) :=
    match k with
    | .unread | .offset => []
    | .uBlock n => (codes c.toNat n).map fun n => (n, t || x.ta)
    | .uSrcOpt => if c = 0 then [] else [(c.toNat, t)]
    | k => (codes c.toNat (k.covers c.toNat)).map fun n => (n, t)
  one u.a x.a x.ta ++ one u.b x.b x.tb ++ one u.c x.c x.tc

/-- The register codes an instruction names in D. -/
def dstCodes (u : Usage) (x : Ext) : List Nat :=
  match u.d with
  | .unread => []
  | k => codes x.d.toNat (k.covers x.d.toNat)

/-- Lengths (R44). -/
def lenExt (x : Ext) : Nat := if x.lit.isSome then 20 else 12
def lenBase (f : BaseF) : Nat := if f.lit.isSome then 12 else 4

/-- Issue an instruction with extended fields: its body runs once none of its sources and destinations is empty. -/
def issueExt (maj fn : Nat) (x : Ext) (i : IssueInfo) (k : Env → Res) : State → Host.Outcome State Fault Refusal :=
  issue i fun e =>
    match usage maj fn x with
    | none => .trap { code := 1 }
    | some u => e.whenFull (srcCodes u x) (dstCodes u x) k

/-- The same for a store, whose D is a source under TC (R297). -/
def issueStore (maj fn : Nat) (x : Ext) (i : IssueInfo) (k : Env → Res) : State → Host.Outcome State Fault Refusal :=
  issue i fun e =>
    match usage maj fn x with
    | none => .trap { code := 1 }
    | some u => e.whenFull (srcCodes u x ++ (dstCodes u x).map fun n => (n, x.tc)) [] k

/-! ### Participation and destinations -/

/-- The predicate mask (R56): all ones where KP = 0. -/
def Env.pred (e : Env) (x : Ext) : W32 :=
  if x.kp = 0 then BitVec.allOnes 32
  else if x.kn then ~~~(e.kval x.kp.toNat) else e.kval x.kp.toNat

/-- Whether slot `i` takes part (R56, R157). -/
def Env.parts (e : Env) (x : Ext) (i : Nat) : Bool := takesPart e.g.launched e.g.arch.run (e.pred x) i

/-- Whether slot `i` is launched and takes part: an active slot (R254). -/
def Env.active (e : Env) (x : Ext) (i : Nat) : Bool := e.g.launched.getLsbD i && e.parts x i

/-- R160 rule 1: every launched slot takes part. -/
def Env.allPart (e : Env) (x : Ext) : Bool := slots.all fun i => !e.g.launched.getLsbD i || e.parts x i

/-- The new value of a vector destination: the result where every launched slot takes part, otherwise G with the other
slots kept (R160 rule 1, R199).  A never-launched slot of a G result keeps its value. -/
def mergeV (all : Bool) (parts : Nat → Bool) (old res : VVal) : VVal :=
  match all, res with
  | true, .u x => .u x
  | true, .a b d => .a b d
  | _, _ => .ofSlots fun i => if parts i then res.slot i else old.slot i

/-- Passes of a value's shape (Table 9-1). -/
def shapePasses : VVal → Nat
  | .u _ => 1
  | .a _ _ => 2
  | .g _ => 8

/-- Write a vector destination under the run mask and the predicate. -/
def Env.writeV (e : Env) (x : Ext) (n : Nat) (res : VVal) : Env :=
  let val := mergeV (e.allPart x) (e.parts x) (e.vOld n) res
  (e.setV n val).withPasses (shapePasses val)

/-- Write the participating slots' bits of a mask destination (R199, R200). -/
def Env.writeK (e : Env) (x : Ext) (n : Nat) (f : Nat → Bool) : Env :=
  let old := e.kval n
  e.setK n (maskOf fun i => if e.parts x i then f i else old.getLsbD i)

/-- A per-slot result with its shape by R160 rules 3 to 5: U where every source is U, the affine form where one is given,
and otherwise G. -/
def shaped (srcs : List VVal) (affine : Option VVal) (f : Nat → W32) : VVal :=
  if srcs.all fun v => v.tag = 0 then .u (f 0)
  else if srcs.all fun v => v.tag ≤ 1 then
    match affine with
    | some a => a
    | none => .ofSlots f
  else .ofSlots f

/-- Base and stride of a U or A value (R197); a G value has none. -/
def VVal.affine : VVal → Option (W32 × W32)
  | .u x => some (x, 0)
  | .a b d => some (b, d)
  | .g _ => none

end Sys2Proof.Machine
end

