-- ==== Sys2Proof/Machine/Memory.lean ====
section
/-!
DEFINITION. Machine/Memory.lean: the memory family and its base forms (MAJ 12, 13 and 21; R282-R304), over four shared
operations: checking an access (R296), reading with forwarding (R295), queueing writes (R295, R311), and a pending result
(R163).
-/

namespace Sys2Proof.Machine

open Sys2Proof

/-! ### Checking an access (R296) -/

/-- One access: the slot (none for once per group), its address and its bytes. -/
structure Access where
  slot : Option Nat
  va : Nat
  n : Nat
  deriving DecidableEq, Repr

/-- R322: an access that meets a range lock of its owner on this die: a read meets destinations, a write both. -/
def Env.locked (e : Env) (store bm : Bool) (lo n : Nat) : Bool :=
  e.s.rangeLocks.any fun l =>
    dieOfCore (4 * l.bench) = dieOfCore e.g.core && l.owner = e.b.owner &&
      l.block = (if bm then some e.b.ref else none) && lo < l.hi && l.lo < lo + n && (store || l.isDst)

/-- Steps 4 to 6 of R296 for a scratchpad address that is read, written or both: the physical address, or the code and the walk
bits of cause word 1; what a walk set stands either way (R145). -/
def placeScr (s : State) (v : Viewer) (owner : Nat) (r w : Bool) (va : Nat) : Except ((Nat × Nat) × State) (Nat × State) :=
  match s.translateBy v owner va with
  | (.page (some l), s') => .error ((9, 16 * l + 128), s')
  | (.page none, s') => .error ((9, 0), s')
  | (.frame, s') => .error ((10, 0), s')
  | (.ok t, s') =>
    let pa := t.addr va
    if t.ca || (w && !t.w) || (r && !t.r) || s'.devicePage pa then .error ((10, 0), s')
    else if paClass pa ≠ 0 then .error ((13, 0), s')
    else .ok (pa, s')

/-- R296 for one access: ALIGN, BOUNDS, PAGE, PROT, MAIN_DIRECT, RANGE_LOCK.  The place is a physical address or a block
offset, a fused consumer's moved by the producer's BENCHMEM (R284). -/
def Env.place (e : Env) (store bm : Bool) (align : Nat) (a : Access) : Except ((Nat × Nat) × State) (Nat × Env) :=
  if a.va % align ≠ 0 then .error ((8, 0), e.s)
  else if bm then
    if e.kernel.benchMem < a.va + a.n then .error ((15, 0), e.s)
    else
      let o := a.va + e.benchShift
      if e.locked store true o a.n then .error ((14, 0), e.s) else .ok (o, e)
  else
    match placeScr e.s (.core e.g.core) e.b.owner (!store) store a.va with
    | .error x => .error x
    | .ok (pa, s') => if e.locked store false a.va a.n then .error ((14, 0), s') else .ok (pa, e.setS s')

/-- The trap of a failed access (R296). DEDUCED, log 41. -/
def accessTrap (store bm : Bool) (a : Access) (x : Nat × Nat) : Trap :=
  { code := x.1, addr := BitVec.ofNat 64 a.va,
    cause0 := BitVec.ofNat 64 (a.slot.getD 0xFFFFFFFF),
    cause1 := BitVec.ofNat 64 ((if store then 1 else 0) + (if bm then 2 else 0) + x.2) }

/-- Check every access in order: the first failure of a launched slot traps; a helper slot's failing load has no place
(R157). -/
def Env.placeAll (e : Env) (store bm : Bool) (align : Nat) : List Access → Except (Trap × State) (List (Option Nat) × Env)
  | [] => .ok ([], e)
  | a :: as =>
    match e.place store bm align a with
    | .error x =>
      if a.slot.any fun i => !e.g.launched.getLsbD i then
        match (e.setS x.2).placeAll store bm align as with
        | .error t => .error t
        | .ok (ps, e') => .ok (none :: ps, e')
      else .error (accessTrap store bm a x.1, x.2)
    | .ok (p, e1) =>
      match e1.placeAll store bm align as with
      | .error t => .error t
      | .ok (ps, e') => .ok (some p :: ps, e')

/-! ### Reading (R295, R310) -/

/-- The group's own queued writes to a space that have not performed, newest first. -/
def Env.ownQueue (e : Env) (bm : Bool) : List QEntry :=
  (e.s.entries.filter fun q => q.g = e.g.ref && q.bench = bm && q.phase < 2).reverse

/-- The newest queued byte at a place. -/
def queuedByte : List QEntry → Nat → Option Byte
  | [], _ => none
  | q :: qs, p => if q.pa / 64 = p / 64 then (match tfind q.bytes (p % 64) with
      | some b => some b
      | none => queuedByte qs p) else queuedByte qs p

/-- A byte as the group reads it: its own queue before memory. DEDUCED, log 42. -/
def Env.byteAt (e : Env) (bm : Bool) (own : List QEntry) (p : Nat) : Byte :=
  match queuedByte own p with
  | some b => b
  | none => if bm then tget 0 e.b.bench p else e.s.readByte (some (e.s.keyAt e.b.owner p)) p

def Env.bytesAt (e : Env) (bm : Bool) (own : List QEntry) (p n : Nat) : List Byte :=
  (List.range n).map fun i => e.byteAt bm own (p + i)

/-- The value read at a place; a helper slot without one reads 0. -/
def Env.valueAt (e : Env) (bm : Bool) (own : List QEntry) (n : Nat) : Option Nat → Nat
  | none => 0
  | some p => leNat (e.bytesAt bm own p n)

/-- A held or released request that writes a place which `n` bytes at `lo` meet (R363). -/
def Request.meets (bm : Bool) (lo n : Nat) (r : Request) : Bool :=
  r.writes.any fun w => w.1 = bm && w.2 < lo + n && lo < w.2 + 8

/-- A read of bytes that an earlier request of this group will write and has not written yet waits for it (R363). -/
def Env.behindAtom (e : Env) (bm : Bool) (ps : List (Option Nat)) (n : Nat) : Bool :=
  ps.any fun p => p.any fun p => (e.s.unperformed e.g).any fun h => h.req.meets bm p n

/-- The lines that a list of places touches. -/
def linesOf (ps : List (Option Nat)) (n : Nat) : List Nat :=
  (ps.flatMap fun p => match p with | some p => [p / 256, (p + n - 1) / 256] | none => []).eraseDups

/-- R284: latency of a bench-memory offset. -/
def Env.benchLatency (e : Env) (o : Nat) : Nat :=
  if e.b.lead + o / 524288 = e.g.core then Config.latBench else Config.latBenchFar

/-- The latency of a read, its path cells entering the cover and its tags the commit (R310, R315). -/
def Env.readPath (e : Env) (bm : Bool) (ps : List (Option Nat)) (n : Nat) : Nat × Env :=
  if bm then
    let (lat, s1) := e.s.delay ((ps.map fun p => match p with | some p => e.benchLatency p | none => 1).foldl max 1)
    (lat, e.setS s1)
  else
    (linesOf ps n).foldl (fun acc l =>
      let (base, d) := scratchLatency acc.2.s e.field (256 * l)
      let (lat, s1) := acc.2.s.delay base
      let e1 := (acc.2.setS s1).cover (pathCells s1 e.field (256 * l))
      (max acc.1 lat, if d = 0 then e1 else e1.tagged (s1.tagAt (s1.gtc + lat) (paModule (256 * l))))) (1, e)

/-- R157, R421: a helper slot's access that meets a poisoned sector has no place, like every failing one: it returns 0 and
raises nothing. -/
def Env.spareHelpers (e : Env) (bm : Bool) (n : Nat) (accs : List Access) (ps : List (Option Nat)) : List (Option Nat) :=
  (accs.zip ps).map fun a =>
    if !bm && (a.1.slot.any fun i => !e.g.launched.getLsbD i) && (a.2.any fun q => e.s.poisonAt q n) then none else a.2

/-- R421: the first poisoned byte range a scratchpad read meets. -/
def Env.poisonOf (e : Env) (bm : Bool) (ps : List (Option Nat)) (n : Nat) (va : List Nat) : Option Trap :=
  if bm then none
  else ((ps.zip va).find? fun p => p.1.any fun q => e.s.poisonAt q n).map fun p =>
    { code := 30, addr := BitVec.ofNat 64 p.2, cause0 := 1 }

/-- The passes that a result's shape takes (Table 9-1). -/
def RegVal.passes : RegVal → Nat
  | .v _ x => shapePasses x
  | .u _ _ => 1

/-- A result that arrives after `lat` mc for the given registers (absolute numbers), which become empty (R163); the lane
makes the passes of its shape (R156). -/
def Env.pendResult (e : Env) (lat : Nat) (vals : List RegVal) (fault : Option Trap) : Env :=
  let (id, s2) := e.s.fresh
  let seq := match e.g.regions.getLast? with | some r => r.seq | none => 0
  let e1 := { (e.withPasses ((vals.map RegVal.passes).foldl max 1)) with s := { s2 with fills := s2.fills ++
    [{ id, g := e.g.ref, region := seq, due := s2.gtc + lat, vals, fault := fault.map fun t => { t with site := some e.addr } }] } }
  vals.foldl (fun e v => match v with
    | .v n _ => (e.setArch (e.g.arch.setV n { e.g.arch.vreg n with pend := some id })).note n
    | .u n _ => if n = 0 then e else (e.setArch (e.g.arch.setS n { e.g.arch.ureg n with pend := some id })).note (128 + n))
    e1

/-! ### Writing (R295, R311) -/

/-- Gather written bytes into 64-byte chunks: a later byte replaces an earlier one. -/
def gather : List (Nat × Byte) → Table (Table Byte)
  | [] => []
  | w :: ws => ws.foldl (fun t w => tput t (w.1 / 64) (tput (tget [] t (w.1 / 64)) (w.1 % 64) w.2))
      [(w.1 / 64, [(w.1 % 64, w.2)])]

/-- The entries of a list of written bytes. -/
def Env.entriesOf (e : Env) (bm : Bool) (ws : List (Nat × Byte)) : List QEntry :=
  let seq := match e.g.regions.getLast? with | some r => r.seq | none => 0
  ((gather ws).zipIdx).map fun c =>
    { id := e.s.nextId + c.2, g := e.g.ref, region := seq, bench := bm, owner := e.b.owner, pa := 64 * c.1.1,
      bytes := c.1.2, fence := e.g.relMark, acq := e.g.acqBefore }

/-- Queue entries; with too few free ones of the core's 2,048 the group waits, behind a head where its region holds
entries (Table 15-1). -/
def Env.enqueue (e : Env) (qs : List QEntry) (k : Env → Res) : Res :=
  if 2048 < e.s.sqCore e.g.core + (qs.map fun q => q.slots).sum then
    if e.g.ownEntries e.s = 0 then .wait .empty else .waitHead
  else k (e.setS { e.s with entries := e.s.entries ++ qs, nextId := e.s.nextId + qs.length })

def Env.queueWrites (e : Env) (bm : Bool) (ws : List (Nat × Byte)) (k : Env → Res) : Res := e.enqueue (e.entriesOf bm ws) k

/-- The low `n` bytes of a number, at a place. -/
def bytesFrom (p v : Nat) : Nat → List (Nat × Byte)
  | 0 => []
  | n + 1 => (p, BitVec.ofNat 8 v) :: bytesFrom (p + 1) (v / 256) n

/-- The low `n` bytes of a number. -/
def leBytes (n v : Nat) : List Byte := (bytesFrom 0 v n).map fun b => b.2

/-- Little-endian field of a record. -/
def recField (r : List Byte) (o n : Nat) : Nat := leNat ((r.drop o).take n)

/-! ### Addresses -/

/-- The base of slot `i` (R297): 64 bits from an even vector pair, a uniform register or the literal. -/
def Env.baseAt (e : Env) (x : Ext) (i : Nat) : Nat :=
  if codeIsV x.a.toNat then (slot64 (e.src64 x.lit x.a) i).toNat else (e.srcU x.lit x.a).toNat

/-- R298: the effective address of slot `i`. -/
def Env.eaAt (e : Env) (x : Ext) (idx : VVal) (i : Nat) : Nat :=
  wrap64 ((e.baseAt x i : Int) + (idx.slot i).toNat * 2 ^ (x.imm8.toNat / 32 % 4) + offsetOf x)

/-- R300: the address of LDU and STU. -/
def Env.eaU (e : Env) (x : Ext) : Nat := wrap64 ((e.srcU x.lit x.a).toNat + offsetOf x)

def isBm (x : Ext) : Bool := !x.imm8.getLsbD 4

/-- The number of 32-bit registers of a size code. -/
def sizeRegs (size : Nat) : Nat := if size = 3 then 2 else if size = 4 then 4 else 1

def memInfo (len : Nat) (store : Bool) : IssueInfo := { len, reads := !store, writes := store }

/-- Sign- or zero-extend a narrow load (R298). -/
def extendLoad (size : Nat) (signed : Bool) (v : Nat) : Nat :=
  let w := 8 * 2 ^ size
  if signed && v / 2 ^ (w - 1) % 2 = 1 then v + 2 ^ 64 - 2 ^ w else v

/-! ### LD and ST (R298) -/

def ldOp (x : Ext) (len : Nat) : State → Host.Outcome State Fault Refusal :=
  issueExt 21 0 x (memInfo len false) fun e =>
    let bm := isBm x
    let size := x.imm8.toNat % 8
    let n := 2 ^ size
    let idx := e.src32 .int x.lit x.b
    let on := slots.filter fun i => e.parts x i
    let accs := on.map fun i => { slot := some i, va := e.eaAt x idx i, n : Access }
    match e.placeAll false bm n accs with
    | .error t => .trapAfter t.1 t.2
    | .ok (ps, e) =>
      let ps := e.spareHelpers bm n accs ps
      if e.behindAtom bm ps n then .wait .empty
      else
        let own := e.ownQueue bm
        let got := on.zip (ps.map fun p =>
          if size ≤ 1 then extendLoad size (x.imm8.getLsbD 3) (e.valueAt bm own n p) else e.valueAt bm own n p)
        let (lat, e) := e.readPath bm ps n
        let d := x.d.toNat
        let reg (j : Nat) : RegVal := .v (e.vIdx (d + j)) (.ofSlots fun i =>
          match tfind got i with
          | some v => BitVec.ofNat 32 (v / 2 ^ (32 * j))
          | none => (e.vOld (d + j)).slot i)
        .done (e.pendResult lat ((List.range (sizeRegs size)).map reg) (e.poisonOf bm ps n (accs.map Access.va)))

def stOp (x : Ext) (len : Nat) : State → Host.Outcome State Fault Refusal :=
  issueStore 21 1 x (memInfo len true) fun e =>
    let bm := isBm x
    let size := x.imm8.toNat % 8
    let n := 2 ^ size
    let idx := e.src32 .int x.lit x.b
    let on := slots.filter fun i => e.active x i
    match e.placeAll true bm n (on.map fun i => { slot := some i, va := e.eaAt x idx i, n }) with
    | .error t => .trapAfter t.1 t.2
    | .ok (ps, e) =>
      let data (i : Nat) : Nat :=
        ((List.range (sizeRegs size)).map fun j => ((e.vval (x.d.toNat + j)).slot i).toNat * 2 ^ (32 * j)).sum
      e.queueWrites bm ((on.zip ps).flatMap fun p => bytesFrom (p.2.getD 0) (data p.1) n) .done

def execLd (x : Ext) := ldOp x (lenExt x)
def execSt (x : Ext) := stOp x (lenExt x)

/-- R299: a BM word as the LD or ST it stands for. -/
def bmExt (f : BmF) : Ext :=
  let off : BitVec 20 := (f.off ++ (0 : BitVec 4)).signExtend 20
  { d := f.d.setWidth 10, a := BitVec.ofNat 10 (128 + f.b.toNat), b := f.a.setWidth 10,
    c := off.setWidth 10, e := (off >>> 10).setWidth 10,
    imm8 := BitVec.ofNat 8 (2 + f.w.toNat + (if f.scr then 16 else 0)) }

def execLdShort (f : BmF) := ldOp (bmExt f) 4
def execStShort (f : BmF) := stOp (bmExt f) 4

/-! ### LDU and STU (R300) -/

def lduOp (x : Ext) (len : Nat) : State → Host.Outcome State Fault Refusal :=
  issueExt 21 2 x (memInfo len false) fun e =>
    let bm := isBm x
    let size := x.imm8.toNat % 4
    let n := 2 ^ size
    let acc : Access := { slot := none, va := e.eaU x, n }
    match e.placeAll false bm n [acc] with
    | .error t => .trapAfter t.1 t.2
    | .ok (ps, e) =>
      if e.behindAtom bm ps n then .wait .empty
      else
        let v := e.valueAt bm (e.ownQueue bm) n (ps.headD none)
        let (lat, e) := e.readPath bm ps n
        .done (e.pendResult lat
          [.u (if x.d.toNat = 128 then 0 else e.sIdx (x.d.toNat - 128))
            (BitVec.ofNat 64 (extendLoad size (x.imm8.getLsbD 3) v))]
          (e.poisonOf bm ps n [acc.va]))

def stuOp (x : Ext) (len : Nat) : State → Host.Outcome State Fault Refusal :=
  issueStore 21 3 x (memInfo len true) fun e =>
    let bm := isBm x
    let n := 2 ^ (x.imm8.toNat % 4)
    match e.placeAll true bm n [{ slot := none, va := e.eaU x, n }] with
    | .error t => .trapAfter t.1 t.2
    | .ok (ps, e) =>
      e.queueWrites bm (bytesFrom ((ps.headD none).getD 0) (e.sval (x.d.toNat - 128)).toNat n) .done

def execLdu (x : Ext) := lduOp x (lenExt x)
def execStu (x : Ext) := stuOp x (lenExt x)

/-- R49, R299: a MAJ 13 word as the LDU or STU it stands for. -/
def umExt (f : UmF) : Ext :=
  let off : BitVec 20 := f.imm.signExtend 20
  { d := BitVec.ofNat 10 (128 + f.d.toNat), a := BitVec.ofNat 10 (128 + f.a.toNat),
    c := off.setWidth 10, e := (off >>> 10).setWidth 10, imm8 := BitVec.ofNat 8 (16 + f.w.toNat) }

def execLduImm (f : UmF) := lduOp (umExt f) 4
def execStuImm (f : UmF) := stuOp (umExt f) 4

/-! ### LDT and STT (R301) -/

/-- A stride source, unsigned 32 bits. -/
def Env.stride (e : Env) (x : Ext) : Nat := (e.srcS32 .int x.lit x.b).toNat

/-- R301: the address of row `t`. -/
def Env.rowAt (e : Env) (x : Ext) (t : Nat) : Nat := wrap64 ((e.eaU x : Int) + t * e.stride x)

/-- The word accesses of the rows, slot by slot. -/
def Env.tileAccesses (e : Env) (x : Ext) (on : List Nat) : List Access :=
  on.flatMap fun t => (List.range (x.imm8.toNat % 8 + 1)).map fun i : Nat =>
    { slot := some t, va := wrap64 ((e.rowAt x t + 4 * i : Nat) : Int), n := 4 }

/-- A stride that is not a multiple of 4 is ALIGN against the lowest taking-part launched slot. -/
def Env.strideTrap (e : Env) (x : Ext) (store : Bool) : Option Trap :=
  if e.stride x % 4 = 0 then none
  else (slots.find? fun i => e.active x i).map fun i =>
    accessTrap store (isBm x) { slot := some i, va := e.rowAt x i, n := 4 } (8, 0)

def execLdt (x : Ext) :=
  issueExt 21 4 x (memInfo (lenExt x) false) fun e =>
    let bm := isBm x
    let r := x.imm8.toNat % 8 + 1
    let on := if slots.any fun i => e.active x i then slots.filter fun i => e.parts x i else []
    match e.strideTrap x false with
    | some t => .trap t
    | none =>
      let accs := e.tileAccesses x on
      match e.placeAll false bm 4 accs with
      | .error t => .trapAfter t.1 t.2
      | .ok (ps, e) =>
        let ps := e.spareHelpers bm 4 accs ps
        if e.behindAtom bm ps 4 then .wait .empty
        else
          let own := e.ownQueue bm
          let got := ps.map fun p => e.valueAt bm own 4 p
          let (lat, e) := e.readPath bm ps 4
          let d := x.d.toNat
          let reg (j : Nat) : RegVal := .v (e.vIdx (d + j)) (.ofSlots fun i =>
            match tfind on.zipIdx i with
            | some k => BitVec.ofNat 32 (got.getD (k * r + j) 0)
            | none => (e.vOld (d + j)).slot i)
          .done (e.pendResult lat ((List.range r).map reg) (e.poisonOf bm ps 4 (accs.map Access.va)))

def execStt (x : Ext) :=
  issueStore 21 5 x (memInfo (lenExt x) true) fun e =>
    let bm := isBm x
    let r := x.imm8.toNat % 8 + 1
    let on := slots.filter fun i => e.active x i
    match e.strideTrap x true with
    | some t => .trap t
    | none =>
      match e.placeAll true bm 4 (e.tileAccesses x on) with
      | .error t => .trapAfter t.1 t.2
      | .ok (ps, e) =>
        let data := on.flatMap fun t => (List.range r).map fun j => ((e.vval (x.d.toNat + j)).slot t).toNat
        e.queueWrites bm ((ps.zip data).flatMap fun p => bytesFrom (p.1.getD 0) p.2 4) .done

/-! ### SPILL and FILL (R283, R302) -/

/-- The virtual address of the group's spill slot. -/
def Env.spillBase (e : Env) : Nat := e.b.spillSlots.getD e.g.ref.gid 0

/-- A trap of an access to the slot names the byte by its offset: the slot's address is not visible (R283).
DEDUCED, log 40. -/
def Env.spillFault (e : Env) (t : Trap) : Trap :=
  { t with addr := t.addr - BitVec.ofNat 64 (e.spillBase + e.spillShift) }

/-- The register size, the first byte of the range in the slot, and its end; none with the fault's code. -/
def Env.spillRange (e : Env) (x : Ext) : Except Nat (Nat × Nat × Nat) :=
  let size : Nat := if codeIsV x.d.toNat then 128 else 8
  let r := x.imm8.toNat % 8 + 1
  let off := offsetOf x
  if off % (size : Int) ≠ 0 then .error 8
  else if off < 0 then .error 16
  else
    let lo := off.toNat + e.spillShift
    let hi := lo + r * size
    if e.kernel.spillSz < off.toNat + r * size || e.b.kernel.spillSz < hi + 16 * e.g.arch.spilled then .error 16
    else .ok (size, lo, hi)

/-- DEDUCED, log 40. -/
def spillTrap (x : Ext) (store : Bool) (code : Nat) : Trap :=
  accessTrap store false { slot := none, va := wrap64 (offsetOf x), n := 4 } (code, 0)

/-- The 4-byte accesses of a range of the slot. -/
def Env.spillAccesses (e : Env) (lo hi : Nat) : List Access :=
  (List.range ((hi - lo) / 4)).map fun i : Nat => { slot := none, va := wrap64 ((e.spillBase + lo + 4 * i : Nat) : Int), n := 4 }

/-- The words of the registers of a range, lowest register and slot first. -/
def Env.spillWords (e : Env) (x : Ext) : List W32 :=
  (List.range (x.imm8.toNat % 8 + 1)).flatMap fun j =>
    if codeIsV x.d.toNat then slots.map fun i => (e.vval (x.d.toNat + j)).slot i
    else
      let v := e.sval (x.d.toNat - 128 + j)
      [v.setWidth 32, (v >>> 32).setWidth 32]

def execSpill (x : Ext) :=
  issueStore 21 6 x (memInfo (lenExt x) true) fun e =>
    match e.spillRange x with
    | .error c => .trap (spillTrap x true c)
    | .ok (_, lo, hi) =>
      match e.placeAll true false 4 (e.spillAccesses lo hi) with
      | .error t => .trapAfter (e.spillFault t.1) t.2
      | .ok (ps, e) =>
        let e := e.setArch { e.g.arch with spillMark := max e.g.arch.spillMark hi }
        e.queueWrites false ((ps.zip (e.spillWords x)).flatMap fun p => bytesFrom (p.1.getD 0) p.2.toNat 4) .done

def execFill (x : Ext) :=
  issueExt 21 7 x (memInfo (lenExt x) false) fun e =>
    match e.spillRange x with
    | .error c => .trap (spillTrap x false c)
    | .ok (size, lo, hi) =>
      let accs := e.spillAccesses lo hi
      match e.placeAll false false 4 accs with
      | .error t => .trapAfter (e.spillFault t.1) t.2
      | .ok (ps, e) =>
        if e.behindAtom false ps 4 then .wait .empty
        else
        let own := e.ownQueue false
        let got := ps.map fun p => BitVec.ofNat 32 (e.valueAt false own 4 p)
        let (lat, e) := e.readPath false ps 4
        let reg (j : Nat) : RegVal :=
          if size = 128 then .v (e.vIdx (x.d.toNat + j)) (.g ((got.drop (32 * j)).take 32))
          else .u (e.sIdx (x.d.toNat - 128 + j)) ((got.getD (2 * j + 1) 0) ++ (got.getD (2 * j) 0))
        .done (e.pendResult lat ((List.range (x.imm8.toNat % 8 + 1)).map reg)
          ((e.poisonOf false ps 4 (accs.map Access.va)).map e.spillFault))

/-! ### Spilled divergence entries (R213): 16 bytes each, at the top of the slot downward -/

/-- An entry's bytes, as Table 21-5 lays them out; a PENDING entry's point is its pc, which is known. DEDUCED, log 139. -/
def DivEntry.bytes : DivEntry → List Byte
  | .pending m pc => leBytes 4 m.toNat ++ leBytes 4 2 ++ leBytes 8 pc
  | .join m p => leBytes 4 m.toNat ++ leBytes 4 (1 + (if p.isSome then 2 else 0)) ++ leBytes 8 (p.getD 0)

def divEntryOf (b : List Byte) (alive : W32) : DivEntry :=
  let m : W32 := BitVec.ofNat 32 (recField b 0 4) &&& alive
  let pc := recField b 8 8 / 4 * 4
  if recField b 4 1 % 2 = 0 then .pending m pc else .join m (if recField b 4 1 / 2 % 2 = 1 then some pc else none)

def DivEntry.mask : DivEntry → W32
  | .pending m _ => m
  | .join m _ => m

/-- The place of spilled entry `k`, the oldest first. -/
def Env.divAccess (e : Env) (k : Nat) : Access :=
  { slot := none, va := wrap64 ((e.spillBase + e.b.kernel.spillSz - 16 * (k + 1) : Nat) : Int), n := 16 }

/-- A spilled entry as its slot holds it, its mask less the slots that have exited since; where the slot's page can no longer be
read, as it was pushed; poisoned bytes as they stand. DESIGN CHOICE, log 146. -/
def Env.divBack (e : Env) (k : Nat) (d : DivEntry) : DivEntry :=
  let alive := e.g.arch.stack.foldl (fun m d => m ||| d.mask) e.g.arch.run
  match e.placeAll false false 16 [e.divAccess k] with
  | .ok ([some p], e1) => divEntryOf (e1.bytesAt false (e1.ownQueue false) p 16) alive
  | _ => d

/-- The stack, its spilled entries read from the slot. -/
def Env.stackNow (e : Env) : List DivEntry :=
  let a := e.g.arch
  if a.spilled = 0 then a.stack
  else a.stack.zipIdx.map fun d =>
    if a.stack.length - a.spilled ≤ d.2 then e.divBack (a.stack.length - 1 - d.2) d.1 else d.1

/-- The stack after an instruction that pops: entries come back from the slot as a read does (R307, R363), which raises nothing
where its page can no longer be read. DESIGN CHOICE, log 146. -/
def Env.popStack (e : Env) (a : Arch) (k : Env → Res) : Res :=
  if e.g.arch.spilled ≤ a.spilled then k (e.setArch a)
  else if e.g.memHeld e.s || e.readHeld then .wait .empty
  else
    match e.placeAll false false 16 ((codes a.spilled (e.g.arch.spilled - a.spilled)).map e.divAccess) with
    | .ok (ps, e1) => if e1.behindAtom false ps 16 then .wait .empty else k ((e1.readPath false ps 16).2.setArch a)
    | .error t => k ((e.setS (e.s.walked t.2)).setArch a)

/-- The stack after an instruction that pushes: entries that leave the chip are stores to the slot. -/
def Env.pushStack (e : Env) (a : Arch) : Res :=
  if a.spilled ≤ e.g.arch.spilled then .done (e.setArch a)
  else if e.g.memHeld e.s then .wait .empty
  else
    let ks := codes e.g.arch.spilled (a.spilled - e.g.arch.spilled)
    match e.placeAll true false 16 (ks.map e.divAccess) with
    | .error t => .trapAfter (e.spillFault t.1) t.2
    | .ok (ps, e1) =>
      (e1.setArch a).queueWrites false ((ps.zip ks).flatMap fun p =>
        match a.stack.reverse[p.2]? with
        | some d => d.bytes.zipIdx.map fun b => (p.1.getD 0 + b.2, b.1)
        | none => []) .done

/-- R303: a prefetch changes only timing, and what its slots' walks leave (R145, R290); it takes no fault and holds nothing. -/
def execPrf (x : Ext) := issueExt 21 8 x { len := lenExt x, reads := true } fun e =>
  let idx := e.src32 .int x.lit x.b
  .done (e.setS ((slots.filter fun i => e.active x i).foldl
    (fun s i => (s.translateBy (.core e.g.core) e.b.owner (e.eaAt x idx i)).2) e.s))

end Sys2Proof.Machine
end

