-- ==== Sys2Proof/Machine/Uniform.lean ====
section
/-!
DEFINITION. Machine/Uniform.lean: the UA format, SLUI and SAUIPC, and the uniform family (R186-R194).
-/

namespace Sys2Proof.Machine

open Sys2Proof

/-! ### Arithmetic (R190-R192) -/

/-- R191: all ones where the divisor is 0; the overflow of SDIV gives -2^63 by itself. -/
def sdiv (a b : W64) : W64 := if b = 0 then BitVec.allOnes 64 else BitVec.ofInt 64 (a.toInt.tdiv b.toInt)
def sdivu (a b : W64) : W64 := if b = 0 then BitVec.allOnes 64 else BitVec.ofNat 64 (a.toNat / b.toNat)
def srem (a b : W64) : W64 := if b = 0 then a else BitVec.ofInt 64 (a.toInt.tmod b.toInt)
def sremu (a b : W64) : W64 := if b = 0 then a else BitVec.ofNat 64 (a.toNat % b.toNat)
def smulh (a b : W64) : W64 := BitVec.ofInt 64 ((a.toInt * b.toInt) / 2 ^ 64)
def smulhu (a b : W64) : W64 := BitVec.ofNat 64 (a.toNat * b.toNat / 2 ^ 64)

/-- R191: the count is b[7:0]. -/
def shCount {n : Nat} (b : BitVec n) : Nat := b.toNat % 256
def sshl (a b : W64) : W64 := a <<< shCount b
def sshr (a b : W64) : W64 := a >>> shCount b
def ssra (a b : W64) : W64 := a.sshiftRight (min (shCount b) 63)

def ofBool64 (b : Bool) : W64 := if b then 1 else 0

/-- The number of leading zeros of an `n`-bit value. -/
def leadZeros : Nat → Nat → Nat
  | 0, _ => 0
  | n + 1, v => if v / 2 ^ n % 2 = 1 then 0 else leadZeros n v + 1

/-- The number of trailing zeros of an `n`-bit value. -/
def trailZeros : Nat → Nat → Nat
  | 0, _ => 0
  | n + 1, v => if v % 2 = 1 then 0 else trailZeros n (v / 2) + 1

/-- R192, R202: the field of a specifier over a `w`-bit value (w = 32 or 64): position and length. -/
def fieldSpec (w : Nat) (f : Nat) : Nat × Nat :=
  let pos := f % w
  (pos, min (f / 256 % (2 * w)) (w - pos))

/-- R192: bit-field extract. -/
def bfx (w : Nat) (signed : Bool) (a : BitVec w) (f : Nat) : BitVec w :=
  let (pos, len) := fieldSpec w f
  if len = 0 then 0
  else
    let x := a.toNat / 2 ^ pos % 2 ^ len
    if signed && x / 2 ^ (len - 1) % 2 = 1 then BitVec.ofInt w ((x : Int) - 2 ^ len) else BitVec.ofNat w x

/-- R192: bit-field insert of the low bits of `a` into `b`. -/
def bfi (w : Nat) (a b : BitVec w) (f : Nat) : BitVec w :=
  let (pos, len) := fieldSpec w f
  if len = 0 then b
  else
    let m := (2 ^ len - 1) * 2 ^ pos
    (b &&& ~~~(BitVec.ofNat w m)) ||| (BitVec.ofNat w (a.toNat % 2 ^ len * 2 ^ pos))

/-! ### Shapes: SIDX and VIDX (R25, R193) -/

/-- A shape entry as the group's SHAPE registers hold it: NDIM and the (EXT, MULT, SHIFT) of its dimensions. -/
structure ShapeEntry where
  ndim : Nat
  dims : List (Nat × Nat × Nat)
  deriving DecidableEq, Repr

/-- Read an entry of the shape table (R25); an entry the table lacks has NDIM 0 (R24). -/
def shapeEntry (tbl : List Byte) (n : Nat) : ShapeEntry :=
  let bs := (tbl.drop (64 * n)).take 64
  let at4 (o : Nat) : Nat := leNat ((bs.drop o).take 4)
  { ndim := leNat (bs.take 1),
    dims := (List.range 5).map fun d => (at4 (4 + 12 * d), at4 (8 + 12 * d), leNat ((bs.drop (12 + 12 * d)).take 1)) }

/-- The entry that IMM8 names: C's entries stand after P's (R114); in C's own handler text the number is raised too
(R119). -/
def Env.shapeIndex (e : Env) (n : Nat) : Nat :=
  match e.b.fused with
  | some f => if e.fromC && e.g.arch.vwb ≠ 0 then n + f.p.shapes.length / 64 else n
  | none => n

/-- R193: the coordinates of an index, innermost first; the outermost is not reduced. -/
def splitIndex : List (Nat × Nat × Nat) → Nat → Nat → List Nat
  | _, 0, _ => []
  | _, 1, x => [x]
  | [], _, x => [x]
  | (ext, mult, sh) :: ds, n + 1, x =>
    let q := x * (2 ^ 32 + mult) / 2 ^ (32 + sh)
    (x - q * ext) :: splitIndex ds n q

/-! ### Issue -/

def uInfo (len : Nat) : IssueInfo := { len }

/-- A uniform instruction: its result goes to D (R186, R190). -/
def uniformOp (fn : Nat) (x : Ext) (len : Nat) (f : W64 → W64 → W64 → W64) : State → Host.Outcome State Fault Refusal :=
  issueExt 16 fn x (uInfo len) fun e =>
    .done (e.setS64 (x.d.toNat - 128) (f (e.srcU x.lit x.a) (e.srcU x.lit x.b) (e.srcU x.lit x.c)))

/-- A UA instruction (R188). -/
def uaOp (d a : BitVec 5) (f : W64 → W64) : State → Host.Outcome State Fault Refusal :=
  issue (uInfo 4) fun e =>
    e.whenFull [(128 + a.toNat, false)] [128 + d.toNat] fun e => .done (e.setS64 d.toNat (f (e.sval a.toNat)))

def execSaddi (f : UaF) := uaOp f.d f.a fun a => a + sext64 f.imm
def execSandi (f : UaF) := uaOp f.d f.a fun a => a &&& sext64 f.imm
def execSori (f : UaF) := uaOp f.d f.a fun a => a ||| sext64 f.imm
def execSxori (f : UaF) := uaOp f.d f.a fun a => a ^^^ sext64 f.imm
def execSslti (f : UaF) := uaOp f.d f.a fun a => ofBool64 (a.slt (sext64 f.imm))
def execSsltiu (f : UaF) := uaOp f.d f.a fun a => ofBool64 (a.ult (sext64 f.imm))
def execSshli (f : UsF) := uaOp f.d f.a fun a => a <<< f.cnt.toNat
def execSshri (f : UsF) := uaOp f.d f.a fun a => a >>> f.cnt.toNat
def execSsrai (f : UsF) := uaOp f.d f.a fun a => a.sshiftRight f.cnt.toNat

/-- R189: IMM20 in bits [31:12], sign-extended. -/
def upperImm (imm : BitVec 20) : W64 := sext64 (imm ++ (0 : BitVec 12))

def execSlui (f : UiF) :=
  issue (uInfo 4) fun e => e.whenFull [] [128 + f.d.toNat] fun e => .done (e.setS64 f.d.toNat (upperImm f.imm))

/-- R189: in fused code pc is the instruction's address in its own kernel's text. -/
def execSauipc (f : UiF) :=
  issue (uInfo 4) fun e => e.whenFull [] [128 + f.d.toNat] fun e =>
    .done (e.setS64 f.d.toNat (BitVec.ofNat 64 (e.b.original e.addr) + upperImm f.imm))

/-! ### The uniform family (Table 10-1) -/

def saddVal : W64 → W64 → W64 → W64 := fun a b _ => a + b
def execSadd (x : Ext) := uniformOp 0 x (lenExt x) saddVal
def execSaddBase (f : BaseF) := uniformOp 0 (.ofBase 16 0 f) (lenBase f) saddVal
def ssubVal : W64 → W64 → W64 → W64 := fun a b _ => a - b
def execSsub (x : Ext) := uniformOp 1 x (lenExt x) ssubVal
def execSsubBase (f : BaseF) := uniformOp 1 (.ofBase 16 1 f) (lenBase f) ssubVal
def smulVal : W64 → W64 → W64 → W64 := fun a b _ => a * b
def execSmul (x : Ext) := uniformOp 2 x (lenExt x) smulVal
def execSmulBase (f : BaseF) := uniformOp 2 (.ofBase 16 2 f) (lenBase f) smulVal
def smulhVal : W64 → W64 → W64 → W64 := fun a b _ => smulh a b
def execSmulh (x : Ext) := uniformOp 3 x (lenExt x) smulhVal
def execSmulhBase (f : BaseF) := uniformOp 3 (.ofBase 16 3 f) (lenBase f) smulhVal
def smulhuVal : W64 → W64 → W64 → W64 := fun a b _ => smulhu a b
def execSmulhu (x : Ext) := uniformOp 4 x (lenExt x) smulhuVal
def execSmulhuBase (f : BaseF) := uniformOp 4 (.ofBase 16 4 f) (lenBase f) smulhuVal
def sdivVal : W64 → W64 → W64 → W64 := fun a b _ => sdiv a b
def execSdiv (x : Ext) := uniformOp 5 x (lenExt x) sdivVal
def execSdivBase (f : BaseF) := uniformOp 5 (.ofBase 16 5 f) (lenBase f) sdivVal
def sdivuVal : W64 → W64 → W64 → W64 := fun a b _ => sdivu a b
def execSdivu (x : Ext) := uniformOp 6 x (lenExt x) sdivuVal
def execSdivuBase (f : BaseF) := uniformOp 6 (.ofBase 16 6 f) (lenBase f) sdivuVal
def sremVal : W64 → W64 → W64 → W64 := fun a b _ => srem a b
def execSrem (x : Ext) := uniformOp 7 x (lenExt x) sremVal
def execSremBase (f : BaseF) := uniformOp 7 (.ofBase 16 7 f) (lenBase f) sremVal
def sremuVal : W64 → W64 → W64 → W64 := fun a b _ => sremu a b
def execSremu (x : Ext) := uniformOp 8 x (lenExt x) sremuVal
def execSremuBase (f : BaseF) := uniformOp 8 (.ofBase 16 8 f) (lenBase f) sremuVal
def sandVal : W64 → W64 → W64 → W64 := fun a b _ => a &&& b
def execSand (x : Ext) := uniformOp 9 x (lenExt x) sandVal
def execSandBase (f : BaseF) := uniformOp 9 (.ofBase 16 9 f) (lenBase f) sandVal
def sorVal : W64 → W64 → W64 → W64 := fun a b _ => a ||| b
def execSor (x : Ext) := uniformOp 10 x (lenExt x) sorVal
def execSorBase (f : BaseF) := uniformOp 10 (.ofBase 16 10 f) (lenBase f) sorVal
def sxorVal : W64 → W64 → W64 → W64 := fun a b _ => a ^^^ b
def execSxor (x : Ext) := uniformOp 11 x (lenExt x) sxorVal
def execSxorBase (f : BaseF) := uniformOp 11 (.ofBase 16 11 f) (lenBase f) sxorVal
def sshlVal : W64 → W64 → W64 → W64 := fun a b _ => sshl a b
def execSshl (x : Ext) := uniformOp 12 x (lenExt x) sshlVal
def execSshlBase (f : BaseF) := uniformOp 12 (.ofBase 16 12 f) (lenBase f) sshlVal
def sshrVal : W64 → W64 → W64 → W64 := fun a b _ => sshr a b
def execSshr (x : Ext) := uniformOp 13 x (lenExt x) sshrVal
def execSshrBase (f : BaseF) := uniformOp 13 (.ofBase 16 13 f) (lenBase f) sshrVal
def ssraVal : W64 → W64 → W64 → W64 := fun a b _ => ssra a b
def execSsra (x : Ext) := uniformOp 14 x (lenExt x) ssraVal
def execSsraBase (f : BaseF) := uniformOp 14 (.ofBase 16 14 f) (lenBase f) ssraVal
def sminVal : W64 → W64 → W64 → W64 := fun a b _ => if a.slt b then a else b
def execSmin (x : Ext) := uniformOp 15 x (lenExt x) sminVal
def execSminBase (f : BaseF) := uniformOp 15 (.ofBase 16 15 f) (lenBase f) sminVal
def smaxVal : W64 → W64 → W64 → W64 := fun a b _ => if a.slt b then b else a
def execSmax (x : Ext) := uniformOp 16 x (lenExt x) smaxVal
def execSmaxBase (f : BaseF) := uniformOp 16 (.ofBase 16 16 f) (lenBase f) smaxVal
def sminuVal : W64 → W64 → W64 → W64 := fun a b _ => if a.ult b then a else b
def execSminu (x : Ext) := uniformOp 17 x (lenExt x) sminuVal
def execSminuBase (f : BaseF) := uniformOp 17 (.ofBase 16 17 f) (lenBase f) sminuVal
def smaxuVal : W64 → W64 → W64 → W64 := fun a b _ => if a.ult b then b else a
def execSmaxu (x : Ext) := uniformOp 18 x (lenExt x) smaxuVal
def execSmaxuBase (f : BaseF) := uniformOp 18 (.ofBase 16 18 f) (lenBase f) smaxuVal
def ssltVal : W64 → W64 → W64 → W64 := fun a b _ => ofBool64 (a.slt b)
def execSslt (x : Ext) := uniformOp 19 x (lenExt x) ssltVal
def execSsltBase (f : BaseF) := uniformOp 19 (.ofBase 16 19 f) (lenBase f) ssltVal
def ssltuVal : W64 → W64 → W64 → W64 := fun a b _ => ofBool64 (a.ult b)
def execSsltu (x : Ext) := uniformOp 20 x (lenExt x) ssltuVal
def execSsltuBase (f : BaseF) := uniformOp 20 (.ofBase 16 20 f) (lenBase f) ssltuVal
def sseqVal : W64 → W64 → W64 → W64 := fun a b _ => ofBool64 (a == b)
def execSseq (x : Ext) := uniformOp 21 x (lenExt x) sseqVal
def execSseqBase (f : BaseF) := uniformOp 21 (.ofBase 16 21 f) (lenBase f) sseqVal
def sselVal : W64 → W64 → W64 → W64 := fun a b c => if c = 0 then b else a
def execSsel (x : Ext) := uniformOp 22 x (lenExt x) sselVal
def execSbfx (x : Ext) := uniformOp 23 x (lenExt x) fun a b _ => bfx 64 (x.imm8.getLsbD 0) a b.toNat
def sbfiVal : W64 → W64 → W64 → W64 := fun a b c => bfi 64 a b c.toNat
def execSbfi (x : Ext) := uniformOp 24 x (lenExt x) sbfiVal
def spopcVal : W64 → W64 → W64 → W64 := fun a _ _ => BitVec.ofNat 64 (popCount 64 a.toNat)
def execSpopc (x : Ext) := uniformOp 25 x (lenExt x) spopcVal
def execSpopcBase (f : BaseF) := uniformOp 25 (.ofBase 16 25 f) (lenBase f) spopcVal
def sclzVal : W64 → W64 → W64 → W64 := fun a _ _ => BitVec.ofNat 64 (leadZeros 64 a.toNat)
def execSclz (x : Ext) := uniformOp 26 x (lenExt x) sclzVal
def execSclzBase (f : BaseF) := uniformOp 26 (.ofBase 16 26 f) (lenBase f) sclzVal
def sctzVal : W64 → W64 → W64 → W64 := fun a _ _ => BitVec.ofNat 64 (trailZeros 64 a.toNat)
def execSctz (x : Ext) := uniformOp 27 x (lenExt x) sctzVal
def execSctzBase (f : BaseF) := uniformOp 27 (.ofBase 16 27 f) (lenBase f) sctzVal
def smovVal : W64 → W64 → W64 → W64 := fun a _ _ => a
def execSmov (x : Ext) := uniformOp 28 x (lenExt x) smovVal
def execSmovBase (f : BaseF) := uniformOp 28 (.ofBase 16 28 f) (lenBase f) smovVal

/-- R193: NDIM consecutive registers from D; ILL_OPD at issue where the entry is empty or the range leaves the kernel's
registers or crosses from s375 to s376. -/
def execSidx (x : Ext) :=
  issueExt 16 29 x (uInfo (lenExt x)) fun e =>
    let en := shapeEntry e.b.kernel.shapes (e.shapeIndex (x.imm8.toNat % 16))
    let d := x.d.toNat - 128
    let lim := limitsAt e.b e.g.arch
    if en.ndim = 0 then .trap { code := 3, cause1 := 78 }
    else if !lim.allows en.ndim (128 + d) || (d < 376 && 376 < d + en.ndim) then .trap { code := 3, cause1 := 32 }
    else
      e.whenFull [] (codes (128 + d) en.ndim) fun e =>
        let cs := splitIndex en.dims en.ndim ((e.srcU x.lit x.a).toNat % 2 ^ 32)
        .done ((cs.zipIdx).foldl (fun e p => e.setS64 (d + p.2) (BitVec.ofNat 64 p.1)) e)

def ssx32Val : W64 → W64 → W64 → W64 := fun a _ _ => sext64 (a.setWidth 32 : W32)
def execSsx32 (x : Ext) := uniformOp 30 x (lenExt x) ssx32Val
def execSsx32Base (f : BaseF) := uniformOp 30 (.ofBase 16 30 f) (lenBase f) ssx32Val

end Sys2Proof.Machine
end

