-- ==== Sys2Proof/Machine/VectorInt.lean ====
section
/-!
DEFINITION. Machine/VectorInt.lean: the vector integer family, MAJ 5 and 17 (R195-R208).
-/

namespace Sys2Proof.Machine

open Sys2Proof

/-! ### Arithmetic of one slot (Table 10-2) -/

def vmulh (a b : W32) : W32 := BitVec.ofInt 32 ((a.toInt * b.toInt) / 2 ^ 32)
def vmulhu (a b : W32) : W32 := BitVec.ofNat 32 (a.toNat * b.toNat / 2 ^ 32)
def vshl (a b : W32) : W32 := a <<< shCount b
def vshr (a b : W32) : W32 := a >>> shCount b
def vsra (a b : W32) : W32 := a.sshiftRight (min (shCount b) 31)
def vabsd (unsigned : Bool) (a b : W32) : W32 :=
  if unsigned then BitVec.ofNat 32 ((a.toNat : Int) - b.toNat).natAbs
  else BitVec.ofNat 32 (a.toInt - b.toInt).natAbs

/-- Table 10-3, at any width. -/
def condHolds {n : Nat} (cc : Nat) (a b : BitVec n) : Bool :=
  match cc with
  | 0 => a == b
  | 1 => a != b
  | 2 => a.slt b
  | 3 => !a.slt b
  | 4 => a.ult b
  | 5 => !a.ult b
  | 6 => a &&& b != 0
  | _ => a &&& b == 0

/-- R203: sum or difference with a carry, and the carry out. -/
def addCarry (sub : Bool) (a b : W32) (cin : Bool) : W32 × Bool :=
  let k := if cin then 1 else 0
  if sub then (a - b - BitVec.ofNat 32 k, a.toNat < b.toNat + k)
  else (a + b + BitVec.ofNat 32 k, 2 ^ 32 ≤ a.toNat + b.toNat + k)

/-- R204: one byte of VPERM. -/
def permByte (ab sel : Nat) : Nat := if sel / 128 % 2 = 1 then 0 else ab / 2 ^ (8 * (sel % 8)) % 256

def vperm (a b c : W32) : W32 :=
  let ab := a.toNat + b.toNat * 2 ^ 32
  BitVec.ofNat 32 (((List.range 4).map fun j => permByte ab (c.toNat / 2 ^ (8 * j)) * 2 ^ (8 * j)).sum)

def clampInt (lo hi v : Int) : Int := if v < lo then lo else if hi < v then hi else v

/-- R205: the range a mode saturates to, as two's-complement bits. -/
def satBits (mode : Nat) (a : W32) : Nat :=
  let v : Int := if mode = 2 || mode = 5 then a.toNat else a.toInt
  let r : Int := match mode with
    | 0 => clampInt (-32768) 32767 v
    | 1 | 2 => clampInt 0 65535 v
    | 3 => clampInt (-128) 127 v
    | _ => clampInt 0 255 v
  (r % (if mode ≤ 2 then 65536 else 256)).toNat

def vsatp (mode : Nat) (a b c : W32) : W32 :=
  if mode ≤ 2 then BitVec.ofNat 32 (satBits mode a + satBits mode b * 65536)
  else BitVec.ofNat 32 (satBits mode a + satBits mode b * 256 + c.toNat % 65536 * 65536)

/-- Element `j` of `w` bits of a word. -/
def element (unsigned : Bool) (w : Nat) (a : W32) (j : Nat) : Int :=
  let v := a.toNat / 2 ^ (w * j) % 2 ^ w
  if !unsigned && 2 ^ (w - 1) ≤ v then (v : Int) - 2 ^ w else v

/-- R206: dot product of `32 / w` elements, exact, then saturated or wrapped. -/
def vdot (w : Nat) (ua ub sat : Bool) (a b c : W32) : W32 :=
  let s := c.toInt + ((List.range (32 / w)).map fun j => element ua w a j * element ub w b j).sum
  BitVec.ofInt 32 (if sat then clampInt (-(2 ^ 31)) (2 ^ 31 - 1) s else s)

def vmadw (signed : Bool) (a b : W32) (c : W64) : W64 :=
  if signed then sext64 a * sext64 b + c else zext64 a * zext64 b + c

def vlea (sh : Nat) (signed : Bool) (a : W64) (b : W32) : W64 := a + ((if signed then sext64 b else zext64 b) <<< sh)

/-! ### Affine results (R160 rule 4, R197) -/

def affAdd (a b : VVal) : Option VVal := do
  let (b1, d1) ← a.affine
  let (b2, d2) ← b.affine
  some (.a (b1 + b2) (d1 + d2))

def affSub (a b : VVal) : Option VVal := do
  let (b1, d1) ← a.affine
  let (b2, d2) ← b.affine
  some (.a (b1 - b2) (d1 - d2))

def affScale (u : W32) (v : VVal) : Option VVal := v.affine.map fun p => .a (p.1 * u) (p.2 * u)

def affMul (a b : VVal) : Option VVal :=
  match a, b with
  | .u u, v => affScale u v
  | v, .u u => affScale u v
  | _, _ => none

def affShl (a b : VVal) : Option VVal :=
  match b with
  | .u n => if 32 ≤ shCount n then some (.u 0) else a.affine.map fun p => .a (vshl p.1 n) (vshl p.2 n)
  | _ => none

def affMad (a b c : VVal) : Option VVal := (affMul a b).bind fun p => affAdd p c

/-! ### Issue -/

/-- One vector destination from the three 32-bit sources (R195, R198). -/
def vectorOp (fn : Nat) (x : Ext) (len : Nat) (nsrc : Nat) (aff : VVal → VVal → VVal → Option VVal)
    (f : W32 → W32 → W32 → W32) : State → Host.Outcome State Fault Refusal :=
  issueExt 17 fn x (uInfo len) fun e =>
    let a := e.src32 .int x.lit x.a
    let b := e.src32 .int x.lit x.b
    let c := e.src32 .int x.lit x.c
    let srcs := match nsrc with | 1 => [a] | 2 => [a, b] | _ => [a, b, c]
    .done (e.writeV x x.d.toNat (shaped srcs (aff a b c) fun i => f (a.slot i) (b.slot i) (c.slot i)))

/-- No affine form. -/
def noAff : VVal → VVal → VVal → Option VVal := fun _ _ _ => none

/-- Two 32-bit results in an even pair, with the shape of each. -/
def Env.writePair (e : Env) (x : Ext) (lo hi : VVal) : Env :=
  (e.writeV x x.d.toNat lo).writeV x (x.d.toNat + 1) hi

def lowWord (v : W64) : W32 := v.setWidth 32
def highWord (v : W64) : W32 := (v >>> 32).setWidth 32

/-! ### The instructions -/

def vaddAff : VVal → VVal → VVal → Option VVal := fun a b _ => affAdd a b
def vaddVal : W32 → W32 → W32 → W32 := fun a b _ => a + b
def execVadd (x : Ext) := vectorOp 0 x (lenExt x) 2 vaddAff vaddVal
def execVaddBase (f : BaseF) := vectorOp 0 (.ofBase 17 0 f) (lenBase f) 2 vaddAff vaddVal
def vsubAff : VVal → VVal → VVal → Option VVal := fun a b _ => affSub a b
def vsubVal : W32 → W32 → W32 → W32 := fun a b _ => a - b
def execVsub (x : Ext) := vectorOp 1 x (lenExt x) 2 vsubAff vsubVal
def execVsubBase (f : BaseF) := vectorOp 1 (.ofBase 17 1 f) (lenBase f) 2 vsubAff vsubVal
def vmulAff : VVal → VVal → VVal → Option VVal := fun a b _ => affMul a b
def vmulVal : W32 → W32 → W32 → W32 := fun a b _ => a * b
def execVmul (x : Ext) := vectorOp 2 x (lenExt x) 2 vmulAff vmulVal
def execVmulBase (f : BaseF) := vectorOp 2 (.ofBase 17 2 f) (lenBase f) 2 vmulAff vmulVal
def vmulhVal : W32 → W32 → W32 → W32 := fun a b _ => vmulh a b
def execVmulh (x : Ext) := vectorOp 3 x (lenExt x) 2 noAff vmulhVal
def execVmulhBase (f : BaseF) := vectorOp 3 (.ofBase 17 3 f) (lenBase f) 2 noAff vmulhVal
def vmulhuVal : W32 → W32 → W32 → W32 := fun a b _ => vmulhu a b
def execVmulhu (x : Ext) := vectorOp 4 x (lenExt x) 2 noAff vmulhuVal
def execVmulhuBase (f : BaseF) := vectorOp 4 (.ofBase 17 4 f) (lenBase f) 2 noAff vmulhuVal
def vmadVal : W32 → W32 → W32 → W32 := fun a b c => a * b + c
def execVmad (x : Ext) := vectorOp 5 x (lenExt x) 3 affMad vmadVal
def execVmadBase (f : BaseF) := vectorOp 5 (.ofBase 17 5 f) (lenBase f) 3 affMad vmadVal
def vandVal : W32 → W32 → W32 → W32 := fun a b _ => a &&& b
def execVand (x : Ext) := vectorOp 7 x (lenExt x) 2 noAff vandVal
def execVandBase (f : BaseF) := vectorOp 7 (.ofBase 17 7 f) (lenBase f) 2 noAff vandVal
def vorVal : W32 → W32 → W32 → W32 := fun a b _ => a ||| b
def execVor (x : Ext) := vectorOp 8 x (lenExt x) 2 noAff vorVal
def execVorBase (f : BaseF) := vectorOp 8 (.ofBase 17 8 f) (lenBase f) 2 noAff vorVal
def vxorVal : W32 → W32 → W32 → W32 := fun a b _ => a ^^^ b
def execVxor (x : Ext) := vectorOp 9 x (lenExt x) 2 noAff vxorVal
def execVxorBase (f : BaseF) := vectorOp 9 (.ofBase 17 9 f) (lenBase f) 2 noAff vxorVal
def vshlAff : VVal → VVal → VVal → Option VVal := fun a b _ => affShl a b
def vshlVal : W32 → W32 → W32 → W32 := fun a b _ => vshl a b
def execVshl (x : Ext) := vectorOp 10 x (lenExt x) 2 vshlAff vshlVal
def execVshlBase (f : BaseF) := vectorOp 10 (.ofBase 17 10 f) (lenBase f) 2 vshlAff vshlVal
def vshrVal : W32 → W32 → W32 → W32 := fun a b _ => vshr a b
def execVshr (x : Ext) := vectorOp 11 x (lenExt x) 2 noAff vshrVal
def execVshrBase (f : BaseF) := vectorOp 11 (.ofBase 17 11 f) (lenBase f) 2 noAff vshrVal
def vsraVal : W32 → W32 → W32 → W32 := fun a b _ => vsra a b
def execVsra (x : Ext) := vectorOp 12 x (lenExt x) 2 noAff vsraVal
def execVsraBase (f : BaseF) := vectorOp 12 (.ofBase 17 12 f) (lenBase f) 2 noAff vsraVal
def vminVal : W32 → W32 → W32 → W32 := fun a b _ => if a.slt b then a else b
def execVmin (x : Ext) := vectorOp 13 x (lenExt x) 2 noAff vminVal
def execVminBase (f : BaseF) := vectorOp 13 (.ofBase 17 13 f) (lenBase f) 2 noAff vminVal
def vmaxVal : W32 → W32 → W32 → W32 := fun a b _ => if a.slt b then b else a
def execVmax (x : Ext) := vectorOp 14 x (lenExt x) 2 noAff vmaxVal
def execVmaxBase (f : BaseF) := vectorOp 14 (.ofBase 17 14 f) (lenBase f) 2 noAff vmaxVal
def vminuVal : W32 → W32 → W32 → W32 := fun a b _ => if a.ult b then a else b
def execVminu (x : Ext) := vectorOp 15 x (lenExt x) 2 noAff vminuVal
def execVminuBase (f : BaseF) := vectorOp 15 (.ofBase 17 15 f) (lenBase f) 2 noAff vminuVal
def vmaxuVal : W32 → W32 → W32 → W32 := fun a b _ => if a.ult b then b else a
def execVmaxu (x : Ext) := vectorOp 16 x (lenExt x) 2 noAff vmaxuVal
def execVmaxuBase (f : BaseF) := vectorOp 16 (.ofBase 17 16 f) (lenBase f) 2 noAff vmaxuVal
def execVabsd (x : Ext) := vectorOp 17 x (lenExt x) 2 noAff fun a b _ => vabsd (x.imm8.getLsbD 0) a b
def vabsdVal : W32 → W32 → W32 → W32 := fun a b _ => vabsd false a b
def execVabsdBase (f : BaseF) := vectorOp 17 (.ofBase 17 17 f) (lenBase f) 2 noAff vabsdVal

/-- R200. -/
def execVcmp (x : Ext) :=
  issueExt 17 18 x (uInfo (lenExt x)) fun e =>
    let a := e.src32 .int x.lit x.a
    let b := e.src32 .int x.lit x.b
    .done ((e.writeK x (x.d.toNat - 512) fun i => condHolds (x.imm8.toNat % 8) (a.slot i) (b.slot i)).withPasses
      (if a.tag = 0 && b.tag = 0 then 1 else 8))

def vselVal : W32 → W32 → W32 → W32 := fun a b c => if c = 0 then b else a
def execVsel (x : Ext) := vectorOp 19 x (lenExt x) 3 noAff vselVal
def execVbfx (x : Ext) := vectorOp 20 x (lenExt x) 2 noAff fun a b _ => bfx 32 (x.imm8.getLsbD 0) a b.toNat
def vbfiVal : W32 → W32 → W32 → W32 := fun a b c => bfi 32 a b c.toNat
def execVbfi (x : Ext) := vectorOp 21 x (lenExt x) 3 noAff vbfiVal
def vpopcVal : W32 → W32 → W32 → W32 := fun a _ _ => BitVec.ofNat 32 (popCount 32 a.toNat)
def execVpopc (x : Ext) := vectorOp 22 x (lenExt x) 1 noAff vpopcVal
def execVpopcBase (f : BaseF) := vectorOp 22 (.ofBase 17 22 f) (lenBase f) 1 noAff vpopcVal
def vclzVal : W32 → W32 → W32 → W32 := fun a _ _ => BitVec.ofNat 32 (leadZeros 32 a.toNat)
def execVclz (x : Ext) := vectorOp 23 x (lenExt x) 1 noAff vclzVal
def execVclzBase (f : BaseF) := vectorOp 23 (.ofBase 17 23 f) (lenBase f) 1 noAff vclzVal
def vmovAff : VVal → VVal → VVal → Option VVal := fun a _ _ => some a
def vmovVal : W32 → W32 → W32 → W32 := fun a _ _ => a
def execVmov (x : Ext) := vectorOp 24 x (lenExt x) 1 vmovAff vmovVal
def execVmovBase (f : BaseF) := vectorOp 24 (.ofBase 17 24 f) (lenBase f) 1 vmovAff vmovVal

/-- R208: NDIM consecutive registers from D, ILL_OPD at issue where the entry is empty or the range passes VCOUNT. -/
def execVidx (x : Ext) :=
  issueExt 17 25 x (uInfo (lenExt x)) fun e =>
    let en := shapeEntry e.b.kernel.shapes (e.shapeIndex (x.imm8.toNat % 16))
    let d := x.d.toNat
    if en.ndim = 0 then .trap { code := 3, cause1 := 78 }
    else if (limitsAt e.b e.g.arch).vcount < d + en.ndim then .trap { code := 3, cause1 := 32 }
    else
      e.whenFull [] (codes d en.ndim) fun e =>
        let a := e.src32 .int x.lit x.a
        let coord (i j : Nat) : W32 := BitVec.ofNat 32 ((splitIndex en.dims en.ndim (a.slot i).toNat).getD j 0)
        .done ((List.range en.ndim).foldl (fun e j => e.writeV x (d + j) (shaped [a] none fun i => coord i j)) e)

/-- R203: the carry-in mask is read before the carry-out mask is written; a mask read per slot makes the result G
(R197). DEDUCED, log 38. -/
def execVaddc (x : Ext) :=
  issueExt 17 26 x (uInfo (lenExt x)) fun e =>
    let a := e.src32 .int x.lit x.a
    let b := e.src32 .int x.lit x.b
    let cin := e.kval (x.c.toNat - 512)
    let r (i : Nat) := addCarry (x.imm8.getLsbD 0) (a.slot i) (b.slot i) (cin.getLsbD i)
    .done ((e.writeV x x.d.toNat (.ofSlots fun i => (r i).1)).writeK x (x.e.toNat - 512) fun i => (r i).2)

def execVperm (x : Ext) := vectorOp 27 x (lenExt x) 3 noAff vperm

/-- R205: a 16-bit mode has no C. -/
def execVsatp (x : Ext) :=
  vectorOp 28 x (lenExt x) (if x.imm8.toNat % 8 ≤ 2 then 2 else 3) noAff (vsatp (x.imm8.toNat % 8))

def execVdot4 (x : Ext) := vectorOp 29 x (lenExt x) 3 noAff (vdot 8 (x.imm8.getLsbD 0) (x.imm8.getLsbD 1) x.sat)
def execVdot4Base (f : BaseF) := vectorOp 29 (.ofBase 17 29 f) (lenBase f) 3 noAff (vdot 8 false false false)
def execVdot8 (x : Ext) := vectorOp 30 x (lenExt x) 3 noAff (vdot 4 (x.imm8.getLsbD 0) (x.imm8.getLsbD 1) x.sat)
def execVdot8Base (f : BaseF) := vectorOp 30 (.ofBase 17 30 f) (lenBase f) 3 noAff (vdot 4 false false false)

/-- R207. -/
def execVmadw (x : Ext) :=
  issueExt 17 6 x (uInfo (lenExt x)) fun e =>
    let a := e.src32 .int x.lit x.a
    let b := e.src32 .int x.lit x.b
    let c := e.src64 x.lit x.c
    let r (i : Nat) := vmadw (x.imm8.getLsbD 0) (a.slot i) (b.slot i) (slot64 c i)
    let srcs := [a, b, c.1, c.2]
    .done (e.writePair x (shaped srcs none fun i => lowWord (r i)) (shaped srcs none fun i => highWord (r i)))

def execVlea (x : Ext) :=
  issueExt 17 31 x (uInfo (lenExt x)) fun e =>
    let a := e.src64 x.lit x.a
    let b := e.src32 .int x.lit x.b
    let sh := x.imm8.toNat % 8
    let r (i : Nat) := vlea sh (x.imm8.getLsbD 3) (slot64 a i) (b.slot i)
    let aff := (affScale (BitVec.ofNat 32 (2 ^ sh)) b).bind fun p => affAdd a.1 p
    .done (e.writePair x (shaped [a.1, b] aff fun i => lowWord (r i)) (shaped [a.1, a.2, b] none fun i => highWord (r i)))

end Sys2Proof.Machine
end

