-- ==== Sys2Proof/Machine/Control.lean ====
section
/-!
DEFINITION. Machine/Control.lean: base control, branches and calls, the divergence stack, and the mask operations
(R209-R220, R184, R316, R429, R430, R442).
-/

namespace Sys2Proof.Machine

open Sys2Proof

/-! ### The divergence stack (R213) -/

/-- The SPILLSZ area that the stack spills into: the whole block's (R115). -/
def Env.spillSz (e : Env) : Nat := e.b.kernel.spillSz

/-- Push an entry: beyond 32 on chip the oldest moves to the spill stack; none where it would start below SPILLMARK. -/
def Arch.push (a : Arch) (spillSz : Nat) (d : DivEntry) : Option Arch :=
  if 32 ≤ a.stack.length - a.spilled then
    if spillSz < 16 * (a.spilled + 1) + a.spillMark then none
    else some { a with stack := d :: a.stack, spilled := a.spilled + 1 }
  else some { a with stack := d :: a.stack }

/-- What remains after the top entry is popped: a pop that empties the on-chip part brings one entry back. -/
def Arch.popTo (a : Arch) (rest : List DivEntry) : Arch :=
  { a with stack := rest, spilled := if rest.length ≤ a.spilled then rest.length - 1 else a.spilled }

def DivEntry.without (exited : W32) : DivEntry → DivEntry
  | .pending m pc => .pending (m &&& ~~~exited) pc
  | .join m p => .join (m &&& ~~~exited) p

/-- R215: write the RCV's address into the point of the JOIN entry on top. -/
def setPoint (point : Nat) : List DivEntry → List DivEntry
  | .join m _ :: t => .join m (some point) :: t
  | l => l

/-- R214, with the taken mask: none for SPILL_OVF, which has no effect. -/
def Arch.divb (a : Arch) (spillSz : Nat) (m : W32) (target : Nat) : Option Arch :=
  let t := m &&& a.run
  let f := a.run &&& ~~~t
  match a.push spillSz (.join a.run none) with
  | none => none
  | some a1 =>
    if t ≠ 0 && f ≠ 0 then (a1.push spillSz (.pending t target)).map fun a2 => { a2 with run := f }
    else if f = 0 then some { a1 with pc := target }
    else some a1

/-- R215, for an RCV at `addr`; the pc has already advanced. -/
def Arch.rcv (a : Arch) (addr : Nat) : List DivEntry → Arch
  | [] => a.popTo []
  | d :: rest =>
    if d.mask = 0 then a.rcv addr rest
    else
      match d with
      | .pending m pc => { (a.popTo (setPoint addr rest)) with run := m, pc := pc }
      | .join m _ => { (a.popTo rest) with run := m }

/-- R216: pop until an entry with a mask is found; none left ends the group.  `next` is the address after the EXIT. -/
def Arch.exitPop (a : Arch) (next : Nat) : List DivEntry → Arch
  | [] => { (a.popTo []) with run := 0 }
  | d :: rest =>
    if d.mask = 0 then a.exitPop next rest
    else
      match d with
      | .pending m pc => { (a.popTo rest) with run := m, pc := pc }
      | .join m (some p) => { (a.popTo rest) with run := m, pc := (p + 4) % 2 ^ 64 }
      | .join m none => { (a.popTo rest) with run := m, pc := next }

/-- R216, R430: every thread of $run ends. DEDUCED, log 113. -/
def Arch.exit (a : Arch) (next : Nat) : Arch :=
  let st := a.stack.map (DivEntry.without a.run)
  { a with stack := st, entryRun := a.entryRun &&& ~~~a.run }.exitPop next st

/-! ### What an EXIT that ends the group waits for (R442) -/

/-- The group has a RUNNING or FAULTED copy, a pending fill, or a closing operation that has not delivered. -/
def Env.exitHeld (e : Env) : Bool :=
  (e.s.copies.any fun c => c.2.live && c.2.g = e.g.ref && (c.2.state = .running || c.2.state = .faulted)) ||
  (e.s.fills.any fun f => f.g = e.g.ref && !f.arrived) ||
  !e.g.owed.isEmpty || (e.g.regions.any fun r => r.requests.any fun q => q.req.owes)

/-! ### Base control -/

def cInfo (len : Nat) : IssueInfo := { len }

def execNop := issue (cInfo 4) .done

/-- R216, R442: the group ends where no thread is left, and has then left its handler (R426). -/
def execExit := issue (cInfo 4) fun e =>
  let a := ({ e.g.arch with stack := e.stackNow } : Arch).exit e.g.arch.pc
  if a.run = 0 && e.exitHeld then .wait .empty
  else e.popStack a fun e => .done (if a.run ≠ 0 then e else { e with g := { e.g with
    arch := { e.g.arch with handler := false, vwb := 0, swb := 0 }, ended := true, active := false,
    regions := modLast (fun r => { r with ends := true }) e.g.regions } })

/-- A jump to a register's value: ALIGN where bits [1:0] are not 0 (R46). -/
def Env.jumpTo (e : Env) (target : W64) : Res :=
  if target.toNat % 4 ≠ 0 then .trap { code := 8 } else .done (e.setPc target.toNat)

def execRet := issue (cInfo 4) fun e => e.whenFull [(129, false)] [] fun e => e.jumpTo (e.sval 1)

/-- R184: the group becomes a swap candidate. DEDUCED, log 37; DESIGN CHOICE, log 105. -/
def execYield := issue (cInfo 4) fun e => .done { e with g := { e.g with wait := .yield, waitSince := e.s.gtc } }

/-- R316: the wrapper opens the region. DEDUCED, log 32. -/
def execRgn := issue { len := 4, rgn := true } .done

def execRcv := issue (cInfo 4) fun e => e.popStack (e.g.arch.rcv e.addr e.stackNow) .done

/-- R429: a precise USER trap that resumes at the next instruction, and a closing operation. -/
def execTrap (imm : BitVec 18) := issue { len := 4, closing := true } fun e =>
  .done (e.takeTrap { code := 31, cause0 := imm.setWidth 64 } (wrap64 (e.addr + 4)))

/-! ### Branches and calls -/

/-- The target of an offset in words from word 0. -/
def Env.target (e : Env) (words : Int) : Nat := wrap64 (e.addr + 4 * words)

def execBra (off : BitVec 25) := issue (cInfo 4) fun e => .done (e.setPc (e.target off.toInt))

/-- R210. -/
def execCall (off : BitVec 25) := issue (cInfo 4) fun e =>
  e.whenFull [] [129] fun e =>
    .done ((e.setS64 1 (BitVec.ofNat 64 (e.addr + 4))).setPc (e.target off.toInt))

/-- The lowest slot set in a mask. -/
def lowestSlot (m : W32) : Option Nat := slots.find? fun i => m.getLsbD i

/-- R211. -/
def bracHolds (cond : Nat) (k run : W32) : Bool :=
  let m := k &&& run
  match cond with
  | 0 => m ≠ 0
  | 1 => m = 0
  | 2 => m = run
  | 3 => m ≠ run
  | _ => match lowestSlot run with | some j => k.getLsbD j | none => false

def execBrac (f : BracF) := issue (cInfo 4) fun e =>
  .done (if bracHolds f.cond.toNat (e.kval f.k.toNat) e.g.arch.run then e.setPc (e.target f.off.toInt) else e)

/-- R217: A is read before D is written. -/
def execCallr (x : Ext) := issueExt 20 1 x (cInfo (lenExt x)) fun e =>
  (e.setS64 (x.d.toNat - 128) (BitVec.ofNat 64 (e.addr + lenExt x))).jumpTo (e.srcU x.lit x.a)

def execJmpr (x : Ext) := issueExt 20 2 x (cInfo (lenExt x)) fun e => e.jumpTo (e.srcU x.lit x.a)

/-- R214. -/
def execDivb (x : Ext) := issueExt 20 0 x (cInfo (lenExt x)) fun e =>
  let k := e.kval (x.a.toNat - 512)
  match e.g.arch.divb e.spillSz (if x.imm8.getLsbD 0 then ~~~k else k) (e.target (offsetOf x)) with
  | none => .trap { code := 16 }
  | some a => e.pushStack a

/-- R218: a counter of 0 wraps and branches. -/
def execLoop (x : Ext) := issueExt 20 3 x (cInfo (lenExt x)) fun e =>
  let n := e.sval (x.d.toNat - 128) - 1
  let e' := e.setS64 (x.d.toNat - 128) n
  .done (if n ≠ 0 then e'.setPc (e.target (offsetOf x)) else e')

/-- R219. -/
def execSbrc (x : Ext) := issueExt 20 4 x (cInfo (lenExt x)) fun e =>
  .done (if condHolds (x.imm8.toNat % 8) (e.srcU x.lit x.a) (e.srcU x.lit x.b) then e.setPc (e.target (offsetOf x)) else e)

/-! ### Mask operations (R220) -/

/-- A source of a mask operation: 32 bits. -/
def Env.srcM (e : Env) (lit : Option W64) (code : BitVec 10) : W32 :=
  if code.toNat = 769 then litHigh lit else (e.srcU lit code).setWidth 32

def maskOp (fn : Nat) (x : Ext) (f : W32 → W32 → W32) := issueExt 20 fn x (cInfo (lenExt x)) fun e =>
  let r := f (e.srcM x.lit x.a) (e.srcM x.lit x.b)
  .done (e.writeK x (x.d.toNat - 512) fun i => r.getLsbD i)

def execKand (x : Ext) := maskOp 5 x fun a b => a &&& b
def execKor (x : Ext) := maskOp 6 x fun a b => a ||| b
def execKxor (x : Ext) := maskOp 7 x fun a b => a ^^^ b
def execKandn (x : Ext) := maskOp 8 x fun a b => a &&& ~~~b
def execKnot (x : Ext) := maskOp 9 x fun a _ => ~~~a
def execKmov (x : Ext) := maskOp 10 x fun a _ => a

end Sys2Proof.Machine
end

