-- ==== Sys2Proof/Machine/Fetch.lean ====
section
/-!
DEFINITION. Machine/Fetch.lean: fetching the words of the next instruction (R44, R113, R144-R148, R153) and decoding them
against the counts of the kernel whose code runs (R22, R47, R119).
-/

namespace Sys2Proof.Machine

open Sys2Proof

/-- The versions of a fetch block that a core may execute: those it and its field hold, and memory's (R153). -/
def blockVersions (s : State) (core pa : Nat) (now : List Byte) : List (List Byte) :=
  let held := (s.icache.filter fun b => b.field = fieldOfCore core && b.pa = pa && !b.gone.contains core).map fun b => b.bytes
  if held.contains now then held else now :: held

/-- A core's field holds a block as memory has it. -/
def State.holdBlock (s : State) (owner core pa : Nat) : State :=
  let now := s.readBytes (some (s.keyAt owner pa)) pa 32
  if s.icache.any fun b => b.field = fieldOfCore core && b.pa = pa && b.bytes = now && !b.gone.contains core then s
  else { s with icache := { field := fieldOfCore core, pa, bytes := now } :: s.icache }

/-- R146: a line fill brings both blocks of the line. -/
def State.holdLine (s : State) (owner core pa : Nat) : State :=
  (s.holdBlock owner core (pa / 64 * 64)).holdBlock owner core (pa / 64 * 64 + 32)

/-- R146, R153: fetch one block as one unit: any version that the core may read, or memory's; the line is then held as memory
has it. -/
def fetchBlock (s : State) (owner core pa : Nat) : List Byte × State :=
  let now := s.readBytes (some (s.keyAt owner pa)) pa 32
  let vs := blockVersions s core pa now
  let got := vs.getD (if vs.length ≤ 1 then 0 else Config.pick s.freeCtr vs.length % vs.length) now
  (got, { s with freeCtr := s.freeCtr + 1 }.holdLine owner core pa)

/-- R148: translate the address of a word for fetch; what a walk set stands also where the fetch fails (R145).  The page may lie
anywhere that a leaf may name. DESIGN CHOICE, log 131. -/
def fetchTranslate (s : State) (v : Viewer) (owner va : Nat) : Except (Trap × State) (Nat × State) :=
  let bad (code : Nat) (t : State) : Except (Trap × State) (Nat × State) := .error ({ code, addr := BitVec.ofNat 64 va }, t)
  match s.translateBy v owner va with
  | (.ok e, t) => if e.x then .ok (e.addr va, t) else bad 12 t
  | (.page _, t) => bad 11 t
  | (.frame, t) => bad 12 t

/-- The failure that a core has recorded against the block of a virtual address (R147). -/
def State.failAt (s : State) (owner core va : Nat) : Option FetchFail :=
  s.fetchFails.find? fun f => f.core = core && f.owner = owner && f.va / 32 = va / 32

/-- R148: the first word that lies in the page of `va`, of an instruction at `pc`. -/
def firstInPage (pc va : Nat) : Nat := if pc / 65536 = va / 65536 then pc else va / 65536 * 65536

/-- The block of a virtual address, for an instruction at `pc`: a recorded failure meets whichever group of its core and owner
comes to it, and is then forgotten; else the block is translated and fetched. DESIGN CHOICE, log 145. -/
def fetchVirtual (s : State) (owner core pc va : Nat) : Except (Trap × State) (List Byte × State) :=
  match s.failAt owner core va with
  | some f => .error ({ code := f.code, addr := BitVec.ofNat 64 (firstInPage pc va) },
      { s with fetchFails := s.fetchFails.filter fun g => g ≠ f })
  | none =>
    match fetchTranslate s (.core core) owner va with
    | .error e => .error e
    | .ok (pa, t) => .ok (fetchBlock t owner core (pa / 32 * 32))

/-- R147: the fetch unit of a group's core reads a block ahead; a failure is recorded and raises nothing. -/
def State.prefetch (s : State) (r : GroupRef) (va : Nat) : State :=
  match s.group? r, s.block? (blockOf r) with
  | some g, some b =>
    match fetchTranslate s (.core g.core) b.owner (va / 32 * 32) with
    | .ok (pa, t) => t.holdLine b.owner g.core pa
    | .error (t, u) => { u with fetchFails := { core := g.core, owner := b.owner, va := va / 32 * 32, code := t.code } :: u.fetchFails }
  | _, _ => s

/-- The words of an instruction by its LEN (Table 3-1). -/
def wordsOfLen (w : W32) : Nat :=
  match w.toNat % 4 with
  | 0 => 1
  | 3 => 5
  | _ => 3

/-- The word of a block's own run at an address. -/
def Fused.wordAt (f : Fused) (va : Nat) : Option W32 :=
  f.code.findSome? fun w => if w.addr ≤ va && va < w.addr + 4 * w.words.length && va % 4 = 0 then w.words[(va - w.addr) / 4]? else none

/-- A block that has been fetched for an instruction: its virtual address / 32, and its bytes. -/
abbrev Fetched := Option (Nat × List Byte)

def wordIn (bs : List Byte) (va : Nat) : W32 := BitVec.ofNat 32 (leNat ((bs.drop (va % 32)).take 4))

/-- One word of the instruction at `pc`: of the block's own run in the splice cache (R113, R452), of the block just fetched, or
of a block to fetch. -/
def fetchCode (s : State) (b : Block) (core pc va : Nat) (have' : Fetched) : Except (Trap × State) (W32 × Fetched × State) :=
  match b.fused.bind fun f => f.wordAt va with
  | some w => .ok (w, none, s)
  | none =>
    match have'.filter fun h => h.1 = va / 32 with
    | some h => .ok (wordIn h.2 va, some h, s)
    | none =>
      match fetchVirtual s b.owner core pc va with
      | .error e => .error e
      | .ok (bs, t) => .ok (wordIn bs va, some (va / 32, bs), t)

def fetchRest (s : State) (b : Block) (core pc : Nat) : Nat → Nat → Fetched → Except (Trap × State) (List W32 × State)
  | 0, _, _ => .ok ([], s)
  | n + 1, va, h =>
    match fetchCode s b core pc (va % 2 ^ 64) h with
    | .error e => .error e
    | .ok (w, h', t) =>
      match fetchRest t b core pc n (va + 4) h' with
      | .error e => .error e
      | .ok (ws, u) => .ok (w :: ws, u)

/-- The words of the instruction at a program counter, those of one block as one unit (R146). -/
def fetchInstr (s : State) (b : Block) (core pc : Nat) : Except (Trap × State) (List W32 × State) :=
  match fetchCode s b core pc pc none with
  | .error e => .error e
  | .ok (w, h, t) =>
    match fetchRest t b core pc (wordsOfLen w - 1) (pc + 4) h with
    | .error e => .error e
    | .ok (ws, u) => .ok (w :: ws, u)

/-- The fault code of a decode defect (Table 21-1). -/
def DecodeFault.code : DecodeFault → Nat
  | .illOpc => 1
  | .illRsv => 2
  | .illOpd => 3
  | .illLit => 4
  | .illPair => 5

/-- R47: the trap of a decode defect; cause word 1 is the bit. -/
def Defect.trap (d : Defect) : Trap := { code := DecodeFault.code d.fault, cause1 := BitVec.ofNat 64 d.bit }

/-- The group takes a precise trap before its next instruction, in a region of its own where a head stands there. -/
def trapAt (s : State) (g : Group) (b : Block) (t : Trap) : State :=
  if g.opens && 4 ≤ g.regions.length then s.waitAt g .empty
  else
    let g1 := { (if g.opens then g.openRegion s.gtc else g) with wait := .ready, headPending := false, lastIssue := s.gtc }
    (({ (envOf s g1 b 0) with g := g1 }).takeTrap t g.arch.pc).close

end Sys2Proof.Machine
end

