-- ==== Sys2Proof/Machine/Flags.lean ====
section
/-!
DEFINITION. Machine/Flags.lean: floating-point formats, exact values, rounding, conversions and the exceptions they raise
(R221-R233), and FMODE (R234-R237).
-/

namespace Sys2Proof.Machine

open Sys2Proof

/-! ### Exceptions: NV 1, DZ 2, OF 4, UF 8, NX 16, CL 32 (Table 11-5 from bit 16 up) -/

abbrev Exc := BitVec 6
def excNone : Exc := 0
def excNv : Exc := 1
def excDz : Exc := 2
def excOf : Exc := 4
def excUf : Exc := 8
def excNx : Exc := 16
def excCl : Exc := 32

/-! ### Exact values -/

/-- A value read from a format: a NaN, an infinity, or ± m × 2^e; `st` says that the magnitude lies strictly between m × 2^e
and (m + 1) × 2^e. -/
inductive FVal where
  | nan (sig : Bool)
  | inf (neg : Bool)
  | fin (neg : Bool) (m : Nat) (e : Int) (st : Bool)
  deriving DecidableEq, Repr

/-- R224: the value of a code. -/
def readF (f : FSpec) (bits : Nat) : FVal :=
  let neg := bits / f.signBit % 2 = 1
  let e := bits / 2 ^ f.mb % 2 ^ f.eb
  let m := bits % 2 ^ f.mb
  if f.hasInf && e = 2 ^ f.eb - 1 then
    if m = 0 then .inf neg else .nan (f.hasSig && m / 2 ^ (f.mb - 1) = 0)
  else if f.code = 3 && e = 15 && m = 7 then .nan false
  else if e = 0 then .fin neg m f.qmin false
  else .fin neg (2 ^ f.mb + m) ((e : Int) - f.bias - f.mb) false

/-- Whether a code is a non-zero subnormal. -/
def isSubnormal (f : FSpec) (bits : Nat) : Bool := bits / 2 ^ f.mb % 2 ^ f.eb = 0 && bits % 2 ^ f.mb ≠ 0

/-- R231: a subnormal operand read as zero of its sign. -/
def flushIn (f : FSpec) (daz : Bool) (bits : Nat) : Nat :=
  if daz && isSubnormal f bits then bits / f.signBit % 2 * f.signBit else bits

/-- Read an operand under DAZ. -/
def readDaz (f : FSpec) (daz : Bool) (bits : Nat) : FVal := readF f (flushIn f daz (bits % 2 ^ f.width))

/-! ### Rounding (R229, R230) -/

/-- Round a magnitude to multiples of 2^q by a mode of Table 11-3: the multiple, and whether it differs. -/
def roundAt (mode : Nat) (neg : Bool) (m : Nat) (e : Int) (st : Bool) (q : Int) : Nat × Bool :=
  if q ≤ e then (m * 2 ^ (e - q).toNat, st)
  else
    let d := (q - e).toNat
    let quo := m / 2 ^ d
    let rem := m % 2 ^ d
    let half := 2 ^ (d - 1)
    let inexact := rem ≠ 0 || st
    let above := half < rem || (rem = half && st)
    let tie := rem = half && !st
    let up := match mode with
      | 1 => above || (tie && quo % 2 = 1)
      | 2 => false
      | 3 => inexact && !neg
      | 4 => inexact && neg
      | _ => above || tie
    (if up then quo + 1 else quo, inexact)

/-- Make room below the last bit of a sticky magnitude, so that a rounding always falls above it. -/
def widen (m : Nat) (e : Int) (st : Bool) : Nat × Int := if st then (m * 2 ^ 64, e - 64) else (m, e)

/-- The code of a magnitude n × 2^q that the format holds. -/
def encodeF (f : FSpec) (neg : Bool) (n : Nat) (q : Int) : Nat :=
  let s := if neg then f.signBit else 0
  if n = 0 then s
  else
    let top := (Nat.log2 n : Int) + q
    if f.emin ≤ top then
      s + (top + f.bias).toNat * 2 ^ f.mb + (if (Nat.log2 n) ≤ f.mb then n * 2 ^ (f.mb - Nat.log2 n)
                                             else n / 2 ^ (Nat.log2 n - f.mb)) - 2 ^ f.mb
    else s + (if f.qmin ≤ q then n * 2 ^ (q - f.qmin).toNat else n / 2 ^ (f.qmin - q).toNat)

/-- Compare m × 2^e with the format's largest finite magnitude: true where it is larger. -/
def exceeds (f : FSpec) (n : Nat) (q : Int) : Bool :=
  match readF f f.maxCode with
  | .fin _ m e _ => if q ≤ e then m * 2 ^ (e - q).toNat < n else m < n * 2 ^ (q - e).toNat
  | _ => false

/-- Whether the mode's overflow gives infinity for this sign (Table 11-3). -/
def toInf (mode : Nat) (neg : Bool) : Bool :=
  match mode with
  | 1 | 5 => true
  | 3 => !neg
  | 4 => neg
  | _ => false

/-- R229-R233: deliver a value in a format, with the exceptions it raises. -/
def deliver (f : FSpec) (mode : Nat) (sat ftz : Bool) : FVal → Nat × Exc
  | .nan sig =>
    if 5 ≤ f.code then (0, excNv) else (f.nan, if sig then excNv else excNone)
  | .inf neg =>
    let s := if neg then f.signBit else 0
    if 5 ≤ f.code || sat then (s + f.maxCode, excCl)
    else if f.hasInf then (s + f.infCode, excNone)
    else (f.nan, excNv)
  | .fin neg m e st =>
    let s := if neg then f.signBit else 0
    if m = 0 && !st then (s, excNone)
    else
      let (m, e) := widen m e st
      if m = 0 then (s + (if toInf mode neg && (mode = 3 || mode = 4) && !ftz then 1 else 0), excUf ||| excNx)
      else
      let q := (Nat.log2 m : Int) + e - f.mb
      let (n, x) := roundAt mode neg m e st q
      if exceeds f n q then
        let cl := if toInf mode neg then excCl else excNone
        let big := excOf ||| excNx
        if 5 ≤ f.code || sat then (s + f.maxCode, big ||| cl)
        else if toInf mode neg then (if f.hasInf then (s + f.infCode, big) else (f.nan, big))
        else (s + f.maxCode, big)
      else if (Nat.log2 n : Int) + q < f.emin then
        if ftz then (s, excUf ||| excNx)
        else
          let (n', x') := roundAt mode neg m e st (max q f.qmin)
          (encodeF f neg n' (max q f.qmin), if x' then excUf ||| excNx else excNone)
      else (encodeF f neg n q, if x then excNx else excNone)

/-- R233: deliver a value as an integer of a range; NV where it is replaced. -/
def deliverInt (lo hi : Int) (mode : Nat) : FVal → Int × Exc
  | .nan _ => (0, excNv)
  | .inf neg => (if neg then lo else hi, excNv)
  | .fin neg m e st =>
    let (m, e) := widen m e st
    let (n, x) := roundAt mode neg m e st 0
    let v : Int := if neg then -(n : Int) else n
    if v < lo || hi < v then (if neg then lo else hi, excNv)
    else (v, if x then excNx else excNone)

/-! ### Exact arithmetic -/

/-- A finite value times 2^-q, for q at or below its exponent. -/
def atScale (q : Int) (neg : Bool) (m : Nat) (e : Int) : Int :=
  let v : Int := m * 2 ^ (e - q).toNat
  if neg then -v else v

/-- The exact sum of values that are not NaNs (R229, R242, R246); none for infinities of opposite sign. -/
def sumF (mode : Nat) (l : List FVal) : Option FVal :=
  let infs := l.filterMap fun v => match v with | .inf n => some n | _ => none
  match infs with
  | n :: rest => if rest.all (· == n) then some (.inf n) else none
  | [] =>
    let q : Int := (l.map fun v => match v with | .fin _ _ e _ => e | _ => (0 : Int)).foldl min 0
    let t : Int := (l.map fun v => match v with | .fin n m e _ => atScale q n m e | _ => (0 : Int)).sum
    let zeros := l.all fun v => match v with | .fin _ m _ _ => m = 0 | _ => false
    let negs := l.map fun v => match v with | .fin n _ _ _ => n | _ => false
    if t = 0 then
      if zeros && negs.all (· = true) then some (.fin true 0 0 false)
      else if zeros && negs.all (· = false) then some (.fin false 0 0 false)
      else some (.fin (mode = 4) 0 0 false)
    else some (.fin (t < 0) t.natAbs q false)

/-- The exact product of values that are not NaNs; none for 0 × ∞.  A zero among products has the XOR of the signs.
DEDUCED, log 119. -/
def mulF : FVal → FVal → Option FVal
  | .fin n m e _, .fin n' m' e' _ => some (.fin (n != n') (m * m') (e + e') false)
  | .inf n, .fin n' m' _ _ => if m' = 0 then none else some (.inf (n != n'))
  | .fin n m _ _, .inf n' => if m = 0 then none else some (.inf (n != n'))
  | .inf n, .inf n' => some (.inf (n != n'))
  | _, _ => none

def FVal.isNan : FVal → Bool
  | .nan _ => true
  | _ => false
def FVal.isInf : FVal → Bool
  | .inf _ => true
  | _ => false
def FVal.isSig : FVal → Bool
  | .nan s => s
  | _ => false
def FVal.neg : FVal → FVal
  | .nan s => .nan s
  | .inf n => .inf (!n)
  | .fin n m e st => .fin (!n) m e st
/-- The sign; a NaN has none. -/
def FVal.sign : FVal → Bool
  | .nan _ => false
  | .inf n => n
  | .fin n _ _ _ => n
def FVal.isZero : FVal → Bool
  | .fin _ m _ st => m = 0 && !st
  | _ => false

/-- An invalid operation and the NaN it delivers: the NaN counts as signalling, so that delivery raises NV. -/
def invalid : FVal := .nan true

/-- The operand check of R232: a NaN among the operands gives a NaN, signalling if one of them is. -/
def nanOf (l : List FVal) : Option FVal :=
  if l.any FVal.isNan then some (.nan (l.any FVal.isSig)) else none

/-- Order of two values that are not NaNs, zeros equal: -1, 0, 1. -/
def cmpF (a b : FVal) : Int :=
  match a, b with
  | .inf n, .inf n' => if n = n' then 0 else if n then -1 else 1
  | .inf n, _ => if n then -1 else 1
  | _, .inf n => if n then 1 else -1
  | .fin n m e _, .fin n' m' e' _ =>
    let q := min e e'
    let x := atScale q n m e
    let y := atScale q n' m' e'
    if x < y then -1 else if y < x then 1 else 0
  | _, _ => 0

/-! ### FMODE (R234-R237) -/

/-- What an instruction reads of FMODE at issue. -/
structure FMode where
  rm : Nat
  daz32 : Bool
  ftz32 : Bool
  daz16 : Bool
  ftz16 : Bool
  bf : Bool
  deriving DecidableEq, Repr

/-- The mode in force (R54, R229). -/
def fmodeOf (w : W64) (rm : BitVec 3) : FMode :=
  { rm := if rm = 0 then w.toNat % 8 else rm.toNat,
    daz32 := w.getLsbD 3, ftz32 := w.getLsbD 4, daz16 := w.getLsbD 5, ftz16 := w.getLsbD 6, bf := w.getLsbD 8 }

def FMode.daz (m : FMode) (f : FSpec) : Bool :=
  if f.code = 0 then m.daz32 else if f.code ≤ 2 then m.daz16 else false
def FMode.ftz (m : FMode) (f : FSpec) : Bool :=
  if f.code = 0 then m.ftz32 else if f.code ≤ 2 then m.ftz16 else false

/-- The exceptions whose traps are enabled. -/
def excEnabled (fmode : W64) : Exc := (fmode >>> 24).setWidth 6

/-- R236: raise the sticky flags. -/
def raiseFlags (fmode : W64) (x : Exc) : W64 := fmode ||| ((x.setWidth 64 : W64) <<< 16)

/-- R235: an SSET of FMODE; reserved bits read 0, and a reserved RM is not written. -/
def writeFmode (old v : W64) : W64 :=
  let keep : W64 := 0x3F3F0178
  let rm := v.toNat % 8
  (v &&& keep) ||| BitVec.ofNat 64 (if rm = 0 || 6 ≤ rm then old.toNat % 8 else rm)

/-- What the slots that count raise, in all; `ex i` is what slot `i` raises. -/
def allRaised (counts : Nat → Bool) (ex : Nat → Exc) : Exc :=
  slots.foldl (fun a i => if counts i then a ||| ex i else a) excNone

/-- R237: the FP trap, where a slot that counts raises an enabled exception; `all` is what the whole instruction raises. -/
def fpTrap (fmode : W64) (counts : Nat → Bool) (ex : Nat → Exc) (all : Exc) (half : Nat) : Option Trap :=
  let en := excEnabled fmode
  if allRaised counts ex &&& en = 0 then none
  else
    let m := maskOf fun i => counts i && ex i &&& en ≠ 0
    some { code := 29, cause0 := zext64 m ||| ((all.setWidth 64 : W64) <<< 32), cause1 := BitVec.ofNat 64 half }

/-- R236, R237: what an instruction's exceptions do: the FP trap, or the new FMODE. -/
def fpOutcome (fmode : W64) (counts : Nat → Bool) (ex : Nat → Exc) (half : Nat) : Except Trap W64 :=
  let all := allRaised counts ex
  match fpTrap fmode counts ex all half with
  | some t => .error t
  | none => .ok (raiseFlags fmode all)

/-- Write FMODE back (R177); a squash restores it. -/
def Env.setFmode (e : Env) (w : W64) : Env := if w = e.g.arch.fmode then e else e.setArch { e.g.arch with fmode := w }

end Sys2Proof.Machine
end

