-- ==== Sys2Proof/Machine/Power.lean ====
section
/-!
DEFINITION. Machine/Power.lean: the strum pattern, the allowance counter, the slew limiter, throttling and the power guards
(R137-R143, R169-R175).
-/

namespace Sys2Proof.Machine

open Sys2Proof

/-! ### Patterns (R139, R171) -/

/-- Bring a bench's counters up to date, before its pattern changes. -/
def State.settleBench (s : State) (bench : Nat) : State :=
  s.setBench bench { (s.bench bench) with
    effBase := s.effCycles bench, effAt := s.gtc,
    throttleLast := max (s.bench bench).throttleLast (if popOf (s.strum bench) < 16 then s.gtc - 1 else 0) }

/-- Change patterns on a list of benches. -/
def State.repattern (s : State) (benches : List Nat) (f : State → State) : State := f (benches.foldl State.settleBench s)

def benchesOf (field : Nat) : List Nat := codes (12 * field) 12
def allBenches : List Nat := List.range 96

/-- R171: at least 4 ones, and no more than 3 zeros in a row read cyclically. -/
def legalPattern (p : BitVec 16) : Bool :=
  4 ≤ popOf p && (List.range 16).all fun i => (List.range 4).any fun j => p.getLsbD ((i + j) % 16)

/-! ### The allowance counter (R169) -/

/-- Refill per mc, less what an inrush reservation holds (R140). -/
def Bench.refillNow (b : Bench) : Nat := b.refill - b.inrush

/-- The counter as this mc's issues find it: this mc's refill is in it. -/
def State.allowNow (s : State) (bench : Nat) : Nat :=
  let b := s.bench bench
  min 0xFFFF (b.allow + (s.gtc + 1 - b.allowAt) * b.refillNow)

/-- Bring the counter up to date and pay. DESIGN CHOICE, log 81. -/
def State.debit (s : State) (bench w : Nat) : State :=
  s.setBench bench { (s.bench bench) with allow := s.allowNow bench - w, allowAt := s.gtc + 1 }

/-! ### Limits and power registers (R137) -/

def Field.eff (f : Field) : Nat := if f.halved then f.lim / 2 else f.lim
def Field.sum (f : Field) : Nat := f.baseI + f.commit
/-- DEDUCED, log 83. -/
def Field.headroom (f : Field) : Nat := f.eff - max f.sum f.cur

/-- The source number of a field's power unit (R405), and a power record (Table 20-3).  No rule gives the unit of what concerns
the whole module or a pin group: the module's is that of field 0 of die 0, a pin group's that of field 0 of its die.
DESIGN CHOICE, log 144. -/
def powerSrc (field : Nat) : Nat := srcNum (dieOfField field) (field % 4) 6 0
def State.powerRecord (s : State) (field type code data0 : Nat) : State :=
  s.record { stamp := s.gtc, src := powerSrc field, type, code, data0 }

def State.modField (s : State) (f : Nat) (k : Field → Field) : State := s.setField f (k (s.field f))
def State.modBench (s : State) (b : Nat) (k : Bench → Bench) : State := s.setBench b (k (s.bench b))

/-- The neighbours of a field, and those that run (R140). -/
def besideField (f : Nat) : List Nat := [f + 1, f - 1].filter fun n => n ≠ f && n < 8 && n / 4 = f / 4
def State.neighbours (s : State) (f : Nat) : List Nat := (besideField f).filter fun n => (s.field n).on

/-- What the reservations of ramping fields take of a bench's refill: 60 A shared equally among the neighbours and their
benches. DESIGN CHOICE, log 17. -/
def State.inrushOf (s : State) (bench : Nat) : Nat :=
  (s.fields.map fun f => if f.2.inrushFrom.contains (fieldOfBench bench)
    then Config.inrushRefill / (12 * f.2.inrushFrom.length) else 0).sum

/-- Bring the refills of the benches of some fields into line with the reservations. -/
def State.fixInrush (s : State) (fs : List Nat) : State :=
  (fs.flatMap benchesOf).foldl (fun s b => (s.debit b 0).modBench b fun x => { x with inrush := s.inrushOf b }) s

/-- The reservation of a field is returned, by firmware that does not hang (R139). -/
def State.returnInrush (s : State) (f : Nat) : State :=
  if s.hung then s else (s.modField f fun x => { x with inrushUntil := none, inrushFrom := [] }).fixInrush (s.field f).inrushFrom

/-- A ramp may start: firmware does not hang (R139), 60 W of headroom at the 50 V input (R136), and no neighbour tripped. -/
def State.rampClear (s : State) (f : Nat) : Bool :=
  !s.hung && s.inputPower + 60 ≤ 3400 && (besideField f).all fun n => !(s.field n).tripped

/-- R140: a field ramps for 2 ms, with inrush reserved from its running neighbours for 200 µs, or waits until it may. -/
def State.askRamp (s : State) (f : Nat) : State :=
  if s.rampClear f then
    (s.modField f fun x => { x with
      rampAsked := false, ramping := some (s.gtc + 2000000), inrushUntil := some (s.gtc + 200000),
      inrushFrom := s.neighbours f }).fixInrush (s.neighbours f)
  else s.modField f fun x => { x with rampAsked := true }

/-- Whether a block stands on a field. -/
def State.fieldBusy (s : State) (f : Nat) : Bool :=
  s.blocks.any fun b => fieldOfCore b.lead = f && (b.state = .placed || (match b.state with | .saving .. => true | _ => false))

/-- A firmware power-up of a field (R140); the ramp of one that waits is tried again. -/
def execFieldPowerUp (f : Nat) (s : State) : Host.Outcome State Fault Refusal :=
  if f < 8 && !s.hung && ((s.step = 7 && !(s.field f).offline) || (s.field f).rampAsked) && !(s.field f).on && (s.field f).ramping.isNone
  then .next (s.askRamp f) else .next s

/-- Bring-up goes on behind a field that has come up or been marked OFFLINE (Table 7-4): field 0 or the image may stop it
(R142), the next field ramps, and behind the last one memory and links come up.  The base firmware places the TCB pools.
DESIGN CHOICE, log 115. -/
def State.bringUpNext (s : State) (u : BringUp) : State :=
  if u.field = 0 && bit u.failed 0 then { s with bringUp := none, smbus := some 3 }
  else if u.field = 0 && !u.signed then { s with step := 3, bringUp := none, smbus := some 4 }
  else if u.field < 7 then
    (({ s with step := 4, bringUp := some { u with field := u.field + 1 } }.setDie 0
      { (s.die 0) with tcbPool := u.pool0 / 256 * 256, poolUp := true }).askRamp (u.field + 1))
  else
    { (s.setDie 1 { (s.die 1) with tcbPool := u.pool1 / 256 * 256, poolUp := true }) with step := 7, bringUp := none, watchdog := s.gtc }

/-- The ramp ends: the field is on, or, where it fails its self-test at bring-up, off (R142), and what is left of the
reservation is returned. DEDUCED, log 103. -/
def execFieldRampDone (f : Nat) (s : State) : Host.Outcome State Fault Refusal :=
  if (s.field f).ramping.any fun t => t ≤ s.gtc then
    let up := s.bringUp.filter fun u => u.field = f
    let bad := up.any fun u => bit u.failed f
    let s1 := (s.modField f fun x => { x with ramping := none, on := !bad, offline := x.offline || (bad && f ≠ 0) }).returnInrush f
    .next (match up with | some u => s1.bringUpNext u | none => s1)
  else .next s

def execFieldPowerDown (f : Nat) (s : State) : Host.Outcome State Fault Refusal :=
  if (s.field f).on && !s.fieldBusy f && !s.hung then .next (s.modField f fun x => { x with on := false }) else .next s

/-- The time since which the current of a field has stayed below 90 % of EFF (R139), as it is judged anew. -/
def Field.judge (f : Field) (gtc : Nat) : Field :=
  { f with lowSince := if 10 * f.cur < 9 * f.eff then (if f.lowSince.isSome then f.lowSince else some gtc) else none }

/-- R138: the drop on a pin group, in mV, exceeds what its measured path resistance gives at the current by more than 150 mV;
`fields` is the mask of the fields that the group feeds. DESIGN CHOICE, log 124. -/
def execSupplyPath (die pin fields : Nat) (drop : PathReading) (s : State) : Host.Outcome State Fault Refusal :=
  if s.step < 6 || drop.drop ≤ drop.current * Config.pathResistance (die % 2) pin + 150 then .next s
  else
    let s1 := ((List.range 8).filter fun f => bit fields f).foldl
      (fun s f => s.modField f fun x => { x with halved := true }.judge s.gtc) s
    .next (s1.powerRecord (4 * (die % 2)) 12 pin drop.drop)

/-- R139: the field comparator. -/
def execFieldTrip (f : Nat) (s : State) : Host.Outcome State Fault Refusal :=
  if (s.field f).eff ≤ (s.field f).cur && !(s.field f).tripped && f < 8 then
    .next ((s.repattern (benchesOf f) fun s => s.modField f fun x => { x with tripped := true, lowSince := none }).powerRecord
      f 15 0xAAAA (s.field f).cur)
  else .next s

def execFieldTripRelease (f : Nat) (s : State) : Host.Outcome State Fault Refusal :=
  if (s.field f).tripped && (s.field f).lowSince.any fun t => t + 10000 ≤ s.gtc then
    .next (s.repattern (benchesOf f) fun s => s.modField f fun x => { x with tripped := false })
  else .next s

/-- DESIGN CHOICE, log 84. -/
def execModtrip (current : Nat) (s : State) : Host.Outcome State Fault Refusal :=
  .next ((s.repattern allBenches fun s =>
    (List.range 8).foldl (fun s f => s.modField f fun x => { x with modTrip := true }) s).powerRecord 0 15 0x8888 current)

/-- The 1 ms watchdog of the power firmware expires: every control holds its value. DESIGN CHOICE, log 85. -/
def execPwrWatchdog (f : Nat) (s : State) : Host.Outcome State Fault Refusal :=
  if s.watchdog + 1000000 ≤ s.gtc then .next ({ s with watchdog := s.gtc, hung := true }.powerRecord f 13 0 0) else .next s

/-- R139: an update parks every pattern at a legal one of popcount 12 or less. -/
def execPwrUpdate (pattern : BitVec 16) (s : State) : Host.Outcome State Fault Refusal :=
  if legalPattern pattern && popOf pattern ≤ 12 && !s.updating && !s.hung then
    .next ((s.repattern allBenches fun s =>
      allBenches.foldl (fun s b => s.modBench b fun x => { x with parked := some pattern })
        { s with updating := true }).powerRecord 0 17 pattern.toNat 0)
  else .next s

def execPwrUpdateEnd (s : State) : Host.Outcome State Fault Refusal :=
  if s.updating && !s.hung then
    .next (s.repattern allBenches fun s =>
      allBenches.foldl (fun s b => s.modBench b fun x => { x with parked := none }) { s with updating := false })
  else .next s

/-- R143: a sensor reaches 115 °C. -/
def execThermal (f sensor temp : Nat) (s : State) : Host.Outcome State Fault Refusal :=
  if 115 ≤ temp && f < 8 then
    .next ((s.repattern (benchesOf f) fun s => s.modField f fun x => { x with
      hot := if x.hot.contains sensor then x.hot else sensor :: x.hot }).powerRecord f 16 sensor temp)
  else .next s

/-- R143: the sensor falls below 105 °C. -/
def execThermalRelease (f : SensorReading) (s : State) : Host.Outcome State Fault Refusal :=
  if f.temp < 105 then
    .next (s.repattern (benchesOf f.field) fun s => s.modField f.field fun x => { x with hot := x.hot.filter fun n => n ≠ f.sensor })
  else .next s

/-- R171: an illegal pattern is ignored and leaves a PWR_PATTERN record; firmware that hangs writes none (R139). -/
def execStrumWrite (bench : Nat) (pattern : BitVec 16) (s : State) : Host.Outcome State Fault Refusal :=
  if 96 ≤ bench || s.hung then .next s
  else if legalPattern pattern then .next (s.repattern [bench] fun s => s.modBench bench fun x => { x with pattern })
  else .next (s.powerRecord (fieldOfBench bench) 14 pattern.toNat 0)

/-- R169: REFILL has 10 bits; a write of 0 is ignored. -/
def execAllowRefillWrite (bench refill : Nat) (s : State) : Host.Outcome State Fault Refusal :=
  if refill % 1024 = 0 || 96 ≤ bench || s.hung then .next s
  else .next ((s.debit bench 0).modBench bench fun x => { x with refill := refill % 1024 })

/-! ### Bring-up (R141, R142) -/

/-- The 50 V input rises (Table 7-4): the strap gives the module's number (Table 5-9), the converters start, and field 0 of die 0
ramps. DESIGN CHOICE, log 115. -/
def execPowerUp (strap pool0 pool1 failed : Nat) (signed : Bool) (s : State) : Host.Outcome State Fault Refusal :=
  if s.step ≠ 0 then .next s
  else .next ({ s with step := 2, domid := strap % 16, bringUp := some { pool0, pool1, failed, signed, field := 0 } }.askRamp 0)

/-! ### The slew limiter (R172, R173) -/

/-- Quarter-cycles of matrix work waiting. -/
def Core.work (c : Core) : Nat := (c.jobs.map fun j => j.left).sum

/-- Do `n` quarter-cycles of the work waiting, oldest first. -/
def workOff : Nat → List MxJob → List MxJob
  | _, [] => []
  | n, j :: js => if n < j.left then { j with left := j.left - n } :: js else workOff (n - j.left) js

/-- Pass grants over the four cores of a bench, one rung a pass, while grants and requests remain: two passes suffice for
two grants. -/
def grantCores (want : Nat → Nat → Bool) (delta : Int) (order : List Nat) : Nat → Table Nat → Table Nat × Nat
  | 0, r => (r, 0)
  | n + 1, r =>
    match order.find? fun c => want c (tget 0 r c) with
    | none => (r, 0)
    | some c =>
      let rest := (order.dropWhile (· ≠ c)).drop 1 ++ order.takeWhile (· ≠ c) ++ [c]
      let (r', k) := grantCores want delta rest n (tset 0 r c (((tget 0 r c : Nat) : Int) + delta).toNat)
      (r', k + 1)

/-- One bench's step: at most 2 decreases, and at most 2 increases within what the field has left. -/
def State.slewBench (s : State) (bench start left : Nat) : State × Nat :=
  let order := (List.range 4).map fun j => 4 * bench + (start + j) % 4
  let rungs : Table Nat := (codes (4 * bench) 4).foldl (fun t c => tset 0 t c (s.core c).rungs) []
  let (r1, _) := grantCores (fun c r => (s.core c).work = 0 && 0 < r) (-1) order 2 rungs
  let (r2, k) := grantCores (fun c r => 0 < (s.core c).work && r < 4) 1 order (min 2 left) r1
  ((codes (4 * bench) 4).foldl (fun s c =>
    if tget 0 r2 c = (s.core c).rungs then s else s.setCore c { (s.core c) with rungs := tget 0 r2 c }) s, left - k)

/-- The start that stands at step `n` (R173). -/
def Field.slewTo (f : Field) (n : Nat) : Field :=
  match f.slewNext with
  | some (off, n0) => if n0 ≤ n then { f with slewStart := off, slewNext := none } else f
  | none => f

def State.slewField (s : State) (f : Nat) : State :=
  let n := s.gtc / 4
  let fld := s.field f
  let fld' := fld.slewTo n
  let start := (fld'.slewStart + n) % 12
  let s1 := s.setField f fld'
  (((List.range 12).map fun i => 12 * f + (start + i) % 12).foldl (fun (p : State × Nat) b =>
    p.1.slewBench b (n % 4) p.2) (s1, 12)).1

/-- Whether a step would change anything. -/
def State.slewDue (s : State) : Bool :=
  s.gtc % 4 = 0 && s.slewed ≠ s.gtc && s.cores.any fun c => 0 < c.2.work || 0 < c.2.rungs

def execSlewStep (s : State) : Host.Outcome State Fault Refusal :=
  if s.gtc % 4 = 0 && s.slewed ≠ s.gtc then .next { ((List.range 8).foldl State.slewField s) with slewed := s.gtc }
  else .next s

/-! ### Throttling (R174, R175) -/

/-- The withholding condition: 64 of the last 256 mc. -/
def Bench.withholding (b : Bench) (gtc : Nat) : Bool := 64 ≤ b.withheld.length && gtc < (b.withheld.getD 63 0) + 256

/-- The conditions of R174 as CAUSE gives them. -/
def State.throttleCause (s : State) (bench : Nat) : Nat :=
  (if popOf (s.strum bench) < 16 then 1 else 0) + (if (s.bench bench).withholding s.gtc then 2 else 0)

/-- The last mc to now at which the withholding condition held, since the newest withholding. -/
def Bench.withheldTo (b : Bench) (gtc : Nat) : Nat :=
  if 64 ≤ b.withheld.length && b.withheld.headD 0 < b.withheld.getD 63 0 + 256 then min gtc (b.withheld.getD 63 0 + 255) else 0

/-- An issue is withheld in this mc: what the older withholdings came to is kept. -/
def Bench.withholds (b : Bench) (gtc : Nat) : Bench :=
  if b.withheld.head? = some gtc then b
  else { b with withheld := (gtc :: b.withheld).take 64, throttleLast := max b.throttleLast (b.withheldTo (gtc - 1)) }

/-- The last mc at which a condition held, where neither holds. -/
def Bench.lastCause (b : Bench) (gtc : Nat) : Nat := max b.throttleLast (b.withheldTo gtc)

/-- The edge that is due: 0 begins, 1 ends. -/
def State.throttleDue (s : State) (bench : Nat) : Option Nat :=
  let b := s.bench bench
  if !b.throttling then (if s.throttleCause bench ≠ 0 then some 0 else none)
  else if s.throttleCause bench = 0 && b.lastCause s.gtc + 4096 ≤ s.gtc then some 1 else none

/-- The group a throttle trap goes to: the lowest-numbered of the block that has not exited and is in no handler.
DEDUCED, log 34. -/
def electGroup (gs : List Group) : Option Group :=
  (gs.filter fun g => !g.ended && !g.arch.handler).foldl (fun a g =>
    match a with
    | some h => if g.ref.gid < h.ref.gid then some g else some h
    | none => some g) none

/-- R175: deliver an edge to a block, or leave it pending; a sleeping group is woken.  Of two edges elected to one group before
it takes the first, the later stands. DESIGN CHOICE, log 125. -/
def State.deliverEdge (s : State) (b : BlockRef) (kind cause : Nat) : State :=
  match electGroup (s.groupsOf b) with
  | some g =>
    s.setGroup { g with throttle := some (kind, cause),
                        wait := match g.wait with | .sleep _ => .ready | w => w }
  | none => s.modBlock b fun x => { x with edgePend := true, edgeKind := kind, edgeCause := cause }

/-- A pending edge when a group of the block executes RTE or starts. -/
def State.deliverPending (s : State) (b : BlockRef) : State :=
  match s.block? b with
  | some x => if x.edgePend then (s.modBlock b fun x => { x with edgePend := false }).deliverEdge b x.edgeKind x.edgeCause else s
  | none => s

def execThrottleEdge (bench : Nat) (s : State) : Host.Outcome State Fault Refusal :=
  match s.throttleDue bench with
  | none => .next s
  | some kind =>
    let cause := if kind = 0 then s.throttleCause bench else (s.bench bench).cause
    let s1 := s.modBench bench fun b => { b with throttling := kind = 0, cause }
    let s2 := s1.record
      { stamp := s.gtc, src := powerSrc (fieldOfBench bench), type := 10, code := (1 - kind) + 2 * cause, data0 := bench }
    let on := s.blocks.filter fun b => b.state = .placed && benchOfCore b.lead = bench &&
      (if kind = 0 then b.armBegin else b.armEnd)
    .next (on.foldl (fun s b => s.deliverEdge b.ref kind (cause + 256 * bench)) s2)

end Sys2Proof.Machine
end

