-- ==== Sys2Proof/Machine/System.lean ====
section
/-!
DEFINITION. Machine/System.lean: the task and system family, MAJ 26 (R120-R124, R132-R135, R150, R176-R184, R430), and how a
closing operation forms its request (R307).
-/

namespace Sys2Proof.Machine

open Sys2Proof

/-! ### Special registers (R176, R177, R131) -/

def n64 (n : Nat) : W64 := BitVec.ofNat 64 n
def flag (b : Bool) (i : Nat) : Nat := if b then 2 ^ i else 0

def Env.benchNo (e : Env) : Nat := benchOfCore e.g.core

/-- Table 7-1. -/
def Env.placeWord (e : Env) : W64 :=
  n64 (flag e.b.kernel.ilk 0 + flag e.b.resumed 1 + flag e.b.fused.isSome 2 + e.b.lead * 2 ^ 8 +
    (match e.b.kernel.span with | 1 => 0 | 2 => 1 | _ => 2) * 2 ^ 17 + (e.s.tcb e.g.ref.task).blocks * 2 ^ 32)

/-- Table 9-5.  PENDEDGE reads 0 while no edge is pending. DESIGN CHOICE, log 126. -/
def Env.specialReg (e : Env) (n : Nat) : W64 :=
  let b := e.s.bench e.benchNo
  match n with
  | 0x00 => e.g.arch.fmode
  | 0x01 => n64 (e.trapBase / 4 * 4 % 2 ^ 56)
  | 0x02 => n64 e.g.arch.vwb
  | 0x03 => n64 e.g.arch.swb
  | 0x04 => n64 (flag e.b.armBegin 0 + flag e.b.armEnd 1 + flag e.b.edgePend 2 + flag (e.b.edgePend && e.b.edgeKind = 1) 3 +
      flag b.throttling 4 + b.cause * 2 ^ 5)
  | 0x05 => n64 ((e.s.strum e.benchNo).toNat + popOf (e.s.strum e.benchNo) * 2 ^ 16 + flag (e.s.strumForced e.benchNo) 21)
  | 0x06 => n64 (e.s.allowNow e.benchNo + b.refillNow * 2 ^ 16)
  | 0x07 => n64 (e.g.arch.stack.length % 2 ^ 16)
  | 0x08 => n64 (e.g.regions.length + e.s.sqUsed e.g.ref * 2 ^ 3 + e.s.sqHwm e.g.core * 2 ^ 15 +
      e.g.squashes % 2 ^ 32 * 2 ^ 32)
  | 0x09 => e.placeWord
  | 0x0A => n64 (e.g.role + flag e.g.arch.handler 2 + (e.s.residents e.g.core).length * 2 ^ 8)
  | _ =>
    if n < 0x80 then 0
    else n64 (leNat (((e.b.kernel.shapes.drop (64 * ((n - 0x80) / 8))).drop (8 * (n % 8))).take 8))

/-- R176: a shape register beyond the table holds an entry with NDIM 0; the slice of the table is short only there. -/
def execSget (x : Ext) :=
  issueExt 26 3 x (uInfo (lenExt x)) fun e => .done (e.setS64 (x.d.toNat - 128) (e.specialReg x.imm8.toNat))

/-- R177: a write of TARMCFG.BEGIN and END; of those of one mc, the higher-numbered group's stands. -/
def Block.arm (b : Block) (gtc gid : Nat) (v : W64) : Block :=
  if b.armLast.any fun l => l.1 = gtc && gid < l.2 then b
  else { b with armBegin := v.getLsbD 0, armEnd := v.getLsbD 1, armLast := some (gtc, gid) }

/-- R177, R179: only FMODE and TARMCFG have fields that SSET writes; FMODE is checkpointed, TARMCFG is block-wide. -/
def execSset (x : Ext) :=
  issueExt 26 4 x (uInfo (lenExt x)) fun e =>
    let v := e.srcU x.lit x.a
    match x.imm8.toNat with
    | 0x00 => .done ((e.setFmode (writeFmode e.g.arch.fmode v)).note 1024)
    | 0x04 => .done { e with b := e.b.arm e.s.gtc e.g.ref.gid v }
    | _ => .done e

/-- R180. -/
def execTarm (x : Ext) :=
  issueExt 26 6 x (uInfo (lenExt x)) fun e =>
    let v := e.srcU x.lit x.a
    let e1 := { e with b := e.b.arm e.s.gtc e.g.ref.gid v }
    .done (e1.setS64 (x.d.toNat - 128) (ofBool64 (e.s.bench e.benchNo).throttling))

/-- R182: a swap candidate that is not ready before its GTC; 0 acts as YIELD. -/
def execSleep (x : Ext) :=
  issueExt 26 7 x (uInfo (lenExt x)) fun e =>
    let n := (e.srcU x.lit x.a).toNat % 2 ^ 32
    .done { e with g := { e.g with wait := if n = 0 then .yield else .sleep (e.s.gtc + n), waitSince := e.s.gtc } }

/-- R183. -/
def execTime (x : Ext) :=
  issueExt 26 8 x (uInfo (lenExt x)) fun e =>
    .done (e.setS64 (x.d.toNat - 128) (if x.imm8 = 0 then e.s.gtc64 else n64 (e.s.effCycles e.benchNo)))

/-- Table 9-7. DEDUCED, log 112. -/
def Env.powerWord (e : Env) : W64 :=
  let f := e.s.field e.field
  n64 (e.s.allowNow e.benchNo + popOf (e.s.strum e.benchNo) * 2 ^ 16 + (e.s.core e.g.core).rungs * 2 ^ 21 +
    flag (e.s.bench e.benchNo).throttling 24 + flag f.tripped 25 + flag f.modTrip 26 + flag f.halved 27 +
    flag e.s.updating 28 + min f.headroom 0xFFFF * 2 ^ 32 + (e.s.strum e.benchNo).toNat * 2 ^ 48)

/-- R181. -/
def execPwrq (x : Ext) :=
  issueExt 26 10 x (uInfo (lenExt x)) fun e => .done (e.setS64 (x.d.toNat - 128) e.powerWord)

/-- R430, R175: the return, and a pending throttle edge of the block. -/
def execRte (x : Ext) :=
  issueExt 26 9 x { len := lenExt x, closing := true } fun e =>
    if !e.g.arch.handler then .trap { code := 1 }
    else e.whenFull [(128 + 377, false)] [] fun e =>
      let e1 := e.setArch e.g.arch.returnFromTrap
      if !e.b.edgePend then .done e1
      else
        let e2 := { e1 with b := { e.b with edgePend := false } }
        match electGroup (e1.g :: (e.s.groupsOf e.b.ref).filter fun h => h.ref ≠ e.g.ref) with
        | none => .done e1
        | some h =>
          let t := some (e.b.edgeKind, e.b.edgeCause)
          if h.ref = e.g.ref then .done { e2 with g := { e2.g with throttle := t } }
          else .done (e2.setS (e2.s.modGroup h.ref fun g => { g with
            throttle := t, wait := match g.wait with | .sleep _ => .ready | w => w }))

/-! ### Closing operations (R307) -/

/-- Hold a request to the commit of the current region, with the register it will fill, if any, marked empty.  `scope` is
that of the release it is (R367), which adds to those of earlier FENCEs; `waiting` an operation of the waiting class. -/
def Env.hold (e : Env) (req : Request) (dst : List Nat) (scope : Option Nat) (waiting : Bool) : Env :=
  let (id, s1) := e.s.fresh
  let after := match scope with | some sc => s1.markAt e.g.relMark sc id | none => e.g.relMark
  let e1 := { e with s := s1 }.modRegion fun r => { r with
    requests := r.requests ++ [({ id, issued := e.s.gtc, addr := e.addr, req, after, acq := e.g.acqBefore } : Held)] }
  let e2 := dst.foldl (fun e c =>
    if c < 128 then (e.setArch (e.g.arch.setV c { e.g.arch.vreg c with pend := some id })).note c
    else if c = 128 then e
    else (e.setArch (e.g.arch.setS (c - 128) { e.g.arch.ureg (c - 128) with pend := some id })).note c) e1
  if waiting then { e2 with g := { e2.g with waiting := e2.g.waiting ++ [id] } } else e2

/-- The same for a request that takes store-queue entries: it waits for room (R311). -/
def Env.holdEntries (e : Env) (req : Request) (dst : List Nat) (scope : Option Nat) : Res :=
  if 2048 < e.s.sqCore e.g.core + req.entries then
    if e.g.ownEntries e.s = 0 then .wait .empty else .waitHead
  else .done (e.hold req dst scope false)

/-- The absolute code of a uniform destination field. -/
def Env.uCode (e : Env) (d : BitVec 10) : Nat := if d.toNat = 128 then 128 else 128 + e.sIdx (d.toNat - 128)

def closeInfo (x : Ext) : IssueInfo := { len := lenExt x, closing := true, mem := true }

/-- R121: the checks of a spawn record. -/
def spawnOk (r : List Byte) : Bool :=
  let sh := recField r 0x14 4
  recField r 0x10 4 = (sh % 65536) * (sh / 65536) && recField r 0x19 1 / 64 = 0 && recField r 0x1A 38 = 0

/-- R121, R122: the record is read and checked at issue; the child is made at the commit. -/
def execSpawn (x : Ext) :=
  issueExt 26 1 x { (closeInfo x) with reads := true } fun e =>
    let va := (e.srcU x.lit x.a).toNat
    if va % 64 ≠ 0 then .trap (accessTrap false false { slot := none, va, n := 64 } (8, 0))
    else
      match e.placeAll false false 64 [{ slot := none, va, n := 64 }] with
      | .error t => .trapAfter t.1 t.2
      | .ok (ps, e) =>
        let r := e.bytesAt false (e.ownQueue false) ((ps.headD none).getD 0) 64
        if e.behindAtom false ps 64 then .wait .empty
        else if !spawnOk r then .trap { code := 27 }
        else
          let (lat, e1) := e.readPath false ps 64
          let e2 := e1.pendResult lat [] (e.poisonOf false ps 64 [va])
          .done (e2.hold (.spawn r (e.uCode x.d)) [e.uCode x.d] (some 4) false)

/-- R123. -/
def execJoin (x : Ext) :=
  issueExt 26 2 x { len := lenExt x, closing := true } fun e =>
    if (e.s.tcb e.g.ref.task).coresident then .trap { code := 28 }
    else .done (e.hold (.join (e.uCode x.d)) [e.uCode x.d] (some 4) true)

/-! ### TFETCH (R132-R135) -/

/-- R132: one refill of a die's stock: the return list first, then one fetch-add of BATCH unless the die has marked the counter
spent. DESIGN CHOICE, log 134: the counter and the return list are device memory at no stated address. -/
def Tcb.refill (t : Tcb) (die batch : Nat) : Tcb :=
  let fromList := t.returned.take batch
  let add := fromList.length < batch && !t.spent.contains die
  let fresh := if add then codes t.counter (min (t.counter + batch) t.tiles - t.counter) else []
  { t with
    returned := t.returned.drop batch, asked := t.asked.filter fun a => a.1 ≠ die,
    stock := tset [] t.stock die (tget [] t.stock die ++ fromList ++ fresh),
    counter := if add then t.counter + batch else t.counter,
    spent := if add && t.tiles ≤ t.counter then die :: t.spent else t.spent }

/-- A refill would yield nothing. -/
def Tcb.dry (t : Tcb) (die : Nat) : Bool := t.returned.isEmpty && t.spent.contains die

/-- A die asks for a refill, which performs at the counter's home slice after the way there. -/
def Tcb.ask (t : Tcb) (task die gtc : Nat) : Tcb :=
  { t with asked := tput t.asked die (gtc + if dieOfTask task = die then Config.latScratch else Config.latScratchDie) }

/-- Take one index of a die's stock; where that leaves less than BATCH, the die asks for a refill. -/
def Tcb.pop (t : Tcb) (task die batch gtc : Nat) : Option Nat × Tcb :=
  match tget [] t.stock die with
  | [] => (none, t)
  | i :: rest =>
    let t1 := { t with stock := tset [] t.stock die rest }
    (some i, if rest.length < batch && (tfind t.asked die).isNone then t1.ask task die gtc else t1)

/-- R134: D of a tile index. -/
def tileWord (xdim : Nat) (t : Int) : W64 :=
  if t < 0 then BitVec.allOnes 64
  else n64 (t.toNat + t.toNat % xdim * 2 ^ 32 + t.toNat / xdim * 2 ^ 48)

/-- The cursor from which a squash would replay a group's TFETCHes. -/
def Group.restartCursor (g : Group) : Nat := match g.regions with | r :: _ => r.ctx.cursor | [] => g.arch.cursor

/-- The tile of the `k`-th TFETCH enters the record, which keeps the last 16 and what a replay may still read (R14, R135).
DEDUCED, log 135. -/
def Block.recTile (b : Block) (k lowest : Nat) (v : Int) : Block :=
  { b with tileRec := tset 0 (b.tileRec.filter fun x => min (k - 15) lowest ≤ x.1) k v, recNext := k + 1 }

/-- R134. DEDUCED, log 135: the window is as the pseudocode has it, over the cursors that uncommitted TFETCHes have moved. -/
def execTfetch (x : Ext) :=
  issueExt 26 0 x (uInfo (lenExt x)) fun e =>
    let k := e.g.arch.cursor
    let others := (e.s.groupsOf e.b.ref).filter fun h => !h.exited && h.ref ≠ e.g.ref
    let task := e.g.ref.task
    let t := e.s.tcb task
    if others.any fun h => h.arch.cursor + 16 ≤ k then .wait .empty
    else if k = e.b.recNext && !e.b.exhausted && (tget [] t.stock e.b.die).isEmpty &&
        (!t.dry e.b.die || (tfind t.asked e.b.die).isSome) then .wait .empty
    else
      let (v, e1) : Int × Env :=
        if k = e.b.recNext then
          let (i, t') : Option Nat × Tcb := if e.b.exhausted then (none, t) else t.pop task e.b.die (e.s.die e.b.die).batch e.s.gtc
          let v : Int := match i with | some i => i | none => -1
          let lowest := (others.map Group.restartCursor).foldl min e.g.restartCursor
          (v, { e with
            s := e.s.setTcb task t',
            b := { (e.b.recTile k lowest v) with exhausted := e.b.exhausted || i.isNone } })
        else (tget 0 e.b.tileRec k, e)
      let (lat, s1) := e1.s.delay Config.latScratch
      .done (((e1.setS s1).setArch { e1.g.arch with cursor := k + 1 }).pendResult lat
        [.u (if x.d.toNat = 128 then 0 else e.sIdx (x.d.toNat - 128)) (tileWord (t.tshape % 65536) v)] none)

/-- The launch holds blocks on the die. -/
def State.blocksOn (s : State) (task die : Nat) : List Block :=
  s.blocks.filter fun b => b.ref.task = task && b.die = die && b.state = .placed

/-- A group waits for an index at a die's empty stock, no refill is on its way, and one would yield something or mark the
counter spent. -/
def State.refillWanted (s : State) (task die : Nat) : Bool :=
  let t := s.tcb task
  (tget [] t.stock die).isEmpty && (tfind t.asked die).isNone && !t.dry die &&
    (s.blocksOn task die).any fun b => !b.exhausted &&
      (s.groupsOf b.ref).any fun g => g.wait = .empty && g.arch.cursor = b.recNext

/-- A refill that a die has asked for performs now. -/
def State.refillDue (s : State) (task die : Nat) : Bool := (tfind (s.tcb task).asked die).any fun t => t ≤ s.gtc

/-- A refill is asked for, or performs; where no block of the launch on the die can take an index any more, it is dropped
(R133). -/
def execDispenserRefill (task die : Nat) (s : State) : Host.Outcome State Fault Refusal :=
  let t := s.tcb task
  if s.refillDue task die then
    .next (s.setTcb task (if (s.blocksOn task die).all (fun b => b.exhausted) then { t with asked := t.asked.filter fun a => a.1 ≠ die }
      else t.refill die (s.die die).batch))
  else if s.refillWanted task die then .next (s.setTcb task (t.ask task die s.gtc))
  else .next s

/-! ### ICINV (R150-R152) -/

/-- Table 8-2. -/
def icinvBound (scope : Nat) : Nat :=
  match scope with
  | 0 => 40
  | 1 => 60
  | 2 => 200
  | 3 => 600
  | _ => 1200

/-- The cores of a scope. -/
def inScope (scope core c : Nat) : Bool :=
  match scope with
  | 0 => c = core
  | 1 => benchOfCore c = benchOfCore core
  | 2 => fieldOfCore c = fieldOfCore core
  | 3 => dieOfCore c = dieOfCore core
  | _ => true

/-- The cores of a scope in a field may no longer read a block; the field's cache loses it too where the scope takes it in. -/
def FetchBlock.lose (scope core : Nat) (b : FetchBlock) : Option FetchBlock :=
  let mine := (codes (48 * b.field) 48).filter fun c => inScope scope core c
  if mine.isEmpty then some b
  else if 2 ≤ scope then none
  else some { b with gone := b.gone ++ mine }

/-- Take the lines that the ranges meet from every core and field cache of the scope, with the failures that the core has
recorded, and those of the whole scope where everything goes. -/
def State.invalidate (s : State) (scope core : Nat) (ranges : Option (List (Nat × Nat))) : State :=
  { s with
    icache := s.icache.filterMap fun b =>
      if ranges.all fun rs => rs.any fun r => b.pa / 64 * 64 < r.2 && r.1 < b.pa / 64 * 64 + 64 then b.lose scope core else some b,
    fetchFails := s.fetchFails.filter fun f => f.core ≠ core && !(ranges.isNone && inScope scope core f.core) }

/-- The physical ranges of the 64-KiB pieces of [a, a + n) that translate for fetch, from the first of `k` on. -/
def icinvPieces (owner core a n : Nat) (s : State) : List Nat → List (Nat × Nat) × State
  | [] => ([], s)
  | i :: is =>
    let lo := max a ((a / 65536 + i) * 65536)
    let hi := min (a + n) ((a / 65536 + i + 1) * 65536)
    match fetchTranslate s (.core core) owner (lo % 2 ^ 64) with
    | .ok (pa, t) =>
      let (rs, u) := icinvPieces owner core a n t is
      ((pa, pa + (hi - lo)) :: rs, u)
    | .error (_, t) => icinvPieces owner core a n t is

def icinvRanges (s : State) (owner core a n : Nat) : List (Nat × Nat) × State :=
  icinvPieces owner core a n s (List.range ((a + n - 1) / 65536 - a / 65536 + 1))

/-- The group's earlier stores, the requests that write like stores, and its copies' writes have performed. -/
def Env.released (e : Env) : Bool :=
  !(e.s.entries.any fun q => q.g = e.g.ref && q.phase < 2) &&
    !((e.s.unperformed e.g).any fun h => !h.req.writes.isEmpty) &&
    !(e.s.copies.any fun c => c.2.live && c.2.g = e.g.ref && c.2.state = .running)

/-- R150: the release step at issue, then the group stalls until the invalidation completes. -/
def execIcinv (x : Ext) :=
  issueExt 26 5 x { len := lenExt x } fun e =>
    if !e.released then .wait .empty
    else
      let a := (e.srcU x.lit x.a).toNat
      let n := (e.srcU x.lit x.b).toNat
      let scope := x.imm8.toNat % 8
      if n = 0 || 2 ^ 32 ≤ n then .done { e with g := { e.g with wait := .icinv (e.s.gtc + icinvBound scope) scope none } }
      else
        let (rs, t) := icinvRanges e.s e.b.owner e.g.core a n
        .done { e with s := t, g := { e.g with wait := .icinv (t.gtc + icinvBound scope) scope (some rs) } }

/-- R151: the invalidation completes and the group may issue again. -/
def execIcinvDone (r : GroupRef) (s : State) : Host.Outcome State Fault Refusal :=
  match s.group? r with
  | some g =>
    match g.wait with
    | .icinv wake scope ranges =>
      if wake ≤ s.gtc then .next ((s.invalidate scope g.core ranges).setGroup { g with wait := .ready }) else .next s
    | _ => .next s
  | none => .next s

/-- R182: the sleeper's GTC has come. -/
def execSleepWake (r : GroupRef) (s : State) : Host.Outcome State Fault Refusal :=
  match s.group? r with
  | some g =>
    match g.wait with
    | .sleep wake => if wake ≤ s.gtc then .next (s.setGroup { g with wait := .ready }) else .next s
    | _ => .next s
  | none => .next s

end Sys2Proof.Machine
end

