-- ==== Sys2Proof/Machine/Special.lean ====
section
/-!
DEFINITION. Machine/Special.lean: division, square root and the special functions (R242, R247, R248), as exact magnitudes
with a sticky part.  The transcendental functions are computed in fixed point with 800 fraction bits, of which 740 are kept;
no argument of a 32-bit format brings a result closer to a rounding boundary than that, the exact cases apart.
-/

namespace Sys2Proof.Machine

open Sys2Proof

/-! ### Quotients and roots -/

/-- Integer square root by bits: the largest r below 2^k with r^2 ≤ n. -/
def isqrtFrom : Nat → Nat → Nat → Nat
  | 0, _, r => r
  | k + 1, n, r => if (r + 2 ^ k) * (r + 2 ^ k) ≤ n then isqrtFrom k n (r + 2 ^ k) else isqrtFrom k n r

def isqrt (n : Nat) : Nat := isqrtFrom (Nat.log2 n / 2 + 1) n 0

/-- m × 2^e / (m' × 2^e'), with at least 64 bits and a sticky part. -/
def quotF (neg : Bool) (m : Nat) (e : Int) (m' : Nat) (e' : Int) : FVal :=
  let k := 70 + Nat.log2 m'
  let n := m * 2 ^ k
  .fin neg (n / m') (e - e' - k) (n % m' ≠ 0)

/-- An even exponent at or below `e`, with the mantissa to match. -/
def evenExp (m : Nat) (e : Int) : Nat × Int := if e % 2 = 0 then (m, e) else (2 * m, e - 1)

def sqrtF (m : Nat) (e : Int) : FVal :=
  let (m, e) := evenExp m e
  let n := m * 2 ^ 140
  let r := isqrt n
  .fin false r (e / 2 - 70) (r * r ≠ n)

def rsqrtF (m : Nat) (e : Int) : FVal :=
  let (m, e) := evenExp m e
  let k := 70 + Nat.log2 m
  let n := 2 ^ (2 * k) / m
  let r := isqrt n
  .fin false r (-(e / 2) - k) (r * r ≠ n || 2 ^ (2 * k) % m ≠ 0)

/-! ### Fixed point -/

def fxOne : Nat := 2 ^ 800
def fxMul (a b : Nat) : Nat := a * b / 2 ^ 800
def fxDiv (a b : Nat) : Nat := a * 2 ^ 800 / b

/-- m × 2^e in fixed point. -/
def fxOf (m : Nat) (e : Int) : Nat := if 0 ≤ e + 800 then m * 2 ^ (e + 800).toNat else m / 2 ^ (-(e + 800)).toNat

/-- A computed magnitude, known to be inexact. -/
def fxVal (neg : Bool) (v : Nat) : FVal := .fin neg (v / 2 ^ 60) (-740) true

/-- A magnitude below every format's range, and one above. -/
def fxTiny (neg : Bool) : FVal := .fin neg 0 (-2000) true
def fxHuge (neg : Bool) : FVal := .fin neg 1 2000 true

/-- The sum of y^k / k! from the term `t` with index `k`. -/
def expSum (y : Nat) : Nat → Nat → Nat → Nat
  | 0, _, _ => 0
  | n + 1, k, t => if t = 0 then 0 else t + expSum y n (k + 1) (fxMul t y / (k + 1))

def squares : Nat → Nat → Nat
  | 0, v => v
  | n + 1, v => squares n (fxMul v v)

/-- e^y for 0 ≤ y < 512. -/
def fxExp (y : Nat) : Nat := squares 12 (expSum (y / 2 ^ 12) 200 0 fxOne)

/-- The sum of t^(2k+1) / (2k+1) from the term `t` with index `k`: the inverse hyperbolic tangent. -/
def atanhSum (t2 : Nat) : Nat → Nat → Nat → Nat
  | 0, _, _ => 0
  | n + 1, k, t => if t = 0 then 0 else t / (2 * k + 1) + atanhSum t2 n (k + 1) (fxMul t t2)

def fxAtanh (t : Nat) : Nat := atanhSum (fxMul t t) 400 0 t

/-- ln 2 = 2 atanh(1/3). -/
def fxLn2 : Nat := 2 * fxAtanh (fxOne / 3)

/-- The arctangent of 1/n, as an alternating sum with index `k` and term `t`. -/
def atanSum (n2 : Nat) : Nat → Nat → Nat → Int
  | 0, _, _ => 0
  | f + 1, k, t =>
    if t = 0 then 0 else (if k % 2 = 0 then (1 : Int) else -1) * (t / (2 * k + 1) : Nat) + atanSum n2 f (k + 1) (t / n2)

/-- π by Machin's formula. -/
def fxPi : Nat := (16 * atanSum 25 400 0 (fxOne / 5) - 4 * atanSum 57121 400 0 (fxOne / 239)).toNat

/-- The sum of (-1)^k y^(2k+1) / (2k+1)!. -/
def sinSum (y2 : Nat) : Nat → Nat → Nat → Int
  | 0, _, _ => 0
  | n + 1, k, t =>
    if t = 0 then 0
    else (if k % 2 = 0 then (1 : Int) else -1) * (t : Int) + sinSum y2 n (k + 1) (fxMul t y2 / ((2 * k + 2) * (2 * k + 3)))

/-- sin y for 0 ≤ y ≤ π/2. -/
def fxSin (y : Nat) : Nat := (sinSum (fxMul y y) 200 0 y).toNat

/-- The sum of 2^n z^(2n+1) / (1 × 3 × … × (2n+1)). -/
def erfSum (z2 : Nat) : Nat → Nat → Nat → Nat
  | 0, _, _ => 0
  | f + 1, n, t => if t = 0 then 0 else t + erfSum z2 f (n + 1) (2 * fxMul t z2 / (2 * n + 3))

/-- erf z for 0 ≤ z ≤ 21.5: 2 / √π × e^(-z^2) × the sum. -/
def fxErf (z : Nat) : Nat :=
  let z2 := fxMul z z
  fxDiv (2 * erfSum z2 2000 0 z) (fxMul (isqrt (fxPi * 2 ^ 800)) (fxExp z2))

/-- The logistic function of ±y: e^y / (1 + e^y) or 1 / (1 + e^y), for 0 < y < 512. -/
def fxSigm (neg : Bool) (y : Nat) : Nat :=
  let d := fxOne + fxExp y
  let small := fxDiv fxOne d
  if neg then small else fxOne - small

/-! ### Table 12-3 and the functions of a finite non-zero argument -/

/-- The magnitude |x| = m × 2^e is at least n. -/
def atLeast (m : Nat) (e : Int) (n : Nat) : Bool :=
  if 0 ≤ e then n ≤ m * 2 ^ e.toNat else n * 2 ^ (-e).toNat ≤ m

/-- Whether ± m × 2^e is an integer. -/
def isInteger (m : Nat) (e : Int) : Bool := 0 ≤ e || m % 2 ^ (-e).toNat = 0

/-- sin(πt) for 0 < t < 1 given as t × 2^-h in units: 1 at the middle. -/
def sinUnit (neg : Bool) (t h : Nat) : FVal :=
  let t := min t (2 ^ h - t)
  if 2 * t = 2 ^ h then .fin neg 1 0 false
  else fxVal neg (fxSin (fxMul fxPi (fxOf t (-(h : Int)))))

/-- sin(πx). -/
def sinpiF (neg : Bool) (m : Nat) (e : Int) : FVal :=
  if isInteger m e then .fin neg 0 0 false
  else
    let h := (-e).toNat
    let r := m % 2 ^ (h + 1)
    sinUnit (neg != (2 ^ h ≤ r)) (r % 2 ^ h) h

/-- cos(πx). -/
def cospiF (m : Nat) (e : Int) : FVal :=
  if isInteger m e then
    let odd := if 0 < e then false else (m / 2 ^ (-e).toNat) % 2 = 1
    .fin odd 1 0 false
  else
    let h := (-e).toNat
    let r := m % 2 ^ (h + 1)
    let r := if 2 ^ h < r then 2 ^ (h + 1) - r else r
    let neg := 2 ^ h < 2 * r
    let r := if neg then 2 ^ h - r else r
    if 2 * r = 2 ^ h then .fin false 0 0 false
    else sinUnit neg (2 ^ h - 2 * r) (h + 1)

def log2F (m : Nat) (e : Int) : FVal :=
  let l := Nat.log2 m
  let k : Int := e + l
  if m = 2 ^ l then .fin (k < 0) k.natAbs 0 false
  else
    let y := fxOf m (-(l : Int))
    let v : Int := k * (fxOne : Int) + (fxDiv (2 * fxAtanh (fxDiv (y - fxOne) (y + fxOne))) fxLn2 : Nat)
    fxVal (v < 0) v.natAbs

def exp2F (neg : Bool) (m : Nat) (e : Int) : FVal :=
  if atLeast m e 500 then (if neg then fxTiny false else fxHuge false)
  else if isInteger m e then
    let k : Int := (if 0 ≤ e then m * 2 ^ e.toNat else m / 2 ^ (-e).toNat : Nat)
    .fin false 1 (if neg then -k else k) false
  else
    let v := fxExp (fxMul (fxOf m e) fxLn2)
    fxVal false (if neg then fxDiv fxOne v else v)

def expF (neg : Bool) (m : Nat) (e : Int) : FVal :=
  if atLeast m e 500 then (if neg then fxTiny false else fxHuge false)
  else
    let v := fxExp (fxOf m e)
    fxVal false (if neg then fxDiv fxOne v else v)

def tanhF (neg : Bool) (m : Nat) (e : Int) : FVal :=
  if atLeast m e 200 then fxVal neg (fxOne - 1)
  else
    let v := fxExp (2 * fxOf m e)
    fxVal neg (min (fxOne - 1) (fxDiv (v - fxOne) (v + fxOne)))

def erfF (neg : Bool) (m : Nat) (e : Int) : FVal :=
  if atLeast m e 21 then fxVal neg (fxOne - 1) else fxVal neg (min (fxOne - 1) (fxErf (fxOf m e)))

def sigmF (neg : Bool) (m : Nat) (e : Int) : FVal :=
  if atLeast m e 500 then (if neg then fxTiny false else fxVal false (fxOne - 1))
  else fxVal false (min (fxOne - 1) (fxSigm neg (fxOf m e)))

/-- x times a factor below 1, for a positive x; the product stays below x. -/
def fxScale (x f : Nat) : Nat := min (x - 1) (fxMul x f)

def siluF (neg : Bool) (m : Nat) (e : Int) : FVal :=
  let x := fxOf m e
  if atLeast m e 500 then (if neg then fxTiny true else .fin false (m * 2 ^ 700 - 1) (e - 700) true)
  else if neg then fxVal true (fxMul x (fxSigm true x)) else fxVal false (fxScale x (fxSigm false x))

def geluF (neg : Bool) (m : Nat) (e : Int) : FVal :=
  if atLeast m e 29 then (if neg then fxTiny true else .fin false (m * 2 ^ 700 - 1) (e - 700) true)
  else
    let x := fxOf m e
    let r := fxErf (fxMul x (isqrt (fxOne / 2 * fxOne)))
    if neg then fxVal true (fxMul x (fxOne - r) / 2) else fxVal false (min (x - 1) ((x + fxMul x r) / 2))

/-- R247, R248: the special functions FN 10 to 22 of a value that is not a NaN. DEDUCED, log 111. -/
def specialF (fn : Nat) (v : FVal) : FVal × Exc :=
  let nv : FVal × Exc := (invalid, excNone)
  let one : FVal := .fin false 1 0 false
  let zero (n : Bool) : FVal := .fin n 0 0 false
  match v with
  | .nan s => (.nan s, excNone)
  | .inf n =>
    match fn with
    | 10 | 11 | 12 | 15 =>
      if fn = 11 then (zero n, excNone)
      else if n then nv
      else if fn = 12 then (zero false, excNone) else (.inf false, excNone)
    | 13 | 14 => (if n then zero false else .inf false, excNone)
    | 16 | 17 => nv
    | 18 | 22 => (.fin n 1 0 false, excNone)
    | 19 => (if n then zero false else one, excNone)
    | _ => (if n then zero true else .inf false, excNone)
  | .fin n m e _ =>
    if m = 0 then
      match fn with
      | 10 => (zero n, excNone)
      | 11 | 12 => (.inf n, excDz)
      | 13 | 14 | 17 => (one, excNone)
      | 15 => (.inf true, excDz)
      | 19 => (.fin false 1 (-1) false, excNone)
      | 20 | 21 => (zero n, excNone)
      | _ => (zero n, excNone)
    else
      match fn with
      | 10 => if n then nv else (sqrtF m e, excNone)
      | 11 => (quotF n 1 0 m e, excNone)
      | 12 => if n then nv else (rsqrtF m e, excNone)
      | 13 => (expF n m e, excNone)
      | 14 => (exp2F n m e, excNone)
      | 15 => if n then nv else (log2F m e, excNone)
      | 16 => (sinpiF n m e, excNone)
      | 17 => (cospiF m e, excNone)
      | 18 => (tanhF n m e, excNone)
      | 19 => (sigmF n m e, excNone)
      | 20 => (geluF n m e, excNone)
      | 21 => (siluF n m e, excNone)
      | _ => (erfF n m e, excNone)

/-- R242: division. -/
def divF (a b : FVal) : FVal × Exc :=
  match a, b with
  | .inf _, .inf _ => (invalid, excNone)
  | .inf n, v => (.inf (n != v.sign), excNone)
  | v, .inf n => (.fin (v.sign != n) 0 0 false, excNone)
  | .fin n m e _, .fin n' m' e' _ =>
    if m' = 0 then (if m = 0 then (invalid, excNone) else (.inf (n != n'), excDz))
    else if m = 0 then (.fin (n != n') 0 0 false, excNone)
    else (quotF (n != n') m e m' e', excNone)
  | _, _ => (invalid, excNone)

end Sys2Proof.Machine
end

