-- ==== Sys2Proof/Machine/VectorFloat.lean ====
section
/-!
DEFINITION. Machine/VectorFloat.lean: the vector float family, MAJ 6 and 18 (R239-R251).
-/

namespace Sys2Proof.Machine

open Sys2Proof

/-- The format of a scalar instruction (R240). -/
def scalarSpec (imm : Nat) : FSpec :=
  match imm % 4 with
  | 0 => specOf 0
  | 1 => specOf 2
  | _ => specOf 1

/-- The type of an operand position of a format (R60). -/
def posOf (f : FSpec) : Pos :=
  match f.code with
  | 0 => .flt .f32
  | 1 => .flt .bf16
  | 2 => .flt .f16
  | _ => .flt (.small f)

/-- R54: N and X on the low bits of a value of a format. -/
def modBits (f : FSpec) (n x : Bool) (v : Nat) : Nat :=
  let v := v % 2 ^ f.width
  let v := if x then v % f.signBit else v
  if n then (v + f.signBit) % 2 ^ f.width else v

/-! ### Results of one element (R242-R245) -/

/-- The result of an operation on values that may be NaNs. -/
def arith (l : List FVal) (r : Option FVal) : FVal :=
  match nanOf l with
  | some v => v
  | none => r.getD invalid

def addV (m : FMode) (f : FSpec) (a b : Nat) : Nat × Exc :=
  let l := [readDaz f (m.daz f) a, readDaz f (m.daz f) b]
  deliver f m.rm false (m.ftz f) (arith l (sumF m.rm l))

def subV (m : FMode) (f : FSpec) (a b : Nat) : Nat × Exc :=
  let x := readDaz f (m.daz f) a
  let y := readDaz f (m.daz f) b
  deliver f m.rm false (m.ftz f) (arith [x, y] (sumF m.rm [x, y.neg]))

def mulV (m : FMode) (f : FSpec) (a b : Nat) : Nat × Exc :=
  let x := readDaz f (m.daz f) a
  let y := readDaz f (m.daz f) b
  deliver f m.rm false (m.ftz f) (arith [x, y] (mulF x y))

/-- R242, R246: a sum of products and an addend, rounded once; 0 × ∞, and infinities of opposite sign among the products
and the addend, raise invalid even beside a quiet NaN. -/
def dotV (m : FMode) (f : FSpec) (ps : List (Nat × Nat)) (c : Nat) : Nat × Exc :=
  let rd := readDaz f (m.daz f)
  let prods := ps.map fun p => mulF (rd p.1) (rd p.2)
  let ops := rd c :: ps.flatMap fun p => [rd p.1, rd p.2]
  let zeroInf := ps.any fun p => !(rd p.1).isNan && !(rd p.2).isNan && (mulF (rd p.1) (rd p.2)).isNone
  let infs := (rd c :: prods.filterMap id).filter FVal.isInf
  let v := if zeroInf || (sumF m.rm infs).isNone then invalid
    else match nanOf ops with
      | some v => v
      | none => (sumF m.rm ((prods.map fun p => p.getD invalid) ++ [rd c])).getD invalid
  deliver f m.rm false (m.ftz f) v

def fmaV (m : FMode) (f : FSpec) (a b c : Nat) : Nat × Exc := dotV m f [(a, b)] c

/-- R242: minimumNumber and maximumNumber; the chosen operand's bits unchanged, but for DAZ and FTZ. -/
def minMaxV (max : Bool) (m : FMode) (f : FSpec) (a b : Nat) : Nat × Exc :=
  let ca := flushIn f (m.daz f) (a % 2 ^ f.width)
  let cb := flushIn f (m.daz f) (b % 2 ^ f.width)
  let x := readF f ca
  let y := readF f cb
  let sig := if x.isSig || y.isSig then excNv else excNone
  if x.isNan && y.isNan then (f.nan, sig)
  else
    let less := cmpF x y < 0 || (cmpF x y = 0 && x.sign && !y.sign)
    let pick := if x.isNan then cb else if y.isNan then ca else if less != max then ca else cb
    if m.ftz f && isSubnormal f pick then (pick / f.signBit * f.signBit, sig ||| excUf ||| excNx) else (pick, sig)

/-- Table 12-2. -/
def fcmpV (cc : Nat) (m : FMode) (f : FSpec) (a b : Nat) : Bool × Exc :=
  let x := readDaz f (m.daz f) a
  let y := readDaz f (m.daz f) b
  let un := x.isNan || y.isNan
  let sig := x.isSig || y.isSig
  let c := cmpF x y
  let holds := match cc with
    | 0 => !un && c = 0
    | 1 => un || c ≠ 0
    | 2 => !un && c < 0
    | 3 => !un && c ≤ 0
    | 4 => !un && 0 < c
    | 5 => !un && 0 ≤ c
    | 6 => un
    | _ => !un
  let inv := if 2 ≤ cc && cc ≤ 5 then un else sig
  (holds, if inv then excNv else excNone)

/-- R244. -/
def fclassV (f : FSpec) (a : Nat) : Nat :=
  let a := a % 2 ^ f.width
  match readF f a with
  | .nan s => if s then 2 ^ 8 else 2 ^ 9
  | .inf n => if n then 1 else 2 ^ 7
  | .fin n m _ _ =>
    if m = 0 then (if n then 2 ^ 3 else 2 ^ 4)
    else if isSubnormal f a then (if n then 2 ^ 2 else 2 ^ 5)
    else if n then 2 else 2 ^ 6

/-- R245: FRND. -/
def frndV (nx : Bool) (m : FMode) (f : FSpec) (a : Nat) : Nat × Exc :=
  match readDaz f (m.daz f) a with
  | .nan s => deliver f m.rm false false (.nan s)
  | .inf n => deliver f m.rm false false (.inf n)
  | .fin n mm e st =>
    let (k, x) := roundAt m.rm n mm e st 0
    if 0 ≤ e then deliver f m.rm false false (.fin n mm e st)
    else ((deliver f m.rm false false (.fin n k 0 false)).1, if nx && x then excNx else excNone)

/-- R245: FLDEXP; beyond ±600 every exponent overflows or vanishes alike. -/
def fldexpV (m : FMode) (f : FSpec) (a : Nat) (n : W32) : Nat × Exc :=
  deliver f m.rm false (m.ftz f)
    (match readDaz f (m.daz f) a with
     | .fin s mm e st => if mm = 0 then .fin s 0 0 st else .fin s mm (e + clampInt (-600) 600 n.toInt) st
     | v => v)

/-- R245: FFRAC. -/
def ffracV (m : FMode) (f : FSpec) (a : Nat) : Nat × Exc :=
  deliver f m.rm false (m.ftz f)
    (match readDaz f (m.daz f) a with
     | .inf n => .fin n 0 0 false
     | .fin n mm e st => if 0 ≤ e then .fin n 0 0 false else .fin n (mm % 2 ^ (-e).toNat) e st
     | v => v)

def fdivV (m : FMode) (f : FSpec) (a b : Nat) : Nat × Exc :=
  let x := readDaz f (m.daz f) a
  let y := readDaz f (m.daz f) b
  let q := divF x y
  match nanOf [x, y] with
  | some v => deliver f m.rm false (m.ftz f) v
  | none =>
    let r := deliver f m.rm false (m.ftz f) q.1
    (r.1, r.2 ||| q.2)

/-- R247: a special function's result with overflow and underflow judged on the value delivered. DEDUCED, log 121. -/
def deliverJudged (f : FSpec) (mode : Nat) (ftz : Bool) (v : FVal) : Nat × Exc :=
  let d := deliver f mode false false v
  let mag := d.1 % f.signBit
  let inexact := d.2 &&& excNx ≠ 0
  if v.isNan || v.isInf || v.isZero then d
  else if f.infCode ≤ mag then (d.1, excOf ||| excNx)
  else if mag < 2 ^ f.mb then
    if ftz then (d.1 - mag, excUf ||| excNx) else (d.1, if inexact then excUf ||| excNx else excNone)
  else (d.1, if inexact then excNx else excNone)

/-- R247: FSQRT rounds by the mode in force; the others round to nearest in the 16-bit formats and are faithful in FP32. -/
def specialV (fn : Nat) (m : FMode) (f : FSpec) (a : Nat) : Nat × Exc :=
  let r := specialF fn (readDaz f (m.daz f) a)
  let d := if fn = 10 then deliver f m.rm false (m.ftz f) r.1
    else deliverJudged f (if f.code = 0 then (if Config.faithfulUp fn (a % 2 ^ 32) then 3 else 4) else 1) (m.ftz f) r.1
  (d.1, d.2 ||| r.2)

/-! ### Issue -/

/-- Mask of exceptions and results of the 32 slots, computed once. -/
def Env.finishV (e : Env) (x : Ext) (half : Nat) (rs : List (W32 × Exc)) : Res :=
  let r (i : Nat) := rs.getD i (0, excNone)
  match fpOutcome e.g.arch.fmode (e.active x) (fun i => (r i).2) (max half e.half) with
  | .error t => .trap t
  | .ok w => .done ((e.writeV x x.d.toNat (.ofSlots fun i => (r i).1)).setFmode w)

def Env.fmodeFor (e : Env) (rm : BitVec 3) : FMode := fmodeOf e.g.arch.fmode rm

def w32 (n : Nat) : W32 := BitVec.ofNat 32 n

/-- A floating-point instruction from three 32-bit sources with their position types and modifiers. -/
def floatOp (fn : Nat) (x : Ext) (len : Nat) (f : FSpec) (pb pc : Option Pos)
    (op : FMode → Nat → Nat → Nat → Nat × Exc) : State → Host.Outcome State Fault Refusal :=
  issueExt 18 fn x (uInfo len) fun e =>
    let m := e.fmodeFor x.rm
    let a := e.src32 (posOf f) x.lit x.a
    let b := e.src32 (pb.getD (posOf f)) x.lit x.b
    let c := e.src32 (pc.getD (posOf f)) x.lit x.c
    e.finishV x 0 (slots.map fun i =>
      let av := modBits f x.na x.xa (a.slot i).toNat
      let bv := if pb.isSome then (b.slot i).toNat else modBits f x.nb x.xb (b.slot i).toNat
      let cv := if pc.isSome then (c.slot i).toNat else modBits f x.nc x.xc (c.slot i).toNat
      let r := op m av bv cv
      (w32 r.1, r.2))

/-- A scalar instruction in the format of IMM8. -/
def scalarOp (fn : Nat) (x : Ext) (len : Nat) (op : FMode → FSpec → Nat → Nat → Nat → Nat × Exc) :=
  let f := scalarSpec x.imm8.toNat
  floatOp fn x len f none none fun m a b c => op m f a b c

/-- A packed instruction: both halves in FMODE.H16's format (R251). -/
def packedOp (fn : Nat) (x : Ext) (len : Nat) (op : FMode → FSpec → Nat → Nat → Nat → Nat × Exc) :
    State → Host.Outcome State Fault Refusal :=
  issueExt 18 fn x (uInfo len) fun e =>
    let m := e.fmodeFor x.rm
    let f := specOf (if m.bf then 1 else 2)
    let a := e.src32 (.packed m.bf) x.lit x.a
    let b := e.src32 (.packed m.bf) x.lit x.b
    let c := e.src32 (.packed m.bf) x.lit x.c
    let half (v : W32) (j : Nat) (n z : Bool) : Nat := modBits f n z (v.toNat / 2 ^ (16 * j))
    e.finishV x 0 (slots.map fun i =>
      let at' (j : Nat) := op m f (half (a.slot i) j x.na x.xa) (half (b.slot i) j x.nb x.xb) (half (c.slot i) j x.nc x.xc)
      let lo := at' 0
      let hi := at' 1
      (w32 (lo.1 + hi.1 * 2 ^ 16), lo.2 ||| hi.2))

def faddEl : FMode → FSpec → Nat → Nat → Nat → Nat × Exc := fun m f a b _ => addV m f a b
def fsubEl : FMode → FSpec → Nat → Nat → Nat → Nat × Exc := fun m f a b _ => subV m f a b
def fmulEl : FMode → FSpec → Nat → Nat → Nat → Nat × Exc := fun m f a b _ => mulV m f a b
def ffmaEl : FMode → FSpec → Nat → Nat → Nat → Nat × Exc := fun m f a b c => fmaV m f a b c
def fminEl : FMode → FSpec → Nat → Nat → Nat → Nat × Exc := fun m f a b _ => minMaxV false m f a b
def fmaxEl : FMode → FSpec → Nat → Nat → Nat → Nat × Exc := fun m f a b _ => minMaxV true m f a b
def fclassEl : FMode → FSpec → Nat → Nat → Nat → Nat × Exc := fun _ f a _ _ => (fclassV f a, excNone)
def fdivEl : FMode → FSpec → Nat → Nat → Nat → Nat × Exc := fun m f a b _ => fdivV m f a b
def ffracEl : FMode → FSpec → Nat → Nat → Nat → Nat × Exc := fun m f a _ _ => ffracV m f a
def spEl (fn : Nat) : FMode → FSpec → Nat → Nat → Nat → Nat × Exc := fun m f a _ _ => specialV fn m f a

def execFadd (x : Ext) := scalarOp 0 x (lenExt x) faddEl
def execFaddBase (f : BaseF) := scalarOp 0 (.ofBase 18 0 f) (lenBase f) faddEl
def execFsub (x : Ext) := scalarOp 1 x (lenExt x) fsubEl
def execFsubBase (f : BaseF) := scalarOp 1 (.ofBase 18 1 f) (lenBase f) fsubEl
def execFmul (x : Ext) := scalarOp 2 x (lenExt x) fmulEl
def execFmulBase (f : BaseF) := scalarOp 2 (.ofBase 18 2 f) (lenBase f) fmulEl
def execFfma (x : Ext) := scalarOp 3 x (lenExt x) ffmaEl
def execFfmaBase (f : BaseF) := scalarOp 3 (.ofBase 18 3 f) (lenBase f) ffmaEl
def execFmin (x : Ext) := scalarOp 4 x (lenExt x) fminEl
def execFminBase (f : BaseF) := scalarOp 4 (.ofBase 18 4 f) (lenBase f) fminEl
def execFmax (x : Ext) := scalarOp 5 x (lenExt x) fmaxEl
def execFmaxBase (f : BaseF) := scalarOp 5 (.ofBase 18 5 f) (lenBase f) fmaxEl
def execFclass (x : Ext) := scalarOp 7 x (lenExt x) fclassEl
def execFclassBase (f : BaseF) := scalarOp 7 (.ofBase 18 7 f) (lenBase f) fclassEl
def execFdiv (x : Ext) := scalarOp 9 x (lenExt x) fdivEl
def execFdivBase (f : BaseF) := scalarOp 9 (.ofBase 18 9 f) (lenBase f) fdivEl
def execFsqrt (x : Ext) := scalarOp 10 x (lenExt x) (spEl 10)
def execFsqrtBase (f : BaseF) := scalarOp 10 (.ofBase 18 10 f) (lenBase f) (spEl 10)
def execFrcp (x : Ext) := scalarOp 11 x (lenExt x) (spEl 11)
def execFrcpBase (f : BaseF) := scalarOp 11 (.ofBase 18 11 f) (lenBase f) (spEl 11)
def execFrsq (x : Ext) := scalarOp 12 x (lenExt x) (spEl 12)
def execFrsqBase (f : BaseF) := scalarOp 12 (.ofBase 18 12 f) (lenBase f) (spEl 12)
def execFexp (x : Ext) := scalarOp 13 x (lenExt x) (spEl 13)
def execFexpBase (f : BaseF) := scalarOp 13 (.ofBase 18 13 f) (lenBase f) (spEl 13)
def execFexp2 (x : Ext) := scalarOp 14 x (lenExt x) (spEl 14)
def execFexp2Base (f : BaseF) := scalarOp 14 (.ofBase 18 14 f) (lenBase f) (spEl 14)
def execFlog2 (x : Ext) := scalarOp 15 x (lenExt x) (spEl 15)
def execFlog2Base (f : BaseF) := scalarOp 15 (.ofBase 18 15 f) (lenBase f) (spEl 15)
def execFsinpi (x : Ext) := scalarOp 16 x (lenExt x) (spEl 16)
def execFsinpiBase (f : BaseF) := scalarOp 16 (.ofBase 18 16 f) (lenBase f) (spEl 16)
def execFcospi (x : Ext) := scalarOp 17 x (lenExt x) (spEl 17)
def execFcospiBase (f : BaseF) := scalarOp 17 (.ofBase 18 17 f) (lenBase f) (spEl 17)
def execFtanh (x : Ext) := scalarOp 18 x (lenExt x) (spEl 18)
def execFtanhBase (f : BaseF) := scalarOp 18 (.ofBase 18 18 f) (lenBase f) (spEl 18)
def execFsigm (x : Ext) := scalarOp 19 x (lenExt x) (spEl 19)
def execFsigmBase (f : BaseF) := scalarOp 19 (.ofBase 18 19 f) (lenBase f) (spEl 19)
def execFgelu (x : Ext) := scalarOp 20 x (lenExt x) (spEl 20)
def execFgeluBase (f : BaseF) := scalarOp 20 (.ofBase 18 20 f) (lenBase f) (spEl 20)
def execFsilu (x : Ext) := scalarOp 21 x (lenExt x) (spEl 21)
def execFsiluBase (f : BaseF) := scalarOp 21 (.ofBase 18 21 f) (lenBase f) (spEl 21)
def execFerf (x : Ext) := scalarOp 22 x (lenExt x) (spEl 22)
def execFerfBase (f : BaseF) := scalarOp 22 (.ofBase 18 22 f) (lenBase f) (spEl 22)
def execFfrac (x : Ext) := scalarOp 24 x (lenExt x) ffracEl
def execFfracBase (f : BaseF) := scalarOp 24 (.ofBase 18 24 f) (lenBase f) ffracEl
def execHadd2 (x : Ext) := packedOp 31 x (lenExt x) faddEl
def execHadd2Base (f : BaseF) := packedOp 31 (.ofBase 18 31 f) (lenBase f) faddEl
def execHmul2 (x : Ext) := packedOp 32 x (lenExt x) fmulEl
def execHmul2Base (f : BaseF) := packedOp 32 (.ofBase 18 32 f) (lenBase f) fmulEl
def execHfma2 (x : Ext) := packedOp 33 x (lenExt x) ffmaEl
def execHfma2Base (f : BaseF) := packedOp 33 (.ofBase 18 33 f) (lenBase f) ffmaEl
def execHmin2 (x : Ext) := packedOp 34 x (lenExt x) fminEl
def execHmin2Base (f : BaseF) := packedOp 34 (.ofBase 18 34 f) (lenBase f) fminEl
def execHmax2 (x : Ext) := packedOp 35 x (lenExt x) fmaxEl
def execHmax2Base (f : BaseF) := packedOp 35 (.ofBase 18 35 f) (lenBase f) fmaxEl

def frndOp (x : Ext) (len : Nat) := scalarOp 8 x len fun m f a _ _ => frndV (x.imm8.getLsbD 2) m f a
def execFrnd (x : Ext) := frndOp x (lenExt x)
def execFrndBase (f : BaseF) := frndOp (.ofBase 18 8 f) (lenBase f)

def fldexpOp (x : Ext) (len : Nat) :=
  let f := scalarSpec x.imm8.toNat
  floatOp 23 x len f (some .int) none fun m a b _ => fldexpV m f a (w32 b)
def execFldexp (x : Ext) := fldexpOp x (lenExt x)
def execFldexpBase (f : BaseF) := fldexpOp (.ofBase 18 23 f) (lenBase f)

/-- R243. -/
def execFcmp (x : Ext) :=
  issueExt 18 6 x (uInfo (lenExt x)) fun e =>
    let m := e.fmodeFor 0
    let f := scalarSpec x.imm8.toNat
    let a := e.src32 (posOf f) x.lit x.a
    let b := e.src32 (posOf f) x.lit x.b
    let rs := slots.map fun i =>
      fcmpV (x.imm8.toNat / 4 % 8) m f (modBits f x.na x.xa (a.slot i).toNat) (modBits f x.nb x.xb (b.slot i).toNat)
    let r (i : Nat) := rs.getD i (false, excNone)
    match fpOutcome e.g.arch.fmode (e.active x) (fun i => (r i).2) e.half with
    | .error t => .trap t
    | .ok w => .done (((e.writeK x (x.d.toNat - 512) fun i => (r i).1).setFmode w).withPasses 8)

/-! ### Conversions (R249, R250) -/

/-- The range of an integer format (R226). -/
def intRange (code : Nat) : Int × Int :=
  match code with
  | 8 => (-128, 127)
  | 9 => (-8, 7)
  | 12 => (-(2 ^ 31), 2 ^ 31 - 1)
  | _ => (0, 2 ^ 32 - 1)

/-- The value of an integer element. -/
def intElem (code : Nat) (a : Nat) : Int :=
  let sgn (w : Nat) : Int := let v := a % 2 ^ w; if 2 ^ (w - 1) ≤ v then (v : Int) - 2 ^ w else v
  match code with
  | 8 => sgn 8
  | 9 => sgn 4
  | 12 => sgn 32
  | _ => (a % 2 ^ 32 : Nat)

/-- A conversion between floating-point formats, DAZ by the source and FTZ by the destination; SAT replaces nothing where
the two are the same, and an infinity takes Table 11-4's row for a wider format too. DEDUCED, log 141. -/
def cvtV (m : FMode) (sat : Bool) (dst src : FSpec) (a : Nat) : Nat × Exc :=
  deliver dst m.rm (sat && dst ≠ src) (m.ftz dst) (readDaz src (m.daz src) a)

def execFcvt (x : Ext) :=
  let dst := specOf (x.imm8.toNat % 16)
  let src := specOf (x.imm8.toNat / 16)
  floatOp 25 x (lenExt x) src none none fun m a _ _ => cvtV m x.sat dst src a

def execFcvti (x : Ext) :=
  let dst := intRange (x.imm8.toNat % 16)
  let src := specOf (x.imm8.toNat / 16)
  floatOp 26 x (lenExt x) src none none fun m a _ _ =>
    let r := deliverInt dst.1 dst.2 m.rm (readDaz src (m.daz src) a)
    ((r.1 % 2 ^ 32).toNat, r.2)

/-- Issue an instruction whose A is read as raw bits. -/
def rawOp (fn : Nat) (x : Ext) (op : FMode → Nat → Nat × Exc) : State → Host.Outcome State Fault Refusal :=
  issueExt 18 fn x (uInfo (lenExt x)) fun e =>
    let m := e.fmodeFor x.rm
    let a := e.src32 .int x.lit x.a
    e.finishV x 0 (slots.map fun i => let r := op m (a.slot i).toNat; (w32 r.1, r.2))

def execIcvtf (x : Ext) :=
  let dst := specOf (x.imm8.toNat % 16)
  rawOp 27 x fun m a =>
    let v := intElem (x.imm8.toNat / 16) a
    deliver dst m.rm x.sat (m.ftz dst) (.fin (v < 0) v.natAbs 0 false)

/-- R250. -/
def execFpack (x : Ext) :=
  let dst := specOf (x.imm8.toNat % 16)
  let j := x.imm8.toNat / 16 % 8
  floatOp 28 x (lenExt x) (specOf 0) none (some .int) fun m a b c =>
    let lo := cvtV m x.sat dst (specOf 0) a
    let hi := cvtV m x.sat dst (specOf 0) b
    let p := 2 ^ (2 * dst.width * j)
    let w := 2 ^ (2 * dst.width)
    ((c - c / p % w * p) + (lo.1 + hi.1 * 2 ^ dst.width) * p, lo.2 ||| hi.2)

def execFunpk (x : Ext) :=
  let src := specOf (x.imm8.toNat % 16)
  rawOp 29 x fun m a => deliver (specOf 0) 1 false false
    (readDaz src (m.daz src) (a / 2 ^ (src.width * (x.imm8.toNat / 16))))

/-- R246: element 1 of a constant is +0. -/
def dotOp (x : Ext) (len : Nat) : State → Host.Outcome State Fault Refusal :=
  issueExt 18 30 x (uInfo len) fun e =>
    let m := e.fmodeFor x.rm
    let f := specOf 0
    let src (code : BitVec 10) : VVal × VVal :=
      if codeIsConst code.toNat then (.u (constBits (.flt .f32) code.toNat), .u 0) else e.src64 x.lit code
    let a := src x.a
    let b := src x.b
    let c := e.src32 (.flt .f32) x.lit x.c
    e.finishV x 0 (slots.map fun i =>
      let av (v : VVal) := modBits f x.na x.xa (v.slot i).toNat
      let bv (v : VVal) := modBits f x.nb x.xb (v.slot i).toNat
      let r := dotV m f [(av a.1, bv b.1), (av a.2, bv b.2)] (modBits f x.nc x.xc (c.slot i).toNat)
      (w32 r.1, r.2))

def execFdot2 (x : Ext) := dotOp x (lenExt x)
def execFdot2Base (f : BaseF) := dotOp (.ofBase 18 30 f) (lenBase f)

end Sys2Proof.Machine
end

