-- ==== Sys2Proof/Machine/Perform.lean ====
section
/-!
DEFINITION. Machine/Perform.lean: how effects perform outside the core: a write at its location and what it wakes (R311,
R386, R86), the results that return to a group (R308), atomics (R383), locks (R388), barriers (R393), courses (R399) and
promotion records (R370).
-/

namespace Sys2Proof.Machine

open Sys2Proof

/-! ### Results that return (R307, R308) -/

/-- The owner of a group's block. -/
def State.ownerOf (s : State) (r : GroupRef) : Nat := match s.block? (blockOf r) with | some b => b.owner | none => 0

/-- A result on its way to a group, `lat` mc away, with its path cells and its tags. -/
def State.answerVia (s : State) (r : GroupRef) (id lat : Nat) (cells : List CellRef) (tags : List Tag) (vals : List RegVal)
    (fault : Option Trap) : State :=
  { s with fills := s.fills ++
      [{ id, g := r, region := 0, closing := true, due := s.gtc + lat, vals, fault, cells, tags }] }

/-- The tag of data from the home of an address to a field, which has `lat` mc to go; none within the die (R315). -/
def State.tagsFrom (s : State) (field lat pa : Nat) : List Tag :=
  if (scratchLatency s field pa).2 = 0 then [] else [s.tagAt (s.gtc + lat) (paModule pa)]

/-- A reply from the home slices of some addresses to a group; one that is a result or a completion carries the cells of its
return routes and its tags (R310, R315).  Where no slice has taken part it comes from the core. DESIGN CHOICE, log 143. -/
def State.answerFrom (s : State) (r : GroupRef) (id : Nat) (pas : List Nat) (back : Bool) (vals : List RegVal)
    (fault : Option Trap) : State :=
  match s.group? r with
  | none => s
  | some g =>
    let f := fieldOfCore g.core
    let lat := if pas.isEmpty then Config.latBench else (pas.map fun pa => (scratchLatency s f pa).1 / 2).foldl max 0
    if back then s.answerVia r id lat (pas.flatMap fun pa => pathCells s f pa) (pas.flatMap (s.tagsFrom f lat)) vals fault
    else s.answerVia r id lat [] [] vals fault

/-- A result, or a completion, from the home slice of an address. -/
def State.answer (s : State) (r : GroupRef) (id pa : Nat) (vals : List RegVal) (fault : Option Trap) : State :=
  s.answerFrom r id [pa] true vals fault

/-- The end of an operation without a result (Table 15-2). -/
def State.acknowledge (s : State) (r : GroupRef) (id pa : Nat) : State := s.answerFrom r id [pa] false [] none

/-- A completion from inside the bench. -/
def State.answerBench (s : State) (r : GroupRef) (id : Nat) : State := s.answerVia r id Config.latBench [] [] [] none

def uVal (dst : Nat) (v : Nat) : List RegVal := [.u dst (BitVec.ofNat 64 v)]

/-- The absolute uniform register of a destination code (`Env.uCode`). -/
def uDst (code : Nat) : Nat := code - 128

/-! ### Compares (Table 5-5) -/

def cmpSigned (wide : Bool) (a : Nat) : Int := if wide then (BitVec.ofNat 64 a).toInt else (BitVec.ofNat 32 a).toInt

def compare55 (op : Nat) (wide : Bool) (a b : Nat) : Bool :=
  match op with
  | 0 => a = b
  | 1 => a ≠ b
  | 2 => a < b
  | 3 => b ≤ a
  | 4 => cmpSigned wide a < cmpSigned wide b
  | 5 => cmpSigned wide b ≤ cmpSigned wide a
  | 6 => true
  | _ => false

def maskedCompare (op : Nat) (wide : Bool) (v ref mask : Nat) : Bool :=
  let w := if wide then 2 ^ 64 else 2 ^ 32
  compare55 op wide ((v &&& mask) % w) ((ref &&& mask) % w)

def State.valueAt (s : State) (key : Option KeyVal) (pa n : Nat) : Nat := leNat (s.readBytes key pa n)

/-! ### Monitors (R386) -/

def Monitor.holds (m : Monitor) (s : State) : Bool :=
  maskedCompare m.cc m.wide (s.valueAt (some (s.keyAt m.owner m.pa)) m.pa (if m.wide then 8 else 4)) m.ref.toNat m.mask.toNat

/-- The monitor ends with an outcome: its entry is freed and the outcome returns. -/
def State.endMonitor (s : State) (m : Monitor) (outcome : Nat) : State :=
  { s with monitors := s.monitors.filter fun n => n.id ≠ m.id }.answer m.g m.id m.pa (uVal (uDst m.dst) outcome) none

/-- Evaluate a monitor whose sector has been written. -/
def State.evalMonitor (s : State) (m : Monitor) : State :=
  if m.holds s then s.endMonitor m 0
  else { s with monitors := s.monitors.map fun n => if n.id = m.id then { n with dirty := false } else n }

/-- Evaluate every monitor of a sector that a write has left to be evaluated. -/
def State.settleSector (s : State) (sec : Nat) : State :=
  (s.monitors.filter fun m => m.dirty && m.pa / 64 = sec).foldl State.evalMonitor s

/-! ### A write performs (R360, R421) -/

def Watch.holdsNow (w : Watch) (s : State) (owner : Nat) : Bool :=
  maskedCompare w.cc true (s.valueAt (some (s.keyAt owner w.pa)) w.pa 8) w.ref w.mask

/-- Re-evaluate the standing WAIT of a queue on a sector, which a host address polls instead (R86). -/
def Queue.rewatch (q : Queue) (s : State) (sec : Nat) : Queue :=
  { q with inflight := q.inflight.map fun p =>
      match p.watch with
      | some w => if w.pa / 64 = sec && paClass w.pa = 0 && w.holdsNow s (q.ownerNow.getD q.owner) then { p with watch := some { w with met := true } }
                  else p
      | none => p }

/-- Bytes of one 64-byte sector perform under a key: monitors still to be evaluated go first, then the bytes land, a whole
sector loses its poison, the sector's monitors and WAITs have something to evaluate, and a promotion record whose word they
change names its write no more (R371). -/
def State.performWrite (s : State) (key : Option KeyVal) (ws : List (Nat × Byte)) : State :=
  match ws with
  | [] => s
  | w :: _ =>
    let sec := w.1 / 64
    let s1 := s.settleSector sec
    let s2 := ws.foldl (fun s w => s.writeByte key w.1 w.2) s1
    let s3 := if ws.length = 64 then s2.unpoison (64 * sec) 64 else s2
    { s3 with
      promos := s3.promos.filter fun r => !(ws.any fun w => r.pa ≤ w.1 && w.1 < r.pa + r.bytes),
      monitors := s3.monitors.map fun m => if m.pa / 64 = sec then { m with dirty := true } else m,
      queues := if s3.queues.any fun q => q.2.inflight.any fun p => p.watch.isSome
        then s3.queues.map fun q => (q.1, q.2.rewatch s3 sec) else s3.queues }

/-- Bytes at a physical address perform, sector by sector. -/
def State.performBytes (s : State) (key : Option KeyVal) (pa : Nat) (bs : List Byte) : State :=
  (gather (bs.zipIdx.map fun b => (pa + b.2, b.1))).foldl (fun s c =>
    s.performWrite key (c.2.map fun b => (64 * c.1 + b.1, b.2))) s

/-! ### Atomics (R383) -/

def f32Bits (v : Option FVal) : Nat :=
  match v with
  | none => 0x7FC00000
  | some v => (deliver (specOf 0) 1 false false v).1

/-- A floating-point mode that rounds to nearest even and honours subnormals; `bf` selects BF16. -/
def rneMode (bf : Bool) : FMode := { rm := 1, daz32 := false, ftz32 := false, daz16 := false, ftz16 := false, bf }

/-- The operations of Table 19-3, of `w` bits. -/
def atomNew (op w old b c : Nat) : Nat :=
  let sg (x : Nat) : Int := (BitVec.ofNat w x).toInt
  let m := rneMode true
  match op with
  | 0 => (old + b) % 2 ^ w
  | 1 => if sg old ≤ sg b then old else b
  | 2 => if sg b ≤ sg old then old else b
  | 3 => min old b
  | 4 => max old b
  | 5 => old &&& b
  | 6 => old ||| b
  | 7 => old ^^^ b
  | 8 => b
  | 9 => if old = b then c else old
  | 10 => (addV m (specOf 0) old b).1
  | 11 => (minMaxV false m (specOf 0) old b).1
  | 12 => (minMaxV true m (specOf 0) old b).1
  | _ => (addV m (specOf 1) old b).1 + 65536 * (addV m (specOf 1) (old / 65536) (b / 65536)).1

/-- Take the elements of a list in an order chosen anew (R362). -/
def shuffle {α : Type} (draw : Nat) : Nat → List α → List α
  | 0, l => l
  | n + 1, l =>
    if l.length ≤ 1 then l
    else
      let i := Config.pick draw l.length % l.length
      (l[i]?).toList ++ shuffle (draw + 1) n (l.eraseIdx i)

/-- A lane of an atomic: its slot, its physical and virtual address, B and C. -/
abbrev AtomLane := Option Nat × Nat × W64 × W64 × W64

/-- One step at its home slice: the old value, or none from a poisoned sector, which the step leaves alone (R421).
DEDUCED, log 36. -/
def State.atomStep (s : State) (owner op w : Nat) (l : AtomLane) : Option Nat × State :=
  let (_, pa, _, b, c) := l
  if s.poisonAt pa (w / 8) then (none, s)
  else
    let key := some (s.keyAt owner pa)
    let old := s.valueAt key pa (w / 8)
    (some old, s.performBytes key pa (leBytes (w / 8) (atomNew op w old (b.toNat % 2 ^ w) (c.toNat % 2 ^ w))))

/-- The lanes in turn, with what each found. -/
def State.atomSteps (s : State) (owner op w : Nat) : List AtomLane → List (AtomLane × Option Nat) × State
  | [] => ([], s)
  | l :: ls =>
    let (old, s1) := s.atomStep owner op w l
    let (rest, s2) := s1.atomSteps owner op w ls
    ((l, old) :: rest, s2)

/-- What D receives: per slot tagged G, other slots kept; in group mode the one value. -/
def atomVals (g : Group) (wide slotsMode : Bool) (dst : Nat) (olds : List (AtomLane × Option Nat)) : List RegVal :=
  if slotsMode then
    (List.range (if wide then 2 else 1)).map fun j => .v (dst + j) (.ofSlots fun i =>
      match olds.find? fun o => o.1.1 = some i with
      | some (_, some v) => BitVec.ofNat 32 (v / 2 ^ (32 * j))
      | _ => (g.arch.vreg (dst + j)).val.slot i)
  else match olds with
    | (_, some v) :: _ => uVal (uDst dst) v
    | _ => uVal (uDst dst) (g.arch.ureg (uDst dst)).val.toNat

/-- The writes before a record's drain position have performed: the group's queue entries and requests, and, since releases are
cumulative (R368, R371), what others had released when the release performed. DESIGN CHOICE, log 55. -/
def State.promoDone (s : State) (p : PromoRec) : Bool :=
  !(s.entries.any fun q => q.phase < 2 && (if q.g = p.g then q.id < p.before else q.released && q.relAt ≤ p.seen)) &&
    !(s.pendings.any fun q => (if q.g = p.g then q.id < p.before else q.commit ≤ p.seen) && !q.req.writes.isEmpty)

def sameSlice (a b : Nat) : Bool := homeSlice a = homeSlice b && paDie a = paDie b && paModule a = paModule b

/-- R370: keep a promotion record.  Where a slice has 64, it asks for the acknowledgement of its oldest, which stands until its
writes have performed and is then discarded. -/
def State.promote (s : State) (r : PromoRec) : State :=
  let old := s.promos.filter fun p => !(p.pa = r.pa && p.owner = r.owner) && !(p.retiring && s.promoDone p)
  let live (p : PromoRec) : Bool := !p.retiring && sameSlice p.pa r.pa
  let kept := if (old.filter live).length < 64 then old
    else match old.find? live with
      | some p => old.map fun q => if q = p then { q with retiring := true } else q
      | none => old
  { s with promos := kept ++ [r] }

/-! ### Locks (R387-R389) -/

/-- Hand a lock on: to the head of its FIFO, whose QLOCK completes, or to nobody. -/
def State.handOn (s : State) (l : Lock) : State :=
  let rest := s.locks.filter fun k => !(k.owner = l.owner && k.pa = l.pa)
  match l.fifo with
  | [] => { s with locks := rest }
  | (id, g) :: fifo => { s with locks := { l with holder := g, fifo } :: rest }.answer g id l.pa [] none

def State.lockAt (s : State) (owner pa : Nat) : Option Lock := s.locks.find? fun l => l.owner = owner && l.pa = pa

/-- LOCK_OWNER as a refusal returns it (R388). -/
def lockOwner (site va unlock : Nat) : Trap :=
  { code := 21, addr := BitVec.ofNat 64 va, cause0 := BitVec.ofNat 64 unlock, site := some site }

/-! ### Barriers (R393, R394, R396) -/

/-- R394: the groups that "all" counts. -/
def liveGroups (gs : List Group) : Nat := (gs.filter fun g => !g.exited).length

/-- The generation after one, of 32 bits. -/
def nextGen (gen : Nat) : Nat := (gen + 1) % 2 ^ 32

/-- The release check: the barrier, the waits it completes, and the generation released; a wait stands while its target is the
generation to come. DEDUCED, log 52. -/
def Barrier.check (b : Barrier) (all : Nat) : Barrier × List (Nat × GroupRef × Nat) × Option Nat :=
  if 0 < b.tally && (if b.count = 0 then all else b.count) ≤ b.tally then
    let gen := nextGen b.gen
    ({ gen, tally := 0, count := 0, waits := b.waits.filter fun w => w.2.2 = nextGen gen },
      b.waits.filter fun w => w.2.2 ≠ nextGen gen, some gen)
  else (b, [], none)

def Barrier.arrive (b : Barrier) (count : Nat) : Barrier :=
  { b with tally := b.tally + 1, count := if b.tally = 0 then count else b.count }

/-- R173: at the next step the starting bench is the one of the generation released.  Of two releases before one step the later
stands. DESIGN CHOICE, log 148. -/
def Field.slewAfter (f : Field) (gtc gen : Nat) : Field :=
  let n := gtc / 4 + 1
  { f.slewTo (gtc / 4) with slewNext := some ((7 * gen + 12 - n % 12) % 12, n) }

def State.slewFrom (s : State) (fields : List Nat) (gen : Nat) : State :=
  fields.foldl (fun s f => s.modField f fun x => x.slewAfter s.gtc gen) s

/-- Where a barrier stands: of a block, by id, or of a launch. -/
inductive BarrierAt where
  | block (b : BlockRef) (id : Nat)
  | launch (task : Nat)
  deriving DecidableEq, Repr

def State.barrier (s : State) : BarrierAt → Barrier
  | .block b id => match s.block? b with | some x => tget {} x.barriers id | none => {}
  | .launch t => (s.tcb t).lbar

def State.setBarrier (s : State) (x : Barrier) : BarrierAt → State
  | .block b id => s.modBlock b fun y => { y with barriers := tset {} y.barriers id x }
  | .launch t => s.setTcb t { (s.tcb t) with lbar := x }

/-- The groups a barrier's "all" counts, and the fields its release touches. -/
def State.barrierGroups (s : State) : BarrierAt → Nat
  | .block b _ => liveGroups (s.groupsOf b)
  | .launch t => liveGroups (s.groups.filter fun g => g.ref.task = t)
def State.barrierFields (s : State) : BarrierAt → List Nat
  | .block b _ => match s.block? b with | some x => [fieldOfCore x.lead] | none => []
  | .launch t => ((s.blocks.filter fun b => b.ref.task = t && b.state = .placed).map fun b => fieldOfCore b.lead).eraseDups

/-- The end of a barrier operation, a completion where it has waited: inside the bench, or from the home slice of the task's
TCB. -/
def State.answerBarrier (s : State) (a : BarrierAt) (id : Nat) (r : GroupRef) (waited : Bool) : State :=
  match a with
  | .block _ _ => s.answerBench r id
  | .launch t => s.answerFrom r id [s.tcbPa t] waited [] none

def State.checkBarrier (s : State) (a : BarrierAt) : State :=
  let (b, ends, gen) := (s.barrier a).check (s.barrierGroups a)
  match gen with
  | none => s
  | some n => ends.foldl (fun s w => s.answerBarrier a w.1 w.2.1 true) ((s.setBarrier b a).slewFrom (s.barrierFields a) n)

def Group.token (g : Group) : BarrierAt → Option Nat
  | .block _ id => tget none g.tokens id
  | .launch _ => g.lbarToken
def Group.setToken (g : Group) (t : Option Nat) : BarrierAt → Group
  | .block _ id => { g with tokens := tset none g.tokens id t }
  | .launch _ => { g with lbarToken := t }

/-- A BAR or LBAR performs: 0 arrives and waits, 1 arrives, 2 waits. -/
def State.performBarrier (s : State) (a : BarrierAt) (r : GroupRef) (id form count : Nat) : State :=
  let s1 := if form = 2 then s
    else
      let b := s.barrier a
      ((s.setBarrier (b.arrive count) a).modGroup r fun g => g.setToken (some b.gen) a).checkBarrier a
  if form = 1 then s1.answerBarrier a id r false
  else
    let b := s1.barrier a
    let target := match (s1.group? r).bind fun g => g.token a with
      | some t => nextGen t
      | none => nextGen b.gen
    let s2 := s1.modGroup r fun g => g.setToken none a
    if target ≠ nextGen b.gen then s2.answerBarrier a id r true
    else s2.setBarrier { b with waits := b.waits ++ [(id, r, target)] } a

/-! ### Courses (R397-R402) -/

/-- A byte of a block's bench memory as performed. -/
def Block.benchByte (b : Block) (o : Nat) : Nat := (tget 0 b.bench o).toNat
def Block.setBenchByte (b : Block) (o v : Nat) : Block := { b with bench := tset 0 b.bench o (BitVec.ofNat 8 v) }

/-- CSARV (`bit` 0) or CSREL (`bit` 1) on a stage: count down, and at zero flip the phase and start again. -/
def Block.courseStep (b : Block) (off stage bit : Nat) : Block :=
  let o := off + 16 + 8 * stage
  let n := (b.benchByte (o + bit) + 255) % 256
  if n = 0 then
    (b.setBenchByte (o + 2) (b.benchByte (o + 2) ^^^ 2 ^ bit)).setBenchByte (o + bit) (b.benchByte (off + 1 + bit))
  else b.setBenchByte (o + bit) n

/-- The header bytes of a course pass the checks of R397; the reserved bytes are 4 to 15. -/
def courseHeaderOk (h : List Nat) : Bool :=
  h.getD 3 0 = 0xC5 && 2 ≤ h.getD 0 0 && h.getD 0 0 ≤ 16 && 1 ≤ h.getD 1 0 && 1 ≤ h.getD 2 0 && (h.drop 4).all (· = 0)

/-! ### Release and readiness of requests (R307, R343, R363, R369, R380) -/

/-- A physical address at the home slice of a name (R336), which has no address of its own. -/
def caHomePa (s : State) (n : Nat) : Nat :=
  let h := n / 256 % 192
  s.domid * 2 ^ 48 + h / 96 * 2 ^ 37 + 256 * (h % 96)

/-- The physical addresses whose home slices serve a request; none inside the bench. -/
def State.homesOf (s : State) (r : GroupRef) : Request → List Nat
  | .atom _ _ _ _ lanes _ _ => lanes.map fun l => l.2.1
  | .waitc _ pa _ _ _ _ _ _ _ | .qlock _ pa _ | .qunlk _ pa _ | .caswap _ pa _ _ _ => [pa]
  | .lbar _ _ | .join _ => [s.tcbPa r.task]
  | .caput _ _ h _ _ => [caHomePa s (256 * h)]
  | .caref n | .carel n => [caHomePa s n.toNat]
  | .spawn .. => [match s.group? r with | some g => (s.die (dieOfCore g.core)).tcbPool | none => 0]
  | _ => []

/-- A home serves a group from the group's own die. -/
def State.nearBy (s : State) (r : GroupRef) (pa : Nat) : Bool :=
  match s.group? r with
  | some g => (scratchLatency s (fieldOfCore g.core) pa).2 = 0
  | none => true

/-- The mc from release to performance: 24 at the own die (R380), the tag's hold across a link (R315). -/
def State.homeDelay (s : State) (r : GroupRef) (pa : Nat) : Nat :=
  match s.group? r with
  | some g =>
    let h := (scratchLatency s (fieldOfCore g.core) pa).2
    if h = 0 then 24 else s.qwin + h
  | none => 24
def State.sendDelays (s : State) (r : GroupRef) (q : Request) : List Nat :=
  let homes := s.homesOf r q
  if homes.isEmpty then [Config.latBench] else homes.map (s.homeDelay r)

def leastOf : List Nat → Option Nat
  | [] => none
  | n :: ns => some (ns.foldl min n)

/-- The request is sent now. -/
def State.sendNow (s : State) (p : Pending) : Pending :=
  let dues := (s.sendDelays p.g p.req).map fun d => s.gtc + d
  { p with dues, due := leastOf dues }

/-- CAPUT, CASWAP, CAREF and CAREL keep their order within a group (R343). -/
def Request.isCa : Request → Bool
  | .caput .. | .caswap .. | .caref _ | .carel _ => true
  | _ => false

/-- An earlier content-addressed request of the group has not performed. -/
def State.behindCa (s : State) (p : Pending) : Bool :=
  p.req.isCa && s.pendings.any fun o => o.g = p.g && o.id < p.id && o.req.isCa

/-- The order of keys: number by number. -/
def keysLt : List Nat → List Nat → Bool
  | [], _ => false
  | _ :: _, [] => false
  | a :: as, b :: bs => a < b || (a = b && keysLt as bs)

/-- Send every released request that no longer waits for an acknowledgement (R369), for the reads of an acquire before it (R367)
or for an earlier content-addressed request (R343). -/
def State.sendReady (s : State) : State :=
  { s with pendings := s.pendings.map fun p =>
      if p.due.isNone && !(s.behindCa p) && !(s.unacked p.g (match s.group? p.g with | some g => g.core | none => 0) p.after) &&
        !(s.acquiring p.g p.acq) then s.sendNow p else p }

/-- Two writes have one destination, at which a group's writes keep their order: a home slice, or one core's part of the
block's bench memory (R311, R364). -/
def sameDest (a b : Bool × Nat) : Bool :=
  a.1 = b.1 &&
    (if a.1 then a.2 / 524288 = b.2 / 524288
     else paModule a.2 = paModule b.2 && paDie a.2 = paDie b.2 && homeSlice a.2 = homeSlice b.2)

/-- A write of a group, older than `id`, to the destination of a place has still to perform. -/
def State.writeBefore (s : State) (g : GroupRef) (id : Nat) (w : Bool × Nat) : Bool :=
  (s.entries.any fun q => q.g = g && q.id < id && q.phase < 2 && sameDest (q.bench, q.pa) w) ||
    (s.pendings.any fun o => o.g = g && o.id < id && o.req.writes.any fun v => sameDest v w)

/-- The places that a request reads or writes. -/
def Request.places : Request → List (Bool × Nat)
  | .waitc _ pa .. => [(false, pa)]
  | r => r.writes

/-- The locations on which requests are ordered, in 8-byte words, or names by their home (R380, R343). -/
def State.cellsOf (s : State) (r : GroupRef) : Request → List (Bool × Nat)
  | .atom _ _ _ _ lanes _ _ => lanes.map fun l => (false, l.2.1 / 8)
  | .waitc _ pa .. | .qlock _ pa _ | .qunlk _ pa _ | .caswap _ pa .. => [(false, pa / 8)]
  | .lbar .. => [(false, s.tcbPa r.task / 8)]
  | .caput _ _ h .. => [(true, h)]
  | .caref n | .carel n => [(true, n.toNat / 256)]
  | _ => []
def State.cellPa (s : State) (c : Bool × Nat) : Nat := if c.1 then caHomePa s (256 * c.2) else 8 * c.2

/-- R380: the place in the order of own-die requests: the commit, the GTC of issue, the issuing core's source number, $gid. -/
def State.commitKey (s : State) (p : Pending) : List Nat :=
  [p.commit, p.issued, match s.group? p.g with | some g => coreSrc g.core | none => 0, p.g.gid, p.id]

/-- A request holds no other back: it waits for room at its slice (R379), or for what others have released (R368).
DEDUCED, log 50. -/
def State.yields (s : State) (p : Pending) : Bool :=
  let core := match s.group? p.g with | some g => g.core | none => 0
  p.waited || (p.due.isNone && (s.unackedOthers p.g core p.after ||
    (s.entries.any fun q => q.g = p.g && q.id < p.id && s.unackedOthers p.g core q.fence) ||
    (s.pendings.any fun q => q.g = p.g && q.id < p.id && q.due.isNone && s.unackedOthers p.g core q.after)))

/-- A request of the own die stands before another on a location (R380). -/
def State.behindKey (s : State) (p : Pending) (c : Bool × Nat) : Bool :=
  s.nearBy p.g (s.cellPa c) && s.pendings.any fun o =>
    keysLt (s.commitKey o) (s.commitKey p) && (s.cellsOf o.g o.req).contains c && s.nearBy o.g (s.cellPa c) && !(s.yields o)

/-- A lane of an ATOM may perform. -/
def State.laneReady (s : State) (p : Pending) (l : AtomLane × Nat) : Bool :=
  l.2 ≤ s.gtc && !(s.writeBefore p.g p.id (false, l.1.2.1)) && !(s.behindKey p (false, l.1.2.1 / 8))

/-- A request may perform now, or a lane of it: its GTC has come, and its group's earlier writes to its destinations (R311, R363),
earlier content-addressed requests (R343) and the requests before it (R380) have performed. -/
def State.mayPerform (s : State) (p : Pending) : Bool :=
  (p.due.any fun d => d ≤ s.gtc) &&
    (match p.req with
     | .atom _ _ _ _ lanes _ _ => lanes.isEmpty || (lanes.zip p.dues).any (s.laneReady p)
     | _ => !(p.req.places.any fun w => s.writeBefore p.g p.id w) && !(s.behindCa p) &&
         !((s.cellsOf p.g p.req).any (s.behindKey p)))

def State.pending? (s : State) (id : Nat) : Option Pending := s.pendings.find? fun p => p.id = id
def State.setPending (s : State) (p : Pending) : State :=
  { s with pendings := s.pendings.map fun q => if q.id = p.id then p else q }
def State.dropPending (s : State) (id : Nat) : State := { s with pendings := s.pendings.filter fun p => p.id ≠ id }

/-! ### The overflow area (R379) -/

/-- The entries in use of a die of this module. -/
def State.ovfUsed (s : State) (die : Nat) : Nat :=
  let mine (ovf : Bool) (pa : Nat) : Bool := ovf && paDie pa = die && paModule pa = s.domid
  (s.monitors.filter fun m => mine m.ovf m.pa).length + (s.locks.filter fun l => mine l.ovf l.pa).length

/-- Room for a monitor entry (64 a slice) or a lock entry (256): on chip (some false), in the overflow area (some true), or
none.  Another module's area is taken to have room. DEDUCED, log 53. -/
def State.syncRoom (s : State) (lock : Bool) (pa : Nat) : Option Bool :=
  let used := if lock then (s.locks.filter fun l => !l.ovf && sameSlice l.pa pa).length
    else (s.monitors.filter fun m => !m.ovf && sameSlice m.pa pa).length
  if used < (if lock then 256 else 64) then some false
  else if paModule pa ≠ s.domid || s.ovfUsed (paDie pa) < (s.die (paDie pa)).ovfSize * 2048 then some true
  else none

/-- A request that finds the area full waits at the slice and is counted once. DEDUCED, log 53. -/
def State.syncWait (s : State) (p : Pending) : State :=
  if p.waited then s
  else
    let die := paDie ((s.homesOf p.g p.req).headD 0)
    let s1 : State := { s with pendings := s.pendings.map fun (q : Pending) => if q.id = p.id then { q with waited := true } else q }
    s1.setDie die
      { (s.die die) with ovfWaits := ((s.die die).ovfWaits + 1) % 2 ^ 32 }

end Sys2Proof.Machine
end

