-- ==== Sys2Proof/Machine/Sync.lean ====
section
/-!
DEFINITION. Machine/Sync.lean: the synchronisation family, MAJ 24 (R381-R401), and the events in which its requests perform
at the sync units and in the bench.
-/

namespace Sys2Proof.Machine

open Sys2Proof

/-! ### Addresses -/

/-- The checks of a sync access (R384), which is read and, where it is an atomic's or a lock's, written. -/
def Env.placeSync (e : Env) (write : Bool) (a : Access) : Except (Trap × State) (Nat × Env) :=
  let bad (x : Nat × Nat) (s : State) : Except (Trap × State) (Nat × Env) := .error (accessTrap write false a x, s)
  if a.va % a.n ≠ 0 then bad (8, 0) e.s
  else
    match placeScr e.s (.core e.g.core) e.b.owner true write a.va with
    | .error x => bad x.1 x.2
    | .ok (pa, s') => if e.locked true false a.va a.n then bad (14, 0) s' else .ok (pa, e.setS s')

def Env.placeSyncAll (e : Env) (write : Bool) : List Access → Except (Trap × State) (List Nat × Env)
  | [] => .ok ([], e)
  | a :: as =>
    match e.placeSync write a with
    | .error t => .error t
    | .ok (p, e1) =>
      match e1.placeSyncAll write as with
      | .error t => .error t
      | .ok (ps, e2) => .ok (p :: ps, e2)

/-! ### ATOM (R382-R384) -/

/-- An operand of ATOM at slot `i`: constants of the floating-point operations take their format (R60). -/
def Env.atomArg (e : Env) (x : Ext) (code : BitVec 10) (i : Nat) : W64 :=
  let op := x.imm8.toNat % 16
  let c := code.toNat
  if 10 ≤ op && 576 ≤ c && c < 704 then zext64 (constBits (if op = 13 then .packed true else .flt .f32) c)
  else if codeIsS x.d.toNat then e.srcU x.lit code
  else if x.sat then slot64 (e.src64 x.lit code) i
  else zext64 ((e.src32 .int x.lit code).slot i)

def execAtom (x : Ext) :=
  let ret := x.imm8.getLsbD 7
  issue { len := lenExt x, closing := ret, mem := true, reads := true } fun e =>
    match usage 24 0 x with
    | none => .trap { code := 1 }
    | some u =>
      e.whenFull (srcCodes u x) (if ret then dstCodes u x else []) fun e =>
        let grp := codeIsS x.d.toNat
        let w := if x.sat then 8 else 4
        let on : List Nat := if grp then [0] else slots.filter fun i => e.active x i
        let slotOf (i : Nat) : Option Nat := if grp then none else some i
        match e.placeSyncAll true (on.map fun i => { slot := slotOf i, va := e.baseAt x i, n := w }) with
        | .error t => .trapAfter t.1 t.2
        | .ok (pas, e) =>
          let lanes : List AtomLane := (on.zip pas).map fun p =>
            (slotOf p.1, p.2, BitVec.ofNat 64 (e.baseAt x p.1), e.atomArg x x.b p.1, e.atomArg x x.c p.1)
          let dst := if grp then e.uCode x.d else e.vIdx x.d.toNat
          let regs := if !ret then [] else if grp then [dst] else codes dst (w / 4)
          (if ret && !grp then e.withPasses 8 else e).holdEntries (.atom (x.imm8.toNat % 16) x.sat (x.imm8.toNat / 16 % 8) ret lanes
            (if ret then some dst else none) (!grp)) regs (if ret then some (x.imm8.toNat / 16 % 8) else none)

/-- The lanes of an ATOM have performed: the next region's result, or POISON from a poisoned sector (R421), from every home slice
that served one (R310), and a promotion record (R370). -/
def State.atomDone (s : State) (p : Pending) (wide ret slotsMode : Bool) (scope dst : Nat)
    (olds : List (AtomLane × Option Nat)) : State :=
  match s.group? p.g with
  | none => s
  | some g =>
    let bad := olds.find? fun o => o.2.isNone
    let fault : Option Trap := bad.map fun o => { code := 30, addr := o.1.2.2.1, cause0 := 1, site := some p.addr }
    let pas := olds.map fun o => o.1.2.1
    if !ret then (if fault.isSome then s.answerFrom p.g p.id pas true [] fault else s)
    else
      let s1 := if scope < 4 then olds.foldl (fun s o =>
          s.promote { pa := o.1.2.1, owner := s.ownerOf p.g, core := g.core, g := p.g, before := p.id, unlock := false, seen := s.gtc,
                      bytes := if wide then 8 else 4 }) s
        else s
      s1.answerFrom p.g p.id pas true (atomVals g wide slotsMode dst olds) fault

/-- The lanes that may perform do, those of one location in an order chosen anew (R362, R380); behind the last of them comes the
answer. DEDUCED, log 50. -/
def execAtomicPerform (id : Nat) (s : State) : Host.Outcome State Fault Refusal :=
  match s.pending? id with
  | some p =>
    match p.req with
    | .atom op wide scope ret lanes dst slotsMode =>
      if !s.mayPerform p then .next s
      else
        let due := lanes.zip p.dues
        let now := (due.filter (s.laneReady p)).map fun l => l.1
        let rest := due.filter fun l => !s.laneReady p l
        let (olds, s1) := s.atomSteps (s.ownerOf p.g) op (if wide then 64 else 32) (shuffle s.freeCtr now.length now)
        let got := p.got ++ olds
        if rest.isEmpty then .next ((s1.dropPending id).atomDone p wide ret slotsMode scope (dst.getD 0) got).sendReady
        else
          let dues := rest.map fun l => l.2
          .next (s1.setPending { p with
            req := .atom op wide scope ret (rest.map fun l => l.1) dst slotsMode, dues, due := leastOf dues, got }).sendReady
    | _ => .next s
  | none => .next s

/-! ### WAITC (R385, R386) -/

def execWaitc (x : Ext) :=
  issueExt 24 1 x { (closeInfo x) with reads := true } fun e =>
    e.whenFull (if x.e = 0 then [] else [(x.e.toNat, false)]) [] fun e =>
      let wide := x.imm8.getLsbD 3
      let timeout := if x.e = 0 then 0 else (e.srcU x.lit x.e).toNat % 2 ^ 32
      if x.imm8.toNat % 8 = 7 && timeout = 0 then .trap { code := 2, cause1 := 78 }
      else
        let va := (e.srcU x.lit x.a).toNat
        match e.placeSync false { slot := none, va, n := if wide then 8 else 4 } with
        | .error t => .trapAfter t.1 t.2
        | .ok (pa, e) =>
          let scope := x.imm8.toNat / 16 % 8
          .done (e.hold (.waitc va pa (x.imm8.toNat % 8) wide scope (e.srcU x.lit x.b) (e.srcU x.lit x.c) timeout (e.uCode x.d))
            [e.uCode x.d] (some scope) true)

/-- It takes a monitor entry and evaluates for the first time. -/
def execWaitcPerform (id : Nat) (s : State) : Host.Outcome State Fault Refusal :=
  match s.pending? id with
  | some p =>
    match p.req with
    | .waitc va pa cc wide _ ref mask timeout dst =>
      if !s.mayPerform p then .next s
      else
        match s.syncRoom false pa with
        | none => .next (s.syncWait p)
        | some ovf =>
          let s1 := (s.dropPending id).settleSector (pa / 64)
          let m : Monitor := { id, g := p.g, pa, cc, wide, ref, mask, dst, va, ovf, owner := s.ownerOf p.g,
                               deadline := if timeout = 0 then none else some (s.gtc + timeout) }
          .next (({ s1 with monitors := s1.monitors ++ [m] }).evalMonitor m)
    | _ => .next s
  | none => .next s

def execMonitorEvaluate (id : Nat) (s : State) : Host.Outcome State Fault Refusal :=
  match s.monitors.find? fun m => m.id = id with
  | some m => .next (if m.dirty then s.evalMonitor m else s)
  | none => .next s

/-- The timeout expires; a write of the same mc that makes the compare hold is evaluated first. -/
def execWaitcTimeout (id : Nat) (s : State) : Host.Outcome State Fault Refusal :=
  match s.monitors.find? fun m => m.id = id with
  | some m =>
    if !(m.deadline.any fun t => t ≤ s.gtc) then .next s
    else if m.holds s then .next (s.endMonitor m 0) else .next (s.endMonitor m 1)
  | none => .next s

/-! ### QLOCK and QUNLK (R387-R389) -/

/-- QLOCK is an acquire, and waits as a read does; QUNLK reads nothing (R390). -/
def lockOp (fn : Nat) (x : Ext) (waiting : Bool) (req : Nat → Nat → Nat → Request) :=
  issueExt 24 fn x { (closeInfo x) with reads := waiting } fun e =>
    let va := (e.srcU x.lit x.a).toNat
    match e.placeSync true { slot := none, va, n := 8 } with
    | .error t => .trapAfter t.1 t.2
    | .ok (pa, e) => .done (e.hold (req va pa (x.imm8.toNat / 16 % 8)) [] (some (x.imm8.toNat / 16 % 8)) waiting)

def execQlock (x : Ext) := lockOp 2 x true .qlock
def execQunlk (x : Ext) := lockOp 3 x false .qunlk

def execLockPerform (id : Nat) (s : State) : Host.Outcome State Fault Refusal :=
  match s.pending? id with
  | some p =>
    let owner := s.ownerOf p.g
    match p.req with
    | .qlock va pa _ =>
      if !s.mayPerform p then .next s
      else
        match s.lockAt owner pa with
        | some l =>
          let s1 := s.dropPending id
          if l.holder = p.g then .next (s1.answer p.g id pa [] (some (lockOwner p.addr va 0)))
          else .next { s1 with locks := s1.locks.map fun k =>
            if k.owner = owner && k.pa = pa then { k with fifo := k.fifo ++ [(id, p.g)] } else k }
        | none =>
          match s.syncRoom true pa with
          | none => .next (s.syncWait p)
          | some ovf =>
            let s1 := s.dropPending id
            .next ({ s1 with locks := { owner, pa, holder := p.g, ovf } :: s1.locks }.answer p.g id pa [] none)
    | .qunlk va pa scope =>
      if !s.mayPerform p then .next s
      else
        let s1 := s.dropPending id
        match s.lockAt owner pa with
        | some l =>
          if l.holder ≠ p.g then .next (s1.answer p.g id pa [] (some (lockOwner p.addr va 1)))
          else
            let core := match s.group? p.g with | some g => g.core | none => 0
            let s2 := if scope < 4 then s1.promote
                { pa, owner, core, g := p.g, before := id, unlock := true, seen := s.gtc } else s1
            .next ((s2.handOn l).acknowledge p.g id pa)
        | none => .next (s1.answer p.g id pa [] (some (lockOwner p.addr va 1)))
    | _ => .next s
  | none => .next s

/-! ### FENCE and PROMOTE (R390, R391) -/

/-- R369, R390: 1 marks the store queue, 2 holds later reads for earlier results, 3 does both and holds later reads for the
acknowledgement of earlier writes too. -/
def execFence (x : Ext) :=
  issueExt 24 4 x { len := lenExt x, mem := true } fun e =>
    let kind := x.imm8.toNat % 4
    let scope := x.imm8.toNat / 16 % 8
    let n := e.s.nextId
    let g := e.g
    let g1 := if kind = 1 || kind = 3 then { g with relMark := e.s.markAt g.relMark scope n } else g
    let g2 := if kind = 2 || kind = 3 then { g1 with acqBefore := some n } else g1
    .done { e with g := if kind = 3 then { g2 with arBefore := e.s.markAt g2.arBefore scope n } else g2 }

/-- A promotion record names the write whose value is read, and writes before it are still to perform (R371). -/
def Env.promoHeld (e : Env) (pa n : Nat) : Bool :=
  e.s.promos.any fun r => r.pa < pa + n && pa < r.pa + r.bytes && r.owner = e.b.owner && !e.s.promoDone r

/-- R391, R371: an acquire read at DOMAIN scope; the group issues nothing until its reply. DEDUCED, log 51. -/
def execPromote (x : Ext) :=
  issueExt 24 5 x { len := lenExt x, reads := true } fun e =>
    let n := if x.imm8.getLsbD 0 then 8 else 4
    let acc : Access := { slot := none, va := (e.srcU x.lit x.a).toNat, n }
    match e.placeAll false false n [acc] with
    | .error t => .trapAfter t.1 t.2
    | .ok (ps, e) =>
      if e.behindAtom false ps n || e.promoHeld ((ps.headD none).getD 0) n then .wait .empty
      else
        let v := e.valueAt false (e.ownQueue false) n (ps.headD none)
        let (lat, e1) := e.readPath false ps n
        let e2 := e1.pendResult lat [.u (e.uCode x.d - 128) (BitVec.ofNat 64 v)] (e.poisonOf false ps n [acc.va])
        .done { e2 with g := { e2.g with stall := some e1.s.nextId } }

/-! ### Barriers (R392-R396) -/

/-- The groups of a launch. -/
def Env.launchGroups (e : Env) : Nat := (e.s.tcb e.g.ref.task).blocks * e.b.kernel.groups

def barOp (fn : Nat) (x : Ext) (most : Env → Nat) (req : Nat → Nat → Request) (scope : Nat) (check : Env → Option Trap) :=
  let form := x.imm8.toNat / 16 % 4
  issueExt 24 fn x (closeInfo x) fun e =>
    match check e with
    | some t => .trap t
    | none =>
      let count := if x.a = 0 || form = 2 then 0 else (e.srcU x.lit x.a).toNat
      if most e < count then .trap { code := 23 }
      else .done (e.hold (req form count) [] (some scope) (form ≠ 1))

def execBar (x : Ext) :=
  barOp 6 x (fun e => e.b.kernel.groups) (.bar (x.imm8.toNat % 16)) 1 fun _ => none
def execLbar (x : Ext) :=
  barOp 7 x Env.launchGroups .lbar 3 fun e => if (e.s.tcb e.g.ref.task).coresident then none else some { code := 22 }

def execBarrierArrival (id : Nat) (s : State) : Host.Outcome State Fault Refusal :=
  match s.pending? id with
  | some p =>
    if !s.mayPerform p then .next s
    else
      match p.req with
      | .bar bid form count => .next ((s.dropPending id).performBarrier (.block (blockOf p.g) bid) p.g id form count)
      | .lbar form count => .next ((s.dropPending id).performBarrier (.launch p.g.task) p.g id form count)
      | _ => .next s
  | none => .next s

/-! ### Courses (R397-R401) -/

/-- The trap of a course access, once per group. DEDUCED, log 54. -/
def courseTrap (store : Bool) (off code : Nat) : Trap := accessTrap store true { slot := none, va := off, n := 1 } (code, 0)

/-- R397: the header of a course as the group sees it; its stages. -/
def Env.courseHeader (e : Env) (off : Nat) : Except Trap Nat :=
  if off % 16 ≠ 0 then .error (courseTrap false off 8)
  else if e.kernel.benchMem < off + 16 then .error (courseTrap false off 15)
  else
    let h := (e.bytesAt true (e.ownQueue true) (off + e.benchShift) 16).map BitVec.toNat
    if !courseHeaderOk h then .error { code := 24 }
    else if e.kernel.benchMem < off + 16 + 8 * h.getD 0 0 then .error (courseTrap false off 15)
    else .ok (h.getD 0 0)

/-- R398. -/
def execCsini (x : Ext) :=
  issueExt 24 8 x (memInfo (lenExt x) true) fun e =>
    let off := (e.srcU x.lit x.a).toNat
    let v := (e.srcU x.lit x.b).toNat
    let n := v % 32
    let arr := v / 2 ^ 8 % 256
    let rel := v / 2 ^ 16 % 256
    let o := off + e.benchShift
    let bytes := 16 + 8 * n
    if off % 16 ≠ 0 then .trap (courseTrap true off 8)
    else if v ≠ n + arr * 2 ^ 8 + rel * 2 ^ 16 || n < 2 || 16 < n || arr = 0 || rel = 0 then .trap { code := 24 }
    else if e.kernel.benchMem < off + bytes then .trap (courseTrap true off 15)
    else if o / 524288 ≠ (o + bytes - 1) / 524288 then .trap { code := 24 }
    else
      let img : List Nat := [n, arr, rel, 0xC5] ++ List.replicate 12 0 ++
        (List.range n).flatMap fun _ => [arr, rel, 0, 0, 0, 0, 0, 0]
      e.queueWrites true (img.zipIdx.map fun b => (o + b.2, BitVec.ofNat 8 b.1)) .done

/-- The course and the round of CSARV, CSWT and CSREL. -/
def courseOp (fn : Nat) (x : Ext) (i : IssueInfo) (k : Env → Nat → Nat → Nat → Res) :=
  issueExt 24 fn x i fun e =>
    let off := (e.srcU x.lit x.a).toNat
    match e.courseHeader off with
    | .error t => .trap t
    | .ok n => k e (off + e.benchShift) n ((e.srcU x.lit x.b).toNat % 2 ^ 32)

def execCsarv (x : Ext) :=
  courseOp 9 x (closeInfo x) fun e o n r => .done (e.hold (.csarv o (r % n)) [] (some 1) false)
def execCsrel (x : Ext) :=
  courseOp 11 x (memInfo (lenExt x) true) fun e o n r => e.holdEntries (.csrel o (r % n)) [] (some 1)

/-- R400: the group waits as on an empty register until the phase holds, and its region with it (R309). -/
def execCswt (x : Ext) :=
  courseOp 10 x (memInfo (lenExt x) false) fun e o n r =>
    let p := o + 18 + 8 * (r % n)
    if e.behindAtom true [some p] 1 then .wait .empty
    else
      let ph := e.valueAt true (e.ownQueue true) 1 (some p)
      let q := r / n
      if (if x.imm8.getLsbD 0 then ph / 2 % 2 = q % 2 else ph % 2 = (q + 1) % 2) then .done e else .stall

def execCourseUpdate (id : Nat) (s : State) : Host.Outcome State Fault Refusal :=
  match s.pending? id with
  | some p =>
    if !s.mayPerform p then .next s
    else
      match p.req with
      | .csarv off st =>
        .next (((s.dropPending id).modBlock (blockOf p.g) fun b => b.courseStep off st 0).answerBench p.g id).sendReady
      | .csrel off st => .next ((s.dropPending id).modBlock (blockOf p.g) fun b => b.courseStep off st 1).sendReady
      | _ => .next s
  | none => .next s

end Sys2Proof.Machine
end

