-- ==== Sys2Proof/Machine/ContentAddressed.lean ====
section
/-!
DEFINITION. Machine/ContentAddressed.lean: the content-addressed region: lines, names and counts, the instructions of MAJ 23
but CAOUT, which is a copy, and the events in which the requests perform (R334-R354).
-/

namespace Sys2Proof.Machine

open Sys2Proof

/-! ### Pools and lines -/

/-- R336: the home die of a name. -/
def nameDie (n : Nat) : Nat := n / 256 % 192 / 96

/-- The size of an owner's range on a die, in 2 MiB units. -/
def Owner.capSize (o : Owner) (die : Nat) : Nat := if die = 0 then o.capSize0 else o.capSize1

/-- R336: the owner's pool has a range on the home die of a name. -/
def State.hasPool (s : State) (owner n : Nat) : Bool := (s.owner owner).capEn && (s.owner owner).capSize (nameDie n) ≠ 0

def State.caFind (s : State) (owner n : Nat) : Option CaLine :=
  (s.caLines.find? fun l => l.1 = owner && l.2.1.toNat = n).map fun l => l.2.2

def State.caSet (s : State) (owner n : Nat) (x : CaLine) : State :=
  { s with caLines := s.caLines.map fun l => if l.1 = owner && l.2.1.toNat = n then (l.1, l.2.1, x) else l }
def State.caDrop (s : State) (owner n : Nat) : State :=
  { s with caLines := s.caLines.filter fun l => !(l.1 = owner && l.2.1.toNat = n) }

/-- R334: live lines in a die's range, and pinned lines. -/
def State.caLinesOn (s : State) (owner die : Nat) : Nat :=
  (s.caLines.filter fun l => l.1 = owner && nameDie l.2.1.toNat = die).length
def State.caPinned (s : State) (owner : Nat) : Nat :=
  (s.caLines.filter fun l => l.1 = owner && l.2.2.count = 0xFFFFFFFF).length

/-- R335: lines that a range holds. -/
def capLines (size : Nat) : Nat := size * 2097152 / 288

/-- A line's contents stand at its place of the range of its home die, under the owner's key (R335, R336).
DESIGN CHOICE, log 137: the lines stand from the range's base on, and their indices and counts behind them. -/
def Owner.capBase (o : Owner) (die : Nat) : Nat := if die = 0 then o.capBase0 else o.capBase1
def State.caPa (s : State) (owner n slot : Nat) : Nat := (s.owner owner).capBase (nameDie n) + 256 * slot
/-- DEDUCED, log 47. -/
def State.caContent (s : State) (owner n : Nat) (l : CaLine) : List Byte :=
  s.readBytes (some (s.keyOf owner)) (s.caPa owner n l.slot) 256

/-- A sector of the line that a name names is poisoned (R421). -/
def State.caPoisoned (s : State) (owner n : Nat) : Bool :=
  (s.caFind owner n).any fun l => s.poisonAt (s.caPa owner n l.slot) 256

/-- The lowest place of a die's range that no live line takes. -/
def State.caSlot (s : State) (owner die : Nat) : Nat :=
  let used := (s.caLines.filter fun l => l.1 = owner && nameDie l.2.1.toNat = die).map fun l => l.2.2.slot
  ((List.range (used.length + 1)).find? fun i => !used.contains i).getD 0

/-! ### Counts (R341, R342) -/

def State.caStray (s : State) (owner : Nat) : State :=
  s.setOwner owner { (s.owner owner) with stray := ((s.owner owner).stray + 1) % 2 ^ 32 }

/-- An increment of a name's count. -/
def State.caInc (s : State) (owner n : Nat) : State :=
  if n = 0 then s
  else match s.caFind owner n with
    | none => s.caStray owner
    | some l => s.caSet owner n { l with count := min (l.count + 1) 0xFFFFFFFF }

/-- The children of a node's contents. -/
def caChildren (content : List Byte) : List Nat := (List.range 32).map fun j => leNat ((content.drop (8 * j)).take 8)

/-- A decrement; at zero the line is reclaimed, and a node's children are left to the walker, child 0 first. -/
def State.caDec (s : State) (owner n : Nat) : State :=
  if n = 0 then s
  else match s.caFind owner n with
    | none => s.caStray owner
    | some l =>
      if l.count = 0xFFFFFFFF then s
      else if 1 < l.count then s.caSet owner n { l with count := l.count - 1 }
      else
        let s1 := s.caDrop owner n
        if n % 4 = 1 then
          { s1 with reclaim := s1.reclaim ++ ((caChildren (s.caContent owner n l)).filter (· ≠ 0)).map fun c => (owner, BitVec.ofNat 64 c) }
        else s1

/-! ### CAPUT (R337-R340, R346, R349) -/

def kindNat (kind : Bool) : Nat := if kind then 1 else 0

/-- The live line of a hash, a kind and contents. -/
def State.caLookup (s : State) (owner hash : Nat) (kind : Bool) (c : List Byte) : Option Nat :=
  (s.caLines.find? fun l => l.1 = owner && l.2.1.toNat / 256 = hash && l.2.1.toNat % 4 = kindNat kind &&
      s.caContent owner l.2.1.toNat l.2.2 = c).map fun l => l.2.1.toNat

/-- The lowest ordinal that no live line of a hash and kind holds; the null name is never allocated. -/
def State.freeOrdinal (s : State) (owner hash : Nat) (kind : Bool) : Option Nat :=
  (List.range 64).find? fun o =>
    !(hash = 0 && !kind && o = 0) && (s.caFind owner (hash * 256 + o * 4 + kindNat kind)).isNone

/-- How a CAPUT ends at its home slice: a name, or the failure's code and cause word 1. -/
def State.caPut (s : State) (owner : Nat) (kind : Bool) (c : List Byte) (hash : Nat) : Except (Nat × Nat) Nat × State :=
  if c.all (· = 0) then (.ok 0, s)
  else if !s.hasPool owner (hash * 256) then (.error (19, 2), s)
  else match s.caLookup owner hash kind c with
    | some n => (.ok n, s.caInc owner n)
    | none =>
      match s.freeOrdinal owner hash kind with
      | none => (.error (17, 0), s)
      | some o =>
        let die := nameDie (hash * 256)
        if capLines ((s.owner owner).capSize die) ≤ s.caLinesOn owner die then
          (.error (20, 1), s.setOwner owner { (s.owner owner) with capFull := ((s.owner owner).capFull + 1) % 2 ^ 32 })
        else
          let n := hash * 256 + o * 4 + kindNat kind
          let slot := s.caSlot owner die
          let s1 := ({ s with caLines := s.caLines ++ [(owner, BitVec.ofNat 64 n, { slot, count := 1, allocGtc := s.gtc })] } : State).performBytes
            (some (s.keyOf owner)) (s.caPa owner n slot) c
          (.ok n, if kind then (caChildren c).foldl (fun s m => s.caInc owner m) s1 else s1)

/-- R349: the 256 content bytes, from a register pair or from bench memory. -/
def Env.caGather (e : Env) (x : Ext) : Except Trap (List Byte) :=
  if x.imm8.getLsbD 1 then
    let off := (e.srcU x.lit x.a).toNat
    let acc : Access := { slot := none, va := off, n := 256 }
    if off % 8 ≠ 0 then .error (accessTrap false true acc (8, 0))
    else if e.kernel.benchMem < off + 256 then .error (accessTrap false true acc (15, 0))
    else .ok (e.bytesAt true (e.ownQueue true) (off + e.benchShift) 256)
  else
    .ok (slots.flatMap fun t =>
      leBytes 4 ((e.vval x.a.toNat).slot t).toNat ++ leBytes 4 ((e.vval (x.a.toNat + 1)).slot t).toNat)

/-- The bench bytes that an earlier request of the group has still to write (R363). -/
def Env.caBehind (e : Env) (x : Ext) : Bool :=
  x.imm8.getLsbD 1 && e.behindAtom true [some ((e.srcU x.lit x.a).toNat + e.benchShift)] 256

def Env.caHashOf (e : Env) (kind : Bool) (c : List Byte) : Nat := nameHash (e.s.owner e.b.owner).nkey kind c

def caInfo (x : Ext) (closing : Bool) : IssueInfo := { len := lenExt x, closing, mem := true, reads := true }

def execCaput (x : Ext) :=
  issueExt 23 0 x (caInfo x true) fun e =>
    match e.caGather x with
    | .error t => .trap t
    | .ok c =>
      if e.caBehind x then .wait .empty else
      let kind := x.imm8.getLsbD 0
      let h := e.caHashOf kind c
      if !(c.all (· = 0)) && !e.s.hasPool e.b.owner (h * 256) then .trap { code := 19 }
      else e.holdEntries (.caput kind c h (BitVec.ofNat 64 e.addr) (e.uCode x.d)) [e.uCode x.d] (some 4)

def execCaputPerform (id : Nat) (s : State) : Host.Outcome State Fault Refusal :=
  match s.pending? id with
  | some p =>
    match p.req with
    | .caput kind c hash addr dst =>
      if !s.mayPerform p then .next s
      else
        let (r, s1) := (s.dropPending id).caPut (s.ownerOf p.g) kind c hash
        let home := caHomePa s (hash * 256)
        match r with
        | .ok n => .next (s1.answer p.g id home (uVal (uDst dst) n) none).sendReady
        | .error (code, w1) => .next (s1.answer p.g id home (uVal (uDst dst) (2 ^ 64 - 1))
            (some
              { code, addr, cause0 := BitVec.ofNat 64 (hash * 256 + kindNat kind), cause1 := BitVec.ofNat 64 w1,
                site := some p.addr })).sendReady
    | _ => .next s
  | none => .next s

/-- R350: the name that contents have if no ordinal is taken. -/
def execCahash (x : Ext) :=
  issueExt 23 2 x { len := lenExt x, mem := true, reads := true } fun e =>
    match e.caGather x with
    | .error t => .trap t
    | .ok c =>
      if e.caBehind x then .wait .empty else
      let kind := x.imm8.getLsbD 0
      let h := e.caHashOf kind c
      let n := if c.all (· = 0) then 0 else h * 256 + (if h = 0 && !kind then 4 else 0) + kindNat kind
      .done ((e.setS64 (x.d.toNat - 128) (BitVec.ofNat 64 n)).withPasses 48)

/-! ### CAGET and CAPRB (R351, R352) -/

/-- The path to the home slice of a name. -/
def Env.namePath (e : Env) (n : Nat) : Nat × Env := e.readPath false [some (caHomePa e.s n)] 1

def execCaget (x : Ext) :=
  issueExt 23 1 x (caInfo x false) fun e =>
    let n := (e.srcU x.lit x.a).toNat
    let d := e.vIdx x.d.toNat
    let regs (c : List Byte) : List RegVal := (List.range 2).map fun j =>
      .v (d + j) (.ofSlots fun t => BitVec.ofNat 32 (leNat ((c.drop (8 * t + 4 * j)).take 4)))
    if n = 0 then .done (e.pendResult 1 (regs []) none)
    else if !e.s.hasPool e.b.owner n then .trap { code := 19 }
    else
      match e.s.caFind e.b.owner n with
      | none => .trap { code := 18, addr := BitVec.ofNat 64 n, cause0 := 0xFFFFFFFF }
      | some l =>
        let (lat, e1) := e.namePath n
        .done (e1.pendResult lat (regs (e.s.caContent e.b.owner n l)) (e.poisonOf false [some (e.s.caPa e.b.owner n l.slot)] 256 [n]))

/-- R352: count, state and kind of a name. -/
def State.caProbe (s : State) (owner n : Nat) : Nat :=
  if n = 0 then 0x2FFFFFFFF
  else match (if s.hasPool owner n then s.caFind owner n else none) with
    | none => 0
    | some l => l.count + (if l.count = 0xFFFFFFFF then 2 else 1) * 2 ^ 32 + n % 4 * 2 ^ 34

def execCaprb (x : Ext) :=
  issueExt 23 7 x (caInfo x false) fun e =>
    let n := (e.srcU x.lit x.a).toNat
    if n ≠ 0 && !e.s.hasPool e.b.owner n then .trap { code := 19 }
    else
      let (lat, e1) := if n = 0 then (1, e) else e.namePath n
      .done ((e1.setS64 (x.d.toNat - 128) (BitVec.ofNat 64 (e.s.caProbe e.b.owner n))).withPasses lat)

/-! ### CAREF, CAREL and CASWAP (R353, R354) -/

def countOp (fn : Nat) (x : Ext) (req : W64 → Request) :=
  issueExt 23 fn x { len := lenExt x, mem := true } fun e =>
    let n := e.srcU x.lit x.a
    if n ≠ 0 && !e.s.hasPool e.b.owner n.toNat then .trap { code := 19 } else e.holdEntries (req n) [] none

def execCaref (x : Ext) := countOp 3 x .caref
def execCarel (x : Ext) := countOp 4 x .carel

/-- Without a pool the change is dropped and counts nowhere (R336). -/
def execCaCountChange (id : Nat) (s : State) : Host.Outcome State Fault Refusal :=
  match s.pending? id with
  | some p =>
    let owner := s.ownerOf p.g
    let s1 := s.dropPending id
    if !s.mayPerform p then .next s
    else
      match p.req with
      | .caref n => .next (if n ≠ 0 && s.hasPool owner n.toNat then s1.caInc owner n.toNat else s1).sendReady
      | .carel n => .next (if n ≠ 0 && s.hasPool owner n.toNat then s1.caDec owner n.toNat else s1).sendReady
      | _ => .next s
  | none => .next s

/-- R354. DEDUCED, log 138: the access is checked as ATOM checks it (R384), for R and W. -/
def execCaswap (x : Ext) :=
  issueExt 23 5 x (caInfo x true) fun e =>
    let va := (e.srcU x.lit x.a).toNat
    match e.placeSync true { slot := none, va, n := 8 } with
    | .error t => .trapAfter t.1 t.2
    | .ok (pa, e) =>
      e.holdEntries (.caswap va pa (e.srcU x.lit x.b) (e.srcU x.lit x.c) (e.uCode x.d))
        [e.uCode x.d] (some 4)

def execCaswapPerform (id : Nat) (s : State) : Host.Outcome State Fault Refusal :=
  match s.pending? id with
  | some p =>
    match p.req with
    | .caswap va pa expect new dst =>
      if !s.mayPerform p then .next s
      else
        let s1 := s.dropPending id
        if s.poisonAt pa 8 then
          .next (s1.answer p.g id pa (uVal (uDst dst) 0) (some
            { code := 30, addr := BitVec.ofNat 64 va, cause0 := 1, site := some p.addr })).sendReady
        else
          let key := some (s.keyAt (s.ownerOf p.g) pa)
          let old := s.valueAt key pa 8
          let s2 := if old = expect.toNat then s1.performBytes key pa (leBytes 8 new.toNat) else s1
          .next (s2.answer p.g id pa (uVal (uDst dst) old) none).sendReady
    | _ => .next s
  | none => .next s

/-- R342: the walker's next release performs at the child's home slice. -/
def execReclaimRelease (s : State) : Host.Outcome State Fault Refusal :=
  match s.reclaim with
  | [] => .next s
  | (owner, n) :: rest => .next ({ s with reclaim := rest }.caDec owner n.toNat)

/-- Every line and count of an owner is discarded (R336). -/
def State.caDiscard (s : State) (owner : Nat) : State :=
  { s with caLines := s.caLines.filter (fun l => l.1 ≠ owner), reclaim := s.reclaim.filter fun r => r.1 ≠ owner }

def execCapDisable (owner : Nat) (s : State) : Host.Outcome State Fault Refusal :=
  if (s.owner owner).capEn then .next ((s.setOwner owner { (s.owner owner) with capEn := false }).caDiscard owner) else .next s

end Sys2Proof.Machine
end

