-- ==== Sys2Proof/Machine/Copy.lean ====
section
/-!
DEFINITION. Machine/Copy.lean: the bulk copy engine: the copy family (MAJ 22) and CAOUT, the range locks, and the two events
in which an engine stages and drains a piece (R317-R333, R355).
-/

namespace Sys2Proof.Machine

open Sys2Proof

/-! ### Sizes, rows and footprints (R318, R320) -/

def CopyDesc.size (d : CopyDesc) : Nat := d.rowBytes * d.rows

/-- The source and destination row numbers of row `i` (Table 16-2). -/
def CopyDesc.srcRow (d : CopyDesc) (i : Nat) : Nat := if d.kind = 2 then d.index.getD i 0 else i
def CopyDesc.dstRow (d : CopyDesc) (i : Nat) : Nat := if d.kind = 3 then d.index.getD i 0 else i

/-- The first and last byte, plus 1, of a side on exact addresses. -/
def exactSpan (base stride rowBytes : Nat) (rows : List Nat) : Nat × Nat :=
  (base + (rows.foldl min (rows.headD 0)) * stride, base + (rows.foldl max 0) * stride + rowBytes)

/-- A footprint's intervals: virtual addresses are split at 2^64. -/
def footprint (virt : Bool) (p : Nat × Nat) : List (Nat × Nat) :=
  if !virt || p.2 ≤ 2 ^ 64 then [p]
  else if 2 ^ 64 ≤ p.1 then [(p.1 - 2 ^ 64, p.2 - 2 ^ 64)]
  else [(p.1, 2 ^ 64), (0, p.2 - 2 ^ 64)]

/-- CPYW and CAOUT have no source range. -/
def CopyDesc.hasSrc (d : CopyDesc) : Bool := d.kind ≤ 4

def CopyDesc.srcSpan (d : CopyDesc) : Nat × Nat :=
  exactSpan d.src d.sstride d.rowBytes ((if d.kind = 2 then d.index else [0, d.rows - 1]))
def CopyDesc.dstSpan (d : CopyDesc) : Nat × Nat :=
  exactSpan d.dst d.dstride d.rowBytes ((if d.kind = 3 then d.index else [0, d.rows - 1]))

def spansMeet (a b : List (Nat × Nat)) : Bool := a.any fun x => b.any fun y => x.1 < y.2 && y.1 < x.2

/-! ### The descriptor (R319, Table 16-1) -/

/-- Register A + i of the descriptor. -/
def Env.descWord (e : Env) (x : Ext) (i : Nat) : Nat := (e.sval (x.a.toNat - 128 + i)).toNat

/-- The copy that a descriptor of MAJ 22 FN `k` asks for, without its index list and course. -/
def Env.descOf (e : Env) (x : Ext) (k : Nat) : CopyDesc :=
  let w := e.descWord x
  let one := k = 0
  { kind := k, src := w 0, dst := w 1,
    rowBytes := if one then w 2 else w 2 % 2 ^ 32, rows := if one then 1 else w 2 / 2 ^ 32,
    sstride := if one then 0 else w 3 % 2 ^ 32, dstride := if one then 0 else w 3 / 2 ^ 32,
    sspace := k ≠ 5 && bit (w 4) 0, dspace := bit (w 4) 1, op := w 4 / 16 % 16 }

/-- R319 steps 1 and 2. -/
def Env.descBad (e : Env) (x : Ext) (d : CopyDesc) : Bool :=
  let ctl := e.descWord x 4
  let lists := d.kind = 2 || d.kind = 3
  ctl / 256 ≠ 0 || (d.kind ≠ 4 && d.op ≠ 0) || (d.kind = 5 && bit ctl 0) ||
    (if d.kind = 0 then 2 ^ 32 ≤ d.rowBytes else 2 ^ 24 < d.rowBytes || 65535 < d.rows) ||
    (lists && (4096 < d.rows || e.descWord x 5 / 2 ^ 32 % 4 ≠ 0)) || (d.kind = 4 && 3 < d.op) ||
    (d.kind ≠ 0 && 1 < d.rows && d.dstride < d.rowBytes) ||
    (d.kind = 4 && [d.src, d.dst, d.rowBytes, d.sstride, d.dstride].any fun v => v % 4 ≠ 0)

/-- DEDUCED, log 60. -/
def boundsTrap (store : Bool) (off : Nat) : Trap :=
  accessTrap store true { slot := none, va := off % 2 ^ 64, n := 1 } (15, 0)

/-- R319 step 5: the bench side of a copy past BENCHMEM. -/
def Env.pastBench (e : Env) (d : CopyDesc) : Option Trap :=
  if d.size = 0 then none
  else if d.hasSrc && !d.sspace && e.kernel.benchMem < d.srcSpan.2 then some (boundsTrap false d.srcSpan.1)
  else if !d.dspace && e.kernel.benchMem < d.dstSpan.2 then some (boundsTrap true d.dstSpan.1)
  else none

/-- R402: the course and stage that a copy will arrive on, by its field, as an offset with the stage in bits [3:0]; `none`
without one. -/
def Env.courseOf (e : Env) (on : Bool) (field : Nat) : Except Trap (Option Nat) :=
  if !on then .ok none
  else
    match e.courseHeader (field / 16 * 16) with
    | .error t => .error t
    | .ok n => if n ≤ field % 16 then .error { code := 24 } else .ok (some (field + e.benchShift))

/-- The checks of R319 in order; the copy with its index list and course. -/
def Env.checkDesc (e : Env) (x : Ext) (k : Nat) : Except Trap CopyDesc :=
  let d0 := e.descOf x k
  let at5 := e.descWord x 5
  if e.descBad x d0 then .error { code := 25 }
  else
    let lists := k = 2 || k = 3
    let ix := at5 / 2 ^ 32
    if lists && d0.rows ≠ 0 && e.kernel.benchMem < ix + 4 * d0.rows then .error (boundsTrap false ix)
    else
      let own := e.ownQueue true
      let idx : List Nat := (List.range d0.rows).map fun i => leNat (e.bytesAt true own (ix + e.benchShift + 4 * i) 4)
      let d := if lists then { d0 with index := idx } else d0
      if d.size ≠ 0 && d.hasSrc && d.sspace = d.dspace &&
          spansMeet (footprint d.sspace d.srcSpan) (footprint d.dspace d.dstSpan) then .error { code := 25 }
      else
        match e.pastBench d with
        | some t => .error t
        | none =>
          match e.courseOf (bit (e.descWord x 4) 2) (at5 % 2 ^ 32) with
          | .error t => .error t
          | .ok c => .ok { d with course := c }

/-! ### Registration (R317, R320, R321, R330) -/

def copyKey (bench entry : Nat) : Nat := 64 * bench + entry
def State.copy (s : State) (bench entry : Nat) : Copy := tget {} s.copies (copyKey bench entry)
def State.setCopy (s : State) (bench entry : Nat) (c : Copy) : State :=
  { s with copies := tset {} s.copies (copyKey bench entry) c }

/-- The handle of an entry; the handle of a copy of size 0. -/
def handleOf (bench entry gen : Nat) : Nat := entry + gen * 2 ^ 8 + bench * 2 ^ 32
def zeroHandle (bench : Nat) : Nat := 64 + bench * 2 ^ 32

/-- A copy's range locks, the bench offsets moved by R114. -/
def Env.locksOf (e : Env) (d : CopyDesc) (entry : Nat) : List RangeLock :=
  let side (virt isDst : Bool) (p : Nat × Nat) : List RangeLock :=
    (footprint virt p).map fun i =>
      { bench := e.benchNo, entry, owner := e.b.owner, block := if virt then none else some e.b.ref,
        lo := i.1 + (if virt then 0 else e.benchShift), hi := i.2 + (if virt then 0 else e.benchShift), isDst }
  (if d.hasSrc then side d.sspace false d.srcSpan else []) ++ side d.dspace true d.dstSpan

/-- The copy with bench offsets as the block's memory has them. -/
def Env.shifted (e : Env) (d : CopyDesc) : CopyDesc :=
  { d with src := if d.hasSrc && !d.sspace then d.src + e.benchShift else d.src,
           dst := if d.dspace then d.dst else d.dst + e.benchShift }

def State.locksOnDie (s : State) (die : Nat) : Nat :=
  (s.rangeLocks.filter fun l => dieOfCore (4 * l.bench) = die).length

/-- R330: a copy of size 0 completes at the commit; any other takes an entry and its locks, or issue is withheld. -/
def Env.startCopy (e : Env) (dst : Nat) (d : CopyDesc) : Res :=
  let bench := e.benchNo
  if d.size = 0 then
    let h := zeroHandle bench
    .done ((e.hold (.emptyCopy h d.course) [] none false).setS64 dst (BitVec.ofNat 64 h))
  else
    match (List.range 64).find? fun i => !(e.s.copy bench i).live with
    | none => if e.g.ownEntries e.s = 0 then .wait .empty else .waitHead
    | some i =>
      let locks := e.locksOf d i
      if 1024 < e.s.locksOnDie (dieOfCore e.g.core) + locks.length then
        if e.g.ownEntries e.s = 0 then .wait .empty else .waitHead
      else
        let (id, s1) := e.s.fresh
        let gen := ((s1.copy bench i).gen + 1) % 2 ^ 24
        let seq := match e.g.regions.getLast? with | some r => r.seq | none => 0
        let c : Copy := { gen, live := true, g := e.g.ref, owner := e.b.owner, region := seq, state := .running,
                          desc := e.shifted d, order := id, readAt := s1.gtc, addr := e.addr,
                          acq := e.g.acqBefore, ar := e.g.arBefore }
        .done ((e.setS ({ s1 with rangeLocks := s1.rangeLocks ++ locks }.setCopy bench i c)).setS64 dst
          (BitVec.ofNat 64 (handleOf bench i gen)))

/-- The copy family: the copy role, a store for Table 15-1 and for R307. -/
def copyInfo (x : Ext) : IssueInfo := { len := lenExt x, mem := true, role := some 0 }

/-- CPYG and CPYS read their index list at issue, as a load does: the list waits for an earlier request of the group that
still has to write it (R363). -/
def Env.indexBehind (e : Env) (x : Ext) (k : Nat) : Bool :=
  (k = 2 || k = 3) && !e.descBad x (e.descOf x k) &&
    e.behindAtom true ((List.range (e.descOf x k).rows).map fun i => some (e.descWord x 5 / 2 ^ 32 + e.benchShift + 4 * i)) 4

def copyOp (k : Nat) (x : Ext) :=
  issueExt 22 k x { (copyInfo x) with reads := k = 2 || k = 3 } fun e =>
    if e.indexBehind x k then .wait .empty
    else
      match e.checkDesc x k with
      | .error t => .trap t
      | .ok d => e.startCopy (x.d.toNat - 128) d

def execCpy (x : Ext) := copyOp 0 x
def execCpyt (x : Ext) := copyOp 1 x
def execCpyg (x : Ext) := copyOp 2 x
def execCpys (x : Ext) := copyOp 3 x
def execCpyr (x : Ext) := copyOp 4 x
def execCpyw (x : Ext) := copyOp 5 x

/-- R355. DEDUCED, log 62. -/
def execCaout (x : Ext) :=
  issueExt 23 6 x (copyInfo x) fun e =>
    let w := e.descWord x
    let depth := w 2 % 8
    let d : CopyDesc := { kind := 8, src := w 0, dst := w 1, rowBytes := 256 * 32 ^ depth, rows := 1, dspace := bit (w 2) 3,
                          op := depth }
    if 4 < depth || 64 ≤ w 2 || 2 ^ 32 ≤ w 3 then .trap { code := 25 }
    else if w 0 ≠ 0 && !e.s.hasPool e.b.owner (w 0) then .trap { code := 19 }
    else
      match e.pastBench d with
      | some t => .trap t
      | none =>
        match e.courseOf (bit (w 2) 4) (w 3) with
        | .error t => .trap t
        | .ok c => e.startCopy (x.d.toNat - 128) { d with course := c }

/-! ### CPYQ and CPYX (R332, R333) -/

def CopyState.code : CopyState → Nat
  | .complete => 0
  | .running => 1
  | .faulted => 2
  | .cancelled => 3

/-- The status word of a handle as an engine answers it. DEDUCED, log 64, 66. -/
def State.copyStatus (s : State) (bench h : Nat) : Nat :=
  if h / 2 ^ 32 ≠ bench || bit h 7 then 4
  else if bit h 6 then 0
  else
    let c := s.copy bench (h % 64)
    if c.gen ≠ h / 2 ^ 8 % 2 ^ 24 then 0
    else c.state.code + (match c.state, c.fault with | .faulted, some t => t.code * 2 ^ 8 | _, _ => 0) + c.pos * 2 ^ 16

/-- A handle's copy still runs. -/
def State.copyRuns (s : State) (bench h : Nat) : Bool := s.copyStatus bench h % 8 = 1

/-- With `.poll` the engine answers at once; without it the result is held until the copy has ended, and memory waits
(R307). DEDUCED, log 67. -/
def execCpyq (x : Ext) :=
  issueExt 22 6 x (copyInfo x) fun e =>
    let h := (e.sval (x.a.toNat - 128)).toNat
    let d := if x.d.toNat = 128 then 0 else e.sIdx (x.d.toNat - 128)
    let st := BitVec.ofNat 64 (e.s.copyStatus e.benchNo h)
    let e1 := e.pendResult Config.latBench [.u d st] none
    let id := e.s.nextId
    let poll := x.imm8.getLsbD 0
    let s1 := { e1.s with fills := e1.s.fills.map fun f =>
      if f.id = id then { f with async := true, handle := if poll then none else some h } else f }
    .done { e1 with s := s1, g := { e1.g with waiting := if poll then e1.g.waiting else e1.g.waiting ++ [id] } }

def execCpyx (x : Ext) :=
  issueExt 22 7 x (copyInfo x) fun e =>
    .done (e.hold (.copyStop (e.sval (x.a.toNat - 128)).toNat (x.imm8.getLsbD 0)) [] none false)

/-- The locks of an entry: all, or the destination's alone. -/
def State.unlock (s : State) (bench entry : Nat) (dstOnly : Bool) : State :=
  { s with rangeLocks := s.rangeLocks.filter fun l => !(l.bench = bench && l.entry = entry && (l.isDst || !dstOnly)) }

/-- A copy ends: its entry and locks are freed, its final state stays (R317, R321). -/
def State.endCopy (s : State) (bench entry : Nat) (st : CopyState) : State :=
  ((s.setCopy bench entry { (s.copy bench entry) with live := false, state := st, pieces := [] }).unlock bench entry false)

/-- R333: CPYX takes effect. -/
def State.stopCopy (s : State) (bench h : Nat) (resume : Bool) : State :=
  let c := s.copy bench (h % 64)
  if h / 2 ^ 32 ≠ bench || h / 64 % 4 ≠ 0 || c.gen ≠ h / 2 ^ 8 % 2 ^ 24 || !c.live then s
  else if !resume then s.endCopy bench (h % 64) .cancelled
  else if c.state = .faulted then
    s.setCopy bench (h % 64) { c with state := .running, fault := none, spec := c.pos, readAt := s.gtc }
  else s

/-! ### The course arrival (R326, R402) -/

/-- The arrival of copy `h` on a stage of its block, or a COURSE_LOST record. -/
def State.copyArrives (s : State) (b : BlockRef) (bench h : Nat) (course : Nat) : State :=
  match s.block? b with
  | none => s
  | some x =>
    let off := course / 16 * 16
    if courseHeaderOk ((codes off 16).map x.benchByte) then s.modBlock b fun y => y.courseStep off (course % 16) 0
    else s.record { stamp := s.gtc, src := srcNum (bench / 48) (bench / 12 % 4) 2 (bench % 12), type := 19, data0 := h,
                    data1 := off }

/-- R320: a copy of size 0 completes at its region's commit. -/
def State.emptyDone (s : State) (b : BlockRef) (bench h : Nat) (course : Option Nat) : State :=
  match course with
  | none => s
  | some c => s.copyArrives b bench h c

/-! ### Pieces (R318, R355) -/

/-- The piece at a position: the source address where it has one, the destination address, its bytes. DEDUCED, log 61. -/
def CopyDesc.pieceAt (d : CopyDesc) (pos : Nat) : Nat × Nat × Nat :=
  let i := pos / d.rowBytes
  let j := pos % d.rowBytes
  let mod (virt : Bool) (a : Nat) : Nat := if virt then a % 2 ^ 64 else a
  let sa := mod d.sspace (d.src + d.srcRow i * d.sstride + j)
  let da := mod d.dspace (d.dst + d.dstRow i * d.dstride + j)
  let n := if d.kind = 8 then 256 else min (d.rowBytes - j) (256 - (if d.hasSrc then sa else da) % 256)
  (sa, da, n)

/-- R355: the bytes of leaf slot `j` of a tree of `level` levels, the names read on the way, or the fault's code and name. -/
def State.caLeaf (s : State) (owner : Nat) : Nat → Nat → Nat → Except (Nat × Nat) (List Byte × List Nat)
  | level, name, j =>
    let zeros : List Byte := List.replicate 256 0
    if name = 0 then .ok (zeros, [])
    else if !s.hasPool owner name then .error (19, name)
    else match s.caFind owner name with
      | none => .error (18, name)
      | some l =>
        match level with
        | 0 => .ok (s.caContent owner name l, [name])
        | n + 1 =>
          if name % 4 = 0 then .ok (if j = 0 then s.caContent owner name l else zeros, [name])
          else
            match s.caLeaf owner n ((caChildren (s.caContent owner name l)).getD (j / 32 ^ n) 0) (j % 32 ^ n) with
            | .error x => .error x
            | .ok (bs, ns) => .ok (bs, name :: ns)

/-- R327: translate one address of a copy, `dst` 1 for the destination; what a walk set stands either way (R145). -/
def State.copyPlace (s : State) (owner field : Nat) (dst main : Bool) (va : Nat) : Except (Trap × State) (Nat × State) :=
  let bad (s' : State) (code bits : Nat) : Except (Trap × State) (Nat × State) :=
    .error ({ code, addr := BitVec.ofNat 64 va, cause1 := BitVec.ofNat 64 (bits + (if dst then 1 else 0)) }, s')
  match s.translate owner field va with
  | (.page (some l), s') => bad s' 9 (16 * l + 128)
  | (.page none, s') => bad s' 9 0
  | (.frame, s') => bad s' 10 0
  | (.ok t, s') =>
    let pa := t.addr va
    if t.ca || (if dst then !t.w else !t.r) || s'.devicePage pa then bad s' 10 0
    else if !main && paClass pa ≠ 0 then bad s' 13 0
    else .ok (pa, s')

/-- The places of `n` destination bytes: each page is translated once, at its first byte. -/
def State.copyPlaces (s : State) (owner field : Nat) (main : Bool) : Nat → Nat → Except (Trap × State) (List Nat × State)
  | _, 0 => .ok ([], s)
  | va, n + 1 =>
    match s.copyPlace owner field true main (va % 2 ^ 64) with
    | .error t => .error t
    | .ok (pa, s') =>
      match s'.copyPlaces owner field main (va + 1) n with
      | .error t => .error t
      | .ok (ps, s'') => .ok (pa :: ps, s'')

/-- What a read of a piece gives: its bytes, its latency, its path, and the modules whose links its tagged data crossed. -/
structure PieceRead where
  bytes : List Byte := []
  lat : Nat := 1
  cells : List CellRef := []
  tags : List Nat := []
  deriving DecidableEq, Repr

/-- R314, R315: the GTC from which a staged piece may drain, by the W now in force. -/
def Piece.dueBy (p : Piece) (s : State) : Nat := max (p.arrived + s.qwin) (s.tagsEnd p.tags)

/-- After the W of a module has changed: the staged pieces whose data had not arrived take it. -/
def State.fixPieces (s : State) (old : State) : State :=
  { s with copies := s.copies.map fun c => (c.1, { c.2 with pieces := c.2.pieces.map fun p =>
      if old.gtc < p.arrived && !p.sent then { p with due := p.dueBy s } else p }) }

/-- R15: a write of QWIN.W; what has entered a link keeps the W it carries (R315). -/
def State.setWindow (s : State) (w : Nat) : State :=
  if 64 ≤ w && w ≤ 255 then ({ (s.fixTags s.domid) with qwin := w }).fixPieces s else s

/-- The W of another module of the domain changes. -/
def State.setPeerWindow (s : State) (m w : Nat) : State :=
  if 64 ≤ w && w ≤ 255 && m ≠ s.domid then ({ (s.fixTags m) with peerWindows := tset 64 s.peerWindows m w }).fixPieces s else s

/-- The group's queued bytes that precede the copy (R324). -/
def State.copyOwn (s : State) (c : Copy) (bench : Bool) : List QEntry :=
  (s.entries.filter fun q => q.g = c.g && q.bench = bench && q.phase < 2 && q.id < c.order).reverse

/-- Read the source of a piece. -/
def State.readPiece (s : State) (bench : Nat) (c : Copy) (p : Nat × Nat × Nat) : Except (Trap × State) (PieceRead × State) :=
  let (sa, _, n) := p
  let field := fieldOfBench bench
  let d := c.desc
  if d.kind = 5 then
    .ok ({ bytes := (List.range n).map fun i => BitVec.ofNat 8 (d.src / 2 ^ (8 * ((c.spec % d.rowBytes + i) % 8))) }, s)
  else if d.kind = 8 then
    match s.caLeaf c.owner d.op d.src (c.spec / 256) with
    | .error (code, name) => .error ({ code, addr := BitVec.ofNat 64 name }, s)
    | .ok (bs, names) =>
      match names.find? (s.caPoisoned c.owner) with
      | some nm => .error ({ code := 30, addr := BitVec.ofNat 64 nm }, s)
      | none => .ok (names.foldl (fun r nm =>
        let pa := caHomePa s nm
        let (lat, h) := scratchLatency s field pa
        { r with lat := r.lat + lat, cells := r.cells ++ pathCells s field pa,
                 tags := if h = 0 then r.tags else paModule pa :: r.tags }) { bytes := bs }, s)
  else if !d.sspace then
    let own := s.copyOwn c true
    let mem (o : Nat) : Byte := match s.block? (blockOf c.g) with | some b => tget 0 b.bench o | none => 0
    .ok ({ bytes := (codes sa n).map fun o => (queuedByte own o).getD (mem o), lat := Config.latBench }, s)
  else
    match s.copyPlace c.owner field false true sa with
    | .error t => .error t
    | .ok (pa, s') =>
      if s'.poisonAt pa n then .error ({ code := 30, addr := BitVec.ofNat 64 sa }, s')
      else
        let own := s.copyOwn c false
        let key := some (s.keyAt c.owner pa)
        let (lat, h) := scratchLatency s field pa
        .ok ({ bytes := (codes pa n).map fun a => (queuedByte own a).getD (s'.readByte key a), lat,
               cells := pathCells s field pa, tags := if h = 0 then [] else [paModule pa] }, s')

/-- R323: an earlier copy that this one must wait for. -/
def State.copyHeld (s : State) (bench entry : Nat) (c : Copy) : Bool :=
  let mine := s.rangeLocks.filter fun l => l.bench = bench && l.entry = entry
  s.rangeLocks.any fun l =>
    l.owner = c.owner && l.bench / 48 = bench / 48 && (s.copy l.bench l.entry).order < c.order &&
      mine.any fun m => (m.isDst || l.isDst) && m.block = l.block && m.lo < l.hi && l.lo < m.hi

/-- A read of bytes that an earlier atomic of the issuing group has still to write waits for it (R363). -/
def State.copyBehind (s : State) (c : Copy) (bench : Bool) (lo n : Nat) : Bool :=
  match s.group? c.g with
  | none => false
  | some g => (s.unperformed g).any fun h => h.id < c.order && h.req.meets bench lo n

/-- The bytes that stand in a bench's staging buffer, of 256 KiB (R314). -/
def State.staged (s : State) (bench : Nat) : Nat :=
  ((s.copies.filter fun c => c.1 / 64 = bench && c.2.live).map fun c => (c.2.pieces.map fun p => p.bytes.length).sum).sum

/-- An entry's next piece may be read: also behind the acquires before its copy (R367, R373). -/
def State.pieceReady (s : State) (bench entry : Nat) : Bool :=
  let c := s.copy bench entry
  c.live && c.state = .running && c.fault.isNone && c.spec < c.desc.size && c.readAt ≤ s.gtc &&
    s.staged bench + (c.desc.pieceAt c.spec).2.2 ≤ 262144 && !s.copyHeld bench entry c &&
    !s.acquiring c.g c.acq && !s.unacked c.g (match s.group? c.g with | some g => g.core | none => 4 * bench) c.ar

/-- The first read of a piece, with its translations; a failure stops the reads there (R327). -/
def State.stagePiece (s : State) (bench entry : Nat) : State :=
  let c := s.copy bench entry
  let p := c.desc.pieceAt c.spec
  let (_, da, n) := p
  let field := fieldOfBench bench
  let fail (t : Trap × State) : State := (s.walked t.2).setCopy bench entry { c with fault := some { t.1 with
    cause0 := BitVec.ofNat 64 (handleOf bench entry c.gen % 2 ^ 32), cause1 := t.1.cause1 + 256, site := some c.addr } }
  match s.readPiece bench c p with
  | .error t => fail t
  | .ok (r, s1) =>
    match (if c.desc.dspace then s1.copyPlaces c.owner field (c.desc.kind ≠ 4) da n else .ok (codes da n, s1)) with
    | .error t => fail t
    | .ok (dst, s2) =>
      let p : Piece := { pos := c.spec, bytes := r.bytes, dst, firstRead := s.gtc, arrived := s.gtc + r.lat, cells := r.cells,
                         tags := r.tags.map (s.tagAt (s.gtc + r.lat)) }
      s2.setCopy bench entry { c with
        spec := c.spec + n, readAt := s.gtc + 1, pieces := c.pieces ++ [{ p with due := p.dueBy s }] }

/-- Whether the source bytes of the next piece wait for the group's own atomics. -/
def State.pieceBehind (s : State) (bench entry : Nat) : Bool :=
  let c := s.copy bench entry
  let (sa, _, n) := c.desc.pieceAt c.spec
  if !c.desc.hasSrc then false
  else if !c.desc.sspace then s.copyBehind c true sa n
  else
    match s.copyPlace c.owner (fieldOfBench bench) false true sa with
    | .ok (pa, _) => s.copyBehind c false pa n
    | .error _ => false

def execCopyPieceRead (bench entry : Nat) (s : State) : Host.Outcome State Fault Refusal :=
  if s.pieceReady bench entry && !s.pieceBehind bench entry then .next (s.stagePiece bench entry) else .next s

/-! ### Drains (R314, R318, R331) -/

/-- Table 16-3 as operations of Table 19-3. -/
def reduceOp (op : Nat) : Nat :=
  match op with
  | 0 => 0
  | 1 => 10
  | 2 => 13
  | _ => 12

/-- A piece's bytes, combined with what stands at the destination for CPYR; a poisoned element keeps its own. -/
def State.pieceBytes (s : State) (c : Copy) (p : Piece) : List Byte :=
  if c.desc.kind ≠ 4 then p.bytes
  else
    let block := s.block? (blockOf c.g)
    let old (a : Nat) : Byte := if c.desc.dspace then s.readByte (some (s.keyAt c.owner a)) a
      else match block with | some b => tget 0 b.bench a | none => 0
    (List.range (p.bytes.length / 4)).flatMap fun i =>
      let a := p.dst.getD (4 * i) 0
      let o := leNat ((codes a 4).map old)
      let v := leNat ((p.bytes.drop (4 * i)).take 4)
      if c.desc.dspace && s.poisonAt a 4 then (codes a 4).map old else leBytes 4 (atomNew (reduceOp c.desc.op) 32 o v 0)

/-- The destination bytes of a piece perform, sector by sector. -/
def State.drainBytes (s : State) (c : Copy) (p : Piece) : State :=
  let ws := p.dst.zip (s.pieceBytes c p)
  if c.desc.dspace then
    (gather ws).foldl (fun s t => s.performWrite (some (s.keyAt c.owner (64 * t.1))) (t.2.map fun b => (64 * t.1 + b.1, b.2))) s
  else s.modBlock (blockOf c.g) fun b => { b with bench := ws.foldl (fun m w => tset 0 m w.1 w.2) b.bench }

/-- R326: after the last drain: the destination lock, the arrival, COMPLETE. -/
def State.finishCopy (s : State) (bench entry : Nat) : State :=
  let c := s.copy bench entry
  let s1 := s.unlock bench entry true
  let s2 := match c.desc.course with
    | some o => s1.copyArrives (blockOf c.g) bench (handleOf bench entry c.gen) o
    | none => s1
  s2.endCopy bench entry .complete

/-- A deferred fault of an operation of region `seq` reaches its group: a later region that is squashed keeps it (R346,
R421). -/
def Group.deferFault (g : Group) (seq : Option Nat) (t : Trap) : Group :=
  { g with
    arch := { g.arch with deferred := g.arch.deferred ++ [t] },
    regions := g.regions.map fun r =>
      if seq.all fun n => n < r.seq then { r with ctx := { r.ctx with deferred := r.ctx.deferred ++ [t] } } else r }

/-- R327: the reads have stopped and everything below has drained. DEDUCED, log 63. -/
def State.copyFaults (s : State) (bench entry : Nat) : State :=
  let c := s.copy bench entry
  match c.fault with
  | some t =>
    if c.committed && c.state = .running && c.pieces.isEmpty then
      (s.setCopy bench entry { c with state := .faulted }).modGroup c.g fun g => g.deferFault none t
    else s
  | none => s

/-- R380: a CPYR step takes its place by its drain GTC, behind the requests on its locations whose regions have committed; one
that waits for room in the overflow area holds nothing back. -/
def State.stepBehind (s : State) (c : Copy) (p : Piece) : Bool :=
  c.desc.kind = 4 && c.desc.dspace && s.pendings.any fun q => q.due.isSome && !q.waited && q.req.places.any fun w =>
    !w.1 && p.dst.any fun a => a / 8 = w.2 / 8

/-- The piece that drains next may leave: its region has committed and its hold has passed. -/
def State.drainReady (s : State) (bench entry : Nat) : Bool :=
  let c := s.copy bench entry
  c.live && c.committed && c.state = .running &&
    (match c.pieces with | p :: _ => p.due ≤ s.gtc && !(s.stepBehind c p) | [] => c.fault.isSome)

/-- The longest tag hold of a piece's destination; 0 on the own die. -/
def State.pieceHold (s : State) (bench : Nat) (c : Copy) (p : Piece) : Nat :=
  if !c.desc.dspace then 0
  else p.dst.foldl (fun h a => max h (scratchLatency s (fieldOfBench bench) a).2) 0

def execCopyPieceDrain (bench entry : Nat) (s : State) : Host.Outcome State Fault Refusal :=
  let c := s.copy bench entry
  if !s.drainReady bench entry then .next s
  else
    match c.pieces with
    | [] => .next (s.copyFaults bench entry)
    | p :: rest =>
      let h := s.pieceHold bench c p
      if h ≠ 0 && !p.sent then
        .next (s.setCopy bench entry { c with pieces := { p with sent := true, due := s.gtc + s.qwin + h } :: rest })
      else
        let s1 := (s.drainBytes c p).setCopy bench entry { c with pos := p.pos + p.bytes.length, pieces := rest }
        .next (if c.desc.size ≤ p.pos + p.bytes.length then s1.finishCopy bench entry else s1.copyFaults bench entry)

end Sys2Proof.Machine
end

