-- ==== Sys2Proof/Machine/Matrix.lean ====
section
/-!
DEFINITION. Machine/Matrix.lean: the matrix engine: tiles, slots and the codebook, their versions, the format block, the
accumulation order, and MAJ 25 (R259-R281).
-/

namespace Sys2Proof.Machine

open Sys2Proof

/-! ### The format block (R264, R265) -/

/-- One side of a format block: format, scale blocks of 32, scales, stride shift, scale base, stride. -/
structure MxSide where
  fmt : Nat
  len32 : Bool
  scaled : Bool
  ssh : Nat
  sbase : Nat
  stride : Nat
  deriving DecidableEq, Repr

/-- A format block that passes R265: both sides, whether B is compressed, K, and whether the class is integer. -/
structure MxFmt where
  a : MxSide
  b : MxSide
  bsp : Bool
  k : Nat
  int : Bool
  deriving DecidableEq, Repr

/-- Table 13-3: K, dense and compressed, of a format pair. -/
def mxClass (fa fb : Nat) : Option (Nat × Nat) :=
  if fa = 0 && fb = 0 then some (8, 16)
  else if (fa = 1 || fa = 2) && (fb = 1 || fb = 2) then some (64, 128)
  else if (fa = 3 || fa = 4) && (fb = 3 || fb = 4) then some (128, 256)
  else if fa = 8 && fb = 8 then some (128, 256)
  else if 5 ≤ fa && fa ≤ 7 && ((5 ≤ fb && fb ≤ 7) || fb = 10) then some (256, if fa = 7 && fb = 7 then 512 else 0)
  else if fa = 9 && fb = 9 then some (256, 512)
  else none

/-- Formats that admit scales: 8-, 6- and 4-bit floating point, and CB2. -/
def mxScalable (f : Nat) : Bool := (3 ≤ f && f ≤ 7) || f = 10

def MxSide.ok (s : MxSide) : Bool :=
  (if s.scaled then mxScalable s.fmt else !s.len32 && s.ssh = 0) && (s.fmt ≠ 10 || (s.scaled && s.len32))

/-- Read and check the four registers. -/
def mxFormat (w0 w1 w2 w3 : W64) : Option MxFmt :=
  let v := w0.toNat
  let f (lo n : Nat) : Nat := v / 2 ^ lo % 2 ^ n
  let a : MxSide := { fmt := f 0 4, len32 := w0.getLsbD 4, scaled := w0.getLsbD 5, ssh := f 6 4, sbase := w1.toNat,
                      stride := w3.toNat % 2 ^ 32 }
  let b : MxSide := { fmt := f 16 4, len32 := w0.getLsbD 20, scaled := w0.getLsbD 21, ssh := f 22 4, sbase := w2.toNat,
                      stride := w3.toNat / 2 ^ 32 }
  match mxClass a.fmt b.fmt with
  | none => none
  | some (k0, k1) =>
    let bsp := w0.getLsbD 26
    let k := if bsp then k1 else k0
    if v / 2 ^ 27 ≠ 0 || f 10 6 ≠ 0 || k = 0 || !a.ok || !b.ok then none
    else some { a, b, bsp, k, int := a.fmt = 8 || a.fmt = 9 }

/-- The format block that a field names: MX_OPERAND with cause 1 and the register's number. DEDUCED, log 56. -/
def mxTrap (cause n : Nat) : Trap := { code := 26, cause0 := BitVec.ofNat 64 cause, cause1 := BitVec.ofNat 64 n }

def Env.mxBlock (e : Env) (code : BitVec 10) : Except Trap MxFmt :=
  let n := code.toNat - 128
  match mxFormat (e.sval n) (e.sval (n + 1)) (e.sval (n + 2)) (e.sval (n + 3)) with
  | some f => .ok f
  | none => .error (mxTrap 1 n)

/-! ### Tiles as bit streams (R222, R266) -/

/-- Bits of a stored element; a CB2 weight counts two. -/
def mxBits (f : Nat) : Nat :=
  match f with
  | 8 => 8
  | 9 => 4
  | 10 => 2
  | f => (specOf f).width

/-- Bytes of one row (or column) of K elements, and of a scale block's elements. -/
def rowBytes (f k : Nat) : Nat := k * mxBits f / 8
def MxSide.blockLen (s : MxSide) : Nat := if s.len32 then 32 else 16
def MxSlot.blockLen (s : MxSlot) : Nat := if s.len32 then 32 else 16

/-- R260: the tile takes a pair of weight slots. -/
def takesPair (f k : Nat) : Bool := 8192 < 64 * rowBytes f k

/-- An element's value (R224, R226). -/
def mxElem (f bits : Nat) : FVal :=
  let int (w : Nat) : FVal := let v := (BitVec.ofNat w bits).toInt; .fin (v < 0) v.natAbs 0 false
  match f with
  | 8 => int 8
  | 9 => int 4
  | f => readF (specOf f) bits

/-- R227: the eight weights of a code, before their scale. -/
def cb2Weights (codebook : Table W64) (code : Nat) : List FVal :=
  let ent := (tget 0 codebook (code / 256 % 256)).toNat
  let s (i : Nat) : Bool := code / 2 ^ (i + 1) % 2 = 1
  let s7 := (List.range 7).foldl (fun a i => a != s i) false != (ent / 2 ^ 32 % 2 = 1)
  (List.range 8).map fun i => .fin (if i = 7 then s7 else s i) (2 * (ent / 2 ^ (4 * i) % 16) + code % 2) (-3) false

/-- R225, R228: an element under its block's scale byte. -/
def mxScaled (x : Nat) : FVal → FVal
  | v => if x = 255 then .nan false
    else match v with
      | .fin n m e st => .fin n m (e + x - 127) st
      | v => v

/-- Bytes of a frame from an offset; bytes that the tile did not load have no stated contents. DEDUCED, log 58. -/
def frameBytes (draw : Nat) (data : List Byte) (off n : Nat) : List Byte :=
  let got := (data.drop off).take n
  got ++ (List.range (n - got.length)).map fun i => (Config.freeValue (draw + off + i)).setWidth 8

/-- The elements of row (or column) `m` of a dense frame, before scales. -/
def mxRow (draw : Nat) (codebook : Table W64) (data : List Byte) (f k m : Nat) : List FVal :=
  let rb := rowBytes f k
  let v := leNat (frameBytes draw data (m * rb) rb)
  if f = 10 then (List.range (k / 8)).flatMap fun j => cb2Weights codebook (v / 2 ^ (16 * j) % 65536)
  else (List.range k).map fun j => mxElem f (v / 2 ^ (mxBits f * j) % 2 ^ mxBits f)

/-- R271: the K positions of a compressed column; a dropped one is none. -/
def mxExpand : List FVal → List Nat → List (Option FVal)
  | a :: b :: vs, i :: j :: is =>
    (List.range 4).map (fun p => if p = i then some a else if p = j then some b else none) ++ mxExpand vs is
  | _, _ => []

/-- Apply a row's scale bytes. -/
def mxApply (draw : Nat) (s : MxSlot) (k m : Nat) (vs : List (Option FVal)) : List (Option FVal) :=
  if !s.scaled then vs
  else
    let nb := k / s.blockLen
    let xs := (frameBytes (draw + 65536) s.scale (m * nb) nb).map BitVec.toNat
    vs.zipIdx.map fun v => v.1.map (mxScaled (xs.getD (v.2 / s.blockLen) 255))

/-- The exact values of row `m` of a slot as an MMA of length `k` reads it; none at the dropped positions of a compressed
tile. -/
def MxSlot.row (s : MxSlot) (draw : Nat) (codebook : Table W64) (k m : Nat) : List (Option FVal) :=
  mxApply draw s k m
    (if s.state = 3 then mxExpand (mxRow draw codebook s.data s.fmt (k / 2) m) ((s.index.drop (m * (k / 2))).take (k / 2))
     else (mxRow draw codebook s.data s.fmt k m).map some)

/-! ### Accumulation (R268) -/

/-- The factors of one position; none where the position is dropped, whose product is a +0 term whatever the other factor
(R271). DEDUCED, log 128. -/
def mxPair (a b : Option FVal) : Option (FVal × FVal) :=
  match a, b with
  | some x, some y => some (x, y)
  | _, _ => none

/-- One product; none where it is invalid. -/
def mxProduct : Option (FVal × FVal) → Option FVal
  | none => some (.fin false 0 0 false)
  | some p => mulF p.1 p.2

/-- The exact sum of products of one block. -/
def blockSum (ps : List (Option (FVal × FVal))) : FVal :=
  if ps.any fun p => p.any fun q => q.1.isNan || q.2.isNan then .nan false
  else
    let prods := ps.map mxProduct
    if prods.any Option.isNone then .nan false
    else (sumF 1 (prods.map fun p => p.getD (.nan false))).getD (.nan false)

def rne32 (v : FVal) : W32 := BitVec.ofNat 32 (deliver (specOf 0) 1 false false v).1

def fadd32 (a b : W32) : W32 := BitVec.ofNat 32 (addV (rneMode false) (specOf 0) a.toNat b.toNat).1

def intOf : FVal → Int
  | .fin n m _ _ => if n then -(m : Int) else m
  | _ => 0

/-- One element: `n` blocks of `s` products in increasing K. -/
def mxAccum (int : Bool) (s : Nat) : Nat → List (Option (FVal × FVal)) → W32 → W32
  | 0, _, acc => acc
  | n + 1, ps, acc =>
    let blk := ps.take s
    let acc' := if int then acc + BitVec.ofInt 32 ((blk.map fun p => p.elim 0 fun q => intOf q.1 * intOf q.2).sum)
      else fadd32 acc (rne32 (blockSum blk))
    mxAccum int s n (ps.drop s) acc'

/-- R268: the length of a summation block. -/
def MxFmt.sumLen (f : MxFmt) : Nat :=
  min f.k (if (f.a.scaled && !f.a.len32) || (f.b.scaled && !f.b.len32) then 16 else 32)

/-! ### Accumulator tiles -/

/-- `n` consecutive elements of a table from key `i`, as a list. -/
def denseOf : Table W32 → Nat → Nat → List W32
  | _, _, 0 => []
  | [], i, n + 1 => 0 :: denseOf [] (i + 1) n
  | (k, v) :: t, i, n + 1 => if k = i then v :: denseOf t (i + 1) n else 0 :: denseOf ((k, v) :: t) (i + 1) n

/-- The table of a list of elements. -/
def ofDense (l : List W32) : Table W32 := (l.zipIdx.filter fun p => p.1 ≠ 0).map fun p => (p.2, p.1)

def Core.tile (c : Core) (n : Nat) : Table W32 := tget [] c.acc n
def Core.setTile (c : Core) (n : Nat) (t : Table W32) : Core := { c with acc := tset [] c.acc n t }
def Core.slot (c : Core) (n : Nat) : MxSlot := tget {} c.slots n
def Core.setSlot (c : Core) (n : Nat) (s : MxSlot) : Core := { c with slots := tset {} c.slots n s }

/-- Rebuild a tile row by row. -/
def mapRows (t : Table W32) (f : Nat → List W32 → List W32) : Table W32 :=
  let d := denseOf t 0 4096
  ofDense ((List.range 64).flatMap fun r => f r ((d.drop (64 * r)).take 64))

/-! ### Versions and holding (R261, R262) -/

/-- What an instruction names: tiles 0-7, slots 8-25, the codebook 26. -/
def MxSaved.item : MxSaved → Nat
  | .acc t _ => t
  | .slot n _ => 8 + n
  | .codebook _ => 26

/-- The saved copies of a core, with their groups. -/
def State.mxSavedOn (s : State) (core : Nat) : List (GroupRef × MxSaved) :=
  (s.groups.filter fun g => g.core = core).flatMap fun g => g.regions.flatMap fun r => r.mxSaved.map fun m => (g.ref, m)

/-- Another group holds one of the items. -/
def Env.mxHeld (e : Env) (items : List Nat) : Bool :=
  (e.s.mxSavedOn e.g.core).any fun m => m.1 ≠ e.g.ref && items.contains m.2.item

/-- The saved copies as they stand, the issuing group's own from its present regions. -/
def Env.mxSaves (e : Env) : List MxSaved :=
  ((e.s.mxSavedOn e.g.core).filter fun m => m.1 ≠ e.g.ref).map (·.2) ++ e.g.regions.flatMap fun r => r.mxSaved

def MxSaved.slotIn (lo hi : Nat) : MxSaved → Bool
  | .slot n old => lo ≤ n && n < hi && old.state ≠ 0
  | _ => false

/-- Whether the copies that a write of the items needs are free: 2 staged versions a tile, 4 A frames, 32 weight frames,
one codebook shadow. -/
def Env.mxFree (e : Env) (items : List Nat) : Bool :=
  let saves := e.mxSaves
  let core := e.s.core e.g.core
  let mine : List Nat := match e.g.regions.getLast? with | some r => r.mxSaved.map MxSaved.item | none => []
  let fresh := items.filter fun i => !mine.contains i
  let frames (lo hi total : Nat) : Bool :=
    let cur := ((List.range (hi - lo)).filter fun i => (core.slot (lo + i)).state ≠ 0).length
    let need := (items.filter fun i => 8 + lo ≤ i && i < 8 + hi && (fresh.contains i || (core.slot (i - 8)).state = 0)).length
    cur + (saves.filter (MxSaved.slotIn lo hi)).length + need ≤ total
  (fresh.all fun i =>
    if i < 8 then (saves.filter fun m => m.item = i).length < 2
    else if i = 26 then (saves.filter fun m => m.item = 26).isEmpty else true) &&
  (!(items.any fun i => 8 ≤ i && i < 10) || frames 0 2 4) && (!(items.any fun i => 10 ≤ i && i < 26) || frames 2 18 32)

/-- Save what the current region writes for the first time. -/
def Env.mxSave (e : Env) (items : List Nat) : Env :=
  let core := e.s.core e.g.core
  e.modRegion fun r =>
    let mine := r.mxSaved.map MxSaved.item
    { r with mxSaved := r.mxSaved ++ (items.filter fun i => !mine.contains i).map fun i =>
        if i < 8 then .acc i (core.tile i) else if i < 26 then .slot (i - 8) (core.slot (i - 8)) else .codebook core.codebook }

/-- Wait for holds and copies, save, and change the engine. -/
def Env.mxWrite (e : Env) (reads writes : List Nat) (k : Core → Core) (after : Env → Res) : Res :=
  if e.mxHeld (reads ++ writes) || !e.mxFree writes then .wait .empty
  else
    let e1 := e.mxSave writes
    after { e1 with s := e1.s.setCore e1.g.core (k (e1.s.core e1.g.core)) }

def mxOp (fn : Nat) (x : Ext) (i : IssueInfo) (k : Env → Res) : State → Host.Outcome State Fault Refusal :=
  issueExt 25 fn x { i with role := some 1 } k

def mxInfo (x : Ext) : IssueInfo := { len := lenExt x }

/-! ### Accesses to memory (R274, R279) -/

/-- The byte of a failing chunk that fails first. DEDUCED, log 57. -/
def Env.firstBad (e : Env) (store bm : Bool) (va : Nat) (n : Nat) (t : Trap) : Trap :=
  match (List.range n).find? fun i => (e.place store bm 1 { slot := none, va := va + i, n := 1 }).toOption.isNone with
  | some i => { t with addr := BitVec.ofNat 64 (va + i) }
  | none => t

/-- Check chunks of up to 16 bytes, in order. -/
def Env.placeChunks (e : Env) (store bm : Bool) : List (Nat × Nat) → Except (Trap × State) (List Nat × Env)
  | [] => .ok ([], e)
  | (va, n) :: rest =>
    match e.placeAll store bm 1 [{ slot := none, va, n }] with
    | .error t => .error (e.firstBad store bm va n t.1, t.2)
    | .ok (p, e1) =>
      match e1.placeChunks store bm rest with
      | .error t => .error t
      | .ok (ps, e2) => .ok ((p.headD none).getD 0 :: ps, e2)

/-- The 16-byte chunks of 64 rows. -/
def rowChunks (base stride n : Nat) : List (Nat × Nat) :=
  (List.range 64).flatMap fun m => (List.range (n / 16)).map fun i : Nat => ((base + m * stride + 16 * i) % 2 ^ 64, 16)

/-- R267: the addresses of the scale bytes. -/
def scaleChunks (s : MxSide) (base k : Nat) : List (Nat × Nat) :=
  if !s.scaled then []
  else (List.range 64).flatMap fun m => (List.range (k / s.blockLen)).map fun b : Nat =>
    let e := (base + m * s.stride + b * (s.blockLen * mxBits s.fmt / 8)) % 2 ^ 64
    ((s.sbase + e / 2 ^ s.ssh) % 2 ^ 64, 1)

/-- The bytes at checked chunks, in order. -/
def Env.readChunks (e : Env) (bm : Bool) (own : List QEntry) (cs : List (Nat × Nat)) (ps : List Nat) : List Byte :=
  (cs.zip ps).flatMap fun c => e.bytesAt bm own c.2 c.1.2

/-- The base address of a matrix access. -/
def Env.mxBase (e : Env) (x : Ext) : Nat := e.eaU x

/-- Read chunks of 16 bytes, and single bytes, as one access of the group; a poisoned sector fills nothing and brings POISON
(R421). -/
def Env.mxLoad (e : Env) (bm : Bool) (cs ss : List (Nat × Nat)) (k : Env → List Byte → Res) : Res :=
  match e.placeChunks false bm (cs ++ ss) with
  | .error t => .trapAfter t.1 t.2
  | .ok (ps, e1) =>
    let data := (ps.take cs.length).map some
    let scales := (ps.drop cs.length).map some
    if e1.behindAtom bm data 16 || e1.behindAtom bm scales 1 then .wait .empty
    else
      let bytes := e1.readChunks bm (e1.ownQueue bm) (cs ++ ss) ps
      let (lat, e2) := e1.readPath bm data 16
      let (lat', e3) := e2.readPath bm scales 1
      match (e3.poisonOf bm data 16 (cs.map (·.1))).or (e3.poisonOf bm scales 1 (ss.map (·.1))) with
      | some t => .done (e3.pendResult (max lat lat') [] (some t))
      | none => k (e3.pendResult (max lat lat') [] none) bytes

/-! ### MLDA, MLDB and MCBT (R274, R275) -/

def loadSide (fn : Nat) (x : Ext) (isA : Bool) : State → Host.Outcome State Fault Refusal :=
  mxOp fn x { mxInfo x with reads := true } fun e =>
    match e.mxBlock x.b with
    | .error t => .trap t
    | .ok f =>
      let side := if isA then f.a else f.b
      let imm := x.imm8.toNat
      let n := if isA then imm % 2 else imm % 16
      let bm := if isA then !x.imm8.getLsbD 1 else !x.imm8.getLsbD 4
      let rb := rowBytes side.fmt f.k
      let pair := !isA && takesPair side.fmt f.k
      let base := e.mxBase x
      if pair && n % 2 = 1 then .trap (mxTrap 3 n)
      else if base % 16 ≠ 0 || side.stride % 16 ≠ 0 then
        .trap (accessTrap false bm { slot := none, va := base, n := 16 } (8, 0))
      else
        let at0 := if isA then n else 2 + n
        let items := (8 + at0) :: (if pair then [9 + at0] else [])
        if e.mxHeld items || !e.mxFree items then .wait .empty
        else
          let slot : MxSlot := { state := if !isA && f.bsp then 2 else 1, fmt := side.fmt, len32 := side.len32,
                                 scaled := side.scaled, stride := side.stride }
          e.mxLoad bm (rowChunks base side.stride rb) (scaleChunks side base f.k) fun e bytes =>
            e.mxWrite [] items (fun c =>
              let c1 := c.setSlot at0 { slot with data := bytes.take (64 * rb), scale := bytes.drop (64 * rb) }
              if pair then c1.setSlot (at0 + 1) { slot with state := 4 } else c1) .done

def execMlda (x : Ext) := loadSide 1 x true
def execMldb (x : Ext) := loadSide 2 x false

def execMcbt (x : Ext) :=
  mxOp 3 x { mxInfo x with reads := true } fun e =>
    let base := e.mxBase x
    let bm := !x.imm8.getLsbD 0
    if base % 16 ≠ 0 then .trap (accessTrap false bm { slot := none, va := base, n := 16 } (8, 0))
    else if e.mxHeld [26] || !e.mxFree [26] then .wait .empty
    else
      e.mxLoad bm ((List.range 128).map fun i => ((base + 16 * i) % 2 ^ 64, 16)) [] fun e bytes =>
        e.mxWrite [] [26] (fun c => { c with codebook :=
          ((List.range 256).map fun i => (i, BitVec.ofNat 64 (leNat ((bytes.drop (8 * i)).take 8)))).filter fun p => p.2 ≠ 0 })
          .done

/-! ### MMA (R268-R270, R276) -/

/-- The checks of an MMA's slots: none, or the trap. -/
def mmaTrap (c : Core) (f : MxFmt) (xa yb : Nat) : Option Trap :=
  let a := c.slot xa
  let b := c.slot (2 + yb)
  let pair := !f.bsp && takesPair f.b.fmt f.k
  if b.state = 4 || (pair && yb % 2 = 1) then some (mxTrap 3 yb)
  else if !(a.state = 1 && a.fmt = f.a.fmt && a.len32 = f.a.len32 && a.scaled = f.a.scaled) then some (mxTrap 2 xa)
  else if !(b.state = (if f.bsp then 3 else 1) && b.fmt = f.b.fmt && b.len32 = f.b.len32 && b.scaled = f.b.scaled) then
    some (mxTrap 2 yb)
  else if pair && (c.slot (3 + yb)).state ≠ 4 then some (mxTrap 2 (yb + 1))
  else none

/-- The tile after an MMA of the rows that `on` selects. -/
def mmaTile (c : Core) (draw : Nat) (f : MxFmt) (xa yb n : Nat) (on : Nat → Bool) : Table W32 :=
  let cols := (List.range 64).map fun j => (c.slot (2 + yb)).row (draw + 2 ^ 20) c.codebook f.k j
  mapRows (c.tile n) fun r old =>
    if !on r then old
    else
      let av := (c.slot xa).row draw c.codebook f.k r
      (old.zip cols).map fun p => mxAccum f.int f.sumLen (f.k / f.sumLen) (av.zipWith mxPair p.2) p.1

def execMma (x : Ext) :=
  mxOp 0 x (mxInfo x) fun e =>
    match e.mxBlock x.a with
    | .error t => .trap t
    | .ok f =>
      let imm := x.imm8.toNat
      let n := imm % 8
      let xa := imm / 8 % 2
      let yb := imm / 16
      let pair := !f.bsp && takesPair f.b.fmt f.k
      let reads := [8 + xa, 10 + yb] ++ (if pair then [11 + yb] else []) ++ (if f.b.fmt = 10 then [26] else [])
      if e.mxHeld reads then .wait .empty
      else
        match mmaTrap (e.s.core e.g.core) f xa yb with
        | some t => .trap t
        | none =>
          let on (r : Nat) : Bool := e.active x (r / 2)
          let work (e : Env) : Res :=
            let c := e.s.core e.g.core
            let region := match e.g.regions.getLast? with | some r => r.seq | none => 0
            .done (e.setS (e.s.setCore e.g.core { c with jobs := c.jobs ++ [{ g := e.g.ref, region, left := 128 }] }))
          if slots.all fun i => !e.active x i then work e
          else e.mxWrite reads [n] (fun c => c.setTile n (mmaTile c e.s.freeCtr f xa yb n on)) work

/-! ### MZERO, MSCL, MRD and MWR (R277, R278) -/

def execMzero (x : Ext) :=
  mxOp 4 x (mxInfo x) fun e => e.mxWrite [] [x.imm8.toNat % 8] (fun c => c.setTile (x.imm8.toNat % 8) []) .done

/-- The mode of a matrix instruction's RM (R238). -/
def mxMode (rm : BitVec 3) : Nat := if rm = 0 then 1 else rm.toNat

/-- R277: an element as FP32, or as INT32 exactly, times the factor. -/
def msclElem (mode : Nat) (int : Bool) (f x : W32) : W32 :=
  let xv : FVal := if int then .fin (x.toInt < 0) x.toInt.natAbs 0 false else readF (specOf 0) x.toNat
  let fv := readF (specOf 0) f.toNat
  BitVec.ofNat 32 (deliver (specOf 0) mode false false (arith [xv, fv] (mulF xv fv))).1

def execMscl (x : Ext) :=
  mxOp 9 x (mxInfo x) fun e =>
    let imm := x.imm8.toNat
    let f := e.srcS32 (.flt .f32) x.lit x.a
    e.mxWrite [imm / 8 % 8] [imm % 8] (fun c => c.setTile (imm % 8)
      (ofDense ((denseOf (c.tile (imm / 8 % 8)) 0 4096).map (msclElem (mxMode x.rm) (x.imm8.getLsbD 6) f)))) .done

/-- Eight elements of a row, from column 8 j. -/
def Core.eight (c : Core) (n row j : Nat) : List W32 := (List.range 8).map fun i => tget 0 (c.tile n) (64 * row + 8 * j + i)

/-- A float converted to another format under a matrix RM and SAT (Table 11-4). -/
def mxConvert (dst : Nat) (mode : Nat) (sat : Bool) (x : W32) : Nat :=
  (deliver (specOf dst) mode sat false (readF (specOf 0) x.toNat)).1

def execMrd (x : Ext) :=
  mxOp 5 x (mxInfo x) fun e =>
    let imm := x.imm8.toNat
    let n := imm % 8
    let h := imm / 8 % 2
    let j := imm / 16 % 8
    if e.mxHeld [n] then .wait .empty
    else
      let c := e.s.core e.g.core
      let got := slots.map fun t => c.eight n (2 * t + h) j
      let d := x.d.toNat
      let val (i t : Nat) : W32 :=
        let es := got.getD t []
        if x.imm8.getLsbD 7 then
          let cv (k : Nat) : Nat := mxConvert 1 (mxMode x.rm) x.sat (es.getD k 0)
          BitVec.ofNat 32 (cv (2 * i) + cv (2 * i + 1) * 65536)
        else es.getD i 0
      let reg (i : Nat) : RegVal := .v (e.vIdx (d + i)) (.ofSlots fun t =>
        if e.parts x t then val i t else (e.vOld (d + i)).slot t)
      .done ((e.pendResult 12 ((List.range (if x.imm8.getLsbD 7 then 4 else 8)).map reg) none).withPasses 8)

def execMwr (x : Ext) :=
  mxOp 6 x (mxInfo x) fun e =>
    let imm := x.imm8.toNat
    let n := imm % 8
    let h := imm / 8 % 2
    let j := imm / 16 % 8
    let on := slots.filter fun t => e.active x t
    let done (e : Env) : Res := .done (e.withPasses 8)
    if on.isEmpty then (if e.mxHeld [n] then .wait .empty else done e)
    else
      e.mxWrite [] [n] (fun c => c.setTile n (on.foldl (fun t i => (List.range 8).foldl (fun t k =>
        tset 0 t (64 * (2 * i + h) + 8 * j + k) ((e.vval (x.a.toNat + k)).slot i)) t) (c.tile n))) done

/-! ### MST (R279) -/

/-- The stored form of an element, and its bytes. -/
def mstElem (form mode : Nat) (sat : Bool) (x : W32) : Nat :=
  match form with
  | 0 => x.toNat
  | 8 => (BitVec.ofInt 8 (clampInt (-128) 127 x.toInt)).toNat
  | f => mxConvert f mode sat x
def mstBytes (form : Nat) : Nat := match form with | 0 => 4 | 1 | 2 => 2 | _ => 1

/-- The entries of one row: one for each 64 bytes of it, in every chunk that these meet. -/
def Env.rowEntries (e : Env) (bm : Bool) (row : List (Nat × Byte)) : List QEntry :=
  (List.range ((row.length + 63) / 64)).flatMap fun i =>
    ((e.entriesOf bm ((row.drop (64 * i)).take 64)).zipIdx).map fun q => { q.1 with slots := if q.2 = 0 then 1 else 0 }

/-- The engine takes the store: its rows enter the queue one after another, as the queue has room (R279).
DEDUCED, log 129. -/
def execMst (x : Ext) :=
  mxOp 7 x { mxInfo x with writes := true } fun e =>
    let imm := x.imm8.toNat
    let n := imm % 8
    let form := imm / 16
    let bm := !x.imm8.getLsbD 3
    let base := e.mxBase x
    let stride := e.stride x
    let eb := mstBytes form
    if base % 16 ≠ 0 || stride % 16 ≠ 0 then .trap (accessTrap true bm { slot := none, va := base, n := 16 } (8, 0))
    else if e.mxHeld [n] then .wait .empty
    else
      let cs := rowChunks base stride (64 * eb)
      match e.placeChunks true bm cs with
      | .error t => .trapAfter t.1 t.2
      | .ok (ps, e) =>
        let elems := denseOf ((e.s.core e.g.core).tile n) 0 4096
        let bytes := elems.flatMap fun v => leBytes eb (mstElem form (mxMode x.rm) x.sat v)
        let ws := (ps.flatMap fun p => codes p 16).zip bytes
        let rows := (List.range 64).map fun m => e.rowEntries bm ((ws.drop (64 * eb * m)).take (64 * eb))
        let c := e.s.core e.g.core
        let region := match e.g.regions.getLast? with | some r => r.seq | none => 0
        .done (e.setS (e.s.setCore e.g.core { c with stores := c.stores ++ [{ g := e.g.ref, region, rows }] }))

/-- The first row of the oldest store of an engine enters the core's queue, where it has room and the group's earlier matrix work
is done. -/
def Core.rowDue (c : Core) (s : State) (core : Nat) : Option (List QEntry) :=
  match c.stores with
  | [] => none
  | t :: _ =>
    if c.jobs.any fun j => j.g = t.g && j.region ≤ t.region then none
    else (t.rows.head?).filter fun q => s.sqCore core + (q.map fun x => x.slots).sum ≤ 2048

def State.takeRow (s : State) (core : Nat) : State :=
  let c := s.core core
  match c.stores, c.rowDue s core with
  | t :: ts, some q =>
    let left : List RowStore := if t.rows.length ≤ 1 then ts else { t with rows := t.rows.drop 1 } :: ts
    { s.setCore core { c with stores := left } with
      entries := s.entries ++ q.zipIdx.map fun x => { x.1 with id := s.nextId + x.2 }, nextId := s.nextId + q.length }
  | _, _ => s

/-! ### MCMP (R271, R280) -/

/-- Order of magnitude: a NaN above every number, an infinity above every finite value. -/
def magRank : FVal → Nat
  | .nan _ => 2
  | .inf _ => 1
  | _ => 0
def magLess (a b : FVal) : Bool :=
  magRank a < magRank b ||
    (magRank a = 0 && magRank b = 0 &&
      (match a, b with | .fin _ m e _, .fin _ m' e' _ => cmpF (.fin false m e false) (.fin false m' e' false) < 0 | _, _ => false))

/-- The position of the largest, the lower one on a tie, among those allowed. -/
def largest (vs : List FVal) (skip : Option Nat) : Nat :=
  ((vs.zipIdx.filter fun v => some v.2 ≠ skip).foldl (fun (best : Option (FVal × Nat)) v =>
    match best with
    | none => some v
    | some b => if magLess b.1 v.1 then some v else some b) none).elim 0 (·.2)

/-- The two kept positions of a group of four, ascending. -/
def keptOf (vs : List FVal) : Nat × Nat :=
  let i := largest vs none
  let j := largest vs (some i)
  (min i j, max i j)

/-- Compress one column: the kept codes and their positions. -/
def compressCol (f k : Nat) (bits : Nat) : List (Nat × Nat) :=
  let w := mxBits f
  (List.range (k / 4)).flatMap fun g =>
    let cs := (List.range 4).map fun i => bits / 2 ^ (w * (4 * g + i)) % 2 ^ w
    let (i, j) := keptOf (cs.map (mxElem f))
    [(cs.getD i 0, i), (cs.getD j 0, j)]

/-- R271 over a slot: 64 columns of `k` elements become `k` / 2 kept elements with their positions. -/
def MxSlot.compress (s : MxSlot) (draw k : Nat) : MxSlot :=
  let rb := rowBytes s.fmt k
  let cols := (List.range 64).map fun m => compressCol s.fmt k (leNat (frameBytes draw s.data (m * rb) rb))
  let pack (c : List (Nat × Nat)) : List Byte :=
    leBytes (rb / 2) ((c.zipIdx.map fun p => p.1.1 * 2 ^ (mxBits s.fmt * p.2)).sum)
  { s with state := 3, data := cols.flatMap pack, index := cols.flatMap fun c => c.map (·.2) }

def execMcmp (x : Ext) :=
  mxOp 8 x (mxInfo x) fun e =>
    match e.mxBlock x.a with
    | .error t => .trap t
    | .ok f =>
      let y := x.imm8.toNat % 16
      let pair := takesPair f.b.fmt f.k
      let items := (10 + y) :: (if pair then [11 + y] else [])
      if !f.bsp then .trap (mxTrap 1 (x.a.toNat - 128))
      else if e.mxHeld [10 + y] then .wait .empty
      else
        let s := (e.s.core e.g.core).slot (2 + y)
        if s.state = 4 || (pair && y % 2 = 1) then .trap (mxTrap 3 y)
        else if !(s.state = 2 && s.fmt = f.b.fmt && s.len32 = f.b.len32 && s.scaled = f.b.scaled) then .trap (mxTrap 2 y)
        else
          e.mxWrite [] items (fun c =>
            let c1 := c.setSlot (2 + y) (s.compress e.s.freeCtr f.k)
            if pair then c1.setSlot (3 + y) {} else c1) .done

end Sys2Proof.Machine
end

