-- ==== Sys2Proof/Machine/Squash.lean ====
section
/-!
DEFINITION. Machine/Squash.lean: what a squash does to a group (R412-R415), what stopping a block needs of it, and the save
area that a stopped block is written to (R434-R437).
-/

namespace Sys2Proof.Machine

open Sys2Proof

/-! ### Squash (R412) -/

/-- Put a saved copy of the matrix engine back (R261). -/
def Core.restore (c : Core) : MxSaved → Core
  | .acc n old => c.setTile n old
  | .slot n old => c.setSlot n old
  | .codebook old => { c with codebook := old }

/-- The engine after the regions of a group, oldest first, have been undone, youngest first; their work in flight is
cancelled. -/
def Core.unwind (c : Core) (r : GroupRef) (rs : List Region) : Core :=
  let c1 := (rs.reverse.flatMap fun r => r.mxSaved).foldl Core.restore c
  { c1 with
    jobs := c1.jobs.filter fun j => j.g ≠ r || !(rs.any fun q => q.seq = j.region),
    stores := c1.stores.filter fun t => t.g ≠ r || !(rs.any fun q => q.seq = t.region) }

/-- The group at the head of its oldest uncommitted region; it stays where it is in the active set. DEDUCED, log 70. -/
def Group.unwind (g : Group) (gtc cycle : Nat) (dropped : List Nat) : Group :=
  match g.regions with
  | [] => g
  | r :: _ =>
    { g with
      arch := r.ctx, regions := [], wait := .ready, waitSince := gtc, headPending := true,
      squashes := (g.squashes + 1) % 2 ^ 32, busyUntil := cycle, ended := false, doomed := false, step := none,
      tried := none, withheldSince := none,
      waiting := g.waiting.filter fun i => !dropped.contains i, stall := none }

/-- A fill of a squashed region is cancelled; a result that a squashed region had received is sent again, under tags of its own
(R308, R315). -/
def Fill.unwind (r : GroupRef) (seqs : List Nat) (gtc : Nat) (f : Fill) : Option Fill :=
  if f.g ≠ r then some f
  else if !f.closing then (if seqs.contains f.region then none else some f)
  else if f.arrived then
    let due := gtc + Config.latDrain
    some { f with arrived := false, due, tags := f.tags.map fun t => { t with stamp := due - (f.due - t.stamp), fixed := none } }
  else some f

/-- The uncommitted copies of a group are discarded whole, with their locks (R328). -/
def State.dropCopies (s : State) (r : GroupRef) : State :=
  (s.copies.filter fun c => c.2.live && !c.2.committed && c.2.g = r).foldl
    (fun s c => s.endCopy (c.1 / 64) (c.1 % 64) .cancelled) s

/-- R412: every uncommitted region of a group is squashed; a group without one is not affected (R410). -/
def State.squash (s : State) (r : GroupRef) : State :=
  match s.group? r with
  | none => s
  | some g =>
    if g.regions.isEmpty then s
    else
      let seqs := g.regions.map fun q => q.seq
      let dropped := g.held.map (fun h => h.id) ++
        (s.fills.filter fun f => f.g = r && !f.closing && seqs.contains f.region).map fun f => f.id
      let s1 := (s.dropCopies r).setCore g.core ((s.core g.core).unwind r g.regions)
      ({ s1 with
          fills := s1.fills.filterMap (Fill.unwind r seqs s.gtc),
          entries := s1.entries.filter fun q => q.g ≠ r || q.released }).setGroup (g.unwind s.gtc (s.nextCycle (benchOfCore g.core)) dropped)

def State.squashAll (s : State) (rs : List GroupRef) : State := rs.foldl State.squash s

/-! ### Blocks on cores -/

/-- The cores of a block's span, and the core of one of its groups (groups lie on its cores ceil(GROUPS / SPAN) at a time). -/
def Block.cores (b : Block) : List Nat := codes b.lead b.kernel.span

/-- The bytes of bench memory that a core of the span holds (R284), in 256-byte units. -/
def benchPart (benchMem j : Nat) : Nat := (min 524288 (benchMem - 524288 * j) + 255) / 256 * 256

/-- The block is placed or its cores are still held by its save or end. -/
def Block.holdsCores (b : Block) : Bool := match b.state with | .saved .. => false | _ => true

/-! ### The save area (R435-R437) -/

def round64 (n : Nat) : Nat := (n + 63) / 64 * 64

/-- Saved bytes of a vector register. -/
def VVal.bytes : VVal → List Byte
  | .u x => leBytes 4 x.toNat
  | .a b d => leBytes 4 b.toNat ++ leBytes 4 d.toNat
  | .g xs => slots.flatMap fun i => leBytes 4 (xs.getD i 0).toNat

def padTo (n : Nat) (bs : List Byte) : List Byte := bs ++ List.replicate (n - bs.length) 0

/-- The context part of a group area. -/
def Group.contextBytes (g : Group) : List Byte :=
  let a := g.arch
  let mask := ((List.range 16).map fun i => if (tget none g.tokens i).isSome then 2 ^ i else 0).sum
  leBytes 8 a.pc ++ leBytes 4 a.run.toNat ++ leBytes 4 a.entryRun.toNat ++ leBytes 8 a.fmode.toNat ++ leBytes 1 a.vwb ++
    leBytes 2 a.swb ++ leBytes 1 ((if g.exited then 1 else 0) + (if a.handler then 2 else 0)) ++ leBytes 4 a.stack.length ++
    leBytes 4 a.cursor ++ leBytes 4 g.squashes ++ leBytes 2 mask ++ leBytes 2 0 ++ leBytes 4 a.spillMark ++
    List.replicate 16 0

/-- Full/empty bits: 1 where the register is full. -/
def Arch.fullBits (a : Arch) : List Byte :=
  (List.range 64).map fun i => BitVec.ofNat 8 (((List.range 8).map fun j =>
    let n := 8 * i + j
    if (if n < 128 then (a.vreg n).pend.isNone else (a.ureg (n - 128)).pend.isNone) then 2 ^ j else 0).sum)

/-- A group's area (Table 21-5); a group that has exited has its context alone. -/
def Group.areaBytes (k : Kernel) (g : Group) : List Byte :=
  let a := g.arch
  if g.exited then g.contextBytes
  else
    let tags := (List.range 32).map fun i => BitVec.ofNat 8 (((List.range 4).map fun j =>
      let n := 4 * i + j
      (if n < k.vcount then (a.vreg n).val.tag else 3) * 4 ^ j).sum)
    let onChip := a.stack.take (a.stack.length - a.spilled)
    let bytes := tags ++ ((List.range k.vcount).flatMap fun n => (a.vreg n).val.bytes) ++
      ((List.range k.scount).flatMap fun n => leBytes 8 (if n = 0 then 0 else (a.ureg n).val.toNat)) ++
      ((codes 376 8).flatMap fun n => leBytes 8 (a.ureg n).val.toNat) ++
      ((List.range 8).flatMap fun n => leBytes 4 (a.kreg n).toNat) ++ a.fullBits ++
      padTo 512 (onChip.reverse.flatMap DivEntry.bytes) ++ g.contextBytes ++
      ((List.range 16).flatMap fun i => leBytes 4 ((tget none g.tokens i).getD 0))
    padTo (round64 bytes.length) bytes

/-- A slot's tag, 8 bytes (Table 21-6). -/
def MxSlot.tagBytes (x : MxSlot) : List Byte :=
  leBytes 8 (x.state + x.fmt * 16 + (if x.len32 then 256 else 0) + (if x.scaled then 512 else 0))

/-- Four 2-bit positions a byte. -/
def packIndex : List Nat → List Byte
  | a :: b :: c :: d :: t => BitVec.ofNat 8 (a + 4 * b + 16 * c + 64 * d) :: packIndex t
  | [a, b, c] => [BitVec.ofNat 8 (a + 4 * b + 16 * c)]
  | [a, b] => [BitVec.ofNat 8 (a + 4 * b)]
  | [a] => [BitVec.ofNat 8 a]
  | [] => []

/-- `n` bytes of a store of the engine; those that no tile has loaded have no stated contents. DEDUCED, log 58. -/
def storeBytes (draw salt n : Nat) (bs : List Byte) : List Byte :=
  bs.take n ++ (List.range (n - bs.length)).map fun i => Config.freeByte draw (salt + i)

/-- The 8-KiB frame of a weight slot; the second of a pair holds what the first one's tile has beyond it (R260). -/
def Core.frame (c : Core) (n : Nat) : List Byte :=
  if (c.slot n).state = 4 then (c.slot (n - 1)).data.drop 8192 else (c.slot n).data

/-- The engine state of one core (Table 21-6). -/
def Core.engineBytes (c : Core) (draw : Nat) : List Byte :=
  let scale (n : Nat) : List Byte := storeBytes draw (2 ^ 20 * n + 2 ^ 16) 2048 (c.slot n).scale
  ((List.range 8).flatMap fun n => (List.range 4096).flatMap fun i => leBytes 4 (tget 0 (c.tile n) i).toNat) ++
    ((List.range 2).flatMap fun n => storeBytes draw (2 ^ 20 * n) 16384 (c.slot n).data ++ scale n) ++
    ((codes 2 16).flatMap fun n => storeBytes draw (2 ^ 20 * n) 8192 (c.frame n) ++ scale n ++
      storeBytes draw (2 ^ 20 * n + 2 ^ 17) 4096 (packIndex (c.slot n).index)) ++
    padTo 256 ((List.range 18).flatMap fun n => (c.slot n).tagBytes) ++
    ((List.range 256).flatMap fun i => leBytes 8 (tget 0 c.codebook i).toNat)

def engineSize : Nat := 399616

/-- The size of a group's area, without its bytes. -/
def Group.areaSize (k : Kernel) (g : Group) : Nat :=
  if g.exited then 64
  else
    let v := ((List.range k.vcount).map fun n => match (g.arch.vreg n).val with | .u _ => 4 | .a _ _ => 8 | .g _ => 128).sum
    round64 (v + 8 * k.scount + 832)

/-- Where the parts of a save area stand: the groups' offsets, the engines' offset, and TOTAL. -/
def Block.areaLayout (b : Block) (gs : List Group) : List Nat × Nat × Nat :=
  let k := b.kernel
  let g0 := round64 (2048 + k.benchMem) + round64 (k.groups * k.spillSz)
  let (offs, e0) := gs.foldl (fun (p : List Nat × Nat) g => (p.1 ++ [p.2], p.2 + g.areaSize k)) ([], g0)
  (offs, e0, e0 + (if 0 < k.nmatrix then k.span * engineSize else 0))

/-- TARMCFG as the header holds it. -/
def Block.tarmWord (b : Block) (bench : Bench) : Nat :=
  (if b.armBegin then 1 else 0) + (if b.armEnd then 2 else 0) + (if b.edgePend then 4 else 0) +
    (if b.edgePend && b.edgeKind = 1 then 8 else 0) + (if bench.throttling then 16 else 0) + bench.cause * 32

/-- The youngest tile index below `next` whose record stands at place `i` of the header's 16 (R134, Table 21-4). -/
def lastTile (next i : Nat) : Option Nat := if i < next then some (next - 1 - (next - 1 - i) % 16) else none

/-- The header (Table 21-4). -/
def Block.headerBytes (b : Block) (s : State) (gs : List Group) (reason : Nat) : List Byte :=
  let k := b.kernel
  let (offs, _, total) := b.areaLayout gs
  let bar (i : Nat) : List Byte :=
    let x := tget {} b.barriers i
    leBytes 4 x.gen ++ leBytes 2 x.tally ++ leBytes 2 x.count
  padTo 2048 (padTo 512 (
    leBytes 4 0x53564B42 ++ leBytes 4 b.ref.task ++ leBytes 4 b.ref.bid ++ leBytes 2 k.groups ++ leBytes 1 k.span ++
    leBytes 1 reason ++ leBytes 4 k.benchMem ++ leBytes 4 k.spillSz ++ leBytes 2 k.vcount ++ leBytes 2 k.scount ++
    leBytes 4 total ++ leBytes 8 s.gtc ++ leBytes 8 (b.tarmWord (s.bench (benchOfCore b.lead))) ++ List.replicate 16 0 ++
    (List.range 16).flatMap bar ++
    ((List.range 16).flatMap fun i =>
      let t := ((lastTile b.recNext i).map fun k => tget 0 b.tileRec k).getD 0
      leBytes 8 (if t < 0 then 2 ^ 64 - 1 else t.toNat)) ++
    leBytes 4 b.recNext ++ leBytes 1 (if b.exhausted then 1 else 0)) ++
    padTo 768 (offs.flatMap fun o => leBytes 4 o))

/-- A save area's bytes, group by group. -/
def Block.areaBytes (b : Block) (s : State) (gs : List Group) (reason : Nat) (spill : List Byte) : List Byte :=
  let k := b.kernel
  b.headerBytes s gs reason ++
    padTo (round64 k.benchMem) ((List.range k.benchMem).map fun o => tget 0 b.bench o) ++
    padTo (round64 (k.groups * k.spillSz)) spill ++ (gs.flatMap fun g => g.areaBytes k) ++
    (if 0 < k.nmatrix then b.cores.flatMap fun c => (s.core c).engineBytes (s.freeCtr + c) else [])

/-! ### Reading a save area back (R440).  Where its parts stand is the device's own knowledge (R435); what they hold is what the
area reads as, whatever it was written under (R448). DEDUCED, log 82. -/

/-- A vector register of a tag, and the bytes it took. -/
def VVal.ofBytes (tag : Nat) (bs : List Byte) : VVal × Nat :=
  let w (i : Nat) : W32 := BitVec.ofNat 32 (recField bs (4 * i) 4)
  match tag with
  | 0 => (.u (w 0), 4)
  | 1 => (.a (w 0) (w 1), 8)
  | _ => (VVal.ofSlots w, 128)

/-- The vector registers of a tag vector from register `j`, and the bytes behind them. -/
def vregsOf (tags : List Byte) : Nat → Nat → List Byte → List VVal × List Byte
  | 0, _, bs => ([], bs)
  | n + 1, j, bs =>
    let v := VVal.ofBytes (recField tags (j / 4) 1 / 4 ^ (j % 4) % 4) bs
    let rest := vregsOf tags n (j + 1) (bs.drop v.2)
    (v.1 :: rest.1, rest.2)

/-- The group as its area holds it (Table 21-5); a register saved empty waits for what it waited for, or for `id`. -/
def Group.ofArea (g : Group) (k : Kernel) (id : Nat) (area : List Byte) : Group :=
  let a := g.arch
  let tags := area.take 32
  let (vs, rest) := vregsOf tags k.vcount 0 (area.drop 32)
  let u (o n : Nat) : Nat := recField rest o n
  let s8 := 8 * k.scount
  let pend (j : Nat) (old : Option Nat) : Option Nat := if bit (u (s8 + 96 + j / 8) 1) (j % 8) then none else some (old.getD id)
  let sreg (n o : Nat) (a : Arch) : Arch := a.setS n { val := n64 (u o 8), pend := pend (128 + n) (a.ureg n).pend }
  let a1 := vs.zipIdx.foldl (fun a v => a.setV v.2 { val := v.1, pend := pend v.2 (a.vreg v.2).pend }) a
  let a2 := (List.range k.scount).foldl (fun a n => sreg n (8 * n) a) a1
  let a3 := (List.range 8).foldl (fun a i => sreg (376 + i) (s8 + 8 * i) a) a2
  let a4 := (List.range 8).foldl (fun a i => a.setK i (BitVec.ofNat 32 (u (s8 + 64 + 4 * i) 4))) a3
  let c := s8 + 672
  let depth := u (c + 0x1C) 4
  let spilled := min depth a.spilled
  let chip := (List.range (min 32 (depth - spilled))).map fun i => divEntryOf ((rest.drop (s8 + 160 + 16 * i)).take 16) g.launched
  let mask := u (c + 0x28) 2
  { g with
    arch := { a4 with
      pc := u c 8 / 4 * 4, run := BitVec.ofNat 32 (u (c + 8) 4), entryRun := BitVec.ofNat 32 (u (c + 0x0C) 4),
      fmode := n64 (u (c + 0x10) 8), vwb := u (c + 0x18) 1, swb := u (c + 0x19) 2, handler := bit (u (c + 0x1B) 1) 1,
      stack := chip.reverse ++ a.stack.drop (a.stack.length - spilled), spilled, cursor := u (c + 0x20) 4,
      spillMark := u (c + 0x2C) 4 },
    squashes := u (c + 0x24) 4,
    tokens := (List.range 16).foldl (fun t i => tset none t i (if bit mask i then some (u (c + 64 + 4 * i) 4) else none)) g.tokens }

/-- What the header holds of a block that its groups do not (Table 21-4). -/
def Block.ofHeader (b : Block) (area : List Byte) : Block :=
  let u (o n : Nat) : Nat := recField area o n
  let t := u 0x28 8
  let next := u 0x140 4
  { b with
    armBegin := bit t 0, armEnd := bit t 1, edgePend := bit t 2, edgeKind := if bit t 2 then t / 8 % 2 else b.edgeKind,
    barriers := (List.range 16).foldl (fun l i => tset {} l i
      { (tget {} b.barriers i) with gen := u (0x40 + 8 * i) 4, tally := u (0x44 + 8 * i) 2, count := u (0x46 + 8 * i) 2 }) b.barriers,
    tileRec := (List.range 16).foldl (fun l i => match lastTile next i with
      | some k => tset 0 l k (let x := u (0xC0 + 8 * i) 8; if x = 2 ^ 64 - 1 then -1 else (x : Int))
      | none => l) b.tileRec,
    recNext := next, exhausted := u 0x144 1 ≠ 0 }

/-- The 2-bit positions of an index store. -/
def unpackIndex (bs : List Byte) : List Nat := bs.flatMap fun b => (List.range 4).map fun i => b.toNat / 4 ^ i % 4

/-- The engine state of one core as its part of an area holds it (Table 21-6). -/
def Core.ofEngine (c : Core) (bs : List Byte) : Core :=
  let part (o n : Nat) : List Byte := (bs.drop o).take n
  let wb (n : Nat) : Nat := 0x29000 + 14336 * (n - 2)
  let tag (n : Nat) : Nat := recField bs (0x61000 + 8 * n) 8
  let slot (n : Nat) : MxSlot :=
    let t := tag n
    let second := if 2 ≤ n && n < 17 && tag (n + 1) % 16 = 4 then part (wb (n + 1)) 8192 else []
    if t % 16 = 0 then {}
    else if n < 2 then
      { data := part (0x20000 + 18432 * n) 16384, scale := part (0x20000 + 18432 * n + 16384) 2048, state := t % 16,
        fmt := t / 16 % 16, len32 := bit t 8, scaled := bit t 9 }
    else
      { data := part (wb n) 8192 ++ second, scale := part (wb n + 8192) 2048, index := unpackIndex (part (wb n + 10240) 4096),
        state := t % 16, fmt := t / 16 % 16, len32 := bit t 8, scaled := bit t 9 }
  let tiles := (List.range 8).foldl (fun c n =>
    c.setTile n (ofDense ((List.range 4096).map fun i => BitVec.ofNat 32 (recField bs (16384 * n + 4 * i) 4)))) c
  let slots := (List.range 18).foldl (fun c n => c.setSlot n (slot n)) tiles
  { slots with codebook := (List.range 256).foldl (fun t i => tset 0 t i (n64 (recField bs (0x61100 + 8 * i) 8))) [] }

/-! ### The save pool (R431, R437) -/

/-- The lowest run of free units of a pool that holds `n`: after nothing, or after an area in use. -/
def pickUnits (used : List (Nat × Nat)) (size n : Nat) : Option Nat :=
  let fits (u : Nat) : Bool := u + n ≤ size && used.all fun x => u + n ≤ x.1 || x.1 + x.2 ≤ u
  (0 :: used.map fun x => x.1 + x.2).foldl (fun best u =>
    if fits u then (match best with | some v => some (min u v) | none => some u) else best) none

def State.freeUnits (s : State) (die unit : Nat) : State :=
  s.setDie die { (s.die die) with saveUnits := (s.die die).saveUnits.filter fun x => x.1 ≠ unit }

/-- The groups of a block in group order. -/
def State.groupList (s : State) (b : Block) : List Group :=
  (List.range b.kernel.groups).filterMap fun i => s.group? ⟨b.ref.task, b.ref.bid, i⟩

/-- R434 steps 1 and 2 with an area of the die's pool: the block stops, its uncommitted regions are squashed, and it is
being saved; none where the pool has no room for it. -/
def State.stopToSave (s : State) (r : BlockRef) (reason : Nat) : Option State :=
  match s.block? r with
  | none => none
  | some b =>
    let s1 := s.squashAll ((s.groupsOf r).map fun g => g.ref)
    let (_, _, total) := b.areaLayout (s1.groupList b)
    let units := (total + 65535) / 65536
    match pickUnits (s1.die b.die).saveUnits (s1.die b.die).saveSize units with
    | none => none
    | some u =>
      let s2 := s1.setDie b.die { (s1.die b.die) with saveUnits := (s1.die b.die).saveUnits ++ [(u, units)] }
      some (s2.modBlock r fun x => { x with
        state := .saving reason u units (s.gtc + 24 + (total + 311) / 312) })

/-! ### Ending a task (R439) -/

/-- Every copy of a block's groups that runs or has faulted is cancelled. -/
def State.cancelCopies (s : State) (r : BlockRef) : State :=
  (s.copies.filter fun c => c.2.live && blockOf c.2.g = r).foldl
    (fun s c => s.endCopy (c.1 / 64) (c.1 % 64) .cancelled) s

/-- Requests that leave nothing behind when their block is ended: waits and places in queues. -/
def Request.isWait : Request → Bool
  | .waitc .. | .qlock .. | .join _ => true
  | .bar _ f _ | .lbar f _ => f = 2
  | _ => false

/-- A block stops for good: its uncommitted regions are squashed, its copies cancelled, its monitors and FIFO places
removed; what it released goes on draining. -/
def State.killBlock (s : State) (r : BlockRef) : State :=
  let s1 := (s.squashAll ((s.groupsOf r).map fun g => g.ref)).cancelCopies r
  { s1 with
    monitors := s1.monitors.filter fun m => blockOf m.g ≠ r,
    locks := s1.locks.map fun l => { l with fifo := l.fifo.filter fun w => blockOf w.2 ≠ r },
    fills := s1.fills.filter fun f => blockOf f.g ≠ r,
    pendings := s1.pendings.filter fun p => !(blockOf p.g = r && p.req.isWait),
    blocks := s1.blocks.map fun b => if b.ref = r then { b with state := .killed, joins := [] } else b,
    groups := s1.groups.map fun g => if blockOf g.ref = r then { g with active := false, owed := [], waiting := [] } else g }

/-- A saved or half-saved block of a task that is ended: its area is freed. -/
def State.freeArea (s : State) (b : Block) : State :=
  match b.state with
  | .saving _ u _ _ | .saved _ u _ _ => s.freeUnits b.die u
  | _ => s

/-- A die's retirement queue takes a task (R106). -/
def State.toRetiring (s : State) (task : Nat) : State :=
  let d := dieOfTask task
  ((s.setTcb task { (s.tcb task) with state := .retiring, reserved := false, passedSince := none }).setDie d
    { (s.die d) with retireQueue := (s.die d).retireQueue ++ [task] })

/-- Whether a task whose blocks are being ended, or have ended, may go to RETIRING. -/
def State.taskDone (s : State) (task : Nat) : Bool :=
  let t := s.tcb task
  (t.state = .running || t.state = .ready) && !(s.blocks.any fun b => b.ref.task = task) && (t.blkLeft = 0 || t.fault ≠ 0)

/-- R389: the locks that a block's groups still hold are handed on, counted and recorded. -/
def State.abandonLocks (s : State) (r : BlockRef) : State :=
  (s.locks.filter fun l => blockOf l.holder = r).foldl (fun s l =>
    let die := paDie l.pa
    let s1 := (s.handOn l).record
      { stamp := s.gtc, src := srcNum die (homeField l.pa % 4) 3 (homeSlice l.pa % 24), type := 18, data0 := l.pa,
        data1 := r.task }
    s1.setDie die { (s1.die die) with ovfAbandon := ((s1.die die).ovfAbandon + 1) % 2 ^ 32 }) s

/-- A saved block ends without being placed again. -/
def State.dropSaved (s : State) (b : Block) : State :=
  let s1 : State :=
    { s with blocks := s.blocks.filter fun x => x.ref ≠ b.ref, groups := s.groups.filter fun g => blockOf g.ref ≠ b.ref,
             monitors := s.monitors.filter fun m => blockOf m.g ≠ b.ref,
             locks := s.locks.map fun l => { l with fifo := l.fifo.filter fun w => blockOf w.2 ≠ b.ref },
             fills := s.fills.filter fun f => blockOf f.g ≠ b.ref,
             pendings := s.pendings.filter fun p => !(blockOf p.g = b.ref && p.req.isWait) }
  s1.abandonLocks b.ref

/-- R439: a task is ended with a fault, which its fused partner shares (R117). DEDUCED, log 79. -/
def State.endTask (s : State) (task fault : Nat) : State :=
  let t := s.tcb task
  if (t.state ≠ .running && t.state ≠ .ready) || t.fault ≠ 0 then s
  else
    let s1 := s.setTcb task { t with fault }
    let s2 := if t.fusedFlag then s1.setTcb t.fusedWith { (s1.tcb t.fusedWith) with fault } else s1
    let mine := s2.blocks.filter fun b => b.ref.task = task
    let s3 := mine.foldl (fun s b =>
      match b.state with
      | .saved .. => (s.freeArea b).dropSaved b
      | _ => (s.freeArea b).killBlock b.ref) s2
    if s3.taskDone task then s3.toRetiring task else s3

end Sys2Proof.Machine
end

