-- ==== Sys2Proof/Machine/Regions.lean ====
section
/-!
DEFINITION. Machine/Regions.lean: the life of a region after its last issue: its close, its commit and what that releases,
the drains that follow, results that arrive, and the delivery of traps that no instruction raises (R163, R305-R315, R424).
-/

namespace Sys2Proof.Machine

open Sys2Proof

/-! ### Close (R305, R309) -/

/-- Every operation of a region has completed: its reads have arrived, its matrix work is done, the rows of its MSTs stand in the
store queue, the condition of a CSWT holds (R400), and the last instruction of the region has made its last pass.  CPYQ and the results of closing operations hold no region open. -/
def Region.opsDone (r : Region) (s : State) (g : Group) : Bool :=
  let c := s.core g.core
  !(s.fills.any fun f => f.g = g.ref && !f.closing && !f.async && f.region = r.seq) &&
    !(c.jobs.any fun j => j.g = g.ref && j.region = r.seq) && !(c.stores.any fun t => t.g = g.ref && t.region = r.seq) &&
    !r.stalled &&
    r.lastPass ≤ s.effCycles (benchOfCore g.core)

/-- A region that may close: its next head has issued, or its group has ended with it. -/
def Region.mayClose (r : Region) (s : State) (g : Group) : Bool :=
  r.close.isNone && ((r.headAt.any fun t => t ≤ s.gtc) || r.ends) && r.opsDone s g

def Group.closable (g : Group) (s : State) : Bool := g.regions.any fun r => r.mayClose s g

/-- W is read at the close. -/
def Region.closeNow (r : Region) (s : State) (g : Group) : Region :=
  if r.mayClose s g then { r with close := some (s.gtc, s.qwin) } else r

/-- Every region of a group that may close closes. -/
def execRegionClose (r : GroupRef) (s : State) : Host.Outcome State Fault Refusal :=
  match s.group? r with
  | some g =>
    .next (if g.closable s then s.setGroup { g with regions := g.regions.map fun q => q.closeNow s g } else s)
  | none => .next s

/-- The head of Table 15-1 at 4,096 mc; a region that has issued nothing but its own head has none (R306). -/
def Group.timedOut (g : Group) (s : State) : Bool :=
  match g.regions.getLast? with
  | some q => q.started && q.headAt.isNone && q.firstIssue + 4096 ≤ s.gtc
  | none => false

def execRegionTimeoutHead (r : GroupRef) (s : State) : Host.Outcome State Fault Refusal :=
  match s.group? r with
  | some g =>
    let rs := modLast (fun q => q.headNow (q.firstIssue + 4096)) g.regions
    .next (if g.timedOut s then s.setGroup { g with headPending := true, regions := rs } else s)
  | none => .next s

/-! ### Commit (R309, R311, R313, R425) -/

/-- The mc at which a closed region commits. -/
def Region.commitAt (q : Region) (s : State) (lastCommit : Nat) : Option Nat :=
  q.close.map fun c => max (max (c.1 + c.2) lastCommit) (q.tagEnd s)

/-- The oldest region, where its commit is due. -/
def Group.commitDue (g : Group) (s : State) : Option Region :=
  match g.regions with
  | q :: _ => if (q.commitAt s g.lastCommit).any fun t => t ≤ s.gtc then some q else none
  | [] => none

/-- A request takes effect at the commit, or leaves for where it performs; what it owes goes to the next region (R307). -/
def State.releaseRequest (s : State) (g : Group) (seq : Nat) (h : Held) : State :=
  let bench := benchOfCore g.core
  match h.req with
  | .copyStop hd res => s.stopCopy bench hd res
  | .emptyCopy hd course => s.emptyDone (blockOf g.ref) bench hd course
  | _ =>
    let p : Pending := { id := h.id, g := g.ref, issued := h.issued, addr := h.addr, req := h.req, after := h.after, acq := h.acq,
                         commit := s.gtc }
    let s1 : State := { s with pendings := s.pendings ++ [p] }
    if h.req.owes then s1.modGroup g.ref fun x => { x with owed := x.owed ++ [(h.id, seq + 1)] } else s1

/-- Entries and copies of a committed region are released (R311, R314), and results it had received are final (R308). -/
def State.releaseRegion (s : State) (r : GroupRef) (seq : Nat) : State :=
  { s with
    entries := s.entries.map fun q =>
      if q.g = r && q.region = seq && !q.released then
        { q with released := true, relAt := s.gtc, due := s.gtc + (if q.bench then Config.latBench else Config.latDrain) } else q,
    copies := s.copies.map fun c =>
      if c.2.live && c.2.g = r && c.2.region = seq then (c.1, { c.2 with committed := true }) else c,
    fills := s.fills.filter fun f => !(f.g = r && f.closing && f.arrived && f.region = seq) }

/-- The trap that ended a region takes hold: its FAULT record, and the end of the task (R407, R425, R427). -/
def State.trapHolds (s : State) (g : Group) (q : Region) : State :=
  match q.trap with
  | none => s
  | some (code, record, task) =>
    let s1 := if record then s.record
      { stamp := s.gtc, src := coreSrc g.core, type := 8, code, data0 := q.trapTask, data1 := q.trapPc } else s
    match task with
    | some f => s1.endTask g.ref.task f
    | none => s1

/-- R394, R442: a group that ended leaves the block-wide counts; the barriers with arrivals are checked. -/
def State.leaveCounts (s : State) (r : GroupRef) : State :=
  let s1 := s.modGroup r fun g => { g with exited := true }
  ((List.range 16).foldl (fun s i => s.checkBarrier (.block (blockOf r) i)) s1).checkBarrier (.launch r.task)

/-- The commit of a group's oldest region. -/
def State.commit (s : State) (g : Group) (q : Region) : State :=
  let s1 := (s.setGroup { g with regions := g.regions.drop 1, lastCommit := s.gtc }).releaseRegion g.ref q.seq
  let s2 := q.requests.foldl (fun s h => s.releaseRequest g q.seq h) s1
  let s3 := if q.ends then s2.leaveCounts g.ref else s2
  (s3.trapHolds g q).sendReady

def execRegionCommit (r : GroupRef) (s : State) : Host.Outcome State Fault Refusal :=
  match s.group? r with
  | some g =>
    match g.commitDue s with
    | some q => .next (s.commit g q)
    | none => .next s
  | none => .next s

/-! ### Drains (R311, R312, R315, R369) -/

/-- An earlier write of the group to the same destination has still to perform (R311, R364). -/
def State.drainBehind (s : State) (q : QEntry) : Bool := s.writeBefore q.g q.id (q.bench, q.pa)

def State.coreOf (s : State) (r : GroupRef) : Nat := match s.group? r with | some g => g.core | none => 0

/-- The tag hold of an entry that leaves its die (R315); 0 within it. -/
def State.entryHold (s : State) (q : QEntry) : Nat :=
  if q.bench then 0 else (scratchLatency s (fieldOfCore (s.coreOf q.g)) q.pa).2

/-- A released entry's next move is due: to leave, behind what a fence before it waits for (R367, R369), to perform behind the earlier writes to its destination, or to be
acknowledged. -/
def State.drainDue (s : State) (q : QEntry) : Bool :=
  q.released && q.due ≤ s.gtc &&
    (match q.phase with
     | 0 => !(s.unacked q.g (s.coreOf q.g) q.fence) && !(s.acquiring q.g q.acq) && (s.entryHold q ≠ 0 || !(s.drainBehind q))
     | 1 => !(s.drainBehind q)
     | _ => true)

def State.setEntry (s : State) (q : QEntry) : State :=
  { s with entries := s.entries.map fun o => if o.id = q.id then q else o }

/-- The bytes perform at their place: the block's bench memory, or the home slice under the owner's key.
DEDUCED, log 140. -/
def State.performEntry (s : State) (q : QEntry) : State :=
  let s1 := s.setEntry { q with phase := 2, due := s.gtc + (if q.bench then 1 else Config.latDrain) }
  if q.bench then
    s1.modBlock (blockOf q.g) fun b => { b with bench := q.bytes.foldl (fun m w => tset 0 m (q.pa + w.1) w.2) b.bench }
  else s1.performWrite (some (s.keyAt q.owner q.pa)) (q.bytes.map fun w => (q.pa + w.1, w.2))

def execStoreDrain (id : Nat) (s : State) : Host.Outcome State Fault Refusal :=
  match s.entries.find? fun q => q.id = id with
  | none => .next s
  | some q =>
    if !s.drainDue q then .next s
    else if q.phase = 2 then .next ({ s with entries := s.entries.filter fun o => o.id ≠ id }.sendReady)
    else if q.phase = 0 && s.entryHold q ≠ 0 then
      .next (s.setEntry { q with phase := 1, due := s.gtc + s.qwin + s.entryHold q })
    else if q.phase = 0 then .next (s.performEntry q)
    else .next s

/-- The receiver performs tagged data when its hold ends. -/
def execTaggedHoldEnd (id : Nat) (s : State) : Host.Outcome State Fault Refusal :=
  match s.entries.find? fun q => q.id = id with
  | none => .next s
  | some q => if q.phase = 1 && s.drainDue q then .next (s.performEntry q) else .next s

/-! ### Results arrive (R163, R308, R346, R421) -/

/-- Fill the registers of a result that still wait for it; a poisoned result fills nothing, and they become full. -/
def Arch.fill (a : Arch) (id : Nat) (poisoned : Bool) (vals : List RegVal) : Arch :=
  vals.foldl (fun a v =>
    match v with
    | .v n x =>
      if (a.vreg n).pend = some id then a.setV n { val := if poisoned then (a.vreg n).val else x } else a
    | .u n x =>
      if (a.ureg n).pend = some id then a.setS n { val := if poisoned then (a.ureg n).val else x } else a) a

/-- DEDUCED, log 35. -/
def Fill.poisoned (f : Fill) : Bool := match f.fault with | some t => t.code = 30 | none => false

/-- The result of an ordinary instruction reaches the group and the heads of its later regions. -/
def Group.fillOrdinary (g : Group) (f : Fill) : Group :=
  let p := f.poisoned
  let g1 := { g with
    arch := g.arch.fill f.id p f.vals,
    regions := g.regions.map fun q => if f.region < q.seq then { q with ctx := q.ctx.fill f.id p f.vals } else q,
    waiting := g.waiting.filter fun i => i ≠ f.id, stall := g.stall.filter fun i => i ≠ f.id }
  match f.fault with
  | some t => g1.deferFault (some f.region) t
  | none => g1

/-- The region that receives the result of a closing operation: the one behind the operation's (R307), or the youngest where
that has committed. -/
def Group.receiver (g : Group) (id : Nat) : Nat :=
  match tfind g.owed id, g.regions.getLast? with
  | some n, some q => if g.regions.any fun r => r.seq = n then n else q.seq
  | _, some q => q.seq
  | _, none => g.nextSeq

/-- The result of a closing operation reaches the group: one region receives it, with the return path's cells and tag, and the
heads of later regions stand behind it (R308, R310). -/
def Group.fillClosing (g : Group) (f : Fill) (seq : Nat) : Group :=
  let filled (a : Arch) : Arch :=
    let a := a.fill f.id f.poisoned f.vals
    match f.fault with | some t => { a with deferred := a.deferred ++ [t] } | none => a
  { g with
    arch := filled g.arch,
    regions := g.regions.map fun q =>
      if q.seq = seq then { q with cover := q.cover ++ f.cells, tags := q.tags ++ f.tags }
      else if seq < q.seq then { q with ctx := filled q.ctx } else q,
    owed := g.owed.filter fun i => i.1 ≠ f.id,
    waiting := g.waiting.filter fun i => i ≠ f.id }

/-- A result whose GTC has come and whose group can take it. -/
def State.fillDue (s : State) (f : Fill) : Bool :=
  f.due ≤ s.gtc && !f.arrived &&
    (match s.group? f.g, s.block? (blockOf f.g) with
     | some g, some b => b.state = .placed && !(f.handle.any fun h => s.copyRuns (benchOfCore g.core) h)
     | _, _ => true)

def execRegisterFill (id : Nat) (s : State) : Host.Outcome State Fault Refusal :=
  match s.fills.find? fun f => f.id = id with
  | none => .next s
  | some f =>
    if !s.fillDue f then .next s
    else
      let rest := s.fills.filter fun h => h.id ≠ id
      match s.group? f.g with
      | none => .next { s with fills := rest }
      | some g =>
        if f.closing then
          let g1 := if g.regions.isEmpty && !g.ended then g.openEarly s.gtc else g
          let seq := g1.receiver id
          let kept : List Fill := if g1.regions.isEmpty then [] else [{ f with arrived := true, region := seq }]
          .next (({ s with fills := kept ++ rest }.setGroup (g1.fillClosing f seq)).raiseMarks f.g id).sendReady
        else
          let bench := benchOfCore g.core
          let vals := match f.handle with
            | none => f.vals
            | some h => f.vals.map fun v => match v with
              | .u n _ => .u n (BitVec.ofNat 64 (s.copyStatus bench h))
              | v => v
          .next (({ s with fills := rest }.setGroup (g.fillOrdinary { f with vals })).raiseMarks f.g id).sendReady

/-! ### Traps between instructions (R424-R426, R432, R175) -/

/-- The next delivery of a group that is in no handler: a deferred fault, then STEP, then THROTTLE. DEDUCED, log 33. -/
def Group.nextTrap (g : Group) : Option Trap :=
  if g.arch.handler then none
  else match g.arch.deferred with
    | t :: _ => some t
    | [] =>
      match g.step with
      | some (a, n) => some { code := 33, addr := BitVec.ofNat 64 a, cause0 := BitVec.ofNat 64 n, site := some a }
      | none =>
        match g.throttle with
        | some (k, c) => some { code := 32, cause0 := BitVec.ofNat 64 k, cause1 := BitVec.ofNat 64 c }
        | none => none

/-- Take a delivery off the list it stands in. -/
def Group.dropTrap (g : Group) (code : Nat) : Group :=
  if code = 33 then { g with step := none }
  else if code = 32 then { g with throttle := none }
  else { g with arch := { g.arch with deferred := g.arch.deferred.drop 1 } }

/-- A delivery may be made: the group is placed, not stopped, not sleeping and past its last pass. -/
def State.trapDue (s : State) (g : Group) : Bool :=
  !g.ended && !g.doomed && g.stall.isNone && g.busyUntil ≤ s.effCycles (benchOfCore g.core) && g.nextTrap.isSome &&
    (match g.wait with | .sleep _ | .icinv .. => false | _ => true) &&
    (match s.block? (blockOf g.ref) with | some b => b.state = .placed | none => false)

/-- The group enters its handler; STEP and THROTTLE without one are not taken (R424).  The entry opens no region of its own:
the handler's first instruction stands at a head (R306). -/
def State.enterTrap (s : State) (g : Group) (b : Block) (t : Trap) : State :=
  let e := { (envOf s g b 0) with g := { (g.dropTrap t.code) with wait := .ready, headPending := true } }
  let from' := b.codeFromC e.fromC (t.site.getD e.addr)
  if (t.code = 33 || t.code = 32) && { e with fromC := from' }.trapBase = 0 then s.setGroup (g.dropTrap t.code)
  else (e.takeTrap t g.arch.pc).close

def execTrapEntry (r : GroupRef) (s : State) : Host.Outcome State Fault Refusal :=
  match s.group? r, s.block? (blockOf r) with
  | some g, some b =>
    match g.nextTrap with
    | some t => .next (if s.trapDue g then s.enterTrap g b t else s)
    | none => .next s
  | _, _ => .next s

end Sys2Proof.Machine
end

