-- ==== Sys2Proof/Machine/Sensors.lean ====
section
/-!
DEFINITION. Machine/Sensors.lean: sensor cells and their reports (R403, R404, R410, R416-R419), memory errors (R420, R421),
link events, and the event rings (R405-R409).
-/

namespace Sys2Proof.Machine

open Sys2Proof

/-! ### Cells (Table 20-1) -/

/-- A field has 259 cells, or 262 in fields 1 and 2 of a die. DEDUCED, log 73. -/
def cellValid (c : CellRef) : Bool := c.field < 8 && c.cell < (if c.field % 4 = 1 || c.field % 4 = 2 then 262 else 259)

/-- Strike, droop and clock cells, which can be taken offline. -/
def cellIsLocal (c : CellRef) : Bool := c.cell < 222

/-- The cores a cell maps to; none for a path cell. -/
def cellCores (c : CellRef) : List Nat :=
  if c.cell < 192 then [48 * c.field + c.cell / 4]
  else if c.cell < 216 then codes (48 * c.field + 4 * ((c.cell - 192) / 2)) 4
  else if c.cell < 222 then codes (48 * c.field) 48
  else []

def cellKey (c : CellRef) : Nat := 512 * c.field + c.cell
def cellSrc (c : CellRef) : Nat := srcNum (dieOfField c.field) (c.field % 4) 0 c.cell

def State.cell (s : State) (c : CellRef) : Cell := tget {} s.cells (cellKey c)
def State.setCell (s : State) (c : CellRef) (x : Cell) : State := { s with cells := tset {} s.cells (cellKey c) x }

/-- Events of the last 2^20 mc (R416). -/
def recent (gtc : Nat) (l : List Nat) : List Nat := l.filter fun t => gtc < t + 2 ^ 20

/-- Count an event: within 64 mc of the start of the newest it is part of it.  True where a new one begins. -/
def countEvent (gtc : Nat) (l : List Nat) : List Nat × Bool :=
  match l with
  | t :: _ => if gtc < t + 64 then (recent gtc l, false) else (gtc :: recent gtc l, true)
  | [] => ([gtc], true)

/-- CELL.COUNT, and the state a SENSOR record shows (R407, R418). -/
def Cell.count (c : Cell) (gtc : Nat) : Nat := (recent gtc c.events).length
def Cell.stateCode (c : Cell) (gtc : Nat) : Nat :=
  min 15 (c.count gtc) + (if 3 ≤ c.count gtc then 16 else 0) + (if c.off then 32 else 0)

/-! ### Cores that go offline (R417) -/

/-- The blocks a pre-emption takes with one: all of a CORESIDENT task's (R433). -/
def State.withCoresident (s : State) (b : Block) : List BlockRef :=
  if (s.tcb b.ref.task).coresident then
    (s.blocks.filter fun x => x.ref.task = b.ref.task && x.state = .placed).map fun x => x.ref
  else [b.ref]

/-- Stop blocks to be saved, all or none. -/
def State.stopAll (s : State) (reason : Nat) : List BlockRef → Option State
  | [] => some s
  | r :: rs =>
    match s.stopToSave r reason with
    | none => none
    | some s1 => s1.stopAll reason rs

/-- Cores go offline: the blocks with a group on them are pre-empted; with no room in the save pool the task ends with SAVE_FULL
(R437). -/
def State.coresOffline (s : State) (cores : List Nat) : State :=
  let s1 := cores.foldl (fun s c => s.setCore c { (s.core c) with offline := true }) s
  let hit := s1.blocks.filter fun b => b.state = .placed && (s1.groupsOf b.ref).any fun g => !g.exited && cores.contains g.core
  hit.foldl (fun s b =>
    match s.block? b.ref with
    | none => s
    | some x =>
      if x.state ≠ .placed then s
      else match s.stopAll 3 (s.withCoresident x) with
        | some s' => s'
        | none => s.endTask b.ref.task 67) s1

/-! ### Reports (R410, R411, R314) -/

/-- A copy's pieces before the first whose path holds the cell and whose interval (R314, R315) has not passed; the position to
read again from; how many were discarded. -/
def Copy.hit (c : Copy) (cell : CellRef) (gtc : Nat) : Copy × Nat :=
  let clean (p : Piece) : Bool := p.sent || p.due < gtc || !p.cells.contains cell
  let kept := c.pieces.takeWhile clean
  match c.pieces.drop kept.length with
  | [] => (c, 0)
  | p :: ps => ({ c with pieces := kept, spec := p.pos, fault := none, readAt := max c.readAt (gtc + 1) }, ps.length + 1)

/-- Every running copy of a die's engines loses the pieces that the report strikes. DEDUCED, log 59. -/
def State.hitCopies (s : State) (die : Nat) (cell : CellRef) : State × Nat :=
  let hits := s.copies.map fun c =>
    if c.2.live && c.2.state = .running && c.1 / 64 / 48 = die then (c.1, c.2.hit cell s.gtc) else (c.1, (c.2, 0))
  ({ s with copies := hits.map fun h => (h.1, h.2.1) }, (hits.map fun h => h.2.2).sum)

/-- The die whose squash controllers latch a cell's report; a cell of another module stands under the number of its own die. -/
def cellDie (c : CellRef) : Nat := dieOfField c.field % 2

/-- The report of a cell that is known at `die` is known to the receiver of data for an address: the die that holds it; for
another module's, the cell's own die speaks. DEDUCED, log 155. -/
def State.knownFor (s : State) (cell : CellRef) (die pa : Nat) : Bool :=
  if paModule pa = s.domid then paDie pa = die else cellDie cell = die

/-- A piece that crosses a link under its tag is sent again where a cell of its tag reports: those of its reads and those to
its destination (R315). -/
def State.resendPiece (s : State) (die : Nat) (cell : CellRef) (bench : Nat) (c : Copy) (p : Piece) : Piece :=
  if p.sent && p.dst.any (fun a => s.knownFor cell die a && (p.cells.contains cell || (pathCells s (fieldOfBench bench) a).contains cell))
  then
    { p with due := s.gtc + s.qwin + s.pieceHold bench c p }
  else p

/-! ### Parser cores (R93) -/

/-- The field through which a queue's die translates, in which its parser cores lie (Table 20-2's INDEX). -/
def queueField (n : Nat) : Nat := 4 * (n / 64 % 2)

/-- The cells of every parser core of a queue's die: field 0's clock cells, and strike and droop cells of its own.
DESIGN CHOICE, log 132. -/
def parserCells (n : Nat) : List CellRef := ((codes 216 6) ++ Config.parserCells (n / 64 % 2)).map fun c => ⟨queueField n, c⟩

/-- R315: how long another die or module holds a packet's writes beyond W; 0 where they reach none. -/
def State.packetHold (s : State) (n : Nat) (p : Packet) : Nat :=
  (p.pas.map fun a => if paClass a = 0 then (scratchLatency s (queueField n) a).2 else 0).foldl max 0

/-- A report squashes a packet whose region has not committed by the mc before it. -/
def Packet.struckBy (p : Packet) (gtc n : Nat) (cell : CellRef) : Bool :=
  !p.done && p.commitAt.all (fun t => gtc ≤ t) && ((parserCells n).contains cell || p.cover.contains cell)

/-- A queue's squashed packet is parsed again from the next mc; its writes under a tag are sent again (R315). -/
def State.strikeQueue (s : State) (die : Nat) (cell : CellRef) (n : Nat) (q : Queue) : Queue :=
  if n / 64 % 2 = die && q.inflight.any fun p => p.struckBy s.gtc n cell then { q with inflight := [], parseFrom := s.gtc + 1 }
  else { q with inflight := q.inflight.map fun p =>
    if p.sent.isSome && !p.done && p.pas.any fun a => s.knownFor cell die a && (pathCells s (queueField n) a).contains cell then
      { p with sent := some (s.gtc + s.qwin + s.packetHold n p) } else p }

def State.strikeQueues (s : State) (die : Nat) (cell : CellRef) : State :=
  { s with queues := s.queues.map fun q => (q.1, s.strikeQueue die cell q.1 q.2) }

/-- A request under its tag is sent again to the homes whose path holds the cell. -/
def State.resendRequest (s : State) (die : Nat) (cell : CellRef) (p : Pending) : Pending :=
  let field := fieldOfCore (s.coreOf p.g)
  let dues := ((s.homesOf p.g p.req).zip p.dues).map fun h =>
    if s.knownFor cell die h.1 && !s.nearBy p.g h.1 && (pathCells s field h.1).contains cell then s.gtc + s.homeDelay p.g h.1 else h.2
  if p.due.isNone || dues.isEmpty then p else { p with dues, due := leastOf dues }

/-- Tagged writes, requests and pieces whose path holds the cell are sent again (R315). -/
def State.resend (s : State) (die : Nat) (cell : CellRef) : State :=
  { s with
    copies := s.copies.map fun c => (c.1, { c.2 with pieces := c.2.pieces.map (s.resendPiece die cell (c.1 / 64) c.2) }),
    entries := s.entries.map fun q =>
      if q.phase = 1 && s.knownFor cell die q.pa && (pathCells s (fieldOfCore (s.coreOf q.g)) q.pa).contains cell then
        { q with due := s.gtc + s.qwin + s.entryHold q } else q,
    pendings := s.pendings.map (s.resendRequest die cell) }

/-- The groups of a die that a report squashes. -/
def State.struck (s : State) (die : Nat) (cell : CellRef) : List GroupRef :=
  (s.groups.filter fun g => dieOfCore g.core = die && g.regions.any fun q => q.cover.contains cell).map fun g => g.ref

/-- What a report, known at a die, strikes there; its SENSOR record counts it (Table 20-3). -/
def State.strike (s : State) (die : Nat) (m : Message) : State :=
  let struck := s.struck die m.cell
  let (s1, pieces) := (s.squashAll struck).hitCopies die m.cell
  { ((s1.resend die m.cell).strikeQueues die m.cell) with events := s1.events.map fun r =>
      if r.type = 1 && r.stamp = m.stamp && r.src = cellSrc m.cell
      then { r with data0 := r.data0 + struck.length, data1 := r.data1 + pieces } else r }

/-- The report would strike something at a die. -/
def State.strikesAgain (s : State) (die : Nat) (c : CellRef) : Bool :=
  !(s.struck die c).isEmpty || 0 < (s.hitCopies die c).2 ||
    s.queues.any fun q => q.1 / 64 % 2 = die && q.2.inflight.any fun p => p.struckBy s.gtc q.1 c

/-- A report is known at a die from this mc on, in which it strikes what begins later too. -/
def State.known (s : State) (die : Nat) (m : Message) : State :=
  { (s.strike die m) with reported := (die, m) :: s.reported }

/-- What a count of 8 does (R416): cores offline, or a lasting path cell. -/
def State.cellLimit (s : State) (c : CellRef) : State :=
  let n := (s.cell c).count s.gtc
  let s1 := s.setCell c { (s.cell c) with off := true }
  let rec' : EventRec := { stamp := s.gtc, src := (cellSrc c), type := if (cellIsLocal c) then 3 else 4, code := n }
  if !(cellIsLocal c) then s1.record rec'
  else
    let mask := ((cellCores c).map fun k => 2 ^ (k % 48)).sum
    let s2 := s1.record { rec' with data0 := mask, data1 := 48 * c.field }
    let s3 := if 216 ≤ c.cell then s2.modField c.field fun f => { f with offline := true } else s2
    s3.coresOffline (cellCores c)

/-- A cell reports: its SENSOR record, what it strikes on its own die, and a squash message to the other one, which takes at most
48 mc across the seam link (R404); `injected` by R419. DESIGN CHOICE, log 74. -/
def State.report (s : State) (c : CellRef) (injected : Bool) : State :=
  let x := s.cell c
  let (events, fresh) := countEvent s.gtc x.events
  let s1 := s.setCell c { x with events, inject := if injected then none else x.inject }
  let n := (s1.cell c).count s.gtc
  let code := ({ (s1.cell c) with off := x.off || (fresh && n = 8) } : Cell).stateCode s.gtc
  let rec' : EventRec := { stamp := s.gtc, src := cellSrc c, type := 1, injected, code }
  let m : Message := { due := s.gtc + Config.pick s.freeCtr 49 % 49, stamp := s.gtc, cell := c }
  let s2 := (s1.record rec').known (cellDie c) m
  let s3 := { s2 with messages := s2.messages ++ [(1 - cellDie c, m)] }
  let s4 := if fresh && n = 3 then s3.record { rec' with type := 2, code := n, injected := false } else s3
  if fresh && n = 8 then s4.cellLimit c else s4

/-- A squash message reaches its die. -/
def State.takeMessage (s : State) (d : Nat × Message) : State := ({ s with messages := s.messages.erase d }).known d.1 d.2

/-- A cell that is offline reports no further (R417); a lasting path cell does (R419). -/
def State.mayReport (s : State) (c : CellRef) : Bool := (cellValid c) && !((cellIsLocal c) && (s.cell c).off)

/-- The squash message of a cell of another module reaches the cores (R404): it strikes as a report does; the record and the
count are that module's. -/
def State.peerReport (s : State) (c : CellRef) : State :=
  let m : Message := { due := s.gtc, stamp := s.gtc, cell := c }
  (s.known 0 m).known 1 m

def execSensorReport (c : CellRef) (s : State) : Host.Outcome State Fault Refusal :=
  if 8 ≤ c.field then .next (s.peerReport c) else
  let injected := (s.cell c).inject.any fun t => t ≤ s.gtc
  if s.mayReport c then .next (s.report c injected)
  else .next (if injected then s.setCell c { (s.cell c) with inject := none } else s)

/-- R416: events that have left the window no longer count. -/
def execCellCountDecay (c : CellRef) (s : State) : Host.Outcome State Fault Refusal :=
  .next (s.setCell c { (s.cell c) with events := recent s.gtc (s.cell c).events })

/-- A write of CELL.INJECT by the physical function (0). -/
def execCellInject (fn : Nat) (c : CellRef) (s : State) : Host.Outcome State Fault Refusal :=
  if fn = 0 && s.mayReport c then .next (s.setCell c { (s.cell c) with inject := some (s.gtc + 1) }) else .next s

/-- A write of CELL.CLEAR; ignored where a mapped core holds a block. -/
def execCellClear (fn : Nat) (c : CellRef) (s : State) : Host.Outcome State Fault Refusal :=
  let held := s.blocks.any fun b => b.holdsCores && b.cores.any fun k => (cellCores c).contains k
  if fn ≠ 0 || !(cellValid c) || held then .next s
  else
    let s1 := s.setCell c { (s.cell c) with events := [], off := false }
    let s2 := (cellCores c).foldl (fun s k => s.setCore k { (s.core k) with offline := false }) s1
    .next (if 216 ≤ c.cell && c.cell < 222 then s2.modField c.field fun f => { f with offline := false } else s2)

/-! ### Memory errors (R420, R421) -/

/-- The source that reports a die's memory arrays. -/
def memSrc (die : Nat) : Nat := srcNum (die % 2) 0 3 0
def rowKey (die array row : Nat) : Nat := 2 * (3 * row + array % 3) + die % 2

/-- The core an SRAM row belongs to. DESIGN CHOICE, log 72. -/
def coreOfRow (die row : Nat) : Nat := 192 * (die % 2) + row % 192

/-- A corrected error of a row (array 0 SRAM, 1 bonded DRAM, 2 LPDDR-6); `spare` where a spare row is free. -/
def execEccCorr (die array row : Nat) (spare : Bool) (s : State) : Host.Outcome State Fault Refusal :=
  let k := rowKey die array row
  let (events, fresh) := countEvent s.gtc (tget [] s.rows k)
  let n := events.length
  let s1 := { s with rows := tset [] s.rows k events }
  let rec' (type code : Nat) : EventRec := { stamp := s.gtc, src := memSrc die, type, code, data0 := row, data1 := n }
  let s2 := s1.record (rec' 5 (array % 3))
  if fresh && n = 3 then .next (s2.record (rec' 6 (array % 3)))
  else if fresh && n = 8 then
    if array % 3 ≠ 0 && spare then .next ({ s2 with spared := k :: s2.spared }.record (rec' 6 (array % 3 + 256)))
    else
      let s3 := { s2 with offlineRows := k :: s2.offlineRows }.record (rec' 6 (array % 3 + 512))
      .next (if array % 3 = 0 then s3.coresOffline [coreOfRow die row] else s3)
  else .next s2

/-- The array code of a physical address. -/
def arrayOf (pa : Nat) : Nat := if paClass pa = 1 then 2 else 1

/-- The groups that hold a piece of a core's storage, and whether a squash of their uncommitted regions restores it: it was written
in one of them, and an older copy stands beside it. DEDUCED, log 71. -/
def State.storageOf (s : State) : PoisonSite → List Group × Bool
  | .sector _ => ([], false)
  | .register r code =>
    match s.group? r with
    | some g => ([g], g.regions.any fun q => q.wrote.contains code)
    | none => ([], false)
  | .storeQueue id =>
    match s.entries.find? fun q => q.id = id with
    | some q => ((s.group? q.g).toList, !q.released)
    | none => ([], false)
  | .staging bench entry =>
    let c := s.copy bench entry
    if c.live && !c.pieces.isEmpty then ((s.group? c.g).toList, !c.committed) else ([], false)
  | .frame core item =>
    ((s.residents core).filter fun g => g.role = 1,
     (s.residents core).any fun g => g.regions.any fun q => (q.mxSaved.map MxSaved.item).contains item)

/-- An uncorrectable error (R421): a sector is poisoned; of a core's storage, what a squash can restore is handled as a report of
the core's first strike cell, where that is in service, and what it cannot brings POISON to the groups that hold it.
DEDUCED, log 71. -/
def execPoison (site : PoisonSite) (s : State) : Host.Outcome State Fault Refusal :=
  match site with
  | .sector pa =>
    let sec := pa / 64
    .next ({ s with poison := if s.poison.contains sec then s.poison else sec :: s.poison }.record
      { stamp := s.gtc, src := srcNum (paDie pa) (homeField pa % 4) 3 (homeSlice pa % 24), type := 7, code := arrayOf pa,
        data0 := 64 * sec })
  | site =>
    let (gs, restorable) := s.storageOf site
    let cell : CellRef := match gs with | g :: _ => ⟨fieldOfCore g.core, 4 * (g.core % 48)⟩ | [] => ⟨0, 0⟩
    if gs.isEmpty then .next s
    else if restorable && s.mayReport cell then .next (s.report cell false)
    else .next (gs.foldl (fun s g => if g.exited then s else s.modGroup g.ref fun g => g.deferFault none { code := 30 }) s)

/-- R407: a link retrains (0), loses a lane (1) or goes down (2); `link` is 4 x field + the controller's index, 0 the seam
link and 1-3 the ports. -/
def execLinkEvent (die link code lanes : Nat) (s : State) : Host.Outcome State Fault Refusal :=
  let l := (die % 2, link % 16)
  let s1 := { s with linksDown := match code % 3 with
    | 0 => s.linksDown.filter fun x => x ≠ l
    | 1 => s.linksDown
    | _ => if s.linksDown.contains l then s.linksDown else l :: s.linksDown }
  .next (s1.record { stamp := s.gtc, src := srcNum l.1 (l.2 / 4) 7 (l.2 % 4), type := 11, code := code % 3, data0 := lanes })

/-! ### The event rings (R406, R408, R409) -/

/-- The record of a die with the lowest STAMP, then SRC. -/
def State.nextRecord (s : State) (die : Nat) : Option EventRec :=
  (s.events.filter fun r => r.src / 2 ^ 15 = die).foldl (fun best r =>
    match best with
    | none => some r
    | some b => if r.stamp < b.stamp || (r.stamp = b.stamp && r.src < b.src) then some r else some b) none

/-- Table 20-2. -/
def EventRec.bytes (r : EventRec) (gap : Bool) : List Byte :=
  leBytes 8 r.stamp ++ leBytes 2 r.src ++ leBytes 1 r.type ++
    leBytes 1 ((if gap then 1 else 0) + (if r.injected then 2 else 0)) ++ leBytes 4 r.code ++ leBytes 8 r.data0 ++
    leBytes 8 r.data1

def State.recordDue (s : State) (die : Nat) : Bool :=
  match s.nextRecord die with | some r => r.stamp + 512 ≤ s.gtc | none => false

/-- The oldest held record is written, or dropped where the ring is full. -/
def execEventRecordWrite (die : Nat) (s : State) : Host.Outcome State Fault Refusal :=
  match s.nextRecord die with
  | none => .next s
  | some r =>
    if s.gtc < r.stamp + 512 then .next s
    else
      let d := s.die die
      let s1 := { s with events := s.events.erase r }
      if (d.evHead + 1) % 2 ^ d.evLog = d.evTail % 2 ^ d.evLog then
        .next (s1.setDie die { d with evLost := (d.evLost + 1) % 2 ^ 32, evGap := true })
      else
        let base := d.evBase / 2 ^ (5 + d.evLog) * 2 ^ (5 + d.evLog)
        let s2 := s1.performBytes none (base + 32 * d.evHead) (r.bytes d.evGap)
        let s3 := s2.setDie die { d with evHead := (d.evHead + 1) % 2 ^ d.evLog, evGap := false }
        .next (if d.evIe then { s3 with msix := s3.msix ++ [d.evVec] } else s3)

end Sys2Proof.Machine
end

