-- ==== Sys2Proof/Machine/Blocks.lean ====
section
/-!
DEFINITION. Machine/Blocks.lean: reading a kernel descriptor (R39), the dispatcher's order and choice of span (R101, R102,
R128-R130, R283), starting, saving, resuming and ending blocks (R159, R434, R440, R444), and the active set (R165, R167).
-/

namespace Sys2Proof.Machine

open Sys2Proof

/-! ### The kernel descriptor (R20, R25, R39) -/

/-- Read bytes through an owner's translation, as the dispatcher does: the fault code where a byte fails, with what its walks
have set. DEDUCED, log 76. -/
def State.devRead (s : State) (owner field va : Nat) : Nat → Except (Nat × State) (List Byte × State)
  | 0 => .ok ([], s)
  | n + 1 =>
    match placeScr s (.unit field) owner true false (va % 2 ^ 64) with
    | .error x => .error (x.1.1, x.2)
    | .ok (pa, s1) =>
      let b := s1.readByte (some (s1.keyAt owner pa)) pa
      match s1.devRead owner field (va + 1) n with
      | .error c => .error c
      | .ok (bs, s2) => .ok (b :: bs, s2)

/-- The limits of Table 2-3 that the descriptor and the size of the text let the reader test, by the offset of the row that
states each. -/
def descChecks (d : List Byte) (text : Nat) : List (Nat × Bool) :=
  let u (o n : Nat) : Nat := recField d o n
  let groups := u 0x0C 2
  let threads := u 0x0E 2
  let span := u 0x10 1
  let flags := u 0x11 1
  let inText (o : Nat) : Bool := o % 4 = 0 && o < text
  [(0x00, inText (u 0 4)), (0x08, 1 ≤ u 8 2 && u 8 2 ≤ 128), (0x0A, 2 ≤ u 0x0A 2 && u 0x0A 2 ≤ 376),
    (0x0C, 1 ≤ groups && groups ≤ 192 && groups ≤ 48 * span),
    (0x0E, 32 * (groups - 1) < threads && threads ≤ 32 * groups), (0x10, span = 1 || span = 2 || span = 4),
    (0x11, flags < 4), (0x12, u 0x12 2 = 0), (0x14, u 0x14 2 ≤ groups), (0x16, u 0x16 2 ≤ groups),
    (0x18, u 0x14 2 + u 0x16 2 + u 0x18 2 = groups), (0x1A, u 0x1A 2 = 0),
    (0x1C, u 0x1C 4 % 256 = 0 && u 0x1C 4 ≤ span * 524288), (0x20, u 0x20 4 = 0xFFFFFFFF || inText (u 0x20 4)),
    (0x24, 1 ≤ u 0x24 4 && u 0x24 4 ≤ 1600), (0x28, u 0x28 4 % 256 = 0 && u 0x28 4 ≤ 1048576),
    (0x2C, u 0x2C 2 ≤ 64 && u 0x2C 2 + 2 ≤ u 0x0A 2), (0x2E, u 0x2E 2 = 0),
    (0x30, if flags % 2 = 1 then u 0x30 4 % 8 = 0 else u 0x30 4 = 0),
    (0x34, if flags / 2 % 2 = 1 then u 0x34 4 % 8 = 0 else u 0x34 4 = 0),
    (0x38, if flags / 2 % 2 = 1 then 1 ≤ u 0x38 2 && u 0x38 2 ≤ 16 else u 0x38 2 = 0), (0x3A, u 0x3A 2 = 0),
    (0x48, u 0x48 56 = 0)]

def descOk (d : List Byte) : Bool := (descChecks d (recField d 0x44 4)).all fun c => c.2

/-- R25: SHIFT and MULT of an extent. -/
def shapeShift (d : Nat) : Nat := if d ≤ 1 then 0 else Nat.log2 (d - 1) + 1
def shapeMult (d : Nat) : Nat := 2 ^ 32 * (2 ^ shapeShift d - d) / d + 1

/-- R25's limits of a 64-byte shape entry, by field. DEDUCED, log 102: each of them takes LOAD_SHAPE at load, though R25 names
the code for MULT and SHIFT only. -/
def shapeChecks (e : List Byte) : List (Nat × Bool) :=
  let u (o n : Nat) : Nat := recField e o n
  let nd := u 0 1
  let head : List (Nat × Bool) := [(0, 1 ≤ nd && nd ≤ 5), (1, u 1 3 = 0)]
  let dim (j : Nat) : List (Nat × Bool) :=
    let o := 4 + 12 * j
    if nd ≤ j then [(o, u o 12 = 0)]
    else [(o, 1 ≤ u o 4 && u o 4 < 2 ^ 31), (o + 4, u (o + 4) 4 = shapeMult (u o 4) % 2 ^ 32),
      (o + 8, u (o + 8) 1 = shapeShift (u o 4)), (o + 9, u (o + 9) 3 = 0)]
  head ++ (List.range 5).flatMap dim

def shapeOk (e : List Byte) : Bool := (shapeChecks e).all fun c => c.2

/-- What SPLOFF and SHPOFF of a descriptor are taken against, and whether its text runs native (R37, R41): the loader's object
gives its descriptor area (R19), bytes of no object their text area (R39). DEDUCED, log 77. -/
def State.objectOf (s : State) (owner va text : Nat) : Nat × Bool :=
  match s.objects.find? fun o => o.owner = owner && o.base ≤ va && va < o.base + o.extent with
  | some o => (o.base + o.voff0, o.native)
  | none => (text, false)

/-- A descriptor's fields; the low 2 bits of an address in the text read as 0 (R46). DEDUCED, log 147. -/
def kernelOf (d shapes : List Byte) (va area : Nat) (native : Bool) (argv : List W64) : Kernel :=
  let u (o n : Nat) : Nat := recField d o n
  let trap := u 0x20 4
  let rel : Int := (BitVec.ofNat 64 (u 0x3C 8)).toInt
  { desc := va, entry := u 0 4, vcount := u 8 2, scount := u 0x0A 2, groups := u 0x0C 2, threads := u 0x0E 2,
    span := u 0x10 1, ncopy := u 0x14 2, nmatrix := u 0x16 2, nvector := u 0x18 2, benchMem := u 0x1C 4,
    trapOff := if trap = 0xFFFFFFFF then none else some trap, curClass := u 0x24 4, spillSz := u 0x28 4, argv,
    splOff := if u 0x11 1 % 2 = 1 then some (area + u 0x30 4) else none, shapes, textBase := wrap64 (va + rel) / 4 * 4,
    textSize := u 0x44 4, ilk := !native }

/-- R39: the descriptor and its shape table, with NARGS, or the fault that ends the task. -/
def State.readDesc (s : State) (owner field va : Nat) : Except (Nat × State) ((Kernel × Nat) × State) :=
  match s.devRead owner field va 128 with
  | .error c => .error c
  | .ok (d, s1) =>
    if !descOk d then .error (69, s1)
    else
      let (area, native) := s1.objectOf owner va (wrap64 (va + (BitVec.ofNat 64 (recField d 0x3C 8)).toInt))
      match s1.devRead owner field (area + recField d 0x34 4) (64 * recField d 0x38 2) with
      | .error c => .error c
      | .ok (shapes, s2) =>
        if !((List.range (recField d 0x38 2)).all fun i => shapeOk ((shapes.drop (64 * i)).take 64)) then .error (69, s2)
        else .ok ((kernelOf d shapes va area native [], recField d 0x2C 2), s2)

/-- R39: the kernel with its launch arguments, or the fault that ends the task. -/
def State.readKernel (s : State) (owner field va args : Nat) : Except (Nat × State) (Kernel × State) :=
  match s.readDesc owner field va with
  | .error c => .error c
  | .ok ((k, nargs), s2) =>
    if args % 8 ≠ 0 then .error (8, s2)
    else
      match s2.devRead owner field args (8 * nargs) with
      | .error c => .error c
      | .ok (bs, s3) =>
        .ok ({ k with argv := (List.range nargs).map fun i => n64 (leNat ((bs.drop (8 * i)).take 8)) }, s3)

/-! ### Capacity (R128) -/

/-- DEDUCED, log 75. -/
def Kernel.perCore (k : Kernel) : Nat := (k.groups + k.span - 1) / k.span

/-- Spans with an offline core. -/
def State.offlineSpans (s : State) (f span : Nat) : Nat :=
  ((List.range (48 / span)).filter fun i => (codes (48 * f + span * i) span).any fun c => (s.core c).offline).length

/-- cap(f), which a limit below FBASE makes negative (R10, R128). -/
def State.capField (s : State) (k : Kernel) (f : Nat) : Int :=
  let fits : Int := if k.perCore ≤ 48 && k.perCore * k.vcount * 128 ≤ 1048576 && benchPart k.benchMem 0 ≤ 524288
    then 48 / k.span else 0
  min (fits - s.offlineSpans f k.span) ((((s.field f).eff : Int) - (s.field f).baseI) / k.curClass)

/-- The sum of cap(f), or 0 where that is below 0. -/
def State.capacity (s : State) (k : Kernel) (fmask : Nat) : Nat :=
  (((List.range 8).filter fun f => bit fmask f && !(s.field f).offline).map fun f => s.capField k f).sum.toNat

/-! ### The choice of span (R129, R130, R259, R283) -/

/-- The blocks that hold a core. -/
def State.onCore (s : State) (c : Nat) : List Block := s.blocks.filter fun b => b.holdsCores && b.cores.contains c

/-- Group slots, vector storage and bench memory in use on a core. -/
def State.coreUse (s : State) (c : Nat) : Nat × Nat × Nat :=
  let bs := s.onCore c
  ((bs.map fun b => b.kernel.perCore).sum, (bs.map fun b => b.kernel.perCore * b.kernel.vcount * 128).sum,
    (bs.map fun b => benchPart b.kernel.benchMem (c - b.lead)).sum)

/-- Core `c`, core `j` of a span, takes a block of the kernel. -/
def State.coreFits (s : State) (k : Kernel) (c j : Nat) : Bool :=
  let (slots, regs, bm) := s.coreUse c
  !(s.core c).offline && slots + k.perCore ≤ 48 && regs + k.perCore * k.vcount * 128 ≤ 1048576 &&
    bm + benchPart k.benchMem j ≤ 524288 && (k.nmatrix = 0 || (s.onCore c).all fun b => b.kernel.nmatrix = 0)

/-- Free slots of an owner's spill pool for `n` groups, by first fit: their addresses (R283). -/
def State.spillRoom (s : State) (owner n bytes : Nat) : Option (List Nat) :=
  let o := s.owner owner
  let held := (o.spill.filter fun x => o.spillBase < x.1 + x.2).map fun x => (x.1 - o.spillBase, x.1 + x.2 - max x.1 o.spillBase)
  if bytes = 0 then some []
  else ((List.range n).foldl (fun (l : Option (List Nat)) _ => l.bind fun l =>
    (pickUnits (held ++ l.map fun u => (u, bytes)) (o.spillSize * 65536) bytes).map fun u => l ++ [u]) (some [])).map fun l =>
      l.map fun u => o.spillBase + u

/-- Fields in descending headroom, the lowest number first on a tie. -/
def State.fieldOrder (s : State) (mask : Nat) : List Nat :=
  let fs := (List.range 8).filter fun f => bit mask f && (s.field f).on && !(s.field f).offline
  fs.foldl (fun l f =>
    let h := (s.field f).headroom
    l.takeWhile (fun g => h ≤ (s.field g).headroom) ++ f :: l.dropWhile (fun g => h ≤ (s.field g).headroom)) []

/-- The lead core of the span that a block of a task takes, among those that also meet a condition of its own. -/
def State.findSpan (s : State) (task : Nat) (k : Kernel) (mask : Nat) (ok : Nat → Bool := fun _ => true) : Option Nat :=
  (s.fieldOrder mask).findSome? fun f =>
    if (s.field f).headroom < k.curClass then none
    else ((List.range (48 / k.span)).map fun i => 48 * f + k.span * i).find? fun c =>
      !(s.blocks.any fun b => b.ref.task = task && b.holdsCores && b.lead = c) &&
        ok c && (List.range k.span).all fun j => s.coreFits k (c + j) j

/-- The engine is cleared (R259). -/
def Core.clear (c : Core) : Core := { c with acc := [], slots := [], codebook := [] }

/-! ### Starting a block (R21, R24, R157, R159) -/

def Kernel.role (k : Kernel) (g : Nat) : Nat := if g < k.ncopy then 0 else if g < k.ncopy + k.nmatrix then 1 else 2

def launchedMask (threads g : Nat) : W32 := maskOf fun i => 32 * g + i < threads

/-- The launch arguments in s2 onward, and a fused consumer's in s(mP + 2) onward (R114). -/
def Block.argRegs (b : Block) : List (Nat × W64) :=
  let place (o : Nat) (l : List W64) : List (Nat × W64) := l.zipIdx.map fun a => (o + a.2, a.1)
  match b.fused with
  | none => place 2 b.kernel.argv
  | some f => place 2 f.p.argv ++ place (f.p.scount + 2) f.c.argv

/-- A group at its start. DESIGN CHOICE, log 5. -/
def Block.newGroup (b : Block) (i gtc : Nat) : Group :=
  let k := b.kernel
  let run := launchedMask k.threads i
  let a : Arch := { run, pc := (k.textBase + k.entry) % 2 ^ 64 }
  { ref := ⟨b.ref.task, b.ref.bid, i⟩, core := b.lead + i / k.perCore, launched := run, role := k.role i, active := false,
    waitSince := gtc,
    arch := b.argRegs.foldl (fun a r => a.setS r.1 { val := r.2 }) a }

def State.commitField (s : State) (lead : Nat) (k : Nat → Nat) : State :=
  s.modField (fieldOfCore lead) fun f => { f with commit := k f.commit }

/-- What a placed block holds beside its cores: CURCLASS of its field and its spill slots. -/
def State.hold (s : State) (owner lead : Nat) (k : Kernel) (spill : List Nat) : State :=
  let s1 := s.commitField lead fun c => c + k.curClass
  if k.spillSz = 0 then s1
  else s1.setOwner owner { (s1.owner owner) with spill := (s1.owner owner).spill ++ spill.map fun va => (va, k.spillSz) }

def State.unhold (s : State) (b : Block) : State :=
  let s1 := s.commitField b.lead fun c => c - b.kernel.curClass
  if b.kernel.spillSz = 0 then s1
  else s1.setOwner b.owner { (s1.owner b.owner) with
    spill := (s1.owner b.owner).spill.filter fun x => !b.spillSlots.contains x.1 }

def State.clearEngines (s : State) (b : Block) : State :=
  b.cores.foldl (fun s c => s.setCore c (s.core c).clear) s

/-- Place a task's next block on a span. -/
def State.startBlock (s : State) (task : Nat) (k : Kernel) (lead : Nat) (spill : List Nat) : State :=
  let t := s.tcb task
  let b : Block := { ref := ⟨task, t.placed⟩, kernel := k, fused := t.fusedCode, owner := t.owner, lead,
                     die := dieOfCore lead, spillSlots := spill }
  let s1 := (s.hold t.owner lead k spill).clearEngines (if k.nmatrix = 0 then { b with kernel := { k with span := 0 } } else b)
  let blk := if t.placed = 0 then t.blocks else t.blkLeft
  let s2 := s1.setTcb task { t with
    state := .running, placed := t.placed + 1, blkLeft := blk, curClass := k.curClass, passedSince := none, reserved := false }
  ({ s2 with blocks := s2.blocks ++ [b],
             groups := s2.groups ++ (List.range k.groups).map fun i => b.newGroup i s.gtc }).deliverPending b.ref

/-- Place one block, where a span and spill room are free. -/
def State.placeOne (s : State) (task : Nat) (k : Kernel) (mask : Nat) : Option State :=
  match s.findSpan task k mask, s.spillRoom (s.tcb task).owner k.groups k.spillSz with
  | some lead, some spill => some (s.startBlock task k lead spill)
  | _, _ => none

/-- Place `n` blocks or none. -/
def State.placeMany (s : State) (task : Nat) (k : Kernel) (mask : Nat) : Nat → Option State
  | 0 => some s
  | n + 1 =>
    match s.placeOne task k mask with
    | none => none
    | some s1 => s1.placeMany task k mask n

/-! ### Resuming (R440) -/

/-- A faulted copy of a resumed block takes a free entry of its new bench, with its locks, and its fault is delivered again
(R328). DEDUCED, log 65. -/
def State.rehomeCopy (s : State) (bench : Nat) (x : Copy × List RangeLock) : State :=
  match (List.range 64).find? fun i => !(s.copy bench i).live with
  | none => s
  | some i =>
    let gen := ((s.copy bench i).gen + 1) % 2 ^ 24
    let fault := x.1.fault.map fun t => { t with cause0 := BitVec.ofNat 64 (handleOf bench i gen % 2 ^ 32) }
    let locks := x.2.map fun l => { l with bench := bench, entry := i }
    let s1 := { s with rangeLocks := s.rangeLocks ++ locks }.setCopy bench i { x.1 with gen, fault }
    match fault with
    | some t => s1.modGroup x.1.g fun g =>
      Group.deferFault { g with arch := { g.arch with deferred := g.arch.deferred.filter fun u => some u ≠ x.1.fault } } none t
    | none => s1

/-- Change every group of a block. -/
def State.modGroupsOf (s : State) (r : BlockRef) (f : Group → Group) : State :=
  { s with groups := s.groups.map fun g => if blockOf g.ref = r then f g else g }

/-- Write saved spill-slot bytes to a block's fresh slots, where the pool's pages translate. -/
def State.writeSpill (s : State) (owner field va : Nat) : List Byte → State
  | [] => s
  | b :: bs =>
    match placeScr s (.unit field) owner false true va with
    | .ok (pa, s1) => (s1.performBytes (some (s1.keyAt owner pa)) pa [b]).writeSpill owner field (va + 1) bs
    | .error x => x.2.writeSpill owner field (va + 1) bs

/-- The spill-slot bytes of a block that is saved; what a page that does not translate holds is not stated. DESIGN CHOICE,
log 156. -/
def State.readSpill (s : State) (owner field va : Nat) : Nat → List Byte × State
  | 0 => ([], s)
  | n + 1 =>
    let (b, s1) : Byte × State := match placeScr s (.unit field) owner true false va with
      | .ok (pa, s1) => (s1.readByte (some (s1.keyAt owner pa)) pa, s1)
      | .error x => (Config.freeByte x.2.freeCtr va, x.2)
    let (bs, s2) := s1.readSpill owner field (va + 1) n
    (b :: bs, s2)

/-- The spill slots of a block that is saved, in group order. -/
def State.readSlots (s : State) (b : Block) : List Nat → List Byte × State
  | [] => ([], s)
  | va :: vas =>
    let (bs, s1) := s.readSpill b.owner (fieldOfCore b.lead) va b.kernel.spillSz
    let (rest, s2) := s1.readSlots b vas
    (bs ++ rest, s2)

/-- The save area of a block as the device reads it, under the key that its owner has now (R440, R448). -/
def State.savedArea (s : State) (b : Block) : List Byte :=
  match b.state with
  | .saved _ unit _ _ => s.readBytes (some (s.keyOf b.owner)) ((s.die b.die).saveBase + 65536 * unit) (b.areaLayout (s.groupList b)).2.2
  | _ => []

/-- R440: every part of a block as its area holds it, its engines on the span at `lead`. -/
def State.restoreArea (s : State) (b : Block) (lead : Nat) (area : List Byte) : State :=
  let k := b.kernel
  let (offs, e0, _) := b.areaLayout (s.groupList b)
  let s1 := ((s.groupList b).zip offs).foldl (fun s g =>
    if g.1.exited then s else s.setGroup (g.1.ofArea k s.nextId (area.drop g.2))) s
  let s2 := s1.modBlock b.ref fun x => { (x.ofHeader area) with
    bench := (List.range k.benchMem).foldl (fun m o => tset 0 m o (area.getD (2048 + o) 0)) [] }
  { ((if k.nmatrix = 0 then [] else List.range k.span).foldl (fun s j =>
      s.setCore (lead + j) ((s.core (lead + j)).ofEngine (area.drop (e0 + j * engineSize)))) s2) with nextId := s.nextId + 1 }

/-- A saved block takes a span: every part is restored, its area freed, its groups start at their heads. -/
def State.resumeBlock (s : State) (b : Block) (lead : Nat) (spill : List Nat) : State :=
  let k := b.kernel
  let t := s.tcb b.ref.task
  let unit := match b.state with | .saved _ u _ _ => u | _ => 0
  let area := s.savedArea b
  let s1 := ((s.freeUnits b.die unit).hold b.owner lead k spill).setTcb b.ref.task
    { t with passedSince := none, reserved := false }
  let s2 := ((s1.restoreArea b lead area).modBlock b.ref fun x => { x with
      state := .placed, resumed := true, lead, die := dieOfCore lead, spillSlots := spill, copiesSaved := [] }).modGroupsOf
        b.ref fun g => { g with
    core := lead + g.ref.gid / k.perCore, active := false, readySince := none, waitSince := s.gtc, wait := .ready,
    headPending := true, busyUntil := s.nextCycle (benchOfCore lead), tried := none }
  let slots := area.drop (2048 + round64 k.benchMem)
  let s3 := spill.zipIdx.foldl (fun s va => s.writeSpill b.owner (fieldOfCore lead) va.1
    ((slots.drop (va.2 * k.spillSz)).take k.spillSz)) s2
  let s4 := b.copiesSaved.foldl (fun s x => s.rehomeCopy (benchOfCore lead) x) s3
  let s5 := if b.children = 0 && !b.joins.isEmpty then
      (b.joins.foldl (fun s j => s.answer j.2.1 j.1 (s.tcbPa b.ref.task) (uVal (uDst j.2.2) b.failed) none) s4).modBlock b.ref
        fun x => { x with joins := [], failed := 0 }
    else s4
  s5.deliverPending b.ref

/-- The bench of a core has entries, and its die locks, for a block's saved copies (R328). -/
def State.copiesFit (s : State) (b : Block) (lead : Nat) : Bool :=
  b.copiesSaved.isEmpty ||
    (b.copiesSaved.length ≤ ((List.range 64).filter fun i => !(s.copy (benchOfCore lead) i).live).length &&
      s.locksOnDie (dieOfCore lead) + (b.copiesSaved.map fun x => x.2.length).sum ≤ 1024)

def State.resumeOne (s : State) (mask : Nat) (b : Block) : Option State :=
  match s.findSpan b.ref.task b.kernel mask (s.copiesFit b), s.spillRoom b.owner b.kernel.groups b.kernel.spillSz with
  | some lead, some spill => some (s.resumeBlock b lead spill)
  | _, _ => none

def State.resumeMany (s : State) (mask : Nat) : List Block → Option State
  | [] => some s
  | b :: bs =>
    match s.resumeOne mask b with
    | none => none
    | some s1 => s1.resumeMany mask bs

/-! ### The dispatcher's order (R101, R102, R440) -/

/-- A candidate: a task with blocks to place, or a saved block. -/
structure Candidate where
  task : Nat
  resume : Option BlockRef
  prio : Nat
  stamp : Nat
  queue : Nat
  seq : Nat
  deriving DecidableEq, Repr

/-- The keys in order; a lower list of numbers goes first. -/
def Candidate.keys (c : Candidate) : List Nat :=
  [7 - c.prio, c.stamp, c.queue, c.seq, c.task, match c.resume with | some b => b.bid + 1 | none => 0]

def insertBy {α : Type} (lt : α → α → Bool) (x : α) : List α → List α
  | [] => [x]
  | y :: ys => if lt x y then x :: y :: ys else y :: insertBy lt x ys

def sortBy {α : Type} (lt : α → α → Bool) (l : List α) : List α := l.foldl (fun acc x => insertBy lt x acc) []

/-- A saved block may be placed again: a JOIN's only once its children are done. -/
def Block.wantsCores (b : Block) : Bool :=
  match b.state with
  | .saved reason _ _ _ => reason ≠ 2 || b.children = 0
  | _ => false

/-- The candidates of a die's dispatcher, in order; an owner that is disabled has none (R447). -/
def State.candidates (s : State) (die : Nat) : List Candidate :=
  let mine := s.tcbs.filter fun t => dieOfTask t.1 = die && (s.owner t.2.owner).en && t.2.fault = 0
  let fresh := (mine.filter fun t => !t.2.splicing && (t.2.state = .ready || (t.2.state = .running && t.2.placed < t.2.blocks))).map
    fun t => ({ task := t.1, resume := none, prio := t.2.prio, stamp := t.2.readyGtc, queue := t.2.queue, seq := t.2.seq } :
      Candidate)
  let saved := (s.blocks.filter fun b => b.wantsCores && mine.any fun t => t.1 = b.ref.task).map fun b =>
    let t := s.tcb b.ref.task
    ({ task := b.ref.task, resume := some b.ref, prio := t.prio, stamp := b.readyAt, queue := t.queue, seq := t.seq } : Candidate)
  sortBy (fun a b => keysLt a.keys b.keys) (fresh ++ saved)

/-- Placement stands while a splice decision is pending (R110) or a drone pair recovers (R94). -/
def State.placing (s : State) : Bool := s.step = 7 && s.drone.recovering.isNone && !(s.tcbs.any fun t => t.2.splicing)

/-- What a placement opportunity does with a candidate. -/
inductive Chance where
  | ends (s : State)
  | places (s : State)
  | passed (s : State)
  deriving DecidableEq, Repr

/-- The kernel of a task: as read, or read now (R39). -/
def State.taskKernel (s : State) (task : Nat) : Except (Nat × State) (Kernel × State) :=
  let t := s.tcb task
  match t.kernel with
  | some k => .ok (k, s)
  | none =>
    match s.readKernel t.owner (4 * dieOfTask task) t.kdesc t.args with
    | .error c => .error c
    | .ok (k, s1) =>
      if t.fusedFlag then
        match t.fusedCode with
        | none => .ok (k, s1)
        | some f =>
          let c := s.tcb t.fusedWith
          match s1.readKernel c.owner (4 * dieOfTask task) c.kdesc c.args with
          | .error e => .error e
          | .ok (kc, s2) =>
            let f2 := { f with p := k, c := kc }
            let sum : Kernel := { k with
              vcount := k.vcount + kc.vcount, scount := k.scount + kc.scount, benchMem := k.benchMem + kc.benchMem,
              spillSz := k.spillSz + kc.spillSz, shapes := k.shapes ++ kc.shapes, curClass := max k.curClass kc.curClass,
              ilk := k.ilk || kc.ilk, textBase := f.base, entry := f.entry }
            .ok (sum, s2.setTcb task { (s2.tcb task) with fusedCode := some f2 })
      else .ok (k, s1)

/-- R128, R283: the block count, fixed when the task first becomes placeable; none where the device has become too narrow for it
before a block is placed. -/
def State.fixBlocks (s : State) (task : Nat) (k : Kernel) : State × Nat :=
  let t := s.tcb task
  let cap := s.capacity k t.fmask
  let wide := (s.owner t.owner).spillSize * 65536 < k.groups * k.spillSz
  if t.kernel.isSome then (s, if t.placed = 0 && (cap < t.blocks || wide) then 0 else t.blocks)
  else
    let n := if wide then 0 else min t.tiles cap
    (s.setTcb task { t with kernel := some k, blocks := n }, n)

/-- A READY or RUNNING task at an opportunity, on the fields of a mask (R98, R108, R128, R129). -/
def State.tryTask (s : State) (task mask : Nat) : Chance :=
  let t := s.tcb task
  if t.placed = 0 && t.cancel then .ends (s.endTask task 65)
  else if t.placed = 0 && t.tiles = 0 then .ends (s.toRetiring task)
  else
    match s.taskKernel task with
    | .error c => .ends (c.2.endTask task c.1)
    | .ok (k, s1) =>
      let (s2, n) := s1.fixBlocks task k
      if n = 0 || (0 < t.placed && s2.capacity k t.fmask = 0) then .ends (s2.endTask task 64)
      else
        match (if t.coresident then s2.placeMany task k (t.fmask &&& mask) n else s2.placeOne task k (t.fmask &&& mask)) with
        | some s3 => .places s3
        | none => .passed s2

/-- A saved block, or a CORESIDENT task's saved blocks together. -/
def State.tryResume (s : State) (r : BlockRef) (mask : Nat) : Chance :=
  let t := s.tcb r.task
  let all := s.blocks.filter fun b => b.ref.task = r.task
  match s.block? r with
  | none => .passed s
  | some b =>
    if t.coresident then
      if s.capacity b.kernel t.fmask < t.blocks then .ends (s.endTask r.task 64)
      else if all.all fun x => x.wantsCores then
        match s.resumeMany (t.fmask &&& mask) (sortBy (fun a b => a.ref.bid < b.ref.bid) all) with
        | some s1 => .places s1
        | none => .passed s
      else .passed s
    else
      match s.resumeOne (t.fmask &&& mask) b with
      | some s1 => .places s1
      | none => .passed s

def State.tryCandidate (s : State) (c : Candidate) (mask : Nat) : Chance :=
  match c.resume with
  | none => s.tryTask c.task mask
  | some r => s.tryResume r mask

/-- What an opportunity comes to: the first candidate that can act, with what it does; the tasks passed over before it, and
the state with what the dispatcher has read of them.  A reservation keeps later tasks from its fields (R102). -/
def State.dispatch (s : State) : List Candidate → Nat → List Nat → Option (Candidate × State) × List Nat × State
  | [], _, passed => (none, passed, s)
  | c :: cs, mask, passed =>
    match s.tryCandidate c mask with
    | .ends s1 => (some (c, s1), passed, s)
    | .places s1 => (some (c, s1), passed, s)
    | .passed s1 =>
      let t := s1.tcb c.task
      s1.dispatch cs (if t.reserved then mask &&& (255 ^^^ t.fmask) else mask) (passed ++ [c.task])

def State.dispatchDie (s : State) (die : Nat) : Option (Candidate × State) × List Nat × State :=
  if s.placing then s.dispatch (s.candidates die) 255 [] else (none, [], s)

/-- Note since when tasks have been passed over. -/
def State.notePassed (s : State) (tasks : List Nat) : State :=
  tasks.foldl (fun s t => if (s.tcb t).passedSince.isNone then s.setTcb t { (s.tcb t) with passedSince := some s.gtc } else s) s

/-- R129: one opportunity of a die's dispatcher, for a task with a block to place or to end; saved blocks are BLOCK_RESUME's. -/
def execPlaceBlock (die : Nat) (s : State) : Host.Outcome State Fault Refusal :=
  let (pick, passed, s0) := s.dispatchDie die
  match pick with
  | some (c, s1) => .next ((if c.resume.isNone then s1 else s0).notePassed passed)
  | none => .next (s0.notePassed passed)

/-- R440: the opportunity of a saved block. -/
def execBlockResume (r : BlockRef) (s : State) : Host.Outcome State Fault Refusal :=
  match (s.dispatchDie (dieOfTask r.task)).1 with
  | some (c, s1) => .next (if c.resume = some r then s1 else s)
  | none => .next s

/-- R102: passed over for 100,000 mc. -/
def Tcb.reservationDue (t : Tcb) (gtc : Nat) : Bool :=
  !t.reserved && (t.state = .ready || t.state = .running) && t.passedSince.any fun p => p + 100000 ≤ gtc

def execReservation (task : Nat) (s : State) : Host.Outcome State Fault Refusal :=
  let t := s.tcb task
  .next (if t.reservationDue s.gtc then s.setTcb task { t with reserved := true, reservedSince := s.gtc } else s)

/-! ### Saves complete (R434 steps 3-5) -/

/-- A released request that a save waits for: it holds an entry of the store queue, or what it does is part of the save area. -/
def Request.saves (r : Request) : Bool :=
  0 < r.entries || !r.writes.isEmpty || match r with | .bar .. => true | _ => false

/-- The block's copies and drains have finished, and its released requests have performed. -/
def State.saveReady (s : State) (b : Block) : Bool :=
  match b.state with
  | .saving _ _ _ due =>
    due ≤ s.gtc && !(s.entries.any fun q => blockOf q.g = b.ref) &&
      !(s.pendings.any fun p => blockOf p.g = b.ref && p.req.saves) &&
      !(s.copies.any fun c => c.2.live && blockOf c.2.g = b.ref && c.2.state = .running)
  | _ => false

/-- A die's stock goes to the return list when its last block of a launch leaves (R132). -/
def State.returnStock (s : State) (task die : Nat) (leaving : BlockRef) : State :=
  if s.blocks.any fun b => b.ref.task = task && b.die = die && b.holdsCores && b.ref ≠ leaving then s
  else
    let t := s.tcb task
    s.setTcb task { t with returned := t.returned ++ tget [] t.stock die, stock := tset [] t.stock die [] }

/-- CPYQ results that wait for a copy's end have its final state by now. -/
def State.settleQueries (s : State) (b : Block) : State :=
  let bench := benchOfCore b.lead
  { s with fills := s.fills.map fun f =>
      match f.handle with
      | some h => if blockOf f.g = b.ref then { f with handle := none, vals := f.vals.map fun v => match v with
          | .u n _ => .u n (n64 (s.copyStatus bench h))
          | v => v } else f
      | none => f }

/-- PCTL.DONE and RESULT of a request whose work is done. -/
def State.pctlDone (s : State) (die result : Nat) : State :=
  s.setDie die { (s.die die) with pctlDone := true, pctlResult := result }

/-- Whether the pre-emption that a die's PCTL has begun has been carried out; a drone pair's recovery holds DONE (Table 21-7). -/
def State.preemptDone (s : State) (die : Nat) : Bool :=
  let d := s.die die
  !d.pctlDone && d.runOp = 1 && d.pctlBegun && s.drone.recovering.isNone && !(s.blocks.any fun b => b.ref.task = d.runTask &&
    (match b.state with | .saving reason .. => reason = 1 | _ => false))

def State.finishPctl (s : State) : State :=
  [0, 1].foldl (fun s d => if s.preemptDone d then s.pctlDone d 0 else s) s

/-- The area is written under the owner's key, and the cores and resources are freed. -/
def State.finishSave (s : State) (b : Block) (reason unit units : Nat) : State :=
  let gs := s.groupList b
  let (spill, s0) := s.readSlots b b.spillSlots
  let pa := (s.die b.die).saveBase + 65536 * unit
  let s1 := ((s0.settleQueries b).performBytes (some (s.keyOf b.owner)) pa (b.areaBytes s0 gs reason spill))
  let faulted := s1.copies.filter fun c => c.2.live && blockOf c.2.g = b.ref
  let saved := faulted.map fun c =>
    (c.2, s1.rangeLocks.filter fun l => l.bench = c.1 / 64 && l.entry = c.1 % 64)
  let s2 := faulted.foldl (fun s c => s.endCopy (c.1 / 64) (c.1 % 64) .cancelled) s1
  let s3 := ((s2.unhold b).clearEngines (if b.kernel.nmatrix = 0 then { b with kernel := { b.kernel with span := 0 } } else b)).returnStock
    b.ref.task b.die b.ref
  let s4 := s3.modBlock b.ref fun x => { x with
    state := .saved reason unit units s.gtc, readyAt := if reason = 2 then x.readyAt else s.gtc, copiesSaved := saved }
  (s4.modGroupsOf b.ref fun g => { g with active := false, wait := .ready, headPending := true }).finishPctl

def execSaveComplete (r : BlockRef) (s : State) : Host.Outcome State Fault Refusal :=
  match s.block? r with
  | some b =>
    match b.state with
    | .saving reason unit units _ => .next (if s.saveReady b then s.finishSave b reason unit units else s)
    | _ => .next s
  | none => .next s

/-! ### Pre-emption and kill requests (R433, R439) -/

/-- Stop every placed block of a task to be saved, all or none. -/
def State.preemptTask (s : State) (task reason : Nat) : Option State :=
  s.stopAll reason ((s.blocks.filter fun b => b.ref.task = task && b.state = .placed).map fun b => b.ref)

/-- PCTL.GO with OP 1: RESULT 1 where the task is not RUNNING on this die's pool, 2 where the pool lacks room, and 0 at once for
a task whose last block has ended (Table 22-1); else the blocks placed now stop, and it is done once they are saved. -/
def execPreempt (die : Nat) (s : State) : Host.Outcome State Fault Refusal :=
  let d := s.die die
  let t := s.tcb d.runTask
  if d.pctlDone || d.runOp ≠ 1 || s.drone.recovering.isSome then .next s
  else if d.pctlBegun then .next s.finishPctl
  else if dieOfTask d.runTask ≠ die || 2 ^ 21 ≤ d.runTask then .next (s.pctlDone die 1)
  else if t.state = .retiring then .next (s.pctlDone die 0)
  else if t.state ≠ .running then .next (s.pctlDone die 1)
  else
    match s.preemptTask d.runTask 1 with
    | none => .next (s.pctlDone die 2)
    | some s1 => .next (s1.setDie die { (s1.die die) with pctlBegun := true }).finishPctl

/-- PCTL.GO with OP 2: done once the task is RETIRING. -/
def execKill (die : Nat) (s : State) : Host.Outcome State Fault Refusal :=
  let d := s.die die
  let t := s.tcb d.runTask
  if d.pctlDone || d.runOp ≠ 2 || s.drone.recovering.isSome then .next s
  else if dieOfTask d.runTask ≠ die || 2 ^ 21 ≤ d.runTask then .next (s.pctlDone die 1)
  else if !d.pctlBegun then
    if t.state = .running then
      let s1 := s.endTask d.runTask 66
      .next (s1.setDie die { (s1.die die) with pctlBegun := true })
    else .next (s.pctlDone die 1)
  else if t.state = .running then .next s
  else .next (s.pctlDone die 0)

/-- R433: the placed blocks on a task's fields whose tasks have a lower priority, the lowest first, then the highest $bid. -/
def State.victims (s : State) (task : Nat) : List Block :=
  let t := s.tcb task
  sortBy (fun a b => keysLt [(s.tcb a.ref.task).prio, a.ref.task, 2 ^ 32 - a.ref.bid] [(s.tcb b.ref.task).prio, b.ref.task, 2 ^ 32 - b.ref.bid])
    (s.blocks.filter fun b => b.state = .placed && bit t.fmask (fieldOfCore b.lead) && (s.tcb b.ref.task).prio < t.prio)

/-- A reservation is 100 us old, its task's next block does not fit, and no block that is being saved will make room for it
yet. -/
def State.reservationUnmet (s : State) (task : Nat) : Bool :=
  let t := s.tcb task
  t.reserved && t.reservedSince + 100000 ≤ s.gtc && !(s.blocks.any fun b => match b.state with
    | .saving .. => bit t.fmask (fieldOfCore b.lead)
    | _ => false) && !(s.victims task).isEmpty && (match s.tryTask task 255 with | .passed _ => true | _ => false)

def execReservationPreempt (task : Nat) (s : State) : Host.Outcome State Fault Refusal :=
  if !s.reservationUnmet task then .next s
  else
    match s.victims task with
    | b :: _ => .next ((s.stopAll 1 (s.withCoresident b)).getD s)
    | [] => .next s

/-! ### A block ends (R377, R444) -/

/-- Steps 1 and 2: every group's last region has committed, or the block was stopped; its writes are acknowledged and its
copies done. -/
def State.blockEnds (s : State) (b : Block) : Bool :=
  (match b.state with
   | .killed => true
   | .placed => (s.groupsOf b.ref).all fun g => g.exited
   | _ => false) &&
    !(s.entries.any fun q => blockOf q.g = b.ref) && !(s.pendings.any fun p => blockOf p.g = b.ref) &&
    !(s.copies.any fun c => c.2.live && blockOf c.2.g = b.ref) &&
    ((s.die (dieOfTask b.ref.task)).retireQueue.length < 4096 || 1 < (s.tcb b.ref.task).blkLeft)

def execBlockEnd (r : BlockRef) (s : State) : Host.Outcome State Fault Refusal :=
  match s.block? r with
  | none => .next s
  | some b =>
    if !s.blockEnds b then .next s
    else
      let s1 := (s.abandonLocks r).returnStock r.task b.die r
      let s2 := (s1.unhold b).clearEngines (if b.kernel.nmatrix = 0 then { b with kernel := { b.kernel with span := 0 } } else b)
      let t := s2.tcb r.task
      let s3 := { s2 with blocks := s2.blocks.filter fun x => x.ref ≠ r, groups := s2.groups.filter fun g => blockOf g.ref ≠ r,
                          fills := s2.fills.filter fun f => blockOf f.g ≠ r }.setTcb r.task { t with blkLeft := t.blkLeft - 1 }
      .next (if s3.taskDone r.task then s3.toRetiring r.task else s3)

/-! ### The active set (R165, R167) -/

/-- GTC from which an active group is a swap candidate (R165, R184); none where it is none. -/
def Group.candidateFrom (g : Group) (gtc : Nat) : Option Nat :=
  if g.ended || g.doomed then some g.waitSince
  else match g.wait with
    | .ready | .icinv .. => none
    | .yield => if g.waitSince = gtc then some gtc else none
    | .sleep _ => some g.waitSince
    | .empty =>
      let since := if g.waiting.isEmpty && g.hint < 2 then g.waitSince + 17 else g.waitSince
      if since ≤ gtc then some since else none

/-- The least of a list by a key. -/
def leastBy {α : Type} (key : α → List Nat) (l : List α) : Option α :=
  l.foldl (fun b x => match b with | none => some x | some y => if keysLt (key x) (key y) then some x else some y) none

/-- Among ready pending groups, the one ready longest. -/
def State.entering (s : State) (core : Nat) : Option Group :=
  leastBy (fun g => [g.readySince.getD 0, g.ref.task, g.ref.bid, g.ref.gid])
    ((s.residents core).filter fun g => !g.active && g.readySince.isSome)

def State.activeOn (s : State) (core : Nat) : List Group := (s.residents core).filter fun g => g.active

/-- Among candidates, the one that has been one longest. -/
def State.leaving (s : State) (core : Nat) : Option Group :=
  leastBy (fun g => [(g.candidateFrom s.gtc).getD 0, g.ref.task, g.ref.bid, g.ref.gid])
    ((s.activeOn core).filter fun g => (g.candidateFrom s.gtc).isSome)

def State.enterLane (s : State) (g : Group) : State := s.modGroup g.ref fun x => { x with
  active := true, activeSince := s.gtc, readySince := none, waitSince := s.gtc,
  wait := match x.wait with | .yield => .ready | w => w }

def State.leaveLane (s : State) (g : Group) : State := s.modGroup g.ref fun x => { x with
  active := false, readySince := none, wait := match x.wait with | .yield => .ready | w => w }

/-- A swap: into a free lane, or in place of a candidate. DEDUCED, log 80. -/
def State.swap (s : State) (core : Nat) : Option State :=
  match s.entering core with
  | none => none
  | some g =>
    if (s.activeOn core).length < 8 then some (s.enterLane g)
    else match s.leaving core with
      | some h => some ((s.leaveLane h).enterLane g)
      | none => none

def execGroupSwap (core : Nat) (s : State) : Host.Outcome State Fault Refusal := .next ((s.swap core).getD s)

/-- R167: a pending group that has been ready for 2,048 mc forces the longest active group out. -/
def State.forced (s : State) (core : Nat) : Option State :=
  match s.entering core with
  | none => none
  | some g =>
    if s.gtc < g.readySince.getD 0 + 2048 || (s.activeOn core).length < 8 then none
    else match leastBy (fun h => [h.activeSince, h.ref.task, h.ref.bid, h.ref.gid]) (s.activeOn core) with
      | some h => some ((s.leaveLane h).enterLane g)
      | none => none

def execForcedSwap (core : Nat) (s : State) : Host.Outcome State Fault Refusal := .next ((s.forced core).getD s)

end Sys2Proof.Machine
end

