-- ==== Sys2Proof/Machine/CrossThread.lean ====
section
/-!
DEFINITION. Machine/CrossThread.lean: the cross-thread family, MAJ 7 and 19 (R185, R252-R258), and the pair word
(R61-R63).
-/

namespace Sys2Proof.Machine

open Sys2Proof

/-- R253: a source read at a slot: a never-launched slot of a per-slot source reads 0. DEDUCED, log 29. -/
def Env.readAt (e : Env) (code : BitVec 10) (v : VVal) (s : Nat) : W32 :=
  if (codeIsV code.toNat || (520 ≤ code.toNat && code.toNat ≤ 522)) && (quadLead e.g.launched s).isNone then 0
  else v.slot s

/-- An exchange between slots: slot `t` receives A at `src t b`, with `b` B's value in slot `t`. -/
def crossOp (fn : Nat) (x : Ext) (len : Nat) (src : Nat → W32 → Nat) : State → Host.Outcome State Fault Refusal :=
  issueExt 19 fn x (uInfo len) fun e =>
    let a := e.src32 .int x.lit x.a
    let b := e.src32 .int x.lit x.b
    .done (e.writeV x x.d.toNat (.ofSlots fun t => e.readAt x.a a (src t (b.slot t))))

/-- The width of a sub-group (R252). -/
def subWidth (x : Ext) : Nat := 2 ^ (x.imm8.toNat % 8)
def subBase (w t : Nat) : Nat := t / w * w

def execQswap (x : Ext) :=
  crossOp 0 x (lenExt x) fun t _ => 4 * (t / 4) + x.imm8.toNat / 2 ^ (2 * (t % 4)) % 4
def qbcstOp (x : Ext) (len : Nat) := crossOp 1 x len fun t b => 4 * (t / 4) + b.toNat % 4
def execQbcst (x : Ext) := qbcstOp x (lenExt x)
def execQbcstBase (f : BaseF) := qbcstOp (.ofBase 19 1 f) (lenBase f)
def execGshuf (x : Ext) := crossOp 2 x (lenExt x) fun t b => subBase (subWidth x) t + b.toNat % subWidth x
def execGshfx (x : Ext) := crossOp 3 x (lenExt x) fun t b =>
  subBase (subWidth x) t + (BitVec.ofNat 32 t ^^^ b).toNat % subWidth x
def execGshfu (x : Ext) := crossOp 4 x (lenExt x) fun t b =>
  subBase (subWidth x) t + (BitVec.ofNat 32 t - b).toNat % subWidth x
def execGshfd (x : Ext) := crossOp 5 x (lenExt x) fun t b =>
  subBase (subWidth x) t + (BitVec.ofNat 32 t + b).toNat % subWidth x

/-- R255. -/
def execGvote (x : Ext) :=
  issueExt 19 6 x (uInfo (lenExt x)) fun e =>
    let a := e.src32 .int x.lit x.a
    let act := slots.filter fun i => e.active x i
    let some' := act.any fun i => a.slot i ≠ 0
    let all := act.all fun i => a.slot i ≠ 0
    let vote := match x.imm8.toNat % 4 with
      | 0 => some'
      | 1 => all
      | _ => all || !some'
    .done ((e.writeK x (x.d.toNat - 512) fun _ => vote).withPasses 8)

def execGbalt (x : Ext) :=
  issueExt 19 7 x (uInfo (lenExt x)) fun e =>
    let a := e.src32 .int x.lit x.a
    .done ((e.setS64 (x.d.toNat - 128) (zext64 (maskOf fun i => e.active x i && a.slot i ≠ 0))).withPasses 8)

/-! ### Reductions and scans (R256) -/

/-- The identity of an operator (Table 12-5). -/
def redIdentity (op : Nat) : Nat :=
  match op with
  | 1 => 0x7FFFFFFF
  | 2 => 0x80000000
  | 3 | 5 => 0xFFFFFFFF
  | 8 => 0x80000000
  | 9 | 10 => 0x7FC00000
  | _ => 0

/-- One step of the fold. -/
def redStep (op : Nat) (m : FMode) (acc a : Nat) : Nat × Exc :=
  let x := w32 acc
  let y := w32 a
  match op with
  | 0 => ((x + y).toNat, excNone)
  | 1 => ((vminVal x y 0).toNat, excNone)
  | 2 => ((vmaxVal x y 0).toNat, excNone)
  | 3 => (min acc a, excNone)
  | 4 => (max acc a, excNone)
  | 5 => ((x &&& y).toNat, excNone)
  | 6 => ((x ||| y).toNat, excNone)
  | 7 => ((x ^^^ y).toNat, excNone)
  | 8 => addV m (specOf 0) acc a
  | 9 => minMaxV false m (specOf 0) acc a
  | _ => minMaxV true m (specOf 0) acc a

/-- The fold before and after each slot from `i` up, restarting at each sub-group. -/
def redScan (op w : Nat) (m : FMode) (act : Nat → Bool) (a : Nat → Nat) :
    Nat → Nat → Nat × Exc → List ((Nat × Exc) × (Nat × Exc))
  | 0, _, _ => []
  | n + 1, i, acc =>
    let before := if i % w = 0 then (redIdentity op, excNone) else acc
    let after := if act i then let r := redStep op m before.1 (a i); (r.1, before.2 ||| r.2) else before
    (before, after) :: redScan op w m act a n (i + 1) after

/-- GRED, GSCAN (the source of an operator of FP32 is an FP32 position, R60): `pick rs t` is the fold that slot `t` receives, with the exceptions of its steps. -/
def redOp (fn : Nat) (x : Ext) (pick : List ((Nat × Exc) × (Nat × Exc)) → Nat → Nat × Exc) :
    State → Host.Outcome State Fault Refusal :=
  issueExt 19 fn x (uInfo (lenExt x)) fun e =>
    let op := x.imm8.toNat / 8 % 16
    let a := e.src32 (if 8 ≤ op then .flt .f32 else .int) x.lit x.a
    let rs := redScan op (subWidth x) (e.fmodeFor x.rm) (fun i => e.active x i) (fun i => (a.slot i).toNat) 32 0 (0, excNone)
    e.finishV x 0 (slots.map fun t => ((w32 (pick rs t).1), (pick rs t).2))

def foldAt (rs : List ((Nat × Exc) × (Nat × Exc))) (t : Nat) : (Nat × Exc) × (Nat × Exc) :=
  rs.getD t ((0, excNone), (0, excNone))

/-- DEDUCED, log 27. -/
def execGred (x : Ext) := redOp 8 x fun rs t => (foldAt rs (subBase (subWidth x) t + subWidth x - 1)).2
def execGscan (x : Ext) := redOp 9 x fun rs t => if x.imm8.getLsbD 7 then (foldAt rs t).1 else (foldAt rs t).2

/-! ### VTOS, STOV, VTAG, VGEN (R185, R257) -/

def execVtos (x : Ext) :=
  issueExt 19 10 x (uInfo (lenExt x)) fun e =>
    let a := e.src32 .int x.lit x.a
    let j := if x.imm8.getLsbD 0 then slots.find? fun i => e.active x i
             else some ((e.srcS32 .int x.lit x.b).toNat % 32)
    .done (e.setS64 (x.d.toNat - 128) (match j with | some j => zext64 (e.readAt x.a a j) | none => 0))

def stovOp (x : Ext) (len : Nat) := crossOp 11 x len fun _ b => b.toNat % 32
def execStov (x : Ext) := stovOp x (lenExt x)
def execStovBase (f : BaseF) := stovOp (.ofBase 19 11 f) (lenBase f)

def vtagOp (x : Ext) (len : Nat) : State → Host.Outcome State Fault Refusal :=
  issueExt 19 12 x (uInfo len) fun e =>
    .done (e.writeV x x.d.toNat (.u (BitVec.ofNat 32 (e.vval x.a.toNat).tag)))
def execVtag (x : Ext) := vtagOp x (lenExt x)
def execVtagBase (f : BaseF) := vtagOp (.ofBase 19 12 f) (lenBase f)

def vgenOp (x : Ext) (len : Nat) : State → Host.Outcome State Fault Refusal :=
  issueExt 19 13 x (uInfo len) fun e =>
    let a := e.src32 .int x.lit x.a
    .done (e.writeV x x.d.toNat (.ofSlots fun i => a.slot i))
def execVgen (x : Ext) := vgenOp x (lenExt x)
def execVgenBase (f : BaseF) := vgenOp (.ofBase 19 13 f) (lenBase f)

/-! ### The pair word (R61-R63) -/

/-- The result of a half that works on integers: the sources it reads, its affine form and its value of one slot. -/
def halfInt (fn : Nat) : Nat × (VVal → VVal → VVal → Option VVal) × (W32 → W32 → W32 → W32) :=
  match fn with
  | 0 => (2, vaddAff, vaddVal)
  | 1 => (2, vsubAff, vsubVal)
  | 2 => (2, vmulAff, vmulVal)
  | 5 => (3, affMad, vmadVal)
  | 7 => (2, noAff, vandVal)
  | 8 => (2, noAff, vorVal)
  | 9 => (2, noAff, vxorVal)
  | 10 => (2, vshlAff, vshlVal)
  | 11 => (2, noAff, vshrVal)
  | 12 => (2, noAff, vsraVal)
  | 13 => (2, noAff, vminVal)
  | 14 => (2, noAff, vmaxVal)
  | 19 => (3, noAff, vselVal)
  | _ => (1, vmovAff, vmovVal)

/-- The element operation of a scalar half, which works in FP32, and of a packed half. -/
def halfFloat (fn : Nat) : FMode → FSpec → Nat → Nat → Nat → Nat × Exc :=
  match fn with
  | 0 | 31 => faddEl
  | 1 => fsubEl
  | 2 | 32 => fmulEl
  | 3 | 33 => ffmaEl
  | 4 => fminEl
  | _ => fmaxEl

/-- What a half computes: its value, and the exceptions of each slot. -/
def Env.halfResult (e : Env) (h : Half) : VVal × List Exc :=
  let x := h.x
  let m := e.fmodeFor 0
  match pairable h.fn with
  | none => (.u 0, [])
  | some (17, fn) =>
    let (n, aff, f) := halfInt fn
    let a := e.src32 .int none x.a
    let b := e.src32 .int none x.b
    let c := e.src32 .int none x.c
    let srcs := match n with | 1 => [a] | 2 => [a, b] | _ => [a, b, c]
    (shaped srcs (aff a b c) fun i => f (a.slot i) (b.slot i) (c.slot i), [])
  | some (_, fn) =>
    let rs : List (Nat × Exc) :=
      if fn = 30 then
        let f := specOf 0
        let src (code : BitVec 10) : VVal × VVal :=
          if codeIsConst code.toNat then (.u (constBits (.flt .f32) code.toNat), .u 0) else e.src64 none code
        let a := src x.a
        let b := src x.b
        let c := e.src32 (.flt .f32) none x.c
        slots.map fun i => dotV m f [((a.1.slot i).toNat, (b.1.slot i).toNat), ((a.2.slot i).toNat, (b.2.slot i).toNat)]
          (c.slot i).toNat
      else
        let packed := 31 ≤ fn
        let p : Pos := if packed then .packed m.bf else .flt .f32
        let a := e.src32 p none x.a
        let b := e.src32 p none x.b
        let c := e.src32 p none x.c
        slots.map fun i =>
          let at' (f : FSpec) (j : Nat) : Nat × Exc :=
            let w (v : W32) : Nat := v.toNat / 2 ^ (16 * j) % 2 ^ f.width
            halfFloat fn m f (w (a.slot i)) (w (b.slot i)) (w (c.slot i))
          if packed then
            let lo := at' (specOf (if m.bf then 1 else 2)) 0
            let hi := at' (specOf (if m.bf then 1 else 2)) 1
            (lo.1 + hi.1 * 2 ^ 16, lo.2 ||| hi.2)
          else at' (specOf 0) 0
    (.g (rs.map fun r => w32 r.1), rs.map fun r => r.2)

/-- The registers a half reads and writes (R163). -/
def halfCodes (h : Half) : List (Nat × Bool) :=
  h.reads.flatMap fun r => (codes r.2.1 (r.1.covers r.2.1)).map fun c => (c, false)

/-- The exceptions of the slots of a half. -/
def halfExc (r : VVal × List Exc) (i : Nat) : Exc := r.2.getD i excNone

/-- R61-R63: both halves read before either writes; X's exception is reported first, with every exception that the one
instruction raised (R237). DEDUCED, log 122. -/
def execPairWord (p : PairF) :=
  issue { len := 12 } fun e =>
    let hx := p.halfX
    let hy := p.halfY
    e.whenFull (halfCodes hx ++ halfCodes hy) [hx.x.d.toNat, hy.x.d.toNat] fun e =>
      let rx := e.halfResult hx
      let ry := e.halfResult hy
      let all := allRaised (e.active hx.x) (halfExc rx) ||| allRaised (e.active hy.x) (halfExc ry)
      match fpTrap e.g.arch.fmode (e.active hx.x) (halfExc rx) all 0, fpTrap e.g.arch.fmode (e.active hy.x) (halfExc ry) all 1 with
      | some t, _ => .trap t
      | none, some t => .trap t
      | none, none =>
        .done (((e.writeV hx.x hx.x.d.toNat rx.1).writeV hy.x hy.x.d.toNat ry.1).setFmode (raiseFlags e.g.arch.fmode all))

end Sys2Proof.Machine
end

