-- ==== Sys2Proof/Machine/Tasks.lean ====
section
/-!
DEFINITION. Machine/Tasks.lean: task control blocks: creation (R83, R95, R121), SPAWN and JOIN at the TCB's home slice
(R121-R125), and retirement (R105-R109, R117).
-/

namespace Sys2Proof.Machine

open Sys2Proof

/-! ### Creation -/

/-- The lowest FREE TCB of a die's pool; none where the pool has none. DEDUCED, log 68. -/
def State.freeTcb (s : State) (die : Nat) : Option Nat :=
  let used := (s.tcbs.filter fun t => dieOfTask t.1 = die).length
  ((List.range (min (used + 1) (2 ^ 20))).map fun i => die * 2 ^ 20 + i).find? fun i => (s.tcb i).state = .free

/-- R98: a task is created READY or WAITING. -/
def Tcb.created (t : Tcb) (gtc id : Nat) : Tcb :=
  { t with state := if t.preds = 0 then .ready else .waiting, readyGtc := if t.preds = 0 then gtc else 0, launchId := id }

/-! ### Successor chunks (R97): 15 task ids and the index of the next chunk, in memory that no owner's key covers -/

def State.chunkPa (s : State) (die i : Nat) : Nat := (s.die die).tcbPool + poolBytes + 64 * i
def State.word32 (s : State) (pa : Nat) : Nat := s.valueAt none pa 4

/-- The chunks of a list of `n` successors, from an address on. -/
def State.chunkList (s : State) (die : Nat) : Nat → Nat → Nat → List Nat
  | 0, _, _ => []
  | k + 1, pa, n =>
    if n = 0 then []
    else pa :: (if n ≤ 15 || 2 ^ 18 ≤ s.word32 (pa + 60) then []
                else s.chunkList die k (s.chunkPa die (s.word32 (pa + 60))) (n - 15))

def State.chunksOf (s : State) (task : Nat) : List Nat :=
  let t := s.tcb task
  s.chunkList (dieOfTask task) (t.succCnt / 15 + 1) t.succAddr t.succCnt

/-- A task's successors in list order. -/
def State.successors (s : State) (task : Nat) : List Nat :=
  (((s.chunksOf task).flatMap fun pa => (List.range 15).map fun i => s.word32 (pa + 4 * i)).take (s.tcb task).succCnt).filter
    fun id => id < 2 ^ 21

/-- An append to a producer's list takes a new chunk. -/
def State.needsChunk (s : State) (task : Nat) : Bool := (s.tcb task).succCnt % 15 = 0

/-- Room to append a successor to each of some producers. -/
def State.chunkRoom (s : State) (tasks : List Nat) : Bool :=
  [0, 1].all fun d =>
    ((tasks.filter fun p => dieOfTask p = d && s.needsChunk p).length + (s.die d).chunksUsed.length) ≤ 2 ^ 18

/-- The lowest free chunk of a die. -/
def State.freeChunk (s : State) (die : Nat) : Nat :=
  let used := (s.die die).chunksUsed
  ((List.range (used.length + 1)).find? fun i => !used.contains i).getD 0

/-- Append a successor to a producer's list. -/
def State.addSucc (s : State) (task id : Nat) : State :=
  let t := s.tcb task
  let die := dieOfTask task
  let last := (s.chunksOf task).getLast?
  let s1 := s.setTcb task { t with succCnt := t.succCnt + 1 }
  if !s.needsChunk task then s1.performBytes none (last.getD 0 + 4 * (t.succCnt % 15)) (leBytes 4 id)
  else
    let i := s.freeChunk die
    let pa := s.chunkPa die i
    let s2 := (s1.setDie die { (s1.die die) with chunksUsed := i :: (s1.die die).chunksUsed }).performBytes none pa
      (leBytes 4 id ++ List.replicate 56 0 ++ leBytes 4 0xFFFFFFFF)
    match last with
    | some p => s2.performBytes none (p + 60) (leBytes 4 i)
    | none => s2.setTcb task { (s2.tcb task) with succAddr := pa }

/-- Free a task's chunks. -/
def State.dropSuccs (s : State) (task : Nat) : State :=
  let die := dieOfTask task
  let gone := s.chunksOf task
  (s.setDie die { (s.die die) with chunksUsed := (s.die die).chunksUsed.filter fun i => !gone.contains (s.chunkPa die i) }).setTcb
    task { (s.tcb task) with succAddr := 0, succCnt := 0 }

/-- A TCB becomes FREE, which returns its successor chunks (R109). -/
def State.freeTask (s : State) (task : Nat) : State := (s.dropSuccs task).setTcb task {}

/-! ### SPAWN (R121) -/

/-- The child of a checked spawn record; SPLICE_OK of the record is ignored (Table 6-4). -/
def State.childOf (s : State) (g : GroupRef) (r : List Byte) : Tcb :=
  let p := s.tcb g.task
  let flags := recField r 0x19 1
  let fm := recField r 0x18 1
  { prio := min (flags % 8) p.prio, coresident := bit flags 3, joinable := bit flags 5, spawned := true,
    kdesc := recField r 0 8, args := recField r 8 8, tiles := recField r 0x10 4, tshape := recField r 0x14 4,
    fmask := if fm = 0 then p.fmask else fm, parent := g.task, parentBlk := g.bid, parentLaunch := p.launchId,
    queue := p.queue, owner := p.owner }

def execSpawnPerform (id : Nat) (s : State) : Host.Outcome State Fault Refusal :=
  match s.pending? id with
  | some p =>
    match p.req, s.group? p.g with
    | .spawn r dst, some g =>
      if !s.mayPerform p then .next s
      else
        let s1 := s.dropPending id
        let die := dieOfCore g.core
        match s1.freeTcb die with
        | none => .next (s1.answer p.g id (s1.die die).tcbPool (uVal (uDst dst) 0xFFFFFFFF) none)
        | some n =>
          let child := s1.childOf p.g r
          let s2 := { s1 with nextId := s1.nextId + 1 }.setTcb n (child.created s.gtc s1.nextId)
          let s3 := if child.joinable then s2.modBlock (blockOf p.g) fun b => { b with children := b.children + 1 } else s2
          .next (s3.answer p.g id (s3.tcbPa n) (uVal (uDst dst) n) none)
    | _, _ => .next s
  | none => .next s

/-! ### JOIN (R124, R125) -/

/-- A JOIN that finds children waits with its block. -/
def State.waitJoin (s : State) (p : Pending) (dst : Nat) : State :=
  (s.dropPending p.id).modBlock (blockOf p.g) fun b => { b with
    joins := b.joins ++ [(p.id, p.g, dst)],
    state := match b.state with
      | .saving _ u n d => .saving 2 u n d
      | .saved _ u n d => .saved 2 u n d
      | st => st }

/-- It completes at once with no children, else the block is suspended: with no room in the save pool it stays resident.
DEDUCED, log 78. -/
def execJoinPerform (id : Nat) (s : State) : Host.Outcome State Fault Refusal :=
  match s.pending? id with
  | some p =>
    match p.req, s.block? (blockOf p.g) with
    | .join dst, some b =>
      if !s.mayPerform p then .next s
      else if b.children = 0 && b.joins.isEmpty then
        .next (((s.dropPending id).modBlock b.ref fun x => { x with failed := 0 }).answer p.g id (s.tcbPa p.g.task)
          (uVal (uDst dst) b.failed) none)
      else if b.state ≠ .placed then .next (s.waitJoin p dst)
      else
        match s.stopToSave b.ref 2 with
        | some s1 => .next (s1.waitJoin p dst)
        | none => .next s
    | _, _ => .next s
  | none => .next s

/-! ### Retirement (R106, R107, R117) -/

/-- One successor decrement, at the home slice of the successor's TCB. -/
def State.decPreds (s : State) (cancel : Bool) (task : Nat) : State :=
  let t := s.tcb task
  let t1 := { t with preds := t.preds - 1, cancel := t.cancel || cancel }
  s.setTcb task (if t.state = .waiting && t.preds ≤ 1 then { t1 with state := .ready, readyGtc := s.gtc } else t1)

/-- A JOINABLE child's decrement of its parent block's count; discarded where that block has ended. -/
def State.childDone (s : State) (t : Tcb) : State :=
  if !t.joinable || (s.tcb t.parent).launchId ≠ t.parentLaunch then s
  else s.modBlock ⟨t.parent, t.parentBlk⟩ fun b => { b with
    children := b.children - 1, failed := b.failed + (if t.fault = 0 then 0 else 1),
    readyAt := if b.children = 1 then s.gtc else b.readyAt }

/-- A TCB becomes RETIRED, or FREE where it was spawned or no EDGE can name it any more (R109); a task's fault leaves its
TASK_FAULT record.  The chunks of its successors stay with it until it is FREE: where R97 has a retirement free one, that is the
retirement which frees the TCB. DEDUCED, log 149. -/
def State.retireTcb (s : State) (task : Nat) : State :=
  let t := s.tcb task
  let s1 := if t.fault = 0 then s else s.record
    { stamp := s.gtc, src := srcNum (dieOfTask task) 0 5 0, type := 9, code := t.fault, data0 := task }
  if t.spawned || !(s.queue t.queue).recent.contains task then s1.freeTask task
  else s1.setTcb task
    { t with state := .retired, retireGtc := s.gtc, stock := [], returned := [], asked := [], reserved := false, passedSince := none }

/-- The successors of a retiring task, in list order: for a fused pair those of C, and P's others. -/
def State.successorsOf (s : State) (task : Nat) : List Nat :=
  let t := s.tcb task
  if t.fusedFlag then s.successors t.fusedWith ++ (s.successors task).filter fun x => x ≠ t.fusedWith else s.successors task

/-- A die's retirement queue retires its oldest task; while a drone pair recovers, it holds them (R94). -/
def execTaskRetire (task : Nat) (s : State) : Host.Outcome State Fault Refusal :=
  let d := s.die (dieOfTask task)
  let t := s.tcb task
  if d.retireQueue.head? ≠ some task || t.state ≠ .retiring || s.drone.recovering.isSome then .next s
  else
    let s1 := s.setDie (dieOfTask task) { d with retireQueue := d.retireQueue.drop 1 }
    let s2 := (s1.successorsOf task).foldl (State.decPreds · (t.fault ≠ 0)) s1
    let s3 := (s2.childDone t).retireTcb task
    .next (if t.fusedFlag then s3.retireTcb t.fusedWith else s3)

end Sys2Proof.Machine
end

