-- ==== Sys2Proof/Machine/FrontEnd.lean ====
section
/-!
DEFINITION. Machine/FrontEnd.lean: the queues and their parser cores (R77-R93), the packets' effects, checkpoints (R449-R451)
and the drone pairs (R94).  A queue has one packet in flight at a time, so its packets perform in order.
-/

namespace Sys2Proof.Machine

open Sys2Proof

/-! ### The stream (R78, R85, R88) -/

def Queue.size (q : Queue) : Nat := 2 ^ q.log
def Queue.depth (q : Queue) : Nat := q.levels.length

/-- The owner in whose space a level's bytes lie: the ring's is QCTL.OWNER's. DEDUCED, log 88. -/
def Queue.streamOwner (q : Queue) : Nat := if q.levels.isEmpty then q.owner else q.ownerNow.getD q.owner
/-- The owner of the packets' addresses (R82, R90). -/
def Queue.packetOwner (q : Queue) : Nat := q.ownerNow.getD q.owner

/-- Pending words of the innermost level. -/
def Queue.avail (q : Queue) : Nat :=
  match q.levels with
  | [] => ((q.wptr + q.size - q.pos % q.size) % q.size) / 4
  | l :: _ => l.left

/-- The virtual address of word `i` from the parse position. -/
def Queue.wordVa (q : Queue) (i : Nat) : Nat :=
  match q.levels with
  | [] => q.base + (q.pos + 4 * i) % q.size
  | l :: _ => l.addr + 4 * i

/-- The addresses of the pending bytes of a unit, as booleans. -/
def Queue.pendingIn (q : Queue) (unit : Nat) : List Bool :=
  (List.range 64).map fun j =>
    let va := 64 * unit + j
    match q.levels with
    | [] => q.base ≤ va && va < q.base + q.size && (va - q.base + q.size - q.pos % q.size) % q.size < 4 * q.avail
    | l :: _ => l.addr ≤ va && va < l.addr + 4 * l.left

def Queue.windowNow (q : Queue) : Table Unit64 :=
  match q.levels with
  | [] => q.window
  | l :: _ => l.window

def Queue.setWindow (q : Queue) (w : Table Unit64) : Queue :=
  match q.levels with
  | [] => { q with window := w }
  | l :: ls => { q with levels := { l with window := w } :: ls }

/-- The pending bytes of a unit as they stand now; an error is PAGE or BAD_ADDR. -/
def State.unitNow (s : State) (n : Nat) (q : Queue) (unit : Nat) : Except Nat (List (Option Byte) × State) :=
  match s.translate q.streamOwner (queueField n) (64 * unit) with
  | (.ok e, s1) =>
    if e.ca || !e.r then .error 9
    else
      let pa := e.addr (64 * unit)
      if s1.devicePage pa then .error 9
      else if paClass pa = 1 then .error 10
      else
        let bs := s1.readBytes (some (s1.keyAt q.streamOwner pa)) pa 64
        .ok ((bs.zip (q.pendingIn unit)).map fun b => if b.2 then some b.1 else none, s1)
  | _ => .error 9

/-- Versions of a unit that differ in no byte that both hold. -/
def unitAgrees (a b : List (Option Byte)) : Bool := (a.zip b).all fun x => x.1.isNone || x.2.isNone || x.1 = x.2

/-- R88: the unit that a packet is executed from: the fetched bytes or the new ones, wholly, chosen once for each change; what
the stream did not hold at the fetch is read now. -/
def State.useUnit (s : State) (n : Nat) (q : Queue) (unit : Nat) : Except Nat (Queue × State) :=
  match tfind q.windowNow unit, s.unitNow n q unit with
  | none, .error c => .error c
  | none, .ok (bs, s1) => .ok (q.setWindow (tput q.windowNow unit { bytes := bs, seen := some bs }), s1)
  | some _, .error _ => .ok (q, s)
  | some u, .ok (bs, s1) =>
    let keep := unitAgrees u.bytes bs || u.seen.any (unitAgrees bs) || Config.unitKept s.freeCtr unit
    .ok (q.setWindow (tput q.windowNow unit
      { bytes := if keep then (u.bytes.zip bs).map fun b => b.1.or b.2 else bs, seen := some bs }), s1)

/-- The units that words `i` to `i` + `k` - 1 from the parse position lie in. -/
def Queue.unitsOf (q : Queue) (i k : Nat) : List Nat :=
  (List.range k).foldl (fun l j => let u := q.wordVa (i + j) / 64; if l.contains u then l else l ++ [u]) []

/-- Use units in turn. -/
def State.useUnits (s : State) (n : Nat) (q : Queue) : List Nat → Except Nat (Queue × State)
  | [] => .ok (q, s)
  | u :: us =>
    match s.useUnit n q u with
    | .error c => .error c
    | .ok (q1, s1) => s1.useUnits n q1 us

/-- Word `i` from the parse position, as the window holds it. -/
def Queue.word (q : Queue) (i : Nat) : Nat :=
  let va := q.wordVa i
  let bs := ((tfind q.windowNow (va / 64)).map fun u => u.bytes).getD []
  leNat ((List.range 4).map fun j => (bs.getD (va % 64 + j) none).getD 0)

/-- The units of a packet being parsed and of the 1,024 bytes behind it.  R88 counts "ahead of the packet": the model counts from
its end, which takes in what a count from its header would; each unit is still executed with old bytes or with new ones.
DESIGN CHOICE, log 150. -/
def Queue.aheadUnits (q : Queue) (words : Nat) : List Nat := q.unitsOf 0 (min (words + 256) q.avail)

/-- Bytes that are pending no longer leave the window: a later lap of the ring reads them afresh. -/
def Queue.trim (q : Queue) : Queue :=
  q.setWindow (q.windowNow.map fun u =>
    let cut (bs : List (Option Byte)) : List (Option Byte) := (bs.zip (q.pendingIn u.1)).map fun b => if b.2 then b.1 else none
    (u.1, { bytes := cut u.2.bytes, seen := u.2.seen.map cut }))

/-- Fetch ahead, and forget what lies behind; a unit that does not translate is fetched when it is needed. -/
def State.fetchAhead (s : State) (n : Nat) (q : Queue) (words : Nat) : Queue × State :=
  let units := q.aheadUnits words
  let q0 := q.setWindow (q.windowNow.filter fun u => units.contains u.1)
  units.foldl (fun qs u =>
    if (tfind qs.1.windowNow u).isSome then qs
    else
      match qs.2.unitNow n qs.1 u with
      | .ok (bs, s1) => (qs.1.setWindow (tput qs.1.windowNow u { bytes := bs }), s1)
      | .error _ => qs) (q0, s)

/-! ### Checks (R80, R82-R87, R90) -/

/-- The LENGTH of a type agrees with Table 5-3. -/
def lengthOk (type len : Nat) : Bool :=
  match type with
  | 0 => true
  | 1 => 3 ≤ len
  | 2 | 5 => len = 7
  | 3 => len = 4
  | 4 => len = 3
  | 6 | 12 => len = 1
  | 7 => len = 8
  | 8 => len = 5
  | 9 => len = 0
  | _ => len = 2

/-- The fault of a header; 0 for none. -/
def headerFault (h : Nat) : Nat :=
  if h / 2 ^ 24 ≠ 0 then 1 else if 12 < h % 256 then 2 else if !lengthOk (h % 256) (h / 256 % 2 ^ 14) then 3 else 0

def bodyWord (b : List W32) (i : Nat) : Nat := (b.getD i 0).toNat
def bodyDouble (b : List W32) (i : Nat) : Nat := bodyWord b i + 2 ^ 32 * bodyWord b (i + 1)

/-- Step 1: reserved bits and values. -/
def reservedFault (type : Nat) (b : List W32) : Nat :=
  let w := bodyWord b
  let bad : Bool := match type with
    | 2 => w 6 / 2 ^ 13 ≠ 0
    | 3 => w 0 / 2 ^ 15 ≠ 0 || w 1 / 16 ≠ 0
    | 4 => w 2 / 2 ^ 24 ≠ 0
    | 5 | 7 => w 6 / 8 ≠ 0
    | 6 => w 0 / 128 % 2 ≠ 0 || w 0 / 2 ^ 16 ≠ 0
    | 8 => w 4 / 2 ^ 15 ≠ 0 || 2 ≤ w 4 % 4
    | 12 => w 0 / 2 ^ 10 ≠ 0
    | _ => false
  if bad then (if type = 2 then 7 else 10) else 0

/-- The LOOP whose body the next packet belongs to. -/
def Queue.loopHere (q : Queue) : Option LoopState := q.loops.head?.filter fun l => l.level = q.depth

/-- R87: what no loop body may hold: a LOOP, a FETCH_FENCE, more than 1,024 bytes, or the end of its level, which is met by the
level's last packet where the body goes on. DEDUCED, log 89: that packet takes the fault. -/
def Queue.bodyFault (q : Queue) (type words : Nat) : Bool :=
  q.loopHere.any fun l => type = 6 || type = 9 ||
    (l.pass = 1 && (256 < (l.body.map fun p => p.words).sum + words ||
      (!q.levels.isEmpty && q.avail = words && l.next + 1 < l.size)))

/-- Step 2: the type's own rules; `words` is the packet's length. A LOOP that ends its level has no body. -/
def Queue.typeFault (q : Queue) (type words : Nat) (b : List W32) : Nat :=
  let w := bodyWord b
  let loopFault : Bool := q.bodyFault type words ||
    (type = 6 && (w 0 % 128 = 0 || 64 < w 0 % 128 || w 0 / 256 % 256 = 0 || (!q.levels.isEmpty && q.avail = words)))
  let d := w 0 % 2 ^ 12
  if type = 4 && w 2 = 0 then 3
  else if type = 4 && 2 ≤ q.depth then 4
  else if loopFault then 5
  else if type = 3 && (d = 0 || q.launches < d || (bit (w 0) 12 && 4 ≤ q.edges.length)) then 6
  else if type = 2 && (w 4 ≠ w 5 % 65536 * (w 5 / 65536) || w 6 % 256 = 0) then 7
  else if type = 12 && !(q.priv && q.levels.isEmpty) then 8
  else 0

/-- The addresses of a packet in body order, with the alignment and the access each needs: read, write. -/
def packetAddrs (type : Nat) (b : List W32) : List (Nat × Nat × Bool × Bool) :=
  let a := bodyDouble b 0
  match type with
  | 1 => (a, 4, false, true) :: (List.range (b.length - 3)).map fun i => ((a + 4 * (i + 1)) % 2 ^ 64, 4, false, true)
  | 2 => [(a, 1, false, false), (bodyDouble b 2, 8, false, false)]
  | 4 => [(a, 4, true, false)]
  | 5 | 7 => [(a, 8, true, false)]
  | 8 => [(a, 8, bit (bodyWord b 4) 2, true)]
  | 10 => [(a, 8, false, true)]
  | 11 => (List.range 64).map fun i => ((a + i) % 2 ^ 64, 1, true, true)
  | _ => []

/-- The physical address of a packet's address, or PAGE. -/
def State.packetPa (s : State) (n : Nat) (q : Queue) (x : Nat × Nat × Bool × Bool) : Except Nat (Nat × State) :=
  match s.translate q.packetOwner (queueField n) x.1 with
  | (.ok e, s1) =>
    let pa := e.addr x.1
    if (x.2.2.1 || x.2.2.2) && (e.ca || (x.2.2.1 && !e.r) || (x.2.2.2 && !e.w) || s1.devicePage pa) then .error 9 else .ok (pa, s1)
  | _ => .error 9

/-- DEDUCED, log 87. -/
def State.packetPas (s : State) (n : Nat) (q : Queue) : List (Nat × Nat × Bool × Bool) → Except Nat (List Nat × State)
  | [] => .ok ([], s)
  | x :: xs =>
    match s.packetPa n q x with
    | .error c => .error c
    | .ok (pa, s1) =>
      match s1.packetPas n q xs with
      | .error c => .error c
      | .ok (ps, s2) => .ok (pa :: ps, s2)

/-- The checks of a body in R80's order: the physical addresses, or the fault. -/
def State.bodyCheck (s : State) (n : Nat) (q : Queue) (type words : Nat) (b : List W32) : Except Nat (List Nat × State) :=
  let c1 := reservedFault type b
  let c2 := q.typeFault type words b
  let as := packetAddrs type b
  if c1 ≠ 0 then .error c1
  else if c2 ≠ 0 then .error c2
  else if as.any fun a => a.1 % a.2.1 ≠ 0 then .error 10
  else
    match s.packetPas n q as with
    | .error c => .error c
    | .ok (ps, s1) => if ps.any fun p => paClass p = 1 then .error 10 else .ok (ps, s1)

/-! ### Parsing (R79-R81) -/

/-- What a queue's parser finds: nothing it may take, or a packet. -/
inductive Parsed where
  | nothing
  | packet (p : Packet) (q : Queue) (s : State)
  deriving DecidableEq, Repr

/-- The packet with the fault that its header and body take; of a skipped packet only what a loop body may not hold is looked
at (R86, R87). -/
def State.checked (s : State) (n : Nat) (q : Queue) (p : Packet) : Parsed :=
  if p.predicated && !q.pred then .packet { p with skip := true, fault := if q.bodyFault p.type p.words then 5 else 0 } q s
  else
    match s.bodyCheck n q p.type p.words p.body with
    | .error c => .packet { p with fault := c } q s
    | .ok (pas, s1) => .packet { p with pas } q s1

/-- The path cells of a read of the parser's, and its tags (R309, R310, R315). -/
def State.parserRead (s : State) (n pa : Nat) : List CellRef × List Tag :=
  if paClass pa ≠ 0 then ([], []) else (pathCells s (queueField n) pa, s.tagsFrom (queueField n) 0 pa)

/-- Those of the units a packet was fetched from. -/
def State.fetchCover (s : State) (n : Nat) (q : Queue) (units : List Nat) : List CellRef × List Tag :=
  units.foldl (fun c u =>
    match (s.translate q.streamOwner (queueField n) (64 * u)).1 with
    | .ok e => let r := s.parserRead n (e.addr (64 * u)); (c.1 ++ r.1, c.2 ++ r.2)
    | _ => c) ([], [])

/-- The next packet of a queue: of a loop's copy, or of the stream. DEDUCED, log 90. -/
def State.nextPacket (s : State) (n : Nat) : Parsed :=
  let q := s.queue n
  if !q.en || q.code ≠ 0 || !q.inflight.isEmpty || s.drone.recovering.isSome || s.gtc < q.parseFrom then .nothing
  else
    match q.loopHere.bind fun l => if l.pass = 1 then none else l.body[l.next]? with
    | some p => s.checked n q p
    | none =>
      if q.avail = 0 then .nothing
      else
        let at0 (type fault : Nat) : Packet := { type, body := [], addr := q.wordVa 0, level := q.depth,
                                                 words := 1, fault }
        match s.useUnits n q (q.unitsOf 0 1) with
        | .error c => .packet (at0 0 c) q s
        | .ok (q1, s1) =>
          let h := q1.word 0
          let len := h / 256 % 2 ^ 14
          if headerFault h ≠ 0 then .packet (at0 (h % 256) (headerFault h)) q1 s1
          else if q1.avail < len + 1 then
            (if q1.levels.isEmpty then .nothing else .packet (at0 (h % 256) 3) q1 s1)
          else
            match s1.useUnits n q1 (q1.unitsOf 1 len) with
            | .error c => .packet (at0 (h % 256) c) q1 s1
            | .ok (q2, s2) =>
              let (cover, tags) := s2.fetchCover n q2 (q2.unitsOf 0 (len + 1))
              let (q3, s3) := s2.fetchAhead n q2 (len + 1)
              s3.checked n q3 { type := h % 256, predicated := bit h 22, fence := bit h 23,
                                body := (List.range len).map fun i => BitVec.ofNat 32 (q2.word (i + 1)), addr := q.wordVa 0,
                                level := q.depth, words := len + 1, cover, tags }

def Parsed.some? : Parsed → Bool
  | .nothing => false
  | .packet _ _ _ => true

/-- The parser cores of a die that are at work. -/
def State.parsersBusy (s : State) (die : Nat) : Nat :=
  (s.queues.filter fun q => q.1 / 64 = die && q.2.inflight.any fun p => s.gtc < p.parseEnd).length

/-- R79: the queue that a parser core of a die serves next. -/
def State.parseChoice (s : State) (die : Nat) : Option Nat :=
  if 8 ≤ s.parsersBusy die then none
  else
    let qs := (s.queues.filter fun q => q.1 / 64 = die && q.1 < 128 && (s.nextPacket q.1).some?).map fun q => q.1
    let after (q : Nat) : Nat :=
      match tfind (s.die die).rr (s.queue q).prio with
      | some l => (q % 64 + 63 - l % 64) % 64
      | none => q % 64
    let better (a b : Nat) : Bool :=
      (s.queue b).prio < (s.queue a).prio || ((s.queue a).prio = (s.queue b).prio && after a < after b)
    qs.foldl (fun best q => match best with | none => some q | some b => if better q b then some q else some b) none

/-- The mc that a packet's region stays open. -/
def parseLatency : Nat := 10

/-- A parser core takes the next packet of the queue it serves: its region opens (R81). DEDUCED, log 86. -/
def execPacketParse (die : Nat) (s : State) : Host.Outcome State Fault Refusal :=
  match s.parseChoice die with
  | none => .next s
  | some n =>
    match s.nextPacket n with
    | .nothing => .next s
    | .packet p q s1 =>
      let s2 := s1.setQueue n { q with inflight := [{ p with parseEnd := s.gtc + parseLatency }] }
      .next (s2.setDie die { (s2.die die) with rr := tput (s2.die die).rr q.prio n })

/-! ### Performance (R81, R92, R93) -/

/-- R92: a queue fault halts the queue at its packet. -/
def State.queueFault (s : State) (n code level addr : Nat) : State :=
  let q := s.queue n
  let s1 := s.setQueue n { q with code, level, foff := addr, inflight := [], edges := [], preds := [], stalled := false }
  if q.fie then { s1 with msix := s1.msix ++ [q.vec] } else s1

/-- Move the parse position of the innermost level. -/
def Queue.advance (q : Queue) (words : Nat) : Queue :=
  match q.levels with
  | [] => { q with pos := (q.pos + 4 * words) % q.size }.trim
  | l :: ls => { q with levels := { l with addr := l.addr + 4 * words, left := l.left - words } :: ls }

/-- A packet as the parser's copy of a loop body holds it. -/
def Packet.copied (p : Packet) : Packet :=
  { type := p.type, predicated := p.predicated, fence := p.fence, body := p.body, addr := p.addr, level := p.level, words := p.words }

/-- A packet has been consumed: the position, or a loop's pass, moves on (R85, R87). -/
def Queue.consume (q : Queue) (p : Packet) : Queue :=
  match q.loopHere with
  | some l =>
    if l.pass = 1 then
      { q with loops := { l with next := l.next + 1, body := l.body ++ [p.copied] } :: q.loops.drop 1 }.advance p.words
    else { q with loops := { l with next := l.next + 1 } :: q.loops.drop 1 }
  | none => q.advance p.words

/-- What ends with the packet consumed: passes, loops and levels, innermost first. -/
def Queue.settle : Nat → Queue → Queue
  | 0, q => q
  | k + 1, q =>
    match q.loopHere with
    | some l =>
      if l.next ≠ l.size then q
      else if l.pass < l.count then { q with loops := { l with pass := l.pass + 1, next := 0 } :: q.loops.drop 1 }
      else { q with loops := q.loops.drop 1 }.settle k
    | none =>
      match q.levels with
      | l :: ls => if l.left = 0 then { q with levels := ls }.settle k else q
      | [] => q

/-- QRPTR: the level-0 packet that commits next, once no indirect buffer is open; a level-0 loop's passes take it back to the
body's start. DEDUCED, log 89. -/
def Queue.moveRptr (q : Queue) : Queue :=
  if !q.levels.isEmpty then q
  else
    match q.loopHere.bind fun l => if l.pass = 1 then none else l.body[l.next]? with
    | some p => { q with rptr := (p.addr - q.base) % q.size }
    | none => { q with rptr := q.pos }

/-- An un-skipped IB or LOOP moves the position itself. -/
def Packet.opens (p : Packet) : Bool := (p.type = 4 || p.type = 6) && !p.skip

/-- The packet's region has committed. -/
def Packet.committed (p : Packet) (gtc : Nat) : Bool := p.commitAt.any fun t => t ≤ gtc

/-- R309: the commit of a packet's region that closes now. -/
def State.packetCommit (s : State) (p : Packet) : Nat := max (s.gtc + s.qwin) (s.tagsEnd p.tags)

/-- The compare of PRED and WAIT (R86). -/
def Packet.watchOf (p : Packet) : Watch :=
  { pa := p.pas.headD 0, cc := bodyWord p.body 6, ref := bodyDouble p.body 4, mask := bodyDouble p.body 2 }

/-- A PRED's or a WAIT's region reads its word, which joins its cover (R81, R86, R310). -/
def State.readWord (s : State) (n : Nat) (q : Queue) (p : Packet) : Packet :=
  if (p.type = 5 || p.type = 7) && p.fault = 0 && !p.skip then
    let r := s.parserRead n (p.pas.headD 0)
    { p with value := some (p.watchOf.holdsNow s q.packetOwner), cover := p.cover ++ r.1, tags := p.tags ++ r.2 }
  else p

/-- A parsed packet's region closes; committed, a packet that takes a fault takes it, and one whose effect is done has
performed.  What R93's context record would hold stands in the queue: `levels`, `loops` and `edges` are what a squash leaves as the
last commit set them. DEDUCED, log 151. -/
def execPacketPerform (n : Nat) (s : State) : Host.Outcome State Fault Refusal :=
  let q := s.queue n
  match q.inflight with
  | [] => .next s
  | p :: _ =>
    if !q.en || s.gtc < p.parseEnd then .next s
    else if p.commitAt.isNone then
      let r := s.readWord n q p
      .next (s.setQueue n { q with inflight := [{ r with commitAt := some (s.packetCommit r) }] })
    else if !p.committed s.gtc then .next s
    else if p.fault ≠ 0 then .next (s.queueFault n p.fault p.level p.addr)
    else if !p.done && !p.skip then .next s
    else .next (s.setQueue n ({ (if p.opens then q else q.consume p) with inflight := [] }.settle 8).moveRptr)

/-! ### The packets' effects -/

/-- The committed packet of a type whose effect is due. -/
def Queue.due (q : Queue) (gtc type : Nat) : Option Packet :=
  match q.inflight with
  | p :: _ => if q.en && p.committed gtc && p.fault = 0 && !p.done && !p.skip && p.type = type then some p else none
  | [] => none

/-- The packet's effect has been applied. -/
def State.packetDone (s : State) (n : Nat) (p : Packet) : State :=
  s.setQueue n { (s.queue n) with inflight := [{ p with done := true }], stalled := false }

/-- Run the effect of a due packet. -/
def packetEffect (n type : Nat) (k : Queue → Packet → State → State) (s : State) : Host.Outcome State Fault Refusal :=
  match (s.queue n).due s.gtc type with
  | none => .next s
  | some p => .next (k (s.queue n) p s)

def State.queueKey (s : State) (q : Queue) (pa : Nat) : Option KeyVal := some (s.keyAt q.packetOwner pa)

def execNopPacket (n : Nat) := packetEffect n 0 fun _ p s => s.packetDone n p

/-- The effect of a packet that writes: what leaves the die is held there under its tag first (R315). -/
def State.writesOf (s : State) (n : Nat) (q : Queue) (p : Packet) (k : State) : State :=
  match p.sent with
  | some t => if s.gtc < t then s else k
  | none =>
    if s.packetHold n p = 0 then k
    else s.setQueue n { q with inflight := [{ p with sent := some (s.gtc + s.qwin + s.packetHold n p) }] }

/-- R81: the data words, in ascending order. -/
def execWrite (n : Nat) := packetEffect n 1 fun q p s => s.writesOf n q p <|
  ((p.pas.zip (p.body.drop 2)).foldl (fun s w => s.performBytes (s.queueKey q w.1) w.1 (bytesOfWord w.2)) s).packetDone n p

/-- R91: every earlier LAUNCH of the queue has retired. -/
def State.launchesRetired (s : State) (n : Nat) : Bool :=
  s.tcbs.all fun t => t.2.queue ≠ n || t.2.spawned || t.2.state = .free || t.2.state = .retired

/-- A FREE TCB and room in the successor lists of the pending producers (R83, R97). -/
def State.launchRoom (s : State) (n : Nat) : Bool :=
  (s.freeTcb (n / 64 % 2)).isSome && s.chunkRoom ((s.queue n).preds.filter fun p => (s.tcb p).state ≠ TaskState.retired)

/-- The TCB of a LAUNCH: `left` counts the producers that had not retired. -/
def launchTcb (q : Queue) (n left : Nat) (b : List W32) : Tcb :=
  let w6 := bodyWord b 6
  { prio := min (w6 / 256 % 8) q.prio, preds := left, coresident := bit w6 11, spliceOk := bit w6 12, splicing := bit w6 12, queue := n,
    seq := q.launches % 2 ^ 32, kdesc := bodyDouble b 0, args := bodyDouble b 2, tiles := bodyWord b 4, tshape := bodyWord b 5,
    fmask := w6 % 256, edges := q.edges, producers := q.preds, owner := q.packetOwner }

/-- R83, R84, R99, R109: one TCB with the queue's next sequence number and its pending edges. -/
def execLaunch (n : Nat) := packetEffect n 2 fun q p s =>
  if !s.launchRoom n then s.setQueue n { q with stalled := true }
  else
    match s.freeTcb (n / 64 % 2) with
    | none => s
    | some id =>
      let live := q.preds.filter fun x => (s.tcb x).state ≠ TaskState.retired
      let s1 := live.foldl (State.addSucc · · id) s
      let s2 : State := { s1 with nextId := s1.nextId + 1 }.setTcb id ((launchTcb q n live.length p.body).created s.gtc s1.nextId)
      let s3 : State := match q.recent[4094]? with
        | some x => if (s2.tcb x).state = TaskState.retired then s2.freeTask x else s2
        | none => s2
      (s3.setQueue n { q with launches := q.launches + 1, recent := id :: q.recent.take 4094, edges := [], preds := [] }).packetDone n p

/-- R84. -/
def execEdge (n : Nat) := packetEffect n 3 fun q p s =>
  let w0 := bodyWord p.body 0
  let w1 := bodyWord p.body 1
  match q.recent[w0 % 2 ^ 12 - 1]? with
  | none => s.queueFault n 6 p.level p.addr
  | some producer =>
    let e : EdgeRec := { handle := bodyDouble p.body 2, producer, pslot := w1 % 4, cslot := w1 / 4 % 4, transient := bit w0 13,
                         keep := bit w0 14 }
    (s.setQueue n { q with
      edges := if bit w0 12 then q.edges ++ [e] else q.edges,
      preds := if q.preds.contains producer then q.preds else q.preds ++ [producer] }).packetDone n p

/-- R85: the next level, with a fresh window. -/
def execIb (n : Nat) := packetEffect n 4 fun q p s =>
  let q1 := q.consume p
  (s.setQueue n { q1 with levels := { addr := bodyDouble p.body 0, left := bodyWord p.body 2 } :: q1.levels }).packetDone n p

/-- R86: what its region read. -/
def execPred (n : Nat) := packetEffect n 5 fun q p s =>
  (s.setQueue n { q with pred := p.value.getD (p.watchOf.holdsNow s q.packetOwner) }).packetDone n p

/-- R87. -/
def execLoopPacket (n : Nat) := packetEffect n 6 fun q p s =>
  let w := bodyWord p.body 0
  let q1 := q.consume p
  (s.setQueue n { q1 with
    loops := { level := q1.depth, addr := p.addr, size := w % 128, count := w / 256 % 256 } :: q1.loops }).packetDone n p

/-- R86: a compare that held as the region read the word, or holds now, lets the queue go on; else it stands.
DEDUCED, log 91. -/
def execWait (n : Nat) := packetEffect n 7 fun q p s =>
  let w := p.watchOf
  let us := bodyWord p.body 7
  if p.watch.isSome then s
  else if p.value = some true || w.holdsNow s q.packetOwner then s.packetDone n p
  else s.setQueue n { q with inflight := [{ p with watch := some w, waitUntil := if us = 0 then none else some (s.gtc + 1000 * us),
                                                   pollAt := s.gtc + 2000 }] }

/-- A standing WAIT has something to evaluate: a write to its sector, or the poll of a host address. -/
def Packet.reevaluateDue (p : Packet) (gtc : Nat) : Bool :=
  p.watch.any fun w => w.met || (paClass w.pa = 2 && p.pollAt ≤ gtc)

def execWaitReevaluate (n : Nat) := packetEffect n 7 fun q p s =>
  match p.watch with
  | none => s
  | some w =>
    if !p.reevaluateDue s.gtc then s
    else if w.met || w.holdsNow s q.packetOwner then s.packetDone n { p with watch := none }
    else s.setQueue n { q with inflight := [{ p with pollAt := s.gtc + 2000 }] }

def execWaitTimeout (n : Nat) := packetEffect n 7 fun _ p s =>
  if (p.waitUntil.any fun t => t ≤ s.gtc) && !(p.watch.any fun w => w.met) then s.queueFault n 11 p.level p.addr else s

/-- R91: the write, then the interrupt. -/
def execSignal (n : Nat) := packetEffect n 8 fun q p s =>
  let w4 := bodyWord p.body 4
  if w4 % 4 = 1 && !s.launchesRetired n then s
  else s.writesOf n q p <|
    let pa := p.pas.headD 0
    let old := if bit w4 2 then s.valueAt (s.queueKey q pa) pa 8 else 0
    let s1 := s.performBytes (s.queueKey q pa) pa (leBytes 8 ((old + bodyDouble p.body 2) % 2 ^ 64))
    ({ s1 with msix := if bit w4 3 then s1.msix ++ [w4 / 16 % 2048] else s1.msix }).packetDone n p

/-- R89. -/
def execFetchFence (n : Nat) := packetEffect n 9 fun q p s =>
  (s.setQueue n { q with window := [], levels := q.levels.map fun l => { l with window := [] } }).packetDone n p

/-- The GTC of the packet's commit. -/
def execTimestamp (n : Nat) := packetEffect n 10 fun q p s => s.writesOf n q p
  ((s.performBytes (s.queueKey q (p.pas.headD 0)) (p.pas.headD 0) (leBytes 8 (p.commitAt.getD 0 % 2 ^ 64))).packetDone n p)

/-- R90. -/
def execOwner (n : Nat) := packetEffect n 12 fun q p s =>
  (s.setQueue n { q with ownerNow := some (bodyWord p.body 0 % 1024) }).packetDone n p

/-- R83, R97: what the queue waited for has been freed. -/
def execParserStallResume (n : Nat) (s : State) : Host.Outcome State Fault Refusal :=
  let q := s.queue n
  .next (if q.stalled && s.launchRoom n then s.setQueue n { q with stalled := false } else s)

/-! ### Checkpoints (R449-R451) -/

/-- Table 22-2's limits. -/
def checkpointOk (d : List Byte) : Bool :=
  let u (o n : Nat) : Nat := recField d o n
  u 0 4 = 0x4B434843 && u 4 4 / 32 = 0 && u 4 4 % 4 ≠ 0 && u 8 2 ≠ 0 && u 8 2 / 2 ^ 13 = 0 && u 0x0A 6 = 0 && u 0x10 8 % 4096 = 0 &&
    u 0x24 4 = 0

/-- A checkpoint starts once every earlier LAUNCH of its queue has retired. DEDUCED, log 94. -/
def execCheckpoint (n : Nat) := packetEffect n 11 fun q p s =>
  if !s.launchesRetired n || (s.checkpoints.any fun c => c.queue = n) then s
  else
    let d := p.pas.map fun pa => s.readByte (s.queueKey q pa) pa
    if !checkpointOk d then s.queueFault n 10 p.level p.addr
    else
      { s with checkpoints := s.checkpoints ++
          [{ queue := n, desc := p.pas, owner := q.packetOwner, flags := recField d 4 4, ports := recField d 8 2,
             sink := recField d 0x10 8, limit := recField d 0x18 8, start := s.gtc }] }

/-- What a sink of the safe tier holds of a live line (R357, R451). -/
def State.lineRun (s : State) (l : Nat × W64 × CaLine) : SinkRun :=
  let pa := s.caPa l.1 l.2.1.toNat l.2.2.slot
  { pa := l.2.1.toNat, length := 256, owner := l.1, line := some l.2.2.allocGtc, sent := 256,
    cells := (List.range 256).map fun i => (i, s.plainByte (pa + i)),
    keys := (List.range 4).filterMap fun i => (tfind s.keys (pa / 64 + i)).map fun k => (i, k) }

/-- The key of a line in the tier: owner, name and the GTC of its allocation. -/
def SinkRun.sameLine (a b : SinkRun) : Bool := a.owner = b.owner && a.pa = b.pa && a.line = b.line

/-- The tier holds a line. -/
def State.inTier (s : State) (r : SinkRun) : Bool := s.tierLines.any r.sameLine

/-- The lines that a checkpoint takes: those allocated by its start (R357). -/
def State.linesOf (s : State) (c : Checkpoint) : List SinkRun :=
  if bit c.flags 0 then (s.caLines.filter fun l => l.2.2.allocGtc ≤ c.start).map s.lineRun else []
def State.linesSkipped (s : State) (c : Checkpoint) : Nat :=
  if bit c.flags 2 then ((s.linesOf c).filter s.inTier).length else 0

/-- Those that it leaves out: allocated after its start. -/
def State.linesLate (s : State) (c : Checkpoint) : Nat :=
  if bit c.flags 0 then (s.caLines.filter fun l => c.start < l.2.2.allocGtc).length else 0

/-- The bytes sent: the memories, whole, less 288 for each line left out, and a header for each run, whose number is the
device's. DEDUCED, log 94. -/
def State.checkpointBytes (s : State) (c : Checkpoint) : Nat :=
  (if bit c.flags 0 then 2 ^ 38 else 0) + (if bit c.flags 1 then 768 * 2 ^ 30 else 0) - 288 * (s.linesSkipped c + s.linesLate c) +
    32 * Config.sinkRuns s.freeCtr

/-- A port that it uses, or the host link, is down. -/
def State.portsDown (s : State) (c : Checkpoint) : Bool :=
  (bit c.ports 12 && s.hostDown) ||
    (List.range 12).any fun p => bit c.ports p && s.linksDown.contains (p / 6, 4 * (1 + p % 6 / 3) + 1 + p % 3)

/-- The device sources at most 2.6 TB/s. -/
def State.checkpointDue (s : State) (c : Checkpoint) : Bool := c.start + s.checkpointBytes c / 2600 ≤ s.gtc

/-- The image that a sink holds. -/
def State.imageAt (s : State) (c : Checkpoint) : Option SinkImage := s.sinks.find? fun i => i.ports = c.ports && i.sink = c.sink

/-- The owner under whose key a sector stands; of one that no owner has written, any number. -/
def State.sectorOwner (s : State) (sec : Nat) : Nat :=
  match (tfind s.keys sec).bind fun k => s.owners.find? fun o => s.keyOf o.1 = k with
  | some o => o.1
  | none => (Config.freeValue (s.freeCtr + sec)).toNat % 65536

/-- A run of memory, in sectors. -/
def State.memoryRun (s : State) (sec n : Nat) : SinkRun :=
  let here (x : Nat) : Bool := sec ≤ x && x < sec + n
  { pa := 64 * sec, length := 64 * n, owner := s.sectorOwner sec, sent := 64 * n, cells := s.mem.filter fun c => here (c.1 / 64),
    keys := s.keys.filter fun k => here k.1 }

/-- The runs from a sector to another: a written sector by itself, what lies between as one, and nothing of live lines, which are
given as (first sector, sectors, false). -/
def State.runsFrom (s : State) (stop : Nat) : Nat → List (Nat × Nat × Bool) → List SinkRun
  | pos, [] => if pos < stop then [s.memoryRun pos (stop - pos)] else []
  | pos, (x, n, mine) :: rest =>
    if x < pos then s.runsFrom stop pos rest
    else
      (if pos < x then [s.memoryRun pos (x - pos)] else []) ++ (if mine then [s.memoryRun x n] else []) ++
        s.runsFrom stop (x + n) rest

/-- The sectors of live lines, as (first, sectors). -/
def State.lineSectors (s : State) : List (Nat × Nat) := s.caLines.map fun l => (s.caPa l.1 l.2.1.toNat l.2.2.slot / 64, 4)

/-- The runs of a range of memory, in ascending order. -/
def State.rangeRuns (s : State) (base size : Nat) : List SinkRun :=
  let here (x : Nat) : Bool := base / 64 ≤ x && x < (base + size) / 64
  let lines := (s.lineSectors.filter fun l => here l.1).map fun l => (l.1, l.2, false)
  let written := ((s.mem.map (fun c : Host.Cell => c.1 / 64) ++ s.keys.map (fun k : Nat × KeyVal => k.1)).filter here).map fun x => (x, 1, true)
  s.runsFrom ((base + size) / 64) (base / 64) (sortBy (fun a b => a.1 < b.1) (lines ++ written))

/-- The stream of a checkpoint: its memories, then its lines. -/
def State.streamOf (s : State) (c : Checkpoint) : List SinkRun :=
  let pa0 := s.domid * 2 ^ 48
  (if bit c.flags 0 then s.rangeRuns pa0 (2 ^ 37) ++ s.rangeRuns (pa0 + 2 ^ 37) (2 ^ 37) else []) ++
    (if bit c.flags 1 then s.rangeRuns (pa0 + 2 ^ 46) (768 * 2 ^ 30) else []) ++
    (s.linesOf c).filter fun l => !(bit c.flags 2 && s.inTier l)

/-- The part of a stream that `n` bytes hold (R450). -/
def cutRuns : Nat → List SinkRun → List SinkRun
  | _, [] => []
  | n, r :: rest =>
    if n < 32 then []
    else if n < 32 + r.length then
      [{ r with sent := n - 32, cells := r.cells.filter fun c => (if r.line.isSome then c.1 else c.1 - r.pa) < n - 32 }]
    else r :: cutRuns (n - 32 - r.length) rest

/-- A run of memory back at its own PA, under the keys it stood under; the bytes of live lines stay (R451).
DEDUCED, log 94. -/
def State.restoreRun (s : State) (r : SinkRun) : State :=
  let lines := s.lineSectors
  let here (pa : Nat) : Bool := r.pa ≤ pa && pa < r.pa + r.sent && !(lines.any fun l => l.1 ≤ pa / 64 && pa / 64 < l.1 + l.2)
  let mem := (r.cells.filter fun c => here c.1).foldl (fun m c => tput m c.1 c.2) (s.mem.filter fun c => !here c.1)
  let keys := (r.keys.filter fun k => here (64 * k.1)).foldl (fun m k => tput m k.1 k.2) (s.keys.filter fun k => !here (64 * k.1))
  let monitors := s.monitors.map fun m => if here m.pa then { m with dirty := true } else m
  let s1 := { s with mem, keys, monitors, poison := s.poison.filter fun p => !here (64 * p) }
  let queues := s1.queues.map fun q =>
    match q.2.inflight.head?.bind fun p => p.watch with
    | some w => (q.1, if here w.pa then q.2.rewatch s1 (w.pa / 64) else q.2)
    | none => q
  { s1 with queues }

/-- A restore in the stream's order, and whether a run whose PA is malformed has stopped it (R451); a CA line's run has no PA of
its own, and the pool stays as it is. DEDUCED, log 94. -/
def State.restoreRuns (s : State) : List SinkRun → State × Bool
  | [] => (s, false)
  | r :: rest =>
    if r.line.isSome then s.restoreRuns rest
    else if s.paMalformed r.pa then (s, true)
    else (s.restoreRun r).restoreRuns rest

/-- The stream, or its part, reaches the sink, and its whole lines the tier. -/
def State.writeImage (s : State) (c : Checkpoint) (runs : List SinkRun) : State :=
  { s with sinks := { ports := c.ports, sink := c.sink, runs } :: s.sinks.filter fun j => !(j.ports = c.ports && j.sink = c.sink),
           tierLines := s.tierLines ++ runs.filter fun r => r.line.isSome && r.sent = 256 && !s.inTier r }

/-- RESULT and WRITTEN of a checkpoint that ends, and the state with what it has sent or restored. -/
def State.checkpointEnd (s : State) (c : Checkpoint) : Nat × Nat × State :=
  let total := s.checkpointBytes c
  let part := (Config.freeValue s.freeCtr).toNat
  if bit c.flags 3 then
    let runs := ((s.imageAt c).map fun i => i.runs).getD []
    if s.portsDown c then (2, 0, (s.restoreRuns (cutRuns part runs)).1)
    else let r := s.restoreRuns runs; (if r.2 then 3 else 0, 0, r.1)
  else if s.portsDown c then (2, part % (total + 1), s.writeImage c (cutRuns (part % (total + 1)) (s.streamOf c)))
  else if c.limit ≠ 0 && c.limit < total then
    (1, part % (c.limit + 1), s.writeImage c (cutRuns (part % (c.limit + 1)) (s.streamOf c)))
  else (0, total, s.writeImage c (s.streamOf c))

/-- Bytes at physical addresses of an owner perform. -/
def State.performAt (s : State) (owner : Nat) (bs : List (Nat × Byte)) : State :=
  bs.foldl (fun s b => s.performBytes (some (s.keyAt owner b.1)) b.1 [b.2]) s

/-- R450: the image is taken as memory stands at the end, each sector whole; then RESULT, WRITTEN, SKIPPED and ENDGTC. -/
def execCheckpointDone (n : Nat) (s : State) : Host.Outcome State Fault Refusal :=
  match s.checkpoints.find? fun c => c.queue = n, (s.queue n).due s.gtc 11 with
  | some c, some p =>
    if !s.checkpointDue c then .next s
    else .next <| s.writesOf n (s.queue n) p <|
      let (result, written, s1) := s.checkpointEnd c
      let s2 := s1.performAt c.owner (((c.desc.drop 0x20).take 4).zip (leBytes 4 result) ++ (c.desc.drop 0x28).zip
        (leBytes 8 written ++ leBytes 8 (if bit c.flags 3 then 0 else s.linesSkipped c) ++ leBytes 8 (s.gtc % 2 ^ 64)))
      let s3 := { s2 with
        checkpoints := s2.checkpoints.filter fun x => x.queue ≠ n,
        msix := if bit c.flags 4 then s2.msix ++ [(s2.queue n).vec] else s2.msix }
      s3.packetDone n p
  | _, _ => .next s

/-! ### The queue registers with behaviour (R77, R78, R92, R109) -/

/-- R78. -/
def execQwptrWrite (_fn n val : Nat) (s : State) : Host.Outcome State Fault Refusal :=
  let q := s.queue n
  let off := val % 2 ^ 24
  .next (s.setQueue n (if off % 4 ≠ 0 || q.size ≤ off then { q with badPtr := true } else { q with wptr := off }))

/-- The fields of QCTL but EN; PRIV and OWNER only through the physical function of a disabled queue. -/
def Queue.control (q : Queue) (fn val : Nat) : Queue :=
  let q1 := { q with prio := val / 2 % 8, fie := bit val 5, vec := val / 2 ^ 16 % 2048 }
  if q.en || fn ≠ 0 then q1 else { q1 with priv := bit val 4, owner := val / 64 % 1024 }

/-- Parsing starts again at QRPTR; pending edges do not outlast a halt, where R84 has only a queue fault discard them.
DESIGN CHOICE, log 152. -/
def Queue.restart (q : Queue) : Queue :=
  { q with pos := q.rptr, window := [], levels := [], loops := [], pred := true, edges := [], preds := [], launches := 0, recent := [],
           ownerNow := none, inflight := [], stalled := false }

def execQueueEnable (fn n val : Nat) (s : State) : Host.Outcome State Fault Refusal :=
  let q := s.queue n
  .next (s.setQueue n (if q.en then q.control fn val else { (q.control fn val).restart with en := true }))

/-- The queue halts: CODE and LEVEL are cleared, and its retired TCBs are freed. DEDUCED, log 92. -/
def execQueueHalt (fn n val : Nat) (s : State) : Host.Outcome State Fault Refusal :=
  let q := s.queue n
  let s1 := q.recent.foldl (fun s x => if (s.tcb x).state = .retired then s.freeTask x else s) s
  let s2 := { s1 with checkpoints := s1.checkpoints.filter fun c => c.queue ≠ n }
  .next (s2.setQueue n { (q.control fn val).restart with en := false, code := 0, level := 0 })

/-! ### The drone pairs (R94) -/

/-- A mismatch: recovery starts, uncommitted packets will be parsed again, and the third within 2^30 mc hands over to die 1.
DEDUCED, log 93. -/
def execDroneMismatch (s : State) : Host.Outcome State Fault Refusal :=
  let d := s.drone
  let recentM := s.gtc :: d.mismatches.filter fun t => s.gtc < t + 2 ^ 30
  let src := srcNum d.activeDie 0 5 0
  let switch := 3 ≤ recentM.length && d.activeDie = 0
  let s1 := s.record { stamp := s.gtc, src, type := 20, code := recentM.length }
  let s2 := if switch then s1.record { stamp := s.gtc, src, type := 21 } else s1
  .next { s2 with
    drone := { activeDie := if switch then 1 else d.activeDie, mismatches := recentM, recovering := some (s.gtc + 500000) },
    queues := s2.queues.map fun q => (q.1, { q.2 with inflight := q.2.inflight.filter fun p => p.committed s.gtc }) }

def execDroneRecoveryEnd (s : State) : Host.Outcome State Fault Refusal :=
  .next (if s.drone.recovering.isSome then { s with drone := { s.drone with recovering := none } } else s)

end Sys2Proof.Machine
end

