-- ==== Sys2Proof/Machine/Loader.lean ====
section
/-!
DEFINITION. Machine/Loader.lean: Lerun objects and their loader (R16-R20, R25-R38, R41-R43).
-/

namespace Sys2Proof.Machine

open Sys2Proof

/-- A load report (R36): CODE, AREA, INDEX, WHERE. -/
def loadReport (code area index pos : Nat) : List Nat := [code, area, index, pos]

/-- The first check that fails, by its offset. -/
def firstBad (l : List (Nat × Bool)) : Option Nat := (l.find? fun c => !c.2).map fun c => c.1

/-- Pass the checks of a record at a file offset. -/
def pass (code area index pos : Nat) (l : List (Nat × Bool)) : Except (List Nat) Unit :=
  match firstBad l with
  | some o => .error (loadReport code area index (pos + o))
  | none => .ok ()

/-- Pass a check for each record in turn. -/
def passEach {α : Type} (f : Nat → α → Except (List Nat) Unit) : Nat → List α → Except (List Nat) Unit
  | _, [] => .ok ()
  | i, x :: xs =>
    match f i x with
    | .error r => .error r
    | .ok _ => passEach f (i + 1) xs

/-! ### The header (R17) -/

/-- One bit of CRC-32, and a byte of it. -/
def crcBit (c : Nat) : Nat := if c % 2 = 1 then (c / 2) ^^^ 0xEDB88320 else c / 2
def crcByte (c : Nat) (b : Byte) : Nat := (List.range 8).foldl (fun c _ => crcBit c) (c ^^^ b.toNat)
def crc32 (l : List Byte) : Nat := (l.foldl crcByte 0xFFFFFFFF) ^^^ 0xFFFFFFFF

/-- Bytes put in place of others. -/
def putAt (l : List Byte) (o : Nat) (bs : List Byte) : List Byte := l.take o ++ bs ++ l.drop (o + bs.length)

def allOnes64 : Nat := 2 ^ 64 - 1

/-- Table 2-1; KCOUNT, PBASE and EXTENT are the layout's, checked with the area table. -/
def headerChecks (b : List Byte) : List (Nat × Bool) :=
  let u (o n : Nat) : Nat := recField b o n
  [(0, 0xC0 ≤ b.length && u 0 4 = 0x4E55524C), (4, u 4 2 = 1), (6, u 6 2 = 0), (0x24, u 0x24 28 = 0)]

def layoutChecks (b : List Byte) : List (Nat × Bool) :=
  let u (o n : Nat) : Nat := recField b o n
  [(0x0C, 1 ≤ u 0x0C 4 && u 0x0C 4 ≤ 4096), (0x10, u 0x10 8 % 65536 = 0),
    (0x18, 1 ≤ u 0x18 8 && u 0x18 8 ≤ 2 ^ 32 && u 0x18 8 % 65536 = 0)]

/-! ### The area table (R16, R18) -/

/-- An area: its place and size in the file, and its offset in the image. -/
structure Area where
  fo : Nat
  fs : Nat
  vo : Nat
  deriving DecidableEq, Repr

/-- An object's bytes with its area table. -/
structure Obj where
  b : List Byte
  areas : List Area
  deriving DecidableEq, Repr

def Obj.area (o : Obj) (i : Nat) : Area := o.areas.getD i ⟨0, 0, 0⟩
def Obj.kcount (o : Obj) : Nat := recField o.b 0x0C 4
def Obj.extent (o : Obj) : Nat := recField o.b 0x18 8
def Obj.get (o : Obj) (i off n : Nat) : Nat := recField o.b ((o.area i).fo + off) n
def Obj.part (o : Obj) (i off n : Nat) : List Byte := (o.b.drop ((o.area i).fo + off)).take n

def objOf (b : List Byte) : Obj :=
  { b, areas := (List.range 8).map fun i => ⟨recField b (0x40 + 16 * i) 4, recField b (0x44 + 16 * i) 4, recField b (0x48 + 16 * i) 8⟩ }

/-- Two ranges that share no byte. -/
def apart (a n c m : Nat) : Bool := a + n ≤ c || c + m ≤ a

/-- The checks of area `i`'s entry. -/
def Obj.areaChecks (o : Obj) (i : Nat) : List (Nat × Bool) :=
  let a := o.area i
  let before := (o.areas.take i).filter fun c => c.fs ≠ 0
  let mapped := (o.areas.take (min i 4)).filter fun c => c.fs ≠ 0
  let unit := match i with | 1 => 4 | 3 => 8 | 4 | 6 => 24 | _ => 1
  if a.fs = 0 then [(0, a.fo = 0), (4, i = 2 || i = 3 || 6 ≤ i), (8, a.vo = allOnes64)]
  else
    [(0, a.fo % 8 = 0 && 0xC0 ≤ a.fo && a.fo + a.fs ≤ o.b.length && before.all fun c => apart a.fo a.fs c.fo c.fs),
      (4, a.fs % unit = 0 && (i ≠ 0 || 128 * o.kcount ≤ a.fs)),
      (8, if i < 4 then a.vo % 65536 = 0 && a.vo + a.fs ≤ o.extent && mapped.all fun c => apart a.vo a.fs c.vo c.fs
          else a.vo = allOnes64)]

/-! ### Descriptors, shapes and splice descriptors (R19, R20, R25, R26) -/

/-- Kernel `i`'s descriptor: Table 2-3 against the object. -/
def Obj.descChecksAt (o : Obj) (i : Nat) : List (Nat × Bool) :=
  let d := o.part 0 (128 * i) 128
  let u (off n : Nat) : Nat := recField d off n
  let fs := (o.area 0).fs
  let text := (o.area 1).fs
  let inArea (off n : Nat) : Bool := 128 * o.kcount ≤ off && off + n ≤ fs
  let own : List (Nat × Bool) :=
    [(0x04, u 4 4 < (o.area 5).fs), (0x30, u 0x11 1 % 2 = 0 || inArea (u 0x30 4) 80),
      (0x34, u 0x11 1 / 2 % 2 = 0 || inArea (u 0x34 4) 0),
      (0x38, u 0x11 1 / 2 % 2 = 0 || inArea (u 0x34 4) (64 * u 0x38 2)),
      (0x3C, BitVec.ofNat 64 (u 0x3C 8) = BitVec.ofInt 64 ((o.area 1).vo - (o.area 0).vo - 128 * i)), (0x44, u 0x44 4 = text)]
  sortBy (fun a b => a.1 < b.1) (descChecks d text ++ own)

/-- Its splice descriptor (Table 2-4). -/
def Obj.spliceChecks (o : Obj) (i sp : Nat) : List (Nat × Bool) :=
  let u (off n : Nat) : Nat := o.get 0 (sp + off) n
  let text := (o.area 1).fs
  let head := u 0 4
  let tail := u 4 4
  let site (base count fn j : Nat) : List (Nat × Bool) :=
    let p := base + 8 * j
    let off := u p 4
    let w := o.get 1 off 4
    if count ≤ j then [(p, u p 8 = 0)]
    else [(p, head ≤ off && off < tail && off % 4 = 0 && w / 2 % 2 = 1 && w / 4 % 32 = 21 && w / 128 % 512 = fn),
      (p + 4, u (p + 4) 1 ≤ 3), (p + 5, u (p + 5) 3 = 0)]
  let fixed : List (Nat × Bool) :=
    [(0, head % 4 = 0 && head < text), (4, tail % 4 = 0 && head < tail && tail < text),
      (8, u 8 2 ≤ o.get 0 (128 * i + 8) 2), (0x0A, u 0x0A 2 ≤ o.get 0 (128 * i + 0x0A) 2), (0x0C, u 0x0C 1 ≤ 4),
      (0x0D, u 0x0D 1 ≤ 4), (0x0E, u 0x0E 2 = 0)]
  fixed ++ ((List.range 4).flatMap fun j => site 0x10 (u 0x0C 1) 5 j) ++ (List.range 4).flatMap fun j => site 0x30 (u 0x0D 1) 4 j

/-- Kernel `i`, with its shape table and its splice descriptor. -/
def Obj.kernelPass (o : Obj) (i : Nat) : Except (List Nat) Unit :=
  let fo := (o.area 0).fo
  match pass 4 0 i (fo + 128 * i) (o.descChecksAt i) with
  | .error r => .error r
  | .ok _ =>
    let shp := o.get 0 (128 * i + 0x34) 4
    let shapes := (List.range (o.get 0 (128 * i + 0x38) 2)).map fun e => 64 * e
    match pass 5 0 i (fo + shp) (shapes.flatMap fun e => (shapeChecks (o.part 0 (shp + e) 64)).map fun c => (e + c.1, c.2)) with
    | .error r => .error r
    | .ok _ =>
      let sp := o.get 0 (128 * i + 0x30) 4
      if bit (o.get 0 (128 * i + 0x11) 1) 0 then pass 6 0 i (fo + sp) (o.spliceChecks i sp) else .ok ()

/-! ### Symbols (R27-R29) -/

/-- A symbol (R28). -/
structure Symbol where
  name : Nat
  kind : Nat
  bind : Nat
  area : Nat
  zero : Nat
  value : Nat
  size : Nat
  deriving DecidableEq, Repr

def Obj.symbols (o : Obj) : List Symbol :=
  (List.range ((o.area 4).fs / 24)).map fun i =>
    let u (off n : Nat) : Nat := o.get 4 (24 * i + off) n
    ⟨u 0 4, u 4 1, u 5 1, u 6 1, u 7 1, u 8 8, u 16 8⟩

/-- A name of the string area; none where no NUL ends it. -/
def Obj.string (o : Obj) (at0 : Nat) : Option (List Byte) :=
  let tail := o.part 5 at0 ((o.area 5).fs - at0)
  if at0 < (o.area 5).fs && tail.contains 0 then some (tail.takeWhile fun b => b ≠ 0) else none

/-- R28. DEDUCED, log 102: a symbol 0 that is not zero and a reserved byte that is not 0 take LOAD_SYMBOL. -/
def Obj.symbolChecks (o : Obj) (earlier : List Symbol) (i : Nat) (x : Symbol) : List (Nat × Bool) :=
  if i = 0 then
    [(0, x.name = 0), (4, x.kind = 0), (5, x.bind = 0), (6, x.area = 0), (7, x.zero = 0), (8, x.value = 0), (16, x.size = 0)]
  else
    [(0, (o.string x.name).isSome &&
        !(x.bind = 1 && earlier.any fun y => y.bind = 1 && o.string y.name = o.string x.name)),
      (4, x.kind ≤ 4), (5, x.bind ≤ 1), (6, x.area ≤ 3), (7, x.zero = 0),
      (8, x.value + x.size ≤ (o.area x.area).fs && (x.kind ≠ 2 || x.value % 64 = 0))]

def Obj.symbolsPass (o : Obj) : Except (List Nat) Unit :=
  passEach (fun i x => pass 7 4 i ((o.area 4).fo + 24 * i) (o.symbolChecks ((o.symbols.take i).drop 1) i x)) 0 o.symbols

/-! ### Notes (R30, R41, R42) -/

/-- The notes of an area from an offset on: the types seen so far, and STEPPING's payload. DEDUCED, log 102: an ERRATUM note
whose LENGTH R30 forbids takes LOAD_NOTE, and an informational type may be repeated. -/
def Obj.notesFrom (o : Obj) : Nat → Nat → Nat → List Nat → Option Nat → Except (List Nat) (Option Nat)
  | 0, _, _, _, st => .ok st
  | n + 1, i, off, seen, st =>
    let fs := (o.area 7).fs
    let fo := (o.area 7).fo
    if off = fs then .ok st
    else
      let type := o.get 7 off 4
      let len := o.get 7 (off + 4) 4
      let next := off + 8 + (len + 7) / 8 * 8
      let bad (code field : Nat) : Except (List Nat) (Option Nat) := .error (loadReport code 7 i (fo + off + field))
      if fs < off + 4 then bad 1 0
      else if fs < off + 8 || fs < next then bad 1 4
      else if let some j := (codes (8 + len) (next - (off + 8 + len))).find? fun j => o.get 7 (off + j) 1 ≠ 0 then bad 1 j
      else if 2 ^ 31 ≤ type then o.notesFrom n (i + 1) next seen st
      else if type = 0 || 3 < type || seen.contains type then bad 16 0
      else if type = 1 && len ≠ 4 then bad 16 4
      else if type = 1 && o.get 7 (off + 10) 2 ≠ 0x7208 then bad 16 10
      else if type = 2 && (len = 0 || len % 4 ≠ 0) then bad 16 4
      else
        match (if type = 2 then (List.range (len / 4)).find? fun j => !Config.erratumShown (o.get 7 (off + 8 + 4 * j) 4)
               else none) with
        | some j => .error (loadReport 17 7 j (fo + off + 8 + 4 * j))
        | none => o.notesFrom n (i + 1) next (type :: seen) (if type = 1 then some (o.get 7 (off + 8) 4) else st)

def Obj.notes (o : Obj) : Except (List Nat) (Option Nat) := o.notesFrom ((o.area 7).fs / 8 + 1) 0 0 [] none

/-! ### Relocations (R31-R35) -/

structure Reloc where
  off : Nat
  type : Nat
  sym : Nat
  add : Int
  deriving DecidableEq, Repr

def Obj.relocs (o : Obj) : List Reloc :=
  (List.range ((o.area 6).fs / 24)).map fun i =>
    let u (off n : Nat) : Nat := o.get 6 (24 * i + off) n
    ⟨u 0 8, u 8 4, u 12 4, (BitVec.ofNat 64 (u 16 8)).toInt⟩

/-- The mapped area that holds an image offset. -/
def Obj.areaOf (o : Obj) (off : Nat) : Option Nat :=
  (List.range 4).find? fun i => (o.area i).fs ≠ 0 && (o.area i).vo ≤ off && off < (o.area i).vo + (o.area i).fs

def signed64 (v : Int) : Int := (BitVec.ofInt 64 v).toInt

/-- R33. -/
def hiOf (v : Int) : Int := (v + 2048) / 4096
def loOf (v : Int) : Int := v - 4096 * hiOf v
def hiOk (v : Int) : Bool := -(2 ^ 19) ≤ hiOf v && hiOf v ≤ 2 ^ 19 - 1

/-- The slots of a symbol's GOT entry (R31). -/
def Obj.gotSlots (o : Obj) (sym : Nat) : List Nat :=
  (o.relocs.filter fun r => r.type = 1 && r.sym = sym && r.add = 0 && o.areaOf r.off = some 3).map fun r => r.off

/-- R34: the high record that heads the run in which low record `i` stands. -/
def partner (rs : List Reloc) : Nat → Option Reloc
  | 0 => none
  | i + 1 =>
    match rs[i]? with
    | some r => if r.type = 5 || r.type = 7 then partner rs i else some r
    | none => none

/-- S of Table 2-6. -/
def Obj.symAddr (o : Obj) (base sym : Nat) : Int :=
  match o.symbols[sym]? with
  | some x => if sym = 0 then 0 else base + (o.area x.area).vo + x.value
  | none => 0

/-- V of record `i`, or the code it is rejected with. -/
def Obj.relocValue (o : Obj) (base i : Nat) (r : Reloc) : Except Nat Int :=
  let s := o.symAddr base r.sym
  let p : Int := base + r.off
  match r.type with
  | 4 | 8 | 9 => .ok (signed64 (s + r.add - p))
  | 6 =>
    match o.gotSlots r.sym with
    | [g] => .ok (signed64 (base + g + r.add - p))
    | _ => .error 10
  | 5 | 7 =>
    match partner o.relocs i with
    | some h =>
      if h.type + 1 ≠ r.type || h.sym ≠ r.sym || h.add ≠ r.add then .error 15
      else if h.type = 4 then .ok (signed64 (s + r.add - (base + h.off)))
      else match o.gotSlots r.sym with
        | [g] => .ok (signed64 (base + g + r.add - (base + h.off)))
        | _ => .error 10
    | none => .error 15
  | _ => .ok (signed64 (s + r.add))

/-- The word at a site is one that Table 2-6 admits. -/
def siteOk (type w : Nat) : Bool :=
  let maj := w / 4 % 32
  w % 4 = 0 && (match type with
    | 2 => maj = 1
    | 4 | 6 => maj = 2
    | 8 => maj = 8 || maj = 9
    | 9 => maj = 10
    | _ => (maj = 3 && w / 128 % 8 = 0) || maj = 13)

/-- The bits a record patches: the lowest, how many, and their value; or the code. -/
def Obj.relocBits (o : Obj) (base i : Nat) (r : Reloc) : Except Nat (Nat × Nat × Nat) :=
  match o.relocValue base i r with
  | .error c => .error c
  | .ok v =>
    let put (lo n : Nat) (x : Int) : Except Nat (Nat × Nat × Nat) := .ok (lo, n, (BitVec.ofInt n x).toNat)
    let branch (lo n : Nat) : Except Nat (Nat × Nat × Nat) :=
      if v % 4 ≠ 0 then .error 13
      else if v / 4 < -(2 ^ (n - 1)) || 2 ^ (n - 1) ≤ v / 4 then .error 14
      else put lo n (v / 4)
    match r.type with
    | 1 => put 0 64 v
    | 8 => branch 7 25
    | 9 => branch 14 18
    | 2 | 4 | 6 => if hiOk v then put 12 20 (hiOf v) else .error 14
    | _ => if hiOk v then put 20 12 (loOf v) else .error 14

/-- What a relocated image holds: the areas' bytes, and the bit ranges patched, by image bit. -/
structure Image where
  parts : Table (List Byte)
  done : List (Nat × Nat)
  deriving DecidableEq, Repr

/-- Replace `n` bits at bit `lo` of the bytes at an offset. -/
def patchBits (l : List Byte) (off lo n v : Nat) : List Byte :=
  let size := if n = 64 then 8 else 4
  let old := recField l off size
  let new := old % 2 ^ lo + v % 2 ^ n * 2 ^ lo + old / 2 ^ (lo + n) * 2 ^ (lo + n)
  putAt l off ((List.range size).map fun i => BitVec.ofNat 8 (new / 256 ^ i))

/-- Apply record `i`. A site's whole bytes must lie in its area. DEDUCED, log 102: an ABS64 site outside areas 2 and 3 takes
LOAD_SITE (R32 gives it no code). -/
def Obj.applyReloc (o : Obj) (base i : Nat) (r : Reloc) (m : Image) : Except (List Nat) Image :=
  let pos := (o.area 6).fo + 24 * i
  let rej (code field : Nat) : Except (List Nat) Image := .error (loadReport code 6 i (pos + field))
  match o.areaOf r.off with
  | none => rej 12 0
  | some a =>
    if 9 < r.type then rej 11 8
    else match o.symbols[r.sym]? with
      | none => rej 7 12
      | some x =>
        let off := r.off - (o.area a).vo
        let w := recField (tget [] m.parts a) off 4
        if x.kind = 4 then rej 9 12
        else if r.type = 0 then .ok m
        else if r.type = 1 && a ≠ 2 && a ≠ 3 then rej 12 0
        else if r.off % (if r.type = 1 then 8 else 4) ≠ 0 then rej 13 0
        else if (o.area a).fs < off + (if r.type = 1 then 8 else 4) then rej 12 0
        else if r.type ≠ 1 && !siteOk r.type w then rej 12 0
        else match o.relocBits base i r with
          | .error c => rej c 0
          | .ok (lo, n, v) =>
            let at0 := 8 * r.off + lo
            if m.done.any fun d => !apart at0 n d.1 d.2 then rej 12 0
            else .ok { parts := tset [] m.parts a (patchBits (tget [] m.parts a) off lo n v), done := (at0, n) :: m.done }

def Obj.applyRelocs (o : Obj) (base : Nat) : Nat → List Reloc → Image → Except (List Nat) Image
  | _, [], m => .ok m
  | i, r :: rs, m =>
    match o.applyReloc base i r m with
    | .error e => .error e
    | .ok m1 => o.applyRelocs base (i + 1) rs m1

/-! ### Placing (R37, R38) -/

/-- The next table frame of a die that the system software provides, and the rest. -/
def takeFrame (die : Nat) : List Nat → Option (Nat × List Nat)
  | [] => none
  | f :: fs => if paDie f = die then some (f, fs) else (takeFrame die fs).map fun x => (x.1, f :: x.2)

/-- Write a 64-KiB leaf for a virtual address into a die's tables, with fresh tables where none stand; none where a page stands
already or no frame is left. -/
def State.mapLeaf (s : State) (die va pte : Nat) : List (Nat × Nat × Nat) → Nat → List Nat → Option (State × List Nat)
  | [], _, _ => none
  | (sh, w, _) :: rest, table, frames =>
    let at0 := table + 8 * (va / 2 ^ sh % 2 ^ w)
    let e := leNat (s.readBytes none at0 8)
    if rest.isEmpty then (if bit e 0 then none else some (s.performBytes none at0 (leBytes 8 pte), frames))
    else if bit e 0 then (if bit e 1 then none else s.mapLeaf die va pte rest (e / 2 ^ 7 % 2 ^ 45 * 2 ^ 7) frames)
    else match takeFrame die frames with
      | none => none
      | some (f, fs) =>
        ((s.performBytes none f (List.replicate 4096 0)).performBytes none at0 (leBytes 8 (f + 1))).mapLeaf die va pte rest f fs

/-- Map the pages of an object to a die's copy: text executable, every other page readable. -/
def State.mapObject (s : State) (o : Obj) (owner base die pa : Nat) : Nat → List Nat → Option (State × List Nat)
  | 0, frames => some (s, frames)
  | n + 1, frames =>
    match s.mapObject o owner base die pa n frames with
    | none => none
    | some (s1, fs) =>
      let t := o.area 1
      let text := t.vo ≤ 65536 * n && 65536 * n < t.vo + t.fs
      s1.mapLeaf die (base + 65536 * n) (pa + 65536 * n + 3 + (if text then 16 else 4)) walkLevels
        (if die = 0 then (s.owner owner).root0 else (s.owner owner).root1) fs

/-- A die's scratchpad can hold a copy. -/
def State.copyFits (s : State) (o : Obj) (die pa : Nat) : Bool :=
  pa % 65536 = 0 && !s.paMalformed pa && paClass pa = 0 && paModule pa = s.domid && paDie pa = die && pa % 2 ^ 37 + o.extent ≤ 2 ^ 37

/-- The base may be used: aligned, in the address space, clear of the splice cache (R452); that its pages are free shows as the
tables are written. -/
def baseOk (o : Obj) (base : Nat) : Bool :=
  base % 65536 = 0 && base + o.extent ≤ 2 ^ 56 && (base + o.extent ≤ spliceBase 0 || spliceBase 2 ≤ base)

/-- Both dies' page tables, with the object mapped; none is LOAD_SPACE. DEDUCED, log 102: R37 names that code for a scratchpad
that cannot hold the copies, and the model gives it as well to a base that is misaligned, not free or in the splice cache, and
to tables that lack a frame. -/
def State.mapBoth (s : State) (o : Obj) (owner base pa0 pa1 : Nat) (frames : List Nat) : Option State :=
  if !(baseOk o base && s.copyFits o 0 pa0 && s.copyFits o 1 pa1) then none
  else
    match s.mapObject o owner base 0 pa0 (o.extent / 65536) frames with
    | none => none
    | some (s1, fs) => (s1.mapObject o owner base 1 pa1 (o.extent / 65536) fs).map fun x => x.1

/-- The areas' bytes as they are copied. -/
def Obj.parts (o : Obj) : Image :=
  { parts := (List.range 4).filterMap (fun i => if (o.area i).fs = 0 then none else some (i, o.part i 0 (o.area i).fs)), done := [] }

/-- Write an image to a die's copy under the owner's key. -/
def State.writeCopy (s : State) (o : Obj) (owner pa : Nat) (m : Image) : State :=
  m.parts.foldl (fun s p => s.performBytes (some (s.keyOf owner)) (pa + (o.area p.1).vo) p.2) s

/-- Load an object, or the report of its rejection. DEDUCED, log 102.  A report that has no faulty field (LOAD_OK, LOAD_SPACE) has
WHERE 0, for which R36 gives no value. DESIGN CHOICE, log 142. -/
def State.load (s : State) (owner base pa0 pa1 : Nat) (frames : List Nat) (b : List Byte) : Except (List Nat) State := do
  let o := objOf b
  let none16 := 0xFFFF
  let none32 := 0xFFFFFFFF
  pass 1 none16 none32 0 (headerChecks b)
  pass 2 none16 none32 0 [(0x08, recField b 8 4 = 0x4B010000 + s.family)]
  pass 3 none16 none32 0 [(0x20, crc32 (putAt b 0x20 [0, 0, 0, 0]) = recField b 0x20 4)]
  pass 1 none16 none32 0 (layoutChecks b)
  passEach (fun i _ => pass 1 i none32 (0x40 + 16 * i) (o.areaChecks i)) 0 o.areas
  passEach (fun i _ => o.kernelPass i) 0 (List.range o.kcount)
  o.symbolsPass
  let st ← o.notes
  match s.mapBoth o owner base pa0 pa1 frames with
  | none => .error (loadReport 8 none16 none32 0)
  | some s1 =>
    let m ← o.applyRelocs base 0 o.relocs o.parts
    let s2 := (s1.writeCopy o owner pa0 m).writeCopy o owner pa1 m
    let native := st = some (s.family * 65536 + s.stepLetter * 256 + s.stepDigit)
    .ok { s2 with
      objects := { owner, base, extent := o.extent, voff0 := (o.area 0).vo, native } :: s2.objects,
      loadReports := s2.loadReports ++ [loadReport 0 none16 none32 0] }

def execLoadObject (owner base pa0 pa1 : Nat) (frames : List Nat) (bytes : List Byte) (s : State) :
    Host.Outcome State Fault Refusal :=
  match s.load owner base pa0 pa1 frames bytes with
  | .ok s1 => .next s1
  | .error r => .next { s with loadReports := s.loadReports ++ [r] }

end Sys2Proof.Machine
end

