-- ==== Sys2Proof/Machine/Translation.lean ====
section
/-!
DEFINITION. Machine/Translation.lean: page walks (R288-R290), shootdowns with what they wait for (R145, R149, R291), the
retirement of an owner's keys (R447), and reads from a peer module (R287, R293).
-/

namespace Sys2Proof.Machine

open Sys2Proof

/-- R290: a walker of a field of the die caches the leaf of a virtual address, unless the field's TLB holds one. -/
def execPageWalk (owner die field va : Nat) (s : State) : Host.Outcome State Fault Refusal :=
  if field < 8 && dieOfField field = die then .next (s.translate owner field va).2 else .next s

/-! ### Shootdowns (R291) -/

/-- The pages that a shootdown's registers name, from the first up to the last; COUNT 0 is every page. -/
def Die.tlbiPages (d : Die) : Nat × Nat :=
  if d.tlbiCount = 0 then (0, 2 ^ 40) else (d.tlbiVa / 65536, d.tlbiVa / 65536 + d.tlbiCount)

/-- The part of a frame use between two of its pages; none where it is empty. DEDUCED, log 44. -/
def FrameUse.part (u : FrameUse) (lo hi : Nat) (dying : Bool) : List FrameUse :=
  let l := max lo u.vpage
  let h := min hi (u.vpage + u.npages)
  if l < h then [{ u with vpage := l, npages := h - l, frame := u.frame + (l - u.vpage), dying := u.dying || dying }] else []

/-- R145, frame by frame: the pages that a shootdown covers are set apart from those it does not. -/
def FrameUse.shoot (die owner lo hi : Nat) (u : FrameUse) : List FrameUse :=
  if u.die = die && u.owner = owner then u.part 0 lo false ++ u.part lo hi true ++ u.part hi (2 ^ 64) false else [u]

def TlbEntry.hit (e : TlbEntry) (die owner lo hi : Nat) : Bool :=
  e.owner = owner && dieOfField e.field = die && e.page < hi && lo < e.page + e.npages

/-- Remove an owner's entries in a range of pages from every TLB of a die. -/
def State.shoot (s : State) (die owner lo hi : Nat) : State :=
  { s with tlb := s.tlb.filter (fun e => !e.hit die owner lo hi), frames := s.frames.flatMap (FrameUse.shoot die owner lo hi) }

/-- A write of GO: ignored while a shootdown of the die runs. -/
def execShootdown (die : Nat) (s : State) : Host.Outcome State Fault Refusal :=
  let d := s.die die
  if !d.tlbiDone || 2 ≤ die then .next s
  else
    let (lo, hi) := d.tlbiPages
    .next ((s.shoot die d.tlbiOwner lo hi).setDie die
      { d with tlbiDone := false, tlbiWho := d.tlbiOwner, tlbiLo := lo, tlbiHi := hi, tlbiFrom := s.nextId, tlbiGtc := s.gtc })

/-- A request that accesses memory through a translation. -/
def Request.translated : Request → Bool
  | .atom .. | .waitc .. | .qlock .. | .qunlk .. | .caswap .. => true
  | _ => false

/-- An owner's translated accesses of a die from before a moment that have neither performed nor been squashed: `id` and `gtc`
are those of the moment.  A request that waits for room in the overflow area has reached its slice. DEDUCED, log 45. -/
def State.accessesBefore (s : State) (die owner id gtc : Nat) : Bool :=
  let mine (r : GroupRef) : Bool :=
    match s.group? r, s.block? (blockOf r) with
    | some g, some b => b.owner = owner && dieOfCore g.core = die
    | _, _ => false
  (s.entries.any fun q => q.id < id && !q.bench && q.phase < 2 && mine q.g) ||
    (s.fills.any fun f => f.id < id && !f.arrived && !f.async && !f.closing && mine f.g) ||
    (s.pendings.any fun p => p.id < id && p.req.translated && !p.waited && mine p.g) ||
    (s.groups.any fun g => mine g.ref && g.held.any fun h => h.id < id && h.req.translated) ||
    (s.copies.any fun c => c.2.live && c.2.owner = owner && dieOfCore (4 * (c.1 / 64)) = die &&
      c.2.pieces.any fun p => p.firstRead < gtc) ||
    (s.queues.any fun q => q.1 / 64 = die && q.2.packetOwner = owner &&
      q.2.inflight.any fun p => !p.done && !p.pas.isEmpty && p.watch.isNone && p.parseEnd < gtc + parseLatency)

/-- R149: a frame that a completing shootdown of the pages from `lo` up to `hi` has changed the use of: one that a walk has
recorded, or one that a page of the range now maps; a shootdown of every page takes in every frame. DEDUCED, log 46. -/
def State.shotFrame (s : State) (die owner lo hi frame : Nat) : Bool :=
  (s.frames.any fun u => u.dying && u.die = die && u.owner = owner && u.frame ≤ frame && frame < u.frame + u.npages) ||
    2 ^ 40 ≤ hi - lo ||
    (codes lo (hi - lo)).any fun page =>
      match pageWalk s owner die (65536 * page) with
      | .leaf pa np _ _ _ _ => pa / 65536 ≤ frame && frame < pa / 65536 + np
      | .page _ => false

/-- R149: the fetch blocks of the frames that a shootdown has covered. DEDUCED, log 46. -/
def State.shootFetch (s : State) (die owner lo hi : Nat) : State :=
  { s with
    icache := s.icache.filter fun b => !(dieOfField b.field = die && s.shotFrame die owner lo hi (b.pa / 65536)),
    fetchFails := s.fetchFails.filter fun f => !(dieOfCore f.core = die && f.owner = owner),
    frames := s.frames.filter fun u => !(u.dying && u.die = die && u.owner = owner) }

/-- The accesses that a running shootdown waits for are done. -/
def State.shootdownDue (s : State) (die : Nat) : Bool :=
  let d := s.die die
  !d.tlbiDone && die < 2 && !s.accessesBefore die d.tlbiWho d.tlbiFrom d.tlbiGtc

def execShootdownDone (die : Nat) (s : State) : Host.Outcome State Fault Refusal :=
  let d := s.die die
  if s.shootdownDue die then .next ((s.shootFetch die d.tlbiWho d.tlbiLo d.tlbiHi).setDie die { d with tlbiDone := true }) else .next s

/-! ### Owners and peers (R293, R447) -/

/-- OWN.EN = 0 has been written and the accesses from before it are done on both dies. -/
def State.ownerRetireDue (s : State) (owner : Nat) : Bool :=
  match (s.owner owner).retiring with
  | some (id, gtc) => !s.accessesBefore 0 owner id gtc && !s.accessesBefore 1 owner id gtc
  | none => false

def execOwnerRetire (owner : Nat) (s : State) : Host.Outcome State Fault Refusal :=
  if !s.ownerRetireDue owner then .next s
  else
    let s1 := ((((s.shoot 0 owner 0 (2 ^ 40)).shoot 1 owner 0 (2 ^ 40)).shootFetch 0 owner 0 (2 ^ 40)).shootFetch 1 owner 0 (2 ^ 40))
    .next (s1.setOwner owner { (s1.owner owner) with en := false, keyOk := false, retiring := none })

/-- A peer's read of this module's scratchpad under the key that this module has for the owner; a poisoned sector has no bytes
to send (R421). -/
def execPeerRead (owner pa len : Nat) (s : State) : Host.Outcome State Fault Refusal :=
  if paMalformed pa || paModule pa ≠ s.domid || paClass pa ≠ 0 then .next s
  else
    .next { s with peerReply := s.peerReply ++ [(List.range len).map fun i =>
      if s.poisonAt (pa + i) 1 then none else some (s.readByte (some (s.keyOf owner)) (pa + i))] }

end Sys2Proof.Machine
end

