-- ==== Sys2Proof/Machine/Registers.lean ====
section
/-!
DEFINITION. Machine/Registers.lean: host window W0 (R76, Table 5-8) by 32-bit words: what each reads, and what a write does
(R9), with the keys of an owner (R292).  An 8-byte access is its two words, the lower first.
-/

namespace Sys2Proof.Machine

open Sys2Proof

/-- Bits hi:lo of a value, in place. -/
def keepBits (hi lo v : Nat) : Nat := v / 2 ^ lo % 2 ^ (hi + 1 - lo) * 2 ^ lo

/-- Word `i` of a value, and the value with that word replaced. -/
def wordAt (v i : Nat) : Nat := v / 2 ^ (32 * i) % 2 ^ 32
def putWord (v i w : Nat) : Nat := v % 2 ^ (32 * i) + w % 2 ^ 32 * 2 ^ (32 * i) + v / 2 ^ (32 * i + 32) * 2 ^ (32 * i + 32)

/-- The state an event leaves. -/
def State.after (s : State) (f : State → Host.Outcome State Fault Refusal) : State :=
  match f s with
  | .next t => t
  | _ => s

/-! ### Queues (Table 5-1) -/

/-- R92: the queue stands at a WAIT. -/
def Queue.waiting (q : Queue) : Bool := q.inflight.any fun p => p.type = 7 && p.watch.isSome && !p.done

def Queue.readWord (q : Queue) (o : Nat) : Nat :=
  match o with
  | 0x00 => wordAt q.base 0
  | 0x04 => wordAt q.base 1
  | 0x08 => q.log
  | 0x0C => flag q.en 0 + q.prio * 2 + flag q.priv 4 + flag q.fie 5 + q.owner * 2 ^ 6 + q.vec * 2 ^ 16
  | 0x10 => q.wptr
  | 0x14 => q.rptr
  | 0x18 => q.code + q.level * 2 ^ 8 + flag q.badPtr 10 + flag (q.rptr = q.wptr && q.levels.isEmpty && !q.stalled) 11 +
      flag q.waiting 12
  | 0x1C => wordAt q.foff 0
  | 0x20 => wordAt q.foff 1
  | _ => 0

def State.writeQueueWord (s : State) (fn n o v : Nat) : State :=
  let q := s.queue n
  match o with
  | 0x00 | 0x04 => if q.en then s else s.setQueue n { q with base := keepBits 55 6 (putWord q.base (o / 4) v) }
  | 0x08 => if q.en || v % 32 < 12 || 24 < v % 32 then s else s.setQueue n { q with log := v % 32 }
  | 0x0C => s.after (if bit v 0 then execQueueEnable fn n v else execQueueHalt fn n v)
  | 0x10 => s.after (execQwptrWrite fn n v)
  | 0x18 => if bit v 10 then s.setQueue n { q with badPtr := false } else s
  | _ => s

/-! ### Fields (Table 7-3) -/

def State.readFieldWord (s : State) (f o : Nat) : Nat :=
  let x := s.field f
  match o with
  | 0x00 => x.lim
  | 0x04 => x.cur % 2 ^ 13
  | 0x08 => x.sum % 2 ^ 16
  | 0x0C => x.baseI
  | 0x10 => flag x.on 0 + flag x.ramping.isSome 1 + flag x.halved 2 + flag x.tripped 3 + flag x.modTrip 4 + flag x.offline 5 +
      flag s.updating 6
  | _ => 0

/-- R137's clamp is of the field's 13 bits (R9). -/
def State.writeFieldWord (s : State) (f o v : Nat) : State :=
  match o with
  | 0x00 => s.modField f fun x => { x with lim := max 400 (min 1600 (v % 2 ^ 13)) }.judge s.gtc
  | 0x0C => s.modField f fun x => { x with baseI := v % 2 ^ 13 }
  | _ => s

/-! ### Per die: TLBI (R291), SOVF (Table 19-1), the event ring (R408), PCTL, STEP and SAVE (Table 21-3) -/

def Die.readTlbi (d : Die) (o : Nat) : Nat :=
  match o with
  | 0x00 => wordAt d.tlbiVa 0
  | 0x04 => wordAt d.tlbiVa 1
  | 0x08 => d.tlbiCount
  | 0x0C => d.tlbiOwner
  | 0x10 => flag d.tlbiDone 0
  | _ => 0

def State.writeTlbi (s : State) (die o v : Nat) : State :=
  let d := s.die die
  match o with
  | 0x00 | 0x04 => s.setDie die { d with tlbiVa := keepBits 55 16 (putWord d.tlbiVa (o / 4) v) }
  | 0x08 => s.setDie die { d with tlbiCount := v % 2 ^ 32 }
  | 0x0C =>
    let s1 := s.setDie die { d with tlbiOwner := v % 1024 }
    if bit v 31 then s1.after (execShootdown die) else s1
  | _ => s

def State.readSovf (s : State) (die o : Nat) : Nat :=
  let d := s.die die
  match o with
  | 0x00 => wordAt d.ovfBase 0
  | 0x04 => wordAt d.ovfBase 1
  | 0x08 => d.ovfSize
  | 0x10 => s.ovfUsed die % 2 ^ 32
  | 0x14 => d.ovfWaits
  | 0x18 => d.ovfAbandon
  | _ => 0

def State.writeSovf (s : State) (die o v : Nat) : State :=
  let d := s.die die
  if s.ovfUsed die ≠ 0 then s
  else match o with
    | 0x00 | 0x04 => s.setDie die { d with ovfBase := keepBits 51 16 (putWord d.ovfBase (o / 4) v) }
    | 0x08 => s.setDie die { d with ovfSize := v % 2 ^ 16 }
    | _ => s

def Die.readRing (d : Die) (o : Nat) : Nat :=
  match o with
  | 0x00 => wordAt d.evBase 0
  | 0x04 => wordAt d.evBase 1
  | 0x08 => d.evLog
  | 0x0C => flag d.evEn 0 + flag d.evIe 1 + d.evVec * 4
  | 0x10 => d.evHead
  | 0x14 => d.evTail
  | 0x18 => d.evLost
  | _ => 0

/-- A write of a word of the ring's registers; where EVSIZE.LOG falls, EVHEAD stays an index of the ring.
DEDUCED, log 153. -/
def Die.writeRing (d : Die) (o v : Nat) : Die :=
  match o with
  | 0x00 | 0x04 => if d.evEn then d else { d with evBase := keepBits 51 5 (putWord d.evBase (o / 4) v) }
  | 0x08 => if d.evEn || v % 32 < 10 || 20 < v % 32 then d else { d with evLog := v % 32, evHead := d.evHead % 2 ^ (v % 32) }
  | 0x0C => { d with evEn := bit v 0, evIe := bit v 1, evVec := v / 4 % 2048 }
  | 0x14 => { d with evTail := v % 2 ^ 20 }
  | _ => d

def Die.saveUsed (d : Die) : Nat := (d.saveUnits.map fun u => u.2).sum

def Die.readPctl (d : Die) (o : Nat) : Nat :=
  match o with
  | 0x00 => d.pctlTask
  | 0x04 => d.pctlOp
  | 0x08 => flag d.pctlDone 0 + d.pctlResult * 2
  | 0x10 => d.stepTask
  | 0x14 => flag d.stepEn 0
  | 0x18 => wordAt d.saveBase 0
  | 0x1C => wordAt d.saveBase 1
  | 0x20 => d.saveSize
  | 0x28 => d.saveUsed % 2 ^ 24
  | _ => 0

/-- PCTL.GO: OP 0 asks for nothing and is done at once. DEDUCED, log 99. -/
def Die.go (d : Die) : Die :=
  if !d.pctlDone || d.pctlOp = 3 then d
  else if d.pctlOp = 0 then { d with pctlResult := 0 }
  else { d with pctlDone := false, runTask := d.pctlTask, runOp := d.pctlOp, pctlBegun := false }

def Die.writePctl (d : Die) (o v : Nat) : Die :=
  match o with
  | 0x00 => { d with pctlTask := v % 2 ^ 32 }
  | 0x04 => if bit v 2 then { d with pctlOp := v % 4 }.go else { d with pctlOp := v % 4 }
  | 0x10 => { d with stepTask := v % 2 ^ 32 }
  | 0x14 => { d with stepEn := bit v 0 }
  | 0x18 | 0x1C => if d.saveUsed ≠ 0 then d else { d with saveBase := keepBits 51 16 (putWord d.saveBase ((o - 0x18) / 4) v) }
  | 0x20 => if d.saveUsed ≠ 0 then d else { d with saveSize := v % 2 ^ 24 }
  | _ => d

/-! ### Owners (Table 14-4) and content-addressed pools (Table 17-1) -/

def Owner.readWord (x : Owner) (o : Nat) : Nat :=
  match o with
  | 0x00 => flag x.en 0 + flag x.keyOk 1
  | 0x08 => wordAt x.root0 0
  | 0x0C => wordAt x.root0 1
  | 0x10 => wordAt x.root1 0
  | 0x14 => wordAt x.root1 1
  | 0x18 => wordAt x.spillBase 0
  | 0x1C => wordAt x.spillBase 1
  | 0x20 => x.spillSize
  | _ => 0

/-- A word of MKEY or NKEY; a memory key sets KEYOK. DEDUCED, log 100. -/
def Owner.writeKey (x : Owner) (o v : Nat) : Owner :=
  if x.en then x
  else if o < 0x60 then { x with mkeyData := putWord x.mkeyData ((o - 0x40) / 4) v, keyOk := true }
  else if o < 0x80 then { x with mkeyTweak := putWord x.mkeyTweak ((o - 0x60) / 4) v, keyOk := true }
  else { x with nkey := putWord x.nkey ((o - 0x80) / 4) v }

/-- The place of a W0 offset in its owner's block: the owner and the offset there. -/
def ownerAt (off : Nat) : Nat × Nat := ((off - 0x100000) / 0x100, off % 0x100)

/-- A write of a key by the physical function, word by word. -/
def execKeyWrite (fn off size val : Nat) (s : State) : Host.Outcome State Fault Refusal :=
  let (w, o) := ownerAt off
  if fn ≠ 0 || off < 0x100000 || 0x200000 ≤ off || o < 0x40 || 0xA0 < o + size || (size ≠ 4 && size ≠ 8) || off % size ≠ 0 then
    .next s
  else .next (s.setOwner w ((List.range (size / 4)).foldl (fun x i => x.writeKey (o + 4 * i) (wordAt val i)) (s.owner w)))

/-- OWN.EN: 0 begins the retirement of R447, during which it reads 1. -/
def State.writeOwnerEn (s : State) (w : Nat) (en : Bool) : State :=
  let x := s.owner w
  if en then (if x.en then s else s.setOwner w { x with en := true })
  else if x.en && x.retiring.isNone then s.setOwner w { x with retiring := some (s.nextId, s.gtc) } else s

def State.writeOwnerWord (s : State) (w o v : Nat) : State :=
  let x := s.owner w
  match o with
  | 0x00 => s.writeOwnerEn w (bit v 0)
  | 0x08 | 0x0C => s.setOwner w { x with root0 := keepBits 51 12 (putWord x.root0 ((o - 0x08) / 4) v) }
  | 0x10 | 0x14 => s.setOwner w { x with root1 := keepBits 51 12 (putWord x.root1 ((o - 0x10) / 4) v) }
  | 0x18 | 0x1C => s.setOwner w { x with spillBase := keepBits 55 16 (putWord x.spillBase ((o - 0x18) / 4) v) }
  | 0x20 => s.setOwner w { x with spillSize := v % 2 ^ 24 }
  | _ => if 0x40 ≤ o && o < 0xA0 then s.after (execKeyWrite 0 (0x100000 + 0x100 * w + o) 4 v) else s

def State.readCapWord (s : State) (w o : Nat) : Nat :=
  let x := s.owner w
  match o with
  | 0x00 => flag x.capEn 0
  | 0x08 => wordAt x.capBase0 0
  | 0x0C => wordAt x.capBase0 1
  | 0x10 => wordAt x.capBase1 0
  | 0x14 => wordAt x.capBase1 1
  | 0x18 => x.capSize0 + x.capSize1 * 2 ^ 16
  | 0x20 => s.caLinesOn w 0 % 2 ^ 32
  | 0x24 => s.caLinesOn w 1 % 2 ^ 32
  | 0x28 => x.stray
  | 0x2C => s.caPinned w % 2 ^ 32
  | 0x30 => x.capFull
  | _ => 0

def State.writeCapWord (s : State) (w o v : Nat) : State :=
  let x := s.owner w
  let put (y : Owner) : State := if x.capEn then s else s.setOwner w y
  match o with
  | 0x00 => if bit v 0 then s.setOwner w { x with capEn := true } else s.after (execCapDisable w)
  | 0x08 | 0x0C => put { x with capBase0 := keepBits 51 21 (putWord x.capBase0 ((o - 0x08) / 4) v) }
  | 0x10 | 0x14 => put { x with capBase1 := keepBits 51 21 (putWord x.capBase1 ((o - 0x10) / 4) v) }
  | 0x18 => put { x with capSize0 := v % 2 ^ 16, capSize1 := v / 2 ^ 16 % 2 ^ 16 }
  | 0x28 => s.setOwner w { x with stray := x.stray &&& (2 ^ 32 - 1 - v % 2 ^ 32) }
  | _ => s

/-! ### The window (Table 5-8) -/

/-- Table 5-9. -/
def State.readDeviceWord (s : State) (o : Nat) : Nat :=
  match o with
  | 0x00 => s.family + s.stepLetter * 2 ^ 16 + s.stepDigit * 2 ^ 24
  | 0x08 => s.domid
  | 0x10 => s.qwin
  | 0x14 => s.maxlat
  | 0x20 => wordAt (s.die 0).tcbPool 0
  | 0x24 => wordAt (s.die 0).tcbPool 1
  | 0x28 => wordAt (s.die 1).tcbPool 0
  | 0x2C => wordAt (s.die 1).tcbPool 1
  | _ => 0

/-- The sensor cell of a W0 offset (R418). -/
def cellAt (off : Nat) : CellRef := ⟨(off - 0xC0000) / 0x800, off % 0x800 / 4⟩

/-- The word at an aligned offset of W0. -/
def State.readW0 (s : State) (off : Nat) : Nat :=
  if off < 0x100 then s.readDeviceWord off
  else if 0x10000 ≤ off && off < 0x12000 then (s.queue ((off - 0x10000) / 0x40)).readWord (off % 0x40)
  else if 0x80000 ≤ off && off < 0x80800 then s.readFieldWord ((off - 0x80000) / 0x100) (off % 0x100)
  else if 0x90000 ≤ off && off < 0x90080 then (s.die ((off - 0x90000) / 0x40)).readTlbi (off % 0x40)
  else if 0xA0000 ≤ off && off < 0xA0080 then s.readSovf ((off - 0xA0000) / 0x40) (off % 0x40)
  else if 0xB0000 ≤ off && off < 0xB0080 then (s.die ((off - 0xB0000) / 0x40)).readRing (off % 0x40)
  else if 0xC0000 ≤ off && off < 0xC4000 then
    (if cellValid (cellAt off) then (s.cell (cellAt off)).stateCode s.gtc else 0)
  else if 0xD0000 ≤ off && off < 0xD0080 then (s.die ((off - 0xD0000) / 0x40)).readPctl (off % 0x40)
  else if 0x100000 ≤ off && off < 0x200000 then (s.owner (ownerAt off).1).readWord (ownerAt off).2
  else if 0x200000 ≤ off && off < 0x210000 then s.readCapWord ((off - 0x200000) / 0x40) (off % 0x40)
  else 0

/-- A write of the word at an aligned offset by a function of the endpoint; 0 is the physical function. DEDUCED, log 98. -/
def State.writeW0 (s : State) (fn off v : Nat) : State :=
  if off < 0x100 then
    (if off = 0x10 && fn = 0 then s.setWindow (v % 512) else s)
  else if 0x10000 ≤ off && off < 0x12000 then s.writeQueueWord fn ((off - 0x10000) / 0x40) (off % 0x40) v
  else if 0x80000 ≤ off && off < 0x80800 then s.writeFieldWord ((off - 0x80000) / 0x100) (off % 0x100) v
  else if 0x90000 ≤ off && off < 0x90080 then s.writeTlbi ((off - 0x90000) / 0x40) (off % 0x40) v
  else if fn ≠ 0 then s
  else if 0xA0000 ≤ off && off < 0xA0080 then s.writeSovf ((off - 0xA0000) / 0x40) (off % 0x40) v
  else if 0xB0000 ≤ off && off < 0xB0080 then
    s.setDie ((off - 0xB0000) / 0x40) ((s.die ((off - 0xB0000) / 0x40)).writeRing (off % 0x40) v)
  else if 0xC0000 ≤ off && off < 0xC4000 then
    let s1 := if bit v 7 then s.after (execCellClear fn (cellAt off)) else s
    if bit v 6 then s1.after (execCellInject fn (cellAt off)) else s1
  else if 0xD0000 ≤ off && off < 0xD0080 then
    s.setDie ((off - 0xD0000) / 0x40) ((s.die ((off - 0xD0000) / 0x40)).writePctl (off % 0x40) v)
  else if 0x100000 ≤ off && off < 0x200000 then s.writeOwnerWord (ownerAt off).1 (ownerAt off).2 v
  else if 0x200000 ≤ off && off < 0x210000 then s.writeCapWord ((off - 0x200000) / 0x40) (off % 0x40) v
  else s

/-- R76: 4 or 8 bytes, naturally aligned, within the window. -/
def w0Aligned (off size : Nat) : Bool := (size = 4 || size = 8) && off % size = 0 && off + size ≤ 2 ^ 22

/-- A W0 write by a function of the endpoint. -/
def execRegisterWrite (fn off size val : Nat) (s : State) : Host.Outcome State Fault Refusal :=
  if w0Aligned off size then
    .next ((List.range (size / 4)).foldl (fun s i => s.writeW0 fn (off + 4 * i) (wordAt val i)) s)
  else .next s

/-- An access of the wrong size or alignment: a read completes with Unsupported Request status and no data; a write is
dropped. -/
def execW0BadAccess (write : Bool) (off size : Nat) (s : State) : Host.Outcome State Fault Refusal :=
  if write || w0Aligned off size then .next s else .next { s with reply := s.reply ++ [{ off, value := none }] }

/-- A W0 read: the registers' value, or Unsupported Request. -/
def State.hostRead (s : State) (off size : Nat) : State :=
  if w0Aligned off size then
    { s with reply := s.reply ++
        [{ off, value := some (s.readW0 off + (if size = 8 then s.readW0 (off + 4) * 2 ^ 32 else 0)) }] }
  else s.after (execW0BadAccess false off size)

end Sys2Proof.Machine
end

