-- ==== Sys2Proof/Machine/Splice.lean ====
section
/-!
DEFINITION. Machine/Splice.lean: the splice decision (R110-R112), the fused code (R113-R115, R452, R456), and its place in the
splice cache.
-/

namespace Sys2Proof.Machine

open Sys2Proof

/-! ### What the splicer reads (R39, R456) -/

/-- An instruction of a kernel's text; no shape where its words do not decode. -/
structure SIns where
  addr : Nat
  words : List W32
  sh : Option Shape
  deriving DecidableEq, Repr

/-- A kernel as the decision reads it: the loop's bounds, LIVEV, and the sites with their buffer slots, at their addresses. -/
structure Side where
  k : Kernel
  owner : Nat
  lhead : Nat
  ltail : Nat
  livev : Nat
  stt : List (Nat × Nat)
  ldt : List (Nat × Nat)
  deriving DecidableEq, Repr

def Side.entry (p : Side) : Nat := p.k.textBase + p.k.entry

/-- A word of text, read as a fetch reads it. -/
def State.textWord (s : State) (owner field va : Nat) : Option (W32 × State) :=
  match fetchTranslate s (.unit field) owner va with
  | .error _ => none
  | .ok (pa, s1) => some (BitVec.ofNat 32 (leNat (s1.readBytes (some (s1.keyAt owner pa)) pa 4)), s1)

def State.textWords (s : State) (owner field : Nat) : Nat → Nat → Option (List W32 × State)
  | 0, _ => some ([], s)
  | n + 1, va =>
    match s.textWord owner field va with
    | none => none
    | some (w, s1) =>
      match s1.textWords owner field n (va + 4) with
      | none => none
      | some (ws, s2) => some (w :: ws, s2)

/-- The instruction at an address of text. -/
def State.textIns (s : State) (owner field va : Nat) : Option (SIns × State) :=
  match s.textWord owner field va with
  | none => none
  | some (w, s1) =>
    match s1.textWords owner field (wordsOfLen w - 1) (va + 4) with
    | none => none
    | some (ws, s2) =>
      some ({ addr := va, words := w :: ws, sh := match checkShape Limits.all (w :: ws) with | .ok sh => some sh | .bad _ => none },
        s2)

/-- The offset in words of a direct transfer. -/
def Shape.branch : Shape → Option Int
  | .bra _ off => some off.toInt
  | .brac f => some f.off.toInt
  | .ext 20 0 x | .ext 20 3 x | .ext 20 4 x => some (offsetOf x)
  | _ => none

/-- The same transfer with another offset; none out of its reach. -/
def Shape.retarget (off : Int) : Shape → Option Shape
  | .bra link _ => if (BitVec.ofInt 25 off).toInt = off then some (.bra link (BitVec.ofInt 25 off)) else none
  | .brac f => if (BitVec.ofInt 18 off).toInt = off then some (.brac { f with off := BitVec.ofInt 18 off }) else none
  | .ext maj fn x =>
    let o := BitVec.ofInt 20 off
    if o.toInt = off then some (.ext maj fn { x with c := o.setWidth 10, e := (o >>> 10).setWidth 10 }) else none
  | sh => some sh

def Shape.indirect : Shape → Bool
  | .ext 20 1 _ | .ext 20 2 _ => true
  | _ => false

/-- No instruction follows it in address order: EXIT, RET, BRA, JMPR (R456). -/
def Shape.stops : Shape → Bool
  | .bra false _ | .bctl 1 _ | .bctl 2 _ | .ext 20 2 _ => true
  | _ => false

def SIns.next (i : SIns) : Nat := i.addr + 4 * i.words.length
/-- DEDUCED, log 95: behind a word that decodes to no instruction nothing more is reached. -/
def SIns.falls (i : SIns) : Bool := i.sh.any fun sh => !Shape.stops sh
def SIns.target (i : SIns) : Option Nat := (i.sh.bind Shape.branch).map fun o => ((i.addr : Int) + 4 * o).toNat

/-- The addresses that can run after an instruction. -/
def SIns.successors (i : SIns) : List Nat := (if i.falls then [i.next] else []) ++ i.target.toList

/-- R456: the instructions a kernel's ENTRY reaches, by address; none where the kernel is refused or a word cannot be read. -/
def Side.scan (p : Side) (field : Nat) : Nat → List Nat → Table SIns → State → Option (Table SIns × State)
  | 0, _, out, s => some (out, s)
  | _ + 1, [], out, s => some (out, s)
  | n + 1, a :: todo, out, s =>
    if (tfind out a).isSome then p.scan field n todo out s
    else if a < p.k.textBase || p.k.textBase + p.k.textSize ≤ a then none
    else
      match s.textIns p.owner field a with
      | none => none
      | some (i, s1) =>
        if i.sh.any Shape.indirect then none else p.scan field n (i.successors ++ todo) (tput out a i) s1

/-- The whole of a kernel's reached code; each word of text is entered once and left at most twice. -/
def Side.reached (p : Side) (field : Nat) (s : State) : Option (Table SIns × State) :=
  if p.lhead < p.entry then none else p.scan field (3 * (p.k.textSize / 4) + 2) [p.entry] [] s

/-- Table 2-4's site records. -/
def siteList (d : List Byte) (o n base : Nat) : List (Nat × Nat) :=
  (List.range (min n 4)).map fun i => (base + recField d (o + 8 * i) 4, recField d (o + 8 * i + 4) 1)

/-- Read a task's descriptor and splice descriptor. -/
def State.readSide (s : State) (t : Tcb) (field : Nat) : Option (Side × State) :=
  match s.readDesc t.owner field t.kdesc with
  | .error _ => none
  | .ok ((k, _), s1) =>
    match k.splOff with
    | none => none
    | some o =>
      match s1.devRead t.owner field o 80 with
      | .error _ => none
      | .ok (d, s2) =>
        some ({ k, owner := t.owner, lhead := k.textBase + recField d 0 4, ltail := k.textBase + recField d 4 4,
                livev := recField d 8 2, stt := siteList d 0x10 (recField d 0x0C 1) k.textBase,
                ldt := siteList d 0x30 (recField d 0x0D 1) k.textBase }, s2)

/-- The instruction at LHEAD is a TFETCH by its first word. -/
def State.headIns (s : State) (p : Side) (field : Nat) : Option (SIns × State) :=
  match s.textIns p.owner field p.lhead with
  | some (i, s1) =>
    let w := (i.words.headD 0).toNat
    if w / 2 % 2 = 1 && w / 4 % 32 = 26 && w / 128 % 512 = 0 then some (i, s1) else none
  | none => none

/-! ### Registers that an instruction reads and writes -/

/-- The stores read D. -/
def dIsRead (maj fn : Nat) : Bool := maj = 21 && (fn = 1 || fn = 3 || fn = 5 || fn = 6)

/-- ATOM without a return value names nothing in D (R381). -/
def dUnused (maj fn : Nat) (x : Ext) : Bool := maj = 24 && fn = 0 && !x.imm8.getLsbD 7

/-- The registers an extended instruction writes, by their codes; SIDX and VIDX write one for each dimension. -/
def extWrites (shapes : List Byte) (maj fn : Nat) (x : Ext) : List Nat :=
  let d := x.d.toNat
  if dIsRead maj fn || dUnused maj fn x || !(codeIsV d || codeIsS d) then []
  else if (maj = 16 && fn = 29) || (maj = 17 && fn = 25) then codes d (recField shapes (64 * (x.imm8.toNat % 16)) 1)
  else
    match usage maj fn x with
    | none => []
    | some u => if u.d = .unread then [] else codes d (u.d.covers d)

def halfFamily (h : Half) : Nat × Nat := (pairable h.fn).getD (0, 0)

def Shape.writes (shapes : List Byte) : Shape → List Nat
  | .ui _ f => [128 + f.d.toNat]
  | .ua _ f => [128 + f.d.toNat]
  | .base maj fn f => extWrites shapes (maj + 12) fn (.ofBase (maj + 12) fn f)
  | .bra true _ => [129]
  | .bm false f => codes f.d.toNat (2 ^ f.w.toNat)
  | .um false f => [128 + f.d.toNat]
  | .ext maj fn x => extWrites shapes maj fn x
  | .pair p => extWrites shapes (halfFamily p.halfX).1 (halfFamily p.halfX).2 p.halfX.x ++
      extWrites shapes (halfFamily p.halfY).1 (halfFamily p.halfY).2 p.halfY.x
  | _ => []

/-! ### Renumbering (R114, R115) -/

/-- What the consumer's code is renumbered by. -/
structure Renum where
  nP : Nat
  nC : Nat
  mP : Nat
  mC : Nat
  shapes : Nat
  /-- C's TFETCH destination and P's (R113) -/
  tile : Table Nat := []
  deriving DecidableEq, Repr

def Renum.code (r : Renum) (c : Nat) : Nat :=
  if codeIsV c then (if c < r.nC then c + r.nP else c)
  else if 130 ≤ c && c < 128 + r.mC then c + r.mP
  else c

/-- The same, of an instruction that keeps C's own codes: only its shape entries move. -/
def Renum.still (r : Renum) : Renum := { r with nP := 0, mP := 0, tile := [] }

/-- A register that is read: forwarded, or renumbered. -/
def Renum.read (r : Renum) (fwd : Table Nat) (c : Nat) : Nat := (tfind fwd c).getD ((tfind r.tile c).getD (r.code c))

/-- An operand field of a position, under what its code becomes. -/
def operandField (f : Nat → Nat) (k : OpKind) (c : BitVec 10) : BitVec 10 :=
  if k = .unread || k = .offset || (k = .uSrcOpt && c = 0) then c else BitVec.ofNat 10 (f c.toNat)

def Renum.ext (r : Renum) (fwd : Table Nat) (maj fn : Nat) (x : Ext) : Ext :=
  match usage maj fn x with
  | none => x
  | some u =>
    { x with
      d := if dUnused maj fn x then x.d else operandField (if dIsRead maj fn then r.read fwd else r.code) u.d x.d,
      a := operandField (r.read fwd) u.a x.a, b := operandField (r.read fwd) u.b x.b, c := operandField (r.read fwd) u.c x.c,
      e := operandField (r.read fwd) u.e x.e,
      imm8 := if (maj = 16 && fn = 29) || (maj = 17 && fn = 25) then x.imm8 + BitVec.ofNat 8 r.shapes else x.imm8 }

/-- The registers that an extended instruction reads, by field, and those that it writes. -/
def extReads (maj fn : Nat) (x : Ext) : List (List Nat) :=
  match usage maj fn x with
  | none => []
  | some u =>
    let range (k : OpKind) (c : BitVec 10) : List Nat :=
      if k = .unread || k = .offset || !(codeIsV c.toNat || codeIsS c.toNat) then [] else codes c.toNat (k.covers c.toNat)
    [if dIsRead maj fn then range u.d x.d else [], range u.a x.a, range u.b x.b, range u.c x.c, range u.e x.e]

/-- The registers of a range stay in one piece. -/
def inOnePiece (f : Nat → Nat) (l : List Nat) : Bool := l.zipIdx.all fun c => f c.1 = f (l.headD 0) + c.2

/-- Where the registers of ranges stand, of those that move. -/
def moved (f : Nat → Nat) (l : List Nat) : List (Nat × Nat) := (l.map fun c => (c, f c)).filter fun x => x.1 ≠ x.2

/-- What an instruction of C's code reads, by field, and what it writes. -/
def Shape.ranges (shapes : List Byte) : Shape → List (List Nat) × List Nat
  | .base maj fn f => (extReads (maj + 12) fn (.ofBase (maj + 12) fn f), extWrites shapes (maj + 12) fn (.ofBase (maj + 12) fn f))
  | .bm store f =>
    let fn := if store then 1 else 0
    (extReads 21 fn (bmExt f), extWrites shapes 21 fn (bmExt f))
  | .ext maj fn x => (extReads maj fn x, extWrites shapes maj fn x)
  | _ => ([], [])

/-- An instruction with a range that does not stay in one piece: it begins at s0 or s1, or only some of its registers are
forwarded.  No field can name it; the instruction keeps C's own codes, and each of its registers stands where R114 or R115 puts
it. DEDUCED, log 136. -/
def Renum.astray (r : Renum) (fwd : Table Nat) (shapes : List Byte) (sh : Shape) : Option (List (Nat × Nat) × List (Nat × Nat)) :=
  let (reads, writes) := Shape.ranges shapes sh
  if reads.all (inOnePiece (r.read fwd)) && inOnePiece r.code writes then none
  else some (moved (r.read fwd) reads.flatten, moved r.code writes)

/-- The short code of an operand, if it has one. -/
def shortOf (uniform : Bool) (c : Nat) : Option Nat := (List.range 63).find? fun i => shortCode uniform i = c

/-- R452, R50: the base form where the operands fit it, else the extended form. -/
def fitBase (maj fn : Nat) (x : Ext) (f : BaseF) : Shape :=
  let r := if maj = 16 then 128 else 0
  let ok (c : Nat) : Bool := r ≤ c && c < r + 64
  match usage maj fn {} with
  | none => .base (maj - 12) fn f
  | some u =>
    match (if u.b = .unread then some f.b.toNat else shortOf (maj = 16) x.b.toNat) with
    | none => .ext maj fn x
    | some b =>
      if ok x.d.toNat && ok x.a.toNat && (u.c = .unread || x.c = x.d) then
        .base (maj - 12) fn { f with b := BitVec.ofNat 6 b, a := BitVec.ofNat 6 (x.a.toNat - r), d := BitVec.ofNat 6 (x.d.toNat - r) }
      else .ext maj fn x

/-- A 64-bit constant as an operand: an inline integer, or the literal. -/
def constOperand (v : Int) : BitVec 10 × Option W64 :=
  if 0 ≤ v && v ≤ 63 then (BitVec.ofNat 10 (576 + v.toNat), none)
  else if -16 ≤ v && v < 0 then (BitVec.ofNat 10 (639 + (-v).toNat), none)
  else (768, some (BitVec.ofInt 64 v))

/-- The uniform-family FN of a UA instruction and its constant. -/
def uaExtended (fn : Nat) (imm : BitVec 12) : Nat × Int :=
  match fn with
  | 0 => (0, imm.toInt) | 1 => (9, imm.toInt) | 2 => (10, imm.toInt) | 3 => (11, imm.toInt) | 4 => (19, imm.toInt)
  | 5 => (20, imm.toInt) | 6 => (12, imm.toNat % 64) | _ => (if imm.getLsbD 6 then 14 else 13, imm.toNat % 64)

def isS5 (c : Nat) : Bool := 128 ≤ c && c < 160

/-- The 8-bit A code of a pair half, if the operand has one. -/
def pairA (c : Nat) : Option Nat := if c < 192 then some c else if 576 ≤ c && c < 640 then some (c - 384) else none

/-- A pair word again from its halves, or the two halves as instructions (R452). -/
def Renum.pair (r : Renum) (fwd : Table Nat) (p : PairF) : List Shape :=
  let (mx, fx) := (halfFamily p.halfX)
  let (my, fy) := (halfFamily p.halfY)
  let x := r.ext fwd mx fx p.halfX.x
  let y := r.ext fwd my fy p.halfY.x
  match pairA x.a.toNat, pairA y.a.toNat with
  | some xa, some ya =>
    [.pair { p with
      xd := x.d.setWidth 7, xa := BitVec.ofNat 8 xa, xb := x.b.setWidth 7, xc := x.c.setWidth 7,
      yd := y.d.setWidth 7, ya := BitVec.ofNat 8 ya, yb := y.b.setWidth 7, yc := y.c.setWidth 7 }]
  | _, _ => [.ext mx fx x, .ext my fy y]

/-- An instruction of C's code at its own address: one shape, or the halves of a pair word (R114, R115, R452). -/
def Renum.shape (r : Renum) (fwd : Table Nat) (addr : Nat) : Shape → List Shape
  | .ui pc f =>
    let d := r.code (128 + f.d.toNat)
    if isS5 d then [.ui pc { f with d := BitVec.ofNat 5 (d - 128) }]
    else
      let up : Int := (upperImm f.imm).toInt
      let (a, lit) := constOperand (if pc then (BitVec.ofInt 64 (addr + up)).toInt else up)
      [.ext 16 28 { d := BitVec.ofNat 10 d, a, lit }]
  | .ua fn f =>
    let d := r.code (128 + f.d.toNat)
    let a := r.read fwd (128 + f.a.toNat)
    if isS5 d && isS5 a then [.ua fn { f with a := BitVec.ofNat 5 (a - 128), d := BitVec.ofNat 5 (d - 128) }]
    else
      let (fn', v) := uaExtended fn f.imm
      let (b, lit) := constOperand v
      [.ext 16 fn' { d := BitVec.ofNat 10 d, a := BitVec.ofNat 10 a, b, lit }]
  | .base maj fn f => [fitBase (maj + 12) fn (r.ext fwd (maj + 12) fn (.ofBase (maj + 12) fn f)) f]
  | .bm store f =>
    let x := r.ext fwd 21 (if store then 1 else 0) (bmExt f)
    if x.d.toNat < 64 && x.b.toNat < 64 && isS5 x.a.toNat then
      [.bm store { f with d := x.d.setWidth 6, a := x.b.setWidth 6, b := BitVec.ofNat 5 (x.a.toNat - 128) }]
    else [.ext 21 (if store then 1 else 0) x]
  | .um store f =>
    let x := r.ext fwd 21 (if store then 3 else 2) (umExt f)
    if isS5 x.d.toNat && isS5 x.a.toNat then
      [.um store { f with d := BitVec.ofNat 5 (x.d.toNat - 128), a := BitVec.ofNat 5 (x.a.toNat - 128) }]
    else [.ext 21 (if store then 3 else 2) x]
  | .ext maj fn x => [.ext maj fn (r.ext fwd maj fn x)]
  | .pair p => r.pair fwd p
  | sh => [sh]

/-! ### The run (R113, R452, R456) -/

/-- A place in the run that a transfer goes to. -/
inductive SKey where
  | at (fromC : Bool) (addr : Nat)
  | loop | cbody | exit | cepi
  deriving DecidableEq, Repr

/-- An instruction of the run before its place is known: its transfer's target, and where it falls through to. -/
structure SItem where
  sh : Option Shape := none
  words : List W32 := []
  target : Option SKey := none
  fall : Option SKey := none
  fromC : Bool
  orig : Nat
  second : Bool := false
  regs : List (Nat × Nat) := []
  dests : List (Nat × Nat) := []
  deriving DecidableEq, Repr

/-- The run under construction; `gone` stands where an instruction has been removed. -/
inductive SElem where
  | label (k : SKey)
  | item (i : SItem)
  | gone (fall : SKey) (fromC : Bool) (orig : Nat)
  deriving DecidableEq, Repr

/-- Where a transfer or a fall-through of segment `seg` (0 prologue, 1 body, 2 epilogue) of a kernel goes (R456). -/
def redirect (p c : Side) (fromC : Bool) (seg t : Nat) : SKey :=
  if fromC then
    if t = c.lhead then .loop
    else if t = c.ltail then (if seg = 2 then .cepi else .exit)
    else .at true t
  else if t = p.lhead then
    match seg with
    | 0 => if c.entry = c.lhead then .loop else .at true c.entry
    | 1 => .cbody
    | _ => .loop
  else if t = p.ltail then .exit
  else .at false t

/-- The segment of an address. -/
def Side.seg (p : Side) (a : Nat) : Nat := if a < p.lhead then 0 else if a < p.ltail then 1 else 2

/-- The instructions of a segment in address order, without the one at LHEAD. -/
def Side.segment (p : Side) (code : Table SIns) (seg : Nat) : List SIns :=
  (code.filter fun i => i.1 ≠ p.lhead && p.seg i.1 = seg).map fun i => i.2

def SItem.size (i : SItem) : Nat := 4 * (match i.sh with | some sh => sh.encode.length | none => i.words.length)

/-- The elements of an instruction of P. -/
def producerElems (p c : Side) (gone : List Nat) (seg : Nat) (i : SIns) : List SElem :=
  let r (t : Nat) : SKey := redirect p c false seg t
  .label (.at false i.addr) ::
    if seg = 1 && gone.contains i.addr then [.gone (r i.next) false i.addr]
    else if seg = 2 && i.sh = some (.bctl 1 0) then [.item { sh := some (.bra false 0), target := some .cepi, fromC := false, orig := i.addr }]
    else [.item { sh := i.sh, words := i.words, target := i.target.map r, fall := if i.falls then some (r i.next) else none,
                  fromC := false, orig := i.addr }]

/-- The elements of a segment of C: `fwd` maps the registers whose reads are forwarded (R115). -/
def consumerElems (p c : Side) (r : Renum) (ldts : Table (List (Nat × Nat))) (seg : Nat) : Table Nat → List SIns → List SElem
  | _, [] => []
  | fwd, i :: rest =>
    let go (t : Nat) : SKey := redirect p c true seg t
    match (if seg = 1 then tfind ldts i.addr else none) with
    | some m =>
      .label (.at true i.addr) :: .gone (go i.next) true i.addr ::
        consumerElems p c r ldts seg (m.foldl (fun f x => tput f x.1 x.2) fwd) rest
    | none =>
      let fall := if i.falls then some (go i.next) else none
      let item (sh : Shape) (last second : Bool) (maps : List (Nat × Nat) × List (Nat × Nat) := ([], [])) : SElem :=
        .item { sh := some sh, target := i.target.map go, fall := if last then fall else none, fromC := true, orig := i.addr, second,
                regs := maps.1, dests := maps.2 }
      let (items, wrote) : List SElem × List Nat := match i.sh with
        | none => ([.item { words := i.words, fromC := true, orig := i.addr }], [])
        | some sh =>
          (match r.astray fwd c.k.shapes sh with
           | some maps => (r.still.shape [] i.addr sh).map fun x => item x true false maps
           | none =>
             match r.shape fwd i.addr sh with
             | [x, y] => [item x false false, item y true true]
             | l => l.map fun x => item x true false, Shape.writes c.k.shapes sh)
      .label (.at true i.addr) :: items ++ consumerElems p c r ldts seg (wrote.foldl terase fwd) rest

/-- The D field of a TFETCH. -/
def tfetchDst (i : SIns) : Nat := match i.sh with | some (.ext _ _ x) => x.d.toNat | _ => 128

/-- The run's elements in R113's order. -/
def runElems (p c : Side) (pc cc : Table SIns) (pHead cHead : SIns) (gone : List Nat) (ldts : Table (List (Nat × Nat))) :
    List SElem :=
  let r : Renum := { nP := p.k.vcount, nC := c.k.vcount, mP := p.k.scount, mC := c.k.scount, shapes := p.k.shapes.length / 64,
                      tile := if tfetchDst cHead = 128 then [] else [(tfetchDst cHead, tfetchDst pHead)] }
  let pSeg (q : Nat) : List SElem := (p.segment pc q).flatMap (producerElems p c gone q)
  let cSeg (q : Nat) : List SElem := consumerElems p c r ldts q [] (c.segment cc q)
  let head : SItem := { sh := pHead.sh, words := pHead.words, fall := some (redirect p c false 1 pHead.next), fromC := false,
                        orig := p.lhead }
  pSeg 0 ++ cSeg 0 ++ [.label .loop, .item head] ++ pSeg 1 ++
    [.label .cbody, .gone (redirect p c true 1 cHead.next) true c.lhead] ++ cSeg 1 ++
    [.label .exit] ++ pSeg 2 ++ [.label .cepi] ++ cSeg 2

/-- The labels that stand directly before the rest of a run. -/
def labelsHere : List SElem → List SKey
  | .label k :: rest => k :: labelsHere rest
  | _ => []

def SElem.label? : SElem → Option SKey
  | .label k => some k
  | _ => none

/-- A BRA to a place. -/
def braTo (k : SKey) (fromC : Bool) (orig : Nat) : SElem := .item { sh := some (.bra false 0), target := some k, fromC, orig }

/-- R456: a BRA behind an instruction whose fall-through does not follow it; what was removed leaves no gap. -/
def joinRun (all : List SKey) : List SElem → List SElem
  | [] => []
  | .label k :: rest => .label k :: joinRun all rest
  | .gone f c o :: rest =>
    if (labelsHere rest).contains f || !all.contains f then joinRun all rest else braTo f c o :: joinRun all rest
  | .item i :: rest =>
    match i.fall with
    | some f =>
      if (labelsHere rest).contains f || !all.contains f then .item i :: joinRun all rest
      else .item i :: braTo f i.fromC i.orig :: joinRun all rest
    | none => .item i :: joinRun all rest

/-- The offset of every label, and the length of the run. -/
def placeLabels : Nat → List SElem → List (SKey × Nat) × Nat
  | o, [] => ([], o)
  | o, .label k :: rest => let (l, n) := placeLabels o rest; ((k, o) :: l, n)
  | o, .gone _ _ _ :: rest => placeLabels o rest
  | o, .item i :: rest => placeLabels (o + i.size) rest

/-- The words of the run at its base; none where a transfer is out of its form's reach. -/
def emitRun (labels : List (SKey × Nat)) (base : Nat) : Nat → List SElem → Option (List FusedWord)
  | _, [] => some []
  | o, .item i :: rest =>
    match emitRun labels base (o + i.size) rest with
    | none => none
    | some ws =>
      let out (words : List W32) : FusedWord := { addr := base + o, words, fromC := i.fromC, orig := i.orig, second := i.second,
                                                  regs := i.regs, dests := i.dests }
      match i.sh, i.target with
      | none, _ => some (out i.words :: ws)
      | some sh, none => some (out sh.encode :: ws)
      | some sh, some k =>
        let t := ((labels.find? fun l => l.1 = k).map fun l => l.2).getD o
        match Shape.retarget (((t : Int) - o) / 4) sh with
        | some sh' => some (out sh'.encode :: ws)
        | none => none
  | o, _ :: rest => emitRun labels base o rest

/-! ### The splice cache (Table 6-3, code 6) -/

/-- The runs of a die that a READY, RUNNING or fused task uses, by offset in the cache and length. -/
def State.liveRuns (s : State) (die : Nat) : List (Nat × Nat) :=
  (s.tcbs.filter fun t => dieOfTask t.1 = die && (t.2.state = .ready || t.2.state = .running ||
      (t.2.fusedFlag && (s.tcb t.2.fusedWith).state = .fused))).filterMap fun t =>
    t.2.fusedCode.map fun f => (f.base - spliceBase die, ((f.code.getLast?.map fun w => w.addr + 4 * w.words.length).getD f.base) - f.base)

/-- The 64-byte aligned places that hold `n` bytes. -/
def State.splicePlaces (s : State) (die n : Nat) : List Nat :=
  ((List.range 32768).map fun i => 64 * i).filter fun o =>
    o + n ≤ 0x200000 && (s.liveRuns die).all fun r => o + n ≤ r.1 || r.1 + r.2 ≤ o

/-! ### The decision (Table 6-3) -/

/-- A pair of matched sites: the instructions. -/
structure Match where
  stt : SIns
  ldt : SIns
  deriving DecidableEq, Repr

/-- The tile-descriptor fields (R112, R301). -/
def tileFields : SIns → Option Ext
  | { sh := some (.ext _ _ x), .. } => some { imm8 := x.imm8, a := x.a, b := x.b, c := x.c, e := x.e, lit := x.lit }
  | _ => none

def tileRegs (i : SIns) : List Nat := match i.sh with | some (.ext _ _ x) => codes x.d.toNat (x.imm8.toNat % 8 + 1) | _ => []

/-- The matched sites in descriptor order, where each pair agrees and P writes no matched source behind its STT. -/
def State.matchSites (s : State) (p c : Side) (field : Nat) (pc : Table SIns) : List (Nat × Nat) → Option (List Match × State)
  | [] => some ([], s)
  | (a, b) :: rest =>
    match s.textIns p.owner field a with
    | none => none
    | some (x, s1) =>
      match s1.textIns c.owner field b with
      | none => none
      | some (y, s2) =>
        let later := pc.filter fun i => a < i.1 && i.1 < p.ltail
        if tileFields x = none || tileFields x ≠ tileFields y ||
            later.any (fun i => ((i.2.sh.map (Shape.writes p.k.shapes)).getD []).any (tileRegs x).contains) then none
        else (s2.matchSites p c field pc rest).map fun m => ({ stt := x, ldt := y } :: m.1, m.2)

/-- What a passed decision has read. -/
structure Plan where
  s : State
  pTask : Nat
  p : Side
  c : Side
  pc : Table SIns
  cc : Table SIns
  pHead : SIns
  cHead : SIns
  matched : List Match
  keep : Bool
  deriving DecidableEq, Repr

/-- Code 1, as far as the TCBs decide it: the producer and the edge. -/
def State.spliceEdge (s : State) (task : Nat) : Option (Nat × EdgeRec) :=
  let c := s.tcb task
  match c.producers, c.edges.filter fun e => e.valid with
  | [p], [e] =>
    let t := s.tcb p
    if e.producer = p && e.transient && t.spliceOk && (t.state = .waiting || t.state = .ready) && !t.fusedFlag &&
        t.coresident = c.coresident && t.fmask &&& c.fmask ≠ 0 then some (p, e)
    else none
  | _, _ => none

/-- The sites of a buffer slot. -/
def sitesOn (l : List (Nat × Nat)) (slot : Nat) : List Nat := (l.filter fun x => x.2 = slot).map fun x => x.1

/-- The words of some sites can be read. -/
def State.sitesRead (s : State) (owner field : Nat) : List Nat → Option State
  | [] => some s
  | a :: rest => (s.textIns owner field a).bind fun x => x.2.sitesRead owner field rest

/-- Code 1, as far as memory decides it. -/
def State.spliceRead (s : State) (pTask cTask field : Nat) (e : EdgeRec) : Option Plan :=
  match s.readSide (s.tcb pTask) field with
  | none => none
  | some (p, s1) =>
    match s1.readSide (s.tcb cTask) field with
    | none => none
    | some (c, s2) =>
      match s2.headIns p field with
      | none => none
      | some (pHead, s3) =>
        match s3.headIns c field with
        | none => none
        | some (cHead, s4) =>
          match p.reached field s4 with
          | none => none
          | some (pc, s5) =>
            match c.reached field s5 with
            | none => none
            | some (cc, s6) =>
              (s6.sitesRead p.owner field (sitesOn p.stt e.pslot)).bind fun s7 =>
                (s7.sitesRead c.owner field (sitesOn c.ldt e.cslot)).map fun s8 => { s := s8, pTask, p, c, pc, cc, pHead, cHead, matched := [], keep := false }

/-- Code 3. -/
def pressure (p c : Side) : Bool :=
  let n := p.k.vcount + c.k.vcount
  let gc := p.k.perCore
  128 < n || 376 < p.k.scount + c.k.scount || p.k.span * 524288 < p.k.benchMem + c.k.benchMem ||
    1024 < p.k.shapes.length + c.k.shapes.length || 1048576 < gc * 128 * n || 1310720 < gc * 128 * (n + p.livev + c.livev)

/-- The tests of Table 6-3 but for code 6, in the order of R111. DEDUCED, log 95. -/
def State.spliceTests (s : State) (task : Nat) : Except Nat Plan :=
  let t := s.tcb task
  match s.spliceEdge task with
  | none => .error 1
  | some (pTask, e) =>
    let field := 4 * dieOfTask pTask
    let tp := s.tcb pTask
    match s.spliceRead pTask task field e with
    | none => .error 1
    | some pl =>
      let k := pl.p.k
      let l := pl.c.k
      if tp.tiles ≠ t.tiles || tp.tshape ≠ t.tshape || k.groups ≠ l.groups || k.threads ≠ l.threads || k.span ≠ l.span then .error 2
      else if k.ncopy ≠ l.ncopy || k.nmatrix ≠ l.nmatrix || k.nvector ≠ l.nvector || 0 < k.nmatrix then .error 4
      else if (s.successors pTask).any fun x => x ≠ task && (s.tcb x).edges.any fun f =>
          f.valid && f.handle = e.handle && f.pslot = e.pslot then .error 5
      else
        let stt := sitesOn pl.p.stt e.pslot
        let ldt := sitesOn pl.c.ldt e.cslot
        if stt.isEmpty || stt.length ≠ ldt.length then .error 7
        else
          match pl.s.matchSites pl.p pl.c field pl.pc (stt.zip ldt) with
          | none => .error 7
          | some (m, s1) =>
            if pressure pl.p pl.c then .error 3
            else .ok { pl with s := s1, matched := m, keep := e.keep, cc := m.foldl (fun cc x => tput cc x.ldt.addr x.ldt) pl.cc }

/-- The fused code of a plan in the splice cache; none where it does not fit (code 6). DEDUCED, log 96. -/
def Plan.fuse (pl : Plan) (consumer : Nat) : Option Fused :=
  let ldts : Table (List (Nat × Nat)) :=
    pl.matched.foldl (fun t m => tput t m.ldt.addr ((tileRegs m.ldt).zip (tileRegs m.stt))) []
  let gone := if pl.keep then [] else pl.matched.map fun m => m.stt.addr
  let elems := runElems pl.p pl.c pl.pc pl.cc pl.pHead pl.cHead gone ldts
  let run := joinRun (elems.filterMap SElem.label?) elems
  let (labels, size) := placeLabels 0 run
  let die := dieOfTask pl.pTask
  let places := pl.s.splicePlaces die size
  match places[Config.splicePlace pl.s.freeCtr places.length % places.length]? with
  | none => none
  | some o =>
    let base := spliceBase die + o
    let start := redirect pl.p pl.c false 0 pl.p.entry
    (emitRun labels base 0 run).map fun code =>
      { base, entry := ((labels.find? fun l => l.1 = start).map fun l => l.2).getD 0, code, p := pl.p.k, c := pl.c.k, consumer,
        pText := pl.pc.map fun i => i.1, cText := pl.cc.map fun i => i.1 }

/-- R115: the pair becomes one fused task in P's TCB. -/
def Plan.commit (pl : Plan) (task : Nat) (f : Fused) : State :=
  let s := pl.s
  let p := s.tcb pl.pTask
  let c := s.tcb task
  ((s.setTcb pl.pTask { p with
      fusedFlag := true, fusedCode := some f, fusedWith := task, prio := max p.prio c.prio, fmask := p.fmask &&& c.fmask,
      kernel := none, blocks := 0 }).setTcb task { c with state := .fused, fusedWith := pl.pTask, splicing := false })

/-- R110, R111: the decision on a consumer, once. -/
def execSpliceDecision (task : Nat) (s : State) : Host.Outcome State Fault Refusal :=
  let t := s.tcb task
  let refuse (s : State) (code : Nat) : State := s.setTcb task { (s.tcb task) with refusal := code, splicing := false }
  if !t.splicing then .next s
  else
    match s.spliceTests task with
    | .error code => .next (refuse s code)
    | .ok pl =>
      match pl.fuse task with
      | none => .next (refuse pl.s 6)
      | some f => .next (pl.commit task f)

end Sys2Proof.Machine
end

