-- ==== Sys2Proof/Machine/Dispatch.lean ====
section
/-! DEFINITION. Machine/Dispatch.lean: the one table from an instruction or event to its meaning. -/

namespace Sys2Proof.Machine

open Sys2Proof

def exec (i : Instr) (s : State) : Host.Outcome State Fault Refusal :=
  match i with
  | .loadObject owner base pa0 pa1 frames bytes => Sys2Proof.Machine.execLoadObject owner base pa0 pa1 frames bytes s
  | .registerWrite fn off size val => Sys2Proof.Machine.execRegisterWrite fn off size val s
  | .w0BadAccess write off size => Sys2Proof.Machine.execW0BadAccess write off size s
  | .qwptrWrite fn q val => Sys2Proof.Machine.execQwptrWrite fn q val s
  | .queueEnable fn q val => Sys2Proof.Machine.execQueueEnable fn q val s
  | .queueHalt fn q val => Sys2Proof.Machine.execQueueHalt fn q val s
  | .packetParse die => Sys2Proof.Machine.execPacketParse die s
  | .packetPerform q => Sys2Proof.Machine.execPacketPerform q s
  | .nopPacket q => Sys2Proof.Machine.execNopPacket q s
  | .write q => Sys2Proof.Machine.execWrite q s
  | .launch q => Sys2Proof.Machine.execLaunch q s
  | .edge q => Sys2Proof.Machine.execEdge q s
  | .ib q => Sys2Proof.Machine.execIb q s
  | .pred q => Sys2Proof.Machine.execPred q s
  | .loopPacket q => Sys2Proof.Machine.execLoopPacket q s
  | .wait q => Sys2Proof.Machine.execWait q s
  | .waitReevaluate q => Sys2Proof.Machine.execWaitReevaluate q s
  | .waitTimeout q => Sys2Proof.Machine.execWaitTimeout q s
  | .signal q => Sys2Proof.Machine.execSignal q s
  | .fetchFence q => Sys2Proof.Machine.execFetchFence q s
  | .timestamp q => Sys2Proof.Machine.execTimestamp q s
  | .checkpoint q => Sys2Proof.Machine.execCheckpoint q s
  | .checkpointDone q => Sys2Proof.Machine.execCheckpointDone q s
  | .owner q => Sys2Proof.Machine.execOwner q s
  | .parserStallResume q => Sys2Proof.Machine.execParserStallResume q s
  | .droneMismatch => Sys2Proof.Machine.execDroneMismatch s
  | .droneRecoveryEnd => Sys2Proof.Machine.execDroneRecoveryEnd s
  | .spliceDecision task => Sys2Proof.Machine.execSpliceDecision task s
  | .placeBlock die => Sys2Proof.Machine.execPlaceBlock die s
  | .reservation task => Sys2Proof.Machine.execReservation task s
  | .reservationPreempt task => Sys2Proof.Machine.execReservationPreempt task s
  | .dispenserRefill task die => Sys2Proof.Machine.execDispenserRefill task die s
  | .blockEnd b => Sys2Proof.Machine.execBlockEnd b s
  | .taskRetire task => Sys2Proof.Machine.execTaskRetire task s
  | .blockResume b => Sys2Proof.Machine.execBlockResume b s
  | .preempt die => Sys2Proof.Machine.execPreempt die s
  | .kill die => Sys2Proof.Machine.execKill die s
  | .saveComplete b => Sys2Proof.Machine.execSaveComplete b s
  | .powerUp strap pool0 pool1 failed signed => Sys2Proof.Machine.execPowerUp strap pool0 pool1 failed signed s
  | .fieldPowerUp f => Sys2Proof.Machine.execFieldPowerUp f s
  | .fieldPowerDown f => Sys2Proof.Machine.execFieldPowerDown f s
  | .supplyPath die pin fields drop => Sys2Proof.Machine.execSupplyPath die pin fields drop s
  | .fieldTrip f => Sys2Proof.Machine.execFieldTrip f s
  | .fieldTripRelease f => Sys2Proof.Machine.execFieldTripRelease f s
  | .modtrip current => Sys2Proof.Machine.execModtrip current s
  | .pwrWatchdog f => Sys2Proof.Machine.execPwrWatchdog f s
  | .pwrUpdate pattern => Sys2Proof.Machine.execPwrUpdate pattern s
  | .thermal f sensor temp => Sys2Proof.Machine.execThermal f sensor temp s
  | .thermalRelease f => Sys2Proof.Machine.execThermalRelease f s
  | .strumWrite bench pattern => Sys2Proof.Machine.execStrumWrite bench pattern s
  | .allowRefillWrite bench refill => Sys2Proof.Machine.execAllowRefillWrite bench refill s
  | .slewStep => Sys2Proof.Machine.execSlewStep s
  | .throttleEdge bench => Sys2Proof.Machine.execThrottleEdge bench s
  | .groupSwap core => Sys2Proof.Machine.execGroupSwap core s
  | .forcedSwap core => Sys2Proof.Machine.execForcedSwap core s
  | .sleepWake g => Sys2Proof.Machine.execSleepWake g s
  | .registerFill id => Sys2Proof.Machine.execRegisterFill id s
  | .trapEntry g => Sys2Proof.Machine.execTrapEntry g s
  | .regionTimeoutHead g => Sys2Proof.Machine.execRegionTimeoutHead g s
  | .regionClose g => Sys2Proof.Machine.execRegionClose g s
  | .regionCommit g => Sys2Proof.Machine.execRegionCommit g s
  | .storeDrain id => Sys2Proof.Machine.execStoreDrain id s
  | .taggedHoldEnd id => Sys2Proof.Machine.execTaggedHoldEnd id s
  | .sensorReport c => Sys2Proof.Machine.execSensorReport c s
  | .cellCountDecay c => Sys2Proof.Machine.execCellCountDecay c s
  | .cellInject fn c => Sys2Proof.Machine.execCellInject fn c s
  | .cellClear fn c => Sys2Proof.Machine.execCellClear fn c s
  | .eccCorr die array row spare => Sys2Proof.Machine.execEccCorr die array row spare s
  | .poison site => Sys2Proof.Machine.execPoison site s
  | .linkEvent die link code lanes => Sys2Proof.Machine.execLinkEvent die link code lanes s
  | .eventRecordWrite die => Sys2Proof.Machine.execEventRecordWrite die s
  | .pageWalk owner die field va => Sys2Proof.Machine.execPageWalk owner die field va s
  | .shootdown die => Sys2Proof.Machine.execShootdown die s
  | .shootdownDone die => Sys2Proof.Machine.execShootdownDone die s
  | .ownerRetire owner => Sys2Proof.Machine.execOwnerRetire owner s
  | .capDisable owner => Sys2Proof.Machine.execCapDisable owner s
  | .copyPieceRead bench entry => Sys2Proof.Machine.execCopyPieceRead bench entry s
  | .copyPieceDrain bench entry => Sys2Proof.Machine.execCopyPieceDrain bench entry s
  | .atomicPerform id => Sys2Proof.Machine.execAtomicPerform id s
  | .monitorEvaluate id => Sys2Proof.Machine.execMonitorEvaluate id s
  | .waitcTimeout id => Sys2Proof.Machine.execWaitcTimeout id s
  | .lockPerform id => Sys2Proof.Machine.execLockPerform id s
  | .barrierArrival id => Sys2Proof.Machine.execBarrierArrival id s
  | .courseUpdate id => Sys2Proof.Machine.execCourseUpdate id s
  | .spawnPerform id => Sys2Proof.Machine.execSpawnPerform id s
  | .joinPerform id => Sys2Proof.Machine.execJoinPerform id s
  | .caputPerform id => Sys2Proof.Machine.execCaputPerform id s
  | .caCountChange id => Sys2Proof.Machine.execCaCountChange id s
  | .caswapPerform id => Sys2Proof.Machine.execCaswapPerform id s
  | .reclaimRelease => Sys2Proof.Machine.execReclaimRelease s
  | .slui f => Sys2Proof.Machine.execSlui f s
  | .sauipc f => Sys2Proof.Machine.execSauipc f s
  | .saddi f => Sys2Proof.Machine.execSaddi f s
  | .sandi f => Sys2Proof.Machine.execSandi f s
  | .sori f => Sys2Proof.Machine.execSori f s
  | .sxori f => Sys2Proof.Machine.execSxori f s
  | .sslti f => Sys2Proof.Machine.execSslti f s
  | .ssltiu f => Sys2Proof.Machine.execSsltiu f s
  | .sshli f => Sys2Proof.Machine.execSshli f s
  | .sshri f => Sys2Proof.Machine.execSshri f s
  | .ssrai f => Sys2Proof.Machine.execSsrai f s
  | .bra off => Sys2Proof.Machine.execBra off s
  | .call off => Sys2Proof.Machine.execCall off s
  | .brac f => Sys2Proof.Machine.execBrac f s
  | .nop => Sys2Proof.Machine.execNop s
  | .exit => Sys2Proof.Machine.execExit s
  | .ret => Sys2Proof.Machine.execRet s
  | .yield => Sys2Proof.Machine.execYield s
  | .rgn => Sys2Proof.Machine.execRgn s
  | .rcv => Sys2Proof.Machine.execRcv s
  | .trap imm => Sys2Proof.Machine.execTrap imm s
  | .ldShort f => Sys2Proof.Machine.execLdShort f s
  | .stShort f => Sys2Proof.Machine.execStShort f s
  | .lduImm f => Sys2Proof.Machine.execLduImm f s
  | .stuImm f => Sys2Proof.Machine.execStuImm f s
  | .saddBase f => Sys2Proof.Machine.execSaddBase f s
  | .ssubBase f => Sys2Proof.Machine.execSsubBase f s
  | .smulBase f => Sys2Proof.Machine.execSmulBase f s
  | .smulhBase f => Sys2Proof.Machine.execSmulhBase f s
  | .smulhuBase f => Sys2Proof.Machine.execSmulhuBase f s
  | .sdivBase f => Sys2Proof.Machine.execSdivBase f s
  | .sdivuBase f => Sys2Proof.Machine.execSdivuBase f s
  | .sremBase f => Sys2Proof.Machine.execSremBase f s
  | .sremuBase f => Sys2Proof.Machine.execSremuBase f s
  | .sandBase f => Sys2Proof.Machine.execSandBase f s
  | .sorBase f => Sys2Proof.Machine.execSorBase f s
  | .sxorBase f => Sys2Proof.Machine.execSxorBase f s
  | .sshlBase f => Sys2Proof.Machine.execSshlBase f s
  | .sshrBase f => Sys2Proof.Machine.execSshrBase f s
  | .ssraBase f => Sys2Proof.Machine.execSsraBase f s
  | .sminBase f => Sys2Proof.Machine.execSminBase f s
  | .smaxBase f => Sys2Proof.Machine.execSmaxBase f s
  | .sminuBase f => Sys2Proof.Machine.execSminuBase f s
  | .smaxuBase f => Sys2Proof.Machine.execSmaxuBase f s
  | .ssltBase f => Sys2Proof.Machine.execSsltBase f s
  | .ssltuBase f => Sys2Proof.Machine.execSsltuBase f s
  | .sseqBase f => Sys2Proof.Machine.execSseqBase f s
  | .spopcBase f => Sys2Proof.Machine.execSpopcBase f s
  | .sclzBase f => Sys2Proof.Machine.execSclzBase f s
  | .sctzBase f => Sys2Proof.Machine.execSctzBase f s
  | .smovBase f => Sys2Proof.Machine.execSmovBase f s
  | .ssx32Base f => Sys2Proof.Machine.execSsx32Base f s
  | .sadd x => Sys2Proof.Machine.execSadd x s
  | .ssub x => Sys2Proof.Machine.execSsub x s
  | .smul x => Sys2Proof.Machine.execSmul x s
  | .smulh x => Sys2Proof.Machine.execSmulh x s
  | .smulhu x => Sys2Proof.Machine.execSmulhu x s
  | .sdiv x => Sys2Proof.Machine.execSdiv x s
  | .sdivu x => Sys2Proof.Machine.execSdivu x s
  | .srem x => Sys2Proof.Machine.execSrem x s
  | .sremu x => Sys2Proof.Machine.execSremu x s
  | .sand x => Sys2Proof.Machine.execSand x s
  | .sor x => Sys2Proof.Machine.execSor x s
  | .sxor x => Sys2Proof.Machine.execSxor x s
  | .sshl x => Sys2Proof.Machine.execSshl x s
  | .sshr x => Sys2Proof.Machine.execSshr x s
  | .ssra x => Sys2Proof.Machine.execSsra x s
  | .smin x => Sys2Proof.Machine.execSmin x s
  | .smax x => Sys2Proof.Machine.execSmax x s
  | .sminu x => Sys2Proof.Machine.execSminu x s
  | .smaxu x => Sys2Proof.Machine.execSmaxu x s
  | .sslt x => Sys2Proof.Machine.execSslt x s
  | .ssltu x => Sys2Proof.Machine.execSsltu x s
  | .sseq x => Sys2Proof.Machine.execSseq x s
  | .ssel x => Sys2Proof.Machine.execSsel x s
  | .sbfx x => Sys2Proof.Machine.execSbfx x s
  | .sbfi x => Sys2Proof.Machine.execSbfi x s
  | .spopc x => Sys2Proof.Machine.execSpopc x s
  | .sclz x => Sys2Proof.Machine.execSclz x s
  | .sctz x => Sys2Proof.Machine.execSctz x s
  | .smov x => Sys2Proof.Machine.execSmov x s
  | .sidx x => Sys2Proof.Machine.execSidx x s
  | .ssx32 x => Sys2Proof.Machine.execSsx32 x s
  | .vaddBase f => Sys2Proof.Machine.execVaddBase f s
  | .vsubBase f => Sys2Proof.Machine.execVsubBase f s
  | .vmulBase f => Sys2Proof.Machine.execVmulBase f s
  | .vmulhBase f => Sys2Proof.Machine.execVmulhBase f s
  | .vmulhuBase f => Sys2Proof.Machine.execVmulhuBase f s
  | .vmadBase f => Sys2Proof.Machine.execVmadBase f s
  | .vandBase f => Sys2Proof.Machine.execVandBase f s
  | .vorBase f => Sys2Proof.Machine.execVorBase f s
  | .vxorBase f => Sys2Proof.Machine.execVxorBase f s
  | .vshlBase f => Sys2Proof.Machine.execVshlBase f s
  | .vshrBase f => Sys2Proof.Machine.execVshrBase f s
  | .vsraBase f => Sys2Proof.Machine.execVsraBase f s
  | .vminBase f => Sys2Proof.Machine.execVminBase f s
  | .vmaxBase f => Sys2Proof.Machine.execVmaxBase f s
  | .vminuBase f => Sys2Proof.Machine.execVminuBase f s
  | .vmaxuBase f => Sys2Proof.Machine.execVmaxuBase f s
  | .vabsdBase f => Sys2Proof.Machine.execVabsdBase f s
  | .vpopcBase f => Sys2Proof.Machine.execVpopcBase f s
  | .vclzBase f => Sys2Proof.Machine.execVclzBase f s
  | .vmovBase f => Sys2Proof.Machine.execVmovBase f s
  | .vdot4Base f => Sys2Proof.Machine.execVdot4Base f s
  | .vdot8Base f => Sys2Proof.Machine.execVdot8Base f s
  | .vadd x => Sys2Proof.Machine.execVadd x s
  | .vsub x => Sys2Proof.Machine.execVsub x s
  | .vmul x => Sys2Proof.Machine.execVmul x s
  | .vmulh x => Sys2Proof.Machine.execVmulh x s
  | .vmulhu x => Sys2Proof.Machine.execVmulhu x s
  | .vmad x => Sys2Proof.Machine.execVmad x s
  | .vmadw x => Sys2Proof.Machine.execVmadw x s
  | .vand x => Sys2Proof.Machine.execVand x s
  | .vor x => Sys2Proof.Machine.execVor x s
  | .vxor x => Sys2Proof.Machine.execVxor x s
  | .vshl x => Sys2Proof.Machine.execVshl x s
  | .vshr x => Sys2Proof.Machine.execVshr x s
  | .vsra x => Sys2Proof.Machine.execVsra x s
  | .vmin x => Sys2Proof.Machine.execVmin x s
  | .vmax x => Sys2Proof.Machine.execVmax x s
  | .vminu x => Sys2Proof.Machine.execVminu x s
  | .vmaxu x => Sys2Proof.Machine.execVmaxu x s
  | .vabsd x => Sys2Proof.Machine.execVabsd x s
  | .vcmp x => Sys2Proof.Machine.execVcmp x s
  | .vsel x => Sys2Proof.Machine.execVsel x s
  | .vbfx x => Sys2Proof.Machine.execVbfx x s
  | .vbfi x => Sys2Proof.Machine.execVbfi x s
  | .vpopc x => Sys2Proof.Machine.execVpopc x s
  | .vclz x => Sys2Proof.Machine.execVclz x s
  | .vmov x => Sys2Proof.Machine.execVmov x s
  | .vidx x => Sys2Proof.Machine.execVidx x s
  | .vaddc x => Sys2Proof.Machine.execVaddc x s
  | .vperm x => Sys2Proof.Machine.execVperm x s
  | .vsatp x => Sys2Proof.Machine.execVsatp x s
  | .vdot4 x => Sys2Proof.Machine.execVdot4 x s
  | .vdot8 x => Sys2Proof.Machine.execVdot8 x s
  | .vlea x => Sys2Proof.Machine.execVlea x s
  | .faddBase f => Sys2Proof.Machine.execFaddBase f s
  | .fsubBase f => Sys2Proof.Machine.execFsubBase f s
  | .fmulBase f => Sys2Proof.Machine.execFmulBase f s
  | .ffmaBase f => Sys2Proof.Machine.execFfmaBase f s
  | .fminBase f => Sys2Proof.Machine.execFminBase f s
  | .fmaxBase f => Sys2Proof.Machine.execFmaxBase f s
  | .fclassBase f => Sys2Proof.Machine.execFclassBase f s
  | .frndBase f => Sys2Proof.Machine.execFrndBase f s
  | .fdivBase f => Sys2Proof.Machine.execFdivBase f s
  | .fsqrtBase f => Sys2Proof.Machine.execFsqrtBase f s
  | .frcpBase f => Sys2Proof.Machine.execFrcpBase f s
  | .frsqBase f => Sys2Proof.Machine.execFrsqBase f s
  | .fexpBase f => Sys2Proof.Machine.execFexpBase f s
  | .fexp2Base f => Sys2Proof.Machine.execFexp2Base f s
  | .flog2Base f => Sys2Proof.Machine.execFlog2Base f s
  | .fsinpiBase f => Sys2Proof.Machine.execFsinpiBase f s
  | .fcospiBase f => Sys2Proof.Machine.execFcospiBase f s
  | .ftanhBase f => Sys2Proof.Machine.execFtanhBase f s
  | .fsigmBase f => Sys2Proof.Machine.execFsigmBase f s
  | .fgeluBase f => Sys2Proof.Machine.execFgeluBase f s
  | .fsiluBase f => Sys2Proof.Machine.execFsiluBase f s
  | .ferfBase f => Sys2Proof.Machine.execFerfBase f s
  | .fldexpBase f => Sys2Proof.Machine.execFldexpBase f s
  | .ffracBase f => Sys2Proof.Machine.execFfracBase f s
  | .fdot2Base f => Sys2Proof.Machine.execFdot2Base f s
  | .hadd2Base f => Sys2Proof.Machine.execHadd2Base f s
  | .hmul2Base f => Sys2Proof.Machine.execHmul2Base f s
  | .hfma2Base f => Sys2Proof.Machine.execHfma2Base f s
  | .hmin2Base f => Sys2Proof.Machine.execHmin2Base f s
  | .hmax2Base f => Sys2Proof.Machine.execHmax2Base f s
  | .fadd x => Sys2Proof.Machine.execFadd x s
  | .fsub x => Sys2Proof.Machine.execFsub x s
  | .fmul x => Sys2Proof.Machine.execFmul x s
  | .ffma x => Sys2Proof.Machine.execFfma x s
  | .fmin x => Sys2Proof.Machine.execFmin x s
  | .fmax x => Sys2Proof.Machine.execFmax x s
  | .fcmp x => Sys2Proof.Machine.execFcmp x s
  | .fclass x => Sys2Proof.Machine.execFclass x s
  | .frnd x => Sys2Proof.Machine.execFrnd x s
  | .fdiv x => Sys2Proof.Machine.execFdiv x s
  | .fsqrt x => Sys2Proof.Machine.execFsqrt x s
  | .frcp x => Sys2Proof.Machine.execFrcp x s
  | .frsq x => Sys2Proof.Machine.execFrsq x s
  | .fexp x => Sys2Proof.Machine.execFexp x s
  | .fexp2 x => Sys2Proof.Machine.execFexp2 x s
  | .flog2 x => Sys2Proof.Machine.execFlog2 x s
  | .fsinpi x => Sys2Proof.Machine.execFsinpi x s
  | .fcospi x => Sys2Proof.Machine.execFcospi x s
  | .ftanh x => Sys2Proof.Machine.execFtanh x s
  | .fsigm x => Sys2Proof.Machine.execFsigm x s
  | .fgelu x => Sys2Proof.Machine.execFgelu x s
  | .fsilu x => Sys2Proof.Machine.execFsilu x s
  | .ferf x => Sys2Proof.Machine.execFerf x s
  | .fldexp x => Sys2Proof.Machine.execFldexp x s
  | .ffrac x => Sys2Proof.Machine.execFfrac x s
  | .fcvt x => Sys2Proof.Machine.execFcvt x s
  | .fcvti x => Sys2Proof.Machine.execFcvti x s
  | .icvtf x => Sys2Proof.Machine.execIcvtf x s
  | .fpack x => Sys2Proof.Machine.execFpack x s
  | .funpk x => Sys2Proof.Machine.execFunpk x s
  | .fdot2 x => Sys2Proof.Machine.execFdot2 x s
  | .hadd2 x => Sys2Proof.Machine.execHadd2 x s
  | .hmul2 x => Sys2Proof.Machine.execHmul2 x s
  | .hfma2 x => Sys2Proof.Machine.execHfma2 x s
  | .hmin2 x => Sys2Proof.Machine.execHmin2 x s
  | .hmax2 x => Sys2Proof.Machine.execHmax2 x s
  | .qbcstBase f => Sys2Proof.Machine.execQbcstBase f s
  | .stovBase f => Sys2Proof.Machine.execStovBase f s
  | .vtagBase f => Sys2Proof.Machine.execVtagBase f s
  | .vgenBase f => Sys2Proof.Machine.execVgenBase f s
  | .qswap x => Sys2Proof.Machine.execQswap x s
  | .qbcst x => Sys2Proof.Machine.execQbcst x s
  | .gshuf x => Sys2Proof.Machine.execGshuf x s
  | .gshfx x => Sys2Proof.Machine.execGshfx x s
  | .gshfu x => Sys2Proof.Machine.execGshfu x s
  | .gshfd x => Sys2Proof.Machine.execGshfd x s
  | .gvote x => Sys2Proof.Machine.execGvote x s
  | .gbalt x => Sys2Proof.Machine.execGbalt x s
  | .gred x => Sys2Proof.Machine.execGred x s
  | .gscan x => Sys2Proof.Machine.execGscan x s
  | .vtos x => Sys2Proof.Machine.execVtos x s
  | .stov x => Sys2Proof.Machine.execStov x s
  | .vtag x => Sys2Proof.Machine.execVtag x s
  | .vgen x => Sys2Proof.Machine.execVgen x s
  | .pairWord p => Sys2Proof.Machine.execPairWord p s
  | .divb x => Sys2Proof.Machine.execDivb x s
  | .callr x => Sys2Proof.Machine.execCallr x s
  | .jmpr x => Sys2Proof.Machine.execJmpr x s
  | .loop x => Sys2Proof.Machine.execLoop x s
  | .sbrc x => Sys2Proof.Machine.execSbrc x s
  | .kand x => Sys2Proof.Machine.execKand x s
  | .kor x => Sys2Proof.Machine.execKor x s
  | .kxor x => Sys2Proof.Machine.execKxor x s
  | .kandn x => Sys2Proof.Machine.execKandn x s
  | .knot x => Sys2Proof.Machine.execKnot x s
  | .kmov x => Sys2Proof.Machine.execKmov x s
  | .ld x => Sys2Proof.Machine.execLd x s
  | .st x => Sys2Proof.Machine.execSt x s
  | .ldu x => Sys2Proof.Machine.execLdu x s
  | .stu x => Sys2Proof.Machine.execStu x s
  | .ldt x => Sys2Proof.Machine.execLdt x s
  | .stt x => Sys2Proof.Machine.execStt x s
  | .spill x => Sys2Proof.Machine.execSpill x s
  | .fill x => Sys2Proof.Machine.execFill x s
  | .prf x => Sys2Proof.Machine.execPrf x s
  | .cpy x => Sys2Proof.Machine.execCpy x s
  | .cpyt x => Sys2Proof.Machine.execCpyt x s
  | .cpyg x => Sys2Proof.Machine.execCpyg x s
  | .cpys x => Sys2Proof.Machine.execCpys x s
  | .cpyr x => Sys2Proof.Machine.execCpyr x s
  | .cpyw x => Sys2Proof.Machine.execCpyw x s
  | .cpyq x => Sys2Proof.Machine.execCpyq x s
  | .cpyx x => Sys2Proof.Machine.execCpyx x s
  | .caput x => Sys2Proof.Machine.execCaput x s
  | .caget x => Sys2Proof.Machine.execCaget x s
  | .cahash x => Sys2Proof.Machine.execCahash x s
  | .caref x => Sys2Proof.Machine.execCaref x s
  | .carel x => Sys2Proof.Machine.execCarel x s
  | .caswap x => Sys2Proof.Machine.execCaswap x s
  | .caout x => Sys2Proof.Machine.execCaout x s
  | .caprb x => Sys2Proof.Machine.execCaprb x s
  | .atom x => Sys2Proof.Machine.execAtom x s
  | .waitc x => Sys2Proof.Machine.execWaitc x s
  | .qlock x => Sys2Proof.Machine.execQlock x s
  | .qunlk x => Sys2Proof.Machine.execQunlk x s
  | .fence x => Sys2Proof.Machine.execFence x s
  | .promote x => Sys2Proof.Machine.execPromote x s
  | .bar x => Sys2Proof.Machine.execBar x s
  | .lbar x => Sys2Proof.Machine.execLbar x s
  | .csini x => Sys2Proof.Machine.execCsini x s
  | .csarv x => Sys2Proof.Machine.execCsarv x s
  | .cswt x => Sys2Proof.Machine.execCswt x s
  | .csrel x => Sys2Proof.Machine.execCsrel x s
  | .mma x => Sys2Proof.Machine.execMma x s
  | .mlda x => Sys2Proof.Machine.execMlda x s
  | .mldb x => Sys2Proof.Machine.execMldb x s
  | .mcbt x => Sys2Proof.Machine.execMcbt x s
  | .mzero x => Sys2Proof.Machine.execMzero x s
  | .mrd x => Sys2Proof.Machine.execMrd x s
  | .mwr x => Sys2Proof.Machine.execMwr x s
  | .mst x => Sys2Proof.Machine.execMst x s
  | .mcmp x => Sys2Proof.Machine.execMcmp x s
  | .mscl x => Sys2Proof.Machine.execMscl x s
  | .tfetch x => Sys2Proof.Machine.execTfetch x s
  | .spawn x => Sys2Proof.Machine.execSpawn x s
  | .join x => Sys2Proof.Machine.execJoin x s
  | .sget x => Sys2Proof.Machine.execSget x s
  | .sset x => Sys2Proof.Machine.execSset x s
  | .icinv x => Sys2Proof.Machine.execIcinv x s
  | .tarm x => Sys2Proof.Machine.execTarm x s
  | .sleep x => Sys2Proof.Machine.execSleep x s
  | .time x => Sys2Proof.Machine.execTime x s
  | .rte x => Sys2Proof.Machine.execRte x s
  | .pwrq x => Sys2Proof.Machine.execPwrq x s
  | .waitcPerform id => Sys2Proof.Machine.execWaitcPerform id s
  | .icinvDone g => Sys2Proof.Machine.execIcinvDone g s
  | .fieldRampDone f => Sys2Proof.Machine.execFieldRampDone f s
  | .pwrUpdateEnd => Sys2Proof.Machine.execPwrUpdateEnd s
  | .keyWrite fn off size val => Sys2Proof.Machine.execKeyWrite fn off size val s
  | .peerRead owner pa len => Sys2Proof.Machine.execPeerRead owner pa len s

end Sys2Proof.Machine
end

