-- ==== Sys2Proof/Machine/HostAccess.lean ====
section
/-!
DEFINITION. Machine/HostAccess.lean: what comes from outside the module beside events: memory accesses of the host and of peer
modules, with the TCBs as memory shows them (R95, R96), and the acts of the firmware.
-/

namespace Sys2Proof.Machine

open Sys2Proof

/-! ### A TCB as bytes (Table 6-1) -/

def TaskState.code : TaskState → Nat
  | .free => 0
  | .waiting => 1
  | .ready => 2
  | .running => 3
  | .retiring => 4
  | .retired => 5
  | .fused => 6
  | .other n => n

/-- DESIGN CHOICE, log 49. -/
def TaskState.ofCode : Nat → TaskState
  | 0 => .free
  | 1 => .waiting
  | 2 => .ready
  | 3 => .running
  | 4 => .retiring
  | 5 => .retired
  | 6 => .fused
  | n => .other n

def EdgeRec.bytes (e : EdgeRec) : List Byte :=
  leBytes 8 e.handle ++ leBytes 4 e.producer ++ leBytes 4 (e.pslot + e.cslot * 4 + flag e.transient 4 + flag e.keep 5 + flag e.valid 6)

def edgeOf (b : List Byte) : EdgeRec :=
  let f := recField b 12 4
  { handle := recField b 0 8, producer := recField b 8 4, pslot := f % 4, cslot := f / 4 % 4, transient := bit f 4,
    keep := bit f 5, valid := bit f 6 }

def Tcb.bytes (t : Tcb) : List Byte :=
  let flags := flag t.coresident 0 + flag t.spliceOk 1 + flag t.fusedFlag 2 + flag t.spawned 3 + flag t.cancel 4 + flag t.joinable 5
  padTo 0x60 (leBytes 1 t.state.code ++ leBytes 1 t.prio ++ leBytes 2 t.preds ++ leBytes 2 flags ++ leBytes 1 t.refusal ++
    leBytes 1 t.fault ++ leBytes 8 t.succAddr ++ leBytes 4 t.succCnt ++ leBytes 2 t.queue ++
    leBytes 2 0 ++ leBytes 4 t.seq ++ leBytes 4 t.fusedWith ++ leBytes 8 t.kdesc ++ leBytes 8 t.args ++ leBytes 4 t.tiles ++
    leBytes 4 t.tshape ++ leBytes 1 t.fmask ++ leBytes 1 0 ++ leBytes 2 t.curClass ++ leBytes 4 t.parent ++ leBytes 4 t.parentBlk ++
    leBytes 4 t.blkLeft ++ leBytes 8 t.readyGtc ++ leBytes 8 t.retireGtc) ++
  padTo 160 (t.edges.flatMap EdgeRec.bytes)

/-- The TCB that written bytes stand for (R95). -/
def Tcb.ofBytes (t : Tcb) (b : List Byte) : Tcb :=
  let u (o n : Nat) : Nat := recField b o n
  { t with
    state := TaskState.ofCode (u 0 1), prio := u 1 1 % 8, preds := u 2 2, coresident := bit (u 4 2) 0,
    spliceOk := bit (u 4 2) 1, fusedFlag := bit (u 4 2) 2, spawned := bit (u 4 2) 3, cancel := bit (u 4 2) 4,
    joinable := bit (u 4 2) 5, refusal := u 6 1, fault := u 7 1, succAddr := u 8 8, succCnt := u 0x10 4, queue := u 0x14 2 % 128,
    seq := u 0x18 4, fusedWith := u 0x1C 4, kdesc := u 0x20 8, args := u 0x28 8, tiles := u 0x30 4, tshape := u 0x34 4,
    fmask := u 0x38 1, curClass := u 0x3A 2, parent := u 0x3C 4, parentBlk := u 0x40 4, blkLeft := u 0x44 4,
    readyGtc := u 0x48 8, retireGtc := u 0x50 8,
    edges := (List.range 4).map fun i => edgeOf ((b.drop (0x60 + 16 * i)).take 16) }

/-- The task whose TCB a physical address lies in, and the offset there. -/
def State.tcbAt (s : State) (pa : Nat) : Option (Nat × Nat) :=
  [0, 1].findSome? fun d =>
    let base := (s.die d).tcbPool
    if (s.die d).poolUp && base ≤ pa && pa < base + poolBytes then some (d * 2 ^ 20 + (pa - base) / 256, (pa - base) % 256) else none

/-! ### Memory accesses from outside -/

/-- A byte as system software reads it through the physical function: of a TCB, or of memory without a key.
DEDUCED, log 48. -/
def State.hostByte (s : State) (pa : Nat) : Byte :=
  match s.tcbAt pa with
  | some (t, o) => (s.tcb t).bytes.getD o 0
  | none => s.readByte none pa

def State.hostReadPa (s : State) (pa size : Nat) : State :=
  { s with reply := s.reply ++ [{ off := pa, value := some (leNat ((List.range size).map fun i => s.hostByte (pa + i))) }] }

/-- A byte of a TCB written by system software; the dispatcher reads another descriptor or other arguments of a task that it has
still to place. -/
def State.writeTcbByte (s : State) (t o : Nat) (b : Byte) : State :=
  let old := s.tcb t
  let new := old.ofBytes (putAt old.bytes o [b])
  s.setTcb t (if old.placed = 0 && (new.kdesc ≠ old.kdesc || new.args ≠ old.args) then { new with kernel := none } else new)

/-- System software writes memory. -/
def State.hostWrite (s : State) (pa : Nat) (bytes : List Byte) : State :=
  if s.paMalformed pa then s
  else match s.tcbAt pa with
    | some (t, o) => bytes.zipIdx.foldl (fun s b => if o + b.2 < 256 then s.writeTcbByte t (o + b.2) b.1 else s) s
    | none => s.performBytes none pa bytes

/-- A write of a peer module performs here under this module's key for the owner (R287, R293). DEDUCED, log 104. -/
def State.peerWrite (s : State) (owner pa : Nat) (bytes : List Byte) : State :=
  if s.paMalformed pa || paModule pa ≠ s.domid || paClass pa = 2 then s else s.performBytes (some (s.keyOf owner)) pa bytes

/-! ### The firmware -/

/-- R132: BATCH is 8 to 256. -/
def State.setBatch (s : State) (die v : Nat) : State :=
  if 8 ≤ v && v ≤ 256 then s.setDie die { (s.die die) with batch := v } else s

/-- A new mean current of a field. -/
def State.measure (s : State) (f v : Nat) : State := s.modField f fun x => { x with cur := v }.judge s.gtc

/-- A move that is no event. DESIGN CHOICE, log 116. -/
def State.move (s : State) : Move → State
  | .event _ => s
  | .hostWrite pa bytes => s.hostWrite pa bytes
  | .peerWrite owner pa bytes => s.peerWrite owner pa bytes
  | .hostRead _ off size => s.hostRead off size
  | .hostReadPa pa size => s.hostReadPa pa size
  | .firmwareBatch die v => s.setBatch die v
  | .measureCurrent f v => s.measure f v
  | .measureInput v => { s with inputPower := v }
  | .prefetch g va => s.prefetch g va
  | .absent ms => { s with absentModules := ms }
  | .peerKey m owner k => { s with peerKeys := tput s.peerKeys (65536 * m + owner) k }
  | .peerWindow m w => s.setPeerWindow m w
  | .firmwareWindow w => s.setWindow (w % 512)
  | .evict f c page => { s with tlb := s.tlb.filter fun e => !(e.field = f && e.core = c && e.page ≤ page && page < e.page + e.npages) }
  | .hostLink down => { s with hostDown := down }
  | .serveWatchdog => { s with watchdog := s.gtc, hung := false }
  | .updateEnd => s.after execPwrUpdateEnd

end Sys2Proof.Machine
end

