-- ==== Sys2Proof/Machine/Schedule.lean ====
section
/-!
DEFINITION. Machine/Schedule.lean: what the next step does.  In each mc: the inputs whose GTC has come, in order; then every
event that is due; then the issues, as R166 and R170 choose them; then the mc passes.
-/

namespace Sys2Proof.Machine

open Sys2Proof

noncomputable section

/-- What a step does: run an event, issue an instruction of a group, or go to a state. -/
inductive Choice where
  | event (i : Instr) (s : State)
  | issue (i : Instr) (g : GroupRef) (words : List W32) (s : State)
  | done (s : State)
  deriving DecidableEq, Repr

/-- The first input whose GTC has come, and the others. -/
def takeMove (gtc : Nat) : List (Nat × Move) → Option (Move × List (Nat × Move))
  | [] => none
  | m :: rest => if m.1 ≤ gtc then some (m.2, rest) else (takeMove gtc rest).map fun p => (p.1, m :: p.2)

/-- An input is made; an event is one of the device's, not an instruction. -/
def State.input (s : State) : Option Choice :=
  (takeMove s.gtc s.agenda).map fun m =>
    let t := { s with agenda := m.2 }
    match m.1 with
    | .event i => if (encode i).isEmpty then .event i t else .done t
    | m => .done (t.move m)

/-! ### Events that are due -/

/-- A list of numbers' first with a property, as an event. -/
def dueAt (l : List Nat) (p : Nat → Bool) (i : Nat → Instr) (s : State) : Option Choice := (l.find? p).map fun n => Choice.event (i n) s

/-- The first of a list of attempts that comes to something. -/
def firstOf : List (Unit → Option Choice) → Option Choice
  | [] => none
  | f :: fs =>
    match f () with
    | some c => some c
    | none => firstOf fs

/-- A choice where a condition holds. -/
def when (b : Bool) (c : Choice) : Option Choice := if b then some c else none

/-- Squash messages that arrive, and sensor reports: within an mc they come before any commit (R411). DEDUCED, log 155. -/
def State.dueReport (s : State) : Option Choice :=
  firstOf [fun _ => (s.messages.find? fun d => d.2.due ≤ s.gtc).map fun d => .done (s.takeMessage d),
    fun _ => (s.cells.find? fun c => c.2.inject.any fun t => t ≤ s.gtc).map fun c => Choice.event (.sensorReport ⟨c.1 / 512, c.1 % 512⟩) s]

/-- Registers of the power system, throttling, and cells whose counts fall. -/
def State.duePower (s : State) : Option Choice :=
  firstOf [fun _ => dueAt (s.fields.map fun f => f.1) (fun f => (s.field f).ramping.any fun t => t ≤ s.gtc) (fun f => .fieldRampDone f) s,
    fun _ => dueAt (s.fields.map fun f => f.1) (fun f => f < 8 && (s.field f).rampAsked && s.rampClear f) (fun f => .fieldPowerUp f) s,
    fun _ => (s.fields.find? fun f => !s.hung && f.2.inrushUntil.any fun t => t ≤ s.gtc).map fun f => Choice.done (s.returnInrush f.1),
    fun _ => dueAt (s.fields.map fun f => f.1)
    (fun f => f < 8 && (s.field f).eff ≤ (s.field f).cur && !(s.field f).tripped) (fun f => .fieldTrip f) s,
    fun _ => dueAt (s.fields.map fun f => f.1)
    (fun f => (s.field f).tripped && (s.field f).lowSince.any fun t => t + 10000 ≤ s.gtc) (fun f => .fieldTripRelease f) s,
    fun _ => dueAt allBenches (fun b => (s.throttleDue b).isSome) (fun b => .throttleEdge b) s,
    fun _ => (s.cells.find? fun c => (recent s.gtc c.2.events).length < c.2.events.length).map fun c =>
    Choice.event (.cellCountDecay ⟨c.1 / 512, c.1 % 512⟩) s]

/-- The ends of waits: sleepers, ICINV, timed-out heads. -/
def State.dueWaits (s : State) : Option Choice :=
  s.groups.findSome? fun g =>
    (match g.wait with
     | .sleep wake => when (wake ≤ s.gtc) (.event (.sleepWake g.ref) s)
     | .icinv wake _ _ => when (wake ≤ s.gtc) (.event (.icinvDone g.ref) s)
     | _ => none)
    |>.orElse fun _ => when (g.timedOut s) (.event (.regionTimeoutHead g.ref) s)

/-- Commits, results, closes, rows of matrix stores, drains. -/
def State.dueRegions (s : State) : Option Choice :=
  firstOf [fun _ => ((s.groups.find? fun g => (g.commitDue s).isSome).map fun g => Choice.event (.regionCommit g.ref) s),
    fun _ => (s.fills.find? s.fillDue).map fun f => Choice.event (.registerFill f.id) s,
    fun _ => (s.groups.find? fun g => g.closable s).map fun g => Choice.event (.regionClose g.ref) s,
    fun _ => ((s.cores.map fun c => c.1).find? fun c => ((s.core c).rowDue s c).isSome).map fun c => .done (s.takeRow c),
    fun _ => (s.entries.find? s.drainDue).map fun q =>
    Choice.event (if q.phase = 1 then .taggedHoldEnd q.id else .storeDrain q.id) s]

/-- The event in which a request performs. -/
def Pending.choice (p : Pending) (s : State) : Choice :=
  match p.req with
  | .atom .. => .event (.atomicPerform p.id) s
  | .waitc .. => .event (.waitcPerform p.id) s
  | .qlock .. | .qunlk .. => .event (.lockPerform p.id) s
  | .bar .. | .lbar .. => .event (.barrierArrival p.id) s
  | .csarv .. | .csrel .. => .event (.courseUpdate p.id) s
  | .spawn .. => .event (.spawnPerform p.id) s
  | .join _ => .event (.joinPerform p.id) s
  | .caput .. => .event (.caputPerform p.id) s
  | .caref _ | .carel _ => .event (.caCountChange p.id) s
  | .caswap .. => .event (.caswapPerform p.id) s
  | .copyStop .. | .emptyCopy .. => .done (s.dropPending p.id)

/-- It would be held where it stands: no room in the overflow area (R379), or none in the save pool for a JOIN. -/
def State.heldThere (s : State) (p : Pending) : Bool :=
  match p.req with
  | .waitc _ pa _ _ _ _ _ _ _ => p.waited && (s.syncRoom false pa).isNone
  | .qlock _ pa _ => p.waited && (s.syncRoom true pa).isNone && (s.lockAt (s.ownerOf p.g) pa).isNone
  | .join _ =>
    match s.block? (blockOf p.g) with
    | some b => !(b.children = 0 && b.joins.isEmpty) && b.state = .placed && (s.stopToSave b.ref 2).isNone
    | none => false
  | _ => false

/-- R380: the order of requests that may perform: by their GTC, of the own die 24 mc from the commit, then the GTC of issue, the
issuing core's source number, and $gid. -/
def State.requestKey (s : State) (p : Pending) : List Nat :=
  (if (s.cellsOf p.g p.req).any fun c => s.nearBy p.g (s.cellPa c) then p.commit + 24 else p.due.getD 0) :: (s.commitKey p).drop 1

def State.dueRequests (s : State) : Option Choice :=
  firstOf [fun _ => (leastBy s.requestKey (s.pendings.filter fun p => s.mayPerform p && !s.heldThere p)).map fun p => p.choice s,
    fun _ => (s.monitors.find? fun m => m.dirty).map fun m => Choice.event (.monitorEvaluate m.id) s,
    fun _ => when (!s.reclaim.isEmpty) (.done (s.after execReclaimRelease))]

/-- WAITC timeouts, behind every write of their mc (R386). -/
def State.dueTimeouts (s : State) : Option Choice :=
  (s.monitors.find? fun m => m.deadline.any fun t => t ≤ s.gtc).map fun m => Choice.event (.waitcTimeout m.id) s

def State.dueCopies (s : State) : Option Choice :=
  firstOf [fun _ => (dueAt (s.copies.map fun c => c.1) (fun c => s.pulse (c / 64) && s.drainReady (c / 64) (c % 64)) (fun c => .copyPieceDrain (c / 64) (c % 64)) s),
    fun _ => dueAt (s.copies.map fun c => c.1)
    (fun c => s.pulse (c / 64) && s.pieceReady (c / 64) (c % 64) && !s.pieceBehind (c / 64) (c % 64))
    (fun c => .copyPieceRead (c / 64) (c % 64)) s]

/-- What a queue's packet in flight comes to. -/
def State.duePacket (s : State) (n : Nat) : Option Choice :=
  match (s.queue n).inflight with
  | [] => none
  | p :: _ =>
    let on (i : Instr) : Option Choice := some (.event i s)
    if !(s.queue n).en || s.gtc < p.parseEnd then none
    else if p.commitAt.isNone then on (.packetPerform n)
    else if !p.committed s.gtc || p.sent.any (fun t => s.gtc < t) then none
    else if p.fault ≠ 0 || p.done || p.skip then on (.packetPerform n)
    else match p.type with
      | 0 => on (.nopPacket n)
      | 1 => on (.write n)
      | 2 => if !(s.queue n).stalled then on (.launch n) else if s.launchRoom n then on (.parserStallResume n) else none
      | 3 => on (.edge n)
      | 4 => on (.ib n)
      | 5 => on (.pred n)
      | 6 => on (.loopPacket n)
      | 7 =>
        if p.watch.isNone then on (.wait n)
        else if p.reevaluateDue s.gtc then on (.waitReevaluate n)
        else if p.waitUntil.any fun t => t ≤ s.gtc then on (.waitTimeout n)
        else none
      | 8 => if bodyWord p.body 4 % 4 = 1 && !s.launchesRetired n then none else on (.signal n)
      | 9 => on (.fetchFence n)
      | 10 => on (.timestamp n)
      | 11 =>
        match s.checkpoints.find? fun c => c.queue = n with
        | some c => if s.checkpointDue c then on (.checkpointDone n) else none
        | none => if s.launchesRetired n then on (.checkpoint n) else none
      | _ => on (.owner n)

/-- The queues and the front end. -/
def State.dueFront (s : State) : Option Choice :=
  firstOf [fun _ => (when (s.drone.recovering.any fun t => t ≤ s.gtc) (.event .droneRecoveryEnd s)),
    fun _ => s.queues.findSome? fun q => s.duePacket q.1,
    fun _ => dueAt [0, 1] (fun d => (s.parseChoice d).isSome) (fun d => .packetParse d) s]

/-- What a die's dispatcher does: place or end a task, resume a block, or note that it passed a task over. -/
def State.duePlace (s : State) (die : Nat) : Option Choice :=
  let (pick, passed, _) := s.dispatchDie die
  match pick with
  | some (c, _) =>
    match c.resume with
    | none => some (.event (.placeBlock die) s)
    | some r => some (.event (.blockResume r) s)
  | none => when (passed.any fun t => (s.tcb t).passedSince.isNone) (.event (.placeBlock die) s)

/-- A request of PCTL has something to do. -/
def State.duePctl (s : State) (die : Nat) : Option Choice :=
  let d := s.die die
  let t := s.tcb d.runTask
  if d.pctlDone || s.drone.recovering.isSome then none
  else if d.runOp = 1 then
    when (!d.pctlBegun || s.preemptDone die) (.event (.preempt die) s)
  else
    when (dieOfTask d.runTask ≠ die || 2 ^ 21 ≤ d.runTask || !d.pctlBegun || t.state ≠ .running) (.event (.kill die) s)

/-- What stops blocks to be saved, which R434 places with the reports of its mc, before any commit: requests of PCTL, unmet
reservations, and JOINs. -/
def State.dueStops (s : State) : Option Choice :=
  firstOf [fun _ => (s.duePctl 0).orElse fun _ => s.duePctl 1,
    fun _ => (s.tcbs.find? fun t => s.reservationUnmet t.1 &&
      (s.victims t.1).head?.any fun b => (s.stopAll 1 (s.withCoresident b)).isSome).map fun t => Choice.event (.reservationPreempt t.1) s,
    fun _ => (s.pendings.find? fun p => (match p.req with | .join _ => true | _ => false) && s.mayPerform p && !s.heldThere p).map
      fun p => p.choice s]

/-- Tasks, blocks and the dispatcher. -/
def State.dueTasks (s : State) : Option Choice :=
  firstOf [fun _ => ((s.blocks.find? s.saveReady).map fun b => Choice.event (.saveComplete b.ref) s),
    fun _ => (s.blocks.find? s.blockEnds).map fun b => Choice.event (.blockEnd b.ref) s,
    fun _ => (if s.drone.recovering.isSome then none else ((s.die 0).retireQueue ++ (s.die 1).retireQueue).head?).map fun t =>
      Choice.event (.taskRetire t) s,
    fun _ => (s.tcbs.find? fun t => t.2.splicing).map fun t => Choice.event (.spliceDecision t.1) s,
    fun _ => (s.tcbs.find? fun t => t.2.reservationDue s.gtc).map fun t => Choice.event (.reservation t.1) s,
    fun _ => (s.duePlace 0).orElse fun _ => s.duePlace 1,
    fun _ => s.tcbs.findSome? fun t =>
      ([0, 1].find? fun d => s.refillDue t.1 d || s.refillWanted t.1 d).map fun d => Choice.event (.dispenserRefill t.1 d) s]

/-- Event rings, shootdowns, owners. -/
def State.dueSystem (s : State) : Option Choice :=
  firstOf [fun _ => (dueAt [0, 1] s.recordDue (fun d => .eventRecordWrite d) s),
    fun _ => dueAt [0, 1] s.shootdownDue (fun d => .shootdownDone d) s,
    fun _ => dueAt (s.owners.map fun o => o.1) s.ownerRetireDue (fun o => .ownerRetire o) s]

/-! ### Issue (R166, R169-R171) -/

/-- The functions of Table 9-4's special class, by FN of MAJ 6 and 18. -/
def isSpecialFn (fn : Nat) : Bool := 9 ≤ fn && fn ≤ 22

/-- Table 9-4, from the shape and the passes of its result: one for U, two for A. DEDUCED, log 28, 109. -/
def Shape.weight (passes : Nat) : Shape → Nat
  | .pair _ => 14
  | .bm .. | .um .. => 8
  | .base maj fn _ | .ext maj fn _ =>
    match maj with
    | 5 | 17 => if passes = 1 then 1 else if passes = 2 then 2 else 6
    | 6 | 18 => if passes = 1 then 1 else if passes = 2 then 2 else if isSpecialFn fn then 10 else 8
    | 7 | 19 => if passes = 1 then 1 else if passes = 2 then 2 else 8
    | 21 | 24 => 8
    | 23 => if fn = 6 then 4 else 8
    | 22 | 25 => 4
    | _ => 1
  | _ => 1

def wordsWeight (ws : List W32) (passes : Nat) : Nat :=
  match checkShape Limits.all ws with
  | .ok sh => Shape.weight passes sh
  | .bad _ => 1

/-- What a group would issue: a trap at the fetch or the decoding of its next instruction, or the instruction. -/
inductive Turn where
  | trap (s : State)
  | run (i : Instr) (words : List W32) (s : State)
  deriving DecidableEq, Repr

/-- Fetch and decode the next instruction of a group, against the counts of the kernel whose code runs (R22). -/
def State.turn (s : State) (g : Group) (b : Block) : Turn :=
  match fetchInstr s b g.core g.arch.pc with
  | .error (t, s1) => .trap (trapAt s1 g b t)
  | .ok (ws, s1) =>
    match decodeWith (limitsAt b g.arch) ws with
    | .bad d => .trap (trapAt s1 g b (Defect.trap d))
    | .ok i => .run i ws { s1 with cur := some g.ref }

/-- YH of an instruction (Table 3-10): none in interlocked mode (R41). -/
def Block.hint (b : Block) (ws : List W32) : Nat :=
  match checkShape Limits.all ws with
  | .ok (.ext _ _ x) => if b.kernel.ilk then 0 else x.yh.toNat
  | _ => 0

/-- The group has issued: its lane is busy for this mc at least, and its bench pays. -/
def State.settle (s : State) (r : GroupRef) (ws : List W32) : State :=
  match s.group? r with
  | none => s
  | some g =>
    if g.wait = .empty then s.setGroup { g with tried := some s.gtc }
    else
      let bench := benchOfCore g.core
      let busy := max g.busyUntil (s.effCycles bench + 1)
      (s.setGroup { g with
        lastIssue := s.gtc, busyUntil := busy, tried := none, withheldSince := none,
        hint := match s.block? (blockOf r) with | some b => b.hint ws | none => 0 }).debit bench
        (wordsWeight ws (busy - s.effCycles bench))

/-- Run an instruction and see what state it leaves. -/
def State.tryRun (s : State) (i : Instr) : State := s.after (exec i)

/-- A candidate: its group and block, what it would do, whether it would wait, and its weight. -/
structure Offer where
  g : Group
  b : Block
  turn : Turn
  waits : Bool
  weight : Nat
  deriving DecidableEq, Repr

def State.offer (s : State) (g : Group) (b : Block) : Offer :=
  let turn := s.turn g b
  match turn with
  | .trap t => { g, b, turn, waits := (t.group? g.ref).any fun h => h.wait = .empty, weight := 1 }
  | .run i ws t =>
    match (t.tryRun i).group? g.ref with
    | some h => { g, b, turn, waits := h.wait = .empty, weight := wordsWeight ws (max 1 (h.busyUntil - s.effCycles (benchOfCore g.core))) }
    | none => { g, b, turn, waits := false, weight := 1 }

/-! ### Lanes and deliveries -/

/-- The next instruction of a group could issue now. -/
def State.couldIssue (s : State) (g : Group) : Bool :=
  match s.block? (blockOf g.ref) with
  | some b => b.state = .placed && !(s.offer g b).waits
  | none => false

/-- R165: a pending group is ready when its next instruction could issue, or a trap other than THROTTLE, which waits for that, is
due before it. -/
def State.readyNow (s : State) (g : Group) : Bool :=
  !g.ended && !g.doomed && g.busyUntil ≤ s.effCycles (benchOfCore g.core) &&
    (match g.wait with | .sleep _ | .icinv .. => false | _ => true) &&
    ((s.trapDue g && g.nextTrap.all fun t => t.code ≠ 32) || s.couldIssue g)

/-- A pending group that becomes ready, or is so no longer. -/
def State.readyChange (s : State) : Option Choice :=
  (s.groups.find? fun g => !g.active && g.readySince.isSome ≠ s.readyNow g).map fun g =>
    .done (s.modGroup g.ref fun x => { x with readySince := if s.readyNow g then some s.gtc else none })

/-- Lanes that change hands. -/
def State.dueSwaps (s : State) : Option Choice :=
  let cores := (s.groups.filter fun g => !g.active).map fun g => g.core
  firstOf [fun _ => s.readyChange,
    fun _ => dueAt cores (fun c => (s.swap c).isSome) (fun c => .groupSwap c) s,
    fun _ => dueAt cores (fun c => (s.forced c).isSome) (fun c => .forcedSwap c) s]

/-- Traps that no instruction raises, delivered before the next instruction of an active group; THROTTLE when the group
would next issue (R175). -/
def State.dueTraps (s : State) : Option Choice :=
  (s.groups.find? fun g => g.active && s.trapDue g && ((g.nextTrap.all fun t => t.code ≠ 32) || s.couldIssue g)).map
    fun g => Choice.event (.trapEntry g.ref) s

/-- The first event that is due. -/
def State.dueEvent (s : State) : Option Choice :=
  firstOf [fun _ => s.dueReport,
    fun _ => s.dueStops,
    fun _ => s.duePower,
    fun _ => s.dueWaits,
    fun _ => s.dueRegions,
    fun _ => s.dueRequests,
    fun _ => s.dueCopies,
    fun _ => s.dueFront,
    fun _ => s.dueTimeouts,
    fun _ => s.dueTasks,
    fun _ => s.dueSystem,
    fun _ => s.dueSwaps,
    fun _ => s.dueTraps]

/-- An active group that its core may choose in this mc. -/
def Group.eligible (g : Group) (gtc cycle : Nat) : Bool :=
  g.active && !g.ended && !g.doomed && g.busyUntil ≤ cycle && g.tried ≠ some gtc && g.withheldAt ≠ some gtc &&
    (match g.wait with | .ready | .empty | .yield => true | _ => false)

/-- The slots of the mc that a core has used: issues, and issues withheld. -/
def State.slotsUsed (s : State) (core : Nat) : Nat :=
  (s.groups.filter fun g => g.core = core && ((g.lastIssue = s.gtc && s.effCycles (benchOfCore core) < g.busyUntil) || g.withheldAt = some s.gtc)).length

/-- R166: a core's order: the least recent issue first, then matrix-role groups, then the lowest group number; under YH 1 the
other groups come first in the slot that follows. DESIGN CHOICE, log 105. -/
def Group.choiceKey (g : Group) (cycle : Nat) : List Nat :=
  [if g.hint % 2 = 1 && g.busyUntil = cycle then 1 else 0, g.lastIssue, if g.role = 1 then 0 else 1, g.ref.gid, g.ref.task,
    g.ref.bid]

/-- A core's choice. -/
def State.coreChoice (s : State) (core : Nat) : List Group :=
  let cycle := s.effCycles (benchOfCore core)
  (sortBy (fun a b => keysLt (a.choiceKey cycle) (b.choiceKey cycle))
    ((s.residents core).filter fun g => g.eligible s.gtc cycle)).take (2 - s.slotsUsed core)

/-- What a bench's cores offer in this mc. -/
def State.offers (s : State) (bench : Nat) : List Offer :=
  if s.pulse bench then
    (codes (4 * bench) 4).flatMap fun c => (s.coreChoice c).filterMap fun g => (s.block? (blockOf g.ref)).map fun b => s.offer g b
  else []

/-- Its candidate was withheld in the last effective cycle. -/
def Group.stillWithheld (g : Group) (cycle : Nat) : Bool := g.withheldSince.isSome && cycle ≤ g.withheldLast + 1

/-- R170: withheld for 32 consecutive effective cycles. -/
def State.longWithheld (s : State) (g : Group) : Bool :=
  let cycle := s.effCycles (benchOfCore g.core)
  g.stillWithheld cycle && g.withheldSince.any fun e => e + 32 ≤ cycle

/-- R170: the order in which a bench pays. -/
def State.payKey (s : State) (o : Offer) : List Nat :=
  if s.longWithheld o.g then [0, o.g.withheldSince.getD 0, o.g.core]
  else [1, 7 - (s.tcb o.g.ref.task).prio, o.weight, o.g.core]

/-- A candidate is withheld, and after one of the first class all the others. -/
def State.withhold (s : State) (bench : Nat) (os : List Offer) : State :=
  let s1 := os.foldl (fun s o => s.modGroup o.g.ref fun g => { g with
    withheldAt := some s.gtc, withheldLast := s.effCycles bench,
    withheldSince := if g.stillWithheld (s.effCycles bench) then g.withheldSince else some (s.effCycles bench) }) s
  s1.modBench bench fun b => b.withholds s.gtc

def Offer.choice (o : Offer) : Choice :=
  match o.turn with
  | .trap t => .done (t.settle o.g.ref [])
  | .run i ws t => .issue i o.g.ref ws t

/-- The next of a bench's offers: one that would wait is found to; else the first in the order of R170 pays or is withheld. -/
def State.pay (s : State) (bench : Nat) (os : List Offer) : Option Choice :=
  match os.find? fun o => o.waits with
  | some o => some o.choice
  | none =>
    match sortBy (fun a b => keysLt (s.payKey a) (s.payKey b)) os with
    | [] => none
    | o :: rest =>
      if o.weight ≤ s.allowNow bench then some o.choice
      else some (.done (s.withhold bench (if s.longWithheld o.g then o :: rest else [o])))

/-- The benches of active groups. -/
def State.activeBenches (s : State) : List Nat :=
  allBenches.filter fun b => s.groups.any fun g => g.active && benchOfCore g.core = b

def State.dueIssue (s : State) : Option Choice := s.activeBenches.findSome? fun b => s.pay b (s.offers b)

/-! ### Time -/

/-- The mc passes: each engine with rungs does its quarter-cycles on the pulse (R172). -/
def State.tick (s : State) : State :=
  { s with
    gtc := s.gtc + 1, reported := [],
    cores := s.cores.map fun c => if s.pulse (benchOfCore c.1) then (c.1, { c.2 with jobs := workOff c.2.rungs c.2.jobs }) else c }

/-- The reports of this mc strike what has begun in it. -/
def State.dueStrike (s : State) : Option Choice :=
  (s.reported.find? fun d => s.strikesAgain d.1 d.2.cell).map fun d => .done (s.strike d.1 d.2)

/-- The slew step of an mc sees the requests of its issues (R172). -/
def State.dueSlew (s : State) : Option Choice := when s.slewDue (.event .slewStep s)

/-- What the next step does. DESIGN CHOICE, log 6. -/
def State.choose (s : State) : Choice :=
  (s.input.orElse fun _ => s.dueEvent.orElse fun _ => s.dueIssue.orElse fun _ => s.dueSlew.orElse fun _ => s.dueStrike).getD (.done s.tick)

/-- Each step draws its free values anew. DESIGN CHOICE, log 3. -/
def State.draw (s : State) : State := { s with freeCtr := s.freeCtr + 1 }

end

end Sys2Proof.Machine
end

