-- ==== Sys2Proof/Machine/Step.lean ====
section
/-!
DEFINITION. Machine/Step.lean: one step of the machine, and the placing of an instruction where the next step fetches.
-/

namespace Sys2Proof.Machine

open Sys2Proof

noncomputable section

/-- What follows the outcome of a choice. -/
def andThen (o : Host.Outcome State Fault Refusal) (f : State → State) : Host.Outcome State Fault Refusal :=
  match o with
  | .next s => .next (f s)
  | .fault r => .fault r
  | .refused r => .refused r

/-- One step: an event, an instruction of the group that the schedule chooses, or the passing of time. DEDUCED, log 106. -/
def step (s : State) : Host.Outcome State Fault Refusal :=
  match s.choose with
  | .event i t => andThen (exec i t) State.draw
  | .issue i r ws t => andThen (exec i t) fun u => (u.settle r ws).draw
  | .done t => .next t.draw

/-- An instruction in the first bytes of a page of text that a block of one group is about to run: the text and its
translation, a task with its one block placed on core 0, and the group in a lane. DEDUCED, log 4. -/
def State.withFetchWord (s : State) (nbits w : Nat) : State :=
  let pa := s.domid * 2 ^ 48 + 65536
  let ref : GroupRef := ⟨0, 0, 0⟩
  let kernel : Kernel := { desc := 65536, textBase := 65536, textSize := 65536, spillSz := 0 }
  let s1 := s.setOwner 0 { (s.owner 0) with en := true }
  let s2 := s1.writeBytes (some (s1.keyOf 0)) pa ((tableBytes nbits w ++ List.replicate 12 0).take 32)
  let s3 := s2.setTcb 0 { state := .running, tiles := 1, tshape := 65537, fmask := 1, blocks := 1, placed := 1, blkLeft := 1,
                          kernel := some kernel, counter := 64, spent := [0], stock := [(0, [0])] }
  { s3 with
    agenda := [],
    tlb := [{ owner := 0, field := 0, page := 1, npages := 1, pa, r := false, w := false, x := true, ca := false }],
    blocks := [{ ref := blockOf ref, kernel }],
    groups := [{ ref, launched := BitVec.allOnes 32, arch := { run := BitVec.allOnes 32, pc := 65536 } }] }

end

end Sys2Proof.Machine
end

