-- ==== Sys2Proof/Safety.lean ====
section
/-!
DEFINITION. Safety.lean: the terms in which claims are made: when a group may issue, what an issue sees, what an outcome
leaves of a state, and what it leaves alone.
-/

namespace Sys2Proof.Machine

open Sys2Proof

/-- The canonical form of memory: addresses strictly rising, so that equal memories are equal lists.  An unlisted address
has never been written (R293), so no listed byte equals what it reads as. DEDUCED, log 107. -/
def Memory.wf (m : List Host.Cell) : Bool := Table.sorted m

/-- `g`, of block `b`, issues the next instruction, and nothing that comes before its operands holds it back. -/
structure Ready (i : IssueInfo) (s : State) (g : Group) (b : Block) : Prop where
  group : s.cur.bind s.group? = some g
  block : s.block? (blockOf g.ref) = some b
  alive : g.ended = false
  sound : g.doomed = false
  placed : b.state = .placed
  /-- at most four regions are uncommitted (R305) -/
  regions : g.opensFor i = true → g.regions.length < 4
  /-- its role may issue the instruction (R73) -/
  role : ∀ r, i.role = some r → g.role = r
  /-- no closing operation holds its memory accesses (R307) -/
  waiting : (i.reads || i.writes || i.mem) = true → g.memHeld s = false
  /-- no PROMOTE holds it (R391) -/
  unstalled : g.stall = none
  /-- no FENCE holds its reads (R369) -/
  fenced : i.reads = true → (envBefore i s g b).readHeld = false

/-- The rename pool of the core holds what the group's regions will have written (R162). -/
def Room (s : State) (g g' : Group) : Prop := g'.renameUse + s.renameUsed g.core g.ref ≤ s.renamePool g.core

/-- The group as an issue leaves it that writes the registers of the codes `w`, whose registers are then `a`. -/
def Group.wrote (g : Group) (a : Arch) (w : List Nat) : Group :=
  { g with arch := a, regions := modLast (fun r => w.foldl Region.note r) g.regions }

/-- Everything outside the groups and blocks is as in `s`, and so are every other group and every block. -/
structure Apart (s t : State) (r : GroupRef) : Prop where
  rest : { t with groups := s.groups, blocks := s.blocks } = s
  groups : ∀ q, q ≠ r → t.group? q = s.group? q
  blocks : ∀ q, t.block? q = s.block? q

/-- What an issue may change of a group beside its registers: its regions, the head that stands before its next
instruction, its lane and its STEP. -/
def Group.sameBut (g h : Group) : Prop :=
  { h with arch := g.arch, regions := g.regions, nextSeq := g.nextSeq, headPending := g.headPending, wait := g.wait,
           lastIssue := g.lastIssue, busyUntil := g.busyUntil, step := g.step } = g

/-- The outcome is a next state in which the registers of `g` are `a`, and all that an issue does not touch is as in `s`. -/
def Leaves (o : Host.Outcome State Fault Refusal) (s : State) (g : Group) (a : Arch) : Prop :=
  ∃ t g', o = .next t ∧ t.group? g.ref = some g' ∧ g'.arch = a ∧ g.sameBut g' ∧ Apart s t g.ref

/-- No register that the operands of an extended instruction name is empty (R163). -/
def Full (maj fn : Nat) (x : Ext) (e : Env) : Prop :=
  ∃ u, usage maj fn x = some u ∧ e.blocked (srcCodes u x) (dstCodes u x) = none

/-- The program counter past an instruction of `len` bytes. -/
def Arch.past (a : Arch) (len : Nat) : Arch := { a with pc := (a.pc + len) % 2 ^ 64 }

/-- `i` completes: issued by `g` with nothing in its way and room for its results (R162), it leaves the group's registers
as `a`, has written the registers of the codes `w`, and changes nothing else that an issue does not. -/
def Completes (i : Instr) (info : IssueInfo) (s : State) (g : Group) (b : Block) (a : Arch) (w : List Nat) : Prop :=
  Ready info s g b → Room s g ((g.atIssue info s.gtc).wrote a w) → Leaves (exec i s) s g a

/-- A uniform destination: s0 discards the write (R158). -/
def Env.putU (e : Env) (a : Arch) (n : Nat) (v : W64) : Arch := if n = 0 then a else a.setS (e.sIdx n) { val := v }
def Env.uCodes (e : Env) (n : Nat) : List Nat := if n = 0 then [] else [128 + e.sIdx n]

/-- A vector destination under the run mask and the predicate of `x` (R160, R199). -/
def Env.putV (e : Env) (x : Ext) (a : Arch) (n : Nat) (res : VVal) : Arch :=
  a.setV (e.vIdx n) { val := mergeV (e.allPart x) (e.parts x) (e.vOld n) res }

/-- A mask destination: the bits of the slots that take part (R199, R200). -/
def Env.putK (e : Env) (x : Ext) (a : Arch) (n : Nat) (f : Nat → Bool) : Arch :=
  a.setK n (maskOf fun i => if e.parts x i then f i else (e.kval n).getLsbD i)

/-- `n` completes with its effect: issued by `g` with nothing in its way and room for its results, it leaves the state that
`e` describes, and the bookkeeping of an issue. -/
def Ends (n : Instr) (i : IssueInfo) (s : State) (g : Group) (b : Block) (e : Env) : Prop :=
  Ready i s g b → Room s g e.g → exec n s = .next (e.issued i (g.opensFor i) g.arch.handler).close

end Sys2Proof.Machine
end

