-- ==== Sys2Proof/Certificates/Slice0/Obligations.lean ====
section
/-!
DEFINITION. Certificates/Slice0/Obligations.lean: the statements for the provers, each with the rule of spec/ it states, and
before them the tables and the expressions they are stated in.
-/

namespace Sys2Proof.Machine

open Sys2Proof

noncomputable section

/-! ### The register families: FN, instruction, and what it computes -/

/-- Table 10-1 by FN: the extended forms and the value of D from A, B and C (R190 to R192). -/
def uniformTable (x : Ext) : List (Nat × Instr × (W64 → W64 → W64 → W64)) :=
  [(0, .sadd x, fun a b _ => a + b), (1, .ssub x, fun a b _ => a - b), (2, .smul x, fun a b _ => a * b),
   (3, .smulh x, fun a b _ => BitVec.ofInt 64 (a.toInt * b.toInt / 2 ^ 64)),
   (4, .smulhu x, fun a b _ => BitVec.ofNat 64 (a.toNat * b.toNat / 2 ^ 64)), (5, .sdiv x, fun a b _ => sdiv a b),
   (6, .sdivu x, fun a b _ => sdivu a b), (7, .srem x, fun a b _ => srem a b),
   (8, .sremu x, fun a b _ => sremu a b), (9, .sand x, fun a b _ => a &&& b), (10, .sor x, fun a b _ => a ||| b),
   (11, .sxor x, fun a b _ => a ^^^ b), (12, .sshl x, fun a b _ => a <<< (b.toNat % 256)),
   (13, .sshr x, fun a b _ => a >>> (b.toNat % 256)), (14, .ssra x, fun a b _ => a.sshiftRight (min (b.toNat % 256) 63)),
   (15, .smin x, fun a b _ => if a.slt b then a else b), (16, .smax x, fun a b _ => if a.slt b then b else a),
   (17, .sminu x, fun a b _ => if a.ult b then a else b), (18, .smaxu x, fun a b _ => if a.ult b then b else a),
   (19, .sslt x, fun a b _ => if a.slt b then 1 else 0), (20, .ssltu x, fun a b _ => if a.ult b then 1 else 0),
   (21, .sseq x, fun a b _ => if a = b then 1 else 0), (22, .ssel x, fun a b c => if c ≠ 0 then a else b),
   (23, .sbfx x, fun a b _ => bfx 64 (x.imm8.getLsbD 0) a b.toNat), (24, .sbfi x, fun a b c => bfi 64 a b c.toNat),
   (25, .spopc x, fun a _ _ => BitVec.ofNat 64 (popCount 64 a.toNat)),
   (26, .sclz x, fun a _ _ => BitVec.ofNat 64 (leadZeros 64 a.toNat)),
   (27, .sctz x, fun a _ _ => BitVec.ofNat 64 (trailZeros 64 a.toNat)), (28, .smov x, fun a _ _ => a),
   (30, .ssx32 x, fun a _ _ => (a.setWidth 32).signExtend 64)]

/-- The base forms of Table 10-1. -/
def uniformBaseTable (f : BaseF) : List (Nat × Instr × (W64 → W64 → W64 → W64)) :=
  [(0, .saddBase f, fun a b _ => a + b), (1, .ssubBase f, fun a b _ => a - b), (2, .smulBase f, fun a b _ => a * b),
   (3, .smulhBase f, fun a b _ => BitVec.ofInt 64 (a.toInt * b.toInt / 2 ^ 64)),
   (4, .smulhuBase f, fun a b _ => BitVec.ofNat 64 (a.toNat * b.toNat / 2 ^ 64)),
   (5, .sdivBase f, fun a b _ => sdiv a b), (6, .sdivuBase f, fun a b _ => sdivu a b),
   (7, .sremBase f, fun a b _ => srem a b), (8, .sremuBase f, fun a b _ => sremu a b),
   (9, .sandBase f, fun a b _ => a &&& b), (10, .sorBase f, fun a b _ => a ||| b),
   (11, .sxorBase f, fun a b _ => a ^^^ b), (12, .sshlBase f, fun a b _ => a <<< (b.toNat % 256)),
   (13, .sshrBase f, fun a b _ => a >>> (b.toNat % 256)),
   (14, .ssraBase f, fun a b _ => a.sshiftRight (min (b.toNat % 256) 63)),
   (15, .sminBase f, fun a b _ => if a.slt b then a else b), (16, .smaxBase f, fun a b _ => if a.slt b then b else a),
   (17, .sminuBase f, fun a b _ => if a.ult b then a else b), (18, .smaxuBase f, fun a b _ => if a.ult b then b else a),
   (19, .ssltBase f, fun a b _ => if a.slt b then 1 else 0), (20, .ssltuBase f, fun a b _ => if a.ult b then 1 else 0),
   (21, .sseqBase f, fun a b _ => if a = b then 1 else 0),
   (25, .spopcBase f, fun a _ _ => BitVec.ofNat 64 (popCount 64 a.toNat)),
   (26, .sclzBase f, fun a _ _ => BitVec.ofNat 64 (leadZeros 64 a.toNat)),
   (27, .sctzBase f, fun a _ _ => BitVec.ofNat 64 (trailZeros 64 a.toNat)), (28, .smovBase f, fun a _ _ => a),
   (30, .ssx32Base f, fun a _ _ => (a.setWidth 32).signExtend 64)]

/-- The UA format: instruction, source, destination, and the value of D from A (R188). -/
def uaTable (f : UaF) (c : UsF) : List (Instr × BitVec 5 × BitVec 5 × (W64 → W64)) :=
  [(.saddi f, f.a, f.d, fun a => a + f.imm.signExtend 64), (.sandi f, f.a, f.d, fun a => a &&& f.imm.signExtend 64),
   (.sori f, f.a, f.d, fun a => a ||| f.imm.signExtend 64), (.sxori f, f.a, f.d, fun a => a ^^^ f.imm.signExtend 64),
   (.sslti f, f.a, f.d, fun a => if a.slt (f.imm.signExtend 64) then 1 else 0),
   (.ssltiu f, f.a, f.d, fun a => if a.ult (f.imm.signExtend 64) then 1 else 0),
   (.sshli c, c.a, c.d, fun a => a <<< c.cnt.toNat), (.sshri c, c.a, c.d, fun a => a >>> c.cnt.toNat),
   (.ssrai c, c.a, c.d, fun a => a.sshiftRight c.cnt.toNat)]

/-- Table 10-2 by FN: the extended forms, how many sources count for the shape, the affine form where one is given (R197), and
the value of a slot. -/
def vectorTable (x : Ext) : List (Nat × Instr × Nat × (VVal → VVal → VVal → Option VVal) × (W32 → W32 → W32 → W32)) :=
  [(0, .vadd x, 2, vaddAff, fun a b _ => a + b), (1, .vsub x, 2, vsubAff, fun a b _ => a - b),
   (2, .vmul x, 2, vmulAff, fun a b _ => a * b),
   (3, .vmulh x, 2, noAff, fun a b _ => BitVec.ofInt 32 (a.toInt * b.toInt / 2 ^ 32)),
   (4, .vmulhu x, 2, noAff, fun a b _ => BitVec.ofNat 32 (a.toNat * b.toNat / 2 ^ 32)),
   (5, .vmad x, 3, affMad, fun a b c => a * b + c), (7, .vand x, 2, noAff, fun a b _ => a &&& b),
   (8, .vor x, 2, noAff, fun a b _ => a ||| b), (9, .vxor x, 2, noAff, fun a b _ => a ^^^ b),
   (10, .vshl x, 2, vshlAff, fun a b _ => a <<< (b.toNat % 256)),
   (11, .vshr x, 2, noAff, fun a b _ => a >>> (b.toNat % 256)),
   (12, .vsra x, 2, noAff, fun a b _ => a.sshiftRight (min (b.toNat % 256) 31)),
   (13, .vmin x, 2, noAff, fun a b _ => if a.slt b then a else b),
   (14, .vmax x, 2, noAff, fun a b _ => if a.slt b then b else a),
   (15, .vminu x, 2, noAff, fun a b _ => if a.ult b then a else b),
   (16, .vmaxu x, 2, noAff, fun a b _ => if a.ult b then b else a),
   (17, .vabsd x, 2, noAff, fun a b _ => vabsd (x.imm8.getLsbD 0) a b),
   (19, .vsel x, 3, noAff, fun a b c => if c ≠ 0 then a else b),
   (20, .vbfx x, 2, noAff, fun a b _ => bfx 32 (x.imm8.getLsbD 0) a b.toNat),
   (21, .vbfi x, 3, noAff, fun a b c => bfi 32 a b c.toNat),
   (22, .vpopc x, 1, noAff, fun a _ _ => BitVec.ofNat 32 (popCount 32 a.toNat)),
   (23, .vclz x, 1, noAff, fun a _ _ => BitVec.ofNat 32 (leadZeros 32 a.toNat)),
   (24, .vmov x, 1, vmovAff, fun a _ _ => a), (27, .vperm x, 3, noAff, vperm),
   (28, .vsatp x, if x.imm8.toNat % 8 ≤ 2 then 2 else 3, noAff, vsatp (x.imm8.toNat % 8)),
   (29, .vdot4 x, 3, noAff, vdot 8 (x.imm8.getLsbD 0) (x.imm8.getLsbD 1) x.sat),
   (30, .vdot8 x, 3, noAff, vdot 4 (x.imm8.getLsbD 0) (x.imm8.getLsbD 1) x.sat)]

/-- The base forms of Table 10-2. -/
def vectorBaseTable (f : BaseF) : List (Nat × Instr × Nat × (VVal → VVal → VVal → Option VVal) × (W32 → W32 → W32 → W32)) :=
  [(0, .vaddBase f, 2, vaddAff, fun a b _ => a + b), (1, .vsubBase f, 2, vsubAff, fun a b _ => a - b),
   (2, .vmulBase f, 2, vmulAff, fun a b _ => a * b),
   (3, .vmulhBase f, 2, noAff, fun a b _ => BitVec.ofInt 32 (a.toInt * b.toInt / 2 ^ 32)),
   (4, .vmulhuBase f, 2, noAff, fun a b _ => BitVec.ofNat 32 (a.toNat * b.toNat / 2 ^ 32)),
   (5, .vmadBase f, 3, affMad, fun a b c => a * b + c), (7, .vandBase f, 2, noAff, fun a b _ => a &&& b),
   (8, .vorBase f, 2, noAff, fun a b _ => a ||| b), (9, .vxorBase f, 2, noAff, fun a b _ => a ^^^ b),
   (10, .vshlBase f, 2, vshlAff, fun a b _ => a <<< (b.toNat % 256)),
   (11, .vshrBase f, 2, noAff, fun a b _ => a >>> (b.toNat % 256)),
   (12, .vsraBase f, 2, noAff, fun a b _ => a.sshiftRight (min (b.toNat % 256) 31)),
   (13, .vminBase f, 2, noAff, fun a b _ => if a.slt b then a else b),
   (14, .vmaxBase f, 2, noAff, fun a b _ => if a.slt b then b else a),
   (15, .vminuBase f, 2, noAff, fun a b _ => if a.ult b then a else b),
   (16, .vmaxuBase f, 2, noAff, fun a b _ => if a.ult b then b else a),
   (17, .vabsdBase f, 2, noAff, fun a b _ => BitVec.ofNat 32 (a.toInt - b.toInt).natAbs),
   (22, .vpopcBase f, 1, noAff, fun a _ _ => BitVec.ofNat 32 (popCount 32 a.toNat)),
   (23, .vclzBase f, 1, noAff, fun a _ _ => BitVec.ofNat 32 (leadZeros 32 a.toNat)),
   (24, .vmovBase f, 1, vmovAff, fun a _ _ => a), (29, .vdot4Base f, 3, noAff, vdot 8 false false false),
   (30, .vdot8Base f, 3, noAff, vdot 4 false false false)]

/-- The scalar instructions of Table 12-1 by FN, and the operation on one element: its result and its exceptions. -/
def scalarTable (x : Ext) : List (Nat × Instr × (FMode → FSpec → Nat → Nat → Nat → Nat × Exc)) :=
  [(0, .fadd x, faddEl), (1, .fsub x, fsubEl), (2, .fmul x, fmulEl), (3, .ffma x, ffmaEl), (4, .fmin x, fminEl),
   (5, .fmax x, fmaxEl), (7, .fclass x, fclassEl), (9, .fdiv x, fdivEl), (10, .fsqrt x, spEl 10), (11, .frcp x, spEl 11),
   (12, .frsq x, spEl 12), (13, .fexp x, spEl 13), (14, .fexp2 x, spEl 14), (15, .flog2 x, spEl 15),
   (16, .fsinpi x, spEl 16), (17, .fcospi x, spEl 17), (18, .ftanh x, spEl 18), (19, .fsigm x, spEl 19),
   (20, .fgelu x, spEl 20), (21, .fsilu x, spEl 21), (22, .ferf x, spEl 22), (24, .ffrac x, ffracEl)]

/-- Their base forms. -/
def scalarBaseTable (f : BaseF) : List (Nat × Instr × (FMode → FSpec → Nat → Nat → Nat → Nat × Exc)) :=
  [(0, .faddBase f, faddEl), (1, .fsubBase f, fsubEl), (2, .fmulBase f, fmulEl), (3, .ffmaBase f, ffmaEl),
   (4, .fminBase f, fminEl), (5, .fmaxBase f, fmaxEl), (7, .fclassBase f, fclassEl), (9, .fdivBase f, fdivEl),
   (10, .fsqrtBase f, spEl 10), (11, .frcpBase f, spEl 11), (12, .frsqBase f, spEl 12), (13, .fexpBase f, spEl 13),
   (14, .fexp2Base f, spEl 14), (15, .flog2Base f, spEl 15), (16, .fsinpiBase f, spEl 16), (17, .fcospiBase f, spEl 17),
   (18, .ftanhBase f, spEl 18), (19, .fsigmBase f, spEl 19), (20, .fgeluBase f, spEl 20), (21, .fsiluBase f, spEl 21),
   (22, .ferfBase f, spEl 22), (24, .ffracBase f, ffracEl)]

/-- The packed instructions. -/
def packedTable (x : Ext) : List (Nat × Instr × (FMode → FSpec → Nat → Nat → Nat → Nat × Exc)) :=
  [(31, .hadd2 x, faddEl), (32, .hmul2 x, fmulEl), (33, .hfma2 x, ffmaEl), (34, .hmin2 x, fminEl), (35, .hmax2 x, fmaxEl)]

/-- Their base forms. -/
def packedBaseTable (f : BaseF) : List (Nat × Instr × (FMode → FSpec → Nat → Nat → Nat → Nat × Exc)) :=
  [(31, .hadd2Base f, faddEl), (32, .hmul2Base f, fmulEl), (33, .hfma2Base f, ffmaEl), (34, .hmin2Base f, fminEl),
   (35, .hmax2Base f, fmaxEl)]

/-- The sources that count for a result's shape (R160). -/
def shapeSources (n : Nat) (a b c : VVal) : List VVal := match n with | 1 => [a] | 2 => [a, b] | _ => [a, b, c]

/-- The result of a vector integer instruction at `e`: the shape of R160, slot by slot. -/
def Env.vectorResult (e : Env) (x : Ext) (n : Nat) (aff : VVal → VVal → VVal → Option VVal) (f : W32 → W32 → W32 → W32) : VVal :=
  let a := e.src32 .int x.lit x.a
  let b := e.src32 .int x.lit x.b
  let c := e.src32 .int x.lit x.c
  shaped (shapeSources n a b c) (aff a b c) fun i => f (a.slot i) (b.slot i) (c.slot i)

/-- The 32 results of a floating-point instruction, with their exceptions. -/
abbrev Slots := List (W32 × Exc)

/-- A scalar instruction's: A, B and C in the format of IMM8 under their modifiers (R240, R54). -/
def Env.scalarSlots (e : Env) (x : Ext) (op : FMode → FSpec → Nat → Nat → Nat → Nat × Exc) : Slots :=
  let f := scalarSpec x.imm8.toNat
  let v (code : BitVec 10) (i : Nat) : Nat := ((e.src32 (posOf f) x.lit code).slot i).toNat
  slots.map fun i =>
    let r := op (e.fmodeFor x.rm) f (modBits f x.na x.xa (v x.a i)) (modBits f x.nb x.xb (v x.b i)) (modBits f x.nc x.xc (v x.c i))
    (BitVec.ofNat 32 r.1, r.2)

/-- A packed instruction's: two elements of FMODE.H16's format in each slot (R251). -/
def Env.packedSlots (e : Env) (x : Ext) (op : FMode → FSpec → Nat → Nat → Nat → Nat × Exc) : Slots :=
  let m := e.fmodeFor x.rm
  let f := specOf (if m.bf then 1 else 2)
  let v (code : BitVec 10) (n z : Bool) (i j : Nat) : Nat :=
    modBits f n z (((e.src32 (.packed m.bf) x.lit code).slot i).toNat / 2 ^ (16 * j))
  slots.map fun i =>
    let r (j : Nat) := op m f (v x.a x.na x.xa i j) (v x.b x.nb x.xb i j) (v x.c x.nc x.xc i j)
    (BitVec.ofNat 32 ((r 0).1 + (r 1).1 * 2 ^ 16), (r 0).2 ||| (r 1).2)

/-- What the slots that take part raise, in all. -/
def Env.raised (e : Env) (x : Ext) (rs : Slots) : Exc :=
  slots.foldl (fun a i => if e.active x i then a ||| (rs.getD i (0, excNone)).2 else a) excNone

/-- R236: the registers after a floating-point instruction that raises no enabled exception: D, and FMODE's flags. -/
def Env.putF (e : Env) (x : Ext) (a : Arch) (rs : Slots) : Arch :=
  { e.putV x a x.d.toNat (.ofSlots fun i => (rs.getD i (0, excNone)).1) with
    fmode := a.fmode ||| (((e.raised x rs).setWidth 64 : W64) <<< 16) }

/-- The exchanges of Table 12-4 by FN: instruction, and the slot whose A slot `t` receives, with `v` its B (R253, R254). -/
def crossTable (x : Ext) : List (Nat × Instr × (Nat → W32 → Nat)) :=
  let w := 2 ^ (x.imm8.toNat % 8)
  let base (t : Nat) : Nat := t / w * w
  [(0, .qswap x, fun t _ => 4 * (t / 4) + x.imm8.toNat / 2 ^ (2 * (t % 4)) % 4),
   (1, .qbcst x, fun t v => 4 * (t / 4) + v.toNat % 4), (2, .gshuf x, fun t v => base t + v.toNat % w),
   (3, .gshfx x, fun t v => base t + (BitVec.ofNat 32 t ^^^ v).toNat % w),
   (4, .gshfu x, fun t v => base t + (BitVec.ofNat 32 t - v).toNat % w),
   (5, .gshfd x, fun t v => base t + (BitVec.ofNat 32 t + v).toNat % w), (11, .stov x, fun _ v => v.toNat % 32)]

/-- The mask operations of Table 4-8 by FN (R220). -/
def maskTable (x : Ext) : List (Nat × Instr × (W32 → W32 → W32)) :=
  [(5, .kand x, fun a b => a &&& b), (6, .kor x, fun a b => a ||| b), (7, .kxor x, fun a b => a ^^^ b),
   (8, .kandn x, fun a b => a &&& ~~~b), (9, .knot x, fun a _ => ~~~a), (10, .kmov x, fun a _ => a)]

/-- The slots of a floating-point instruction on A alone. -/
def Env.convertSlots (e : Env) (x : Ext) (src : FSpec) (op : FMode → Nat → Nat × Exc) : Slots :=
  slots.map fun i =>
    let r := op (e.fmodeFor x.rm) (modBits src x.na x.xa ((e.src32 (posOf src) x.lit x.a).slot i).toNat)
    (BitVec.ofNat 32 r.1, r.2)

/-- The slots of an instruction that reads A as bits. -/
def Env.rawSlots (e : Env) (x : Ext) (op : FMode → Nat → Nat × Exc) : Slots :=
  slots.map fun i =>
    let r := op (e.fmodeFor x.rm) ((e.src32 .int x.lit x.a).slot i).toNat
    (BitVec.ofNat 32 r.1, r.2)

/-- FRND, FLDEXP, the conversions and the dot product: FN, instruction and slots (R245, R246, R249, R250). -/
def convertTable (e : Env) (x : Ext) : List (Nat × Instr × Slots) :=
  let f := scalarSpec x.imm8.toNat
  let dst := specOf (x.imm8.toNat % 16)
  let src := specOf (x.imm8.toNat / 16)
  let m := e.fmodeFor x.rm
  let bits (p : Pos) (code : BitVec 10) (i : Nat) : Nat := ((e.src32 p x.lit code).slot i).toNat
  let b32 (i : Nat) : Nat := modBits (specOf 0) x.nb x.xb (bits (posOf (specOf 0)) x.b i)
  let pair (code : BitVec 10) (n z : Bool) (i : Nat) : Nat × Nat :=
    let v := if codeIsConst code.toNat then (.u (constBits (.flt .f32) code.toNat), .u 0) else e.src64 x.lit code
    (modBits (specOf 0) n z (v.1.slot i).toNat, modBits (specOf 0) n z (v.2.slot i).toNat)
  [(8, .frnd x, e.convertSlots x f fun m a => frndV (x.imm8.getLsbD 2) m f a),
   (23, .fldexp x, slots.map fun i =>
      let r := fldexpV m f (modBits f x.na x.xa (bits (posOf f) x.a i)) (BitVec.ofNat 32 (bits .int x.b i))
      (BitVec.ofNat 32 r.1, r.2)),
   (25, .fcvt x, e.convertSlots x src fun m a =>
      deliver dst m.rm (x.sat && dst ≠ src) (m.ftz dst) (readDaz src (m.daz src) a)),
   (26, .fcvti x, e.convertSlots x src fun m a =>
      let r := deliverInt (intRange (x.imm8.toNat % 16)).1 (intRange (x.imm8.toNat % 16)).2 m.rm (readDaz src (m.daz src) a)
      ((r.1 % 2 ^ 32).toNat, r.2)),
   (27, .icvtf x, e.rawSlots x fun m a =>
      let v := intElem (x.imm8.toNat / 16) a
      deliver dst m.rm x.sat (m.ftz dst) (.fin (v < 0) v.natAbs 0 false)),
   (28, .fpack x, slots.map fun i =>
      let lo := cvtV m x.sat dst (specOf 0) (modBits (specOf 0) x.na x.xa (bits (posOf (specOf 0)) x.a i))
      let hi := cvtV m x.sat dst (specOf 0) (b32 i)
      let c := bits .int x.c i
      let p := 2 ^ (2 * dst.width * (x.imm8.toNat / 16 % 8))
      (BitVec.ofNat 32 (c - c / p % 2 ^ (2 * dst.width) * p + (lo.1 + hi.1 * 2 ^ dst.width) * p), lo.2 ||| hi.2)),
   (29, .funpk x, e.rawSlots x fun m a =>
      deliver (specOf 0) 1 false false
        (readDaz (specOf (x.imm8.toNat % 16)) (m.daz (specOf (x.imm8.toNat % 16)))
          (a / 2 ^ ((specOf (x.imm8.toNat % 16)).width * (x.imm8.toNat / 16))))),
   (30, .fdot2 x, slots.map fun i =>
      let a := pair x.a x.na x.xa i
      let b := pair x.b x.nb x.xb i
      let r := dotV m (specOf 0) [(a.1, b.1), (a.2, b.2)] (modBits (specOf 0) x.nc x.xc (bits (.flt .f32) x.c i))
      (BitVec.ofNat 32 r.1, r.2))]

/-- GRED and GSCAN by FN: what each slot receives of the folds of its sub-group (R256). -/
def reduceTable (e : Env) (x : Ext) : List (Nat × Instr × Slots) :=
  let op := x.imm8.toNat / 8 % 16
  let w := 2 ^ (x.imm8.toNat % 8)
  let a := e.src32 (if 8 ≤ op then .flt .f32 else .int) x.lit x.a
  let rs := redScan op w (e.fmodeFor x.rm) (e.active x) (fun i => (a.slot i).toNat) 32 0 (0, excNone)
  let out (p : Nat × Exc) : W32 × Exc := (BitVec.ofNat 32 p.1, p.2)
  [(8, .gred x, slots.map fun t => out (foldAt rs (t / w * w + w - 1)).2),
   (9, .gscan x, slots.map fun t => if x.imm8.getLsbD 7 then out (foldAt rs t).1 else out (foldAt rs t).2)]

/-- The bytes of an access at a place as the group reads them, little-endian, a byte or half word extended as asked (R295,
R298). -/
def Env.loaded (e : Env) (bm : Bool) (size : Nat) (signed : Bool) (p : Option Nat) : Nat :=
  if size ≤ 1 then extendLoad size signed (e.valueAt bm (e.ownQueue bm) (2 ^ size) p)
  else e.valueAt bm (e.ownQueue bm) (2 ^ size) p

/-- The slots that take part in a load, with their places. -/
def Env.loadSlots (e : Env) (x : Ext) : List Nat := slots.filter fun i => e.parts x i
def Env.storeSlots (e : Env) (x : Ext) : List Nat := slots.filter fun i => e.active x i

/-- R298: the accesses of LD and ST, slot by slot. -/
def Env.slotAccesses (e : Env) (x : Ext) (on : List Nat) (n : Nat) : List Access :=
  on.map fun i => { slot := some i, va := e.eaAt x (e.src32 .int x.lit x.b) i, n }

/-- A load of `e`, whose places are found, ends with a result on its way to its registers. -/
def Env.loads (e : Env) (bm : Bool) (ps : List (Option Nat)) (n : Nat) (vals : List RegVal) (va : List Nat) : Env :=
  let p := e.readPath bm ps n
  p.2.pendResult p.1 vals (p.2.poisonOf bm ps n va)

/-- A store of `e` ends with its bytes in the store queue. -/
def Env.queued (e : Env) (bm : Bool) (ws : List (Nat × Byte)) : Env :=
  e.setS { e.s with entries := e.s.entries ++ e.entriesOf bm ws, nextId := e.s.nextId + (e.entriesOf bm ws).length }

/-- The core's store queue has room for the entries of a store (R311). -/
def Env.queueRoom (e : Env) (bm : Bool) (ws : List (Nat × Byte)) : Prop :=
  e.s.sqCore e.g.core + ((e.entriesOf bm ws).map fun q => q.slots).sum ≤ 2048

/-- The register of a uniform destination as an absolute number; 0 for s0. -/
def Env.uDest (e : Env) (x : Ext) : Nat := if x.d.toNat = 128 then 0 else e.sIdx (x.d.toNat - 128)

/-- A closing operation's request has the 2,048 entries it needs of the core's store queue (R311, R344). -/
def Env.requestRoom (e : Env) (r : Request) : Prop := e.s.sqCore e.g.core + r.entries ≤ 2048

/-- The course and the round of CSARV, CSWT and CSREL: the block offset and the stages of a course that is well formed. -/
def Env.isCourse (e : Env) (x : Ext) (n : Nat) : Prop := e.courseHeader (e.srcU x.lit x.a).toNat = .ok n

/-- The matrix engine's items are held by no other group, and copies are free for those written (R261, R262). -/
def Env.mxReady (e : Env) (reads writes : List Nat) : Prop :=
  e.mxHeld (reads ++ writes) = false ∧ e.mxFree writes = true

/-- The engine after an instruction that writes some of its items: what stood there is kept for a squash (R261). -/
def Env.mxWrote (e : Env) (writes : List Nat) (k : Core → Core) : Env :=
  let e1 := e.mxSave writes
  { e1 with s := e1.s.setCore e1.g.core (k (e1.s.core e1.g.core)) }

/-- MMA's work on the engine, the last of its queue (R272). -/
def Env.mxWorked (e : Env) : Env :=
  let c := e.s.core e.g.core
  let job : MxJob := { g := e.g.ref, region := (match e.g.regions.getLast? with | some r => r.seq | none => 0), left := 128 }
  e.setS (e.s.setCore e.g.core { c with jobs := c.jobs ++ [job] })

/-- A block of `task` has started on the span at `lead`: what R111, R128, R157 and R159 give its TCB, its block and its groups,
each with the threads that its launch has there and its arguments from s2 on; nothing else has changed. -/
def Starts (s u : State) (task blocks : Nat) (k : Kernel) (lead : Nat) (spill : List Nat) : Prop :=
  let t := s.tcb task
  let t' := u.tcb task
  t'.state = .running ∧ t'.placed = t.placed + 1 ∧ t'.blkLeft = (if t.placed = 0 then blocks else t.blkLeft) ∧
  t'.reserved = false ∧ t'.passedSince = none ∧
  (∃ b, u.block? ⟨task, t.placed⟩ = some b ∧ b.kernel = k ∧ b.owner = t.owner ∧ b.lead = lead ∧ b.state = .placed ∧
    b.spillSlots = spill ∧ b.bench = [] ∧ b.tileRec = [] ∧ b.children = 0) ∧
  (∀ i < k.groups, ∃ h, u.group? ⟨task, t.placed, i⟩ = some h ∧ h.core = lead + i / ((k.groups + k.span - 1) / k.span) ∧
    (∀ j < 32, h.launched.getLsbD j = decide (32 * i + j < k.threads)) ∧ h.arch.run = h.launched ∧
    h.arch.pc = (k.textBase + k.entry) % 2 ^ 64 ∧ h.arch.stack = [] ∧ h.arch.handler = false ∧ h.regions = [] ∧
    h.active = false ∧ h.role = (if i < k.ncopy then 0 else if i < k.ncopy + k.nmatrix then 1 else 2) ∧
    (t.fusedCode = none → ∀ j v, k.argv[j]? = some v → (h.arch.ureg (2 + j)).val = v)) ∧
  (u.field (fieldOfCore lead)).commit = (s.field (fieldOfCore lead)).commit + k.curClass ∧
  (∀ x ∈ s.blocks, x ∈ u.blocks) ∧ (∀ h ∈ s.groups, h ∈ u.groups) ∧ u.mem = s.mem ∧ u.queues = s.queues

/-- No block of that number stands, and no group of it. -/
def Fresh (s : State) (task : Nat) : Prop :=
  s.block? ⟨task, (s.tcb task).placed⟩ = none ∧ ∀ h ∈ s.groups, blockOf h.ref ≠ ⟨task, (s.tcb task).placed⟩

/-- What a group is as it enters a lane, and as it leaves one (R165, R184). -/
def Group.entered (g : Group) (gtc : Nat) : Group :=
  { g with active := true, activeSince := gtc, readySince := none, waitSince := gtc,
           wait := if g.wait = .yield then .ready else g.wait }
def Group.left (g : Group) : Group :=
  { g with active := false, readySince := none, wait := if g.wait = .yield then .ready else g.wait }

/-- The rungs that a core, or the cores of a list, have taken or given up. -/
def climbed (s t : State) (cores : List Nat) : Nat := (cores.map fun c => (t.core c).rungs - (s.core c).rungs).sum
def dropped (s t : State) (cores : List Nat) : Nat := (cores.map fun c => (s.core c).rungs - (t.core c).rungs).sum
/-! ### Reset -/

/-- The registers of host window W0 by block: its offset, the distance to the next one, how many there are, and what the words
of one read after reset (Tables 5-1, 5-9, 7-3, 14-4, 17-1, 19-1, 21-3 and those of R291, R408 and R418).  DOMID, whose
reset value is a strap, is not among them. -/
def resetTable : List (Nat × Nat × Nat × List (Nat × Nat)) :=
  [(0, 0x100, 1, [(0x00, 0x7208 + 0x10000), (0x04, 0), (0x10, 64), (0x14, 40), (0x18, 0), (0x1C, 0), (0x20, 0), (0x24, 0), (0x28, 0),
     (0x2C, 0)]),
   (0x10000, 0x40, 128, [(0x00, 0), (0x04, 0), (0x08, 12), (0x0C, 0), (0x10, 0), (0x14, 0), (0x18, 0x800), (0x1C, 0), (0x20, 0)]),
   (0x80000, 0x100, 8, [(0x00, 1600), (0x04, 0), (0x08, 240), (0x0C, 240), (0x10, 0)]),
   (0x90000, 0x40, 2, [(0x00, 0), (0x04, 0), (0x08, 0), (0x0C, 0), (0x10, 1)]),
   (0xA0000, 0x40, 2, [(0x00, 0), (0x04, 0), (0x08, 0), (0x0C, 0), (0x10, 0), (0x14, 0), (0x18, 0), (0x1C, 0)]),
   (0xB0000, 0x40, 2, [(0x00, 0), (0x04, 0), (0x08, 10), (0x0C, 0), (0x10, 0), (0x14, 0), (0x18, 0)]),
   (0xC0000, 4, 4096, [(0, 0)]),
   (0xD0000, 0x40, 2, [(0x00, 0xFFFFFFFF), (0x04, 0), (0x08, 1), (0x10, 0xFFFFFFFF), (0x14, 0), (0x18, 0), (0x1C, 0), (0x20, 0),
     (0x28, 0)]),
   (0x100000, 0x100, 1024, [(0x00, 0), (0x04, 0), (0x08, 0), (0x0C, 0), (0x10, 0), (0x14, 0), (0x18, 0), (0x1C, 0), (0x20, 0)]),
   (0x200000, 0x40, 1024, [(0x00, 0), (0x08, 0), (0x0C, 0), (0x10, 0), (0x14, 0), (0x18, 0), (0x20, 0), (0x24, 0), (0x28, 0),
     (0x2C, 0), (0x30, 0)])]

/-! ### The engines' instructions (R73) -/

/-- The instructions that one role alone may issue, with the role: 0 copy, 1 matrix (R21). -/
def engineTable (x : Ext) : List (Instr × Nat) :=
  [(.cpy x, 0), (.cpyt x, 0), (.cpyg x, 0), (.cpys x, 0), (.cpyr x, 0), (.cpyw x, 0), (.cpyq x, 0), (.cpyx x, 0), (.caout x, 0),
   (.mma x, 1), (.mlda x, 1), (.mldb x, 1), (.mcbt x, 1), (.mzero x, 1), (.mrd x, 1), (.mwr x, 1), (.mst x, 1), (.mcmp x, 1),
   (.mscl x, 1)]

/-! ### Words written out from the encodings -/

/-- Words of the spec's own listings and of its encoding tables, one at least for each family, with the instruction that each
stands for. -/
def wordTable : List (List W32 × Instr) :=
  [([0x0C414010], .saddBase { b := 3, a := 4, d := 5 }),
   ([0xD070C014], .vaddBase { b := 52, a := 7, d := 3 }),
   ([0x00000642, 0x24782C84, 0x00000000], .sshl { d := 132, a := 523, b := 583 }),
   ([0x0001014B, 0x30002009, 0x00000000, 0x40200000, 0x00000000],
     .fmul { kp := 1, d := 9, a := 8, b := 768, lit := some 0x40200000 }),
   ([0x002001CB, 0x00A02408, 0x00000700, 0x40200000, 0x00000000],
     .ffma { rm := 2, d := 8, a := 9, b := 10, nb := true, c := 768, lit := some 0x40200000 }),
   ([0x0050817E, 0x00918006, 0x00000D82],
     .pairWord { xfn := 2, xd := 4, xa := 5, xb := 6, yfn := 6, yd := 9, ya := 130, yb := 13 }),
   ([0x00000946, 0x25082601, 0x00008000], .vcmp { d := 513, a := 521, b := 592, imm8 := 2 }),
   ([0x000002CE, 0x24301406, 0x0000C000], .gshfd { d := 6, a := 5, b := 579, imm8 := 3 }),
   ([0x00000052, 0x00080400, 0x00000007], .divb { a := 513, b := 0, c := 7 }),
   ([0x00010056, 0x20921008, 0x00148000], .ld { kp := 1, d := 8, a := 132, b := 521, imm8 := 0x52 }),
   ([0x000900D6, 0x20921409, 0x00148000], .st { kp := 1, kn := true, d := 9, a := 133, b := 521, imm8 := 0x52 }),
   ([0x0000005E, 0x0000208A, 0x00000000], .caput { d := 138, a := 8 }),
   ([0x000003E2, 0x00000000, 0x00000000], .lbar {}),
   ([0x00020066, 0x00025000, 0x00004000], .mma { kp := 2, a := 148, imm8 := 1 }),
   ([0x000001EA, 0x00000089, 0x00014000], .sget { d := 137, imm8 := 5 }),
   ([0x00010A04], .slui { imm := 16, d := 20 }), ([0x001A500C], .saddi { imm := 1, a := 20, d := 20 }),
   ([0x0000022C], .rgn), ([0x000002AC], .rcv), ([0x000000AC], .exit), ([0x00000220], .bra 4)]


end

end Sys2Proof.Machine

open Sys2Proof Sys2Proof.Machine

/-! ### The uniform family -/

/-- R186, R190 to R192, R158: each uniform instruction of one destination writes D with its function of A, B and C, s0
discarding the write, and changes no other register, no flag and no memory; the program counter advances past it. -/
def Obligations.UniformResult : Prop :=
  ∀ (s : State) (g : Group) (b : Block) (x : Ext), ∀ p ∈ uniformTable x,
    let e := envOf s g b (lenExt x)
    let d := x.d.toNat - 128
    Full 16 p.1 x e →
    Completes p.2.1 { len := lenExt x } s g b
      (e.putU (g.arch.past (lenExt x)) d (p.2.2 (e.srcU x.lit x.a) (e.srcU x.lit x.b) (e.srcU x.lit x.c))) (e.uCodes d)

/-- R51, R70: a base form computes what its extended form does, from the short operand codes. -/
def Obligations.UniformBaseResult : Prop :=
  ∀ (s : State) (g : Group) (b : Block) (f : BaseF), ∀ p ∈ uniformBaseTable f,
    let e := envOf s g b (lenBase f)
    let x := Ext.ofBase 16 p.1 f
    let d := x.d.toNat - 128
    Full 16 p.1 x e →
    Completes p.2.1 { len := lenBase f } s g b
      (e.putU (g.arch.past (lenBase f)) d (p.2.2 (e.srcU x.lit x.a) (e.srcU x.lit x.b) (e.srcU x.lit x.c))) (e.uCodes d)

/-- R188, R189: the UA format, SLUI and SAUIPC. -/
def Obligations.ImmediateResult : Prop :=
  ∀ (s : State) (g : Group) (b : Block) (f : UaF) (c : UsF) (u : UiF),
    let e := envOf s g b 4
    let a := g.arch.past 4
    (∀ p ∈ uaTable f c, e.blocked [(128 + p.2.1.toNat, false)] [128 + p.2.2.1.toNat] = none →
      Completes p.1 { len := 4 } s g b (e.putU a p.2.2.1.toNat (p.2.2.2 (e.sval p.2.1.toNat))) (e.uCodes p.2.2.1.toNat)) ∧
    (e.blocked [] [128 + u.d.toNat] = none →
      Completes (.slui u) { len := 4 } s g b (e.putU a u.d.toNat ((u.imm ++ (0 : BitVec 12)).signExtend 64)) (e.uCodes u.d.toNat) ∧
      Completes (.sauipc u) { len := 4 } s g b
        (e.putU a u.d.toNat (BitVec.ofNat 64 (b.original g.arch.pc) + (u.imm ++ (0 : BitVec 12)).signExtend 64))
        (e.uCodes u.d.toNat))

/-! ### The vector integer family -/

/-- R160, R195 to R199: each vector integer instruction of one destination writes D slot by slot under the run mask and the
predicate, and changes nothing else. -/
def Obligations.VectorResult : Prop :=
  ∀ (s : State) (g : Group) (b : Block) (x : Ext), ∀ p ∈ vectorTable x,
    let e := envOf s g b (lenExt x)
    Full 17 p.1 x e →
    Completes p.2.1 { len := lenExt x } s g b
      (e.putV x (g.arch.past (lenExt x)) x.d.toNat (e.vectorResult x p.2.2.1 p.2.2.2.1 p.2.2.2.2)) [e.vIdx x.d.toNat]

/-- The same for the base forms. -/
def Obligations.VectorBaseResult : Prop :=
  ∀ (s : State) (g : Group) (b : Block) (f : BaseF), ∀ p ∈ vectorBaseTable f,
    let e := envOf s g b (lenBase f)
    let x := Ext.ofBase 17 p.1 f
    Full 17 p.1 x e →
    Completes p.2.1 { len := lenBase f } s g b
      (e.putV x (g.arch.past (lenBase f)) x.d.toNat (e.vectorResult x p.2.2.1 p.2.2.2.1 p.2.2.2.2)) [e.vIdx x.d.toNat]

/-- R200, R203, R207, R208: VCMP's mask, VADDC's sum and carry-out mask, the pairs of VMADW and VLEA, and the coordinates of
VIDX, whose entry of the shape table is not empty and whose registers lie within VCOUNT.  (Fused code may place the two
registers of a pair in one, R115: a pair that it does not is stated.) -/
def Obligations.VectorWideResult : Prop :=
  ∀ (s : State) (g : Group) (b : Block) (x : Ext),
    let e := envOf s g b (lenExt x)
    let p := g.arch.past (lenExt x)
    let i : IssueInfo := { len := lenExt x }
    let d := x.d.toNat
    let va := e.src32 .int x.lit x.a
    let vb := e.src32 .int x.lit x.b
    let a64 (j : Nat) : W64 := slot64 (e.src64 x.lit x.a) j
    let c64 (j : Nat) : W64 := slot64 (e.src64 x.lit x.c) j
    let en := shapeEntry b.kernel.shapes (e.shapeIndex (x.imm8.toNat % 16))
    (Full 17 18 x e → Completes (.vcmp x) i s g b
      (e.putK x p (d - 512) fun j => condHolds (x.imm8.toNat % 8) (va.slot j) (vb.slot j)) [512 + (d - 512)]) ∧
    (Full 17 26 x e →
      let r (j : Nat) := addCarry (x.imm8.getLsbD 0) (va.slot j) (vb.slot j) ((e.kval (x.c.toNat - 512)).getLsbD j)
      Completes (.vaddc x) i s g b
        (e.putK x (e.putV x p d (.ofSlots fun j => (r j).1)) (x.e.toNat - 512) fun j => (r j).2)
        [e.vIdx d, 512 + (x.e.toNat - 512)]) ∧
    (Full 17 6 x e → e.vIdx d ≠ e.vIdx (d + 1) →
      let r (j : Nat) : W64 := if x.imm8.getLsbD 0 then (va.slot j).signExtend 64 * (vb.slot j).signExtend 64 + c64 j
        else (va.slot j).setWidth 64 * (vb.slot j).setWidth 64 + c64 j
      let srcs := [va, vb, (e.src64 x.lit x.c).1, (e.src64 x.lit x.c).2]
      Completes (.vmadw x) i s g b
        (e.putV x (e.putV x p d (shaped srcs none fun j => (r j).setWidth 32)) (d + 1)
          (shaped srcs none fun j => (r j >>> 32).setWidth 32)) [e.vIdx d, e.vIdx (d + 1)]) ∧
    (Full 17 31 x e → e.vIdx d ≠ e.vIdx (d + 1) →
      let sh := x.imm8.toNat % 8
      let r (j : Nat) : W64 :=
        a64 j + ((if x.imm8.getLsbD 3 then (vb.slot j).signExtend 64 else (vb.slot j).setWidth 64) <<< sh)
      let a := e.src64 x.lit x.a
      let aff := (affScale (BitVec.ofNat 32 (2 ^ sh)) vb).bind fun q => affAdd a.1 q
      Completes (.vlea x) i s g b
        (e.putV x (e.putV x p d (shaped [a.1, vb] aff fun j => (r j).setWidth 32)) (d + 1)
          (shaped [a.1, a.2, vb] none fun j => (r j >>> 32).setWidth 32)) [e.vIdx d, e.vIdx (d + 1)]) ∧
    (Full 17 25 x e → en.ndim ≠ 0 → d + en.ndim ≤ (limitsAt b g.arch).vcount → e.blocked [] (codes d en.ndim) = none →
      ((codes d en.ndim).map e.vIdx).Nodup →
      Completes (.vidx x) i s g b
        ((List.range en.ndim).foldl (fun q j => e.putV x q (d + j)
          (shaped [va] none fun k => BitVec.ofNat 32 ((splitIndex en.dims en.ndim (va.slot k).toNat).getD j 0))) p)
        ((List.range en.ndim).map fun j => e.vIdx (d + j)))

/-- R193: SIDX writes the coordinates of A under the entry of the shape table to consecutive registers. -/
def Obligations.SidxResult : Prop :=
  ∀ (s : State) (g : Group) (b : Block) (x : Ext),
    let e := envOf s g b (lenExt x)
    let d := x.d.toNat - 128
    let en := shapeEntry b.kernel.shapes (e.shapeIndex (x.imm8.toNat % 16))
    let cs := splitIndex en.dims en.ndim ((e.srcU x.lit x.a).toNat % 2 ^ 32)
    Full 16 29 x e → en.ndim ≠ 0 → (limitsAt b g.arch).allows en.ndim (128 + d) = true → (376 ≤ d ∨ d + en.ndim ≤ 376) →
    e.blocked [] (codes (128 + d) en.ndim) = none →
    Completes (.sidx x) { len := lenExt x } s g b
      (cs.zipIdx.foldl (fun q c => e.putU q (d + c.2) (BitVec.ofNat 64 c.1)) (g.arch.past (lenExt x)))
      (cs.zipIdx.flatMap fun c => e.uCodes (d + c.2))

/-! ### The vector float family -/

/-- R236, R240 to R247, R251: a floating-point instruction that raises no enabled exception writes D slot by slot, sets the
sticky flags of what its slots raise, and changes nothing else. -/
def Obligations.FloatResult : Prop :=
  ∀ (s : State) (g : Group) (b : Block) (x : Ext),
    let e := envOf s g b (lenExt x)
    let ok (p : Nat × Instr × Slots) : Prop :=
      Full 18 p.1 x e → e.raised x p.2.2 &&& excEnabled g.arch.fmode = 0 →
      Completes p.2.1 { len := lenExt x } s g b (e.putF x (g.arch.past (lenExt x)) p.2.2) [e.vIdx x.d.toNat]
    (∀ p ∈ scalarTable x, ok (p.1, p.2.1, e.scalarSlots x p.2.2)) ∧
    (∀ p ∈ packedTable x, ok (p.1, p.2.1, e.packedSlots x p.2.2)) ∧
    ∀ p ∈ convertTable e x, ok p

/-- The same for the base forms. -/
def Obligations.FloatBaseResult : Prop :=
  ∀ (s : State) (g : Group) (b : Block) (f : BaseF),
    let e := envOf s g b (lenBase f)
    let ok (fn : Nat) (n : Instr) (rs : Slots) : Prop :=
      let x := Ext.ofBase 18 fn f
      Full 18 fn x e → e.raised x rs &&& excEnabled g.arch.fmode = 0 →
      Completes n { len := lenBase f } s g b (e.putF x (g.arch.past (lenBase f)) rs) [e.vIdx x.d.toNat]
    (∀ p ∈ scalarBaseTable f, ok p.1 p.2.1 (e.scalarSlots (.ofBase 18 p.1 f) p.2.2)) ∧
    (∀ p ∈ packedBaseTable f, ok p.1 p.2.1 (e.packedSlots (.ofBase 18 p.1 f) p.2.2)) ∧
    (∀ r ∈ convertTable e (.ofBase 18 8 f), r.1 = 8 → ok 8 (.frndBase f) r.2.2) ∧
    (∀ r ∈ convertTable e (.ofBase 18 23 f), r.1 = 23 → ok 23 (.fldexpBase f) r.2.2) ∧
    ∀ r ∈ convertTable e (.ofBase 18 30 f), r.1 = 30 → ok 30 (.fdot2Base f) r.2.2

/-- R237: where a slot that takes part raises an enabled exception, a floating-point instruction of any form takes FP precisely:
no slot writes, FMODE stays, and the trap frame holds the mask of those slots and every exception raised; of a pair word,
whose half it names, X's slots come first (R63). -/
def Obligations.FloatTrap : Prop :=
  ∀ (s : State) (g : Group) (b : Block) (x : Ext) (f : BaseF) (p : PairF),
    let en := excEnabled g.arch.fmode
    let slotsOf (y : Ext) (e : Env) (rs : Slots) : W32 :=
      maskOf fun j => e.active y j && (rs.getD j (0, excNone)).2 &&& en ≠ 0
    let frame (mask : W32) (all : Exc) (half : Nat) : Trap :=
      { code := 29, cause0 := mask.setWidth 64 ||| ((all.setWidth 64 : W64) <<< 32), cause1 := BitVec.ofNat 64 half }
    let traps (n : Instr) (len : Nat) (t : Trap) : Prop :=
      exec n s = .next ((envBefore { len } s g b).takeTrap t g.arch.pc).close
    let takes (maj fn : Nat) (n : Instr) (len : Nat) (y : Ext) (rs : Slots) : Prop :=
      let e := envOf s g b len
      Ready { len } s g b → Full maj fn y e → e.raised y rs &&& en ≠ 0 →
      traps n len (frame (slotsOf y e rs) (e.raised y rs) e.half)
    let e := envOf s g b (lenExt x)
    let eb := envOf s g b (lenBase f)
    let ofBase (fn : Nat) : Ext := .ofBase 18 fn f
    let base (fn : Nat) (n : Instr) (rs : Slots) : Prop := takes 18 fn n (lenBase f) (ofBase fn) rs
    let cmp : Slots :=
      let q := scalarSpec x.imm8.toNat
      let v (code : BitVec 10) (i : Nat) : Nat := ((e.src32 (posOf q) x.lit code).slot i).toNat
      slots.map fun i =>
        (0, (fcmpV (x.imm8.toNat / 4 % 8) (e.fmodeFor 0) q (modBits q x.na x.xa (v x.a i)) (modBits q x.nb x.xb (v x.b i))).2)
    (∀ q ∈ scalarTable x, takes 18 q.1 q.2.1 (lenExt x) x (e.scalarSlots x q.2.2)) ∧
    (∀ q ∈ packedTable x, takes 18 q.1 q.2.1 (lenExt x) x (e.packedSlots x q.2.2)) ∧
    (∀ q ∈ convertTable e x, takes 18 q.1 q.2.1 (lenExt x) x q.2.2) ∧
    takes 18 6 (.fcmp x) (lenExt x) x cmp ∧
    (∀ q ∈ reduceTable e x, takes 19 q.1 q.2.1 (lenExt x) x q.2.2) ∧
    (∀ q ∈ scalarBaseTable f, base q.1 q.2.1 (eb.scalarSlots (ofBase q.1) q.2.2)) ∧
    (∀ q ∈ packedBaseTable f, base q.1 q.2.1 (eb.packedSlots (ofBase q.1) q.2.2)) ∧
    (∀ q ∈ convertTable eb (ofBase 8), q.1 = 8 → base 8 (.frndBase f) q.2.2) ∧
    (∀ q ∈ convertTable eb (ofBase 23), q.1 = 23 → base 23 (.fldexpBase f) q.2.2) ∧
    (∀ q ∈ convertTable eb (ofBase 30), q.1 = 30 → base 30 (.fdot2Base f) q.2.2) ∧
    (let ep := envOf s g b 12
     let rs (h : Half) : Slots := slots.map fun i => (0, (ep.halfResult h).2.getD i excNone)
     let all := ep.raised p.halfX.x (rs p.halfX) ||| ep.raised p.halfY.x (rs p.halfY)
     let own (h : Half) : W32 := slotsOf h.x ep (rs h)
     Ready { len := 12 } s g b → ep.blocked (halfCodes p.halfX ++ halfCodes p.halfY) [p.halfX.x.d.toNat, p.halfY.x.d.toNat] = none →
     (own p.halfX ≠ 0 → traps (.pairWord p) 12 (frame (own p.halfX) all 0)) ∧
     (own p.halfX = 0 → own p.halfY ≠ 0 → traps (.pairWord p) 12 (frame (own p.halfY) all 1)))

/-- R243: FCMP writes the mask bits of Table 12-2 and the flags. -/
def Obligations.FcmpResult : Prop :=
  ∀ (s : State) (g : Group) (b : Block) (x : Ext),
    let e := envOf s g b (lenExt x)
    let f := scalarSpec x.imm8.toNat
    let v (code : BitVec 10) (i : Nat) : Nat := ((e.src32 (posOf f) x.lit code).slot i).toNat
    let r (i : Nat) := fcmpV (x.imm8.toNat / 4 % 8) (e.fmodeFor 0) f (modBits f x.na x.xa (v x.a i)) (modBits f x.nb x.xb (v x.b i))
    let raised := slots.foldl (fun a i => if e.active x i then a ||| (r i).2 else a) excNone
    Full 18 6 x e → raised &&& excEnabled g.arch.fmode = 0 →
    Completes (.fcmp x) { len := lenExt x } s g b
      { e.putK x (g.arch.past (lenExt x)) (x.d.toNat - 512) (fun i => (r i).1) with
        fmode := g.arch.fmode ||| ((raised.setWidth 64 : W64) <<< 16) } [512 + (x.d.toNat - 512)]

/-! ### The cross-thread family -/

/-- R253 to R257, R185: each slot receives A of the slot that its instruction names, a reduction or scan its fold, a vote or
ballot its mask; VTOS reads one slot, VTAG the shape of A, and VGEN makes A per-slot. -/
def Obligations.CrossResult : Prop :=
  ∀ (s : State) (g : Group) (b : Block) (x : Ext),
    let e := envOf s g b (lenExt x)
    let p := g.arch.past (lenExt x)
    let i : IssueInfo := { len := lenExt x }
    let d := x.d.toNat
    let va := e.src32 .int x.lit x.a
    let vb := e.src32 .int x.lit x.b
    (∀ q ∈ crossTable x, Full 19 q.1 x e →
      Completes q.2.1 i s g b (e.putV x p d (.ofSlots fun t => e.readAt x.a va (q.2.2 t (vb.slot t)))) [e.vIdx d]) ∧
    (∀ q ∈ reduceTable e x, Full 19 q.1 x e → e.raised x q.2.2 &&& excEnabled g.arch.fmode = 0 →
      Completes q.2.1 i s g b (e.putF x p q.2.2) [e.vIdx d]) ∧
    (Full 19 6 x e →
      let act := slots.filter fun j => e.active x j
      let vote := match x.imm8.toNat % 4 with
        | 0 => act.any fun j => va.slot j ≠ 0
        | 1 => act.all fun j => va.slot j ≠ 0
        | _ => (act.all fun j => va.slot j ≠ 0) || act.all fun j => va.slot j = 0
      Completes (.gvote x) i s g b (e.putK x p (d - 512) fun _ => vote) [512 + (d - 512)]) ∧
    (Full 19 7 x e → Completes (.gbalt x) i s g b
      (e.putU p (d - 128) ((maskOf fun j => e.active x j && va.slot j ≠ 0).setWidth 64)) (e.uCodes (d - 128))) ∧
    (Full 19 10 x e →
      let j := if x.imm8.getLsbD 0 then slots.find? fun j => e.active x j else some ((vb.slot 0).toNat % 32)
      Completes (.vtos x) i s g b
        (e.putU p (d - 128) (match j with | some j => (e.readAt x.a va j).setWidth 64 | none => 0)) (e.uCodes (d - 128))) ∧
    (Full 19 12 x e → Completes (.vtag x) i s g b
      (e.putV x p d (.u (match e.vval x.a.toNat with | .u _ => 0 | .a _ _ => 1 | .g _ => 2))) [e.vIdx d]) ∧
    (Full 19 13 x e → Completes (.vgen x) i s g b (e.putV x p d (.ofSlots fun j => va.slot j)) [e.vIdx d])

/-- The base forms of the family. -/
def Obligations.CrossBaseResult : Prop :=
  ∀ (s : State) (g : Group) (b : Block) (f : BaseF),
    let e := envOf s g b (lenBase f)
    let p := g.arch.past (lenBase f)
    let i : IssueInfo := { len := lenBase f }
    let x (fn : Nat) : Ext := .ofBase 19 fn f
    let d (fn : Nat) : Nat := (x fn).d.toNat
    let va (fn : Nat) := e.src32 .int (x fn).lit (x fn).a
    let vb (fn : Nat) := e.src32 .int (x fn).lit (x fn).b
    (Full 19 1 (x 1) e → Completes (.qbcstBase f) i s g b (e.putV (x 1) p (d 1)
      (.ofSlots fun t => e.readAt (x 1).a (va 1) (4 * (t / 4) + ((vb 1).slot t).toNat % 4))) [e.vIdx (d 1)]) ∧
    (Full 19 11 (x 11) e → Completes (.stovBase f) i s g b (e.putV (x 11) p (d 11)
      (.ofSlots fun t => e.readAt (x 11).a (va 11) (((vb 11).slot t).toNat % 32))) [e.vIdx (d 11)]) ∧
    (Full 19 12 (x 12) e → Completes (.vtagBase f) i s g b (e.putV (x 12) p (d 12)
      (.u (match e.vval (x 12).a.toNat with | .u _ => 0 | .a _ _ => 1 | .g _ => 2))) [e.vIdx (d 12)]) ∧
    (Full 19 13 (x 13) e → Completes (.vgenBase f) i s g b
      (e.putV (x 13) p (d 13) (.ofSlots fun j => (va 13).slot j)) [e.vIdx (d 13)])

/-- R61 to R63: the halves of a pair word read before either writes, and both take effect. -/
def Obligations.PairResult : Prop :=
  ∀ (s : State) (g : Group) (b : Block) (p : PairF),
    let e := envOf s g b 12
    let hx := p.halfX
    let hy := p.halfY
    let r (h : Half) : VVal := (e.halfResult h).1
    let raised (h : Half) : Exc :=
      slots.foldl (fun a i => if e.active h.x i then a ||| (e.halfResult h).2.getD i excNone else a) excNone
    e.blocked (halfCodes hx ++ halfCodes hy) [hx.x.d.toNat, hy.x.d.toNat] = none →
    e.vIdx hx.x.d.toNat ≠ e.vIdx hy.x.d.toNat → (raised hx ||| raised hy) &&& excEnabled g.arch.fmode = 0 →
    Completes (.pairWord p) { len := 12 } s g b
      { e.putV hy.x (e.putV hx.x (g.arch.past 12) hx.x.d.toNat (r hx)) hy.x.d.toNat (r hy) with
        fmode := g.arch.fmode ||| (((raised hx ||| raised hy).setWidth 64 : W64) <<< 16) }
      [e.vIdx hx.x.d.toNat, e.vIdx hy.x.d.toNat]

/-! ### Control flow and masks -/

/-- R220: the mask operations. -/
def Obligations.MaskResult : Prop :=
  ∀ (s : State) (g : Group) (b : Block) (x : Ext), ∀ q ∈ maskTable x,
    let e := envOf s g b (lenExt x)
    Full 20 q.1 x e →
    Completes q.2.1 { len := lenExt x } s g b
      (e.putK x (g.arch.past (lenExt x)) (x.d.toNat - 512) fun j => (q.2.2 (e.srcM x.lit x.a) (e.srcM x.lit x.b)).getLsbD j)
      [512 + (x.d.toNat - 512)]

/-- R209, R211, R212, R217 to R219: NOP, RGN, the other branches, returns, jumps and loops set the program counter as their rules say, write
the registers they name, and change nothing else; a jump to a register's value that is no multiple of 4 takes ALIGN (R46).
RGN (R306, R316) is the head of the region before it and opens one that restarts at it, but where the region before it has
issued nothing. -/
def Obligations.BranchResult : Prop :=
  ∀ (s : State) (g : Group) (b : Block) (x : Ext) (f : BracF),
    let a := g.arch
    let e4 := envOf s g b 4
    let e := envOf s g b (lenExt x)
    let p := a.past (lenExt x)
    let goto (q : Arch) (t : Int) : Arch := { q with pc := (t % 2 ^ 64).toNat }
    let far (o : Int) : Int := a.pc + 4 * o
    let d := x.d.toNat - 128
    let i4 : IssueInfo := { len := 4 }
    let i : IssueInfo := { len := lenExt x }
    let irgn : IssueInfo := { len := 4, rgn := true }
    let opens : Prop := ∀ y, g.regions.getLast? = some y → y.started = true
    let aligned (n : Instr) (len : Nat) (v : W64) : Prop := Ready { len } s g b → v.toNat % 4 ≠ 0 →
      exec n s = .next ((envBefore { len } s g b).takeTrap { code := 8 } a.pc).close
    Completes .nop i4 s g b (a.past 4) [] ∧
    Completes .rgn irgn s g b (a.past 4) [] ∧
    (Ready irgn s g b → Room s g ((g.atIssue irgn s.gtc).wrote (a.past 4) []) → ∃ t g', exec .rgn s = .next t ∧
      t.group? g.ref = some g' ∧
      (opens → g'.regions.length = g.regions.length + 1 ∧
        (∃ z, g'.regions.getLast? = some z ∧ z.ctx = a ∧ z.seq = g.nextSeq ∧ z.firstIssue = s.gtc ∧ z.started = false ∧
          z.requests = [] ∧ z.wrote = []) ∧
        ∀ y, g.regions.getLast? = some y → ∃ z, g'.regions[g.regions.length - 1]? = some z ∧ z.seq = y.seq ∧ z.ctx = y.ctx ∧
          z.cover = y.cover ∧ z.headAt = some (y.headAt.getD s.gtc)) ∧
      (¬opens → g'.regions.length = g.regions.length ∧
        ∀ y, g.regions.getLast? = some y → ∃ z, g'.regions.getLast? = some z ∧ z.seq = y.seq ∧ z.ctx = y.ctx ∧
          z.headAt = y.headAt)) ∧
    (e4.blocked [(129, false)] [] = none → (e4.sval 1).toNat % 4 = 0 →
      Completes .ret i4 s g b (goto a ((e4.sval 1).toNat : Int)) []) ∧
    Completes (.brac f) i4 s g b
      (if bracHolds f.cond.toNat (e4.kval f.k.toNat) a.run then goto a (far f.off.toInt) else a.past 4) [] ∧
    (Full 20 1 x e → (e.srcU x.lit x.a).toNat % 4 = 0 → Completes (.callr x) i s g b
      (goto (e.putU p d (BitVec.ofNat 64 (a.pc + lenExt x))) ((e.srcU x.lit x.a).toNat : Int)) (e.uCodes d)) ∧
    (Full 20 2 x e → (e.srcU x.lit x.a).toNat % 4 = 0 →
      Completes (.jmpr x) i s g b (goto a ((e.srcU x.lit x.a).toNat : Int)) []) ∧
    (e4.blocked [(129, false)] [] = none → aligned .ret 4 (e4.sval 1)) ∧
    (Full 20 1 x e → aligned (.callr x) (lenExt x) (e.srcU x.lit x.a)) ∧
    (Full 20 2 x e → aligned (.jmpr x) (lenExt x) (e.srcU x.lit x.a)) ∧
    (Full 20 3 x e → Completes (.loop x) i s g b
      (if e.sval d - 1 ≠ 0 then goto (e.putU p d (e.sval d - 1)) (far (offsetOf x)) else e.putU p d (e.sval d - 1))
      (e.uCodes d)) ∧
    (Full 20 4 x e → Completes (.sbrc x) i s g b
      (if condHolds (x.imm8.toNat % 8) (e.srcU x.lit x.a) (e.srcU x.lit x.b) then goto a (far (offsetOf x)) else p) [])

/-- R213 to R216, R429: DIVB pushes the JOIN entry and, where the threads part, the PENDING one, and runs the threads that fall
through; RCV and EXIT pop the first entry that still has a thread; TRAP enters the handler.  An entry beyond 32 on chip is stored
to the group's slot, at its top downward, and is read back from it when the on-chip part is empty; its 16 bytes are laid out
as in Table 21-5, which is the model's choice (log 139). -/
def Obligations.DivergenceResult : Prop :=
  ∀ (s : State) (g : Group) (b : Block) (x : Ext) (imm : BitVec 18) (ps : List (Option Nat)) (e1 : Env),
    let e := envOf s g b (lenExt x)
    let k := e.kval (x.a.toNat - 512)
    let i4 : IssueInfo := { len := 4 }
    let e4 := envAt i4 s g b
    let ix : IssueInfo := { len := lenExt x }
    let ex := envAt ix s g b
    let p := g.arch.past 4
    let run := g.arch.run
    let spilled := g.arch.spilled
    let taken := (if x.imm8.getLsbD 0 then ~~~k else k) &&& run
    let falls := run &&& ~~~taken
    let target := ((g.arch.pc + 4 * offsetOf x) % 2 ^ 64).toNat
    let parts : Prop := taken ≠ 0 ∧ falls ≠ 0
    let pushed : List DivEntry := if parts then [.pending taken target, .join run none] else [.join run none]
    let now := max spilled (g.arch.stack.length + pushed.length - 32)
    let after : Arch := { g.arch.past (lenExt x) with
      stack := pushed ++ g.arch.stack, spilled := now, run := if parts then falls else run,
      pc := if falls = 0 then target else (g.arch.past (lenExt x)).pc }
    let fits : Prop := ∀ n, spilled ≤ n → n < now → 16 * (n + 1) + g.arch.spillMark ≤ b.kernel.spillSz
    let moved := codes spilled (now - spilled)
    let ws := (ps.zip moved).flatMap fun (q : Option Nat × Nat) => match after.stack.reverse[q.2]? with
      | some (.pending m pc) => (leBytes 4 m.toNat ++ leBytes 4 2 ++ leBytes 8 pc).zipIdx.map fun c => (q.1.getD 0 + c.2, c.1)
      | some (.join m r) =>
        (leBytes 4 m.toNat ++ leBytes 4 (if r = none then 1 else 3) ++ leBytes 8 (r.getD 0)).zipIdx.map fun c =>
          (q.1.getD 0 + c.2, c.1)
      | none => []
    let live (l : List DivEntry) : List DivEntry := l.dropWhile fun d => d.mask = 0
    let left (l : List DivEntry) : Nat := if l.length ≤ spilled then l.length - 1 else spilled
    let pops (n : Instr) (a : Arch) (past : Env → Env) : Prop :=
      (spilled ≤ a.spilled → Ends n i4 s g b (past (e4.setArch a))) ∧
      (a.spilled < spilled → e4.g.memHeld s = false → e4.readHeld = false →
        e4.placeAll false false 16 ((codes a.spilled (spilled - a.spilled)).map e4.divAccess) = .ok (ps, e1) →
        e1.behindAtom false ps 16 = false → Ends n i4 s g b (past ((e1.readPath false ps 16).2.setArch a)))
    let under := live e4.stackNow
    let gone := live (e4.stackNow.map fun d => match d with
      | .pending m pc => .pending (m &&& ~~~run) pc
      | .join m r => .join (m &&& ~~~run) r)
    let exits (rest : List DivEntry) (m : W32) (pc : Nat) : Arch :=
      { p with stack := rest, spilled := left rest, run := m, pc, entryRun := g.arch.entryRun &&& ~~~run }
    (Full 20 0 x e → g.arch.stack.length ≤ 32 + spilled → spilled ≤ g.arch.stack.length → fits →
      (now = spilled → Completes (.divb x) ix s g b after []) ∧
      (spilled < now → ex.g.memHeld s = false → ex.placeAll true false 16 (moved.map ex.divAccess) = .ok (ps, e1) →
        (e1.setArch after).queueRoom false ws → Ends (.divb x) ix s g b ((e1.setArch after).queued false ws))) ∧
    (Full 20 0 x e → g.arch.stack.length ≤ 32 + spilled → spilled ≤ g.arch.stack.length → ¬fits → Ready ix s g b →
      exec (.divb x) s = .next ((envBefore ix s g b).takeTrap { code := 16 } g.arch.pc).close) ∧
    (spilled = 0 → e4.stackNow = g.arch.stack) ∧
    (under = [] → pops .rcv { p with stack := [], spilled := 0 } id) ∧
    (∀ m pc jm r rest, under = .pending m pc :: .join jm r :: rest →
      pops .rcv { p with stack := .join jm (some g.arch.pc) :: rest, spilled := left (.join jm r :: rest), run := m, pc } id) ∧
    (∀ m r rest, under = .join m r :: rest → pops .rcv { p with stack := rest, spilled := left rest, run := m } id) ∧
    (∀ m pc rest, gone = .pending m pc :: rest → pops .exit (exits rest m pc) id) ∧
    (∀ m r rest, gone = .join m (some r) :: rest → pops .exit (exits rest m ((r + 4) % 2 ^ 64)) id) ∧
    (∀ m rest, gone = .join m none :: rest → pops .exit (exits rest m p.pc) id) ∧
    (gone = [] → e4.exitHeld = false → pops .exit (exits [] 0 p.pc) fun e => { e with g := { e.g with
      arch := { e.g.arch with handler := false, vwb := 0, swb := 0 }, ended := true, active := false,
      regions := modLast (fun r => { r with ends := true }) e.g.regions } }) ∧
    (let i : IssueInfo := { len := 4, closing := true }
     Ends (.trap imm) i s g b ((envAt i s g b).takeTrap { code := 31, cause0 := imm.setWidth 64 }
      ((g.arch.pc + 4 : Int) % 2 ^ 64).toNat))

/-- R182, R184: YIELD makes the group a swap candidate; SLEEP makes it one that is not ready before its GTC, or acts as YIELD
for 0 mc. -/
def Obligations.YieldSleepResult : Prop :=
  ∀ (s : State) (g : Group) (b : Block) (x : Ext),
    let at' (n : Nat) (w : Wait) : Env :=
      let e := envAt { len := n } s g b
      { e with g := { e.g with wait := w, waitSince := s.gtc } }
    let n := ((envOf s g b (lenExt x)).srcU x.lit x.a).toNat % 2 ^ 32
    Ends .yield { len := 4 } s g b (at' 4 .yield) ∧
    (Full 26 7 x (envOf s g b (lenExt x)) →
      Ends (.sleep x) { len := lenExt x } s g b (at' (lenExt x) (if n = 0 then .yield else .sleep (s.gtc + n))))

/-! ### The memory family -/

/-- R295 to R301: a load whose accesses all find their places ends with its registers empty and their values on the way: LD
slot by slot, LDU once, LDT row by row.  A helper slot's access that meets a poisoned sector has no place (R157, R421). -/
def Obligations.LoadResult : Prop :=
  ∀ (s : State) (g : Group) (b : Block) (x : Ext) (fb : BmF) (fu : UmF) (ps0 : List (Option Nat)) (e1 : Env),
    let info (len : Nat) : IssueInfo := { len, reads := true }
    (∀ p ∈ [(Instr.ld x, x, lenExt x), (.ldShort fb, bmExt fb, 4)],
      let (n, x, len) := p
      let e := envAt (info len) s g b
      let size := x.imm8.toNat % 8
      let accs := e.slotAccesses x (e.loadSlots x) (2 ^ size)
      Full 21 0 x (envOf s g b len) → e.placeAll false (isBm x) (2 ^ size) accs = .ok (ps0, e1) →
      let ps := e1.spareHelpers (isBm x) (2 ^ size) accs ps0
      e1.behindAtom (isBm x) ps (2 ^ size) = false →
      let got := (e.loadSlots x).zip (ps.map (e1.loaded (isBm x) size (x.imm8.getLsbD 3)))
      Ends n (info len) s g b (e1.loads (isBm x) ps (2 ^ size)
        ((List.range (sizeRegs size)).map fun j => .v (e.vIdx (x.d.toNat + j)) (.ofSlots fun i =>
          match tfind got i with
          | some v => BitVec.ofNat 32 (v / 2 ^ (32 * j))
          | none => (e.vOld (x.d.toNat + j)).slot i)) (accs.map Access.va))) ∧
    (∀ p ∈ [(Instr.ldu x, x, lenExt x), (.lduImm fu, umExt fu, 4)],
      let (n, x, len) := p
      let e := envAt (info len) s g b
      let size := x.imm8.toNat % 4
      let acc : Access := { slot := none, va := e.eaU x, n := 2 ^ size }
      Full 21 2 x (envOf s g b len) → e.placeAll false (isBm x) (2 ^ size) [acc] = .ok (ps0, e1) →
      let ps := ps0
      e1.behindAtom (isBm x) ps (2 ^ size) = false →
      Ends n (info len) s g b (e1.loads (isBm x) ps (2 ^ size)
        [.u (e.uDest x) (BitVec.ofNat 64 (extendLoad size (x.imm8.getLsbD 3)
          (e1.valueAt (isBm x) (e1.ownQueue (isBm x)) (2 ^ size) (ps.headD none))))] [acc.va])) ∧
    (let e := envAt (info (lenExt x)) s g b
     let r := x.imm8.toNat % 8 + 1
     let on := if slots.any fun i => e.active x i then e.loadSlots x else []
     let accs := e.tileAccesses x on
     Full 21 4 x (envOf s g b (lenExt x)) → e.strideTrap x false = none →
     e.placeAll false (isBm x) 4 accs = .ok (ps0, e1) →
     let ps := e1.spareHelpers (isBm x) 4 accs ps0
     e1.behindAtom (isBm x) ps 4 = false →
     let got := ps.map fun p => e1.valueAt (isBm x) (e1.ownQueue (isBm x)) 4 p
     Ends (.ldt x) (info (lenExt x)) s g b (e1.loads (isBm x) ps 4
      ((List.range r).map fun j => .v (e.vIdx (x.d.toNat + j)) (.ofSlots fun i =>
        match tfind on.zipIdx i with
        | some k => BitVec.ofNat 32 (got.getD (k * r + j) 0)
        | none => (e.vOld (x.d.toNat + j)).slot i)) (accs.map Access.va)))

/-- R295 to R301, R311: a store whose accesses all find their places, with room in the core's store queue, ends with its bytes
in the queue, those of a higher slot after those of a lower one; memory is as it was. -/
def Obligations.StoreResult : Prop :=
  ∀ (s : State) (g : Group) (b : Block) (x : Ext) (fb : BmF) (fu : UmF) (ps : List (Option Nat)) (e1 : Env),
    let info (len : Nat) : IssueInfo := { len, writes := true }
    let full (fn : Nat) (x : Ext) (e : Env) : Prop :=
      ∃ u, usage 21 fn x = some u ∧ e.blocked (srcCodes u x ++ (dstCodes u x).map fun n => (n, x.tc)) [] = none
    (∀ p ∈ [(Instr.st x, x, lenExt x), (.stShort fb, bmExt fb, 4)],
      let (n, x, len) := p
      let e := envAt (info len) s g b
      let size := x.imm8.toNat % 8
      let word (i j : Nat) : Nat := ((e.vval (x.d.toNat + j)).slot i).toNat * 2 ^ (32 * j)
      let ws := ((e.storeSlots x).zip ps).flatMap fun p =>
        bytesFrom (p.2.getD 0) (((List.range (sizeRegs size)).map (word p.1)).sum) (2 ^ size)
      full 1 x (envOf s g b len) →
      e.placeAll true (isBm x) (2 ^ size) (e.slotAccesses x (e.storeSlots x) (2 ^ size)) = .ok (ps, e1) →
      e1.queueRoom (isBm x) ws → Ends n (info len) s g b (e1.queued (isBm x) ws)) ∧
    (∀ p ∈ [(Instr.stu x, x, lenExt x), (.stuImm fu, umExt fu, 4)],
      let (n, x, len) := p
      let e := envAt (info len) s g b
      let m := 2 ^ (x.imm8.toNat % 4)
      let ws := bytesFrom ((ps.headD none).getD 0) (e.sval (x.d.toNat - 128)).toNat m
      full 3 x (envOf s g b len) → e.placeAll true (isBm x) m [{ slot := none, va := e.eaU x, n := m }] = .ok (ps, e1) →
      e1.queueRoom (isBm x) ws → Ends n (info len) s g b (e1.queued (isBm x) ws)) ∧
    (let e := envAt (info (lenExt x)) s g b
     let r := x.imm8.toNat % 8 + 1
     let data := (e.storeSlots x).flatMap fun t => (List.range r).map fun j => ((e.vval (x.d.toNat + j)).slot t).toNat
     let ws := (ps.zip data).flatMap fun p => bytesFrom (p.1.getD 0) p.2 4
     full 5 x (envOf s g b (lenExt x)) → e.strideTrap x true = none →
     e.placeAll true (isBm x) 4 (e.tileAccesses x (e.storeSlots x)) = .ok (ps, e1) →
     e1.queueRoom (isBm x) ws → Ends (.stt x) (info (lenExt x)) s g b (e1.queued (isBm x) ws))

/-- R283, R302, R303: SPILL queues the registers' words to the group's spill slot and raises SPILLMARK, FILL reads them back,
and PRF has no effect but on timing. -/
def Obligations.SpillResult : Prop :=
  ∀ (s : State) (g : Group) (b : Block) (x : Ext) (ps : List (Option Nat)) (e1 : Env) (size lo hi : Nat),
    let iw : IssueInfo := { len := lenExt x, writes := true }
    let ir : IssueInfo := { len := lenExt x, reads := true }
    let e0 := envOf s g b (lenExt x)
    let r := x.imm8.toNat % 8 + 1
    ((∃ u, usage 21 6 x = some u ∧ e0.blocked (srcCodes u x ++ (dstCodes u x).map fun n => (n, x.tc)) [] = none) →
      let e := envAt iw s g b
      e.spillRange x = .ok (size, lo, hi) → e.placeAll true false 4 (e.spillAccesses lo hi) = .ok (ps, e1) →
      let e2 := e1.setArch { e1.g.arch with spillMark := max g.arch.spillMark hi }
      let ws := (ps.zip (e.spillWords x)).flatMap fun p => bytesFrom (p.1.getD 0) p.2.toNat 4
      e2.queueRoom false ws → Ends (.spill x) iw s g b (e2.queued false ws)) ∧
    (Full 21 7 x e0 →
      let e := envAt ir s g b
      let accs := e.spillAccesses lo hi
      e.spillRange x = .ok (size, lo, hi) → e.placeAll false false 4 accs = .ok (ps, e1) →
      e1.behindAtom false ps 4 = false →
      let p := e1.readPath false ps 4
      let got := ps.map fun p => BitVec.ofNat 32 (e1.valueAt false (e1.ownQueue false) 4 p)
      Ends (.fill x) ir s g b (p.2.pendResult p.1 ((List.range r).map fun j =>
        if size = 128 then .v (e.vIdx (x.d.toNat + j)) (.g ((got.drop (32 * j)).take 32))
        else .u (e.sIdx (x.d.toNat - 128 + j)) ((got.getD (2 * j + 1) 0 : W32) ++ (got.getD (2 * j) 0 : W32)))
        ((p.2.poisonOf false ps 4 (accs.map Access.va)).map e1.spillFault))) ∧
    (Full 21 8 x e0 → Completes (.prf x) ir s g b (g.arch.past (lenExt x)) [])

/-! ### The copy family -/

/-- R317 to R321, R330: a copy whose descriptor passes the checks of R319 takes a free entry and its range locks, registered at
its issue, and D is its handle; a copy of size 0 takes neither and completes at its region's commit.  CPYG and
CPYS read their index list at issue, as a load does.  CAOUT's descriptor is its own (R355).  That the entry is the lowest free one
is the model's choice (log 68): R317 asks only for an entry. -/
def Obligations.CopyResult : Prop :=
  ∀ (s : State) (g : Group) (b : Block) (x : Ext) (d : CopyDesc) (j : Nat),
    let info (reads : Bool) : IssueInfo := { len := lenExt x, mem := true, role := some 0, reads }
    let e := envAt (info false) s g b
    let reg := x.d.toNat - 128
    let bench := benchOfCore g.core
    let ok (n : Instr) (i : IssueInfo) : Prop :=
      (d.size = 0 → Ends n i s g b
        ((e.hold (.emptyCopy (64 + bench * 2 ^ 32) d.course) [] none false).setS64 reg (BitVec.ofNat 64 (64 + bench * 2 ^ 32)))) ∧
      (d.size ≠ 0 → ((List.range 64).find? fun k => !(s.copy bench k).live) = some j →
        s.locksOnDie (dieOfCore g.core) + (e.locksOf d j).length ≤ 1024 →
        let gen := ((s.copy bench j).gen + 1) % 2 ^ 24
        let c : Copy := { gen, live := true, g := g.ref, owner := b.owner, state := .running, desc := e.shifted d,
                          region := (match e.g.regions.getLast? with | some r => r.seq | none => 0),
                          order := s.nextId, readAt := s.gtc, addr := g.arch.pc,
                          acq := g.acqBefore, ar := g.arBefore }
        let s1 := { s with nextId := s.nextId + 1, rangeLocks := s.rangeLocks ++ e.locksOf d j }
        Ends n i s g b ((e.setS (s1.setCopy bench j c)).setS64 reg (BitVec.ofNat 64 (j + gen * 2 ^ 8 + bench * 2 ^ 32))))
    (∀ p ∈ [(0, Instr.cpy x), (1, .cpyt x), (2, .cpyg x), (3, .cpys x), (4, .cpyr x), (5, .cpyw x)],
      Full 22 p.1 x (envOf s g b (lenExt x)) → e.indexBehind x p.1 = false → e.checkDesc x p.1 = .ok d →
      ok p.2 (info (decide (p.1 = 2 ∨ p.1 = 3)))) ∧
    (let w := e.descWord x
     let d0 : CopyDesc := { kind := 8, src := w 0, dst := w 1, rowBytes := 256 * 32 ^ (w 2 % 8), rows := 1,
                            dspace := bit (w 2) 3, op := w 2 % 8 }
     Full 23 6 x (envOf s g b (lenExt x)) → w 2 % 8 ≤ 4 → w 2 < 64 → w 3 < 2 ^ 32 →
     (w 0 = 0 ∨ s.hasPool b.owner (w 0) = true) → e.pastBench d0 = none → e.courseOf (bit (w 2) 4) (w 3) = .ok d.course →
     d = { d0 with course := d.course } → ok (.caout x) (info false))

/-- R332, R333: CPYQ asks the engine for a handle's status, to be answered at once with .poll and otherwise when the copy has
ended; CPYX's request is held to the commit. -/
def Obligations.CopyQueryResult : Prop :=
  ∀ (s : State) (g : Group) (b : Block) (x : Ext),
    let i : IssueInfo := { len := lenExt x, mem := true, role := some 0 }
    let e := envAt i s g b
    let h := (e.sval (x.a.toNat - 128)).toNat
    let poll := x.imm8.getLsbD 0
    (Full 22 6 x (envOf s g b (lenExt x)) →
      let e1 := e.pendResult Config.latBench [.u (e.uDest x) (BitVec.ofNat 64 (s.copyStatus (benchOfCore g.core) h))] none
      Ends (.cpyq x) i s g b { e1 with
        s := { e1.s with fills := e1.s.fills.map fun f =>
          if f.id = s.nextId then { f with async := true, handle := if poll then none else some h } else f },
        g := { e1.g with waiting := if poll then e1.g.waiting else e1.g.waiting ++ [s.nextId] } }) ∧
    (Full 22 7 x (envOf s g b (lenExt x)) →
      Ends (.cpyx x) i s g b (e.hold (.copyStop h (x.imm8.getLsbD 0)) [] none false))

/-! ### The content-addressed family -/

/-- R349 to R354: CAPUT, CAREF, CAREL and CASWAP hold their requests to the commit with their result registers empty; CAHASH
gives the name, CAGET the contents of a live line, and CAPRB the count, state and kind of a name. -/
def Obligations.ContentResult : Prop :=
  ∀ (s : State) (g : Group) (b : Block) (x : Ext) (c : List Byte) (l : CaLine) (pa : Nat) (e1 : Env),
    let ic : IssueInfo := { len := lenExt x, closing := true, mem := true, reads := true }
    let ir : IssueInfo := { len := lenExt x, mem := true, reads := true }
    let im : IssueInfo := { len := lenExt x, mem := true }
    let e0 := envOf s g b (lenExt x)
    let kind := x.imm8.getLsbD 0
    let hash := nameHash (s.owner b.owner).nkey kind c
    let free (i : IssueInfo) : Prop := (envAt i s g b).caBehind x = false
    let n := e0.srcU x.lit x.a
    let pooled : Prop := n = 0 ∨ s.hasPool b.owner n.toNat = true
    let regs (d : Nat) (c : List Byte) : List RegVal := (List.range 2).map fun j =>
      .v (d + j) (.ofSlots fun t => BitVec.ofNat 32 (leNat ((c.drop (8 * t + 4 * j)).take 4)))
    (Full 23 0 x e0 → (envAt ic s g b).caGather x = .ok c → free ic →
      ((c.all (· = 0)) = true ∨ s.hasPool b.owner (hash * 256) = true) →
      let r : Request := .caput kind c hash (BitVec.ofNat 64 g.arch.pc) ((envAt ic s g b).uCode x.d)
      (envAt ic s g b).requestRoom r →
      Ends (.caput x) ic s g b ((envAt ic s g b).hold r [(envAt ic s g b).uCode x.d] (some 4) false)) ∧
    (Full 23 2 x e0 → (envAt ir s g b).caGather x = .ok c → free ir →
      Completes (.cahash x) ir s g b
        (e0.putU (g.arch.past (lenExt x)) (x.d.toNat - 128) (BitVec.ofNat 64 (if c.all (· = 0) then 0
          else hash * 256 + (if hash = 0 && !kind then 4 else 0) + kindNat kind))) (e0.uCodes (x.d.toNat - 128))) ∧
    (Full 23 1 x e0 →
      (n = 0 → Ends (.caget x) ir s g b ((envAt ir s g b).pendResult 1 (regs (e0.vIdx x.d.toNat) []) none)) ∧
      (n ≠ 0 → s.hasPool b.owner n.toNat = true → s.caFind b.owner n.toNat = some l →
        let p := (envAt ir s g b).namePath n.toNat
        Ends (.caget x) ir s g b (p.2.pendResult p.1 (regs (e0.vIdx x.d.toNat) (s.caContent b.owner n.toNat l))
          ((envAt ir s g b).poisonOf false [some (s.caPa b.owner n.toNat l.slot)] 256 [n.toNat])))) ∧
    (Full 23 7 x e0 → pooled →
      let p := if n = 0 then (1, envAt ir s g b) else (envAt ir s g b).namePath n.toNat
      Ends (.caprb x) ir s g b
        ((p.2.setS64 (x.d.toNat - 128) (BitVec.ofNat 64 (s.caProbe b.owner n.toNat))).withPasses p.1)) ∧
    (∀ q ∈ [(3, Instr.caref x, Request.caref n), (4, .carel x, .carel n)], Full 23 q.1 x e0 → pooled →
      (envAt im s g b).requestRoom q.2.2 → Ends q.2.1 im s g b ((envAt im s g b).hold q.2.2 [] none false)) ∧
    (Full 23 5 x e0 →
      (envAt ic s g b).placeSync true { slot := none, va := n.toNat, n := 8 } = .ok (pa, e1) →
      let r : Request := .caswap n.toNat pa (e1.srcU x.lit x.b) (e1.srcU x.lit x.c) (e1.uCode x.d)
      e1.requestRoom r → Ends (.caswap x) ic s g b (e1.hold r [e1.uCode x.d] (some 4) false))

/-! ### The synchronisation family -/

/-- R382 to R388: ATOM, WAITC, QLOCK and QUNLK hold their requests to the commit, their result registers empty; WAITC and QLOCK
hold the group's later memory instructions too.  QUNLK, a release, reads nothing; the others wait as reads do (R390).  Returned
slots take a lane's 8 passes (R156). -/
def Obligations.SyncResult : Prop :=
  ∀ (s : State) (g : Group) (b : Block) (x : Ext) (u : Usage) (pas : List Nat) (pa : Nat) (e1 : Env),
    let ret := x.imm8.getLsbD 7
    let ia : IssueInfo := { len := lenExt x, closing := ret, mem := true, reads := true }
    let ic : IssueInfo := { len := lenExt x, closing := true, mem := true, reads := true }
    let e0 := envOf s g b (lenExt x)
    let scope := x.imm8.toNat / 16 % 8
    let va := (e0.srcU x.lit x.a).toNat
    (let e := envAt ia s g b
     let grp := codeIsS x.d.toNat
     let w := if x.sat then 8 else 4
     let on := if grp then [0] else slots.filter fun i => e.active x i
     let slotOf (i : Nat) : Option Nat := if grp then none else some i
     let lanes := (on.zip pas).map fun p =>
       (slotOf p.1, p.2, BitVec.ofNat 64 (e1.baseAt x p.1), e1.atomArg x x.b p.1, e1.atomArg x x.c p.1)
     let dst := if grp then e1.uCode x.d else e1.vIdx x.d.toNat
     let r : Request := .atom (x.imm8.toNat % 16) x.sat scope ret lanes (if ret then some dst else none) (!grp)
     usage 24 0 x = some u → e0.blocked (srcCodes u x) (if ret then dstCodes u x else []) = none →
     e.placeSyncAll true (on.map fun i => { slot := slotOf i, va := e.baseAt x i, n := w }) = .ok (pas, e1) →
     e1.requestRoom r →
     Ends (.atom x) ia s g b
      ((if ret && !grp then e1.withPasses 8 else e1).hold r (if !ret then [] else if grp then [dst] else codes dst (w / 4)) (if ret then some scope else none) false)) ∧
    (let e := envAt ic s g b
     let timeout := if x.e = 0 then 0 else (e.srcU x.lit x.e).toNat % 2 ^ 32
     Full 24 1 x e0 → e0.blocked (if x.e = 0 then [] else [(x.e.toNat, false)]) [] = none →
     ¬(x.imm8.toNat % 8 = 7 ∧ timeout = 0) →
     e.placeSync false { slot := none, va, n := if x.imm8.getLsbD 3 then 8 else 4 } = .ok (pa, e1) →
     Ends (.waitc x) ic s g b (e1.hold (.waitc va pa (x.imm8.toNat % 8) (x.imm8.getLsbD 3) scope (e1.srcU x.lit x.b)
      (e1.srcU x.lit x.c) timeout (e1.uCode x.d)) [e1.uCode x.d] (some scope) true)) ∧
    (∀ q ∈ [(2, Instr.qlock x, Request.qlock va pa scope, true), (3, .qunlk x, .qunlk va pa scope, false)],
      let i : IssueInfo := { ic with reads := q.2.2.2 }
      Full 24 q.1 x e0 → (envAt i s g b).placeSync true { slot := none, va, n := 8 } = .ok (pa, e1) →
      Ends q.2.1 i s g b (e1.hold q.2.2.1 [] (some scope) q.2.2.2))

/-- R369, R371, R390 to R401: FENCE marks what it orders, PROMOTE reads as an acquire and stalls the group until its
reply, the barriers and courses hold their
requests to the commit, CSINI queues a course's image, and CSWT passes when its phase holds. -/
def Obligations.OrderResult : Prop :=
  ∀ (s : State) (g : Group) (b : Block) (x : Ext) (ps : List (Option Nat)) (e1 : Env) (n : Nat),
    let len := lenExt x
    let ifen : IssueInfo := { len, mem := true }
    let ir : IssueInfo := { len, reads := true }
    let iw : IssueInfo := { len, writes := true }
    let ic : IssueInfo := { len, closing := true, mem := true }
    let e0 := envOf s g b len
    let scope := x.imm8.toNat / 16 % 8
    let kind := x.imm8.toNat % 4
    let a := (e0.srcU x.lit x.a).toNat
    (Full 24 4 x e0 →
      let e := envAt ifen s g b
      Ends (.fence x) ifen s g b { e with g := { e.g with
        relMark := if kind = 1 ∨ kind = 3 then tput g.relMark scope (s.nextId, s.gtc) else g.relMark,
        acqBefore := if kind = 2 ∨ kind = 3 then some s.nextId else g.acqBefore,
        arBefore := if kind = 3 then tput g.arBefore scope (s.nextId, s.gtc) else g.arBefore } }) ∧
    (let w := if x.imm8.getLsbD 0 then 8 else 4
     Full 24 5 x e0 → (envAt ir s g b).placeAll false false w [{ slot := none, va := a, n := w }] = .ok (ps, e1) →
     e1.behindAtom false ps w = false → e1.promoHeld ((ps.headD none).getD 0) w = false →
     let p := e1.readPath false ps w
     let e2 := p.2.pendResult p.1 [.u (e1.uCode x.d - 128)
       (BitVec.ofNat 64 (e1.valueAt false (e1.ownQueue false) w (ps.headD none)))] (e1.poisonOf false ps w [a])
     Ends (.promote x) ir s g b { e2 with g := { e2.g with stall := some p.2.s.nextId } }) ∧
    (let form := x.imm8.toNat / 16 % 4
     let count := if x.a = 0 ∨ form = 2 then 0 else a
     let e := envAt ic s g b
     (Full 24 6 x e0 → count ≤ b.kernel.groups →
       Ends (.bar x) ic s g b (e.hold (.bar (x.imm8.toNat % 16) form count) [] (some 1) (form ≠ 1))) ∧
     (Full 24 7 x e0 → (s.tcb g.ref.task).coresident = true → count ≤ (s.tcb g.ref.task).blocks * b.kernel.groups →
       Ends (.lbar x) ic s g b (e.hold (.lbar form count) [] (some 3) (form ≠ 1)))) ∧
    (let v := (e0.srcU x.lit x.b).toNat
     let m := v % 32
     let arr := v / 2 ^ 8 % 256
     let rel := v / 2 ^ 16 % 256
     let o := a + e0.benchShift
     let img : List Nat := [m, arr, rel, 0xC5] ++ List.replicate 12 0 ++
       (List.range m).flatMap fun _ => [arr, rel, 0, 0, 0, 0, 0, 0]
     let ws := img.zipIdx.map fun c => (o + c.2, BitVec.ofNat 8 c.1)
     Full 24 8 x e0 → a % 16 = 0 → v = m + arr * 2 ^ 8 + rel * 2 ^ 16 → 2 ≤ m → m ≤ 16 → arr ≠ 0 → rel ≠ 0 →
     a + (16 + 8 * m) ≤ e0.kernel.benchMem → o / 524288 = (o + (16 + 8 * m) - 1) / 524288 →
     (envAt iw s g b).queueRoom true ws → Ends (.csini x) iw s g b ((envAt iw s g b).queued true ws)) ∧
    (let o := a + e0.benchShift
     let r := (e0.srcU x.lit x.b).toNat % 2 ^ 32
     (Full 24 9 x e0 → (envAt ic s g b).isCourse x n →
       Ends (.csarv x) ic s g b ((envAt ic s g b).hold (.csarv o (r % n)) [] (some 1) false)) ∧
     (Full 24 11 x e0 → (envAt iw s g b).isCourse x n → (envAt iw s g b).requestRoom (.csrel o (r % n)) →
       Ends (.csrel x) iw s g b ((envAt iw s g b).hold (.csrel o (r % n)) [] (some 1) false)) ∧
     (let e := envAt ir s g b
      let q := o + 18 + 8 * (r % n)
      let ph := e.valueAt true (e.ownQueue true) 1 (some q)
      Full 24 10 x e0 → e.isCourse x n → e.behindAtom true [some q] 1 = false →
      (if x.imm8.getLsbD 0 then ph / 2 % 2 = r / n % 2 else ph % 2 = (r / n + 1) % 2) →
      Completes (.cswt x) ir s g b (g.arch.past len) []))

/-! ### The matrix family -/

/-- R259 to R281: the instructions that work on the matrix engine, issued by a matrix-role group where no other group holds what
they name and the copies they need are free: the tiles, slots and codebook they write, and the registers they fill.  MST leaves its
rows, each with an entry for every 64 bytes, to the engine, which puts them into the store queue in order (log 129). -/
def Obligations.MatrixResult : Prop :=
  ∀ (s : State) (g : Group) (b : Block) (x : Ext) (f : MxFmt) (ps : List Nat) (e1 : Env),
    let i : IssueInfo := { len := lenExt x, role := some 1 }
    let iw : IssueInfo := { i with writes := true }
    let e0 := envOf s g b (lenExt x)
    let e := envAt i s g b
    let c := s.core g.core
    let imm := x.imm8.toNat
    (Full 25 0 x e0 → e.mxBlock x.a = .ok f →
      let reads := [8 + imm / 8 % 2, 10 + imm / 16] ++
        (if (!f.bsp && takesPair f.b.fmt f.k) = true then [11 + imm / 16] else []) ++ (if f.b.fmt = 10 then [26] else [])
      let on (r : Nat) : Bool := e.active x (r / 2)
      mmaTrap c f (imm / 8 % 2) (imm / 16) = none →
      ((slots.all fun t => !e.active x t) = true → e.mxHeld reads = false → Ends (.mma x) i s g b e.mxWorked) ∧
      ((slots.all fun t => !e.active x t) = false → e.mxHeld reads = false → e.mxReady reads [imm % 8] →
        Ends (.mma x) i s g b (e.mxWrote [imm % 8] fun c =>
          c.setTile (imm % 8) (mmaTile c s.freeCtr f (imm / 8 % 2) (imm / 16) (imm % 8) on)).mxWorked)) ∧
    (Full 25 4 x e0 → e.mxReady [] [imm % 8] →
      Ends (.mzero x) i s g b (e.mxWrote [imm % 8] fun c => c.setTile (imm % 8) [])) ∧
    (Full 25 9 x e0 → e.mxReady [imm / 8 % 8] [imm % 8] →
      Ends (.mscl x) i s g b (e.mxWrote [imm % 8] fun c => c.setTile (imm % 8) (ofDense ((denseOf (c.tile (imm / 8 % 8)) 0 4096).map
        (msclElem (mxMode x.rm) (x.imm8.getLsbD 6) (e.srcS32 (.flt .f32) x.lit x.a)))))) ∧
    (Full 25 5 x e0 → e.mxHeld [imm % 8] = false →
      let row (t : Nat) : List W32 := c.eight (imm % 8) (2 * t + imm / 8 % 2) (imm / 16 % 8)
      let half (t k : Nat) : Nat := mxConvert 1 (mxMode x.rm) x.sat ((row t).getD k 0)
      let val (j t : Nat) : W32 :=
        if x.imm8.getLsbD 7 then BitVec.ofNat 32 (half t (2 * j) + half t (2 * j + 1) * 65536) else (row t).getD j 0
      Ends (.mrd x) i s g b ((e.pendResult 12 ((List.range (if x.imm8.getLsbD 7 then 4 else 8)).map fun j =>
        .v (e.vIdx (x.d.toNat + j)) (.ofSlots fun t =>
          if e.parts x t then val j t else (e.vOld (x.d.toNat + j)).slot t)) none).withPasses 8)) ∧
    (Full 25 6 x e0 →
      let on := slots.filter fun t => e.active x t
      let put (c : Core) : Core := c.setTile (imm % 8) (on.foldl (fun t r => (List.range 8).foldl (fun t k =>
        tset 0 t (64 * (2 * r + imm / 8 % 2) + 8 * (imm / 16 % 8) + k) ((e.vval (x.a.toNat + k)).slot r)) t) (c.tile (imm % 8)))
      (on = [] → e.mxHeld [imm % 8] = false → Ends (.mwr x) i s g b (e.withPasses 8)) ∧
      (on ≠ [] → e.mxReady [] [imm % 8] → Ends (.mwr x) i s g b ((e.mxWrote [imm % 8] put).withPasses 8))) ∧
    (Full 25 8 x e0 → e.mxBlock x.a = .ok f → f.bsp = true →
      let y := imm % 16
      let pair := takesPair f.b.fmt f.k
      let items := (10 + y) :: (if pair then [11 + y] else [])
      let sl := c.slot (2 + y)
      sl.state = 2 → sl.fmt = f.b.fmt → sl.len32 = f.b.len32 → sl.scaled = f.b.scaled → ¬(pair = true ∧ y % 2 = 1) →
      e.mxHeld [10 + y] = false → e.mxReady [] items →
      Ends (.mcmp x) i s g b (e.mxWrote items fun c =>
        let c1 := c.setSlot (2 + y) (sl.compress s.freeCtr f.k)
        if pair then c1.setSlot (3 + y) {} else c1)) ∧
    (let e := envAt iw s g b
     let eb := mstBytes (imm / 16)
     let bm := !x.imm8.getLsbD 3
     let ws := (ps.flatMap fun p => codes p 16).zip ((denseOf (c.tile (imm % 8)) 0 4096).flatMap fun v =>
       leBytes eb (mstElem (imm / 16) (mxMode x.rm) x.sat v))
     let row (m : Nat) : List (Nat × Byte) := (ws.drop (64 * eb * m)).take (64 * eb)
     let rows := (List.range 64).map fun m => (List.range (((row m).length + 63) / 64)).flatMap fun j =>
       ((e1.entriesOf bm (((row m).drop (64 * j)).take 64)).zipIdx).map fun q => { q.1 with slots := if q.2 = 0 then 1 else 0 }
     let c1 := e1.s.core g.core
     let st : RowStore :=
       { g := g.ref, region := (match e1.g.regions.getLast? with | some r => r.seq | none => 0), rows }
     Full 25 7 x e0 → e.eaU x % 16 = 0 → e.stride x % 16 = 0 → e.mxHeld [imm % 8] = false →
     e.placeChunks true bm (rowChunks (e.eaU x) (e.stride x) (64 * eb)) = .ok (ps, e1) →
     Ends (.mst x) iw s g b (e1.setS (e1.s.setCore g.core { c1 with stores := c1.stores ++ [st] })))

/-- R274, R275: MLDA, MLDB and MCBT read their bytes as one access of the group and write the slots or the codebook, which are
valid when the data has arrived. -/
def Obligations.MatrixLoadResult : Prop :=
  ∀ (s : State) (g : Group) (b : Block) (x : Ext) (f : MxFmt) (ps : List Nat) (e1 : Env),
    let i : IssueInfo := { len := lenExt x, role := some 1, reads := true }
    let e0 := envOf s g b (lenExt x)
    let e := envAt i s g b
    let base := e.eaU x
    let imm := x.imm8.toNat
    let load (n : Instr) (bm : Bool) (items : List Nat) (cs ss : List (Nat × Nat)) (k : List Byte → Core → Core) : Prop :=
      let data := (ps.take cs.length).map some
      let scales := (ps.drop cs.length).map some
      base % 16 = 0 → e.mxReady [] items → e.placeChunks false bm (cs ++ ss) = .ok (ps, e1) →
      e1.behindAtom bm data 16 = false → e1.behindAtom bm scales 1 = false →
      let p := e1.readPath bm data 16
      let q := p.2.readPath bm scales 1
      q.2.poisonOf bm data 16 (cs.map (·.1)) = none → q.2.poisonOf bm scales 1 (ss.map (·.1)) = none →
      let e2 := q.2.pendResult (max p.1 q.1) [] none
      e2.mxReady [] items →
      Ends n i s g b (e2.mxWrote items (k (e1.readChunks bm (e1.ownQueue bm) (cs ++ ss) ps)))
    let tile (n : Instr) (isA : Bool) (side : MxSide) (slot0 : Nat) (bm pair : Bool) : Prop :=
      let rb := rowBytes side.fmt f.k
      side.stride % 16 = 0 →
      load n bm ((8 + slot0) :: (if pair then [9 + slot0] else [])) (rowChunks base side.stride rb) (scaleChunks side base f.k)
        fun bytes c =>
          let sl : MxSlot := { fmt := side.fmt, len32 := side.len32, scaled := side.scaled, stride := side.stride }
          let st := if !isA && f.bsp then 2 else 1
          let c1 := c.setSlot slot0 { sl with state := st, data := bytes.take (64 * rb), scale := bytes.drop (64 * rb) }
          if pair then c1.setSlot (slot0 + 1) { sl with state := 4 } else c1
    (Full 25 1 x e0 → e.mxBlock x.b = .ok f → tile (.mlda x) true f.a (imm % 2) (!x.imm8.getLsbD 1) false) ∧
    (Full 25 2 x e0 → e.mxBlock x.b = .ok f → ¬(takesPair f.b.fmt f.k = true ∧ imm % 2 = 1) →
      tile (.mldb x) false f.b (2 + imm % 16) (!x.imm8.getLsbD 4) (takesPair f.b.fmt f.k)) ∧
    (Full 25 3 x e0 →
      load (.mcbt x) (!x.imm8.getLsbD 0) [26] ((List.range 128).map fun j => ((base + 16 * j) % 2 ^ 64, 16)) [] fun bytes c =>
        { c with codebook := ((List.range 256).map fun j =>
          (j, BitVec.ofNat 64 (leNat ((bytes.drop (8 * j)).take 8)))).filter fun q => q.2 ≠ 0 })

/-! ### The task and system family -/

/-- R177, R179, R181, R183: SGET reads a special register, TIME the cycle counter or the bench's effective cycles, PWRQ the power
word; SSET writes FMODE's fields and the block's TARMCFG, of whose writes in one mc the highest group's stands, and discards a
write of a register with none that it may write. -/
def Obligations.SpecialResult : Prop :=
  ∀ (s : State) (g : Group) (b : Block) (x : Ext),
    let i : IssueInfo := { len := lenExt x }
    let e0 := envOf s g b (lenExt x)
    let e := envAt i s g b
    let p := g.arch.past (lenExt x)
    let d := x.d.toNat - 128
    let v := e0.srcU x.lit x.a
    (Full 26 3 x e0 → Completes (.sget x) i s g b (e0.putU p d (e.specialReg x.imm8.toNat)) (e0.uCodes d)) ∧
    (Full 26 8 x e0 → Completes (.time x) i s g b
      (e0.putU p d (if x.imm8 = 0 then BitVec.ofNat 64 s.gtc else BitVec.ofNat 64 (s.effCycles (benchOfCore g.core))))
      (e0.uCodes d)) ∧
    (Full 26 10 x e0 → Completes (.pwrq x) i s g b (e0.putU p d e0.powerWord) (e0.uCodes d)) ∧
    (Full 26 4 x e0 →
      (x.imm8 = 0 → Completes (.sset x) i s g b { p with fmode := writeFmode g.arch.fmode v } [1024]) ∧
      (x.imm8 = 4 → Ends (.sset x) i s g b { e with b := b.arm s.gtc g.ref.gid v }) ∧
      (x.imm8 ≠ 0 → x.imm8 ≠ 4 → Completes (.sset x) i s g b p [])) ∧
    (Full 26 6 x e0 → Ends (.tarm x) i s g b
      ({ e with b := b.arm s.gtc g.ref.gid v }.setS64 d
        (if (s.bench (benchOfCore g.core)).throttling then 1 else 0)))

/-- R120 to R124, R132 to R134, R150: SPAWN reads and checks its record and holds the request, JOIN holds its own, TFETCH takes the
next tile index of the block where one stands or none is to come (which tiles its record keeps beyond the last 16 is the model's
choice, log 135), and ICINV stalls the group until the invalidation is complete. -/
def Obligations.TaskResult : Prop :=
  ∀ (s : State) (g : Group) (b : Block) (x : Ext) (ps : List (Option Nat)) (e1 : Env),
    let len := lenExt x
    let iq : IssueInfo := { len, closing := true, mem := true, reads := true }
    let ij : IssueInfo := { len, closing := true }
    let it : IssueInfo := { len }
    let ii : IssueInfo := { len }
    let e0 := envOf s g b len
    let va := (e0.srcU x.lit x.a).toNat
    (let e := envAt iq s g b
     Full 26 1 x e0 → va % 64 = 0 → e.placeAll false false 64 [{ slot := none, va, n := 64 }] = .ok (ps, e1) →
     let r := e1.bytesAt false (e1.ownQueue false) ((ps.headD none).getD 0) 64
     e1.behindAtom false ps 64 = false → spawnOk r = true →
     let p := e1.readPath false ps 64
     let e2 := p.2.pendResult p.1 [] (e1.poisonOf false ps 64 [va])
     Ends (.spawn x) iq s g b (e2.hold (.spawn r (e1.uCode x.d)) [e1.uCode x.d] (some 4) false)) ∧
    (Full 26 2 x e0 → (s.tcb g.ref.task).coresident = false →
      Ends (.join x) ij s g b
        ((envAt ij s g b).hold (.join ((envAt ij s g b).uCode x.d)) [(envAt ij s g b).uCode x.d] (some 4) true)) ∧
    (let e := envAt it s g b
     let k := g.arch.cursor
     let t := s.tcb g.ref.task
     let take := k = b.recNext
     let got := if b.exhausted then (none, t) else t.pop g.ref.task b.die (s.die b.die).batch s.gtc
     let v : Int := if take then (match got.1 with | some j => j | none => -1) else tget 0 b.tileRec k
     let others := (s.groupsOf b.ref).filter fun h => !h.exited && h.ref ≠ g.ref
     let lowest := (others.map Group.restartCursor).foldl min e.g.restartCursor
     let b' : Block := if take then { b with
       exhausted := b.exhausted || got.1.isNone, recNext := k + 1,
       tileRec := tset 0 (b.tileRec.filter fun q => k - 15 ≤ q.1 || lowest ≤ q.1) k v } else b
     let p := (if take then s.setTcb g.ref.task got.2 else s).delay Config.latScratch
     Full 26 0 x e0 → (∀ h ∈ others, k < h.arch.cursor + 16) →
     (take → b.exhausted = false → tget [] t.stock b.die = [] → t.dry b.die = true ∧ tfind t.asked b.die = none) →
     Ends (.tfetch x) it s g b
      (({ e with s := p.2, b := b' }.setArch { e.g.arch with cursor := k + 1 }).pendResult p.1
        [.u (e.uDest x) (tileWord (t.tshape % 65536) v)] none)) ∧
    (let e := envAt ii s g b
     let n := (e0.srcU x.lit x.b).toNat
     let scope := x.imm8.toNat % 8
     let r := icinvRanges s b.owner (fieldOfCore g.core) va n
     let waits (t : State) (ranges : Option (List (Nat × Nat))) : Env :=
       { e with s := t, g := { e.g with wait := .icinv (t.gtc + icinvBound scope) scope ranges } }
     Full 26 5 x e0 → e.released = true →
     Ends (.icinv x) ii s g b (if n = 0 ∨ 2 ^ 32 ≤ n then waits s none else waits r.2 (some r.1)))

/-- R430, R175: RTE returns from the trap, and where the block has a pending throttle edge its elected group takes it. -/
def Obligations.RteResult : Prop :=
  ∀ (s : State) (g : Group) (b : Block) (x : Ext),
    let i : IssueInfo := { len := lenExt x, closing := true }
    let e0 := envOf s g b (lenExt x)
    let e1 := (envAt i s g b).setArch (g.arch.past (lenExt x)).returnFromTrap
    let e2 := { e1 with b := { b with edgePend := false } }
    let t := some (b.edgeKind, b.edgeCause)
    let elected := electGroup (e1.g :: (s.groupsOf b.ref).filter fun h => h.ref ≠ g.ref)
    Full 26 9 x e0 → g.arch.handler = true → e0.blocked [(128 + 377, false)] [] = none →
    (b.edgePend = false →
      Completes (.rte x) i s g b { g.arch with
        pc := (g.arch.ureg 377).val.toNat / 4 * 4, run := g.arch.entryRun, handler := false, vwb := 0, swb := 0 } []) ∧
    (b.edgePend = true → ∀ h, elected = some h →
      Ends (.rte x) i s g b (if h.ref = g.ref then { e2 with g := { e2.g with throttle := t } }
        else e2.setS (e2.s.modGroup h.ref fun g => { g with
          throttle := t, wait := match g.wait with | .sleep _ => .ready | w => w })))
/-! ### The queues and their packets -/

/-- R78, R92, R97, R109: a write of QWPTR, QCTL.EN going to 1 or written 0, and a stall that ends.  That a halt drops the packet
in flight, and that an enable clears what the queue has pending, are the model's choices (logs 92, 152). -/
def Obligations.QueueRegisters : Prop :=
  ∀ (s : State) (fn n val : Nat),
    let q := s.queue n
    let off := val % 2 ^ 24
    exec (.qwptrWrite fn n val) s =
      .next (s.setQueue n (if off % 4 = 0 ∧ off < 2 ^ q.log then { q with wptr := off } else { q with badPtr := true })) ∧
    (q.en = false → ∃ t, exec (.queueEnable fn n val) s = .next t ∧
      let u := t.queue n
      u.en = true ∧ u.pos = q.rptr ∧ u.rptr = q.rptr ∧ u.wptr = q.wptr ∧ u.levels = [] ∧ u.loops = [] ∧ u.pred = true ∧
        u.edges = [] ∧ u.preds = [] ∧ u.launches = 0 ∧ u.recent = [] ∧ u.ownerNow = none ∧ u.inflight = []) ∧
    (∃ t, exec (.queueHalt fn n val) s = .next t ∧
      let u := t.queue n
      u.en = false ∧ u.code = 0 ∧ u.level = 0 ∧ u.rptr = q.rptr ∧ u.inflight = [] ∧
        ∀ x ∈ q.recent, (s.tcb x).state = .retired → (t.tcb x).state = .free) ∧
    (q.stalled = true → s.launchRoom n = true →
      exec (.parserStallResume n) s = .next (s.setQueue n { q with stalled := false }))

/-- R79, R81, R92: a parser core takes the packet of the queue that R79 names; its region closes when it has been parsed, a PRED's
or a WAIT's with what its compare comes to then (R86), and commits W mc later, or at the end of its tags; a committed packet
with a fault halts its queue there; one whose effect has been applied, or that is skipped, moves QRPTR past it (here at level 0
and outside a loop).  That parsing takes `parseLatency` mc, and that a queue has one packet in flight, are the model's
choices (log 86), as is the moment at which the word of a PRED or a WAIT is read. -/
def Obligations.PacketLife : Prop :=
  ∀ (s s1 : State) (die n : Nat) (p : Packet) (q : Queue) (rest : List Packet),
    let v := s.queue n
    let parsed : Prop := v.inflight = p :: rest ∧ v.en = true ∧ p.parseEnd ≤ s.gtc
    let due : Prop := parsed ∧ ∃ g, p.commitAt = some g ∧ g ≤ s.gtc
    let reads : Prop := (p.type = 5 ∨ p.type = 7) ∧ p.fault = 0 ∧ p.skip = false
    let next := (v.pos + 4 * p.words) % 2 ^ v.log
    (s.parseChoice die = some n → s.nextPacket n = .packet p q s1 → ∃ t, exec (.packetParse die) s = .next t ∧
      t.queue n = { q with inflight := [{ p with parseEnd := s.gtc + parseLatency }] } ∧
      (∀ m, m ≠ n → t.queue m = s1.queue m) ∧ t.mem = s1.mem ∧ t.tcbs = s1.tcbs) ∧
    (parsed → p.commitAt = none → ¬reads → exec (.packetPerform n) s =
      .next (s.setQueue n { v with inflight := [{ p with commitAt := some (max (s.gtc + s.qwin) (s.tagsEnd p.tags)) }] })) ∧
    (parsed → p.commitAt = none → reads → ∃ t r, exec (.packetPerform n) s = .next t ∧ (t.queue n).inflight = [r] ∧
      r.value = some (maskedCompare (bodyWord p.body 6) true (s.valueAt (s.queueKey v (p.pas.headD 0)) (p.pas.headD 0) 8)
        (bodyDouble p.body 4) (bodyDouble p.body 2)) ∧
      p.cover ⊆ r.cover ∧ p.tags ⊆ r.tags ∧ r.commitAt = some (max (s.gtc + s.qwin) (s.tagsEnd r.tags)) ∧ t.mem = s.mem) ∧
    (due → p.fault ≠ 0 → ∃ t, exec (.packetPerform n) s = .next t ∧
      let u := t.queue n
      u.code = p.fault ∧ u.level = p.level ∧ u.foff = p.addr ∧ u.inflight = [] ∧ u.edges = [] ∧ u.preds = [] ∧
        u.rptr = v.rptr ∧ t.msix = s.msix ++ (if v.fie then [v.vec] else []) ∧ t.mem = s.mem ∧ t.tcbs = s.tcbs) ∧
    (due → p.fault = 0 → (p.done || p.skip) = true → p.opens = false → v.levels = [] → v.loops = [] →
      exec (.packetPerform n) s =
        .next (s.setQueue n { (({ v with pos := next } : Queue).trim) with rptr := next, inflight := [] }))

/-- R81, R84 to R87, R89 to R91, R315: the effect of each packet type that does not wait; `p` is the committed packet.  A write
that leaves the die is held there first, then performs. -/
def Obligations.PacketEffects : Prop :=
  ∀ (s : State) (n : Nat) (p : Packet),
    let q := s.queue n
    let pa := p.pas.headD 0
    let key := s.queueKey q pa
    let w (i : Nat) : Nat := bodyWord p.body i
    let due (type : Nat) : Prop := q.due s.gtc type = some p
    let held : Prop := p.sent = none ∧ s.packetHold n p ≠ 0
    let clear : Prop := (p.sent = none ∧ s.packetHold n p = 0) ∨ ∃ g, p.sent = some g ∧ g ≤ s.gtc
    let holds := Host.Outcome.next (s.setQueue n
      { q with inflight := [{ p with sent := some (s.gtc + s.qwin + s.packetHold n p) }] })
    (due 0 → exec (.nopPacket n) s = .next (s.packetDone n p)) ∧
    (due 1 → clear → exec (.write n) s = .next
      (((p.pas.zip (p.body.drop 2)).foldl (fun t x => t.performBytes (t.queueKey q x.1) x.1 (bytesOfWord x.2)) s).packetDone n
        p)) ∧
    (due 1 → held → exec (.write n) s = holds) ∧
    (∀ producer, due 3 → q.recent[w 0 % 2 ^ 12 - 1]? = some producer → ∃ t, exec (.edge n) s = .next t ∧
      (t.queue n).preds = (if producer ∈ q.preds then q.preds else q.preds ++ [producer]) ∧
      (t.queue n).edges = (if bit (w 0) 12 then q.edges ++
        [{ handle := bodyDouble p.body 2, producer, pslot := w 1 % 4, cslot := w 1 / 4 % 4, transient := bit (w 0) 13,
           keep := bit (w 0) 14 }] else q.edges)) ∧
    (due 4 → ∃ t, exec (.ib n) s = .next t ∧
      (t.queue n).levels = { addr := bodyDouble p.body 0, left := w 2 } :: (q.consume p).levels) ∧
    (∀ v, due 5 → p.value = some v → ∃ t, exec (.pred n) s = .next t ∧ (t.queue n).pred = v) ∧
    (due 6 → ∃ t, exec (.loopPacket n) s = .next t ∧
      (t.queue n).loops = { level := (q.consume p).depth, addr := p.addr, size := w 0 % 128, count := w 0 / 256 % 256 } ::
        (q.consume p).loops) ∧
    (due 8 → (w 4 % 4 = 1 → s.launchesRetired n = true) → held → exec (.signal n) s = holds) ∧
    (due 8 → (w 4 % 4 = 1 → s.launchesRetired n = true) → clear →
      let old := if bit (w 4) 2 then s.valueAt key pa 8 else 0
      let u := s.performBytes key pa (leBytes 8 ((old + bodyDouble p.body 2) % 2 ^ 64))
      exec (.signal n) s = .next
        (({ u with msix := if bit (w 4) 3 then u.msix ++ [w 4 / 16 % 2048] else u.msix } : State).packetDone n p)) ∧
    (due 9 → ∃ t, exec (.fetchFence n) s = .next t ∧
      (t.queue n).window = [] ∧ ∀ l ∈ (t.queue n).levels, l.window = []) ∧
    (∀ g, due 10 → p.commitAt = some g → clear → exec (.timestamp n) s =
      .next ((s.performBytes key pa (leBytes 8 (g % 2 ^ 64))).packetDone n p)) ∧
    (due 10 → held → exec (.timestamp n) s = holds) ∧
    (due 12 → ∃ t, exec (.owner n) s = .next t ∧ (t.queue n).ownerNow = some (w 0 % 1024))

/-- R83, R84, R86, R99, R449, R450: the packets that may wait: LAUNCH builds one TCB with the pending edges, or stalls the
queue; WAIT stands until its compare holds or its timeout expires; CHECKPOINT starts, and ends.  That a WAIT's timeout and its
polling of host memory count from the first evaluation that fails is the model's choice (log 91), and so are when an image is
taken and how it is cut (log 94). -/
def Obligations.PacketWaits : Prop :=
  ∀ (s : State) (n : Nat) (p : Packet),
    let q := s.queue n
    let pa := p.pas.headD 0
    let w (i : Nat) : Nat := bodyWord p.body i
    let due (type : Nat) : Prop := q.due s.gtc type = some p
    let watch : Watch := { pa, cc := w 6, ref := bodyDouble p.body 4, mask := bodyDouble p.body 2 }
    let faults (t : State) (code : Nat) : Prop :=
      (t.queue n).code = code ∧ (t.queue n).level = p.level ∧ (t.queue n).foff = p.addr ∧ (t.queue n).inflight = []
    (∀ id, due 2 → s.launchRoom n = true → s.freeTcb (n / 64 % 2) = some id → ∃ t, exec (.launch n) s = .next t ∧
      let c := t.tcb id
      let live := q.preds.filter fun x => (s.tcb x).state ≠ TaskState.retired
      c.state = (if live = [] then .ready else .waiting) ∧ c.preds = live.length ∧ c.prio = min (w 6 / 256 % 8) q.prio ∧
        c.queue = n ∧ c.seq = q.launches % 2 ^ 32 ∧ c.kdesc = bodyDouble p.body 0 ∧ c.args = bodyDouble p.body 2 ∧
        c.tiles = w 4 ∧ c.tshape = w 5 ∧ c.fmask = w 6 % 256 ∧ c.coresident = bit (w 6) 11 ∧ c.spliceOk = bit (w 6) 12 ∧
        c.edges = q.edges ∧ c.owner = q.packetOwner ∧ t.mem = (live.foldl (State.addSucc · · id) s).mem ∧
        (live.Nodup → ∀ x ∈ live, x ≠ id → (t.tcb x).succCnt = (s.tcb x).succCnt + 1) ∧
        (t.queue n).launches = q.launches + 1 ∧ (t.queue n).edges = [] ∧ (t.queue n).preds = []) ∧
    (due 2 → s.launchRoom n = false → exec (.launch n) s = .next (s.setQueue n { q with stalled := true })) ∧
    (due 7 → p.watch = none → p.value = some true ∨ watch.holdsNow s q.packetOwner = true →
      exec (.wait n) s = .next (s.packetDone n p)) ∧
    (due 7 → p.watch = none → p.value ≠ some true → watch.holdsNow s q.packetOwner = false → exec (.wait n) s =
      .next (s.setQueue n { q with inflight := [{ p with
        watch := some watch, waitUntil := if w 7 = 0 then none else some (s.gtc + 1000 * w 7), pollAt := s.gtc + 2000 }] })) ∧
    (∀ v : Watch, due 7 → p.watch = some v → p.reevaluateDue s.gtc = true → v.met = true ∨ v.holdsNow s q.packetOwner = true →
      exec (.waitReevaluate n) s = .next (s.packetDone n { p with watch := none })) ∧
    (∀ (v : Watch) (g : Nat), due 7 → p.watch = some v → v.met = false → p.waitUntil = some g → g ≤ s.gtc →
      ∃ t, exec (.waitTimeout n) s = .next t ∧ faults t 11) ∧
    (due 11 → s.launchesRetired n = true → (∀ c ∈ s.checkpoints, c.queue ≠ n) →
      let d := p.pas.map fun pa => s.readByte (s.queueKey q pa) pa
      ∃ t, exec (.checkpoint n) s = .next t ∧
        (checkpointOk d = true → t.checkpoints = s.checkpoints ++ [{
          queue := n, desc := p.pas, owner := q.packetOwner, flags := recField d 4 4, ports := recField d 8 2,
          sink := recField d 0x10 8, limit := recField d 0x18 8, start := s.gtc }]) ∧
        (checkpointOk d = false → faults t 10)) ∧
    (∀ c, due 11 → s.checkpoints.find? (fun c => c.queue = n) = some c → s.checkpointDue c = true →
      (p.sent = none ∧ s.packetHold n p = 0) ∨ (∃ g, p.sent = some g ∧ g ≤ s.gtc) → ∃ t, exec (.checkpointDone n) s = .next t ∧ (∀ x ∈ t.checkpoints, x.queue ≠ n) ∧
        (t.queue n).inflight = [{ p with done := true }])

/-! ### Tasks and blocks -/

/-- R101, R102, R108, R110, R111, R115, R128, R129, R132, R433, R439, R440.  Each dispatcher event COMPLETES with its effect:
SPLICE_DECISION refuses with its code or fuses the pair; PLACE_BLOCK places the first candidate's next block, or its first
once the kernel has been read, or ends a cancelled task; BLOCK_RESUME gives a saved block its span; RESERVATION reserves;
RESERVATION_PREEMPT and PREEMPT stop blocks to be saved; DISPENSER_REFILL asks for a refill and performs it; KILL ends its
task, and is done once that has left RUNNING.  That a refill takes the way to the counter's home slice to come is the
model's choice (log 134), and so is the lowest free unit of the save pool (log 68). -/
def Obligations.DispatcherEvents : Prop :=
  ∀ (s s1 : State) (task die lead n : Nat) (c : Candidate) (cs : List Candidate) (r : BlockRef) (b : Block) (bs : List Block)
    (k : Kernel) (spill : List Nat),
    let t0 := s.tcb task
    let tc := s.tcb c.task
    let d := s.die die
    let chance (die : Nat) : Prop := s.placing = true ∧ s.candidates die = c :: cs
    let asked (op : Nat) : Prop := d.pctlDone = false ∧ d.runOp = op ∧ s.drone.recovering = none
    let go : Prop := asked 1 ∧ d.pctlBegun = false
    let here : Prop := dieOfTask d.runTask = die ∧ d.runTask < 2 ^ 21
    let ended (u : State) (result : Nat) : Prop := (u.die die).pctlDone = true ∧ (u.die die).pctlResult = result
    let sq := s.squashAll ((s.groupsOf b.ref).map fun g => g.ref)
    let total := (b.areaLayout (sq.groupList b)).2.2
    let room : Prop := s.block? b.ref = some b ∧
      pickUnits (sq.die b.die).saveUnits (sq.die b.die).saveSize ((total + 65535) / 65536) = some n
    let stops (u : State) : Prop :=
      (∃ x ∈ u.blocks, x.ref = b.ref) ∧
      ∀ x ∈ u.blocks, x.ref = b.ref → x.state = .saving 1 n ((total + 65535) / 65536) (s.gtc + 24 + (total + 311) / 312)
    (t0.splicing = true → ∀ code, s.spliceTests task = .error code → ∃ u, exec (.spliceDecision task) s = .next u ∧
      (u.tcb task).refusal = code ∧ (u.tcb task).splicing = false ∧ (u.tcb task).state = t0.state) ∧
    (t0.splicing = true → ∀ pl f, s.spliceTests task = .ok pl → pl.fuse task = some f → pl.pTask ≠ task →
      ∃ u, exec (.spliceDecision task) s = .next u ∧
        let p := pl.s.tcb pl.pTask
        let k := pl.s.tcb task
        (u.tcb task).state = .fused ∧ (u.tcb task).fusedWith = pl.pTask ∧ (u.tcb pl.pTask).fusedFlag = true ∧
          (u.tcb pl.pTask).fusedWith = task ∧ (u.tcb pl.pTask).prio = max p.prio k.prio ∧
          (u.tcb pl.pTask).fmask = p.fmask &&& k.fmask ∧ (u.tcb pl.pTask).fusedCode = some f) ∧
    (chance die → c.resume = none → tc.placed = 0 → tc.cancel = true →
      exec (.placeBlock die) s = .next (s.endTask c.task 65)) ∧
    (chance die → c.resume = none → tc.placed = 0 → tc.cancel = false → tc.tiles = 0 →
      exec (.placeBlock die) s = .next (s.toRetiring c.task)) ∧
    (chance die → c.resume = none → tc.kernel = some k → 0 < tc.placed → tc.coresident = false → tc.blocks ≠ 0 →
      s.capacity k tc.fmask ≠ 0 → s.findSpan c.task k (tc.fmask &&& 255) = some lead →
      s.spillRoom tc.owner k.groups k.spillSz = some spill → Fresh s c.task →
      ∃ u, exec (.placeBlock die) s = .next u ∧ Starts s u c.task tc.blocks k lead spill) ∧
    (chance die → c.resume = none → tc.kernel = none → tc.placed = 0 → tc.cancel = false → tc.tiles ≠ 0 →
      tc.fusedFlag = false → tc.coresident = false →
      s.readKernel tc.owner (4 * dieOfTask c.task) tc.kdesc tc.args = .ok (k, s1) →
      let t1 := s1.tcb c.task
      let s2 := s1.setTcb c.task { t1 with kernel := some k, blocks := min t1.tiles (s1.capacity k t1.fmask) }
      k.groups * k.spillSz ≤ (s1.owner t1.owner).spillSize * 65536 → min t1.tiles (s1.capacity k t1.fmask) ≠ 0 →
      s2.findSpan c.task k (tc.fmask &&& 255) = some lead →
      s2.spillRoom (s2.tcb c.task).owner k.groups k.spillSz = some spill → Fresh s2 c.task →
      ∃ u, exec (.placeBlock die) s = .next u ∧
        Starts s2 u c.task (min t1.tiles (s1.capacity k t1.fmask)) k lead spill) ∧
    (chance (dieOfTask r.task) → c.resume = some r → s.block? r = some b → (s.tcb r.task).coresident = false →
      s.findSpan b.ref.task b.kernel ((s.tcb r.task).fmask &&& 255) (s.copiesFit b) = some lead →
      s.spillRoom b.owner b.kernel.groups b.kernel.spillSz = some spill →
      exec (.blockResume r) s = .next (s.resumeBlock b lead spill)) ∧
    (chance (dieOfTask r.task) → c.resume = some r → s.tryCandidate c 255 = .places s1 →
      exec (.blockResume r) s = .next s1) ∧
    (t0.reservationDue s.gtc = true →
      exec (.reservation task) s = .next (s.setTcb task { t0 with reserved := true, reservedSince := s.gtc })) ∧
    (s.reservationUnmet task = true → s.victims task = b :: bs → s.stopAll 1 (s.withCoresident b) = some s1 →
      exec (.reservationPreempt task) s = .next s1) ∧
    (s.reservationUnmet task = true → s.victims task = b :: bs → (s.tcb b.ref.task).coresident = false → room →
      ∃ u, exec (.reservationPreempt task) s = .next u ∧ stops u) ∧
    (s.refillDue task die = false → s.refillWanted task die = true →
      let way := if dieOfTask task = die then Config.latScratch else Config.latScratchDie
      exec (.dispenserRefill task die) s = .next (s.setTcb task { t0 with asked := tput t0.asked die (s.gtc + way) })) ∧
    (s.refillDue task die = true → (∃ x ∈ s.blocksOn task die, x.exhausted = false) → ∃ u, exec (.dispenserRefill task die) s = .next u ∧
      let list := t0.returned.take d.batch
      let add : Prop := list.length < d.batch ∧ die ∉ t0.spent
      (u.tcb task).returned = t0.returned.drop d.batch ∧
        (add → (u.tcb task).counter = t0.counter + d.batch ∧
          tget [] (u.tcb task).stock die =
            tget [] t0.stock die ++ list ++ codes t0.counter (min (t0.counter + d.batch) t0.tiles - t0.counter) ∧
          (t0.tiles ≤ t0.counter → die ∈ (u.tcb task).spent)) ∧
        (¬ add → (u.tcb task).counter = t0.counter ∧ tget [] (u.tcb task).stock die = tget [] t0.stock die ++ list)) ∧
    (go → here → (s.tcb d.runTask).state = .running → s.preemptTask d.runTask 1 = some s1 →
      exec (.preempt die) s = .next (s1.setDie die { (s1.die die) with pctlBegun := true }).finishPctl) ∧
    (go → here → (s.tcb d.runTask).state = .running →
      (s.blocks.filter fun x => x.ref.task = d.runTask && x.state = .placed) = [b] → room →
      ∃ u, exec (.preempt die) s = .next u ∧ stops u) ∧
    (go → here → (s.tcb d.runTask).state = .running → s.preemptTask d.runTask 1 = none →
      ∃ u, exec (.preempt die) s = .next u ∧ ended u 2) ∧
    (go → here → (s.tcb d.runTask).state = .retiring → ∃ u, exec (.preempt die) s = .next u ∧ ended u 0) ∧
    (go → here → (s.tcb d.runTask).state ≠ .running → (s.tcb d.runTask).state ≠ .retiring →
      ∃ u, exec (.preempt die) s = .next u ∧ ended u 1) ∧
    (asked 2 → here → d.pctlBegun = false → (s.tcb d.runTask).state = .running →
      let u := s.endTask d.runTask 66
      exec (.kill die) s = .next (u.setDie die { (u.die die) with pctlBegun := true })) ∧
    (asked 2 → here → d.pctlBegun = true → (s.tcb d.runTask).state ≠ .running →
      ∃ u, exec (.kill die) s = .next u ∧ ended u 0)

/-- R105 to R109, R434, R444.  Each COMPLETES with its effect: SAVE_COMPLETE of a block whose copies and drains have finished,
BLOCK_END of one that ends, and TASK_RETIRE of the oldest task of its die's retirement queue. -/
def Obligations.BlockEvents : Prop :=
  ∀ (s : State) (b : Block) (task : Nat),
    let r := b.ref
    let t0 := s.tcb task
    let succ := s.successors task
    (∀ reason unit units due, s.block? r = some b → b.state = .saving reason unit units due → due ≤ s.gtc →
      (∀ q ∈ s.entries, blockOf q.g ≠ r) → (∀ p ∈ s.pendings, blockOf p.g = r → p.req.saves = false) →
      (∀ c ∈ s.copies, ¬(c.2.live = true ∧ blockOf c.2.g = r ∧ c.2.state = .running)) →
      let u := s.finishSave b reason unit units
      exec (.saveComplete r) s = .next u ∧ (∃ x, u.block? r = some x ∧ x.state = .saved reason unit units s.gtc) ∧
        ∀ h ∈ u.groups, blockOf h.ref = r → h.active = false ∧ h.headPending = true ∧ h.wait = .ready) ∧
    (s.block? r = some b → s.blockEnds b = true → ∃ u, exec (.blockEnd r) s = .next u ∧
      (∀ x ∈ u.blocks, x.ref ≠ r) ∧ (∀ g ∈ u.groups, blockOf g.ref ≠ r) ∧ (∀ f ∈ u.fills, blockOf f.g ≠ r) ∧
      (u.tcb r.task).blkLeft = (s.tcb r.task).blkLeft - 1 ∧
      ((s.tcb r.task).state = .running → (s.tcb r.task).blkLeft = 1 → (∀ x ∈ s.blocks, x.ref.task = r.task → x.ref = r) →
        (u.tcb r.task).state = .retiring)) ∧
    ((s.die (dieOfTask task)).retireQueue.head? = some task → t0.state = .retiring → s.drone.recovering = none →
      t0.fusedFlag = false → task ∉ succ → succ.Nodup →
      ∃ u, exec (.taskRetire task) s = .next u ∧
        (t0.spawned = false → task ∈ (s.queue t0.queue).recent →
          (u.tcb task).state = .retired ∧ (u.tcb task).retireGtc = s.gtc) ∧
        (t0.spawned = true ∨ task ∉ (s.queue t0.queue).recent → (u.tcb task).state = .free) ∧
        (∀ x ∈ succ, (u.tcb x).preds = (s.tcb x).preds - 1 ∧
          (u.tcb x).cancel = ((s.tcb x).cancel || decide (t0.fault ≠ 0)) ∧
          ((s.tcb x).state = .waiting → (s.tcb x).preds = 1 → (u.tcb x).state = .ready ∧ (u.tcb x).readyGtc = s.gtc)) ∧
        u.mem = s.mem)

/-! ### Power -/

/-- R137 to R143.  Each power event COMPLETES with its effect, the guards with the pattern they force: POWER_UP starts bring-up,
FIELD_POWER_UP a ramp, or the wait for one, FIELD_RAMP_DONE ends it, within bring-up too, FIELD_POWER_DOWN, SUPPLY_PATH,
FIELD_TRIP and its release, MODTRIP, PWR_WATCHDOG, THERMAL and its release.  The model's choices in it: that firmware which
hangs acts no more (log 85), what bring-up is given and when the TCB pools are placed (log 115), and the path resistance that a
pin group's drop is held against (log 124). -/
def Obligations.PowerEvents : Prop :=
  ∀ (s : State) (f a b c : Nat) (u : BringUp),
    let x := s.field f
    let clear : Prop := s.hung = false ∧ s.inputPower + 60 ≤ 3400 ∧ ∀ i < 8, i / 4 = f / 4 → i = f + 1 ∨ f = i + 1 →
      (s.field i).tripped = false
    let ramps (t : State) : Prop := (t.field f).ramping = some (s.gtc + 2000000) ∧
      (t.field f).inrushUntil = some (s.gtc + 200000) ∧ (t.field f).inrushFrom = s.neighbours f ∧ (t.field f).on = x.on
    let idle : Prop := f < 8 ∧ s.hung = false ∧ s.step = 7 ∧ x.offline = false ∧ x.on = false ∧ x.ramping = none
    let ramped : Prop := ∃ e, x.ramping = some e ∧ e ≤ s.gtc
    let bringing : Prop := ramped ∧ s.bringUp = some u ∧ u.field = f
    let done (t : State) : Prop := exec (.fieldRampDone f) s = .next t ∧ (t.field f).ramping = none
    (s.step = 0 → f = 0 → clear → ∀ pool0 pool1 failed signed, ∃ t, exec (.powerUp a pool0 pool1 failed signed) s = .next t ∧
      t.step = 2 ∧ t.domid = a % 16 ∧ t.bringUp = some { pool0, pool1, failed, signed, field := 0 } ∧ ramps t) ∧
    (idle → clear → ∃ t, exec (.fieldPowerUp f) s = .next t ∧ ramps t) ∧
    (idle → ¬ clear → exec (.fieldPowerUp f) s = .next (s.setField f { x with rampAsked := true })) ∧
    (ramped → s.bringUp = none → ∃ t, done t ∧ (t.field f).on = true) ∧
    (bringing → f = 0 → bit u.failed 0 = true → ∃ t, done t ∧
      (t.field f).on = false ∧ t.bringUp = none ∧ t.smbus = some 3 ∧ t.step = s.step) ∧
    (bringing → f = 0 → bit u.failed 0 = false → u.signed = false → ∃ t, done t ∧
      (t.field f).on = true ∧ t.bringUp = none ∧ t.smbus = some 4 ∧ t.step = 3) ∧
    (bringing → f < 7 → (f = 0 → bit u.failed 0 = false ∧ u.signed = true) → ∃ t, done t ∧
      (t.field f).on = !bit u.failed f ∧ t.bringUp = some { u with field := f + 1 } ∧ t.step = 4 ∧
        (t.die 0).tcbPool = u.pool0 / 256 * 256) ∧
    (bringing → f = 7 → ∃ t, done t ∧ (t.field f).on = !bit u.failed f ∧ t.bringUp = none ∧ t.step = 7 ∧
      t.watchdog = s.gtc ∧ (t.die 1).tcbPool = u.pool1 / 256 * 256) ∧
    (s.hung = true → exec (.fieldPowerUp f) s = .next s ∧ exec (.fieldPowerDown f) s = .next s) ∧
    (x.on = true → s.fieldBusy f = false → s.hung = false → exec (.fieldPowerDown f) s = .next (s.setField f { x with on := false })) ∧
    (6 ≤ s.step → a * Config.pathResistance (f / 4 % 2) b + 150 < c → ∀ fields,
      ∃ t, exec (.supplyPath (f / 4) b fields ⟨a, c⟩) s = .next t ∧
        ∀ i, i < 8 → (t.field i).halved = (bit fields i || (s.field i).halved)) ∧
    (c ≤ a * Config.pathResistance (f / 4 % 2) b + 150 → ∀ fields, exec (.supplyPath (f / 4) b fields ⟨a, c⟩) s = .next s) ∧
    (f < 8 → x.eff ≤ x.cur → x.tripped = false → ∃ t, exec (.fieldTrip f) s = .next t ∧ (t.field f).tripped = true ∧
      (x.modTrip = false → x.hot = [] → (t.field f).forced = some 0xAAAA)) ∧
    (∀ e, x.tripped = true → x.lowSince = some e → e + 10000 ≤ s.gtc → ∃ t, exec (.fieldTripRelease f) s = .next t ∧
      (t.field f).tripped = false) ∧
    (∃ t, exec (.modtrip a) s = .next t ∧ ∀ i, i < 8 → (t.field i).modTrip = true ∧ (t.field i).forced = some 0x8888) ∧
    (s.watchdog + 1000000 ≤ s.gtc → ∃ t, exec (.pwrWatchdog f) s = .next t ∧ t.hung = true ∧ t.benches = s.benches ∧
      t.fields = s.fields) ∧
    (f < 8 → 115 ≤ b → ∃ t, exec (.thermal f a b) s = .next t ∧ a ∈ (t.field f).hot ∧ (t.field f).forced = some 0x8888) ∧
    (b < 105 → ∃ t, exec (.thermalRelease ⟨f, a, b⟩) s = .next t ∧ (t.field f).hot = x.hot.filter fun n => n ≠ a)

/-- R139, R169, R171 to R175.  Each bench event COMPLETES with its effect: PWR_UPDATE and PWR_UPDATE_END park and release the
patterns, STRUM_WRITE and ALLOW_REFILL_WRITE write, SLEW_STEP gives each field at most 12 rungs and each bench 2, to cores with
matrix work, the starting bench and core first, and takes rungs from idle cores, THROTTLE_EDGE begins or ends throttling.  That
nothing is written while the firmware hangs is the model's choice (log 85). -/
def Obligations.BenchEvents : Prop :=
  ∀ (s : State) (bench refill : Nat) (p : BitVec 16),
    let works (c : Nat) : Prop := 0 < (s.core c).work
    (legalPattern p = true → popOf p ≤ 12 → s.updating = false → s.hung = false → ∃ t, exec (.pwrUpdate p) s = .next t ∧
      t.updating = true ∧ ∀ i, i < 96 → (t.bench i).own = p) ∧
    (s.updating = true → s.hung = false → ∃ t, exec .pwrUpdateEnd s = .next t ∧ t.updating = false ∧ ∀ i, i < 96 → (t.bench i).parked = none) ∧
    (bench < 96 → s.hung = false → legalPattern p = true → ∃ t, exec (.strumWrite bench p) s = .next t ∧
      (t.bench bench).pattern = p ∧ ∀ i, i ≠ bench → t.bench i = s.bench i) ∧
    (bench < 96 → s.hung = false → legalPattern p = false → ∃ t, exec (.strumWrite bench p) s = .next t ∧
      t.benches = s.benches) ∧
    (bench < 96 → s.hung = false → 1 ≤ refill → refill ≤ 1023 → ∃ t, exec (.allowRefillWrite bench refill) s = .next t ∧
      (t.bench bench).refill = refill ∧ ∀ i, i ≠ bench → t.bench i = s.bench i) ∧
    exec (.allowRefillWrite bench 0) s = .next s ∧
    (s.hung = true → exec (.strumWrite bench p) s = .next s ∧ exec (.allowRefillWrite bench refill) s = .next s ∧
      exec (.pwrUpdate p) s = .next s ∧ exec .pwrUpdateEnd s = .next s) ∧
    (s.gtc % 4 = 0 → s.slewed ≠ s.gtc → ∃ t, exec .slewStep s = .next t ∧ t.slewed = s.gtc ∧ t.groups = s.groups ∧ t.mem = s.mem ∧
      (∀ c < 384, (t.core c).jobs = (s.core c).jobs ∧
        ((s.core c).rungs < (t.core c).rungs → works c ∧ (t.core c).rungs ≤ 4) ∧
        ((t.core c).rungs < (s.core c).rungs → ¬works c)) ∧
      (∀ b < 96, climbed s t (codes (4 * b) 4) ≤ 2 ∧ dropped s t (codes (4 * b) 4) ≤ 2 ∧
        (dropped s t (codes (4 * b) 4) < 2 → ∀ c ∈ codes (4 * b) 4, works c ∨ (t.core c).rungs = 0) ∧
        (climbed s t (codes (4 * b) 4) < 2 →
          climbed s t (codes (48 * (b / 12)) 48) = 12 ∨ ∀ c ∈ codes (4 * b) 4, works c → 4 ≤ (t.core c).rungs)) ∧
      ∀ f < 8, climbed s t (codes (48 * f) 48) ≤ 12 ∧
        ((s.field f).slewNext = none → (t.field f).slewStart = (s.field f).slewStart) ∧
        (∀ off n, (s.field f).slewNext = some (off, n) → n ≤ s.gtc / 4 →
          (t.field f).slewStart = off ∧ (t.field f).slewNext = none) ∧
        let lead := 4 * (12 * f + ((t.field f).slewStart + s.gtc / 4) % 12) + s.gtc / 4 % 4
        works lead → (s.core lead).rungs < 4 → (s.core lead).rungs < (t.core lead).rungs) ∧
    ((s.bench bench).throttling = false → popOf (s.strum bench) < 16 → ∃ t, exec (.throttleEdge bench) s = .next t ∧
      (t.bench bench).throttling = true ∧ (t.bench bench).cause = s.throttleCause bench) ∧
    (∀ kind, s.throttleDue bench = some kind → ∃ t, exec (.throttleEdge bench) s = .next t ∧
      (t.bench bench).throttling = decide (kind = 0) ∧ (kind = 0 → (t.bench bench).cause = s.throttleCause bench))

/-! ### Groups and their regions -/

/-- R151, R165, R167, R182.  Each COMPLETES with its effect: GROUP_SWAP and FORCED_SWAP hand a lane on, SLEEP_WAKE ends a SLEEP,
ICINV_DONE takes the lines of its ranges from the cores of its scope. -/
def Obligations.GroupEvents : Prop :=
  ∀ (s : State) (core : Nat) (g h : Group),
    let enters : Prop := s.entering core = some g ∧ s.group? g.ref = some g
    let leaves : Prop := s.group? h.ref = some h ∧ h.ref ≠ g.ref
    let entered (t : State) : Prop := t.group? g.ref = some (g.entered s.gtc) ∧ t.blocks = s.blocks ∧ t.mem = s.mem
    let swapped (t : State) : Prop := entered t ∧ t.group? h.ref = some h.left ∧
      ∀ r, r ≠ g.ref → r ≠ h.ref → t.group? r = s.group? r
    (enters → (s.activeOn core).length < 8 → ∃ t, exec (.groupSwap core) s = .next t ∧ entered t ∧
      ∀ r, r ≠ g.ref → t.group? r = s.group? r) ∧
    (enters → leaves → 8 ≤ (s.activeOn core).length → s.leaving core = some h →
      ∃ t, exec (.groupSwap core) s = .next t ∧ swapped t) ∧
    (enters → leaves → g.readySince.getD 0 + 2048 ≤ s.gtc → 8 ≤ (s.activeOn core).length →
      leastBy (fun h => [h.activeSince, h.ref.task, h.ref.bid, h.ref.gid]) (s.activeOn core) = some h →
      ∃ t, exec (.forcedSwap core) s = .next t ∧ swapped t) ∧
    (∀ wake, s.group? g.ref = some g → g.wait = .sleep wake → wake ≤ s.gtc →
      exec (.sleepWake g.ref) s = .next (s.setGroup { g with wait := .ready })) ∧
    (∀ wake scope ranges, s.group? g.ref = some g → g.wait = .icinv wake scope ranges → wake ≤ s.gtc →
      ∃ t, exec (.icinvDone g.ref) s = .next t ∧ t.group? g.ref = some { g with wait := .ready } ∧
        ∀ b ∈ t.icache, ∃ o ∈ s.icache, b.field = o.field ∧ b.pa = o.pa ∧ b.bytes = o.bytes ∧
          ((∀ rs, ranges = some rs → ∃ x ∈ rs, b.pa / 64 * 64 < x.2 ∧ x.1 < b.pa / 64 * 64 + 64) →
            ∀ k ∈ codes (48 * b.field) 48, inScope scope g.core k = true → k ∈ b.gone))

/-- R163, R305, R307 to R309, R311, R315, R424.  Each COMPLETES with its effect: REGION_TIMEOUT_HEAD at 4,096 mc, REGION_CLOSE
with W as it then is, REGION_COMMIT, STORE_DRAIN of a released entry and its acknowledgement, TAGGED_HOLD_END, REGISTER_FILL
of results that arrive, and TRAP_ENTRY between instructions.  The region that a closing operation's result finds where none is
open is the model's choice (log 123). -/
def Obligations.RegionEvents : Prop :=
  ∀ (s : State) (g : Group) (b : Block) (q : Region) (qs : List Region) (e : QEntry) (f : Fill),
    let here : Prop := s.group? g.ref = some g
    let queued : Prop := s.entries.find? (fun o => o.id = e.id) = some e ∧ s.drainDue e = true
    let came : Prop := s.fills.find? (fun h => h.id = f.id) = some f ∧ s.fillDue f = true ∧ s.group? f.g = some g
    let g1 := if g.regions = [] ∧ g.ended = false then g.openEarly s.gtc else g
    let g2 := g1.fillClosing f (g1.receiver f.id)
    let seen (l : List Region) := l.map fun y => (y.seq, y.ctx, y.cover, y.tags)
    let holds (t : State) (h : Group) : Prop := ∃ x, t.group? g.ref = some x ∧ x.arch = h.arch ∧ seen x.regions = seen h.regions ∧
      x.waiting = h.waiting ∧ x.owed = h.owed ∧ x.stall = h.stall ∧ x.ended = h.ended
    (here → g.timedOut s = true → ∃ t g', exec (.regionTimeoutHead g.ref) s = .next t ∧ t.group? g.ref = some g' ∧
      g'.headPending = true ∧ ∀ y, g.regions.getLast? = some y →
        g'.regions.getLast? = some { y with headAt := some (y.firstIssue + 4096) }) ∧
    (here → g.closable s = true → exec (.regionClose g.ref) s = .next (s.setGroup { g with
      regions := g.regions.map fun y => if y.mayClose s g then { y with close := some (s.gtc, s.qwin) } else y })) ∧
    (here → g.regions = q :: qs → ∀ c w, q.close = some (c, w) →
      let m := max (max (c + w) g.lastCommit) (q.tagEnd s)
      (s.gtc < m → exec (.regionCommit g.ref) s = .next s) ∧
      (m ≤ s.gtc → exec (.regionCommit g.ref) s = .next (s.commit g q)) ∧
      (m ≤ s.gtc → q.requests = [] → q.ends = false → q.trap = none →
        ∃ t, exec (.regionCommit g.ref) s = .next t ∧
          t.group? g.ref = some { g with regions := qs, lastCommit := s.gtc } ∧ t.mem = s.mem ∧
          (∀ o ∈ t.entries, o.g = g.ref → o.region = q.seq → o.released = true))) ∧
    (queued → e.phase = 2 → ∃ t, exec (.storeDrain e.id) s = .next t ∧ (∀ o ∈ t.entries, o.id ≠ e.id) ∧ t.mem = s.mem) ∧
    (queued → e.phase = 0 → s.entryHold e = 0 → exec (.storeDrain e.id) s = .next (s.performEntry e)) ∧
    (queued → e.phase = 0 → s.entryHold e ≠ 0 → exec (.storeDrain e.id) s =
      .next (s.setEntry { e with phase := 1, due := s.gtc + s.qwin + s.entryHold e })) ∧
    (queued → e.phase = 1 → exec (.taggedHoldEnd e.id) s = .next (s.performEntry e)) ∧
    (came → f.closing = false → f.handle = none → ∃ t, exec (.registerFill f.id) s = .next t ∧
      holds t (g.fillOrdinary f) ∧ (∀ h ∈ t.fills, h.id ≠ f.id) ∧
      ∀ n v, f.vals = [.u n v] → n ≠ 0 → (g.arch.ureg n).pend = some f.id → f.fault = none →
        ((g.fillOrdinary f).arch.ureg n) = { val := v }) ∧
    (came → f.closing = true → ∃ t, exec (.registerFill f.id) s = .next t ∧ holds t g2 ∧
      (∀ x ∈ g2.owed, x.1 ≠ f.id) ∧ (g1.regions ≠ [] →
        { f with arrived := true, region := g1.receiver f.id } ∈ t.fills)) ∧
    (∀ x, here → s.block? (blockOf g.ref) = some b → g.nextTrap = some x → s.trapDue g = true →
      exec (.trapEntry g.ref) s = .next (s.enterTrap g b x))

/-! ### Sensors, errors and records -/

/-- R94, R404, R408, R409, R416 to R421: reports, those of another module's cells too, and their injection, counts and clearing,
corrected and uncorrectable errors, links, the records written, and the drone pairs.  The model's choices in it: that a recovery
ends at 500,000 mc, within which R94 has it (log 93), and that storage which a squash can restore is reported as its
core's first strike cell (log 71). -/
def Obligations.SensorEvents : Prop :=
  ∀ (s : State) (c : CellRef) (fn die pa link row : Nat) (spare : Bool) (r : EventRec),
    let x := s.cell c
    let d := s.die die
    let strike (core : Nat) : CellRef := ⟨fieldOfCore core, 4 * (core % 48)⟩
    (s.mayReport c = true → exec (.sensorReport c) s = .next (s.report c (x.inject.any fun t => t ≤ s.gtc))) ∧
    (8 ≤ c.field → exec (.sensorReport c) s = .next (s.peerReport c)) ∧
    (∃ t, exec (.cellCountDecay c) s = .next t ∧ (t.cell c).events = x.events.filter (fun t => s.gtc < t + 2 ^ 20)) ∧
    (s.mayReport c = true → exec (.cellInject 0 c) s = .next (s.setCell c { x with inject := some (s.gtc + 1) })) ∧
    (fn ≠ 0 → exec (.cellInject fn c) s = .next s ∧ exec (.cellClear fn c) s = .next s) ∧
    (cellValid c = true → (∀ b ∈ s.blocks, b.holdsCores = true → ∀ k ∈ b.cores, k ∉ cellCores c) →
      ∃ t, exec (.cellClear 0 c) s = .next t ∧ (t.cell c).count s.gtc = 0 ∧ (t.cell c).off = false ∧
        ∀ k ∈ cellCores c, (t.core k).offline = false) ∧
    (∃ t, exec (.eccCorr die 1 row spare) s = .next t ∧ t.mem = s.mem ∧ t.keys = s.keys ∧ t.groups = s.groups ∧
      t.poison = s.poison ∧ t.blocks = s.blocks) ∧
    (∃ t, exec (.poison (.sector pa)) s = .next t ∧ pa / 64 ∈ t.poison ∧ t.mem = s.mem ∧ t.groups = s.groups) ∧
    (∀ site gs g, s.storageOf site = (g :: gs, true) → s.mayReport (strike g.core) = true → (∀ a, site ≠ .sector a) →
      exec (.poison site) s = .next (s.report (strike g.core) false)) ∧
    (∀ site gs g, s.storageOf site = (g :: gs, false) → (∀ a, site ≠ .sector a) → ∃ t, exec (.poison site) s = .next t ∧
      t.mem = s.mem ∧ t.blocks = s.blocks ∧ ∀ h ∈ s.groups, (∀ o ∈ g :: gs, o.ref ≠ h.ref) → s.group? h.ref = some h →
        t.group? h.ref = some h) ∧
    (∃ t, exec (.linkEvent die link 2 row) s = .next t ∧ (die % 2, link % 16) ∈ t.linksDown) ∧
    (∃ t, exec (.linkEvent die link 0 row) s = .next t ∧ (die % 2, link % 16) ∉ t.linksDown) ∧
    (s.nextRecord die = some r → r.stamp + 512 ≤ s.gtc →
      (d.evHead + 1) % 2 ^ d.evLog = d.evTail % 2 ^ d.evLog → ∃ t, exec (.eventRecordWrite die) s = .next t ∧
        (t.die die).evLost = (d.evLost + 1) % 2 ^ 32 ∧ (t.die die).evGap = true ∧ (t.die die).evHead = d.evHead ∧
        t.mem = s.mem) ∧
    (s.nextRecord die = some r → r.stamp + 512 ≤ s.gtc →
      (d.evHead + 1) % 2 ^ d.evLog ≠ d.evTail % 2 ^ d.evLog → ∃ t, exec (.eventRecordWrite die) s = .next t ∧
        (t.die die).evHead = (d.evHead + 1) % 2 ^ d.evLog ∧ (t.die die).evGap = false ∧
        (t.die die).evLost = d.evLost) ∧
    (∃ t, exec .droneMismatch s = .next t ∧ t.drone.recovering = some (s.gtc + 500000) ∧
      (s.drone.activeDie = 0 → 2 ≤ (s.drone.mismatches.filter fun u => s.gtc < u + 2 ^ 30).length → t.drone.activeDie = 1) ∧
      ∀ n, ∀ p ∈ (t.queue n).inflight, p.committed s.gtc = true) ∧
    (s.drone.recovering.isSome = true → exec .droneRecoveryEnd s = .next { s with drone := { s.drone with recovering := none } })

/-! ### Translation, owners and the host -/

/-- R145, R290, R291, R293, R447: a walk, a shootdown, of every page of the owner where COUNT is 0, and its completion, an owner's retirement, and a peer's read. -/
def Obligations.TranslationEvents : Prop :=
  ∀ (s : State) (owner die field va pa len : Nat),
    let d := s.die die
    let walks : Prop := field < 8 ∧ dieOfField field = die ∧ (s.owner owner).en = true ∧ va < 2 ^ 56 ∧ inSpliceCache va = false ∧
      s.tlb.find? (fun e => e.maps owner field none va) = none
    (∀ f pages r w x ca, walks → pageWalk s owner die va = .leaf f pages r w x ca →
      (∀ u ∈ s.frames, u.die = die → u.frame < f / 65536 + pages → f / 65536 < u.frame + u.npages →
        (u.exec = true → w = false) ∧ (u.exec = false → x = false)) → ∃ t, exec (.pageWalk owner die field va) s = .next t ∧
      { owner, field, core := none, page := va / 65536 / pages * pages, npages := pages, pa := f, r, w, x, ca } ∈ t.tlb ∧
      (w = true → ∃ u ∈ t.frames, u.die = die ∧ u.frame = f / 65536 ∧ u.npages = pages ∧ u.exec = false) ∧
      (x = true → ∃ u ∈ t.frames, u.die = die ∧ u.frame = f / 65536 ∧ u.npages = pages ∧ u.exec = true) ∧
      (∀ e ∈ t.tlb, e ∈ s.tlb ∨ e.owner = owner ∧ e.field = field) ∧ t.mem = s.mem ∧ t.groups = s.groups) ∧
    (∀ level, walks → pageWalk s owner die va = .page level → exec (.pageWalk owner die field va) s = .next s) ∧
    (die < 2 → d.tlbiDone = true → ∃ t, exec (.shootdown die) s = .next t ∧ (t.die die).tlbiDone = false ∧
      ∀ e ∈ t.tlb, e ∈ s.tlb ∧ (e.owner = d.tlbiOwner → dieOfField e.field = die →
        (d.tlbiCount ≠ 0 → ¬(e.page < d.tlbiVa / 65536 + d.tlbiCount ∧ d.tlbiVa / 65536 < e.page + e.npages)) ∧
        (d.tlbiCount = 0 → ¬(e.page < 2 ^ 40 ∧ 0 < e.page + e.npages)))) ∧
    (d.tlbiDone = false → exec (.shootdown die) s = .next s) ∧
    (s.shootdownDue die = true → ∃ t, exec (.shootdownDone die) s = .next t ∧ (t.die die).tlbiDone = true ∧
      ∀ b ∈ t.icache, b ∈ s.icache ∧ (dieOfField b.field = die → s.shotFrame die d.tlbiWho d.tlbiLo d.tlbiHi (b.pa / 65536) = false ∧
        ∀ u ∈ s.frames, u.dying = true → u.die = die → u.owner = d.tlbiWho →
          ¬(u.frame ≤ b.pa / 65536 ∧ b.pa / 65536 < u.frame + u.npages))) ∧
    (s.ownerRetireDue owner = true → ∃ t, exec (.ownerRetire owner) s = .next t ∧ (t.owner owner).en = false ∧
      (t.owner owner).keyOk = false ∧
      ∀ e ∈ t.tlb, e.owner = owner → dieOfField e.field < 2 → ¬(e.page < 2 ^ 40 ∧ 0 < e.page + e.npages)) ∧
    (paMalformed pa = false → paModule pa = s.domid → paClass pa = 0 → exec (.peerRead owner pa len) s =
      .next { s with peerReply := s.peerReply ++ [(List.range len).map fun i =>
        if s.poisonAt (pa + i) 1 then none else some (s.readByte (some (s.keyOf owner)) (pa + i))] })

/-- R36, R37, R76, R292: loading, W0 writes and accesses of the wrong size, and the keys. -/
def Obligations.HostEvents : Prop :=
  ∀ (s : State) (fn off size val owner base pa0 pa1 : Nat) (frames : List Nat) (bytes : List Byte),
    let loads := exec (.loadObject owner base pa0 pa1 frames bytes) s
    let rejected (report : List Nat) : Prop := loads = .next { s with loadReports := s.loadReports ++ [report] }
    let headed : Prop := ∀ c ∈ headerChecks bytes, c.2 = true
    let family : Prop := recField bytes 8 4 = 0x4B010000 + s.family
    let writes (off : Nat) (k : State → Prop) : Prop :=
      ∃ t, exec (.registerWrite 0 off 4 val) s = .next t ∧ k t ∧ t.mem = s.mem ∧ t.groups = s.groups ∧ t.blocks = s.blocks
    (headed → ¬family → rejected (loadReport 2 0xFFFF 0xFFFFFFFF 8)) ∧
    (headed → family → crc32 (putAt bytes 0x20 [0, 0, 0, 0]) ≠ recField bytes 0x20 4 →
      rejected (loadReport 3 0xFFFF 0xFFFFFFFF 0x20)) ∧
    (∀ r, s.load owner base pa0 pa1 frames bytes = .error r → rejected r) ∧
    (∀ s1, s.load owner base pa0 pa1 frames bytes = .ok s1 → ∃ t o, loads = .next t ∧
      t.loadReports = s.loadReports ++ [loadReport 0 0xFFFF 0xFFFFFFFF 0] ∧ t.objects = o :: s.objects ∧ o.owner = owner ∧
      o.base = base ∧ t.groups = s.groups ∧ t.blocks = s.blocks ∧ t.tcbs = s.tcbs ∧ t.queues = s.queues) ∧
    (64 ≤ val → val ≤ 255 → writes 0x10 fun t => t.qwin = val) ∧
    (val < 64 ∨ (255 < val ∧ val < 512) ∨ fn ≠ 0 → exec (.registerWrite fn 0x10 4 val) s = .next s) ∧
    (∀ n < 128, (s.queue n).en = false → 12 ≤ val % 32 → val % 32 ≤ 24 →
      writes (0x10008 + 0x40 * n) fun t => (t.queue n).log = val % 32 ∧ ∀ m, m ≠ n → t.queue m = s.queue m) ∧
    (∀ f < 8, (writes (0x80000 + 0x100 * f) fun t => (t.field f).lim = max 400 (min 1600 (val % 2 ^ 13)) ∧
        ∀ i, i ≠ f → t.field i = s.field i) ∧
      writes (0x8000C + 0x100 * f) fun t => (t.field f).baseI = val % 2 ^ 13 ∧ ∀ i, i ≠ f → t.field i = s.field i) ∧
    (∀ d < 2, (writes (0x90008 + 0x40 * d) fun t => (t.die d).tlbiCount = val % 2 ^ 32) ∧
      (s.ovfUsed d = 0 → writes (0xA0008 + 0x40 * d) fun t => (t.die d).ovfSize = val % 2 ^ 16) ∧
      ((s.die d).evEn = false → 10 ≤ val % 32 → val % 32 ≤ 20 →
        writes (0xB0008 + 0x40 * d) fun t => (t.die d).evLog = val % 32 ∧ (t.die d).evHead < 2 ^ (val % 32)) ∧
      (writes (0xB0014 + 0x40 * d) fun t => (t.die d).evTail = val % 2 ^ 20) ∧
      (writes (0xD0000 + 0x40 * d) fun t => (t.die d).pctlTask = val % 2 ^ 32) ∧
      (writes (0xD0014 + 0x40 * d) fun t => (t.die d).stepEn = bit val 0) ∧
      ((s.die d).saveUsed = 0 → writes (0xD0020 + 0x40 * d) fun t => (t.die d).saveSize = val % 2 ^ 24)) ∧
    (∀ w < 1024, (writes (0x100020 + 0x100 * w) fun t => (t.owner w).spillSize = val % 2 ^ 24) ∧
      ((s.owner w).capEn = false → writes (0x200018 + 0x40 * w) fun t =>
        (t.owner w).capSize0 = val % 2 ^ 16 ∧ (t.owner w).capSize1 = val / 2 ^ 16 % 2 ^ 16)) ∧
    (fn ≠ 0 → 0xA0000 ≤ off → exec (.registerWrite fn off size val) s = .next s) ∧
    (w0Aligned off size = false → exec (.registerWrite fn off size val) s = .next s ∧
      exec (.w0BadAccess true off size) s = .next s ∧
      exec (.w0BadAccess false off size) s = .next { s with reply := s.reply ++ [{ off, value := none }] }) ∧
    (owner < 1024 → (s.owner owner).en = false → ∃ t, exec (.keyWrite 0 (0x100000 + 0x100 * owner + 0x40) 4 val) s = .next t ∧
      (t.owner owner).keyOk = true ∧
      (t.owner owner).mkeyData = val % 2 ^ 32 + (s.owner owner).mkeyData / 2 ^ 32 * 2 ^ 32) ∧
    ((s.owner owner).en = true → owner < 1024 → ∃ t, exec (.keyWrite 0 (0x100000 + 0x100 * owner + 0x40) 4 val) s = .next t ∧
      t.owner owner = s.owner owner) ∧
    (fn ≠ 0 → exec (.keyWrite fn off size val) s = .next s)

/-! ### Copies, the content-addressed region and synchronisation -/

/-- R314, R318, R326, R336 to R342, R353, R354: a copy's piece is read and drains; CAPUT, CAREF, CAREL and CASWAP perform; the
reclaim walker releases; a pool is disabled. -/
def Obligations.CopyContentEvents : Prop :=
  ∀ (s : State) (bench entry id owner : Nat) (p : Pending) (c : Piece) (rest : List Piece),
    let x := s.copy bench entry
    let ready : Prop := s.pending? id = some p ∧ s.mayPerform p = true
    let own := s.ownerOf p.g
    let s0 := s.dropPending id
    let place := x.desc.pieceAt x.spec
    let reads : Prop := s.pieceReady bench entry = true ∧ s.pieceBehind bench entry = false
    let lands (s1 : State) : Except (Trap × State) (List Nat × State) :=
      if x.desc.dspace then s1.copyPlaces x.owner (fieldOfBench bench) (x.desc.kind ≠ 4) place.2.1 place.2.2
      else .ok (codes place.2.1 place.2.2, s1)
    (∀ r s1 dst s2, reads → s.readPiece bench x place = .ok (r, s1) → lands s1 = .ok (dst, s2) → ∃ t y,
      exec (.copyPieceRead bench entry) s = .next t ∧ t.copy bench entry = { x with
        spec := x.spec + place.2.2, readAt := s.gtc + 1, pieces := x.pieces ++ [y] } ∧
      y.pos = x.spec ∧ y.bytes = r.bytes ∧ y.dst = dst ∧ y.firstRead = s.gtc ∧ y.sent = false ∧ t.mem = s.mem ∧
      t.blocks = s.blocks ∧ t.groups = s.groups ∧
      (x.desc.kind ≠ 5 → x.desc.kind ≠ 8 → x.desc.sspace = false → y.bytes = (codes place.1 place.2.2).map fun o =>
        (queuedByte (s.copyOwn x true) o).getD (match s.block? (blockOf x.g) with | some b => tget 0 b.bench o | none => 0))) ∧
    (∀ e, reads → s.readPiece bench x place = .error e → ∃ t u, exec (.copyPieceRead bench entry) s = .next t ∧
      t.copy bench entry = { x with fault := some u } ∧ u.code = e.1.code ∧ u.addr = e.1.addr ∧ t.mem = s.mem ∧
      t.blocks = s.blocks) ∧
    (s.drainReady bench entry = true → x.pieces = c :: rest → s.pieceHold bench x c ≠ 0 → c.sent = false →
      exec (.copyPieceDrain bench entry) s = .next (s.setCopy bench entry { x with pieces :=
        { c with sent := true, due := s.gtc + s.qwin + s.pieceHold bench x c } :: rest })) ∧
    (s.drainReady bench entry = true → x.pieces = c :: rest → s.pieceHold bench x c = 0 ∨ c.sent = true →
      let u := (s.drainBytes x c).setCopy bench entry { x with pos := c.pos + c.bytes.length, pieces := rest }
      exec (.copyPieceDrain bench entry) s =
        .next (if x.desc.size ≤ c.pos + c.bytes.length then u.finishCopy bench entry else u.copyFaults bench entry)) ∧
    (∀ kind content hash addr dst n u, ready → p.req = .caput kind content hash addr dst →
      s0.caPut own kind content hash = (.ok n, u) → exec (.caputPerform id) s =
        .next (u.answer p.g id (caHomePa s (hash * 256)) (uVal (uDst dst) n) none).sendReady) ∧
    (∀ kind content hash addr dst code w u, ready → p.req = .caput kind content hash addr dst →
      s0.caPut own kind content hash = (.error (code, w), u) → exec (.caputPerform id) s =
        .next (u.answer p.g id (caHomePa s (hash * 256)) (uVal (uDst dst) (2 ^ 64 - 1))
          (some { code, addr, cause0 := BitVec.ofNat 64 (hash * 256 + kindNat kind), cause1 := BitVec.ofNat 64 w,
                  site := some p.addr })).sendReady) ∧
    (∀ n, ready → n ≠ 0 → s.hasPool own n.toNat = true →
      (p.req = .caref n → exec (.caCountChange id) s = .next (s0.caInc own n.toNat).sendReady) ∧
      (p.req = .carel n → exec (.caCountChange id) s = .next (s0.caDec own n.toNat).sendReady)) ∧
    (∀ va pa expect new dst, ready → p.req = .caswap va pa expect new dst → s.poisonAt pa 8 = false →
      let key := some (s.keyAt own pa)
      let old := s.valueAt key pa 8
      exec (.caswapPerform id) s = .next
        ((if old = expect.toNat then s0.performBytes key pa (leBytes 8 new.toNat) else s0).answer p.g id pa
          (uVal (uDst dst) old) none).sendReady) ∧
    (∀ n more, s.reclaim = (owner, n) :: more →
      exec .reclaimRelease s = .next ({ s with reclaim := more }.caDec owner n.toNat)) ∧
    ((s.owner owner).capEn = true → ∃ t, exec (.capDisable owner) s = .next t ∧ (t.owner owner).capEn = false ∧
      (∀ l ∈ t.caLines, l.1 ≠ owner) ∧ (∀ l ∈ s.caLines, l.1 ≠ owner → l ∈ t.caLines))

/-- R121, R124, R383, R386 to R389, R393, R396, R399: what a released request does where it performs; `p` is that request.  An
arrival at a barrier, block or launch, counts; the one that makes up the count releases it: the next generation begins, and the
waits for it complete.  A course's stage counts down, and at zero flips its phase and starts again. -/
def Obligations.SyncEvents : Prop :=
  ∀ (s : State) (id : Nat) (p : Pending) (g : Group) (b : Block),
    let ready : Prop := s.pending? id = some p ∧ s.mayPerform p = true
    let own := s.ownerOf p.g
    let s0 := s.dropPending id
    let came (t : State) (n : Nat) (r : GroupRef) : Prop := ∃ f ∈ t.fills, f.id = n ∧ f.g = r ∧ f.closing = true
    let arrives (at' : BarrierAt) (all form count : Nat) : Prop :=
      let old := s.barrier at'
      let want := if old.tally = 0 then count else old.count
      let full : Prop := (if want = 0 then all else want) ≤ old.tally + 1
      let next := (old.gen + 1) % 2 ^ 32
      let after := (next + 1) % 2 ^ 32
      let met (w : Nat × GroupRef × Nat) : Prop := w.2.2 ≠ after
      ∃ t, exec (.barrierArrival id) s = .next t ∧ t.mem = s.mem ∧
        (form = 0 ∨ form = 1 → full → s.group? p.g = some g →
          t.barrier at' = { gen := next, tally := 0, count := 0, waits := old.waits.filter fun w => w.2.2 = after }) ∧
        (form = 0 ∨ form = 1 → full → (∀ w ∈ old.waits, ∃ h, s.group? w.2.1 = some h) → ∀ w ∈ old.waits, met w → came t w.1 w.2.1) ∧
        (form = 0 ∨ form = 1 → full → s.group? p.g = some g → came t id p.g) ∧
        (form = 1 → ¬full → t.barrier at' = { old with tally := old.tally + 1, count := want }) ∧
        (form = 1 → s.group? p.g = some g → came t id p.g ∧ (t.group? p.g).bind (·.token at') = some old.gen) ∧
        (form = 0 → ¬full → s.group? p.g = some g → t.barrier at' = { old with
          tally := old.tally + 1, count := want, waits := old.waits ++ [(id, p.g, next)] }) ∧
        (form = 0 ∨ form = 2 → s.group? p.g = some g → ∃ h, t.group? p.g = some h ∧ h.token at' = none) ∧
        (form = 2 → s.group? p.g = some g →
          let target := match g.token at' with | some k => (k + 1) % 2 ^ 32 | none => next
          (target ≠ next → came t id p.g ∧ t.barrier at' = old) ∧
          (target = next → t.barrier at' = { old with waits := old.waits ++ [(id, p.g, target)] }))
    let steps (off st phase : Nat) (t : State) : Prop := ∀ c, s.block? (blockOf p.g) = some c → ∃ d, t.block? (blockOf p.g) = some d ∧
      let o := off + 16 + 8 * st
      let left : Nat := ((tget 0 c.bench (o + phase)).toNat + 255) % 256
      ∀ a, tget 0 d.bench a =
        if a = o + phase then (if left = 0 then tget 0 c.bench (off + 1 + phase) else BitVec.ofNat 8 left)
        else if a = o + 2 ∧ left = 0 then tget 0 c.bench (o + 2) ^^^ BitVec.ofNat 8 (2 ^ phase)
        else tget 0 c.bench a
    (∀ op scope slot pa va x c dst d, ready → s.group? p.g = some g → p.got = [] → p.dues = [d] →
      p.req = .atom op true scope true [(slot, pa, va, x, c)] (some dst) false → s.poisonAt pa 8 = false → 4 ≤ scope →
      let key := some (s.keyAt own pa)
      let old := s.valueAt key pa 8
      exec (.atomicPerform id) s = .next ((((s.performBytes key pa
        (leBytes 8 (atomNew op 64 old x.toNat c.toNat))).dropPending id).answer p.g id pa (uVal (uDst dst) old) none).sendReady)) ∧
    (∀ va pa cc wide scope ref mask timeout dst ovf, ready → p.req = .waitc va pa cc wide scope ref mask timeout dst →
      s.syncRoom false pa = some ovf →
      let u := s0.settleSector (pa / 64)
      let m : Monitor := { id, g := p.g, pa, cc, wide, ref, mask, dst, va, ovf, owner := own,
                           deadline := if timeout = 0 then none else some (s.gtc + timeout) }
      exec (.waitcPerform id) s = .next ({ u with monitors := u.monitors ++ [m] }.evalMonitor m)) ∧
    (∀ m, s.monitors.find? (fun m => m.id = id) = some m → m.dirty = true → m.holds s = true →
      exec (.monitorEvaluate id) s = .next (s.endMonitor m 0)) ∧
    (∀ m e, s.monitors.find? (fun m => m.id = id) = some m → m.deadline = some e → e ≤ s.gtc →
      exec (.waitcTimeout id) s = .next (s.endMonitor m (if m.holds s then 0 else 1))) ∧
    (∀ va pa scope ovf, ready → p.req = .qlock va pa scope → s.lockAt own pa = none → s.syncRoom true pa = some ovf →
      exec (.lockPerform id) s =
        .next ({ s0 with locks := { owner := own, pa, holder := p.g, ovf } :: s0.locks }.answer p.g id pa [] none)) ∧
    (∀ va pa scope l, ready → p.req = .qlock va pa scope → s.lockAt own pa = some l → l.holder ≠ p.g →
      exec (.lockPerform id) s = .next { s0 with locks := s0.locks.map fun k =>
        if k.owner = own && k.pa = pa then { k with fifo := k.fifo ++ [(id, p.g)] } else k }) ∧
    (∀ va pa scope l, ready → p.req = .qunlk va pa scope → s.lockAt own pa = some l → l.holder = p.g → 4 ≤ scope →
      exec (.lockPerform id) s = .next ((s0.handOn l).acknowledge p.g id pa)) ∧
    (∀ n form count, ready → p.req = .bar n form count → s.block? (blockOf p.g) = some b → form < 3 →
      arrives (.block (blockOf p.g) n) ((s.groupsOf (blockOf p.g)).filter fun h => h.exited = false).length form count) ∧
    (∀ form count, ready → p.req = .lbar form count → form < 3 →
      arrives (.launch p.g.task) (s.groups.filter fun h => h.ref.task = p.g.task ∧ h.exited = false).length form count) ∧
    (∀ off st, ready → p.req = .csarv off st →
      ∃ t, exec (.courseUpdate id) s = .next t ∧ steps off st 0 t ∧ came t id p.g ∧ t.mem = s.mem) ∧
    (∀ off st, ready → p.req = .csrel off st → ∃ t, exec (.courseUpdate id) s = .next t ∧ steps off st 1 t ∧ t.mem = s.mem) ∧
    (∀ r dst, ready → p.req = .spawn r dst → s.group? p.g = some g →
      (s0.freeTcb (dieOfCore g.core) = none → exec (.spawnPerform id) s =
        .next (s0.answer p.g id (s0.die (dieOfCore g.core)).tcbPool (uVal (uDst dst) 0xFFFFFFFF) none)) ∧
      (∀ n, s0.freeTcb (dieOfCore g.core) = some n → ∃ t, exec (.spawnPerform id) s = .next t ∧
        let c := t.tcb n
        let t0 := s.tcb p.g.task
        c.state = .ready ∧ c.readyGtc = s.gtc ∧ c.spawned = true ∧ c.parent = p.g.task ∧ c.parentBlk = p.g.bid ∧
          c.queue = t0.queue ∧ c.kdesc = recField r 0 8 ∧ c.args = recField r 8 8 ∧ c.tiles = recField r 0x10 4 ∧
          c.tshape = recField r 0x14 4 ∧ c.fmask = (if recField r 0x18 1 = 0 then t0.fmask else recField r 0x18 1) ∧
          c.prio = min (recField r 0x19 1 % 8) t0.prio)) ∧
    (∀ dst, ready → p.req = .join dst → s.block? (blockOf p.g) = some b →
      (b.children = 0 → b.joins = [] → exec (.joinPerform id) s =
        .next ((s0.modBlock b.ref fun x => { x with failed := 0 }).answer p.g id (s.tcbPa p.g.task)
          (uVal (uDst dst) b.failed) none)) ∧
      (∀ u, b.children ≠ 0 → b.state = .placed → s.stopToSave b.ref 2 = some u →
        exec (.joinPerform id) s = .next (u.waitJoin p dst)))
/-! ### Rules stated whole -/

/-- R191: the three shifts in exact arithmetic, the divisions that never trap, and the rule's examples. -/
def Obligations.ShiftAndDivision : Prop :=
  ∀ (s : State) (g : Group) (b : Block) (y : Ext) (f : BaseF),
    let does (fn len : Nat) (x : Ext) (i : Instr) (v : W64) : Prop :=
      let e := envOf s g b len
      let d := x.d.toNat - 128
      Full 16 fn x e → Completes i { len } s g b (e.putU (g.arch.past len) d v) (e.uCodes d)
    let all (len : Nat) (x : Nat → Ext) (shl shr sra div divu rem remu : Instr) : Prop :=
      let v (fn : Nat) (c : Ext → BitVec 10) : W64 := (envOf s g b len).srcU (x fn).lit (c (x fn))
      let a (fn : Nat) : W64 := v fn (·.a)
      let c (fn : Nat) : W64 := v fn (·.b)
      let n (fn : Nat) : Nat := (c fn).toNat % 2 ^ 8
      does 12 len (x 12) shl (BitVec.ofNat 64 ((a 12).toNat * 2 ^ n 12)) ∧
      (64 ≤ n 12 → does 12 len (x 12) shl 0) ∧
      does 13 len (x 13) shr (BitVec.ofNat 64 ((a 13).toNat / 2 ^ n 13)) ∧
      (64 ≤ n 13 → does 13 len (x 13) shr 0) ∧
      does 14 len (x 14) sra (BitVec.ofInt 64 ((a 14).toInt / 2 ^ min (n 14) 63)) ∧
      (64 ≤ n 14 → does 14 len (x 14) sra (if (a 14).msb then BitVec.allOnes 64 else 0)) ∧
      (c 5 = 0 → does 5 len (x 5) div 0xFFFFFFFFFFFFFFFF) ∧
      (c 6 = 0 → does 6 len (x 6) divu 0xFFFFFFFFFFFFFFFF) ∧
      (c 7 = 0 → does 7 len (x 7) rem (a 7)) ∧
      (c 8 = 0 → does 8 len (x 8) remu (a 8)) ∧
      (a 5 = BitVec.ofInt 64 (-2 ^ 63) → c 5 = BitVec.ofInt 64 (-1) → does 5 len (x 5) div (BitVec.ofInt 64 (-2 ^ 63))) ∧
      (a 7 = BitVec.ofInt 64 (-2 ^ 63) → c 7 = BitVec.ofInt 64 (-1) → does 7 len (x 7) rem 0) ∧
      (a 5 = BitVec.ofInt 64 (-7) → c 5 = 2 → does 5 len (x 5) div (BitVec.ofInt 64 (-3))) ∧
      (a 7 = BitVec.ofInt 64 (-7) → c 7 = 2 → does 7 len (x 7) rem (BitVec.ofInt 64 (-1)))
    all (lenExt y) (fun _ => y) (.sshl y) (.sshr y) (.ssra y) (.sdiv y) (.sdivu y) (.srem y) (.sremu y) ∧
    all (lenBase f) (fun fn => .ofBase 16 fn f) (.sshlBase f) (.sshrBase f) (.ssraBase f) (.sdivBase f) (.sdivuBase f) (.sremBase f)
      (.sremuBase f)

/-- R210: BRA goes to pc + 4 × sext(offset); CALL does so too and writes s1, full, before; each is one base word. -/
def Obligations.BranchAndCall : Prop :=
  ∀ (s : State) (g : Group) (b : Block) (off : BitVec 25),
    let e := envOf s g b 4
    let dest : Nat := (((g.arch.pc : Int) + 4 * off.toInt) % 2 ^ 64).toNat
    Completes (.bra off) { len := 4 } s g b { g.arch with pc := dest } [] ∧
    (e.blocked [] [129] = none → Completes (.call off) { len := 4 } s g b
      { g.arch.setS 1 { val := BitVec.ofNat 64 (g.arch.pc + 4), pend := none } with pc := dest } [129]) ∧
    encode (.bra off) = [BitVec.ofNat 32 (off.toNat * 2 ^ 7 + 0x20)] ∧
    encode (.call off) = [BitVec.ofNat 32 (off.toNat * 2 ^ 7 + 0x24)]

/-! ### Encodings -/

/-- R44, R48, R52, R61: what is encoded from a well-formed instruction decodes to it, whatever its fields and whatever words
follow. -/
def Obligations.DecodeEncode : Prop :=
  ∀ (l : Limits) (i : Instr) (rest : List W32), i.WellFormed l → decodeWith l (encode i ++ rest) = .ok i

/-- R44, R47, R53: the decoder accepts nothing else: what it reads is well formed, and the words are that instruction's. -/
def Obligations.EncodeDecode : Prop :=
  ∀ (l : Limits) (ws : List W32) (i : Instr), decodeWith l ws = .ok i →
    i.WellFormed l ∧ ws.take (encode i).length = encode i

/-- The words of the spec's own listings stand for the instructions written beside them there, and are their encodings. -/
def Obligations.DecodedWords : Prop :=
  ∀ p ∈ wordTable, decodeWith Limits.all p.1 = .ok p.2 ∧ encode p.2 = p.1

/-! ### The step -/

/-- A step runs the decoded instruction: where no input has come and no event is due, the step of a group that is chosen to issue
is `exec` of the instruction its words decode to, by that group, with the accounting of an issue after it; and a group that
alone on its bench may issue, and whose weight the allowance covers, is chosen (R166, R170). -/
def Obligations.StepRunsDecoded : Prop :=
  ∀ (s s1 : State) (g : Group) (b : Block) (ws : List W32) (i : Instr) (bench : Nat) (bs : List Nat),
    (s.input = none → s.dueEvent = none → s.dueIssue = some (s.offer g b).choice →
      fetchInstr s b g.core g.arch.pc = .ok (ws, s1) → decodeWith (limitsAt b g.arch) ws = .ok i →
      step s = andThen (exec i { s1 with cur := some g.ref }) fun u => (u.settle g.ref ws).draw) ∧
    (s.activeBenches = bench :: bs → s.offers bench = [s.offer g b] → (s.offer g b).weight ≤ s.allowNow bench →
      s.dueIssue = some (s.offer g b).choice)

/-- R48, R166: the schedule runs no instruction but one that an active group's own words decode to at its program counter; what
it runs as an event has no encoding. -/
def Obligations.OnlyDecodedIssue : Prop :=
  ∀ (s t : State) (i : Instr) (r : GroupRef) (ws : List W32),
    (s.choose = .issue i r ws t → ∃ g b s1, g ∈ s.groups ∧ g.ref = r ∧ 
      g.eligible s.gtc (s.effCycles (benchOfCore g.core)) = true ∧ s.block? (blockOf r) = some b ∧
      b.state = .placed ∧ fetchInstr s b g.core g.arch.pc = .ok (ws, s1) ∧ decodeWith (limitsAt b g.arch) ws = .ok i ∧
      t = { s1 with cur := some r }) ∧
    (s.choose = .event i t → encode i = [])

/-! ### Reset and the canonical memory -/

/-- The values that the tables of R76, R77, R137, R169, R171, R291, R292, R334, R379, R408, R418 and R431 give for reset, R133's
BATCH and Table 9-5's bench registers (R176), with nothing running and no byte of memory written. -/
def Obligations.ResetValues : Prop :=
  (∀ t ∈ resetTable, ∀ n < t.2.2.1, ∀ p ∈ t.2.2.2, State.reset.readW0 (t.1 + t.2.1 * n + p.1) = p.2) ∧
  (∀ d, (State.reset.die d).batch = 64) ∧
  (∀ n, (State.reset.bench n).pattern = 0xFFFF ∧ (State.reset.bench n).refill = 64 ∧ (State.reset.bench n).allow = 0) ∧
  (∀ q, (State.reset.tcb q).state = .free) ∧ State.reset.groups = [] ∧ State.reset.blocks = [] ∧
  State.reset.mem = [] ∧ Memory.wf State.reset.mem = true

/-- Every step keeps memory in its canonical form, which is the model's own (log 107): the list of what has been written, at
rising addresses, so that a byte has one entry and equal memories are equal lists. -/
def Obligations.StepKeepsMemory : Prop :=
  ∀ (s t : State), Memory.wf s.mem = true → step s = .next t → Memory.wf t.mem = true

/-! ### What an instruction's issue cannot reach -/

/-- R158, R307, R311: an instruction sends nothing from its core at issue: no byte of memory, no key, no poison mark, no line of
the content-addressed region, no lock, monitor or request that has left a core, no bench memory changes, and of the other
groups no register and no region. -/
def Obligations.IssueIsPrivate : Prop :=
  ∀ (s t : State) (i : Instr), encode i ≠ [] → exec i s = .next t →
    t.mem = s.mem ∧ t.keys = s.keys ∧ t.poison = s.poison ∧ t.caLines = s.caLines ∧ t.locks = s.locks ∧
    t.monitors = s.monitors ∧ t.pendings = s.pendings ∧ t.queues = s.queues ∧ t.owners = s.owners ∧ t.gtc = s.gtc ∧
    (∀ r, (t.block? r).map (·.bench) = (s.block? r).map (·.bench)) ∧
    (∀ r, s.cur ≠ some r → (t.group? r).map (fun g => (g.arch, g.regions)) = (s.group? r).map fun g => (g.arch, g.regions))

/-- R293, R311: a released entry that performs writes its bytes and no other: in bench memory, those of its block; in
scratchpad, those at its addresses under its owner's key, beside which the bytes of a sector that stood under another key
are lost. -/
def Obligations.DrainFrame : Prop :=
  ∀ (s : State) (q : QEntry),
    let key := some (s.keyAt q.owner q.pa)
    let stored (a : Nat) : Prop := ∃ w ∈ q.bytes, a = q.pa + w.1
    s.entries.find? (fun o => o.id = q.id) = some q → s.drainDue q = true → Table.sorted q.bytes = true →
    (∀ w ∈ q.bytes, (q.pa + w.1) / 64 = q.pa / 64) → q.phase ≤ 1 → (q.phase = 0 → s.entryHold q = 0) →
    ∃ t, exec (if q.phase = 0 then .storeDrain q.id else .taggedHoldEnd q.id) s = .next t ∧ t.groups = s.groups ∧
      (q.bench = false → t.blocks = s.blocks ∧ (∀ w ∈ q.bytes, t.readByte key (q.pa + w.1) = w.2) ∧
        ∀ (k : Option KeyVal) (a : Nat), ¬stored a → (a / 64 ≠ q.pa / 64 ∨ s.keyFits key q.pa = true) →
          t.readByte k a = s.readByte k a) ∧
      (q.bench = true → t.mem = s.mem ∧ t.keys = s.keys ∧
        (∀ r, r ≠ blockOf q.g → t.block? r = s.block? r) ∧
        ∀ b, s.block? (blockOf q.g) = some b → ∃ c, t.block? (blockOf q.g) = some c ∧
          (∀ w ∈ q.bytes, tget 0 c.bench (q.pa + w.1) = w.2) ∧
          ∀ a, ¬stored a → tget 0 c.bench a = tget 0 b.bench a)

/-! ### Traps and squashes -/

/-- R423, R424, R427: a trap writes the frame, keeps $run for the return, and goes to the handler, and changes no other register;
inside a handler it is a double fault, and without a handler it ends the task, but for STEP and THROTTLE. -/
def Obligations.TrapEntry : Prop :=
  ∀ (e : Env) (t : Trap) (resume : Nat),
    let a := e.g.arch
    let fromC := e.b.codeFromC e.fromC (t.site.getD e.addr)
    let handler := { e with fromC }.trapBase
    let o := (e.b.taskOf fromC, e.b.originalPc fromC (t.site.getD e.addr) resume)
    let f := e.takeTrap t resume
    let c := f.g.arch
    let full (v : Nat) : UReg := { val := BitVec.ofNat 64 v }
    let ends (fault : Nat) : Prop := f.g.doomed = true ∧ c = a ∧ f.s = e.s ∧
      ∃ r, f.g.regions.getLast? = some r ∧ r.trap = some (t.code, true, some fault) ∧ r.trapTask = o.1 ∧ r.trapPc = o.2
    (a.handler = true → ends 34) ∧
    (a.handler = false → handler = 0 → (t.code = 32 ∨ t.code = 33) → f = e) ∧
    (a.handler = false → handler = 0 → t.code ≠ 32 → t.code ≠ 33 → ends t.code) ∧
    (a.handler = false → handler ≠ 0 →
      c.pc = handler ∧ c.handler = true ∧ c.entryRun = a.run ∧ c.run = a.run ∧ c.stack = a.stack ∧ c.v = a.v ∧ c.k = a.k ∧
      c.fmode = a.fmode ∧ c.cursor = a.cursor ∧ c.deferred = a.deferred ∧ (∀ n, n < 376 ∨ 384 ≤ n → c.ureg n = a.ureg n) ∧
      c.ureg 376 = full t.code ∧ c.ureg 377 = full resume ∧ c.ureg 378 = { val := t.addr } ∧ c.ureg 379 = full o.1 ∧
      c.ureg 380 = full o.2 ∧ c.ureg 381 = full e.s.gtc ∧ c.ureg 382 = { val := t.cause0 } ∧ c.ureg 383 = { val := t.cause1 } ∧
      (e.b.fused = none → c.vwb = 0 ∧ c.swb = 0 ∧ o = (e.b.ref.task, resume)) ∧
      (∀ k, e.b.fused = some k → (c.vwb, c.swb) = if fromC then (k.p.vcount, k.p.scount) else (0, 0)) ∧
      f.g.headPending = true ∧ f.b = e.b ∧ f.s.mem = e.s.mem)

/-- R73: an engine's instruction issued by a group of another role takes ROLE_ENGINE precisely, with no effect of its own. -/
def Obligations.RoleTrap : Prop :=
  ∀ (s : State) (g : Group) (b : Block) (x : Ext), ∀ p ∈ engineTable x,
    let i : IssueInfo := { len := lenExt x }
    s.cur.bind s.group? = some g → s.block? (blockOf g.ref) = some b → g.ended = false → g.doomed = false →
    b.state = .placed → (g.opensFor i = true → g.regions.length < 4) → g.role ≠ p.2 →
    exec p.1 s = .next ((envBefore i s g b).takeTrap { code := 6 } g.arch.pc).close

/-- R404, R410, R412, R414: a sensor report squashes, on the die whose controllers latch it, exactly the groups that hold an
uncommitted region whose cover has the cell: each goes back to what it was at its oldest head, with what it has queued since
discarded; no other group, no byte of memory and no released entry changes.  The other die's groups it squashes so when its
message reaches them, at most 48 mc later; where within those is the model's choice (log 74).  (The report is not the cell's
eighth, which may take cores offline, R416.) -/
def Obligations.SquashRestores : Prop :=
  ∀ (s : State) (c : CellRef) (g : Group) (q : Region) (qs : List Region),
    let hits (h : Group) (die : Nat) : Prop := h.ref = g.ref ∧ dieOfCore h.core = die ∧ ∃ y ∈ h.regions, c ∈ y.cover
    let strikes (t : State) (die : Nat) : Prop := t.mem = s.mem ∧ t.blocks = s.blocks ∧
      ((∃ h ∈ s.groups, hits h die) → g.regions = q :: qs →
        ∃ h, t.group? g.ref = some h ∧ h.arch = q.ctx ∧ h.regions = [] ∧ h.squashes = (g.squashes + 1) % 2 ^ 32 ∧
          (∀ o ∈ t.entries, o.g = g.ref → o.released = true) ∧
          (∀ o ∈ t.fills, o.g = g.ref → o.closing = false → ∀ y ∈ g.regions, o.region ≠ y.seq)) ∧
      ((∀ h ∈ s.groups, ¬hits h die) → t.group? g.ref = some g)
    s.group? g.ref = some g →
    (s.mayReport c = true → (recent s.gtc (s.cell c).events).length < 7 → ∃ t, exec (.sensorReport c) s = .next t ∧
      strikes t (cellDie c) ∧ ∃ m, (1 - cellDie c, m) ∈ t.messages ∧ m.cell = c ∧ m.stamp = s.gtc ∧ m.due ≤ s.gtc + 48) ∧
    (∀ die m, m.cell = c → s.input = none → s.messages.find? (fun d => d.2.due ≤ s.gtc) = some (die, m) →
      ∃ t, step s = .next t ∧ strikes t die ∧ t.messages = s.messages.erase (die, m))
end

