-- ==== Sys2Proof/Laws/Issue.lean ====
section
/-!
SUPPORT. Laws/Issue.lean: what the one wrapper `issue` does, said once.
-/

namespace Sys2Proof.Machine

open Sys2Proof

/-! ### Groups and blocks by name -/

theorem findGroup_ref {gs : List Group} {r : GroupRef} {g : Group} (h : findGroup gs r = some g) : g.ref = r := by
  simpa using List.find?_some h

theorem findBlock_ref {bs : List Block} {r : BlockRef} {b : Block} (h : findBlock bs r = some b) : b.ref = r := by
  simpa using List.find?_some h

section
variable {α κ : Type} [DecidableEq κ] (key : α → κ)

theorem find_put_same {l : List α} {g h : α} (hf : l.find? (fun x => key x = key g) = some h) :
    (l.map fun x => if key x = key g then g else x).find? (fun x => key x = key g) = some g := by
  induction l with
  | nil => simp at hf
  | cons x xs ih =>
    by_cases hx : key x = key g
    · simp [hx]
    · rw [List.find?_cons_of_neg (by simpa using hx)] at hf
      rw [List.map_cons, if_neg hx, List.find?_cons_of_neg (by simpa using hx)]
      exact ih hf

theorem find_put_other {l : List α} {g : α} {r : κ} (hr : r ≠ key g) :
    (l.map fun x => if key x = key g then g else x).find? (fun x => key x = r) = l.find? fun x => key x = r := by
  induction l with
  | nil => rfl
  | cons x xs ih =>
    rw [List.map_cons]
    by_cases hx : key x = key g
    · rw [if_pos hx, List.find?_cons_of_neg (by simpa using fun e => hr e.symm),
        List.find?_cons_of_neg (by simpa using fun e => hr (e.symm.trans hx)), ih]
    · rw [if_neg hx]
      by_cases hxr : key x = r
      · rw [List.find?_cons_of_pos (by simpa using hxr), List.find?_cons_of_pos (by simpa using hxr)]
      · rw [List.find?_cons_of_neg (by simpa using hxr), List.find?_cons_of_neg (by simpa using hxr), ih]

/-- Putting back what is found at its own key changes nothing that can be looked up. -/
theorem find_put_self {l : List α} {g : α} (hf : l.find? (fun x => key x = key g) = some g) (r : κ) :
    (l.map fun x => if key x = key g then g else x).find? (fun x => key x = r) = l.find? fun x => key x = r := by
  by_cases hr : r = key g
  · subst hr
    rw [hf, find_put_same key hf]
  · exact find_put_other key hr
end

/-! ### The wrapper -/

/-- An issue with nothing in its way does what its body says. -/
theorem issue_ready {i : IssueInfo} {body : Env → Res} {s : State} {g : Group} {b : Block} (h : Ready i s g b) :
    issue i body s =
      match body (envAt i s g b) with
      | .trap t => .next ((envBefore i s g b).takeTrap t g.arch.pc).close
      | .trapAfter t w => .next ((envBefore i (s.walked w) g b).takeTrap t g.arch.pc).close
      | .stall => .next ((envBefore i s g b).stalls (if g.wait = .empty then g.waitSince else s.gtc)).close
      | .wait w => .next (s.waitAt (if g.opensFor i then g.passHead s.gtc else g) w)
      | .waitHead =>
        .next (s.waitAt (if 4 ≤ g.regions.length then g else { (g.passHead s.gtc) with headPending := true }) .empty)
      | .done e =>
        if s.renamePool g.core < e.g.renameUse + s.renameUsed g.core g.ref then
          .next (s.waitAt (if g.opensFor i then g.passHead s.gtc else g) .empty)
        else .next (e.issued i (g.opensFor i) g.arch.handler).close := by
  have h1 : (i.role.any fun r => r ≠ g.role) = false := by
    cases hr : i.role with
    | none => rfl
    | some r => simp [h.role r hr]
  have h2 : (g.stall.isSome || ((i.reads || i.writes || i.mem) && g.memHeld s)) = false := by
    rw [h.unstalled]
    cases hw : (i.reads || i.writes || i.mem) with
    | false => rfl
    | true => simp [h.waiting hw]
  have h3 : (i.reads && (envBefore i s g b).readHeld) = false := by
    cases hr : i.reads with
    | false => rfl
    | true => simp [h.fenced hr]
  have h4 : ¬ (g.opensFor i = true ∧ 4 ≤ g.regions.length) := fun ⟨a, c⟩ => by
    have := h.regions a
    omega
  have h5 : (g.opensFor i && decide (4 ≤ g.regions.length)) = false := by simpa using h4
  unfold issue
  simp only [h.group, h.block, h.alive, h.sound, h.placed, h1, h2, h3, h5]
  rfl

theorem issued_ref (e : Env) (i : IssueInfo) (o h : Bool) : (e.issued i o h).g.ref = e.g.ref := rfl

theorem issued_arch (e : Env) (i : IssueInfo) (o h : Bool) : (e.issued i o h).g.arch = e.g.arch := rfl

theorem ready_ref {i : IssueInfo} {s : State} {g : Group} {b : Block} (h : Ready i s g b) :
    findGroup s.groups g.ref = some g ∧ findBlock s.blocks b.ref = some b := by
  obtain ⟨r, _, hr⟩ := Option.bind_eq_some_iff.mp h.group
  have hg := findGroup_ref hr
  have hb := findBlock_ref h.block
  subst hg
  exact ⟨hr, hb ▸ h.block⟩

/-- An issue whose body changes nothing but the registers of its group and what an issue changes anyway. -/
theorem issue_leaves {i : IssueInfo} {body : Env → Res} {s : State} {g : Group} {b : Block} {e : Env}
    (h : Ready i s g b) (hb : body (envAt i s g b) = .done e) (hs : e.s = s) (hk : e.b = b) (hsame : g.sameBut e.g)
    (room : Room s g e.g) : Leaves (issue i body s) s g e.g.arch := by
  have hlt : ¬ s.renamePool g.core < e.g.renameUse + s.renameUsed g.core g.ref := Nat.not_lt.mpr room
  obtain ⟨hg1, hb1⟩ := ready_ref h
  have hr : e.g.ref = g.ref := by
    have := congrArg Group.ref (show _ = g from hsame)
    exact this
  refine ⟨(e.issued i (g.opensFor i) g.arch.handler).close, (e.issued i (g.opensFor i) g.arch.handler).g, ?_, ?_, rfl, ?_, ?_⟩
  · rw [issue_ready h, hb]
    simp [hlt]
  · show findGroup (putGroup e.s.groups (e.issued i (g.opensFor i) g.arch.handler).g) g.ref = _
    rw [hs, ← hr]
    exact find_put_same Group.ref (g := (e.issued i (g.opensFor i) g.arch.handler).g) (h := g) (by rw [issued_ref, hr]; exact hg1)
  · exact hsame
  · refine ⟨?_, ?_, ?_⟩
    · subst hs; rfl
    · intro q hq
      show findGroup (putGroup e.s.groups (e.issued i (g.opensFor i) g.arch.handler).g) q = findGroup s.groups q
      rw [hs]
      exact find_put_other Group.ref (g := (e.issued i (g.opensFor i) g.arch.handler).g) (by rw [issued_ref, hr]; exact hq)
    · intro q
      show findBlock (putBlock e.s.blocks e.b) q = findBlock s.blocks q
      rw [hs, hk]
      exact find_put_self Block.ref hb1 q

/-! ### What an issue sees -/

theorem atIssue_arch (g : Group) (i : IssueInfo) (gtc : Nat) : (g.atIssue i gtc).arch = g.arch := by
  unfold Group.atIssue
  cases g.opensFor i <;> rfl

theorem atIssue_ref (g : Group) (i : IssueInfo) (gtc : Nat) : (g.atIssue i gtc).ref = g.ref := by
  unfold Group.atIssue
  cases g.opensFor i <;> rfl

theorem atIssue_core (g : Group) (i : IssueInfo) (gtc : Nat) : (g.atIssue i gtc).core = g.core := by
  unfold Group.atIssue
  cases g.opensFor i <;> rfl

theorem atIssue_launched (g : Group) (i : IssueInfo) (gtc : Nat) : (g.atIssue i gtc).launched = g.launched := by
  unfold Group.atIssue
  cases g.opensFor i <;> rfl

theorem atIssue_sameBut (g : Group) (i : IssueInfo) (gtc : Nat) : g.sameBut (g.atIssue i gtc) := by
  unfold Group.atIssue Group.sameBut
  cases g.opensFor i <;> rfl

variable (i : IssueInfo) (s : State) (g : Group) (b : Block)

theorem envAt_arch : (envAt i s g b).g.arch = g.arch.past i.len := by
  have h : (envAt i s g b).g.arch = { (g.atIssue i s.gtc).arch with pc := (g.arch.pc + i.len) % 2 ^ 64 } := rfl
  rw [h, atIssue_arch]
  rfl

@[simp] theorem envAt_s : (envAt i s g b).s = s := rfl
@[simp] theorem envAt_b : (envAt i s g b).b = b := rfl
@[simp] theorem envAt_addr : (envAt i s g b).addr = g.arch.pc := rfl
@[simp] theorem envAt_ref : (envAt i s g b).g.ref = g.ref := atIssue_ref g i s.gtc
@[simp] theorem envAt_core : (envAt i s g b).g.core = g.core := atIssue_core g i s.gtc
@[simp] theorem envAt_launched : (envAt i s g b).g.launched = g.launched := atIssue_launched g i s.gtc
@[simp] theorem envAt_fromC : (envAt i s g b).fromC = (envOf s g b i.len).fromC := rfl

@[simp] theorem envAt_vIdx (n : Nat) : (envAt i s g b).vIdx n = (envOf s g b i.len).vIdx n := by
  unfold Env.vIdx; rw [envAt_arch]; rfl
@[simp] theorem envAt_sIdx (n : Nat) : (envAt i s g b).sIdx n = (envOf s g b i.len).sIdx n := by
  unfold Env.sIdx Env.sAt; rw [envAt_arch]; rfl
@[simp] theorem envAt_vSrc (n : Nat) : (envAt i s g b).vSrc n = (envOf s g b i.len).vSrc n := by
  unfold Env.vSrc; rw [envAt_arch]; rfl
@[simp] theorem envAt_sSrc (n : Nat) : (envAt i s g b).sSrc n = (envOf s g b i.len).sSrc n := by
  unfold Env.sSrc Env.sAt; rw [envAt_arch]; rfl
@[simp] theorem envAt_vval (n : Nat) : (envAt i s g b).vval n = (envOf s g b i.len).vval n := by
  unfold Env.vval; rw [envAt_vSrc, envAt_arch]; rfl
@[simp] theorem envAt_vOld (n : Nat) : (envAt i s g b).vOld n = (envOf s g b i.len).vOld n := by
  unfold Env.vOld; rw [envAt_vIdx, envAt_arch]; rfl
@[simp] theorem envAt_sval (n : Nat) : (envAt i s g b).sval n = (envOf s g b i.len).sval n := by
  unfold Env.sval; rw [envAt_sSrc, envAt_arch]; rfl
@[simp] theorem envAt_kval (n : Nat) : (envAt i s g b).kval n = (envOf s g b i.len).kval n := by
  unfold Env.kval; rw [envAt_arch]; rfl
@[simp] theorem envAt_special (n : Nat) : (envAt i s g b).special n = (envOf s g b i.len).special n := by
  unfold Env.special; rw [envAt_ref, envAt_core, envAt_arch]; rfl
@[simp] theorem envAt_specialV (n : Nat) : (envAt i s g b).specialV n = (envOf s g b i.len).specialV n := by
  unfold Env.specialV; rw [envAt_ref]; simp only [envAt_special]; rfl
@[simp] theorem envAt_src32 (p : Pos) (l : Option W64) (c : BitVec 10) :
    (envAt i s g b).src32 p l c = (envOf s g b i.len).src32 p l c := by
  unfold Env.src32; simp only [envAt_vval, envAt_sval, envAt_kval, envAt_specialV, envAt_special]
@[simp] theorem envAt_src64 (l : Option W64) (c : BitVec 10) :
    (envAt i s g b).src64 l c = (envOf s g b i.len).src64 l c := by
  unfold Env.src64; simp only [envAt_vval, envAt_sval]
@[simp] theorem envAt_srcU (l : Option W64) (c : BitVec 10) :
    (envAt i s g b).srcU l c = (envOf s g b i.len).srcU l c := by
  unfold Env.srcU; simp only [envAt_sval, envAt_kval, envAt_special]
@[simp] theorem envAt_srcS32 (p : Pos) (l : Option W64) (c : BitVec 10) :
    (envAt i s g b).srcS32 p l c = (envOf s g b i.len).srcS32 p l c := by
  unfold Env.srcS32; simp only [envAt_src32]
@[simp] theorem envAt_isEmpty (c : Nat) : (envAt i s g b).isEmpty c = (envOf s g b i.len).isEmpty c := by
  unfold Env.isEmpty
  rw [envAt_arch, funext (envAt_vSrc i s g b), funext (envAt_sSrc i s g b)]
  rfl
@[simp] theorem envAt_isEmptyDst (c : Nat) : (envAt i s g b).isEmptyDst c = (envOf s g b i.len).isEmptyDst c := by
  unfold Env.isEmptyDst
  rw [envAt_arch, funext (envAt_vIdx i s g b), funext (envAt_sIdx i s g b)]
  rfl
@[simp] theorem envAt_blocked (r : List (Nat × Bool)) (d : List Nat) :
    (envAt i s g b).blocked r d = (envOf s g b i.len).blocked r d := by
  unfold Env.blocked; simp only [envAt_isEmpty, envAt_isEmptyDst]
@[simp] theorem envAt_pred (x : Ext) : (envAt i s g b).pred x = (envOf s g b i.len).pred x := by
  unfold Env.pred; simp only [envAt_kval]
@[simp] theorem envAt_parts (x : Ext) (j : Nat) : (envAt i s g b).parts x j = (envOf s g b i.len).parts x j := by
  unfold Env.parts; rw [envAt_launched, envAt_pred, envAt_arch]; rfl
@[simp] theorem envAt_active (x : Ext) (j : Nat) : (envAt i s g b).active x j = (envOf s g b i.len).active x j := by
  unfold Env.active; rw [envAt_launched, envAt_parts]; rfl
@[simp] theorem envAt_allPart (x : Ext) : (envAt i s g b).allPart x = (envOf s g b i.len).allPart x := by
  unfold Env.allPart; simp only [envAt_launched, envAt_parts]; rfl
@[simp] theorem envAt_fmodeFor (r : BitVec 3) : (envAt i s g b).fmodeFor r = (envOf s g b i.len).fmodeFor r := by
  unfold Env.fmodeFor; rw [envAt_arch]; rfl
@[simp] theorem envAt_half : (envAt i s g b).half = (envOf s g b i.len).half := rfl
@[simp] theorem envAt_kernel : (envAt i s g b).kernel = (envOf s g b i.len).kernel := rfl
@[simp] theorem envAt_benchShift : (envAt i s g b).benchShift = (envOf s g b i.len).benchShift := rfl
@[simp] theorem envAt_readAt (c : BitVec 10) (v : VVal) (j : Nat) :
    (envAt i s g b).readAt c v j = (envOf s g b i.len).readAt c v j := by
  unfold Env.readAt; rw [envAt_launched]; rfl

variable {i s g b}

/-- A body that has found its registers full. -/
theorem whenFull_done {e : Env} {r : List (Nat × Bool)} {d : List Nat} {k : Env → Res} (h : e.blocked r d = none) :
    e.whenFull r d k = k e := by
  unfold Env.whenFull
  rw [h]

/-- An instruction whose body, its registers full, writes registers of its own group only. -/
theorem completes_of {n : Instr} {body : Env → Res} {a : Arch} {w : List Nat} {e : Env}
    (hx : exec n s = issue i body s) (hb : body (envAt i s g b) = .done e) (hs : e.s = s) (hk : e.b = b)
    (hg : e.g = (g.atIssue i s.gtc).wrote a w) : Completes n i s g b a w := by
  intro hr hroom
  have hsame : g.sameBut e.g := by
    rw [hg]
    exact atIssue_sameBut g i s.gtc
  have := issue_leaves hr hb hs hk hsame (hg ▸ hroom)
  rw [hx]
  rw [hg] at this
  exact this

/-! ### The destinations an issue writes -/

theorem modLast_id {α : Type} (l : List α) : modLast (fun r => r) l = l := by
  induction l with
  | nil => rfl
  | cons x xs ih =>
    cases xs with
    | nil => rfl
    | cons y ys => simpa [modLast] using ih

theorem envAt_g (i : IssueInfo) (s : State) (g : Group) (b : Block) :
    (envAt i s g b).g = { g.atIssue i s.gtc with arch := g.arch.past i.len } := by
  have h : (envAt i s g b).g = { g.atIssue i s.gtc with arch := (envAt i s g b).g.arch } := rfl
  rw [h, envAt_arch]

theorem putU_done {i : IssueInfo} {s : State} {g : Group} {b : Block} (d : Nat) (v : W64) :
    ((envAt i s g b).setS64 d v).g =
      (g.atIssue i s.gtc).wrote ((envOf s g b i.len).putU (g.arch.past i.len) d v) ((envOf s g b i.len).uCodes d) := by
  unfold Env.setS64 Env.putU Env.uCodes
  by_cases hd : d = 0
  · simp only [hd, if_true, Group.wrote, List.foldl_nil, modLast_id, envAt_g]
  · simp only [hd, if_false, Env.note, Env.modRegion, Env.setArch, envAt_sIdx, envAt_g, Group.wrote]
    rfl

theorem setS64_s (e : Env) (d : Nat) (v : W64) : (e.setS64 d v).s = e.s := by
  unfold Env.setS64; split <;> rfl
theorem setS64_b (e : Env) (d : Nat) (v : W64) : (e.setS64 d v).b = e.b := by
  unfold Env.setS64; split <;> rfl

theorem writeV_g {i : IssueInfo} {s : State} {g : Group} {b : Block} (x : Ext) (n : Nat) (r : VVal) :
    ((envAt i s g b).writeV x n r).g =
      (g.atIssue i s.gtc).wrote ((envOf s g b i.len).putV x (g.arch.past i.len) n r) [(envOf s g b i.len).vIdx n] := by
  unfold Env.writeV Env.putV
  simp only [Env.withPasses, Env.setV, Env.note, Env.modRegion, Env.setArch, envAt_g, envAt_vIdx, envAt_vOld, envAt_allPart,
    Group.wrote, List.foldl]
  have : (envAt i s g b).parts x = (envOf s g b i.len).parts x := funext fun j => envAt_parts i s g b x j
  rw [this]

theorem ext_completes {maj fn : Nat} {x : Ext} {s : State} {g : Group} {b : Block} {n : Instr} {i : IssueInfo} {k : Env → Res}
    {a : Arch} {w : List Nat} {e : Env} (hx : exec n s = issueExt maj fn x i k s) (hf : Full maj fn x (envOf s g b i.len))
    (hk : k (envAt i s g b) = .done e) (hs : e.s = s) (hb : e.b = b) (hg : e.g = (g.atIssue i s.gtc).wrote a w) :
    Completes n i s g b a w := by
  obtain ⟨u, hu, hbl⟩ := hf
  unfold issueExt at hx
  refine completes_of hx ?_ hs hb hg
  simp only [hu]
  rw [whenFull_done (by simpa using hbl), hk]

theorem wrap_mod (t : Int) : wrap64 t % 2 ^ 64 = (t % 2 ^ 64).toNat := by
  unfold wrap64; omega

theorem setPc_g (i : IssueInfo) (s : State) (g : Group) (b : Block) (n : Nat) :
    ((envAt i s g b).setPc n).g = (g.atIssue i s.gtc).wrote { g.arch with pc := n % 2 ^ 64 } [] := by
  unfold Env.setPc Env.setArch Group.wrote
  simp only [envAt_g, List.foldl_nil, modLast_id, Arch.past]

theorem setS_setPc_g (i : IssueInfo) (s : State) (g : Group) (b : Block) (d : Nat) (v : W64) (n : Nat) :
    (((envAt i s g b).setS64 d v).setPc n).g = (g.atIssue i s.gtc).wrote
      { (envOf s g b i.len).putU (g.arch.past i.len) d v with pc := n % 2 ^ 64 } ((envOf s g b i.len).uCodes d) := by
  unfold Env.setPc Env.setArch
  rw [putU_done]
  rfl

theorem envAt_wrote (i : IssueInfo) (s : State) (g : Group) (b : Block) :
    (envAt i s g b).g = (g.atIssue i s.gtc).wrote (g.arch.past i.len) [] := by
  simp only [envAt_g, Group.wrote, List.foldl_nil, modLast_id]

theorem target_at (i : IssueInfo) (s : State) (g : Group) (b : Block) (o : Int) :
    (envAt i s g b).target o = wrap64 (g.arch.pc + 4 * o) := rfl

theorem setPc_s (e : Env) (n : Nat) : (e.setPc n).s = e.s := rfl
theorem setPc_b (e : Env) (n : Nat) : (e.setPc n).b = e.b := rfl

theorem writeK_g {i : IssueInfo} {s : State} {g : Group} {b : Block} (x : Ext) (n : Nat) (f : Nat → Bool) :
    ((envAt i s g b).writeK x n f).g =
      (g.atIssue i s.gtc).wrote ((envOf s g b i.len).putK x (g.arch.past i.len) n f) [512 + n] := by
  unfold Env.writeK Env.putK
  simp only [Env.setK, Env.note, Env.modRegion, Env.setArch, envAt_g, Group.wrote, List.foldl]
  simp

/-! ### A second destination -/

theorem modLast_modLast {α : Type} (f h : α → α) (l : List α) : modLast f (modLast h l) = modLast (fun x => f (h x)) l := by
  induction l with
  | nil => rfl
  | cons x xs ih =>
    cases xs with
    | nil => rfl
    | cons y ys =>
      cases ys with
      | nil => rfl
      | cons z zs => simpa [modLast] using ih

theorem wrote_note (g : Group) (a b : Arch) (w : List Nat) (c : Nat) :
    ({ g.wrote a w with arch := b, regions := modLast (fun r => r.note c) (g.wrote a w).regions } : Group) =
      g.wrote b (w ++ [c]) := by
  simp only [Group.wrote, modLast_modLast, List.foldl_append, List.foldl_cons, List.foldl_nil]

/-- What a destination's write depends on beside the register file: the slots that take part, and the window. -/
structure Agrees (e e' : Env) : Prop where
  launched : e.g.launched = e'.g.launched
  run : e.g.arch.run = e'.g.arch.run
  k : e.g.arch.k = e'.g.arch.k
  vwb : e.g.arch.vwb = e'.g.arch.vwb
  swb : e.g.arch.swb = e'.g.arch.swb
  regs : e.regs = e'.regs
  dests : e.dests = e'.dests

theorem Agrees.parts {e e' : Env} (h : Agrees e e') (x : Ext) : e.parts x = e'.parts x := by
  funext j
  unfold Env.parts Env.pred Env.kval Arch.kreg
  rw [h.launched, h.run, h.k]

theorem Agrees.allPart {e e' : Env} (h : Agrees e e') (x : Ext) : e.allPart x = e'.allPart x := by
  unfold Env.allPart
  rw [h.parts x, h.launched]

theorem Agrees.vIdx {e e' : Env} (h : Agrees e e') (n : Nat) : e.vIdx n = e'.vIdx n := by
  unfold Env.vIdx
  rw [h.vwb, h.dests]

theorem Agrees.sIdx {e e' : Env} (h : Agrees e e') (n : Nat) : e.sIdx n = e'.sIdx n := by
  unfold Env.sIdx Env.sAt
  rw [h.swb, h.dests]

theorem Agrees.kval {e e' : Env} (h : Agrees e e') (n : Nat) : e.kval n = e'.kval n := by
  unfold Env.kval Arch.kreg
  rw [h.k]

theorem envAt_agrees (i : IssueInfo) (s : State) (g : Group) (b : Block) : Agrees (envAt i s g b) (envOf s g b i.len) :=
  ⟨envAt_launched i s g b, by rw [envAt_arch]; rfl, by rw [envAt_arch]; rfl, by rw [envAt_arch]; rfl, by rw [envAt_arch]; rfl, rfl, rfl⟩

theorem Agrees.trans {a b c : Env} (h : Agrees a b) (k : Agrees b c) : Agrees a c :=
  ⟨h.launched.trans k.launched, h.run.trans k.run, h.k.trans k.k, h.vwb.trans k.vwb, h.swb.trans k.swb, h.regs.trans k.regs,
    h.dests.trans k.dests⟩

theorem writeV_agrees (e : Env) (x : Ext) (n : Nat) (r : VVal) : Agrees (e.writeV x n r) e := ⟨rfl, rfl, rfl, rfl, rfl, rfl, rfl⟩

/-- A vector destination written after others. -/
theorem writeV_next {e e' : Env} {g : Group} {a : Arch} {w : List Nat} (h : e.g = g.wrote a w) (ag : Agrees e e') (x : Ext)
    (n : Nat) (r : VVal) (hold : e.vOld n = e'.vOld n) :
    (e.writeV x n r).g = g.wrote (e'.putV x a n r) (w ++ [e'.vIdx n]) := by
  rw [← wrote_note]
  unfold Env.writeV Env.putV
  rw [← ag.parts, ← ag.allPart, ← ag.vIdx, ← hold]
  simp only [Env.withPasses, Env.setV, Env.note, Env.modRegion, Env.setArch]
  rw [h]
  rfl

theorem writeK_next {e e' : Env} {g : Group} {a : Arch} {w : List Nat} (h : e.g = g.wrote a w) (ag : Agrees e e') (x : Ext)
    (n : Nat) (f : Nat → Bool) : (e.writeK x n f).g = g.wrote (e'.putK x a n f) (w ++ [512 + n]) := by
  rw [← wrote_note]
  unfold Env.writeK Env.putK
  rw [← ag.parts, ← ag.kval]
  simp only [Env.setK, Env.note, Env.modRegion, Env.setArch]
  rw [h]
  rfl

theorem setFmode_g {e : Env} {g : Group} {a : Arch} {w : List Nat} (h : e.g = g.wrote a w) (v : W64) :
    (e.setFmode v).g = g.wrote { a with fmode := v } w := by
  unfold Env.setFmode
  split
  · rename_i hv
    rw [h] at hv ⊢
    subst hv
    rfl
  · simp only [Env.setArch]
    rw [h]
    rfl

theorem setFmode_s (e : Env) (v : W64) : (e.setFmode v).s = e.s := by
  unfold Env.setFmode
  split <;> rfl

theorem setFmode_b (e : Env) (v : W64) : (e.setFmode v).b = e.b := by
  unfold Env.setFmode
  split <;> rfl

theorem withPasses_g (e : Env) (n : Nat) : (e.withPasses n).g = e.g := rfl

/-! ### Instructions with effects beside registers -/

theorem ends_of {n : Instr} {i : IssueInfo} {body : Env → Res} {s : State} {g : Group} {b : Block} {e : Env}
    (hx : exec n s = issue i body s) (hb : body (envAt i s g b) = .done e) : Ends n i s g b e := by
  intro hr hroom
  rw [hx, issue_ready hr, hb]
  exact if_neg (Nat.not_lt.mpr hroom)

theorem ends_ext {maj fn : Nat} {x : Ext} {n : Instr} {i : IssueInfo} {k : Env → Res} {s : State} {g : Group} {b : Block}
    {e : Env} (hx : exec n s = issueExt maj fn x i k s) (hf : Full maj fn x (envOf s g b i.len))
    (hk : k (envAt i s g b) = .done e) : Ends n i s g b e := by
  obtain ⟨u, hu, hb⟩ := hf
  unfold issueExt at hx
  refine ends_of hx ?_
  simp only [hu]
  rw [whenFull_done (by simpa using hb), hk]

/-- A body that traps. -/
theorem traps_of {n : Instr} {i : IssueInfo} {body : Env → Res} {s : State} {g : Group} {b : Block} {t : Trap}
    (hx : exec n s = issue i body s) (hr : Ready i s g b) (hb : body (envAt i s g b) = .trap t) :
    exec n s = .next ((envBefore i s g b).takeTrap t g.arch.pc).close := by
  rw [hx, issue_ready hr, hb]

theorem traps_ext {maj fn : Nat} {x : Ext} {n : Instr} {i : IssueInfo} {k : Env → Res} {s : State} {g : Group} {b : Block}
    {t : Trap} (hx : exec n s = issueExt maj fn x i k s) (hf : Full maj fn x (envOf s g b i.len)) (hr : Ready i s g b)
    (hk : k (envAt i s g b) = .trap t) : exec n s = .next ((envBefore i s g b).takeTrap t g.arch.pc).close := by
  obtain ⟨u, hu, hb⟩ := hf
  unfold issueExt at hx
  refine traps_of hx hr ?_
  simp only [hu]
  rw [whenFull_done (by simpa using hb), hk]

theorem ends_store {maj fn : Nat} {x : Ext} {n : Instr} {i : IssueInfo} {k : Env → Res} {s : State} {g : Group} {b : Block}
    {e : Env} {u : Usage} (hx : exec n s = issueStore maj fn x i k s) (hu : usage maj fn x = some u)
    (hb : (envOf s g b i.len).blocked (srcCodes u x ++ (dstCodes u x).map fun n => (n, x.tc)) [] = none)
    (hk : k (envAt i s g b) = .done e) : Ends n i s g b e := by
  unfold issueStore at hx
  refine ends_of hx ?_
  simp only [hu]
  rw [whenFull_done (by simpa using hb), hk]

/-- R73: a group of another role traps at an engine's instruction, whatever the instruction would do. -/
theorem issue_role {i : IssueInfo} {body : Env → Res} {s : State} {g : Group} {b : Block} {r : Nat}
    (h1 : s.cur.bind s.group? = some g) (h2 : s.block? (blockOf g.ref) = some b) (h3 : g.ended = false)
    (h4 : g.doomed = false) (h5 : b.state = .placed) (h6 : g.opensFor i = true → g.regions.length < 4)
    (hr : i.role = some r) (h7 : g.role ≠ r) :
    issue i body s = .next ((envBefore i s g b).takeTrap { code := 6 } g.arch.pc).close := by
  have h8 : (g.opensFor i && decide (4 ≤ g.regions.length)) = false := by
    cases ho : g.opensFor i with
    | false => rfl
    | true => simpa using h6 ho
  have h9 : (i.role.any fun r => r ≠ g.role) = true := by simpa [hr] using fun e => h7 e.symm
  unfold issue
  simp only [h1, h2, h3, h4, h5, h8, h9]
  rfl

end Sys2Proof.Machine
end

