-- ==== Sys2Proof/Laws/Table.lean ====
section
/-!
SUPPORT. Laws/Table.lean: the laws of sparse tables: what a read finds after a write, and that writes keep the canonical
forms.
-/

namespace Sys2Proof.Machine

variable {α : Type}

theorem tget_terase_other (d : α) (t : Table α) {i j : Nat} (h : i ≠ j) : tget d (terase t i) j = tget d t j := by
  induction t with
  | nil => rfl
  | cons p t ih =>
    obtain ⟨k, v⟩ := p
    by_cases hk : k = i
    · have : k ≠ j := fun e => h (hk.symm.trans e)
      simp [terase, tget, hk, h, ih]
    · by_cases hj : k = j
      · subst hj
        simp [terase, tget, hk]
      · simp [terase, tget, hk, hj, ih]

theorem tget_terase_same (d : α) (t : Table α) (i : Nat) : tget d (terase t i) i = d := by
  induction t with
  | nil => rfl
  | cons p t ih =>
    obtain ⟨k, v⟩ := p
    by_cases hk : k = i <;> simp [terase, tget, hk, ih]

theorem tget_tinsert_other (d : α) (t : Table α) {i j : Nat} (v : α) (h : i ≠ j) : tget d (tinsert t i v) j = tget d t j := by
  induction t with
  | nil => simp [tinsert, tget, h]
  | cons p t ih =>
    obtain ⟨k, w⟩ := p
    by_cases hk : i < k
    · simp [tinsert, tget, hk, h]
    · by_cases hj : k = j
      · subst hj
        simp [tinsert, tget, hk]
      · simp [tinsert, tget, hk, hj, ih]

/-- A read at another key. -/
theorem tget_tset_other [DecidableEq α] (d : α) (t : Table α) {i j : Nat} (v : α) (h : i ≠ j) :
    tget d (tset d t i v) j = tget d t j := by
  unfold tset
  split
  · exact tget_terase_other d t h
  · rw [tget_tinsert_other d _ v h, tget_terase_other d t h]

theorem tget_tinsert_same (d : α) (t : Table α) (i : Nat) (v : α) (h : ∀ p ∈ t, p.1 ≠ i) : tget d (tinsert t i v) i = v := by
  induction t with
  | nil => simp [tinsert, tget]
  | cons p t ih =>
    obtain ⟨k, w⟩ := p
    have hk : k ≠ i := h (k, w) (by simp)
    have ht : ∀ p ∈ t, p.1 ≠ i := fun p hp => h p (by simp [hp])
    by_cases hlt : i < k <;> simp [tinsert, tget, hlt, hk, ih ht]

theorem terase_keys (t : Table α) (i : Nat) : ∀ p ∈ terase t i, p.1 ≠ i := by
  induction t with
  | nil => simp [terase]
  | cons q t ih =>
    obtain ⟨k, w⟩ := q
    by_cases hk : k = i
    · simpa [terase, hk] using ih
    · intro p hp
      simp only [terase, hk, if_false, List.mem_cons] at hp
      rcases hp with rfl | hp
      · exact hk
      · exact ih p hp

/-- A read at the key that was written. -/
theorem tget_tset_same [DecidableEq α] (d : α) (t : Table α) (i : Nat) (v : α) : tget d (tset d t i v) i = v := by
  unfold tset
  split
  · rename_i h
    rw [h]
    exact tget_terase_same d t i
  · exact tget_tinsert_same d _ i v (terase_keys t i)

end Sys2Proof.Machine
end

