-- ==== Sys2Proof/Laws/Memory.lean ====
section
/-!
SUPPORT. Laws/Memory.lean: the canonical form of memory (addresses strictly rising) is kept by every operation that writes
memory, and what a read finds after a write.
-/

namespace Sys2Proof.Machine

open Sys2Proof

variable {α : Type}

/-! ### Sorted tables -/

/-- The first key lies below every later key. -/
theorem sorted_cons_iff (p : Nat × α) (t : Table α) :
    Table.sorted (p :: t) = true ↔ (∀ q ∈ t, p.1 < q.1) ∧ Table.sorted t = true := by
  induction t generalizing p with
  | nil => simp [Table.sorted]
  | cons q t ih =>
    obtain ⟨k, v⟩ := p
    obtain ⟨k', v'⟩ := q
    have hq := ih (k', v')
    simp only [Table.sorted, Bool.and_eq_true, decide_eq_true_eq, List.mem_cons]
    constructor
    · rintro ⟨hlt, hs⟩
      refine ⟨?_, hs⟩
      rintro r (rfl | hr)
      · exact hlt
      · exact Nat.lt_trans hlt ((hq.1 hs).1 r hr)
    · rintro ⟨h, hs⟩
      exact ⟨h (k', v') (Or.inl rfl), hs⟩

theorem terase_subset (t : Table α) (i : Nat) : ∀ q ∈ terase t i, q ∈ t := by
  induction t with
  | nil => simp [terase]
  | cons p t ih =>
    obtain ⟨k, v⟩ := p
    intro q hq
    unfold terase at hq
    split at hq
    · exact List.mem_cons_of_mem _ (ih q hq)
    · rcases List.mem_cons.1 hq with rfl | h
      · exact List.mem_cons_self
      · exact List.mem_cons_of_mem _ (ih q h)

theorem sorted_terase (t : Table α) (i : Nat) (h : Table.sorted t = true) : Table.sorted (terase t i) = true := by
  induction t with
  | nil => rfl
  | cons p t ih =>
    obtain ⟨k, v⟩ := p
    have h' := (sorted_cons_iff (k, v) t).1 h
    unfold terase
    split
    · exact ih h'.2
    · exact (sorted_cons_iff _ _).2 ⟨fun q hq => h'.1 q (terase_subset t i q hq), ih h'.2⟩

theorem tinsert_mem (t : Table α) (i : Nat) (v : α) : ∀ q ∈ tinsert t i v, q = (i, v) ∨ q ∈ t := by
  induction t with
  | nil => simp [tinsert]
  | cons p t ih =>
    obtain ⟨k, w⟩ := p
    intro q hq
    unfold tinsert at hq
    split at hq
    · rcases List.mem_cons.1 hq with h | h
      · exact Or.inl h
      · exact Or.inr h
    · rcases List.mem_cons.1 hq with h | h
      · exact Or.inr (h ▸ List.mem_cons_self)
      · exact (ih q h).imp id (List.mem_cons_of_mem _)

theorem sorted_tinsert (t : Table α) (i : Nat) (v : α) (h : Table.sorted t = true) (hi : ∀ q ∈ t, q.1 ≠ i) :
    Table.sorted (tinsert t i v) = true := by
  induction t with
  | nil => rfl
  | cons p t ih =>
    obtain ⟨k, w⟩ := p
    have h' := (sorted_cons_iff (k, w) t).1 h
    have hk : k ≠ i := hi (k, w) List.mem_cons_self
    unfold tinsert
    split
    · rename_i hlt
      refine (sorted_cons_iff _ _).2 ⟨fun q hq => ?_, h⟩
      rcases List.mem_cons.1 hq with rfl | hq
      · exact hlt
      · exact Nat.lt_trans hlt (h'.1 q hq)
    · rename_i hlt
      refine (sorted_cons_iff _ _).2 ⟨fun q hq => ?_, ih h'.2 fun q hq => hi q (List.mem_cons_of_mem _ hq)⟩
      rcases tinsert_mem t i v q hq with rfl | hq
      · show k < i
        omega
      · exact h'.1 q hq

/-- Listing a value keeps the form. -/
theorem sorted_tput (t : Table α) (i : Nat) (v : α) (h : Table.sorted t = true) : Table.sorted (tput t i v) = true :=
  sorted_tinsert _ i v (sorted_terase t i h) (terase_keys t i)

theorem sorted_filter (t : Table α) (f : Nat × α → Bool) (h : Table.sorted t = true) : Table.sorted (t.filter f) = true := by
  induction t with
  | nil => rfl
  | cons p t ih =>
    have h' := (sorted_cons_iff p t).1 h
    unfold List.filter
    split
    · exact (sorted_cons_iff _ _).2 ⟨fun q hq => h'.1 q ((List.mem_filter.1 hq).1), ih h'.2⟩
    · exact ih h'.2

theorem sorted_foldl_tput {β : Type} (f : β → Nat × α) (l : List β) (t : Table α) (h : Table.sorted t = true) :
    Table.sorted (l.foldl (fun m x => tput m (f x).1 (f x).2) t) = true := by
  induction l generalizing t with
  | nil => exact h
  | cons x l ih => exact ih _ (sorted_tput t _ _ h)

/-- A sorted table whose keys lie below `n` has at most `n` entries. -/
theorem sorted_length_le (t : Table α) (lo n : Nat) (h : Table.sorted t = true) (hb : ∀ q ∈ t, lo ≤ q.1 ∧ q.1 < n) :
    lo + t.length ≤ max lo n := by
  induction t generalizing lo with
  | nil => simp
  | cons p t ih =>
    have h' := (sorted_cons_iff p t).1 h
    have hp := hb p List.mem_cons_self
    have := ih (p.1 + 1) h'.2 fun q hq => ⟨h'.1 q hq, (hb q (List.mem_cons_of_mem _ hq)).2⟩
    simp only [List.length_cons]
    omega

theorem tput_keys (t : Table α) (i : Nat) (v : α) : ∀ q ∈ tput t i v, q.1 = i ∨ q ∈ t := fun q hq =>
  (tinsert_mem _ i v q hq).imp (fun h => by rw [h]) (terase_subset t i q)

/-- Gathered bytes are grouped by sector: as many entries at most as there are sectors. -/
theorem gather_length_le (ws : List (Nat × Byte)) (n : Nat) (h : ∀ w ∈ ws, w.1 / 64 < n) : (gather ws).length ≤ n := by
  have key : ∀ (l : List (Nat × Byte)) (t : Table (Table Byte)), (∀ w ∈ l, w.1 / 64 < n) → Table.sorted t = true →
      (∀ q ∈ t, q.1 < n) →
      (l.foldl (fun t w => tput t (w.1 / 64) (tput (tget [] t (w.1 / 64)) (w.1 % 64) w.2)) t).length ≤ n := by
    intro l
    induction l with
    | nil =>
      intro t _ hs hb
      have := sorted_length_le t 0 n hs fun q hq => ⟨Nat.zero_le _, hb q hq⟩
      simpa using this
    | cons w l ih =>
      intro t hl hs hb
      refine ih _ (fun x hx => hl x (List.mem_cons_of_mem _ hx)) (sorted_tput _ _ _ hs) fun q hq => ?_
      rcases tput_keys _ _ _ q hq with e | hq
      · rw [e]
        exact hl w List.mem_cons_self
      · exact hb q hq
  cases ws with
  | nil => exact Nat.zero_le _
  | cons w ws =>
    refine key ws _ (fun x hx => h x (List.mem_cons_of_mem _ hx)) rfl fun q hq => ?_
    rw [List.mem_singleton.1 hq]
    exact h w List.mem_cons_self

theorem entriesOf_length (e : Env) (bm : Bool) (ws : List (Nat × Byte)) : (e.entriesOf bm ws).length = (gather ws).length := by
  simp [Env.entriesOf]

/-! ### Reads of tables after writes -/

theorem tfind_terase_same (t : Table α) (i : Nat) : tfind (terase t i) i = none := by
  induction t with
  | nil => rfl
  | cons p t ih =>
    obtain ⟨k, v⟩ := p
    by_cases hk : k = i <;> simp [terase, tfind, hk, ih]

theorem tfind_terase_other (t : Table α) {i j : Nat} (h : i ≠ j) : tfind (terase t i) j = tfind t j := by
  induction t with
  | nil => rfl
  | cons p t ih =>
    obtain ⟨k, v⟩ := p
    by_cases hk : k = i
    · have : k ≠ j := fun e => h (hk.symm.trans e)
      simp [terase, tfind, hk, h, ih]
    · by_cases hj : k = j
      · subst hj
        simp [terase, tfind, hk]
      · simp [terase, tfind, hk, hj, ih]

theorem tfind_tinsert_same (t : Table α) (i : Nat) (v : α) (h : ∀ p ∈ t, p.1 ≠ i) : tfind (tinsert t i v) i = some v := by
  induction t with
  | nil => simp [tinsert, tfind]
  | cons p t ih =>
    obtain ⟨k, w⟩ := p
    have hk : k ≠ i := h (k, w) List.mem_cons_self
    have ht : ∀ p ∈ t, p.1 ≠ i := fun p hp => h p (List.mem_cons_of_mem _ hp)
    by_cases hlt : i < k <;> simp [tinsert, tfind, hlt, hk, ih ht]

theorem tfind_tinsert_other (t : Table α) {i j : Nat} (v : α) (h : i ≠ j) : tfind (tinsert t i v) j = tfind t j := by
  induction t with
  | nil => simp [tinsert, tfind, h]
  | cons p t ih =>
    obtain ⟨k, w⟩ := p
    by_cases hk : i < k
    · simp [tinsert, tfind, hk, h]
    · by_cases hj : k = j
      · subst hj
        simp [tinsert, tfind, hk]
      · simp [tinsert, tfind, hk, hj, ih]

theorem tfind_tput_same (t : Table α) (i : Nat) (v : α) : tfind (tput t i v) i = some v :=
  tfind_tinsert_same _ i v (terase_keys t i)

theorem tfind_tput_other (t : Table α) {i j : Nat} (v : α) (h : i ≠ j) : tfind (tput t i v) j = tfind t j := by
  unfold tput
  rw [tfind_tinsert_other _ v h, tfind_terase_other t h]

/-! ### Memory -/

theorem reset_mem_wf : Memory.wf State.reset.mem = true := rfl

theorem writeByte_wf (s : State) (key : Option KeyVal) (pa : Nat) (b : Byte) (h : Memory.wf s.mem = true) :
    Memory.wf (s.writeByte key pa b).mem = true := by
  unfold State.writeByte
  split
  · exact sorted_tput _ _ _ h
  · refine sorted_tput _ _ _ ?_
    split
    · exact h
    · exact sorted_foldl_tput (fun a => (a, s.readByte key a)) _ _ h

theorem writeBytes_wf (s : State) (key : Option KeyVal) (pa : Nat) (bs : List Byte) (h : Memory.wf s.mem = true) :
    Memory.wf (s.writeBytes key pa bs).mem = true := by
  induction bs generalizing s pa with
  | nil => exact h
  | cons b bs ih => exact ih _ _ (writeByte_wf s key pa b h)

theorem foldl_writeByte_wf (key : Option KeyVal) (ws : List (Nat × Byte)) (s : State) (h : Memory.wf s.mem = true) :
    Memory.wf (ws.foldl (fun s w => s.writeByte key w.1 w.2) s).mem = true := by
  induction ws generalizing s with
  | nil => exact h
  | cons w ws ih => exact ih _ (writeByte_wf s key w.1 w.2 h)

theorem setBlock_mem (s : State) (b : Block) : (s.setBlock b).mem = s.mem := rfl

theorem answer_mem (s : State) (g : GroupRef) (id pa : Nat) (vals : List RegVal) (f : Option Trap) :
    (s.answer g id pa vals f).mem = s.mem := by
  unfold State.answer State.answerFrom
  repeat' split
  all_goals rfl

theorem evalMonitor_mem (s : State) (m : Monitor) : (s.evalMonitor m).mem = s.mem := by
  unfold State.evalMonitor State.endMonitor
  split
  · rw [answer_mem]
  · rfl

theorem settleSector_mem (s : State) (sec : Nat) : (s.settleSector sec).mem = s.mem := by
  unfold State.settleSector
  generalize s.monitors.filter (fun m => m.dirty && m.pa / 64 = sec) = l
  induction l generalizing s with
  | nil => rfl
  | cons m l ih => rw [List.foldl_cons, ih, evalMonitor_mem]

theorem unpoison_mem (s : State) (pa n : Nat) : (s.unpoison pa n).mem = s.mem := rfl

theorem performWrite_wf (s : State) (key : Option KeyVal) (ws : List (Nat × Byte)) (h : Memory.wf s.mem = true) :
    Memory.wf (s.performWrite key ws).mem = true := by
  unfold State.performWrite
  split
  · exact h
  · rename_i w rest
    have h1 : Memory.wf (s.settleSector (w.1 / 64)).mem = true := by rw [settleSector_mem]; exact h
    have h2 := foldl_writeByte_wf key (w :: rest) _ h1
    show Memory.wf (State.mem (if _ then _ else _)) = true
    split
    · exact h2
    · exact h2

theorem foldl_performWrite_wf {β : Type} (k : State → β → Option KeyVal) (f : β → List (Nat × Byte)) (l : List β) (s : State)
    (h : Memory.wf s.mem = true) : Memory.wf (l.foldl (fun s c => s.performWrite (k s c) (f c)) s).mem = true := by
  induction l generalizing s with
  | nil => exact h
  | cons c l ih => exact ih _ (performWrite_wf s _ _ h)

theorem performBytes_wf (s : State) (key : Option KeyVal) (pa : Nat) (bs : List Byte) (h : Memory.wf s.mem = true) :
    Memory.wf (s.performBytes key pa bs).mem = true :=
  foldl_performWrite_wf (fun _ _ => key) (fun c : Nat × Table Byte => c.2.map fun b : Nat × Byte => (64 * c.1 + b.1, b.2)) _ s h

theorem drainBytes_wf (s : State) (c : Copy) (p : Piece) (h : Memory.wf s.mem = true) : Memory.wf (s.drainBytes c p).mem = true := by
  unfold State.drainBytes
  simp only []
  split
  · exact foldl_performWrite_wf (fun (s : State) (t : Nat × Table Byte) => some (s.keyAt c.owner (64 * t.1)))
      (fun t : Nat × Table Byte => t.2.map fun b => (64 * t.1 + b.1, b.2)) _ s h
  · exact h

/-- The values of a list of keys, each listed with its own. -/
theorem tfind_foldl_tput (f : Nat → α) (l : List Nat) (t : Table α) (a : Nat) :
    tfind (l.foldl (fun m x => tput m x (f x)) t) a = if a ∈ l then some (f a) else tfind t a := by
  induction l generalizing t with
  | nil => simp
  | cons x l ih =>
    rw [List.foldl_cons, ih]
    by_cases ha : a ∈ l
    · simp [ha]
    · by_cases hx : a = x
      · subst hx
        simp [ha, tfind_tput_same]
      · rw [tfind_tput_other _ _ fun e => hx e.symm]
        simp [ha, hx]

theorem mem_codes (c n a : Nat) : a ∈ codes c n ↔ c ≤ a ∧ a < c + n := by
  simp only [codes, List.mem_map, List.mem_range]
  exact ⟨fun ⟨i, hi, e⟩ => by omega, fun h => ⟨a - c, by omega, by omega⟩⟩

theorem mem_sector (pa a : Nat) : a ∈ codes (pa / 64 * 64) 64 ↔ a / 64 = pa / 64 := by
  rw [mem_codes]
  omega

theorem tfind_none_of {t : Table α} {a : Nat} (h : ∀ q ∈ t, q.1 ≠ a) : tfind t a = none := by
  induction t with
  | nil => rfl
  | cons p t ih =>
    obtain ⟨k, v⟩ := p
    simp [tfind, h (k, v) List.mem_cons_self, ih fun q hq => h q (List.mem_cons_of_mem _ hq)]

theorem keyFits_sector (s : State) (key : Option KeyVal) {pa a : Nat} (h : a / 64 = pa / 64) :
    s.keyFits key a = s.keyFits key pa := by
  unfold State.keyFits
  rw [show paClass a = paClass pa by unfold paClass; omega, h]

/-- A write under a key that its sector does not stand under. -/
theorem writeByte_foreign (s : State) (key : Option KeyVal) (pa : Nat) (b : Byte) (h : ¬ s.keyFits key pa = true) :
    tfind (s.writeByte key pa b).keys (pa / 64) = key ∧
      (s.writeByte key pa b).mem = tput (if s.untouched pa then s.mem
        else (codes (pa / 64 * 64) 64).foldl (fun m a => tput m a (s.readByte key a)) s.mem) pa b := by
  unfold State.writeByte
  rw [if_neg h]
  refine ⟨?_, rfl⟩
  cases key with
  | some k => exact tfind_tput_same _ _ _
  | none => exact tfind_terase_same _ _

/-- After a write the sector stands under the writer's key, and a byte of it is the one written, or what it read as before. -/
theorem writeByte_sector (s : State) (key : Option KeyVal) (pa : Nat) (b : Byte) :
    (s.writeByte key pa b).keyFits key pa = true ∧
      ∀ a, a / 64 = pa / 64 → (s.writeByte key pa b).plainByte a = if a = pa then b else s.readByte key a := by
  by_cases h : s.keyFits key pa = true
  · have e : s.writeByte key pa b = { s with mem := tput s.mem pa b } := by unfold State.writeByte; rw [if_pos h]
    rw [e]
    refine ⟨h, fun a ha => ?_⟩
    unfold State.plainByte State.readByte
    rw [if_pos ((keyFits_sector s key ha).trans h)]
    by_cases e : a = pa
    · subst e
      simp [tfind_tput_same]
    · simp only [tfind_tput_other _ _ (fun x => e x.symm), if_neg e]
      rfl
  · obtain ⟨hk, hm⟩ := writeByte_foreign s key pa b h
    refine ⟨by simp [State.keyFits, hk], fun a ha => ?_⟩
    unfold State.plainByte
    rw [hm, ha, hk]
    by_cases e : a = pa
    · subst e
      simp [tfind_tput_same]
    · rw [tfind_tput_other _ _ fun x => e x.symm, if_neg e]
      by_cases hu : s.untouched pa = true
      · have hf : s.keyFits key a = false := (keyFits_sector s key ha).trans (Bool.eq_false_iff.mpr h)
        have hua : s.untouched a = true := by
          unfold State.untouched at hu ⊢
          rw [ha]
          exact hu
        have hm : tfind s.mem a = none := by
          unfold State.untouched at hua
          simp only [Bool.and_eq_true, Bool.not_eq_true', List.any_eq_false, decide_eq_true_eq] at hua
          exact tfind_none_of fun q hq x => hua.2 q hq (by rw [x])
        simp [hu, hm, State.readByte, hf, hua]
      · rw [if_neg hu, tfind_foldl_tput, if_pos ((mem_sector pa a).2 ha)]
        rfl

/-- A write changes nothing of another sector. -/
theorem writeByte_other (s : State) (key : Option KeyVal) (pa : Nat) (b : Byte) {a : Nat} (ha : a / 64 ≠ pa / 64) :
    tfind (s.writeByte key pa b).mem a = tfind s.mem a ∧
      tfind (s.writeByte key pa b).keys (a / 64) = tfind s.keys (a / 64) := by
  have hp : pa ≠ a := fun e => ha (by rw [e])
  unfold State.writeByte
  split
  · exact ⟨tfind_tput_other _ _ hp, rfl⟩
  · refine ⟨?_, ?_⟩
    · rw [tfind_tput_other _ _ hp]
      split
      · rfl
      · rw [tfind_foldl_tput, if_neg fun h => ha ((mem_sector pa a).1 h)]
    · cases key with
      | some k => exact tfind_tput_other _ _ fun e => ha e.symm
      | none => exact tfind_terase_other _ fun e => ha e.symm

theorem any_congr_mem {β : Type} {l : List β} {f g : β → Bool} (h : ∀ x ∈ l, f x = g x) : l.any f = l.any g := by
  induction l with
  | nil => rfl
  | cons x l ih =>
    rw [List.any_cons, List.any_cons, h x List.mem_cons_self, ih fun y hy => h y (List.mem_cons_of_mem _ hy)]

/-- Whether a byte is listed in a sector of a table. -/
theorem any_sector_iff (m : Table α) (n : Nat) :
    (m.any fun c => c.1 / 64 = n) = (codes (n * 64) 64).any fun a => (tfind m a).isSome := by
  induction m with
  | nil => simp [tfind]
  | cons p m ih =>
    obtain ⟨k, v⟩ := p
    rw [List.any_cons, ih]
    by_cases hk : k / 64 = n
    · have : k ∈ codes (n * 64) 64 := (mem_codes _ _ _).2 (by omega)
      simp only [hk, decide_true, Bool.true_or]
      exact (List.any_eq_true.2 ⟨k, this, by simp [tfind]⟩).symm
    · simp only [hk, decide_false, Bool.false_or]
      refine any_congr_mem ?_
      intro a ha
      have : k ≠ a := fun e => hk (by have := (mem_codes _ _ _).1 ha; omega)
      simp [tfind, this]

theorem untouched_other (s : State) (key : Option KeyVal) (pa : Nat) (b : Byte) {a : Nat} (ha : a / 64 ≠ pa / 64) :
    (s.writeByte key pa b).untouched a = s.untouched a := by
  unfold State.untouched
  rw [(writeByte_other s key pa b ha).2, any_sector_iff, any_sector_iff]
  congr 2
  refine any_congr_mem ?_
  intro x hx
  have : x / 64 = a / 64 := (mem_sector a x).1 hx
  rw [(writeByte_other s key pa b (a := x) (by omega)).1]

/-- A byte reads as it was written, under the key it was written under; under that key no other byte changes, and no byte of
another sector changes under any. -/
theorem readByte_writeByte (s : State) (key : Option KeyVal) (pa a : Nat) (b : Byte) :
    (s.writeByte key pa b).readByte key pa = b ∧
      (a ≠ pa → (s.writeByte key pa b).readByte key a = s.readByte key a) ∧
      (a / 64 ≠ pa / 64 → ∀ k, (s.writeByte key pa b).readByte k a = s.readByte k a) := by
  have other : a / 64 ≠ pa / 64 → ∀ k, (s.writeByte key pa b).readByte k a = s.readByte k a := by
    intro ha k
    have h1 : ∀ x, x / 64 = a / 64 → (s.writeByte key pa b).plainByte x = s.plainByte x := by
      intro x hx
      have h := writeByte_other s key pa b (a := x) (by omega)
      unfold State.plainByte
      rw [h.1, h.2]
    have h2 := (writeByte_other s key pa b ha).2
    have h3 : (codes (a / 64 * 64) 64).map (s.writeByte key pa b).plainByte = (codes (a / 64 * 64) 64).map s.plainByte :=
      List.map_congr_left fun x hx => h1 x ((mem_sector a x).1 hx)
    unfold State.readByte State.keyFits
    rw [h1 a rfl, h2, h3, untouched_other s key pa b ha]
  obtain ⟨hk, hs⟩ := writeByte_sector s key pa b
  refine ⟨?_, fun ha => ?_, other⟩
  · unfold State.readByte
    rw [if_pos hk, hs pa rfl, if_pos rfl]
  · by_cases h : a / 64 = pa / 64
    · have hf : (s.writeByte key pa b).keyFits key a = true := (keyFits_sector _ key h).trans hk
      rw [State.readByte, if_pos hf, hs a h, if_neg ha]
    · exact other h key

end Sys2Proof.Machine
end

