-- ==== Sys2Proof/Laws/PerInstr.lean ====
section
/-!
SUPPORT. Laws/PerInstr.lean: statements made of every instruction, one lemma for each.  `Named`: the shape an instruction is
encoded through names that instruction, so that no two instructions share an encoding and no field is lost between them.
-/

namespace Sys2Proof.Laws.Named

open Sys2Proof

/-- The shape of `i`, where it has words at all, stands for `i` and nothing else. -/
def Statement (i : Instr) : Prop := ∀ sh, i.shape = some sh → sh.toInstr? = some i

theorem low_shl : ∀ c : BitVec 6, (c.setWidth 12).setWidth 6 = c := by decide +kernel
theorem bit_shr : ∀ c : BitVec 6, (c.setWidth 12).getLsbD 6 = false := by decide +kernel
theorem low_sra : ∀ c : BitVec 6, ((1#1 ++ c).setWidth 12).setWidth 6 = c := by decide +kernel
theorem bit_sra : ∀ c : BitVec 6, ((1#1 ++ c).setWidth 12).getLsbD 6 = true := by decide +kernel


theorem loadObject (owner base pa0 pa1 : Nat) (frames : List Nat) (bytes : List Byte) : Statement (.loadObject owner base pa0 pa1 frames bytes) := fun _ h => by cases h

theorem registerWrite (fn off size val : Nat) : Statement (.registerWrite fn off size val) := fun _ h => by cases h

theorem w0BadAccess (write : Bool) (off size : Nat) : Statement (.w0BadAccess write off size) := fun _ h => by cases h

theorem qwptrWrite (fn q val : Nat) : Statement (.qwptrWrite fn q val) := fun _ h => by cases h

theorem queueEnable (fn q val : Nat) : Statement (.queueEnable fn q val) := fun _ h => by cases h

theorem queueHalt (fn q val : Nat) : Statement (.queueHalt fn q val) := fun _ h => by cases h

theorem packetParse (die : Nat) : Statement (.packetParse die) := fun _ h => by cases h

theorem packetPerform (q : Nat) : Statement (.packetPerform q) := fun _ h => by cases h

theorem nopPacket (q : Nat) : Statement (.nopPacket q) := fun _ h => by cases h

theorem write (q : Nat) : Statement (.write q) := fun _ h => by cases h

theorem launch (q : Nat) : Statement (.launch q) := fun _ h => by cases h

theorem edge (q : Nat) : Statement (.edge q) := fun _ h => by cases h

theorem ib (q : Nat) : Statement (.ib q) := fun _ h => by cases h

theorem pred (q : Nat) : Statement (.pred q) := fun _ h => by cases h

theorem loopPacket (q : Nat) : Statement (.loopPacket q) := fun _ h => by cases h

theorem wait (q : Nat) : Statement (.wait q) := fun _ h => by cases h

theorem waitReevaluate (q : Nat) : Statement (.waitReevaluate q) := fun _ h => by cases h

theorem waitTimeout (q : Nat) : Statement (.waitTimeout q) := fun _ h => by cases h

theorem signal (q : Nat) : Statement (.signal q) := fun _ h => by cases h

theorem fetchFence (q : Nat) : Statement (.fetchFence q) := fun _ h => by cases h

theorem timestamp (q : Nat) : Statement (.timestamp q) := fun _ h => by cases h

theorem checkpoint (q : Nat) : Statement (.checkpoint q) := fun _ h => by cases h

theorem checkpointDone (q : Nat) : Statement (.checkpointDone q) := fun _ h => by cases h

theorem owner (q : Nat) : Statement (.owner q) := fun _ h => by cases h

theorem parserStallResume (q : Nat) : Statement (.parserStallResume q) := fun _ h => by cases h

theorem droneMismatch : Statement (.droneMismatch) := fun _ h => by cases h

theorem droneRecoveryEnd : Statement (.droneRecoveryEnd) := fun _ h => by cases h

theorem spliceDecision (task : Nat) : Statement (.spliceDecision task) := fun _ h => by cases h

theorem placeBlock (die : Nat) : Statement (.placeBlock die) := fun _ h => by cases h

theorem reservation (task : Nat) : Statement (.reservation task) := fun _ h => by cases h

theorem reservationPreempt (task : Nat) : Statement (.reservationPreempt task) := fun _ h => by cases h

theorem dispenserRefill (task die : Nat) : Statement (.dispenserRefill task die) := fun _ h => by cases h

theorem blockEnd (b : BlockRef) : Statement (.blockEnd b) := fun _ h => by cases h

theorem taskRetire (task : Nat) : Statement (.taskRetire task) := fun _ h => by cases h

theorem blockResume (b : BlockRef) : Statement (.blockResume b) := fun _ h => by cases h

theorem preempt (die : Nat) : Statement (.preempt die) := fun _ h => by cases h

theorem kill (die : Nat) : Statement (.kill die) := fun _ h => by cases h

theorem saveComplete (b : BlockRef) : Statement (.saveComplete b) := fun _ h => by cases h

theorem powerUp (strap pool0 pool1 failed : Nat) (signed : Bool) : Statement (.powerUp strap pool0 pool1 failed signed) := fun _ h => by cases h

theorem fieldPowerUp (f : Nat) : Statement (.fieldPowerUp f) := fun _ h => by cases h

theorem fieldPowerDown (f : Nat) : Statement (.fieldPowerDown f) := fun _ h => by cases h

theorem supplyPath (die pin fields : Nat) (drop : PathReading) : Statement (.supplyPath die pin fields drop) := fun _ h => by cases h

theorem fieldTrip (f : Nat) : Statement (.fieldTrip f) := fun _ h => by cases h

theorem fieldTripRelease (f : Nat) : Statement (.fieldTripRelease f) := fun _ h => by cases h

theorem modtrip (current : Nat) : Statement (.modtrip current) := fun _ h => by cases h

theorem pwrWatchdog (f : Nat) : Statement (.pwrWatchdog f) := fun _ h => by cases h

theorem pwrUpdate (pattern : BitVec 16) : Statement (.pwrUpdate pattern) := fun _ h => by cases h

theorem thermal (f sensor temp : Nat) : Statement (.thermal f sensor temp) := fun _ h => by cases h

theorem thermalRelease (f : SensorReading) : Statement (.thermalRelease f) := fun _ h => by cases h

theorem strumWrite (bench : Nat) (pattern : BitVec 16) : Statement (.strumWrite bench pattern) := fun _ h => by cases h

theorem allowRefillWrite (bench refill : Nat) : Statement (.allowRefillWrite bench refill) := fun _ h => by cases h

theorem slewStep : Statement (.slewStep) := fun _ h => by cases h

theorem throttleEdge (bench : Nat) : Statement (.throttleEdge bench) := fun _ h => by cases h

theorem groupSwap (core : Nat) : Statement (.groupSwap core) := fun _ h => by cases h

theorem forcedSwap (core : Nat) : Statement (.forcedSwap core) := fun _ h => by cases h

theorem sleepWake (g : GroupRef) : Statement (.sleepWake g) := fun _ h => by cases h

theorem registerFill (id : Nat) : Statement (.registerFill id) := fun _ h => by cases h

theorem trapEntry (g : GroupRef) : Statement (.trapEntry g) := fun _ h => by cases h

theorem regionTimeoutHead (g : GroupRef) : Statement (.regionTimeoutHead g) := fun _ h => by cases h

theorem regionClose (g : GroupRef) : Statement (.regionClose g) := fun _ h => by cases h

theorem regionCommit (g : GroupRef) : Statement (.regionCommit g) := fun _ h => by cases h

theorem storeDrain (id : Nat) : Statement (.storeDrain id) := fun _ h => by cases h

theorem taggedHoldEnd (id : Nat) : Statement (.taggedHoldEnd id) := fun _ h => by cases h

theorem sensorReport (c : CellRef) : Statement (.sensorReport c) := fun _ h => by cases h

theorem cellCountDecay (c : CellRef) : Statement (.cellCountDecay c) := fun _ h => by cases h

theorem cellInject (fn : Nat) (c : CellRef) : Statement (.cellInject fn c) := fun _ h => by cases h

theorem cellClear (fn : Nat) (c : CellRef) : Statement (.cellClear fn c) := fun _ h => by cases h

theorem eccCorr (die array row : Nat) (spare : Bool) : Statement (.eccCorr die array row spare) := fun _ h => by cases h

theorem poison (site : PoisonSite) : Statement (.poison site) := fun _ h => by cases h

theorem linkEvent (die link code lanes : Nat) : Statement (.linkEvent die link code lanes) := fun _ h => by cases h

theorem eventRecordWrite (die : Nat) : Statement (.eventRecordWrite die) := fun _ h => by cases h

theorem pageWalk (owner die field va : Nat) : Statement (.pageWalk owner die field va) := fun _ h => by cases h

theorem shootdown (die : Nat) : Statement (.shootdown die) := fun _ h => by cases h

theorem shootdownDone (die : Nat) : Statement (.shootdownDone die) := fun _ h => by cases h

theorem ownerRetire (owner : Nat) : Statement (.ownerRetire owner) := fun _ h => by cases h

theorem capDisable (owner : Nat) : Statement (.capDisable owner) := fun _ h => by cases h

theorem copyPieceRead (bench entry : Nat) : Statement (.copyPieceRead bench entry) := fun _ h => by cases h

theorem copyPieceDrain (bench entry : Nat) : Statement (.copyPieceDrain bench entry) := fun _ h => by cases h

theorem atomicPerform (id : Nat) : Statement (.atomicPerform id) := fun _ h => by cases h

theorem monitorEvaluate (id : Nat) : Statement (.monitorEvaluate id) := fun _ h => by cases h

theorem waitcTimeout (id : Nat) : Statement (.waitcTimeout id) := fun _ h => by cases h

theorem lockPerform (id : Nat) : Statement (.lockPerform id) := fun _ h => by cases h

theorem barrierArrival (id : Nat) : Statement (.barrierArrival id) := fun _ h => by cases h

theorem courseUpdate (id : Nat) : Statement (.courseUpdate id) := fun _ h => by cases h

theorem spawnPerform (id : Nat) : Statement (.spawnPerform id) := fun _ h => by cases h

theorem joinPerform (id : Nat) : Statement (.joinPerform id) := fun _ h => by cases h

theorem caputPerform (id : Nat) : Statement (.caputPerform id) := fun _ h => by cases h

theorem caCountChange (id : Nat) : Statement (.caCountChange id) := fun _ h => by cases h

theorem caswapPerform (id : Nat) : Statement (.caswapPerform id) := fun _ h => by cases h

theorem reclaimRelease : Statement (.reclaimRelease) := fun _ h => by cases h

theorem slui (f : UiF) : Statement (.slui f) := fun _ h => by cases h; rfl

theorem sauipc (f : UiF) : Statement (.sauipc f) := fun _ h => by cases h; rfl

theorem saddi (f : UaF) : Statement (.saddi f) := fun _ h => by cases h; rfl

theorem sandi (f : UaF) : Statement (.sandi f) := fun _ h => by cases h; rfl

theorem sori (f : UaF) : Statement (.sori f) := fun _ h => by cases h; rfl

theorem sxori (f : UaF) : Statement (.sxori f) := fun _ h => by cases h; rfl

theorem sslti (f : UaF) : Statement (.sslti f) := fun _ h => by cases h; rfl

theorem ssltiu (f : UaF) : Statement (.ssltiu f) := fun _ h => by cases h; rfl

theorem sshli (f : UsF) : Statement (.sshli f) := fun _ h => by
  cases h
  show some (Instr.sshli _) = _
  rw [low_shl]

theorem sshri (f : UsF) : Statement (.sshri f) := fun _ h => by
  cases h
  show (if _ then _ else _) = _
  rw [bit_shr, low_shl]
  rfl

theorem ssrai (f : UsF) : Statement (.ssrai f) := fun _ h => by
  cases h
  show (if _ then _ else _) = _
  rw [bit_sra, low_sra]
  rfl

theorem bra (off : BitVec 25) : Statement (.bra off) := fun _ h => by cases h; rfl

theorem call (off : BitVec 25) : Statement (.call off) := fun _ h => by cases h; rfl

theorem brac (f : BracF) : Statement (.brac f) := fun _ h => by cases h; rfl

theorem nop : Statement (.nop) := fun _ h => by cases h; rfl

theorem exit : Statement (.exit) := fun _ h => by cases h; rfl

theorem ret : Statement (.ret) := fun _ h => by cases h; rfl

theorem yield : Statement (.yield) := fun _ h => by cases h; rfl

theorem rgn : Statement (.rgn) := fun _ h => by cases h; rfl

theorem rcv : Statement (.rcv) := fun _ h => by cases h; rfl

theorem trap (imm : BitVec 18) : Statement (.trap imm) := fun _ h => by cases h; rfl

theorem ldShort (f : BmF) : Statement (.ldShort f) := fun _ h => by cases h; rfl

theorem stShort (f : BmF) : Statement (.stShort f) := fun _ h => by cases h; rfl

theorem lduImm (f : UmF) : Statement (.lduImm f) := fun _ h => by cases h; rfl

theorem stuImm (f : UmF) : Statement (.stuImm f) := fun _ h => by cases h; rfl

theorem saddBase (f : BaseF) : Statement (.saddBase f) := fun _ h => by cases h; rfl

theorem ssubBase (f : BaseF) : Statement (.ssubBase f) := fun _ h => by cases h; rfl

theorem smulBase (f : BaseF) : Statement (.smulBase f) := fun _ h => by cases h; rfl

theorem smulhBase (f : BaseF) : Statement (.smulhBase f) := fun _ h => by cases h; rfl

theorem smulhuBase (f : BaseF) : Statement (.smulhuBase f) := fun _ h => by cases h; rfl

theorem sdivBase (f : BaseF) : Statement (.sdivBase f) := fun _ h => by cases h; rfl

theorem sdivuBase (f : BaseF) : Statement (.sdivuBase f) := fun _ h => by cases h; rfl

theorem sremBase (f : BaseF) : Statement (.sremBase f) := fun _ h => by cases h; rfl

theorem sremuBase (f : BaseF) : Statement (.sremuBase f) := fun _ h => by cases h; rfl

theorem sandBase (f : BaseF) : Statement (.sandBase f) := fun _ h => by cases h; rfl

theorem sorBase (f : BaseF) : Statement (.sorBase f) := fun _ h => by cases h; rfl

theorem sxorBase (f : BaseF) : Statement (.sxorBase f) := fun _ h => by cases h; rfl

theorem sshlBase (f : BaseF) : Statement (.sshlBase f) := fun _ h => by cases h; rfl

theorem sshrBase (f : BaseF) : Statement (.sshrBase f) := fun _ h => by cases h; rfl

theorem ssraBase (f : BaseF) : Statement (.ssraBase f) := fun _ h => by cases h; rfl

theorem sminBase (f : BaseF) : Statement (.sminBase f) := fun _ h => by cases h; rfl

theorem smaxBase (f : BaseF) : Statement (.smaxBase f) := fun _ h => by cases h; rfl

theorem sminuBase (f : BaseF) : Statement (.sminuBase f) := fun _ h => by cases h; rfl

theorem smaxuBase (f : BaseF) : Statement (.smaxuBase f) := fun _ h => by cases h; rfl

theorem ssltBase (f : BaseF) : Statement (.ssltBase f) := fun _ h => by cases h; rfl

theorem ssltuBase (f : BaseF) : Statement (.ssltuBase f) := fun _ h => by cases h; rfl

theorem sseqBase (f : BaseF) : Statement (.sseqBase f) := fun _ h => by cases h; rfl

theorem spopcBase (f : BaseF) : Statement (.spopcBase f) := fun _ h => by cases h; rfl

theorem sclzBase (f : BaseF) : Statement (.sclzBase f) := fun _ h => by cases h; rfl

theorem sctzBase (f : BaseF) : Statement (.sctzBase f) := fun _ h => by cases h; rfl

theorem smovBase (f : BaseF) : Statement (.smovBase f) := fun _ h => by cases h; rfl

theorem ssx32Base (f : BaseF) : Statement (.ssx32Base f) := fun _ h => by cases h; rfl

theorem sadd (x : Ext) : Statement (.sadd x) := fun _ h => by cases h; rfl

theorem ssub (x : Ext) : Statement (.ssub x) := fun _ h => by cases h; rfl

theorem smul (x : Ext) : Statement (.smul x) := fun _ h => by cases h; rfl

theorem smulh (x : Ext) : Statement (.smulh x) := fun _ h => by cases h; rfl

theorem smulhu (x : Ext) : Statement (.smulhu x) := fun _ h => by cases h; rfl

theorem sdiv (x : Ext) : Statement (.sdiv x) := fun _ h => by cases h; rfl

theorem sdivu (x : Ext) : Statement (.sdivu x) := fun _ h => by cases h; rfl

theorem srem (x : Ext) : Statement (.srem x) := fun _ h => by cases h; rfl

theorem sremu (x : Ext) : Statement (.sremu x) := fun _ h => by cases h; rfl

theorem sand (x : Ext) : Statement (.sand x) := fun _ h => by cases h; rfl

theorem sor (x : Ext) : Statement (.sor x) := fun _ h => by cases h; rfl

theorem sxor (x : Ext) : Statement (.sxor x) := fun _ h => by cases h; rfl

theorem sshl (x : Ext) : Statement (.sshl x) := fun _ h => by cases h; rfl

theorem sshr (x : Ext) : Statement (.sshr x) := fun _ h => by cases h; rfl

theorem ssra (x : Ext) : Statement (.ssra x) := fun _ h => by cases h; rfl

theorem smin (x : Ext) : Statement (.smin x) := fun _ h => by cases h; rfl

theorem smax (x : Ext) : Statement (.smax x) := fun _ h => by cases h; rfl

theorem sminu (x : Ext) : Statement (.sminu x) := fun _ h => by cases h; rfl

theorem smaxu (x : Ext) : Statement (.smaxu x) := fun _ h => by cases h; rfl

theorem sslt (x : Ext) : Statement (.sslt x) := fun _ h => by cases h; rfl

theorem ssltu (x : Ext) : Statement (.ssltu x) := fun _ h => by cases h; rfl

theorem sseq (x : Ext) : Statement (.sseq x) := fun _ h => by cases h; rfl

theorem ssel (x : Ext) : Statement (.ssel x) := fun _ h => by cases h; rfl

theorem sbfx (x : Ext) : Statement (.sbfx x) := fun _ h => by cases h; rfl

theorem sbfi (x : Ext) : Statement (.sbfi x) := fun _ h => by cases h; rfl

theorem spopc (x : Ext) : Statement (.spopc x) := fun _ h => by cases h; rfl

theorem sclz (x : Ext) : Statement (.sclz x) := fun _ h => by cases h; rfl

theorem sctz (x : Ext) : Statement (.sctz x) := fun _ h => by cases h; rfl

theorem smov (x : Ext) : Statement (.smov x) := fun _ h => by cases h; rfl

theorem sidx (x : Ext) : Statement (.sidx x) := fun _ h => by cases h; rfl

theorem ssx32 (x : Ext) : Statement (.ssx32 x) := fun _ h => by cases h; rfl

theorem vaddBase (f : BaseF) : Statement (.vaddBase f) := fun _ h => by cases h; rfl

theorem vsubBase (f : BaseF) : Statement (.vsubBase f) := fun _ h => by cases h; rfl

theorem vmulBase (f : BaseF) : Statement (.vmulBase f) := fun _ h => by cases h; rfl

theorem vmulhBase (f : BaseF) : Statement (.vmulhBase f) := fun _ h => by cases h; rfl

theorem vmulhuBase (f : BaseF) : Statement (.vmulhuBase f) := fun _ h => by cases h; rfl

theorem vmadBase (f : BaseF) : Statement (.vmadBase f) := fun _ h => by cases h; rfl

theorem vandBase (f : BaseF) : Statement (.vandBase f) := fun _ h => by cases h; rfl

theorem vorBase (f : BaseF) : Statement (.vorBase f) := fun _ h => by cases h; rfl

theorem vxorBase (f : BaseF) : Statement (.vxorBase f) := fun _ h => by cases h; rfl

theorem vshlBase (f : BaseF) : Statement (.vshlBase f) := fun _ h => by cases h; rfl

theorem vshrBase (f : BaseF) : Statement (.vshrBase f) := fun _ h => by cases h; rfl

theorem vsraBase (f : BaseF) : Statement (.vsraBase f) := fun _ h => by cases h; rfl

theorem vminBase (f : BaseF) : Statement (.vminBase f) := fun _ h => by cases h; rfl

theorem vmaxBase (f : BaseF) : Statement (.vmaxBase f) := fun _ h => by cases h; rfl

theorem vminuBase (f : BaseF) : Statement (.vminuBase f) := fun _ h => by cases h; rfl

theorem vmaxuBase (f : BaseF) : Statement (.vmaxuBase f) := fun _ h => by cases h; rfl

theorem vabsdBase (f : BaseF) : Statement (.vabsdBase f) := fun _ h => by cases h; rfl

theorem vpopcBase (f : BaseF) : Statement (.vpopcBase f) := fun _ h => by cases h; rfl

theorem vclzBase (f : BaseF) : Statement (.vclzBase f) := fun _ h => by cases h; rfl

theorem vmovBase (f : BaseF) : Statement (.vmovBase f) := fun _ h => by cases h; rfl

theorem vdot4Base (f : BaseF) : Statement (.vdot4Base f) := fun _ h => by cases h; rfl

theorem vdot8Base (f : BaseF) : Statement (.vdot8Base f) := fun _ h => by cases h; rfl

theorem vadd (x : Ext) : Statement (.vadd x) := fun _ h => by cases h; rfl

theorem vsub (x : Ext) : Statement (.vsub x) := fun _ h => by cases h; rfl

theorem vmul (x : Ext) : Statement (.vmul x) := fun _ h => by cases h; rfl

theorem vmulh (x : Ext) : Statement (.vmulh x) := fun _ h => by cases h; rfl

theorem vmulhu (x : Ext) : Statement (.vmulhu x) := fun _ h => by cases h; rfl

theorem vmad (x : Ext) : Statement (.vmad x) := fun _ h => by cases h; rfl

theorem vmadw (x : Ext) : Statement (.vmadw x) := fun _ h => by cases h; rfl

theorem vand (x : Ext) : Statement (.vand x) := fun _ h => by cases h; rfl

theorem vor (x : Ext) : Statement (.vor x) := fun _ h => by cases h; rfl

theorem vxor (x : Ext) : Statement (.vxor x) := fun _ h => by cases h; rfl

theorem vshl (x : Ext) : Statement (.vshl x) := fun _ h => by cases h; rfl

theorem vshr (x : Ext) : Statement (.vshr x) := fun _ h => by cases h; rfl

theorem vsra (x : Ext) : Statement (.vsra x) := fun _ h => by cases h; rfl

theorem vmin (x : Ext) : Statement (.vmin x) := fun _ h => by cases h; rfl

theorem vmax (x : Ext) : Statement (.vmax x) := fun _ h => by cases h; rfl

theorem vminu (x : Ext) : Statement (.vminu x) := fun _ h => by cases h; rfl

theorem vmaxu (x : Ext) : Statement (.vmaxu x) := fun _ h => by cases h; rfl

theorem vabsd (x : Ext) : Statement (.vabsd x) := fun _ h => by cases h; rfl

theorem vcmp (x : Ext) : Statement (.vcmp x) := fun _ h => by cases h; rfl

theorem vsel (x : Ext) : Statement (.vsel x) := fun _ h => by cases h; rfl

theorem vbfx (x : Ext) : Statement (.vbfx x) := fun _ h => by cases h; rfl

theorem vbfi (x : Ext) : Statement (.vbfi x) := fun _ h => by cases h; rfl

theorem vpopc (x : Ext) : Statement (.vpopc x) := fun _ h => by cases h; rfl

theorem vclz (x : Ext) : Statement (.vclz x) := fun _ h => by cases h; rfl

theorem vmov (x : Ext) : Statement (.vmov x) := fun _ h => by cases h; rfl

theorem vidx (x : Ext) : Statement (.vidx x) := fun _ h => by cases h; rfl

theorem vaddc (x : Ext) : Statement (.vaddc x) := fun _ h => by cases h; rfl

theorem vperm (x : Ext) : Statement (.vperm x) := fun _ h => by cases h; rfl

theorem vsatp (x : Ext) : Statement (.vsatp x) := fun _ h => by cases h; rfl

theorem vdot4 (x : Ext) : Statement (.vdot4 x) := fun _ h => by cases h; rfl

theorem vdot8 (x : Ext) : Statement (.vdot8 x) := fun _ h => by cases h; rfl

theorem vlea (x : Ext) : Statement (.vlea x) := fun _ h => by cases h; rfl

theorem faddBase (f : BaseF) : Statement (.faddBase f) := fun _ h => by cases h; rfl

theorem fsubBase (f : BaseF) : Statement (.fsubBase f) := fun _ h => by cases h; rfl

theorem fmulBase (f : BaseF) : Statement (.fmulBase f) := fun _ h => by cases h; rfl

theorem ffmaBase (f : BaseF) : Statement (.ffmaBase f) := fun _ h => by cases h; rfl

theorem fminBase (f : BaseF) : Statement (.fminBase f) := fun _ h => by cases h; rfl

theorem fmaxBase (f : BaseF) : Statement (.fmaxBase f) := fun _ h => by cases h; rfl

theorem fclassBase (f : BaseF) : Statement (.fclassBase f) := fun _ h => by cases h; rfl

theorem frndBase (f : BaseF) : Statement (.frndBase f) := fun _ h => by cases h; rfl

theorem fdivBase (f : BaseF) : Statement (.fdivBase f) := fun _ h => by cases h; rfl

theorem fsqrtBase (f : BaseF) : Statement (.fsqrtBase f) := fun _ h => by cases h; rfl

theorem frcpBase (f : BaseF) : Statement (.frcpBase f) := fun _ h => by cases h; rfl

theorem frsqBase (f : BaseF) : Statement (.frsqBase f) := fun _ h => by cases h; rfl

theorem fexpBase (f : BaseF) : Statement (.fexpBase f) := fun _ h => by cases h; rfl

theorem fexp2Base (f : BaseF) : Statement (.fexp2Base f) := fun _ h => by cases h; rfl

theorem flog2Base (f : BaseF) : Statement (.flog2Base f) := fun _ h => by cases h; rfl

theorem fsinpiBase (f : BaseF) : Statement (.fsinpiBase f) := fun _ h => by cases h; rfl

theorem fcospiBase (f : BaseF) : Statement (.fcospiBase f) := fun _ h => by cases h; rfl

theorem ftanhBase (f : BaseF) : Statement (.ftanhBase f) := fun _ h => by cases h; rfl

theorem fsigmBase (f : BaseF) : Statement (.fsigmBase f) := fun _ h => by cases h; rfl

theorem fgeluBase (f : BaseF) : Statement (.fgeluBase f) := fun _ h => by cases h; rfl

theorem fsiluBase (f : BaseF) : Statement (.fsiluBase f) := fun _ h => by cases h; rfl

theorem ferfBase (f : BaseF) : Statement (.ferfBase f) := fun _ h => by cases h; rfl

theorem fldexpBase (f : BaseF) : Statement (.fldexpBase f) := fun _ h => by cases h; rfl

theorem ffracBase (f : BaseF) : Statement (.ffracBase f) := fun _ h => by cases h; rfl

theorem fdot2Base (f : BaseF) : Statement (.fdot2Base f) := fun _ h => by cases h; rfl

theorem hadd2Base (f : BaseF) : Statement (.hadd2Base f) := fun _ h => by cases h; rfl

theorem hmul2Base (f : BaseF) : Statement (.hmul2Base f) := fun _ h => by cases h; rfl

theorem hfma2Base (f : BaseF) : Statement (.hfma2Base f) := fun _ h => by cases h; rfl

theorem hmin2Base (f : BaseF) : Statement (.hmin2Base f) := fun _ h => by cases h; rfl

theorem hmax2Base (f : BaseF) : Statement (.hmax2Base f) := fun _ h => by cases h; rfl

theorem fadd (x : Ext) : Statement (.fadd x) := fun _ h => by cases h; rfl

theorem fsub (x : Ext) : Statement (.fsub x) := fun _ h => by cases h; rfl

theorem fmul (x : Ext) : Statement (.fmul x) := fun _ h => by cases h; rfl

theorem ffma (x : Ext) : Statement (.ffma x) := fun _ h => by cases h; rfl

theorem fmin (x : Ext) : Statement (.fmin x) := fun _ h => by cases h; rfl

theorem fmax (x : Ext) : Statement (.fmax x) := fun _ h => by cases h; rfl

theorem fcmp (x : Ext) : Statement (.fcmp x) := fun _ h => by cases h; rfl

theorem fclass (x : Ext) : Statement (.fclass x) := fun _ h => by cases h; rfl

theorem frnd (x : Ext) : Statement (.frnd x) := fun _ h => by cases h; rfl

theorem fdiv (x : Ext) : Statement (.fdiv x) := fun _ h => by cases h; rfl

theorem fsqrt (x : Ext) : Statement (.fsqrt x) := fun _ h => by cases h; rfl

theorem frcp (x : Ext) : Statement (.frcp x) := fun _ h => by cases h; rfl

theorem frsq (x : Ext) : Statement (.frsq x) := fun _ h => by cases h; rfl

theorem fexp (x : Ext) : Statement (.fexp x) := fun _ h => by cases h; rfl

theorem fexp2 (x : Ext) : Statement (.fexp2 x) := fun _ h => by cases h; rfl

theorem flog2 (x : Ext) : Statement (.flog2 x) := fun _ h => by cases h; rfl

theorem fsinpi (x : Ext) : Statement (.fsinpi x) := fun _ h => by cases h; rfl

theorem fcospi (x : Ext) : Statement (.fcospi x) := fun _ h => by cases h; rfl

theorem ftanh (x : Ext) : Statement (.ftanh x) := fun _ h => by cases h; rfl

theorem fsigm (x : Ext) : Statement (.fsigm x) := fun _ h => by cases h; rfl

theorem fgelu (x : Ext) : Statement (.fgelu x) := fun _ h => by cases h; rfl

theorem fsilu (x : Ext) : Statement (.fsilu x) := fun _ h => by cases h; rfl

theorem ferf (x : Ext) : Statement (.ferf x) := fun _ h => by cases h; rfl

theorem fldexp (x : Ext) : Statement (.fldexp x) := fun _ h => by cases h; rfl

theorem ffrac (x : Ext) : Statement (.ffrac x) := fun _ h => by cases h; rfl

theorem fcvt (x : Ext) : Statement (.fcvt x) := fun _ h => by cases h; rfl

theorem fcvti (x : Ext) : Statement (.fcvti x) := fun _ h => by cases h; rfl

theorem icvtf (x : Ext) : Statement (.icvtf x) := fun _ h => by cases h; rfl

theorem fpack (x : Ext) : Statement (.fpack x) := fun _ h => by cases h; rfl

theorem funpk (x : Ext) : Statement (.funpk x) := fun _ h => by cases h; rfl

theorem fdot2 (x : Ext) : Statement (.fdot2 x) := fun _ h => by cases h; rfl

theorem hadd2 (x : Ext) : Statement (.hadd2 x) := fun _ h => by cases h; rfl

theorem hmul2 (x : Ext) : Statement (.hmul2 x) := fun _ h => by cases h; rfl

theorem hfma2 (x : Ext) : Statement (.hfma2 x) := fun _ h => by cases h; rfl

theorem hmin2 (x : Ext) : Statement (.hmin2 x) := fun _ h => by cases h; rfl

theorem hmax2 (x : Ext) : Statement (.hmax2 x) := fun _ h => by cases h; rfl

theorem qbcstBase (f : BaseF) : Statement (.qbcstBase f) := fun _ h => by cases h; rfl

theorem stovBase (f : BaseF) : Statement (.stovBase f) := fun _ h => by cases h; rfl

theorem vtagBase (f : BaseF) : Statement (.vtagBase f) := fun _ h => by cases h; rfl

theorem vgenBase (f : BaseF) : Statement (.vgenBase f) := fun _ h => by cases h; rfl

theorem qswap (x : Ext) : Statement (.qswap x) := fun _ h => by cases h; rfl

theorem qbcst (x : Ext) : Statement (.qbcst x) := fun _ h => by cases h; rfl

theorem gshuf (x : Ext) : Statement (.gshuf x) := fun _ h => by cases h; rfl

theorem gshfx (x : Ext) : Statement (.gshfx x) := fun _ h => by cases h; rfl

theorem gshfu (x : Ext) : Statement (.gshfu x) := fun _ h => by cases h; rfl

theorem gshfd (x : Ext) : Statement (.gshfd x) := fun _ h => by cases h; rfl

theorem gvote (x : Ext) : Statement (.gvote x) := fun _ h => by cases h; rfl

theorem gbalt (x : Ext) : Statement (.gbalt x) := fun _ h => by cases h; rfl

theorem gred (x : Ext) : Statement (.gred x) := fun _ h => by cases h; rfl

theorem gscan (x : Ext) : Statement (.gscan x) := fun _ h => by cases h; rfl

theorem vtos (x : Ext) : Statement (.vtos x) := fun _ h => by cases h; rfl

theorem stov (x : Ext) : Statement (.stov x) := fun _ h => by cases h; rfl

theorem vtag (x : Ext) : Statement (.vtag x) := fun _ h => by cases h; rfl

theorem vgen (x : Ext) : Statement (.vgen x) := fun _ h => by cases h; rfl

theorem pairWord (p : PairF) : Statement (.pairWord p) := fun _ h => by cases h; rfl

theorem divb (x : Ext) : Statement (.divb x) := fun _ h => by cases h; rfl

theorem callr (x : Ext) : Statement (.callr x) := fun _ h => by cases h; rfl

theorem jmpr (x : Ext) : Statement (.jmpr x) := fun _ h => by cases h; rfl

theorem loop (x : Ext) : Statement (.loop x) := fun _ h => by cases h; rfl

theorem sbrc (x : Ext) : Statement (.sbrc x) := fun _ h => by cases h; rfl

theorem kand (x : Ext) : Statement (.kand x) := fun _ h => by cases h; rfl

theorem kor (x : Ext) : Statement (.kor x) := fun _ h => by cases h; rfl

theorem kxor (x : Ext) : Statement (.kxor x) := fun _ h => by cases h; rfl

theorem kandn (x : Ext) : Statement (.kandn x) := fun _ h => by cases h; rfl

theorem knot (x : Ext) : Statement (.knot x) := fun _ h => by cases h; rfl

theorem kmov (x : Ext) : Statement (.kmov x) := fun _ h => by cases h; rfl

theorem ld (x : Ext) : Statement (.ld x) := fun _ h => by cases h; rfl

theorem st (x : Ext) : Statement (.st x) := fun _ h => by cases h; rfl

theorem ldu (x : Ext) : Statement (.ldu x) := fun _ h => by cases h; rfl

theorem stu (x : Ext) : Statement (.stu x) := fun _ h => by cases h; rfl

theorem ldt (x : Ext) : Statement (.ldt x) := fun _ h => by cases h; rfl

theorem stt (x : Ext) : Statement (.stt x) := fun _ h => by cases h; rfl

theorem spill (x : Ext) : Statement (.spill x) := fun _ h => by cases h; rfl

theorem fill (x : Ext) : Statement (.fill x) := fun _ h => by cases h; rfl

theorem prf (x : Ext) : Statement (.prf x) := fun _ h => by cases h; rfl

theorem cpy (x : Ext) : Statement (.cpy x) := fun _ h => by cases h; rfl

theorem cpyt (x : Ext) : Statement (.cpyt x) := fun _ h => by cases h; rfl

theorem cpyg (x : Ext) : Statement (.cpyg x) := fun _ h => by cases h; rfl

theorem cpys (x : Ext) : Statement (.cpys x) := fun _ h => by cases h; rfl

theorem cpyr (x : Ext) : Statement (.cpyr x) := fun _ h => by cases h; rfl

theorem cpyw (x : Ext) : Statement (.cpyw x) := fun _ h => by cases h; rfl

theorem cpyq (x : Ext) : Statement (.cpyq x) := fun _ h => by cases h; rfl

theorem cpyx (x : Ext) : Statement (.cpyx x) := fun _ h => by cases h; rfl

theorem caput (x : Ext) : Statement (.caput x) := fun _ h => by cases h; rfl

theorem caget (x : Ext) : Statement (.caget x) := fun _ h => by cases h; rfl

theorem cahash (x : Ext) : Statement (.cahash x) := fun _ h => by cases h; rfl

theorem caref (x : Ext) : Statement (.caref x) := fun _ h => by cases h; rfl

theorem carel (x : Ext) : Statement (.carel x) := fun _ h => by cases h; rfl

theorem caswap (x : Ext) : Statement (.caswap x) := fun _ h => by cases h; rfl

theorem caout (x : Ext) : Statement (.caout x) := fun _ h => by cases h; rfl

theorem caprb (x : Ext) : Statement (.caprb x) := fun _ h => by cases h; rfl

theorem atom (x : Ext) : Statement (.atom x) := fun _ h => by cases h; rfl

theorem waitc (x : Ext) : Statement (.waitc x) := fun _ h => by cases h; rfl

theorem qlock (x : Ext) : Statement (.qlock x) := fun _ h => by cases h; rfl

theorem qunlk (x : Ext) : Statement (.qunlk x) := fun _ h => by cases h; rfl

theorem fence (x : Ext) : Statement (.fence x) := fun _ h => by cases h; rfl

theorem promote (x : Ext) : Statement (.promote x) := fun _ h => by cases h; rfl

theorem bar (x : Ext) : Statement (.bar x) := fun _ h => by cases h; rfl

theorem lbar (x : Ext) : Statement (.lbar x) := fun _ h => by cases h; rfl

theorem csini (x : Ext) : Statement (.csini x) := fun _ h => by cases h; rfl

theorem csarv (x : Ext) : Statement (.csarv x) := fun _ h => by cases h; rfl

theorem cswt (x : Ext) : Statement (.cswt x) := fun _ h => by cases h; rfl

theorem csrel (x : Ext) : Statement (.csrel x) := fun _ h => by cases h; rfl

theorem mma (x : Ext) : Statement (.mma x) := fun _ h => by cases h; rfl

theorem mlda (x : Ext) : Statement (.mlda x) := fun _ h => by cases h; rfl

theorem mldb (x : Ext) : Statement (.mldb x) := fun _ h => by cases h; rfl

theorem mcbt (x : Ext) : Statement (.mcbt x) := fun _ h => by cases h; rfl

theorem mzero (x : Ext) : Statement (.mzero x) := fun _ h => by cases h; rfl

theorem mrd (x : Ext) : Statement (.mrd x) := fun _ h => by cases h; rfl

theorem mwr (x : Ext) : Statement (.mwr x) := fun _ h => by cases h; rfl

theorem mst (x : Ext) : Statement (.mst x) := fun _ h => by cases h; rfl

theorem mcmp (x : Ext) : Statement (.mcmp x) := fun _ h => by cases h; rfl

theorem mscl (x : Ext) : Statement (.mscl x) := fun _ h => by cases h; rfl

theorem tfetch (x : Ext) : Statement (.tfetch x) := fun _ h => by cases h; rfl

theorem spawn (x : Ext) : Statement (.spawn x) := fun _ h => by cases h; rfl

theorem join (x : Ext) : Statement (.join x) := fun _ h => by cases h; rfl

theorem sget (x : Ext) : Statement (.sget x) := fun _ h => by cases h; rfl

theorem sset (x : Ext) : Statement (.sset x) := fun _ h => by cases h; rfl

theorem icinv (x : Ext) : Statement (.icinv x) := fun _ h => by cases h; rfl

theorem tarm (x : Ext) : Statement (.tarm x) := fun _ h => by cases h; rfl

theorem sleep (x : Ext) : Statement (.sleep x) := fun _ h => by cases h; rfl

theorem time (x : Ext) : Statement (.time x) := fun _ h => by cases h; rfl

theorem rte (x : Ext) : Statement (.rte x) := fun _ h => by cases h; rfl

theorem pwrq (x : Ext) : Statement (.pwrq x) := fun _ h => by cases h; rfl

theorem waitcPerform (id : Nat) : Statement (.waitcPerform id) := fun _ h => by cases h

theorem icinvDone (g : GroupRef) : Statement (.icinvDone g) := fun _ h => by cases h

theorem fieldRampDone (f : Nat) : Statement (.fieldRampDone f) := fun _ h => by cases h

theorem pwrUpdateEnd : Statement (.pwrUpdateEnd) := fun _ h => by cases h

theorem keyWrite (fn off size val : Nat) : Statement (.keyWrite fn off size val) := fun _ h => by cases h

theorem peerRead (owner pa len : Nat) : Statement (.peerRead owner pa len) := fun _ h => by cases h

end Sys2Proof.Laws.Named
end

