-- ==== Sys2Proof/Laws/State.lean ====
section
/-!
SUPPORT. Laws/State.lean: one lemma per field per update, so that no later proof unfolds a record update; what a register, a
core, a queue and the like read after a write; and what the environment's updates leave.
-/

namespace Sys2Proof.Machine

open Sys2Proof

section
variable (s : State) (f : Nat) (x : Field)

@[simp] theorem State.setField_gtc : (s.setField f x).gtc = s.gtc := rfl
@[simp] theorem State.setField_step : (s.setField f x).step = s.step := rfl
@[simp] theorem State.setField_bringUp : (s.setField f x).bringUp = s.bringUp := rfl
@[simp] theorem State.setField_smbus : (s.setField f x).smbus = s.smbus := rfl
@[simp] theorem State.setField_family : (s.setField f x).family = s.family := rfl
@[simp] theorem State.setField_stepLetter : (s.setField f x).stepLetter = s.stepLetter := rfl
@[simp] theorem State.setField_stepDigit : (s.setField f x).stepDigit = s.stepDigit := rfl
@[simp] theorem State.setField_domid : (s.setField f x).domid = s.domid := rfl
@[simp] theorem State.setField_qwin : (s.setField f x).qwin = s.qwin := rfl
@[simp] theorem State.setField_maxlat : (s.setField f x).maxlat = s.maxlat := rfl
@[simp] theorem State.setField_peerWindows : (s.setField f x).peerWindows = s.peerWindows := rfl
@[simp] theorem State.setField_absentModules : (s.setField f x).absentModules = s.absentModules := rfl
@[simp] theorem State.setField_peerKeys : (s.setField f x).peerKeys = s.peerKeys := rfl
@[simp] theorem State.setField_queues : (s.setField f x).queues = s.queues := rfl
@[simp] theorem State.setField_tcbs : (s.setField f x).tcbs = s.tcbs := rfl
@[simp] theorem State.setField_blocks : (s.setField f x).blocks = s.blocks := rfl
@[simp] theorem State.setField_groups : (s.setField f x).groups = s.groups := rfl
@[simp] theorem State.setField_fills : (s.setField f x).fills = s.fills := rfl
@[simp] theorem State.setField_pendings : (s.setField f x).pendings = s.pendings := rfl
@[simp] theorem State.setField_entries : (s.setField f x).entries = s.entries := rfl
@[simp] theorem State.setField_benches : (s.setField f x).benches = s.benches := rfl
@[simp] theorem State.setField_cores : (s.setField f x).cores = s.cores := rfl
@[simp] theorem State.setField_dies : (s.setField f x).dies = s.dies := rfl
@[simp] theorem State.setField_owners : (s.setField f x).owners = s.owners := rfl
@[simp] theorem State.setField_mem : (s.setField f x).mem = s.mem := rfl
@[simp] theorem State.setField_keys : (s.setField f x).keys = s.keys := rfl
@[simp] theorem State.setField_poison : (s.setField f x).poison = s.poison := rfl
@[simp] theorem State.setField_frames : (s.setField f x).frames = s.frames := rfl
@[simp] theorem State.setField_tlb : (s.setField f x).tlb = s.tlb := rfl
@[simp] theorem State.setField_icache : (s.setField f x).icache = s.icache := rfl
@[simp] theorem State.setField_fetchFails : (s.setField f x).fetchFails = s.fetchFails := rfl
@[simp] theorem State.setField_caLines : (s.setField f x).caLines = s.caLines := rfl
@[simp] theorem State.setField_reclaim : (s.setField f x).reclaim = s.reclaim := rfl
@[simp] theorem State.setField_copies : (s.setField f x).copies = s.copies := rfl
@[simp] theorem State.setField_rangeLocks : (s.setField f x).rangeLocks = s.rangeLocks := rfl
@[simp] theorem State.setField_monitors : (s.setField f x).monitors = s.monitors := rfl
@[simp] theorem State.setField_locks : (s.setField f x).locks = s.locks := rfl
@[simp] theorem State.setField_promos : (s.setField f x).promos = s.promos := rfl
@[simp] theorem State.setField_cells : (s.setField f x).cells = s.cells := rfl
@[simp] theorem State.setField_messages : (s.setField f x).messages = s.messages := rfl
@[simp] theorem State.setField_reported : (s.setField f x).reported = s.reported := rfl
@[simp] theorem State.setField_events : (s.setField f x).events = s.events := rfl
@[simp] theorem State.setField_rows : (s.setField f x).rows = s.rows := rfl
@[simp] theorem State.setField_spared : (s.setField f x).spared = s.spared := rfl
@[simp] theorem State.setField_offlineRows : (s.setField f x).offlineRows = s.offlineRows := rfl
@[simp] theorem State.setField_drone : (s.setField f x).drone = s.drone := rfl
@[simp] theorem State.setField_checkpoints : (s.setField f x).checkpoints = s.checkpoints := rfl
@[simp] theorem State.setField_sinks : (s.setField f x).sinks = s.sinks := rfl
@[simp] theorem State.setField_tierLines : (s.setField f x).tierLines = s.tierLines := rfl
@[simp] theorem State.setField_linksDown : (s.setField f x).linksDown = s.linksDown := rfl
@[simp] theorem State.setField_hostDown : (s.setField f x).hostDown = s.hostDown := rfl
@[simp] theorem State.setField_msix : (s.setField f x).msix = s.msix := rfl
@[simp] theorem State.setField_updating : (s.setField f x).updating = s.updating := rfl
@[simp] theorem State.setField_watchdog : (s.setField f x).watchdog = s.watchdog := rfl
@[simp] theorem State.setField_hung : (s.setField f x).hung = s.hung := rfl
@[simp] theorem State.setField_inputPower : (s.setField f x).inputPower = s.inputPower := rfl
@[simp] theorem State.setField_slewed : (s.setField f x).slewed = s.slewed := rfl
@[simp] theorem State.setField_loadReports : (s.setField f x).loadReports = s.loadReports := rfl
@[simp] theorem State.setField_objects : (s.setField f x).objects = s.objects := rfl
@[simp] theorem State.setField_reply : (s.setField f x).reply = s.reply := rfl
@[simp] theorem State.setField_peerReply : (s.setField f x).peerReply = s.peerReply := rfl
@[simp] theorem State.setField_cur : (s.setField f x).cur = s.cur := rfl
@[simp] theorem State.setField_agenda : (s.setField f x).agenda = s.agenda := rfl
@[simp] theorem State.setField_nextId : (s.setField f x).nextId = s.nextId := rfl
@[simp] theorem State.setField_freeCtr : (s.setField f x).freeCtr = s.freeCtr := rfl
@[simp] theorem State.setField_jitter : (s.setField f x).jitter = s.jitter := rfl

end

section
variable (s : State) (n : Nat) (x : Bench)

@[simp] theorem State.setBench_gtc : (s.setBench n x).gtc = s.gtc := rfl
@[simp] theorem State.setBench_step : (s.setBench n x).step = s.step := rfl
@[simp] theorem State.setBench_bringUp : (s.setBench n x).bringUp = s.bringUp := rfl
@[simp] theorem State.setBench_smbus : (s.setBench n x).smbus = s.smbus := rfl
@[simp] theorem State.setBench_family : (s.setBench n x).family = s.family := rfl
@[simp] theorem State.setBench_stepLetter : (s.setBench n x).stepLetter = s.stepLetter := rfl
@[simp] theorem State.setBench_stepDigit : (s.setBench n x).stepDigit = s.stepDigit := rfl
@[simp] theorem State.setBench_domid : (s.setBench n x).domid = s.domid := rfl
@[simp] theorem State.setBench_qwin : (s.setBench n x).qwin = s.qwin := rfl
@[simp] theorem State.setBench_maxlat : (s.setBench n x).maxlat = s.maxlat := rfl
@[simp] theorem State.setBench_peerWindows : (s.setBench n x).peerWindows = s.peerWindows := rfl
@[simp] theorem State.setBench_absentModules : (s.setBench n x).absentModules = s.absentModules := rfl
@[simp] theorem State.setBench_peerKeys : (s.setBench n x).peerKeys = s.peerKeys := rfl
@[simp] theorem State.setBench_queues : (s.setBench n x).queues = s.queues := rfl
@[simp] theorem State.setBench_tcbs : (s.setBench n x).tcbs = s.tcbs := rfl
@[simp] theorem State.setBench_blocks : (s.setBench n x).blocks = s.blocks := rfl
@[simp] theorem State.setBench_groups : (s.setBench n x).groups = s.groups := rfl
@[simp] theorem State.setBench_fills : (s.setBench n x).fills = s.fills := rfl
@[simp] theorem State.setBench_pendings : (s.setBench n x).pendings = s.pendings := rfl
@[simp] theorem State.setBench_entries : (s.setBench n x).entries = s.entries := rfl
@[simp] theorem State.setBench_fields : (s.setBench n x).fields = s.fields := rfl
@[simp] theorem State.setBench_cores : (s.setBench n x).cores = s.cores := rfl
@[simp] theorem State.setBench_dies : (s.setBench n x).dies = s.dies := rfl
@[simp] theorem State.setBench_owners : (s.setBench n x).owners = s.owners := rfl
@[simp] theorem State.setBench_mem : (s.setBench n x).mem = s.mem := rfl
@[simp] theorem State.setBench_keys : (s.setBench n x).keys = s.keys := rfl
@[simp] theorem State.setBench_poison : (s.setBench n x).poison = s.poison := rfl
@[simp] theorem State.setBench_frames : (s.setBench n x).frames = s.frames := rfl
@[simp] theorem State.setBench_tlb : (s.setBench n x).tlb = s.tlb := rfl
@[simp] theorem State.setBench_icache : (s.setBench n x).icache = s.icache := rfl
@[simp] theorem State.setBench_fetchFails : (s.setBench n x).fetchFails = s.fetchFails := rfl
@[simp] theorem State.setBench_caLines : (s.setBench n x).caLines = s.caLines := rfl
@[simp] theorem State.setBench_reclaim : (s.setBench n x).reclaim = s.reclaim := rfl
@[simp] theorem State.setBench_copies : (s.setBench n x).copies = s.copies := rfl
@[simp] theorem State.setBench_rangeLocks : (s.setBench n x).rangeLocks = s.rangeLocks := rfl
@[simp] theorem State.setBench_monitors : (s.setBench n x).monitors = s.monitors := rfl
@[simp] theorem State.setBench_locks : (s.setBench n x).locks = s.locks := rfl
@[simp] theorem State.setBench_promos : (s.setBench n x).promos = s.promos := rfl
@[simp] theorem State.setBench_cells : (s.setBench n x).cells = s.cells := rfl
@[simp] theorem State.setBench_messages : (s.setBench n x).messages = s.messages := rfl
@[simp] theorem State.setBench_reported : (s.setBench n x).reported = s.reported := rfl
@[simp] theorem State.setBench_events : (s.setBench n x).events = s.events := rfl
@[simp] theorem State.setBench_rows : (s.setBench n x).rows = s.rows := rfl
@[simp] theorem State.setBench_spared : (s.setBench n x).spared = s.spared := rfl
@[simp] theorem State.setBench_offlineRows : (s.setBench n x).offlineRows = s.offlineRows := rfl
@[simp] theorem State.setBench_drone : (s.setBench n x).drone = s.drone := rfl
@[simp] theorem State.setBench_checkpoints : (s.setBench n x).checkpoints = s.checkpoints := rfl
@[simp] theorem State.setBench_sinks : (s.setBench n x).sinks = s.sinks := rfl
@[simp] theorem State.setBench_tierLines : (s.setBench n x).tierLines = s.tierLines := rfl
@[simp] theorem State.setBench_linksDown : (s.setBench n x).linksDown = s.linksDown := rfl
@[simp] theorem State.setBench_hostDown : (s.setBench n x).hostDown = s.hostDown := rfl
@[simp] theorem State.setBench_msix : (s.setBench n x).msix = s.msix := rfl
@[simp] theorem State.setBench_updating : (s.setBench n x).updating = s.updating := rfl
@[simp] theorem State.setBench_watchdog : (s.setBench n x).watchdog = s.watchdog := rfl
@[simp] theorem State.setBench_hung : (s.setBench n x).hung = s.hung := rfl
@[simp] theorem State.setBench_inputPower : (s.setBench n x).inputPower = s.inputPower := rfl
@[simp] theorem State.setBench_slewed : (s.setBench n x).slewed = s.slewed := rfl
@[simp] theorem State.setBench_loadReports : (s.setBench n x).loadReports = s.loadReports := rfl
@[simp] theorem State.setBench_objects : (s.setBench n x).objects = s.objects := rfl
@[simp] theorem State.setBench_reply : (s.setBench n x).reply = s.reply := rfl
@[simp] theorem State.setBench_peerReply : (s.setBench n x).peerReply = s.peerReply := rfl
@[simp] theorem State.setBench_cur : (s.setBench n x).cur = s.cur := rfl
@[simp] theorem State.setBench_agenda : (s.setBench n x).agenda = s.agenda := rfl
@[simp] theorem State.setBench_nextId : (s.setBench n x).nextId = s.nextId := rfl
@[simp] theorem State.setBench_freeCtr : (s.setBench n x).freeCtr = s.freeCtr := rfl
@[simp] theorem State.setBench_jitter : (s.setBench n x).jitter = s.jitter := rfl

end

section
variable (s : State) (n : Nat) (x : Core)

@[simp] theorem State.setCore_gtc : (s.setCore n x).gtc = s.gtc := rfl
@[simp] theorem State.setCore_step : (s.setCore n x).step = s.step := rfl
@[simp] theorem State.setCore_bringUp : (s.setCore n x).bringUp = s.bringUp := rfl
@[simp] theorem State.setCore_smbus : (s.setCore n x).smbus = s.smbus := rfl
@[simp] theorem State.setCore_family : (s.setCore n x).family = s.family := rfl
@[simp] theorem State.setCore_stepLetter : (s.setCore n x).stepLetter = s.stepLetter := rfl
@[simp] theorem State.setCore_stepDigit : (s.setCore n x).stepDigit = s.stepDigit := rfl
@[simp] theorem State.setCore_domid : (s.setCore n x).domid = s.domid := rfl
@[simp] theorem State.setCore_qwin : (s.setCore n x).qwin = s.qwin := rfl
@[simp] theorem State.setCore_maxlat : (s.setCore n x).maxlat = s.maxlat := rfl
@[simp] theorem State.setCore_peerWindows : (s.setCore n x).peerWindows = s.peerWindows := rfl
@[simp] theorem State.setCore_absentModules : (s.setCore n x).absentModules = s.absentModules := rfl
@[simp] theorem State.setCore_peerKeys : (s.setCore n x).peerKeys = s.peerKeys := rfl
@[simp] theorem State.setCore_queues : (s.setCore n x).queues = s.queues := rfl
@[simp] theorem State.setCore_tcbs : (s.setCore n x).tcbs = s.tcbs := rfl
@[simp] theorem State.setCore_blocks : (s.setCore n x).blocks = s.blocks := rfl
@[simp] theorem State.setCore_groups : (s.setCore n x).groups = s.groups := rfl
@[simp] theorem State.setCore_fills : (s.setCore n x).fills = s.fills := rfl
@[simp] theorem State.setCore_pendings : (s.setCore n x).pendings = s.pendings := rfl
@[simp] theorem State.setCore_entries : (s.setCore n x).entries = s.entries := rfl
@[simp] theorem State.setCore_fields : (s.setCore n x).fields = s.fields := rfl
@[simp] theorem State.setCore_benches : (s.setCore n x).benches = s.benches := rfl
@[simp] theorem State.setCore_dies : (s.setCore n x).dies = s.dies := rfl
@[simp] theorem State.setCore_owners : (s.setCore n x).owners = s.owners := rfl
@[simp] theorem State.setCore_mem : (s.setCore n x).mem = s.mem := rfl
@[simp] theorem State.setCore_keys : (s.setCore n x).keys = s.keys := rfl
@[simp] theorem State.setCore_poison : (s.setCore n x).poison = s.poison := rfl
@[simp] theorem State.setCore_frames : (s.setCore n x).frames = s.frames := rfl
@[simp] theorem State.setCore_tlb : (s.setCore n x).tlb = s.tlb := rfl
@[simp] theorem State.setCore_icache : (s.setCore n x).icache = s.icache := rfl
@[simp] theorem State.setCore_fetchFails : (s.setCore n x).fetchFails = s.fetchFails := rfl
@[simp] theorem State.setCore_caLines : (s.setCore n x).caLines = s.caLines := rfl
@[simp] theorem State.setCore_reclaim : (s.setCore n x).reclaim = s.reclaim := rfl
@[simp] theorem State.setCore_copies : (s.setCore n x).copies = s.copies := rfl
@[simp] theorem State.setCore_rangeLocks : (s.setCore n x).rangeLocks = s.rangeLocks := rfl
@[simp] theorem State.setCore_monitors : (s.setCore n x).monitors = s.monitors := rfl
@[simp] theorem State.setCore_locks : (s.setCore n x).locks = s.locks := rfl
@[simp] theorem State.setCore_promos : (s.setCore n x).promos = s.promos := rfl
@[simp] theorem State.setCore_cells : (s.setCore n x).cells = s.cells := rfl
@[simp] theorem State.setCore_messages : (s.setCore n x).messages = s.messages := rfl
@[simp] theorem State.setCore_reported : (s.setCore n x).reported = s.reported := rfl
@[simp] theorem State.setCore_events : (s.setCore n x).events = s.events := rfl
@[simp] theorem State.setCore_rows : (s.setCore n x).rows = s.rows := rfl
@[simp] theorem State.setCore_spared : (s.setCore n x).spared = s.spared := rfl
@[simp] theorem State.setCore_offlineRows : (s.setCore n x).offlineRows = s.offlineRows := rfl
@[simp] theorem State.setCore_drone : (s.setCore n x).drone = s.drone := rfl
@[simp] theorem State.setCore_checkpoints : (s.setCore n x).checkpoints = s.checkpoints := rfl
@[simp] theorem State.setCore_sinks : (s.setCore n x).sinks = s.sinks := rfl
@[simp] theorem State.setCore_tierLines : (s.setCore n x).tierLines = s.tierLines := rfl
@[simp] theorem State.setCore_linksDown : (s.setCore n x).linksDown = s.linksDown := rfl
@[simp] theorem State.setCore_hostDown : (s.setCore n x).hostDown = s.hostDown := rfl
@[simp] theorem State.setCore_msix : (s.setCore n x).msix = s.msix := rfl
@[simp] theorem State.setCore_updating : (s.setCore n x).updating = s.updating := rfl
@[simp] theorem State.setCore_watchdog : (s.setCore n x).watchdog = s.watchdog := rfl
@[simp] theorem State.setCore_hung : (s.setCore n x).hung = s.hung := rfl
@[simp] theorem State.setCore_inputPower : (s.setCore n x).inputPower = s.inputPower := rfl
@[simp] theorem State.setCore_slewed : (s.setCore n x).slewed = s.slewed := rfl
@[simp] theorem State.setCore_loadReports : (s.setCore n x).loadReports = s.loadReports := rfl
@[simp] theorem State.setCore_objects : (s.setCore n x).objects = s.objects := rfl
@[simp] theorem State.setCore_reply : (s.setCore n x).reply = s.reply := rfl
@[simp] theorem State.setCore_peerReply : (s.setCore n x).peerReply = s.peerReply := rfl
@[simp] theorem State.setCore_cur : (s.setCore n x).cur = s.cur := rfl
@[simp] theorem State.setCore_agenda : (s.setCore n x).agenda = s.agenda := rfl
@[simp] theorem State.setCore_nextId : (s.setCore n x).nextId = s.nextId := rfl
@[simp] theorem State.setCore_freeCtr : (s.setCore n x).freeCtr = s.freeCtr := rfl
@[simp] theorem State.setCore_jitter : (s.setCore n x).jitter = s.jitter := rfl

end

section
variable (s : State) (n : Nat) (x : Die)

@[simp] theorem State.setDie_gtc : (s.setDie n x).gtc = s.gtc := rfl
@[simp] theorem State.setDie_step : (s.setDie n x).step = s.step := rfl
@[simp] theorem State.setDie_bringUp : (s.setDie n x).bringUp = s.bringUp := rfl
@[simp] theorem State.setDie_smbus : (s.setDie n x).smbus = s.smbus := rfl
@[simp] theorem State.setDie_family : (s.setDie n x).family = s.family := rfl
@[simp] theorem State.setDie_stepLetter : (s.setDie n x).stepLetter = s.stepLetter := rfl
@[simp] theorem State.setDie_stepDigit : (s.setDie n x).stepDigit = s.stepDigit := rfl
@[simp] theorem State.setDie_domid : (s.setDie n x).domid = s.domid := rfl
@[simp] theorem State.setDie_qwin : (s.setDie n x).qwin = s.qwin := rfl
@[simp] theorem State.setDie_maxlat : (s.setDie n x).maxlat = s.maxlat := rfl
@[simp] theorem State.setDie_peerWindows : (s.setDie n x).peerWindows = s.peerWindows := rfl
@[simp] theorem State.setDie_absentModules : (s.setDie n x).absentModules = s.absentModules := rfl
@[simp] theorem State.setDie_peerKeys : (s.setDie n x).peerKeys = s.peerKeys := rfl
@[simp] theorem State.setDie_queues : (s.setDie n x).queues = s.queues := rfl
@[simp] theorem State.setDie_tcbs : (s.setDie n x).tcbs = s.tcbs := rfl
@[simp] theorem State.setDie_blocks : (s.setDie n x).blocks = s.blocks := rfl
@[simp] theorem State.setDie_groups : (s.setDie n x).groups = s.groups := rfl
@[simp] theorem State.setDie_fills : (s.setDie n x).fills = s.fills := rfl
@[simp] theorem State.setDie_pendings : (s.setDie n x).pendings = s.pendings := rfl
@[simp] theorem State.setDie_entries : (s.setDie n x).entries = s.entries := rfl
@[simp] theorem State.setDie_fields : (s.setDie n x).fields = s.fields := rfl
@[simp] theorem State.setDie_benches : (s.setDie n x).benches = s.benches := rfl
@[simp] theorem State.setDie_cores : (s.setDie n x).cores = s.cores := rfl
@[simp] theorem State.setDie_owners : (s.setDie n x).owners = s.owners := rfl
@[simp] theorem State.setDie_mem : (s.setDie n x).mem = s.mem := rfl
@[simp] theorem State.setDie_keys : (s.setDie n x).keys = s.keys := rfl
@[simp] theorem State.setDie_poison : (s.setDie n x).poison = s.poison := rfl
@[simp] theorem State.setDie_frames : (s.setDie n x).frames = s.frames := rfl
@[simp] theorem State.setDie_tlb : (s.setDie n x).tlb = s.tlb := rfl
@[simp] theorem State.setDie_icache : (s.setDie n x).icache = s.icache := rfl
@[simp] theorem State.setDie_fetchFails : (s.setDie n x).fetchFails = s.fetchFails := rfl
@[simp] theorem State.setDie_caLines : (s.setDie n x).caLines = s.caLines := rfl
@[simp] theorem State.setDie_reclaim : (s.setDie n x).reclaim = s.reclaim := rfl
@[simp] theorem State.setDie_copies : (s.setDie n x).copies = s.copies := rfl
@[simp] theorem State.setDie_rangeLocks : (s.setDie n x).rangeLocks = s.rangeLocks := rfl
@[simp] theorem State.setDie_monitors : (s.setDie n x).monitors = s.monitors := rfl
@[simp] theorem State.setDie_locks : (s.setDie n x).locks = s.locks := rfl
@[simp] theorem State.setDie_promos : (s.setDie n x).promos = s.promos := rfl
@[simp] theorem State.setDie_cells : (s.setDie n x).cells = s.cells := rfl
@[simp] theorem State.setDie_messages : (s.setDie n x).messages = s.messages := rfl
@[simp] theorem State.setDie_reported : (s.setDie n x).reported = s.reported := rfl
@[simp] theorem State.setDie_events : (s.setDie n x).events = s.events := rfl
@[simp] theorem State.setDie_rows : (s.setDie n x).rows = s.rows := rfl
@[simp] theorem State.setDie_spared : (s.setDie n x).spared = s.spared := rfl
@[simp] theorem State.setDie_offlineRows : (s.setDie n x).offlineRows = s.offlineRows := rfl
@[simp] theorem State.setDie_drone : (s.setDie n x).drone = s.drone := rfl
@[simp] theorem State.setDie_checkpoints : (s.setDie n x).checkpoints = s.checkpoints := rfl
@[simp] theorem State.setDie_sinks : (s.setDie n x).sinks = s.sinks := rfl
@[simp] theorem State.setDie_tierLines : (s.setDie n x).tierLines = s.tierLines := rfl
@[simp] theorem State.setDie_linksDown : (s.setDie n x).linksDown = s.linksDown := rfl
@[simp] theorem State.setDie_hostDown : (s.setDie n x).hostDown = s.hostDown := rfl
@[simp] theorem State.setDie_msix : (s.setDie n x).msix = s.msix := rfl
@[simp] theorem State.setDie_updating : (s.setDie n x).updating = s.updating := rfl
@[simp] theorem State.setDie_watchdog : (s.setDie n x).watchdog = s.watchdog := rfl
@[simp] theorem State.setDie_hung : (s.setDie n x).hung = s.hung := rfl
@[simp] theorem State.setDie_inputPower : (s.setDie n x).inputPower = s.inputPower := rfl
@[simp] theorem State.setDie_slewed : (s.setDie n x).slewed = s.slewed := rfl
@[simp] theorem State.setDie_loadReports : (s.setDie n x).loadReports = s.loadReports := rfl
@[simp] theorem State.setDie_objects : (s.setDie n x).objects = s.objects := rfl
@[simp] theorem State.setDie_reply : (s.setDie n x).reply = s.reply := rfl
@[simp] theorem State.setDie_peerReply : (s.setDie n x).peerReply = s.peerReply := rfl
@[simp] theorem State.setDie_cur : (s.setDie n x).cur = s.cur := rfl
@[simp] theorem State.setDie_agenda : (s.setDie n x).agenda = s.agenda := rfl
@[simp] theorem State.setDie_nextId : (s.setDie n x).nextId = s.nextId := rfl
@[simp] theorem State.setDie_freeCtr : (s.setDie n x).freeCtr = s.freeCtr := rfl
@[simp] theorem State.setDie_jitter : (s.setDie n x).jitter = s.jitter := rfl

end

section
variable (s : State) (n : Nat) (x : Owner)

@[simp] theorem State.setOwner_gtc : (s.setOwner n x).gtc = s.gtc := rfl
@[simp] theorem State.setOwner_step : (s.setOwner n x).step = s.step := rfl
@[simp] theorem State.setOwner_bringUp : (s.setOwner n x).bringUp = s.bringUp := rfl
@[simp] theorem State.setOwner_smbus : (s.setOwner n x).smbus = s.smbus := rfl
@[simp] theorem State.setOwner_family : (s.setOwner n x).family = s.family := rfl
@[simp] theorem State.setOwner_stepLetter : (s.setOwner n x).stepLetter = s.stepLetter := rfl
@[simp] theorem State.setOwner_stepDigit : (s.setOwner n x).stepDigit = s.stepDigit := rfl
@[simp] theorem State.setOwner_domid : (s.setOwner n x).domid = s.domid := rfl
@[simp] theorem State.setOwner_qwin : (s.setOwner n x).qwin = s.qwin := rfl
@[simp] theorem State.setOwner_maxlat : (s.setOwner n x).maxlat = s.maxlat := rfl
@[simp] theorem State.setOwner_peerWindows : (s.setOwner n x).peerWindows = s.peerWindows := rfl
@[simp] theorem State.setOwner_absentModules : (s.setOwner n x).absentModules = s.absentModules := rfl
@[simp] theorem State.setOwner_peerKeys : (s.setOwner n x).peerKeys = s.peerKeys := rfl
@[simp] theorem State.setOwner_queues : (s.setOwner n x).queues = s.queues := rfl
@[simp] theorem State.setOwner_tcbs : (s.setOwner n x).tcbs = s.tcbs := rfl
@[simp] theorem State.setOwner_blocks : (s.setOwner n x).blocks = s.blocks := rfl
@[simp] theorem State.setOwner_groups : (s.setOwner n x).groups = s.groups := rfl
@[simp] theorem State.setOwner_fills : (s.setOwner n x).fills = s.fills := rfl
@[simp] theorem State.setOwner_pendings : (s.setOwner n x).pendings = s.pendings := rfl
@[simp] theorem State.setOwner_entries : (s.setOwner n x).entries = s.entries := rfl
@[simp] theorem State.setOwner_fields : (s.setOwner n x).fields = s.fields := rfl
@[simp] theorem State.setOwner_benches : (s.setOwner n x).benches = s.benches := rfl
@[simp] theorem State.setOwner_cores : (s.setOwner n x).cores = s.cores := rfl
@[simp] theorem State.setOwner_dies : (s.setOwner n x).dies = s.dies := rfl
@[simp] theorem State.setOwner_mem : (s.setOwner n x).mem = s.mem := rfl
@[simp] theorem State.setOwner_keys : (s.setOwner n x).keys = s.keys := rfl
@[simp] theorem State.setOwner_poison : (s.setOwner n x).poison = s.poison := rfl
@[simp] theorem State.setOwner_frames : (s.setOwner n x).frames = s.frames := rfl
@[simp] theorem State.setOwner_tlb : (s.setOwner n x).tlb = s.tlb := rfl
@[simp] theorem State.setOwner_icache : (s.setOwner n x).icache = s.icache := rfl
@[simp] theorem State.setOwner_fetchFails : (s.setOwner n x).fetchFails = s.fetchFails := rfl
@[simp] theorem State.setOwner_caLines : (s.setOwner n x).caLines = s.caLines := rfl
@[simp] theorem State.setOwner_reclaim : (s.setOwner n x).reclaim = s.reclaim := rfl
@[simp] theorem State.setOwner_copies : (s.setOwner n x).copies = s.copies := rfl
@[simp] theorem State.setOwner_rangeLocks : (s.setOwner n x).rangeLocks = s.rangeLocks := rfl
@[simp] theorem State.setOwner_monitors : (s.setOwner n x).monitors = s.monitors := rfl
@[simp] theorem State.setOwner_locks : (s.setOwner n x).locks = s.locks := rfl
@[simp] theorem State.setOwner_promos : (s.setOwner n x).promos = s.promos := rfl
@[simp] theorem State.setOwner_cells : (s.setOwner n x).cells = s.cells := rfl
@[simp] theorem State.setOwner_messages : (s.setOwner n x).messages = s.messages := rfl
@[simp] theorem State.setOwner_reported : (s.setOwner n x).reported = s.reported := rfl
@[simp] theorem State.setOwner_events : (s.setOwner n x).events = s.events := rfl
@[simp] theorem State.setOwner_rows : (s.setOwner n x).rows = s.rows := rfl
@[simp] theorem State.setOwner_spared : (s.setOwner n x).spared = s.spared := rfl
@[simp] theorem State.setOwner_offlineRows : (s.setOwner n x).offlineRows = s.offlineRows := rfl
@[simp] theorem State.setOwner_drone : (s.setOwner n x).drone = s.drone := rfl
@[simp] theorem State.setOwner_checkpoints : (s.setOwner n x).checkpoints = s.checkpoints := rfl
@[simp] theorem State.setOwner_sinks : (s.setOwner n x).sinks = s.sinks := rfl
@[simp] theorem State.setOwner_tierLines : (s.setOwner n x).tierLines = s.tierLines := rfl
@[simp] theorem State.setOwner_linksDown : (s.setOwner n x).linksDown = s.linksDown := rfl
@[simp] theorem State.setOwner_hostDown : (s.setOwner n x).hostDown = s.hostDown := rfl
@[simp] theorem State.setOwner_msix : (s.setOwner n x).msix = s.msix := rfl
@[simp] theorem State.setOwner_updating : (s.setOwner n x).updating = s.updating := rfl
@[simp] theorem State.setOwner_watchdog : (s.setOwner n x).watchdog = s.watchdog := rfl
@[simp] theorem State.setOwner_hung : (s.setOwner n x).hung = s.hung := rfl
@[simp] theorem State.setOwner_inputPower : (s.setOwner n x).inputPower = s.inputPower := rfl
@[simp] theorem State.setOwner_slewed : (s.setOwner n x).slewed = s.slewed := rfl
@[simp] theorem State.setOwner_loadReports : (s.setOwner n x).loadReports = s.loadReports := rfl
@[simp] theorem State.setOwner_objects : (s.setOwner n x).objects = s.objects := rfl
@[simp] theorem State.setOwner_reply : (s.setOwner n x).reply = s.reply := rfl
@[simp] theorem State.setOwner_peerReply : (s.setOwner n x).peerReply = s.peerReply := rfl
@[simp] theorem State.setOwner_cur : (s.setOwner n x).cur = s.cur := rfl
@[simp] theorem State.setOwner_agenda : (s.setOwner n x).agenda = s.agenda := rfl
@[simp] theorem State.setOwner_nextId : (s.setOwner n x).nextId = s.nextId := rfl
@[simp] theorem State.setOwner_freeCtr : (s.setOwner n x).freeCtr = s.freeCtr := rfl
@[simp] theorem State.setOwner_jitter : (s.setOwner n x).jitter = s.jitter := rfl

end

section
variable (s : State) (n : Nat) (x : Queue)

@[simp] theorem State.setQueue_gtc : (s.setQueue n x).gtc = s.gtc := rfl
@[simp] theorem State.setQueue_step : (s.setQueue n x).step = s.step := rfl
@[simp] theorem State.setQueue_bringUp : (s.setQueue n x).bringUp = s.bringUp := rfl
@[simp] theorem State.setQueue_smbus : (s.setQueue n x).smbus = s.smbus := rfl
@[simp] theorem State.setQueue_family : (s.setQueue n x).family = s.family := rfl
@[simp] theorem State.setQueue_stepLetter : (s.setQueue n x).stepLetter = s.stepLetter := rfl
@[simp] theorem State.setQueue_stepDigit : (s.setQueue n x).stepDigit = s.stepDigit := rfl
@[simp] theorem State.setQueue_domid : (s.setQueue n x).domid = s.domid := rfl
@[simp] theorem State.setQueue_qwin : (s.setQueue n x).qwin = s.qwin := rfl
@[simp] theorem State.setQueue_maxlat : (s.setQueue n x).maxlat = s.maxlat := rfl
@[simp] theorem State.setQueue_peerWindows : (s.setQueue n x).peerWindows = s.peerWindows := rfl
@[simp] theorem State.setQueue_absentModules : (s.setQueue n x).absentModules = s.absentModules := rfl
@[simp] theorem State.setQueue_peerKeys : (s.setQueue n x).peerKeys = s.peerKeys := rfl
@[simp] theorem State.setQueue_tcbs : (s.setQueue n x).tcbs = s.tcbs := rfl
@[simp] theorem State.setQueue_blocks : (s.setQueue n x).blocks = s.blocks := rfl
@[simp] theorem State.setQueue_groups : (s.setQueue n x).groups = s.groups := rfl
@[simp] theorem State.setQueue_fills : (s.setQueue n x).fills = s.fills := rfl
@[simp] theorem State.setQueue_pendings : (s.setQueue n x).pendings = s.pendings := rfl
@[simp] theorem State.setQueue_entries : (s.setQueue n x).entries = s.entries := rfl
@[simp] theorem State.setQueue_fields : (s.setQueue n x).fields = s.fields := rfl
@[simp] theorem State.setQueue_benches : (s.setQueue n x).benches = s.benches := rfl
@[simp] theorem State.setQueue_cores : (s.setQueue n x).cores = s.cores := rfl
@[simp] theorem State.setQueue_dies : (s.setQueue n x).dies = s.dies := rfl
@[simp] theorem State.setQueue_owners : (s.setQueue n x).owners = s.owners := rfl
@[simp] theorem State.setQueue_mem : (s.setQueue n x).mem = s.mem := rfl
@[simp] theorem State.setQueue_keys : (s.setQueue n x).keys = s.keys := rfl
@[simp] theorem State.setQueue_poison : (s.setQueue n x).poison = s.poison := rfl
@[simp] theorem State.setQueue_frames : (s.setQueue n x).frames = s.frames := rfl
@[simp] theorem State.setQueue_tlb : (s.setQueue n x).tlb = s.tlb := rfl
@[simp] theorem State.setQueue_icache : (s.setQueue n x).icache = s.icache := rfl
@[simp] theorem State.setQueue_fetchFails : (s.setQueue n x).fetchFails = s.fetchFails := rfl
@[simp] theorem State.setQueue_caLines : (s.setQueue n x).caLines = s.caLines := rfl
@[simp] theorem State.setQueue_reclaim : (s.setQueue n x).reclaim = s.reclaim := rfl
@[simp] theorem State.setQueue_copies : (s.setQueue n x).copies = s.copies := rfl
@[simp] theorem State.setQueue_rangeLocks : (s.setQueue n x).rangeLocks = s.rangeLocks := rfl
@[simp] theorem State.setQueue_monitors : (s.setQueue n x).monitors = s.monitors := rfl
@[simp] theorem State.setQueue_locks : (s.setQueue n x).locks = s.locks := rfl
@[simp] theorem State.setQueue_promos : (s.setQueue n x).promos = s.promos := rfl
@[simp] theorem State.setQueue_cells : (s.setQueue n x).cells = s.cells := rfl
@[simp] theorem State.setQueue_messages : (s.setQueue n x).messages = s.messages := rfl
@[simp] theorem State.setQueue_reported : (s.setQueue n x).reported = s.reported := rfl
@[simp] theorem State.setQueue_events : (s.setQueue n x).events = s.events := rfl
@[simp] theorem State.setQueue_rows : (s.setQueue n x).rows = s.rows := rfl
@[simp] theorem State.setQueue_spared : (s.setQueue n x).spared = s.spared := rfl
@[simp] theorem State.setQueue_offlineRows : (s.setQueue n x).offlineRows = s.offlineRows := rfl
@[simp] theorem State.setQueue_drone : (s.setQueue n x).drone = s.drone := rfl
@[simp] theorem State.setQueue_checkpoints : (s.setQueue n x).checkpoints = s.checkpoints := rfl
@[simp] theorem State.setQueue_sinks : (s.setQueue n x).sinks = s.sinks := rfl
@[simp] theorem State.setQueue_tierLines : (s.setQueue n x).tierLines = s.tierLines := rfl
@[simp] theorem State.setQueue_linksDown : (s.setQueue n x).linksDown = s.linksDown := rfl
@[simp] theorem State.setQueue_hostDown : (s.setQueue n x).hostDown = s.hostDown := rfl
@[simp] theorem State.setQueue_msix : (s.setQueue n x).msix = s.msix := rfl
@[simp] theorem State.setQueue_updating : (s.setQueue n x).updating = s.updating := rfl
@[simp] theorem State.setQueue_watchdog : (s.setQueue n x).watchdog = s.watchdog := rfl
@[simp] theorem State.setQueue_hung : (s.setQueue n x).hung = s.hung := rfl
@[simp] theorem State.setQueue_inputPower : (s.setQueue n x).inputPower = s.inputPower := rfl
@[simp] theorem State.setQueue_slewed : (s.setQueue n x).slewed = s.slewed := rfl
@[simp] theorem State.setQueue_loadReports : (s.setQueue n x).loadReports = s.loadReports := rfl
@[simp] theorem State.setQueue_objects : (s.setQueue n x).objects = s.objects := rfl
@[simp] theorem State.setQueue_reply : (s.setQueue n x).reply = s.reply := rfl
@[simp] theorem State.setQueue_peerReply : (s.setQueue n x).peerReply = s.peerReply := rfl
@[simp] theorem State.setQueue_cur : (s.setQueue n x).cur = s.cur := rfl
@[simp] theorem State.setQueue_agenda : (s.setQueue n x).agenda = s.agenda := rfl
@[simp] theorem State.setQueue_nextId : (s.setQueue n x).nextId = s.nextId := rfl
@[simp] theorem State.setQueue_freeCtr : (s.setQueue n x).freeCtr = s.freeCtr := rfl
@[simp] theorem State.setQueue_jitter : (s.setQueue n x).jitter = s.jitter := rfl

end

section
variable (s : State) (n : Nat) (x : Tcb)

@[simp] theorem State.setTcb_gtc : (s.setTcb n x).gtc = s.gtc := rfl
@[simp] theorem State.setTcb_step : (s.setTcb n x).step = s.step := rfl
@[simp] theorem State.setTcb_bringUp : (s.setTcb n x).bringUp = s.bringUp := rfl
@[simp] theorem State.setTcb_smbus : (s.setTcb n x).smbus = s.smbus := rfl
@[simp] theorem State.setTcb_family : (s.setTcb n x).family = s.family := rfl
@[simp] theorem State.setTcb_stepLetter : (s.setTcb n x).stepLetter = s.stepLetter := rfl
@[simp] theorem State.setTcb_stepDigit : (s.setTcb n x).stepDigit = s.stepDigit := rfl
@[simp] theorem State.setTcb_domid : (s.setTcb n x).domid = s.domid := rfl
@[simp] theorem State.setTcb_qwin : (s.setTcb n x).qwin = s.qwin := rfl
@[simp] theorem State.setTcb_maxlat : (s.setTcb n x).maxlat = s.maxlat := rfl
@[simp] theorem State.setTcb_peerWindows : (s.setTcb n x).peerWindows = s.peerWindows := rfl
@[simp] theorem State.setTcb_absentModules : (s.setTcb n x).absentModules = s.absentModules := rfl
@[simp] theorem State.setTcb_peerKeys : (s.setTcb n x).peerKeys = s.peerKeys := rfl
@[simp] theorem State.setTcb_queues : (s.setTcb n x).queues = s.queues := rfl
@[simp] theorem State.setTcb_blocks : (s.setTcb n x).blocks = s.blocks := rfl
@[simp] theorem State.setTcb_groups : (s.setTcb n x).groups = s.groups := rfl
@[simp] theorem State.setTcb_fills : (s.setTcb n x).fills = s.fills := rfl
@[simp] theorem State.setTcb_pendings : (s.setTcb n x).pendings = s.pendings := rfl
@[simp] theorem State.setTcb_entries : (s.setTcb n x).entries = s.entries := rfl
@[simp] theorem State.setTcb_fields : (s.setTcb n x).fields = s.fields := rfl
@[simp] theorem State.setTcb_benches : (s.setTcb n x).benches = s.benches := rfl
@[simp] theorem State.setTcb_cores : (s.setTcb n x).cores = s.cores := rfl
@[simp] theorem State.setTcb_dies : (s.setTcb n x).dies = s.dies := rfl
@[simp] theorem State.setTcb_owners : (s.setTcb n x).owners = s.owners := rfl
@[simp] theorem State.setTcb_mem : (s.setTcb n x).mem = s.mem := rfl
@[simp] theorem State.setTcb_keys : (s.setTcb n x).keys = s.keys := rfl
@[simp] theorem State.setTcb_poison : (s.setTcb n x).poison = s.poison := rfl
@[simp] theorem State.setTcb_frames : (s.setTcb n x).frames = s.frames := rfl
@[simp] theorem State.setTcb_tlb : (s.setTcb n x).tlb = s.tlb := rfl
@[simp] theorem State.setTcb_icache : (s.setTcb n x).icache = s.icache := rfl
@[simp] theorem State.setTcb_fetchFails : (s.setTcb n x).fetchFails = s.fetchFails := rfl
@[simp] theorem State.setTcb_caLines : (s.setTcb n x).caLines = s.caLines := rfl
@[simp] theorem State.setTcb_reclaim : (s.setTcb n x).reclaim = s.reclaim := rfl
@[simp] theorem State.setTcb_copies : (s.setTcb n x).copies = s.copies := rfl
@[simp] theorem State.setTcb_rangeLocks : (s.setTcb n x).rangeLocks = s.rangeLocks := rfl
@[simp] theorem State.setTcb_monitors : (s.setTcb n x).monitors = s.monitors := rfl
@[simp] theorem State.setTcb_locks : (s.setTcb n x).locks = s.locks := rfl
@[simp] theorem State.setTcb_promos : (s.setTcb n x).promos = s.promos := rfl
@[simp] theorem State.setTcb_cells : (s.setTcb n x).cells = s.cells := rfl
@[simp] theorem State.setTcb_messages : (s.setTcb n x).messages = s.messages := rfl
@[simp] theorem State.setTcb_reported : (s.setTcb n x).reported = s.reported := rfl
@[simp] theorem State.setTcb_events : (s.setTcb n x).events = s.events := rfl
@[simp] theorem State.setTcb_rows : (s.setTcb n x).rows = s.rows := rfl
@[simp] theorem State.setTcb_spared : (s.setTcb n x).spared = s.spared := rfl
@[simp] theorem State.setTcb_offlineRows : (s.setTcb n x).offlineRows = s.offlineRows := rfl
@[simp] theorem State.setTcb_drone : (s.setTcb n x).drone = s.drone := rfl
@[simp] theorem State.setTcb_checkpoints : (s.setTcb n x).checkpoints = s.checkpoints := rfl
@[simp] theorem State.setTcb_sinks : (s.setTcb n x).sinks = s.sinks := rfl
@[simp] theorem State.setTcb_tierLines : (s.setTcb n x).tierLines = s.tierLines := rfl
@[simp] theorem State.setTcb_linksDown : (s.setTcb n x).linksDown = s.linksDown := rfl
@[simp] theorem State.setTcb_hostDown : (s.setTcb n x).hostDown = s.hostDown := rfl
@[simp] theorem State.setTcb_msix : (s.setTcb n x).msix = s.msix := rfl
@[simp] theorem State.setTcb_updating : (s.setTcb n x).updating = s.updating := rfl
@[simp] theorem State.setTcb_watchdog : (s.setTcb n x).watchdog = s.watchdog := rfl
@[simp] theorem State.setTcb_hung : (s.setTcb n x).hung = s.hung := rfl
@[simp] theorem State.setTcb_inputPower : (s.setTcb n x).inputPower = s.inputPower := rfl
@[simp] theorem State.setTcb_slewed : (s.setTcb n x).slewed = s.slewed := rfl
@[simp] theorem State.setTcb_loadReports : (s.setTcb n x).loadReports = s.loadReports := rfl
@[simp] theorem State.setTcb_objects : (s.setTcb n x).objects = s.objects := rfl
@[simp] theorem State.setTcb_reply : (s.setTcb n x).reply = s.reply := rfl
@[simp] theorem State.setTcb_peerReply : (s.setTcb n x).peerReply = s.peerReply := rfl
@[simp] theorem State.setTcb_cur : (s.setTcb n x).cur = s.cur := rfl
@[simp] theorem State.setTcb_agenda : (s.setTcb n x).agenda = s.agenda := rfl
@[simp] theorem State.setTcb_nextId : (s.setTcb n x).nextId = s.nextId := rfl
@[simp] theorem State.setTcb_freeCtr : (s.setTcb n x).freeCtr = s.freeCtr := rfl
@[simp] theorem State.setTcb_jitter : (s.setTcb n x).jitter = s.jitter := rfl

end

section
variable (s : State) (x : Group)

@[simp] theorem State.setGroup_gtc : (s.setGroup x).gtc = s.gtc := rfl
@[simp] theorem State.setGroup_step : (s.setGroup x).step = s.step := rfl
@[simp] theorem State.setGroup_bringUp : (s.setGroup x).bringUp = s.bringUp := rfl
@[simp] theorem State.setGroup_smbus : (s.setGroup x).smbus = s.smbus := rfl
@[simp] theorem State.setGroup_family : (s.setGroup x).family = s.family := rfl
@[simp] theorem State.setGroup_stepLetter : (s.setGroup x).stepLetter = s.stepLetter := rfl
@[simp] theorem State.setGroup_stepDigit : (s.setGroup x).stepDigit = s.stepDigit := rfl
@[simp] theorem State.setGroup_domid : (s.setGroup x).domid = s.domid := rfl
@[simp] theorem State.setGroup_qwin : (s.setGroup x).qwin = s.qwin := rfl
@[simp] theorem State.setGroup_maxlat : (s.setGroup x).maxlat = s.maxlat := rfl
@[simp] theorem State.setGroup_peerWindows : (s.setGroup x).peerWindows = s.peerWindows := rfl
@[simp] theorem State.setGroup_absentModules : (s.setGroup x).absentModules = s.absentModules := rfl
@[simp] theorem State.setGroup_peerKeys : (s.setGroup x).peerKeys = s.peerKeys := rfl
@[simp] theorem State.setGroup_queues : (s.setGroup x).queues = s.queues := rfl
@[simp] theorem State.setGroup_tcbs : (s.setGroup x).tcbs = s.tcbs := rfl
@[simp] theorem State.setGroup_blocks : (s.setGroup x).blocks = s.blocks := rfl
@[simp] theorem State.setGroup_fills : (s.setGroup x).fills = s.fills := rfl
@[simp] theorem State.setGroup_pendings : (s.setGroup x).pendings = s.pendings := rfl
@[simp] theorem State.setGroup_entries : (s.setGroup x).entries = s.entries := rfl
@[simp] theorem State.setGroup_fields : (s.setGroup x).fields = s.fields := rfl
@[simp] theorem State.setGroup_benches : (s.setGroup x).benches = s.benches := rfl
@[simp] theorem State.setGroup_cores : (s.setGroup x).cores = s.cores := rfl
@[simp] theorem State.setGroup_dies : (s.setGroup x).dies = s.dies := rfl
@[simp] theorem State.setGroup_owners : (s.setGroup x).owners = s.owners := rfl
@[simp] theorem State.setGroup_mem : (s.setGroup x).mem = s.mem := rfl
@[simp] theorem State.setGroup_keys : (s.setGroup x).keys = s.keys := rfl
@[simp] theorem State.setGroup_poison : (s.setGroup x).poison = s.poison := rfl
@[simp] theorem State.setGroup_frames : (s.setGroup x).frames = s.frames := rfl
@[simp] theorem State.setGroup_tlb : (s.setGroup x).tlb = s.tlb := rfl
@[simp] theorem State.setGroup_icache : (s.setGroup x).icache = s.icache := rfl
@[simp] theorem State.setGroup_fetchFails : (s.setGroup x).fetchFails = s.fetchFails := rfl
@[simp] theorem State.setGroup_caLines : (s.setGroup x).caLines = s.caLines := rfl
@[simp] theorem State.setGroup_reclaim : (s.setGroup x).reclaim = s.reclaim := rfl
@[simp] theorem State.setGroup_copies : (s.setGroup x).copies = s.copies := rfl
@[simp] theorem State.setGroup_rangeLocks : (s.setGroup x).rangeLocks = s.rangeLocks := rfl
@[simp] theorem State.setGroup_monitors : (s.setGroup x).monitors = s.monitors := rfl
@[simp] theorem State.setGroup_locks : (s.setGroup x).locks = s.locks := rfl
@[simp] theorem State.setGroup_promos : (s.setGroup x).promos = s.promos := rfl
@[simp] theorem State.setGroup_cells : (s.setGroup x).cells = s.cells := rfl
@[simp] theorem State.setGroup_messages : (s.setGroup x).messages = s.messages := rfl
@[simp] theorem State.setGroup_reported : (s.setGroup x).reported = s.reported := rfl
@[simp] theorem State.setGroup_events : (s.setGroup x).events = s.events := rfl
@[simp] theorem State.setGroup_rows : (s.setGroup x).rows = s.rows := rfl
@[simp] theorem State.setGroup_spared : (s.setGroup x).spared = s.spared := rfl
@[simp] theorem State.setGroup_offlineRows : (s.setGroup x).offlineRows = s.offlineRows := rfl
@[simp] theorem State.setGroup_drone : (s.setGroup x).drone = s.drone := rfl
@[simp] theorem State.setGroup_checkpoints : (s.setGroup x).checkpoints = s.checkpoints := rfl
@[simp] theorem State.setGroup_sinks : (s.setGroup x).sinks = s.sinks := rfl
@[simp] theorem State.setGroup_tierLines : (s.setGroup x).tierLines = s.tierLines := rfl
@[simp] theorem State.setGroup_linksDown : (s.setGroup x).linksDown = s.linksDown := rfl
@[simp] theorem State.setGroup_hostDown : (s.setGroup x).hostDown = s.hostDown := rfl
@[simp] theorem State.setGroup_msix : (s.setGroup x).msix = s.msix := rfl
@[simp] theorem State.setGroup_updating : (s.setGroup x).updating = s.updating := rfl
@[simp] theorem State.setGroup_watchdog : (s.setGroup x).watchdog = s.watchdog := rfl
@[simp] theorem State.setGroup_hung : (s.setGroup x).hung = s.hung := rfl
@[simp] theorem State.setGroup_inputPower : (s.setGroup x).inputPower = s.inputPower := rfl
@[simp] theorem State.setGroup_slewed : (s.setGroup x).slewed = s.slewed := rfl
@[simp] theorem State.setGroup_loadReports : (s.setGroup x).loadReports = s.loadReports := rfl
@[simp] theorem State.setGroup_objects : (s.setGroup x).objects = s.objects := rfl
@[simp] theorem State.setGroup_reply : (s.setGroup x).reply = s.reply := rfl
@[simp] theorem State.setGroup_peerReply : (s.setGroup x).peerReply = s.peerReply := rfl
@[simp] theorem State.setGroup_cur : (s.setGroup x).cur = s.cur := rfl
@[simp] theorem State.setGroup_agenda : (s.setGroup x).agenda = s.agenda := rfl
@[simp] theorem State.setGroup_nextId : (s.setGroup x).nextId = s.nextId := rfl
@[simp] theorem State.setGroup_freeCtr : (s.setGroup x).freeCtr = s.freeCtr := rfl
@[simp] theorem State.setGroup_jitter : (s.setGroup x).jitter = s.jitter := rfl

end

section
variable (s : State) (x : Block)

@[simp] theorem State.setBlock_gtc : (s.setBlock x).gtc = s.gtc := rfl
@[simp] theorem State.setBlock_step : (s.setBlock x).step = s.step := rfl
@[simp] theorem State.setBlock_bringUp : (s.setBlock x).bringUp = s.bringUp := rfl
@[simp] theorem State.setBlock_smbus : (s.setBlock x).smbus = s.smbus := rfl
@[simp] theorem State.setBlock_family : (s.setBlock x).family = s.family := rfl
@[simp] theorem State.setBlock_stepLetter : (s.setBlock x).stepLetter = s.stepLetter := rfl
@[simp] theorem State.setBlock_stepDigit : (s.setBlock x).stepDigit = s.stepDigit := rfl
@[simp] theorem State.setBlock_domid : (s.setBlock x).domid = s.domid := rfl
@[simp] theorem State.setBlock_qwin : (s.setBlock x).qwin = s.qwin := rfl
@[simp] theorem State.setBlock_maxlat : (s.setBlock x).maxlat = s.maxlat := rfl
@[simp] theorem State.setBlock_peerWindows : (s.setBlock x).peerWindows = s.peerWindows := rfl
@[simp] theorem State.setBlock_absentModules : (s.setBlock x).absentModules = s.absentModules := rfl
@[simp] theorem State.setBlock_peerKeys : (s.setBlock x).peerKeys = s.peerKeys := rfl
@[simp] theorem State.setBlock_queues : (s.setBlock x).queues = s.queues := rfl
@[simp] theorem State.setBlock_tcbs : (s.setBlock x).tcbs = s.tcbs := rfl
@[simp] theorem State.setBlock_groups : (s.setBlock x).groups = s.groups := rfl
@[simp] theorem State.setBlock_fills : (s.setBlock x).fills = s.fills := rfl
@[simp] theorem State.setBlock_pendings : (s.setBlock x).pendings = s.pendings := rfl
@[simp] theorem State.setBlock_entries : (s.setBlock x).entries = s.entries := rfl
@[simp] theorem State.setBlock_fields : (s.setBlock x).fields = s.fields := rfl
@[simp] theorem State.setBlock_benches : (s.setBlock x).benches = s.benches := rfl
@[simp] theorem State.setBlock_cores : (s.setBlock x).cores = s.cores := rfl
@[simp] theorem State.setBlock_dies : (s.setBlock x).dies = s.dies := rfl
@[simp] theorem State.setBlock_owners : (s.setBlock x).owners = s.owners := rfl
@[simp] theorem State.setBlock_mem : (s.setBlock x).mem = s.mem := rfl
@[simp] theorem State.setBlock_keys : (s.setBlock x).keys = s.keys := rfl
@[simp] theorem State.setBlock_poison : (s.setBlock x).poison = s.poison := rfl
@[simp] theorem State.setBlock_frames : (s.setBlock x).frames = s.frames := rfl
@[simp] theorem State.setBlock_tlb : (s.setBlock x).tlb = s.tlb := rfl
@[simp] theorem State.setBlock_icache : (s.setBlock x).icache = s.icache := rfl
@[simp] theorem State.setBlock_fetchFails : (s.setBlock x).fetchFails = s.fetchFails := rfl
@[simp] theorem State.setBlock_caLines : (s.setBlock x).caLines = s.caLines := rfl
@[simp] theorem State.setBlock_reclaim : (s.setBlock x).reclaim = s.reclaim := rfl
@[simp] theorem State.setBlock_copies : (s.setBlock x).copies = s.copies := rfl
@[simp] theorem State.setBlock_rangeLocks : (s.setBlock x).rangeLocks = s.rangeLocks := rfl
@[simp] theorem State.setBlock_monitors : (s.setBlock x).monitors = s.monitors := rfl
@[simp] theorem State.setBlock_locks : (s.setBlock x).locks = s.locks := rfl
@[simp] theorem State.setBlock_promos : (s.setBlock x).promos = s.promos := rfl
@[simp] theorem State.setBlock_cells : (s.setBlock x).cells = s.cells := rfl
@[simp] theorem State.setBlock_messages : (s.setBlock x).messages = s.messages := rfl
@[simp] theorem State.setBlock_reported : (s.setBlock x).reported = s.reported := rfl
@[simp] theorem State.setBlock_events : (s.setBlock x).events = s.events := rfl
@[simp] theorem State.setBlock_rows : (s.setBlock x).rows = s.rows := rfl
@[simp] theorem State.setBlock_spared : (s.setBlock x).spared = s.spared := rfl
@[simp] theorem State.setBlock_offlineRows : (s.setBlock x).offlineRows = s.offlineRows := rfl
@[simp] theorem State.setBlock_drone : (s.setBlock x).drone = s.drone := rfl
@[simp] theorem State.setBlock_checkpoints : (s.setBlock x).checkpoints = s.checkpoints := rfl
@[simp] theorem State.setBlock_sinks : (s.setBlock x).sinks = s.sinks := rfl
@[simp] theorem State.setBlock_tierLines : (s.setBlock x).tierLines = s.tierLines := rfl
@[simp] theorem State.setBlock_linksDown : (s.setBlock x).linksDown = s.linksDown := rfl
@[simp] theorem State.setBlock_hostDown : (s.setBlock x).hostDown = s.hostDown := rfl
@[simp] theorem State.setBlock_msix : (s.setBlock x).msix = s.msix := rfl
@[simp] theorem State.setBlock_updating : (s.setBlock x).updating = s.updating := rfl
@[simp] theorem State.setBlock_watchdog : (s.setBlock x).watchdog = s.watchdog := rfl
@[simp] theorem State.setBlock_hung : (s.setBlock x).hung = s.hung := rfl
@[simp] theorem State.setBlock_inputPower : (s.setBlock x).inputPower = s.inputPower := rfl
@[simp] theorem State.setBlock_slewed : (s.setBlock x).slewed = s.slewed := rfl
@[simp] theorem State.setBlock_loadReports : (s.setBlock x).loadReports = s.loadReports := rfl
@[simp] theorem State.setBlock_objects : (s.setBlock x).objects = s.objects := rfl
@[simp] theorem State.setBlock_reply : (s.setBlock x).reply = s.reply := rfl
@[simp] theorem State.setBlock_peerReply : (s.setBlock x).peerReply = s.peerReply := rfl
@[simp] theorem State.setBlock_cur : (s.setBlock x).cur = s.cur := rfl
@[simp] theorem State.setBlock_agenda : (s.setBlock x).agenda = s.agenda := rfl
@[simp] theorem State.setBlock_nextId : (s.setBlock x).nextId = s.nextId := rfl
@[simp] theorem State.setBlock_freeCtr : (s.setBlock x).freeCtr = s.freeCtr := rfl
@[simp] theorem State.setBlock_jitter : (s.setBlock x).jitter = s.jitter := rfl

end

section
variable (s : State) (r : GroupRef) (k : Group → Group)

@[simp] theorem State.modGroup_gtc : (s.modGroup r k).gtc = s.gtc := rfl
@[simp] theorem State.modGroup_step : (s.modGroup r k).step = s.step := rfl
@[simp] theorem State.modGroup_bringUp : (s.modGroup r k).bringUp = s.bringUp := rfl
@[simp] theorem State.modGroup_smbus : (s.modGroup r k).smbus = s.smbus := rfl
@[simp] theorem State.modGroup_family : (s.modGroup r k).family = s.family := rfl
@[simp] theorem State.modGroup_stepLetter : (s.modGroup r k).stepLetter = s.stepLetter := rfl
@[simp] theorem State.modGroup_stepDigit : (s.modGroup r k).stepDigit = s.stepDigit := rfl
@[simp] theorem State.modGroup_domid : (s.modGroup r k).domid = s.domid := rfl
@[simp] theorem State.modGroup_qwin : (s.modGroup r k).qwin = s.qwin := rfl
@[simp] theorem State.modGroup_maxlat : (s.modGroup r k).maxlat = s.maxlat := rfl
@[simp] theorem State.modGroup_peerWindows : (s.modGroup r k).peerWindows = s.peerWindows := rfl
@[simp] theorem State.modGroup_absentModules : (s.modGroup r k).absentModules = s.absentModules := rfl
@[simp] theorem State.modGroup_peerKeys : (s.modGroup r k).peerKeys = s.peerKeys := rfl
@[simp] theorem State.modGroup_queues : (s.modGroup r k).queues = s.queues := rfl
@[simp] theorem State.modGroup_tcbs : (s.modGroup r k).tcbs = s.tcbs := rfl
@[simp] theorem State.modGroup_blocks : (s.modGroup r k).blocks = s.blocks := rfl
@[simp] theorem State.modGroup_fills : (s.modGroup r k).fills = s.fills := rfl
@[simp] theorem State.modGroup_pendings : (s.modGroup r k).pendings = s.pendings := rfl
@[simp] theorem State.modGroup_entries : (s.modGroup r k).entries = s.entries := rfl
@[simp] theorem State.modGroup_fields : (s.modGroup r k).fields = s.fields := rfl
@[simp] theorem State.modGroup_benches : (s.modGroup r k).benches = s.benches := rfl
@[simp] theorem State.modGroup_cores : (s.modGroup r k).cores = s.cores := rfl
@[simp] theorem State.modGroup_dies : (s.modGroup r k).dies = s.dies := rfl
@[simp] theorem State.modGroup_owners : (s.modGroup r k).owners = s.owners := rfl
@[simp] theorem State.modGroup_mem : (s.modGroup r k).mem = s.mem := rfl
@[simp] theorem State.modGroup_keys : (s.modGroup r k).keys = s.keys := rfl
@[simp] theorem State.modGroup_poison : (s.modGroup r k).poison = s.poison := rfl
@[simp] theorem State.modGroup_frames : (s.modGroup r k).frames = s.frames := rfl
@[simp] theorem State.modGroup_tlb : (s.modGroup r k).tlb = s.tlb := rfl
@[simp] theorem State.modGroup_icache : (s.modGroup r k).icache = s.icache := rfl
@[simp] theorem State.modGroup_fetchFails : (s.modGroup r k).fetchFails = s.fetchFails := rfl
@[simp] theorem State.modGroup_caLines : (s.modGroup r k).caLines = s.caLines := rfl
@[simp] theorem State.modGroup_reclaim : (s.modGroup r k).reclaim = s.reclaim := rfl
@[simp] theorem State.modGroup_copies : (s.modGroup r k).copies = s.copies := rfl
@[simp] theorem State.modGroup_rangeLocks : (s.modGroup r k).rangeLocks = s.rangeLocks := rfl
@[simp] theorem State.modGroup_monitors : (s.modGroup r k).monitors = s.monitors := rfl
@[simp] theorem State.modGroup_locks : (s.modGroup r k).locks = s.locks := rfl
@[simp] theorem State.modGroup_promos : (s.modGroup r k).promos = s.promos := rfl
@[simp] theorem State.modGroup_cells : (s.modGroup r k).cells = s.cells := rfl
@[simp] theorem State.modGroup_messages : (s.modGroup r k).messages = s.messages := rfl
@[simp] theorem State.modGroup_reported : (s.modGroup r k).reported = s.reported := rfl
@[simp] theorem State.modGroup_events : (s.modGroup r k).events = s.events := rfl
@[simp] theorem State.modGroup_rows : (s.modGroup r k).rows = s.rows := rfl
@[simp] theorem State.modGroup_spared : (s.modGroup r k).spared = s.spared := rfl
@[simp] theorem State.modGroup_offlineRows : (s.modGroup r k).offlineRows = s.offlineRows := rfl
@[simp] theorem State.modGroup_drone : (s.modGroup r k).drone = s.drone := rfl
@[simp] theorem State.modGroup_checkpoints : (s.modGroup r k).checkpoints = s.checkpoints := rfl
@[simp] theorem State.modGroup_sinks : (s.modGroup r k).sinks = s.sinks := rfl
@[simp] theorem State.modGroup_tierLines : (s.modGroup r k).tierLines = s.tierLines := rfl
@[simp] theorem State.modGroup_linksDown : (s.modGroup r k).linksDown = s.linksDown := rfl
@[simp] theorem State.modGroup_hostDown : (s.modGroup r k).hostDown = s.hostDown := rfl
@[simp] theorem State.modGroup_msix : (s.modGroup r k).msix = s.msix := rfl
@[simp] theorem State.modGroup_updating : (s.modGroup r k).updating = s.updating := rfl
@[simp] theorem State.modGroup_watchdog : (s.modGroup r k).watchdog = s.watchdog := rfl
@[simp] theorem State.modGroup_hung : (s.modGroup r k).hung = s.hung := rfl
@[simp] theorem State.modGroup_inputPower : (s.modGroup r k).inputPower = s.inputPower := rfl
@[simp] theorem State.modGroup_slewed : (s.modGroup r k).slewed = s.slewed := rfl
@[simp] theorem State.modGroup_loadReports : (s.modGroup r k).loadReports = s.loadReports := rfl
@[simp] theorem State.modGroup_objects : (s.modGroup r k).objects = s.objects := rfl
@[simp] theorem State.modGroup_reply : (s.modGroup r k).reply = s.reply := rfl
@[simp] theorem State.modGroup_peerReply : (s.modGroup r k).peerReply = s.peerReply := rfl
@[simp] theorem State.modGroup_cur : (s.modGroup r k).cur = s.cur := rfl
@[simp] theorem State.modGroup_agenda : (s.modGroup r k).agenda = s.agenda := rfl
@[simp] theorem State.modGroup_nextId : (s.modGroup r k).nextId = s.nextId := rfl
@[simp] theorem State.modGroup_freeCtr : (s.modGroup r k).freeCtr = s.freeCtr := rfl
@[simp] theorem State.modGroup_jitter : (s.modGroup r k).jitter = s.jitter := rfl

end

section
variable (s : State) (r : BlockRef) (k : Block → Block)

@[simp] theorem State.modBlock_gtc : (s.modBlock r k).gtc = s.gtc := rfl
@[simp] theorem State.modBlock_step : (s.modBlock r k).step = s.step := rfl
@[simp] theorem State.modBlock_bringUp : (s.modBlock r k).bringUp = s.bringUp := rfl
@[simp] theorem State.modBlock_smbus : (s.modBlock r k).smbus = s.smbus := rfl
@[simp] theorem State.modBlock_family : (s.modBlock r k).family = s.family := rfl
@[simp] theorem State.modBlock_stepLetter : (s.modBlock r k).stepLetter = s.stepLetter := rfl
@[simp] theorem State.modBlock_stepDigit : (s.modBlock r k).stepDigit = s.stepDigit := rfl
@[simp] theorem State.modBlock_domid : (s.modBlock r k).domid = s.domid := rfl
@[simp] theorem State.modBlock_qwin : (s.modBlock r k).qwin = s.qwin := rfl
@[simp] theorem State.modBlock_maxlat : (s.modBlock r k).maxlat = s.maxlat := rfl
@[simp] theorem State.modBlock_peerWindows : (s.modBlock r k).peerWindows = s.peerWindows := rfl
@[simp] theorem State.modBlock_absentModules : (s.modBlock r k).absentModules = s.absentModules := rfl
@[simp] theorem State.modBlock_peerKeys : (s.modBlock r k).peerKeys = s.peerKeys := rfl
@[simp] theorem State.modBlock_queues : (s.modBlock r k).queues = s.queues := rfl
@[simp] theorem State.modBlock_tcbs : (s.modBlock r k).tcbs = s.tcbs := rfl
@[simp] theorem State.modBlock_groups : (s.modBlock r k).groups = s.groups := rfl
@[simp] theorem State.modBlock_fills : (s.modBlock r k).fills = s.fills := rfl
@[simp] theorem State.modBlock_pendings : (s.modBlock r k).pendings = s.pendings := rfl
@[simp] theorem State.modBlock_entries : (s.modBlock r k).entries = s.entries := rfl
@[simp] theorem State.modBlock_fields : (s.modBlock r k).fields = s.fields := rfl
@[simp] theorem State.modBlock_benches : (s.modBlock r k).benches = s.benches := rfl
@[simp] theorem State.modBlock_cores : (s.modBlock r k).cores = s.cores := rfl
@[simp] theorem State.modBlock_dies : (s.modBlock r k).dies = s.dies := rfl
@[simp] theorem State.modBlock_owners : (s.modBlock r k).owners = s.owners := rfl
@[simp] theorem State.modBlock_mem : (s.modBlock r k).mem = s.mem := rfl
@[simp] theorem State.modBlock_keys : (s.modBlock r k).keys = s.keys := rfl
@[simp] theorem State.modBlock_poison : (s.modBlock r k).poison = s.poison := rfl
@[simp] theorem State.modBlock_frames : (s.modBlock r k).frames = s.frames := rfl
@[simp] theorem State.modBlock_tlb : (s.modBlock r k).tlb = s.tlb := rfl
@[simp] theorem State.modBlock_icache : (s.modBlock r k).icache = s.icache := rfl
@[simp] theorem State.modBlock_fetchFails : (s.modBlock r k).fetchFails = s.fetchFails := rfl
@[simp] theorem State.modBlock_caLines : (s.modBlock r k).caLines = s.caLines := rfl
@[simp] theorem State.modBlock_reclaim : (s.modBlock r k).reclaim = s.reclaim := rfl
@[simp] theorem State.modBlock_copies : (s.modBlock r k).copies = s.copies := rfl
@[simp] theorem State.modBlock_rangeLocks : (s.modBlock r k).rangeLocks = s.rangeLocks := rfl
@[simp] theorem State.modBlock_monitors : (s.modBlock r k).monitors = s.monitors := rfl
@[simp] theorem State.modBlock_locks : (s.modBlock r k).locks = s.locks := rfl
@[simp] theorem State.modBlock_promos : (s.modBlock r k).promos = s.promos := rfl
@[simp] theorem State.modBlock_cells : (s.modBlock r k).cells = s.cells := rfl
@[simp] theorem State.modBlock_messages : (s.modBlock r k).messages = s.messages := rfl
@[simp] theorem State.modBlock_reported : (s.modBlock r k).reported = s.reported := rfl
@[simp] theorem State.modBlock_events : (s.modBlock r k).events = s.events := rfl
@[simp] theorem State.modBlock_rows : (s.modBlock r k).rows = s.rows := rfl
@[simp] theorem State.modBlock_spared : (s.modBlock r k).spared = s.spared := rfl
@[simp] theorem State.modBlock_offlineRows : (s.modBlock r k).offlineRows = s.offlineRows := rfl
@[simp] theorem State.modBlock_drone : (s.modBlock r k).drone = s.drone := rfl
@[simp] theorem State.modBlock_checkpoints : (s.modBlock r k).checkpoints = s.checkpoints := rfl
@[simp] theorem State.modBlock_sinks : (s.modBlock r k).sinks = s.sinks := rfl
@[simp] theorem State.modBlock_tierLines : (s.modBlock r k).tierLines = s.tierLines := rfl
@[simp] theorem State.modBlock_linksDown : (s.modBlock r k).linksDown = s.linksDown := rfl
@[simp] theorem State.modBlock_hostDown : (s.modBlock r k).hostDown = s.hostDown := rfl
@[simp] theorem State.modBlock_msix : (s.modBlock r k).msix = s.msix := rfl
@[simp] theorem State.modBlock_updating : (s.modBlock r k).updating = s.updating := rfl
@[simp] theorem State.modBlock_watchdog : (s.modBlock r k).watchdog = s.watchdog := rfl
@[simp] theorem State.modBlock_hung : (s.modBlock r k).hung = s.hung := rfl
@[simp] theorem State.modBlock_inputPower : (s.modBlock r k).inputPower = s.inputPower := rfl
@[simp] theorem State.modBlock_slewed : (s.modBlock r k).slewed = s.slewed := rfl
@[simp] theorem State.modBlock_loadReports : (s.modBlock r k).loadReports = s.loadReports := rfl
@[simp] theorem State.modBlock_objects : (s.modBlock r k).objects = s.objects := rfl
@[simp] theorem State.modBlock_reply : (s.modBlock r k).reply = s.reply := rfl
@[simp] theorem State.modBlock_peerReply : (s.modBlock r k).peerReply = s.peerReply := rfl
@[simp] theorem State.modBlock_cur : (s.modBlock r k).cur = s.cur := rfl
@[simp] theorem State.modBlock_agenda : (s.modBlock r k).agenda = s.agenda := rfl
@[simp] theorem State.modBlock_nextId : (s.modBlock r k).nextId = s.nextId := rfl
@[simp] theorem State.modBlock_freeCtr : (s.modBlock r k).freeCtr = s.freeCtr := rfl
@[simp] theorem State.modBlock_jitter : (s.modBlock r k).jitter = s.jitter := rfl

end

/-! ### Reads after writes -/

@[simp] theorem State.field_setField_same (s : State) (n : Nat) (x : Field) : (s.setField n x).field n = x := tget_tset_same _ _ _ _
theorem State.field_setField_other (s : State) {n m : Nat} (x : Field) (h : n ≠ m) : (s.setField n x).field m = s.field m :=
  tget_tset_other _ _ _ h

@[simp] theorem State.bench_setBench_same (s : State) (n : Nat) (x : Bench) : (s.setBench n x).bench n = x := tget_tset_same _ _ _ _
theorem State.bench_setBench_other (s : State) {n m : Nat} (x : Bench) (h : n ≠ m) : (s.setBench n x).bench m = s.bench m :=
  tget_tset_other _ _ _ h

@[simp] theorem State.core_setCore_same (s : State) (n : Nat) (x : Core) : (s.setCore n x).core n = x := tget_tset_same _ _ _ _
theorem State.core_setCore_other (s : State) {n m : Nat} (x : Core) (h : n ≠ m) : (s.setCore n x).core m = s.core m :=
  tget_tset_other _ _ _ h

@[simp] theorem State.die_setDie_same (s : State) (n : Nat) (x : Die) : (s.setDie n x).die n = x := tget_tset_same _ _ _ _
theorem State.die_setDie_other (s : State) {n m : Nat} (x : Die) (h : n ≠ m) : (s.setDie n x).die m = s.die m :=
  tget_tset_other _ _ _ h

@[simp] theorem State.owner_setOwner_same (s : State) (n : Nat) (x : Owner) : (s.setOwner n x).owner n = x := tget_tset_same _ _ _ _
theorem State.owner_setOwner_other (s : State) {n m : Nat} (x : Owner) (h : n ≠ m) : (s.setOwner n x).owner m = s.owner m :=
  tget_tset_other _ _ _ h

@[simp] theorem State.queue_setQueue_same (s : State) (n : Nat) (x : Queue) : (s.setQueue n x).queue n = x := tget_tset_same _ _ _ _
theorem State.queue_setQueue_other (s : State) {n m : Nat} (x : Queue) (h : n ≠ m) : (s.setQueue n x).queue m = s.queue m :=
  tget_tset_other _ _ _ h

@[simp] theorem State.tcb_setTcb_same (s : State) (n : Nat) (x : Tcb) : (s.setTcb n x).tcb n = x := tget_tset_same _ _ _ _
theorem State.tcb_setTcb_other (s : State) {n m : Nat} (x : Tcb) (h : n ≠ m) : (s.setTcb n x).tcb m = s.tcb m :=
  tget_tset_other _ _ _ h

/-- Replacing a group of the same name leaves every other as it was. -/
theorem findGroup_putGroup_other (gs : List Group) (g : Group) {r : GroupRef} (h : g.ref ≠ r) :
    findGroup (putGroup gs g) r = findGroup gs r := by
  induction gs with
  | nil => rfl
  | cons x gs ih =>
    unfold putGroup findGroup at *
    by_cases hx : x.ref = g.ref
    · simp [hx, h, ih]
    · by_cases hr : x.ref = r
      · subst hr
        simp [hx]
      · simp [hx, hr, ih]

theorem findGroup_putGroup_same (gs : List Group) (g : Group) (h : (findGroup gs g.ref).isSome = true) :
    findGroup (putGroup gs g) g.ref = some g := by
  induction gs with
  | nil => cases h
  | cons x gs ih =>
    unfold putGroup findGroup at *
    by_cases hx : x.ref = g.ref
    · simp [hx]
    · simp only [List.find?_cons, hx, decide_false] at h
      simpa [List.find?_cons, hx] using ih h

theorem findBlock_putBlock_other (bs : List Block) (b : Block) {r : BlockRef} (h : b.ref ≠ r) :
    findBlock (putBlock bs b) r = findBlock bs r := by
  induction bs with
  | nil => rfl
  | cons x bs ih =>
    unfold putBlock findBlock at *
    by_cases hx : x.ref = b.ref
    · simp [hx, h, ih]
    · by_cases hr : x.ref = r
      · subst hr
        simp [hx]
      · simp [hx, hr, ih]

theorem findBlock_putBlock_same (bs : List Block) (b : Block) (h : (findBlock bs b.ref).isSome = true) :
    findBlock (putBlock bs b) b.ref = some b := by
  induction bs with
  | nil => cases h
  | cons x bs ih =>
    unfold putBlock findBlock at *
    by_cases hx : x.ref = b.ref
    · simp [hx]
    · simp only [List.find?_cons, hx, decide_false] at h
      simpa [List.find?_cons, hx] using ih h

theorem State.group?_setGroup_other (s : State) (g : Group) {r : GroupRef} (h : g.ref ≠ r) :
    (s.setGroup g).group? r = s.group? r := findGroup_putGroup_other _ g h
theorem State.group?_setGroup_same (s : State) (g : Group) (h : (s.group? g.ref).isSome = true) :
    (s.setGroup g).group? g.ref = some g := findGroup_putGroup_same _ g h
theorem State.block?_setBlock_other (s : State) (b : Block) {r : BlockRef} (h : b.ref ≠ r) :
    (s.setBlock b).block? r = s.block? r := findBlock_putBlock_other _ b h
theorem State.block?_setBlock_same (s : State) (b : Block) (h : (s.block? b.ref).isSome = true) :
    (s.setBlock b).block? b.ref = some b := findBlock_putBlock_same _ b h

/-! ### The registers of a group -/

section
variable (a : Arch) (n m : Nat)

@[simp] theorem Arch.setK_v (x : W32) : (a.setK n x).v = a.v := rfl
@[simp] theorem Arch.setS_v (r : UReg) : (a.setS n r).v = a.v := by unfold Arch.setS; split <;> rfl
@[simp] theorem Arch.setV_s (r : VReg) : (a.setV n r).s = a.s := rfl
@[simp] theorem Arch.setK_s (x : W32) : (a.setK n x).s = a.s := rfl
@[simp] theorem Arch.setV_k (r : VReg) : (a.setV n r).k = a.k := rfl
@[simp] theorem Arch.setS_k (r : UReg) : (a.setS n r).k = a.k := by unfold Arch.setS; split <;> rfl
@[simp] theorem Arch.setV_pc (r : VReg) : (a.setV n r).pc = a.pc := rfl
@[simp] theorem Arch.setK_pc (x : W32) : (a.setK n x).pc = a.pc := rfl
@[simp] theorem Arch.setS_pc (r : UReg) : (a.setS n r).pc = a.pc := by unfold Arch.setS; split <;> rfl
@[simp] theorem Arch.setV_run (r : VReg) : (a.setV n r).run = a.run := rfl
@[simp] theorem Arch.setK_run (x : W32) : (a.setK n x).run = a.run := rfl
@[simp] theorem Arch.setS_run (r : UReg) : (a.setS n r).run = a.run := by unfold Arch.setS; split <;> rfl
@[simp] theorem Arch.setV_stack (r : VReg) : (a.setV n r).stack = a.stack := rfl
@[simp] theorem Arch.setK_stack (x : W32) : (a.setK n x).stack = a.stack := rfl
@[simp] theorem Arch.setS_stack (r : UReg) : (a.setS n r).stack = a.stack := by unfold Arch.setS; split <;> rfl
@[simp] theorem Arch.setV_spilled (r : VReg) : (a.setV n r).spilled = a.spilled := rfl
@[simp] theorem Arch.setK_spilled (x : W32) : (a.setK n x).spilled = a.spilled := rfl
@[simp] theorem Arch.setS_spilled (r : UReg) : (a.setS n r).spilled = a.spilled := by unfold Arch.setS; split <;> rfl
@[simp] theorem Arch.setV_fmode (r : VReg) : (a.setV n r).fmode = a.fmode := rfl
@[simp] theorem Arch.setK_fmode (x : W32) : (a.setK n x).fmode = a.fmode := rfl
@[simp] theorem Arch.setS_fmode (r : UReg) : (a.setS n r).fmode = a.fmode := by unfold Arch.setS; split <;> rfl
@[simp] theorem Arch.setV_vwb (r : VReg) : (a.setV n r).vwb = a.vwb := rfl
@[simp] theorem Arch.setK_vwb (x : W32) : (a.setK n x).vwb = a.vwb := rfl
@[simp] theorem Arch.setS_vwb (r : UReg) : (a.setS n r).vwb = a.vwb := by unfold Arch.setS; split <;> rfl
@[simp] theorem Arch.setV_swb (r : VReg) : (a.setV n r).swb = a.swb := rfl
@[simp] theorem Arch.setK_swb (x : W32) : (a.setK n x).swb = a.swb := rfl
@[simp] theorem Arch.setS_swb (r : UReg) : (a.setS n r).swb = a.swb := by unfold Arch.setS; split <;> rfl
@[simp] theorem Arch.setV_handler (r : VReg) : (a.setV n r).handler = a.handler := rfl
@[simp] theorem Arch.setK_handler (x : W32) : (a.setK n x).handler = a.handler := rfl
@[simp] theorem Arch.setS_handler (r : UReg) : (a.setS n r).handler = a.handler := by unfold Arch.setS; split <;> rfl
@[simp] theorem Arch.setV_entryRun (r : VReg) : (a.setV n r).entryRun = a.entryRun := rfl
@[simp] theorem Arch.setK_entryRun (x : W32) : (a.setK n x).entryRun = a.entryRun := rfl
@[simp] theorem Arch.setS_entryRun (r : UReg) : (a.setS n r).entryRun = a.entryRun := by unfold Arch.setS; split <;> rfl
@[simp] theorem Arch.setV_cursor (r : VReg) : (a.setV n r).cursor = a.cursor := rfl
@[simp] theorem Arch.setK_cursor (x : W32) : (a.setK n x).cursor = a.cursor := rfl
@[simp] theorem Arch.setS_cursor (r : UReg) : (a.setS n r).cursor = a.cursor := by unfold Arch.setS; split <;> rfl
@[simp] theorem Arch.setV_spillMark (r : VReg) : (a.setV n r).spillMark = a.spillMark := rfl
@[simp] theorem Arch.setK_spillMark (x : W32) : (a.setK n x).spillMark = a.spillMark := rfl
@[simp] theorem Arch.setS_spillMark (r : UReg) : (a.setS n r).spillMark = a.spillMark := by unfold Arch.setS; split <;> rfl
@[simp] theorem Arch.setV_deferred (r : VReg) : (a.setV n r).deferred = a.deferred := rfl
@[simp] theorem Arch.setK_deferred (x : W32) : (a.setK n x).deferred = a.deferred := rfl
@[simp] theorem Arch.setS_deferred (r : UReg) : (a.setS n r).deferred = a.deferred := by unfold Arch.setS; split <;> rfl

@[simp] theorem Arch.setS_zero (r : UReg) : a.setS 0 r = a := rfl
@[simp] theorem Arch.vreg_setV_same (r : VReg) : (a.setV n r).vreg n = r := tget_tset_same _ _ _ _
@[simp] theorem Arch.kreg_setK_same (x : W32) : (a.setK n x).kreg n = x := tget_tset_same _ _ _ _
@[simp] theorem Arch.ureg_setV (r : VReg) : (a.setV n r).ureg m = a.ureg m := rfl
@[simp] theorem Arch.kreg_setV (r : VReg) : (a.setV n r).kreg m = a.kreg m := rfl
@[simp] theorem Arch.ureg_setK (x : W32) : (a.setK n x).ureg m = a.ureg m := rfl
@[simp] theorem Arch.vreg_setK (x : W32) : (a.setK n x).vreg m = a.vreg m := rfl
theorem Arch.vreg_setV_other (r : VReg) (h : n ≠ m) : (a.setV n r).vreg m = a.vreg m := tget_tset_other _ _ _ h
theorem Arch.kreg_setK_other (x : W32) (h : n ≠ m) : (a.setK n x).kreg m = a.kreg m := tget_tset_other _ _ _ h

/-- R158: a uniform register but s0 reads as it was written, and no other changes. -/
theorem Arch.ureg_setS (r : UReg) (h : n ≠ 0) : (a.setS n r).ureg m = if n = m then r else a.ureg m := by
  unfold Arch.setS Arch.ureg
  rw [if_neg h]
  by_cases hm : n = m
  · subst hm
    simp [tget_tset_same]
  · simp [hm, tget_tset_other _ _ _ hm]

end

/-! ### The environment of an issue -/

section
variable (e : Env)

@[simp] theorem Env.setArch_s (a : Arch) : (e.setArch a).s = e.s := rfl
@[simp] theorem Env.setPc_s (n : Nat) : (e.setPc n).s = e.s := rfl
@[simp] theorem Env.modRegion_s (k : Region → Region) : (e.modRegion k).s = e.s := rfl
@[simp] theorem Env.withPasses_s (n : Nat) : (e.withPasses n).s = e.s := rfl
@[simp] theorem Env.setS_g (s : State) : (e.setS s).g = e.g := rfl
@[simp] theorem Env.withPasses_g (n : Nat) : (e.withPasses n).g = e.g := rfl
@[simp] theorem Env.setArch_b (a : Arch) : (e.setArch a).b = e.b := rfl
@[simp] theorem Env.setPc_b (n : Nat) : (e.setPc n).b = e.b := rfl
@[simp] theorem Env.modRegion_b (k : Region → Region) : (e.modRegion k).b = e.b := rfl
@[simp] theorem Env.setS_b (s : State) : (e.setS s).b = e.b := rfl
@[simp] theorem Env.withPasses_b (n : Nat) : (e.withPasses n).b = e.b := rfl
@[simp] theorem Env.setArch_addr (a : Arch) : (e.setArch a).addr = e.addr := rfl
@[simp] theorem Env.setPc_addr (n : Nat) : (e.setPc n).addr = e.addr := rfl
@[simp] theorem Env.modRegion_addr (k : Region → Region) : (e.modRegion k).addr = e.addr := rfl
@[simp] theorem Env.setS_addr (s : State) : (e.setS s).addr = e.addr := rfl
@[simp] theorem Env.withPasses_addr (n : Nat) : (e.withPasses n).addr = e.addr := rfl
@[simp] theorem Env.setArch_len (a : Arch) : (e.setArch a).len = e.len := rfl
@[simp] theorem Env.setPc_len (n : Nat) : (e.setPc n).len = e.len := rfl
@[simp] theorem Env.modRegion_len (k : Region → Region) : (e.modRegion k).len = e.len := rfl
@[simp] theorem Env.setS_len (s : State) : (e.setS s).len = e.len := rfl
@[simp] theorem Env.withPasses_len (n : Nat) : (e.withPasses n).len = e.len := rfl
@[simp] theorem Env.setArch_fromC (a : Arch) : (e.setArch a).fromC = e.fromC := rfl
@[simp] theorem Env.setPc_fromC (n : Nat) : (e.setPc n).fromC = e.fromC := rfl
@[simp] theorem Env.modRegion_fromC (k : Region → Region) : (e.modRegion k).fromC = e.fromC := rfl
@[simp] theorem Env.setS_fromC (s : State) : (e.setS s).fromC = e.fromC := rfl
@[simp] theorem Env.withPasses_fromC (n : Nat) : (e.withPasses n).fromC = e.fromC := rfl
@[simp] theorem Env.setArch_passes (a : Arch) : (e.setArch a).passes = e.passes := rfl
@[simp] theorem Env.setPc_passes (n : Nat) : (e.setPc n).passes = e.passes := rfl
@[simp] theorem Env.modRegion_passes (k : Region → Region) : (e.modRegion k).passes = e.passes := rfl
@[simp] theorem Env.setS_passes (s : State) : (e.setS s).passes = e.passes := rfl
@[simp] theorem Env.setS_s (s : State) : (e.setS s).s = s := rfl
@[simp] theorem Env.setArch_arch (a : Arch) : (e.setArch a).g.arch = a := rfl
@[simp] theorem Env.setArch_ref (a : Arch) : (e.setArch a).g.ref = e.g.ref := rfl
@[simp] theorem Env.setArch_regions (a : Arch) : (e.setArch a).g.regions = e.g.regions := rfl
@[simp] theorem Env.modRegion_arch (k : Region → Region) : (e.modRegion k).g.arch = e.g.arch := rfl
@[simp] theorem Env.modRegion_ref (k : Region → Region) : (e.modRegion k).g.ref = e.g.ref := rfl

end

/-- The youngest region after it has been changed. -/
theorem modLast_getLast {α : Type} (f : α → α) : ∀ l : List α, (modLast f l).getLast? = l.getLast?.map f
  | [] => rfl
  | [_] => rfl
  | x :: y :: t => by
    have := modLast_getLast f (y :: t)
    simp only [modLast]
    rw [List.getLast?_cons, this]
    cases h : (y :: t).getLast? with
    | none => simp at h
    | some z => simp [List.getLast?_cons] at h ⊢; simp [h]

@[simp] theorem modLast_length {α : Type} (f : α → α) : ∀ l : List α, (modLast f l).length = l.length
  | [] => rfl
  | [_] => rfl
  | x :: y :: t => by simp [modLast, modLast_length f (y :: t)]

/-- R427: a group that ends its task stops, with its registers as they are. -/
theorem doom_spec (e : Env) (code fault task orig : Nat) :
    let f := e.doom code fault task orig
    f.g.doomed = true ∧ f.g.arch = e.g.arch ∧ f.s = e.s ∧ f.b = e.b ∧
      ∃ r, f.g.regions.getLast? = some r ∧ r.trap = some (code, true, some fault) ∧ r.trapTask = task ∧ r.trapPc = orig := by
  intro f
  refine ⟨rfl, ?_, rfl, rfl, ?_⟩
  · show (e.g.ensureRegion e.s.gtc).arch = _
    unfold Group.ensureRegion
    split <;> rfl
  · show ∃ r, (modLast _ (e.g.ensureRegion e.s.gtc).regions).getLast? = some r ∧ _
    rw [modLast_getLast]
    have : ∃ y, (e.g.ensureRegion e.s.gtc).regions.getLast? = some y := by
      unfold Group.ensureRegion
      split
      · simp [Group.openRegion]
      · rename_i h
        cases hh : e.g.regions with
        | nil => simp [hh] at h
        | cons a l => exact ⟨_, List.getLast?_cons⟩
    obtain ⟨y, hy⟩ := this
    rw [hy]
    exact ⟨_, rfl, rfl, rfl, rfl⟩

end Sys2Proof.Machine
end

