-- ==== Sys2Proof/Tests/Slice0.lean ====
section
/-!
SUPPORT. Tests/Slice0.lean: small checks.  First the well-formedness checks, each with a term it refuses; then words written
out from the encodings, for every family; then one-step results worked out from the rules; then, for every statement with
hypotheses, a state and operands that meet them (`wit_…`).
-/

namespace Sys2Proof.Tests

open Sys2Proof Sys2Proof.Machine

noncomputable section

set_option Elab.async false

/-! ### A small machine -/

/-- A kernel with a handler, bench memory, a spill slot and one shape: two dimensions of 4 and 8. -/
def kern : Kernel :=
  { desc := 65536, textBase := 65536, textSize := 65536, benchMem := 4096, spillSz := 256, trapOff := some 1024 }

def blk : Block := { ref := ⟨0, 0⟩, kernel := kern, spillSlots := [131072] }

/-- A group of 32 threads of any role. -/
def grp (role : Nat) : Group :=
  { ref := ⟨0, 0, 0⟩, role, launched := BitVec.allOnes 32, arch := { run := BitVec.allOnes 32, pc := 65536 } }

/-- One page of data at virtual and physical address 131072. -/
def page : TlbEntry := { owner := 0, field := 0, page := 2, npages := 1, pa := 131072, r := true, w := true, x := false, ca := false }

/-- A group about to issue, with its block placed and one data page mapped. -/
def st (g : Group) (b : Block) : State :=
  { (State.reset.setOwner 0 { en := true, spillBase := 131072, spillSize := 1, capEn := true, capSize0 := 1 }) with
    blocks := [b], groups := [g], cur := some ⟨0, 0, 0⟩, tlb := [page] }

def s0 : State := st (grp 2) blk
def g0 : Group := grp 2

/-- `g0` with registers. -/
def withA (f : Arch → Arch) : Group := { g0 with arch := f g0.arch }

/-- What must hold of the group, its block and its role for any instruction to issue there. -/
theorem ready_of (g : Group) (b : Block) (i : IssueInfo) (hg : g.ref = ⟨0, 0, 0⟩) (hb : b.ref = ⟨0, 0⟩) (h1 : g.ended = false)
    (h2 : g.doomed = false) (h3 : b.state = .placed) (h4 : g.regions.length < 4) (h5 : g.waiting = []) (h6 : g.acqBefore = none)
    (h7 : g.arBefore = []) (h8 : g.stall = none) (hr : ∀ r, i.role = some r → g.role = r) : Ready i (st g b) g b := by
  refine ⟨?_, ?_, h1, h2, h3, fun _ => h4, hr, fun _ => by unfold Group.memHeld; rw [h5]; rfl, h8, fun _ => ?_⟩
  · show findGroup [g] ⟨0, 0, 0⟩ = _
    simp [findGroup, hg]
  · show findBlock [b] (blockOf g.ref) = _
    simp [findBlock, hg, hb, blockOf]
  · unfold Env.readHeld
    have ha : (envBefore i (st g b) g b).g.acqBefore = none := by
      show (g.atIssue i _).acqBefore = none
      unfold Group.atIssue Group.openRegion
      split <;> exact h6
    have hm : (envBefore i (st g b) g b).g.arBefore = [] := by
      show (g.atIssue i _).arBefore = []
      unfold Group.atIssue Group.openRegion
      split <;> exact h7
    rw [ha, hm]
    rfl

/-- Nothing comes before the operands of an instruction that `g0` issues in `s0`. -/
theorem ready0 (i : IssueInfo) (hr : i.role = none) : Ready i s0 g0 blk :=
  ready_of g0 blk i rfl rfl rfl rfl rfl (by decide) rfl rfl rfl rfl (fun r h => by rw [hr] at h; cases h)

theorem renameCost_le (a : Arch) (c : Nat) : renameCost a c ≤ 128 := by
  unfold renameCost
  split
  · split
    · decide
    · split <;> decide
  · split <;> decide

theorem sum_le {α : Type} (f : α → Nat) (n : Nat) (h : ∀ x, f x ≤ n) : ∀ l : List α, (l.map f).sum ≤ n * l.length
  | [] => Nat.zero_le _
  | x :: l => by
    have := sum_le f n h l
    have := h x
    simp only [List.map_cons, List.sum_cons, List.length_cons, Nat.mul_succ]
    omega

theorem note_length (r : Region) (c : Nat) : (r.note c).wrote.length ≤ r.wrote.length + 1 := by
  unfold Region.note
  split <;> simp

theorem notes_length (w : List Nat) : ∀ r : Region, (w.foldl Region.note r).wrote.length ≤ r.wrote.length + w.length := by
  induction w with
  | nil => intro r; exact Nat.le_refl _
  | cons c w ih =>
    intro r
    have h1 := ih (r.note c)
    have h2 := note_length r c
    simp only [List.foldl_cons, List.length_cons]
    omega

/-- The rename pool has room for 64 registers written by one region. -/
theorem room_of (g : Group) (b : Block) (i : IssueInfo) (a : Arch) (w : List Nat) (hg : g.ref = ⟨0, 0, 0⟩) (hb : b.ref = ⟨0, 0⟩)
    (hc : g.core = 0) (hk : b.kernel.vcount ≤ 128) (h3 : b.state = .placed) (h4 : g.regions = []) (hw : w.length ≤ 64) :
    Room (st g b) g ((g.atIssue i (st g b).gtc).wrote a w) := by
  have hr : (st g b).residents 0 = [g] := by
    show ([g].filter _) = _
    simp [hc, State.block?, findBlock, st, blockOf, hg, hb, h3]
  have hb' : (st g b).block? (blockOf g.ref) = some b := by simp [State.block?, findBlock, st, blockOf, hg, hb]
  have h1 : (st g b).renamePool 0 = 1310720 - 128 * b.kernel.vcount := by
    unfold State.renamePool
    rw [hr]
    simp [hb']
  have h2 : (st g b).renameUsed 0 g.ref = 0 := by
    unfold State.renameUsed
    rw [hr]
    simp
  have h5 : (g.atIssue i (st g b).gtc).regions =
      [{ seq := g.nextSeq, ctx := g.arch, firstIssue := (st g b).gtc, cover := ownCells g.core }] := by
    unfold Group.atIssue Group.opensFor Group.opens Group.openRegion
    simp [h4, modLast]
  have h6 : ((g.atIssue i (st g b).gtc).wrote a w).renameUse ≤ 128 * 64 := by
    unfold Group.renameUse Group.wrote
    rw [h5]
    simp only [modLast]
    refine Nat.le_trans (sum_le _ 128 (renameCost_le _) _) (Nat.mul_le_mul_left 128 ?_)
    refine Nat.le_trans (notes_length w _) ?_
    simpa using hw
  unfold Room
  rw [hc, h1, h2]
  omega

/-- What every `Completes` of the statements asks beside its own hypotheses holds at `s0`. -/
theorem room0 (i : IssueInfo) (a : Arch) (w : List Nat) (hw : w.length ≤ 64) :
    Room s0 g0 ((g0.atIssue i s0.gtc).wrote a w) := room_of g0 blk i a w rfl rfl rfl (by decide) rfl rfl hw

/-! ### Well-formedness: a term that each check refuses, beside one it accepts -/

/-- An instruction with an operand field out of what its position admits, a reserved value, a bit outside its fields' use, a
literal without a reader or a reader without one, a register past the kernel's counts, an FN without an instruction. -/
def illFormed : List Instr :=
  [.nopPacket 0,                                                     -- a device event has no encoding
   .sadd { d := 5, a := 129, b := 129 },                             -- D of SADD is no vector register (R186)
   .sadd { d := 132, a := 129, b := 523, kp := 1 },                  -- no predicate in the family (R53)
   .vadd { d := 1, a := 2, b := 3, kn := true },                     -- KN without KP (R56)
   .vadd { d := 1, a := 2, b := 3, rm := 2 },                        -- RM unused (R53)
   .fadd { d := 1, a := 2, b := 3, rm := 6 },                        -- RM 6 is reserved (Table 3-5)
   .fadd { d := 1, a := 2, b := 3, sat := true },                    -- SAT unused
   .sadd { d := 132, a := 129, b := 129, na := true },               -- N outside the float family (R54)
   .vadd { d := 1, a := 2, b := 3, tc := true },                     -- T of an operand that is not read
   .vadd { d := 1, a := 2, b := 3, imm8 := 1 },                      -- IMM8 unused
   .vadd { d := 1, a := 2, b := 3, c := 4 },                         -- an operand field that is not read
   .vadd { d := 1, a := 2, b := 704 },                               -- a reserved operand code (Table 3-8)
   .vadd { d := 1, a := 2, b := 768 },                               -- a literal is selected and none is there (R45)
   .vadd { d := 1, a := 2, b := 3, lit := some 0 },                  -- a literal is there and none is selected
   .vmadw { d := 3, a := 2, b := 3, c := 4 },                        -- a 64-bit destination is an even register
   .fadd { d := 1, a := 2, b := 3, imm8 := 3 },                      -- format 3 is reserved (R240)
   .gshuf { d := 1, a := 2, b := 3, imm8 := 6 },                     -- width code 6 is reserved (R252)
   .gred { d := 1, a := 2, imm8 := 0x5C },                           -- operation 11 is reserved
   .ld { d := 1, a := 132, b := 640, imm8 := 5 },                    -- size 5 is reserved (R298)
   .ld { d := 2, a := 132, b := 640, imm8 := 4 },                    -- 128 bits need a multiple of 4
   .fcvt { d := 1, a := 2, imm8 := 0x08 },                           -- no such floating-point format
   .fcvti { d := 1, a := 2, imm8 := 0x07 },                          -- no such integer format (R249)
   .cpy { d := 132, a := 128 },                                      -- a descriptor does not start at s0 (R319)
   .cpy { d := 132, a := 499 },                                      -- nor reach into the trap frame
   .caput { d := 132, a := 3 },                                      -- an odd vector pair (R349)
   .atom { d := 128, a := 130, b := 131, imm8 := 0x4E },             -- operation 14 is reserved (R383)
   .atom { d := 128, a := 130, b := 131, imm8 := 0x60 },             -- scope 6 is reserved (R359)
   .fence {},                                                        -- kind 0 is reserved
   .waitc { d := 132, a := 130, b := 131, c := 131, imm8 := 7 },     -- .nv needs a timeout (R385)
   .mst { a := 130, b := 131, imm8 := 0x50 },                        -- form 5 is reserved (R279)
   .sget { d := 132, imm8 := 0x0B },                                 -- no such special register (R176)
   .time { d := 132, imm8 := 2 },                                    -- no such counter (R183)
   .icinv { a := 130, b := 576, imm8 := 5 },                         -- scope 5 is reserved (R150)
   .saddBase { b := 63, a := 1, d := 2 },                 -- short code 63 is reserved (R51)
   .spopcBase { b := 1, a := 1, d := 2 },                            -- B of a one-source base form
   .saddBase { b := 62, a := 1, d := 2 },                            -- the literal in LEN 00
   .vaddBase { b := 3, a := 1, d := 2, lit := some 0 },              -- an unread literal
   .ldShort { off := 0, a := 1, b := 2, d := 3, scr := false, w := 1 },   -- 64 bits need an even register (R49)
   .ldShort { off := 0, a := 1, b := 2, d := 0, scr := false, w := 3 },   -- width 3
   .brac { off := 0, k := 0, cond := 5 },                            -- COND 5 is reserved
   .pairWord { xfn := 24, yfn := 0, yd := 1 },                       -- no operation 24 (Table 4-17)
   .pairWord { xfn := 6, xd := 1, yfn := 6, yd := 1 },               -- both halves write one register (R62)
   .pairWord { xfn := 6, xd := 2, xa := 1, yfn := 6, yd := 1, ya := 2 },  -- Y reads what X writes
   .pairWord { xfn := 6, xd := 1, xa := 128, yfn := 6, yd := 2, ya := 129 },   -- a uniform register in both halves
   .pairWord { xfn := 6, xd := 1, xa := 4, xb := 8, yfn := 6, yd := 2, ya := 12, yb := 16 }]   -- one bank three times

theorem test_wf_refuses : ∀ i ∈ illFormed, Instr.wf Limits.all i = false := by decide +kernel

/-- Their well-formed neighbours. -/
def wellFormed : List Instr :=
  [.sadd { d := 132, a := 129, b := 523 }, .vadd { d := 1, a := 2, b := 3, kp := 1, kn := true },
   .fadd { d := 1, a := 2, b := 3, rm := 5, na := true }, .vadd { d := 1, a := 2, b := 768, lit := some 7 },
   .vmadw { d := 2, a := 2, b := 3, c := 4 }, .gshuf { d := 1, a := 2, b := 3, imm8 := 5 },
   .ld { d := 4, a := 132, b := 640, imm8 := 4 }, .cpy { d := 132, a := 498 }, .caput { d := 132, a := 2 },
   .atom { d := 128, a := 130, b := 131, imm8 := 0x5D }, .fence { imm8 := 1 }, .sget { d := 132, imm8 := 0x0A },
   .saddBase { b := 62, a := 1, d := 2, lit := some 3 }, .brac { off := 0, k := 0, cond := 4 },
   .pairWord { xfn := 6, xd := 1, xa := 4, xb := 8, yfn := 6, yd := 2, ya := 13, yb := 17 }]

theorem test_wf_accepts : ∀ i ∈ wellFormed, Instr.wf Limits.all i = true := by decide +kernel

/-- R22: a register at the kernel's count is refused, the one below it and the trap frame are not. -/
theorem test_wf_counts :
    Instr.wf { vcount := 8, scount := 4 } (.vadd { d := 8, a := 0, b := 0 }) = false ∧
    Instr.wf { vcount := 8, scount := 4 } (.vadd { d := 7, a := 0, b := 0 }) = true ∧
    Instr.wf { vcount := 8, scount := 4 } (.sadd { d := 132, a := 129, b := 129 }) = false ∧
    Instr.wf { vcount := 8, scount := 4 } (.sadd { d := 131, a := 504, b := 129 }) = true := by decide +kernel

/-! ### Decoding: words put together by hand from the encoding tables -/

/-- Tables 3-2, 4-4 to 4-15: one word at least for each format and family, those of the spec's listings (`wordTable`) and these. -/
def handWords : List (List W32 × Instr) :=
  [([0x00811134], .lduImm { imm := 8, a := 2, d := 4, w := 2 }),            -- 8·2^20 + 2·2^15 + 4·2^10 + 2·2^7 + 13·4
   ([0xFF8113B4], .stuImm { imm := 0xFF8, a := 2, d := 4, w := 3 }),        -- FN 7, offset -8
   ([0x114614B0], .ldShort { off := 1, a := 5, b := 3, d := 2, scr := true, w := 1 }),
   ([0x0000C8A8], .brac { off := 3, k := 1, cond := 1 }), ([0x0001432C], .trap 5), ([0x0000002C], .nop),
   ([0x00520F0C], .sshli { cnt := 5, a := 4, d := 3 }), ([0x04520F8C], .ssrai { cnt := 5, a := 4, d := 3 }),
   ([0x0000005A, 0x00025088, 0x00000000], .cpy { d := 136, a := 148 }),     -- 22·4 + 2; 148·2^10 + 136
   ([0x00000062, 0x08320884, 0x00280000], .atom { d := 132, a := 130, b := 131, imm8 := 0xA0 }),
   ([0x0000046A, 0x00000084, 0x00004000], .time { d := 132, imm8 := 1 }),
   ([0xFFFFFFA4], .call (-1 : BitVec 25))]

theorem test_hand_words : ∀ p ∈ handWords, decodeWith Limits.all p.1 = .ok p.2 ∧ encode p.2 = p.1 := by decide +kernel

/-- R44, R46, R47, R48: words that are no instruction, with the fault and the bit reported. -/
theorem test_bad_words :
    decodeWith Limits.all [0] = .bad ⟨.illOpc, 2⟩ ∧                                   -- the word 0 (R46)
    decodeWith Limits.all [0x00000994] = .bad ⟨.illOpc, 7⟩ ∧                          -- VSEL has no base form (chapter 4)
    decodeWith Limits.all [0x0000012E] = .bad ⟨.illOpc, 0⟩ ∧                          -- an extended word cut short
    decodeWith Limits.all [0x8000_0046 &&& 0xFFFFFFFF, 0, 0] = .bad ⟨.illRsv, 31⟩ ∧   -- word 0 bit 31
    decodeWith Limits.all [0x0000037F, 0, 0, 0, 0] = .bad ⟨.illLit, 0⟩ := by decide +kernel   -- MAJ 31 with LEN 11

/-! ### One step each, worked out from the rules -/

/-- What the registers of `g` are after it issues an instruction. -/
def after (g : Group) (i : Instr) : Arch :=
  match exec i (st g blk) with
  | .next t => ((t.group? g.ref).getD g).arch
  | _ => {}

/-- R190: 7 + (-1) wraps; s0 discards (R158); the pc moves on by the instruction's length. -/
theorem test_sadd : (let a := after (withA fun a => a.setS 2 { val := 7 }) (.saddBase { b := 56, a := 2, d := 3 })
    ((a.ureg 3).val, a.pc)) = (6, 65540) ∧ after g0 (.saddBase { b := 49, a := 0, d := 0 }) = { g0.arch with pc := 65540 } := by
  decide +kernel

/-- The example of R191: -7 by 2. -/
theorem test_sdiv : ((after (withA fun a => a.setS 2 { val := -7 }) (.sdivBase { b := 50, a := 2, d := 3 })).ureg 3).val = -3 ∧
    ((after (withA fun a => a.setS 2 { val := -7 }) (.sremBase { b := 50, a := 2, d := 3 })).ureg 3).val = -1 := by decide +kernel

/-- The example of R181: STRUM of a bench forced to 0xAAAA. -/
theorem test_strum : (match exec (.sget { d := 137, imm8 := 5 })
      ((st g0 blk).setField 0 { (State.reset.field 0) with tripped := true }) with
    | .next t => (t.group? ⟨0, 0, 0⟩).map fun g => (g.arch.ureg 9).val
    | _ => none) = some 0x0028AAAA := by decide +kernel

/-- R163: an empty source waits, or takes FE_EMPTY with its T bit. -/
theorem test_empty :
    (match exec (.sadd { d := 132, a := 130, b := 130 }) (st (withA fun a => a.setS 2 { pend := some 1 }) blk) with
     | .next t => (t.group? ⟨0, 0, 0⟩).map fun g => (g.wait, g.arch.pc)
     | _ => none) = some (.empty, 65536) ∧
    (after (withA fun a => a.setS 2 { pend := some 1 }) (.sadd { d := 132, a := 130, b := 130, ta := true })).pc = 66560 := by
  decide +kernel

/-- R424: TRAP 5 enters the handler at the text base + TRAPOFF with code 31, resuming past itself. -/
theorem test_trap : (let a := after g0 (.trap 5)
    (a.pc, a.handler, (a.ureg 376).val, (a.ureg 377).val, (a.ureg 382).val)) = (66560, true, 31, 65540, 5) := by decide +kernel

/-- R297, R311: a 32-bit store to bench memory queues four bytes per slot and writes none. -/
theorem test_store : (match exec (.stShort { off := 0, a := 1, b := 2, d := 3, scr := false, w := 0 })
      (st (withA fun a => (a.setV 1 { val := .a 0 4 }).setV 3 { val := .u 0x01020304 }) blk) with
    | .next t => ((t.entries.map fun q => (q.bench, q.pa, q.bytes.length)), decide (t.blocks = [blk]))
    | _ => ([], false)) = ([(true, 0, 64), (true, 64, 64)], true) := by decide +kernel

/-! ### Witnesses: hypotheses that can be met -/

/-- What every `Completes` and `Ends` asks beside the hypotheses written in its statement, at a state of one group. -/
def Can (g : Group) (b : Block) (i : IssueInfo) : Prop :=
  Ready i (st g b) g b ∧ ∀ a w, w.length ≤ 64 → Room (st g b) g ((g.atIssue i (st g b).gtc).wrote a w)

/-- It holds of any plain group on core 0. -/
theorem can (g : Group) (b : Block) (i : IssueInfo) (hg : g.ref = ⟨0, 0, 0⟩) (hc : g.core = 0) (h1 : g.ended = false)
    (h2 : g.doomed = false) (h4 : g.regions = []) (h5 : g.waiting = []) (h6 : g.acqBefore = none) (h7 : g.arBefore = [])
    (h8 : g.stall = none) (hb : b.ref = ⟨0, 0⟩) (h3 : b.state = .placed) (hk : b.kernel.vcount ≤ 128) (hr : ∀ r, i.role = some r → g.role = r) : Can g b i :=
  ⟨ready_of g b i hg hb h1 h2 h3 (by rw [h4]; decide) h5 h6 h7 h8 hr, fun a w hw => room_of g b i a w hg hb hc hk h3 h4 hw⟩

/-- For an instruction of no role, by `g0` with any registers, in `blk` with any kernel of at most 128 vector registers. -/
theorem can0 (f : Arch → Arch) (i : IssueInfo) (hr : i.role = none) : Can (withA f) blk i :=
  can (withA f) blk i rfl rfl rfl rfl rfl rfl rfl rfl rfl rfl rfl (by decide) (fun r h => by rw [hr] at h; cases h)

/-- `Full`, and the reading of a store's data, as a computation. -/
def fullB (maj fn : Nat) (x : Ext) (e : Env) : Bool :=
  match usage maj fn x with
  | some u => e.blocked (srcCodes u x) (dstCodes u x) = none
  | none => false
def storeB (fn : Nat) (x : Ext) (e : Env) : Bool :=
  match usage 21 fn x with
  | some u => e.blocked (srcCodes u x ++ (dstCodes u x).map fun n => (n, x.tc)) [] = none
  | none => false
theorem full_of {maj fn : Nat} {x : Ext} {e : Env} (h : fullB maj fn x e = true) : Full maj fn x e := by
  unfold fullB at h
  cases hu : usage maj fn x with
  | none => rw [hu] at h; cases h
  | some u => rw [hu] at h; exact ⟨u, hu, by simpa using h⟩

/-- The room that an `Ends` asks, as a computation. -/
def roomB (s : State) (g : Group) (e : Env) : Bool := e.g.renameUse + s.renameUsed g.core g.ref ≤ s.renamePool g.core

/-- A result that is there and fits. -/
def okAnd {ε α : Type} (r : Except ε α) (k : α → Bool) : Bool := match r with | .ok a => k a | .error _ => false

/-- The environment of an instruction of `len` bytes, before and at its issue. -/
def E (f : Arch → Arch) (len : Nat) : Env := envOf (st (withA f) blk) (withA f) blk len
def At (f : Arch → Arch) (i : IssueInfo) : Env := envAt i (st (withA f) blk) (withA f) blk
/-- Registers as they are; s2 at the data page; the lane number times 4 in v1. -/
def regs0 (a : Arch) : Arch := a
def regs (a : Arch) : Arch := (a.setS 2 { val := 131072 }).setV 1 { val := .a 0 4 }

theorem wit_UniformResult : let x : Ext := { d := 131, a := 130, b := 130 }
    ∃ p ∈ uniformTable x, Full 16 p.1 x (E regs0 (lenExt x)) ∧ Can (withA regs0) blk { len := lenExt x } :=
  ⟨_, List.mem_cons_self, full_of (by decide +kernel), can0 _ _ rfl⟩

theorem wit_UniformBaseResult : let f : BaseF := { d := 3, a := 2, b := 62, lit := some 5 }
    ∃ p ∈ uniformBaseTable f, Full 16 p.1 (.ofBase 16 p.1 f) (E regs0 (lenBase f)) ∧
      Can (withA regs0) blk { len := lenBase f } :=
  ⟨_, List.mem_cons_self, full_of (by decide +kernel), can0 _ _ rfl⟩

theorem wit_ImmediateResult : let f : UaF := { imm := 1, a := 2, d := 0 }
    (∃ p ∈ uaTable f { cnt := 63, a := 2, d := 31 },
      (E regs0 4).blocked [(128 + p.2.1.toNat, false)] [128 + p.2.2.1.toNat] = none) ∧
    (E regs0 4).blocked [] [128 + 31] = none ∧ Can (withA regs0) blk { len := 4 } :=
  ⟨⟨_, List.mem_cons_self, by decide +kernel⟩, by decide +kernel, can0 _ _ rfl⟩

theorem wit_VectorResult : let x : Ext := { d := 127, a := 126, b := 523, kp := 7, kn := true }
    ∃ p ∈ vectorTable x, Full 17 p.1 x (E regs0 (lenExt x)) ∧ Can (withA regs0) blk { len := lenExt x } :=
  ⟨_, List.mem_cons_self, full_of (by decide +kernel), can0 _ _ rfl⟩

theorem wit_VectorBaseResult : let f : BaseF := { d := 0, a := 32, b := 47 }
    ∃ p ∈ vectorBaseTable f, Full 17 p.1 (.ofBase 17 p.1 f) (E regs0 (lenBase f)) ∧ Can (withA regs0) blk { len := lenBase f } :=
  ⟨_, List.mem_cons_self, full_of (by decide +kernel), can0 _ _ rfl⟩

/-- A kernel whose shape table has one entry: two dimensions, the inner of extent 4 (R25). -/
def shaped2 : Block :=
  { blk with kernel := { kern with shapes := [2, 0, 0, 0, 4, 0, 0, 0, 0, 0, 0, 0, 2] ++ List.replicate 51 0 } }
def E2 (len : Nat) : Env := envOf (st g0 shaped2) g0 shaped2 len
theorem can2 (i : IssueInfo) (hr : i.role = none) : Can g0 shaped2 i :=
  can g0 shaped2 i rfl rfl rfl rfl rfl rfl rfl rfl rfl rfl rfl (by decide) (fun r h => by rw [hr] at h; cases h)

theorem wit_VectorWideResult :
    Full 17 18 { d := 519, a := 1, b := 2, imm8 := 7 } (E regs0 12) ∧ Full 17 26 { d := 1, a := 1, b := 2, c := 513, e := 513 } (E regs0 12) ∧
    Full 17 6 { d := 126, a := 1, b := 2, c := 126, imm8 := 1 } (E regs0 12) ∧ (E regs0 12).vIdx 126 ≠ (E regs0 12).vIdx 127 ∧
    Full 17 31 { d := 4, a := 130, b := 2, imm8 := 15 } (E regs0 12) ∧ (E regs0 12).vIdx 4 ≠ (E regs0 12).vIdx 5 ∧
    (let x : Ext := { d := 126, a := 1 }
     let en := shapeEntry shaped2.kernel.shapes ((E2 12).shapeIndex 0)
     Full 17 25 x (E2 12) ∧ en.ndim ≠ 0 ∧ 126 + en.ndim ≤ (limitsAt shaped2 g0.arch).vcount ∧
       (E2 12).blocked [] (codes 126 en.ndim) = none ∧ ((codes 126 en.ndim).map (E2 12).vIdx).Nodup) ∧
    Can (withA regs0) blk { len := 12 } ∧ Can g0 shaped2 { len := 12 } :=
  ⟨full_of (by decide +kernel), full_of (by decide +kernel), full_of (by decide +kernel), by decide +kernel,
    full_of (by decide +kernel), by decide +kernel,
    ⟨full_of (by decide +kernel), by decide +kernel, by decide +kernel, by decide +kernel, by decide +kernel⟩, can0 _ _ rfl,
    can2 _ rfl⟩

theorem wit_SidxResult : let x : Ext := { d := 128 + 374, a := 130 }
    let en := shapeEntry shaped2.kernel.shapes ((E2 12).shapeIndex 0)
    Full 16 29 x (E2 12) ∧ en.ndim ≠ 0 ∧ (limitsAt shaped2 g0.arch).allows en.ndim (128 + 374) = true ∧ 374 + en.ndim ≤ 376 ∧
      (E2 12).blocked [] (codes (128 + 374) en.ndim) = none ∧ Can g0 shaped2 { len := 12 } :=
  ⟨full_of (by decide +kernel), by decide +kernel, by decide +kernel, by decide +kernel, by decide +kernel, can2 _ rfl⟩

theorem wit_FloatResult : let x : Ext := { d := 1, a := 2, b := 3 }
    let e := E regs0 12
    (∃ p ∈ scalarTable x, Full 18 p.1 x e ∧ e.raised x (e.scalarSlots x p.2.2) &&& excEnabled g0.arch.fmode = 0) ∧
    (∃ p ∈ packedTable x, Full 18 p.1 x e ∧ e.raised x (e.packedSlots x p.2.2) &&& excEnabled g0.arch.fmode = 0) ∧
    (∃ p ∈ convertTable e { x with b := 0 }, Full 18 p.1 { x with b := 0 } e ∧
      e.raised { x with b := 0 } p.2.2 &&& excEnabled g0.arch.fmode = 0) ∧ Can (withA regs0) blk { len := 12 } :=
  ⟨⟨_, List.mem_cons_self, full_of (by decide +kernel), by decide +kernel⟩,
    ⟨_, List.mem_cons_self, full_of (by decide +kernel), by decide +kernel⟩,
    ⟨_, List.mem_cons_self, full_of (by decide +kernel), by decide +kernel⟩, can0 _ _ rfl⟩

theorem wit_FloatBaseResult : let f : BaseF := { d := 1, a := 2, b := 3 }
    let e := E regs0 4
    let ok (fn : Nat) (rs : Slots) : Prop :=
      Full 18 fn (.ofBase 18 fn f) e ∧ e.raised (.ofBase 18 fn f) rs &&& excEnabled g0.arch.fmode = 0
    (∃ p ∈ scalarBaseTable f, ok p.1 (e.scalarSlots (.ofBase 18 p.1 f) p.2.2)) ∧
    (∃ p ∈ packedBaseTable f, ok p.1 (e.packedSlots (.ofBase 18 p.1 f) p.2.2)) ∧
    (∀ fn ∈ [8, 23, 30], ∃ r ∈ convertTable e (.ofBase 18 fn f), r.1 = fn ∧ ok fn r.2.2) ∧ Can (withA regs0) blk { len := 4 } := by
  refine ⟨⟨_, List.mem_cons_self, full_of (by decide +kernel), by decide +kernel⟩,
    ⟨_, List.mem_cons_self, full_of (by decide +kernel), by decide +kernel⟩, ?_, can0 _ _ rfl⟩
  intro fn h
  simp only [List.mem_cons, List.not_mem_nil, or_false] at h
  rcases h with rfl | rfl | rfl
  · exact ⟨_, List.mem_cons_self, rfl, full_of (by decide +kernel), by decide +kernel⟩
  · exact ⟨_, List.mem_cons_of_mem _ List.mem_cons_self, rfl, full_of (by decide +kernel), by decide +kernel⟩
  · exact ⟨_, List.mem_of_getElem? (i := 7) rfl, rfl, full_of (by decide +kernel), by decide +kernel⟩

/-- Every trap of floating point enabled; v1 a signalling NaN, v2 and v3 the infinities, v4 and v5 packed ones, v6 both in turn. -/
def regsF (a : Arch) : Arch :=
  { ((((((a.setV 1 { val := .u 0x7F800001 }).setV 2 { val := .u 0x7F800000 }).setV 3 { val := .u 0xFF800000 }).setV 4
      { val := .u 0x7C007C00 }).setV 5 { val := .u 0xFC00FC00 }).setV 6 { val := .a 0x7F800000 0x80000000 }) with
    fmode := 1 + 63 * 2 ^ 24 }
/-- The operands are there, and a slot raises an exception whose trap is enabled. -/
def trapsB (maj fn : Nat) (x : Ext) (e : Env) (rs : Slots) : Bool :=
  fullB maj fn x e && e.raised x rs &&& excEnabled (withA regsF).arch.fmode ≠ 0
/-- Some entry of a table is one of them. -/
def anyTraps (maj : Nat) (x : Ext) (e : Env) (l : List (Nat × Instr × Slots)) : Bool := l.any fun q => trapsB maj q.1 x e q.2.2
def pairs : List (PairF × Bool) :=
  [({ xfn := 0, xd := 10, xa := 2, xb := 3, yfn := 6, yd := 11, ya := 4, yb := 5 }, true),
   ({ xfn := 6, xd := 10, xa := 4, xb := 5, yfn := 0, yd := 11, ya := 2, yb := 3 }, false)]

theorem wit_FloatTrap :
    (let x : Ext := { d := 9, a := 2, b := 3 }
     let e := E regsF 12
     anyTraps 18 x e ((scalarTable x).map fun q => (q.1, q.2.1, e.scalarSlots x q.2.2)) = true) ∧
    (let x : Ext := { d := 9, a := 4, b := 5 }
     let e := E regsF 12
     anyTraps 18 x e ((packedTable x).map fun q => (q.1, q.2.1, e.packedSlots x q.2.2)) = true) ∧
    (∀ x ∈ [({ d := 9, a := 1 } : Ext), { d := 9, a := 1, imm8 := 2 }, { d := 10, a := 2, b := 8, c := 8 }],
      anyTraps 18 x (E regsF 12) (convertTable (E regsF 12) x) = true) ∧
    (let x : Ext := { d := 512, a := 1, b := 2 }
     trapsB 18 6 x (E regsF 12) (slots.map fun _ =>
       (0, (fcmpV 0 ((E regsF 12).fmodeFor 0) (scalarSpec 0) 0x7F800001 0x7F800000).2)) = true) ∧
    (let x : Ext := { d := 9, a := 6, imm8 := 0x45 }
     anyTraps 19 x (E regsF 12) (reduceTable (E regsF 12) x) = true) ∧
    (let f : BaseF := { d := 9, a := 2, b := 3 }
     let e := E regsF 4
     ((scalarBaseTable f).any fun q => trapsB 18 q.1 (.ofBase 18 q.1 f) e (e.scalarSlots (.ofBase 18 q.1 f) q.2.2)) = true) ∧
    (let f : BaseF := { d := 9, a := 4, b := 5 }
     let e := E regsF 4
     ((packedBaseTable f).any fun q => trapsB 18 q.1 (.ofBase 18 q.1 f) e (e.packedSlots (.ofBase 18 q.1 f) q.2.2)) = true) ∧
    (∀ p ∈ [(8, ({ d := 9, a := 1 } : BaseF)), (23, { d := 9, a := 1, b := 8 }), (30, { d := 10, a := 2, b := 8 })],
      ((convertTable (E regsF 4) (.ofBase 18 p.1 p.2)).any fun q =>
        q.1 = p.1 && trapsB 18 p.1 (.ofBase 18 p.1 p.2) (E regsF 4) q.2.2) = true) ∧
    (∀ p ∈ pairs, let e := E regsF 12
      let raises (h : Half) : Bool := slots.any fun j => e.active h.x j &&
        (e.halfResult h).2.getD j excNone &&& excEnabled (withA regsF).arch.fmode ≠ 0
      e.blocked (halfCodes p.1.halfX ++ halfCodes p.1.halfY) [p.1.halfX.x.d.toNat, p.1.halfY.x.d.toNat] = none ∧
        raises p.1.halfX = p.2 ∧ raises p.1.halfY = !p.2) ∧
    Can (withA regsF) blk { len := 12 } ∧ Can (withA regsF) blk { len := 4 } := by
  refine ⟨?_, ?_, ?_, ?_, ?_, ?_, ?_, ?_, ?_, can0 _ _ rfl, can0 _ _ rfl⟩ <;> decide +kernel

theorem wit_FcmpResult : Full 18 6 { d := 512, a := 1, b := 2, imm8 := 28 } (E regs0 12) ∧
    (fcmpV 7 ((E regs0 12).fmodeFor 0) (scalarSpec 28) 0 0).2 = excNone ∧ Can (withA regs0) blk { len := 12 } :=
  ⟨full_of (by decide +kernel), by decide +kernel, can0 _ _ rfl⟩

theorem wit_CrossResult : let e := E regs0 12
    (∃ q ∈ crossTable { d := 1, a := 2 }, Full 19 q.1 { d := 1, a := 2 } e) ∧
    (let x : Ext := { d := 1, a := 2, imm8 := 5 }
     ∃ q ∈ reduceTable e x, Full 19 q.1 x e ∧ e.raised x q.2.2 &&& excEnabled g0.arch.fmode = 0) ∧
    (∀ m ∈ [0, 1, 2], Full 19 6 { d := 513, a := 2, imm8 := BitVec.ofNat 8 m } e) ∧ Full 19 7 { d := 131, a := 2 } e ∧
    Full 19 10 { d := 131, a := 2, b := 576 } e ∧ Full 19 10 { d := 131, a := 2, imm8 := 1 } e ∧
    Full 19 12 { d := 1, a := 2 } e ∧ Full 19 13 { d := 1, a := 523 } e ∧ Can (withA regs0) blk { len := 12 } := by
  refine ⟨⟨_, List.mem_cons_self, full_of (by decide +kernel)⟩,
    ⟨_, List.mem_cons_self, full_of (by decide +kernel), by decide +kernel⟩, ?_, full_of (by decide +kernel),
    full_of (by decide +kernel), full_of (by decide +kernel), full_of (by decide +kernel), full_of (by decide +kernel), can0 _ _ rfl⟩
  intro m h
  refine full_of ?_
  revert m
  decide +kernel

theorem wit_CrossBaseResult : let e := E regs0 4
    (∀ fn ∈ [1, 11, 12, 13], fullB 19 fn (.ofBase 19 fn { d := 1, a := 2, b := if fn < 12 then 3 else 0 }) e = true) ∧
    Can (withA regs0) blk { len := 4 } := ⟨by decide +kernel, can0 _ _ rfl⟩

theorem wit_PairResult : let p : PairF := { xfn := 6, xd := 1, xa := 4, xb := 8, yfn := 2, yd := 2, ya := 13, yb := 17 }
    let e := E regs0 12
    let raised (h : Half) : Exc :=
      slots.foldl (fun a i => if e.active h.x i then a ||| (e.halfResult h).2.getD i excNone else a) excNone
    e.blocked (halfCodes p.halfX ++ halfCodes p.halfY) [p.halfX.x.d.toNat, p.halfY.x.d.toNat] = none ∧
    e.vIdx p.halfX.x.d.toNat ≠ e.vIdx p.halfY.x.d.toNat ∧ (raised p.halfX ||| raised p.halfY) &&& excEnabled g0.arch.fmode = 0 ∧
    Can (withA regs0) blk { len := 12 } :=
  ⟨by decide +kernel, by decide +kernel, by decide +kernel, can0 _ _ rfl⟩

theorem wit_MaskResult : ∃ q ∈ maskTable { d := 519, a := 512, b := 513 },
    Full 20 q.1 { d := 519, a := 512, b := 513 } (E regs0 12) ∧ Can (withA regs0) blk { len := 12 } :=
  ⟨_, List.mem_cons_self, full_of (by decide +kernel), can0 _ _ rfl⟩

/-- `g0` with a region that has issued or has not; s1 is no multiple of 4. -/
def begun (started : Bool) : Group := { g0 with regions := [{ seq := 0, ctx := {}, firstIssue := 0, started }] }
def regsOdd (a : Arch) : Arch := (a.setS 1 { val := 2 }).setS 2 { val := 131073 }

theorem wit_BranchResult : let e := E regs 12
    (E regs 4).blocked [(129, false)] [] = none ∧ ((E regs 4).sval 1).toNat % 4 = 0 ∧
    Full 20 1 { d := 129, a := 130 } e ∧ (e.srcU none 130).toNat % 4 = 0 ∧ Full 20 2 { a := 130 } e ∧
    Full 20 3 { d := 130, c := 1023, e := 1023 } e ∧ Full 20 4 { a := 130, b := 576, c := 1 } e ∧
    Can (withA regs) blk { len := 4 } ∧ Can (withA regs) blk { len := 12 } ∧ Can (withA regs) blk { len := 4, rgn := true } ∧
    ((E regsOdd 4).blocked [(129, false)] [] = none ∧ ((E regsOdd 4).sval 1).toNat % 4 ≠ 0 ∧
      Full 20 1 { d := 129, a := 130 } (E regsOdd 12) ∧ Full 20 2 { a := 130 } (E regsOdd 12) ∧
      ((E regsOdd 12).srcU none 130).toNat % 4 ≠ 0 ∧ Can (withA regsOdd) blk { len := 4 } ∧ Can (withA regsOdd) blk { len := 12 }) ∧
    (∀ c, let g := begun c
      let i : IssueInfo := { len := 4, rgn := true }
      ((∀ y, g.regions.getLast? = some y → y.started = true) ↔ c = true) ∧ Ready i (st g blk) g blk ∧
        roomB (st g blk) g { E regs0 4 with g := (g.atIssue i 0).wrote (g.arch.past 4) [] } = true) := by
  refine ⟨by decide +kernel, by decide +kernel, full_of (by decide +kernel), by decide +kernel, full_of (by decide +kernel),
    full_of (by decide +kernel), full_of (by decide +kernel), can0 _ _ rfl, can0 _ _ rfl, can0 _ _ rfl,
    ⟨by decide +kernel, by decide +kernel, full_of (by decide +kernel), full_of (by decide +kernel), by decide +kernel, can0 _ _ rfl,
      can0 _ _ rfl⟩, fun c => ⟨by cases c <;> simp [begun], ?_, by cases c <;> decide +kernel⟩⟩
  exact ready_of (begun c) blk _ rfl rfl rfl rfl rfl (by show 1 < 4; decide) rfl rfl rfl rfl (fun r h => by cases h)

/-- A group of whose threads half wait at a join. -/
def regsK (a : Arch) : Arch := a.setK 1 0xF
/-- The same with a divergence stack of 32 entries: the next go to the spill slot (R213), of which SPILL has left `free` bytes. -/
def regsDeep (free : Nat) (a : Arch) : Arch :=
  { regsK a with stack := List.replicate 32 (.join 0xFFFFFFFF none), spillMark := 256 - free }
/-- The registers after that DIVB, of whose 34 entries two go to the slot, and the bytes stored there, at `ps`. -/
def deepAfter : Arch :=
  { (withA (regsDeep 256)).arch.past 12 with
    stack := .pending 0xF (65536 + 28) :: .join 0xFFFFFFFF none :: List.replicate 32 (.join 0xFFFFFFFF none), spilled := 2, run := 0xFFFFFFF0 }
def deepBytes (ps : List (Option Nat)) : List (Nat × Byte) := ps.flatMap fun p =>
  (leBytes 4 0xFFFFFFFF ++ leBytes 4 1 ++ leBytes 8 0).zipIdx.map fun c => (p.getD 0 + c.2, c.1)

theorem wit_DivergenceResult_divb :
    (let a := (withA regsK).arch
     Full 20 0 { a := 513, c := 7 } (E regsK 12) ∧ a.stack.length ≤ 32 + a.spilled ∧ a.spilled ≤ a.stack.length ∧
       max a.spilled (a.stack.length + 2 - 32) = a.spilled) ∧
    (let a := (withA (regsDeep 256)).arch
     let e := At (regsDeep 256) { len := 12 }
     Full 20 0 { a := 513, c := 7 } (E (regsDeep 256) 12) ∧ a.stack.length ≤ 32 + a.spilled ∧ a.spilled ≤ a.stack.length ∧
       (∀ n < 2, 16 * (n + 1) + a.spillMark ≤ blk.kernel.spillSz) ∧ max a.spilled (a.stack.length + 2 - 32) = 2 ∧
       e.g.memHeld (st (withA (regsDeep 256)) blk) = false ∧
       okAnd (e.placeAll true false 16 ((codes 0 2).map e.divAccess)) (fun p =>
         let e1 := p.2.setArch deepAfter
         e1.s.sqCore e1.g.core + ((e1.entriesOf false (deepBytes p.1)).map fun q => q.slots).sum ≤ 2048 &&
           roomB (st (withA (regsDeep 256)) blk) (withA (regsDeep 256)) (e1.queued false (deepBytes p.1))) = true) ∧
    (Full 20 0 { a := 513, c := 7 } (E (regsDeep 16) 12) ∧
      ¬16 * (1 + 1) + (withA (regsDeep 16)).arch.spillMark ≤ blk.kernel.spillSz) ∧
    Can (withA regsK) blk { len := 12 } ∧ (∀ n, Can (withA (regsDeep n)) blk { len := 12 }) ∧
    roomB s0 g0 ((At regs0 { len := 4, closing := true }).takeTrap { code := 31, cause0 := 5 } 65540) = true ∧
    Can (withA regs0) blk { len := 4, closing := true } :=
  ⟨⟨full_of (by decide +kernel), by decide +kernel, by decide +kernel, by decide +kernel⟩,
    ⟨full_of (by decide +kernel), by decide +kernel, by decide +kernel, by decide +kernel, by decide +kernel, by decide +kernel,
      by decide +kernel⟩, ⟨full_of (by decide +kernel), by decide +kernel⟩, can0 _ _ rfl, fun _ => can0 _ _ rfl, by decide +kernel,
    can0 _ _ rfl⟩

/-- A group that runs `run` with the entries `top` on chip, the last first, and `deep` in its spill slot, the first first. -/
structure Stack where
  run : W32
  top : List DivEntry := []
  deep : List DivEntry := []
def Stack.regs (d : Stack) (a : Arch) : Arch := { a with run := d.run, stack := d.top ++ d.deep.reverse, spilled := d.deep.length }
def Stack.state (d : Stack) : State :=
  { st (withA d.regs) blk with
    mem := (d.deep.reverse.flatMap DivEntry.bytes).zipIdx.map fun b => (131072 + 256 - 16 * d.deep.length + b.2, b.1),
    keys := [(2051, { data := 0, tweak := 0 })] }
def Stack.env (d : Stack) : Env := envAt { len := 4 } d.state (withA d.regs) blk
/-- The entries that still have a thread, for RCV and for EXIT. -/
def Stack.under (d : Stack) : List DivEntry := d.env.stackNow.dropWhile fun d => d.mask = 0
def Stack.gone (d : Stack) : List DivEntry := (d.env.stackNow.map (DivEntry.without d.run)).dropWhile fun d => d.mask = 0
/-- The pop that leaves `n` entries in the slot meets what its clause asks: both its halves, by `n`. -/
def Stack.popsB (d : Stack) (n : Nat) : Bool :=
  let e := d.env
  let a : Arch := { (withA d.regs).arch.past 4 with spilled := n }
  if d.deep.length ≤ n then roomB d.state (withA d.regs) (e.setArch a)
  else !e.g.memHeld d.state && !e.readHeld &&
    okAnd (e.placeAll false false 16 ((codes n (d.deep.length - n)).map e.divAccess)) fun p =>
      !p.2.behindAtom false p.1 16 && roomB d.state (withA d.regs) ((p.2.readPath false p.1 16).2.setArch a)

def pend0 : DivEntry := .pending 0xF0 65600
def join0 (p : Option Nat) : DivEntry := .join 0xFF p
theorem wit_DivergenceResult_pop :
    (∀ d ∈ [({ run := 0xF } : Stack), { run := 0xF, deep := [.join 0 none] }], d.under = [] ∧ d.popsB 0 = true) ∧
    (∀ d ∈ [({ run := 0xF, top := [pend0, join0 none] } : Stack), { run := 0xF, deep := [join0 none, pend0] }],
      d.under = pend0 :: join0 none :: [] ∧ d.popsB 0 = true) ∧
    (∀ d ∈ [({ run := 0xF, top := [join0 none] } : Stack), { run := 0xF, deep := [join0 none] }],
      d.under = join0 none :: [] ∧ d.popsB 0 = true) ∧
    (∀ d ∈ [({ run := 0xF, top := [pend0] } : Stack), { run := 0xF, deep := [pend0] }], d.gone = pend0 :: [] ∧ d.popsB 0 = true) ∧
    (∀ d ∈ [({ run := 0xF, top := [join0 (some 65600)] } : Stack), { run := 0xF, deep := [join0 (some 65600)] }],
      d.gone = .join 0xF0 (some 65600) :: [] ∧ d.popsB 0 = true) ∧
    (∀ d ∈ [({ run := 0xF, top := [join0 none] } : Stack), { run := 0xF, deep := [join0 none] }],
      d.gone = .join 0xF0 none :: [] ∧ d.popsB 0 = true) ∧
    (∀ d ∈ [({ run := 0xF } : Stack), { run := 0xF, deep := [.join 0xF none] }],
      d.gone = [] ∧ d.env.exitHeld = false ∧ d.popsB 0 = true) ∧
    (∀ d : Stack, Ready { len := 4 } d.state (withA d.regs) blk) := by
  refine ⟨?_, ?_, ?_, ?_, ?_, ?_, ?_, fun d => ?_⟩
  iterate 7 decide +kernel
  have h := (can0 d.regs { len := 4 } rfl).1
  exact ⟨h.group, h.block, h.alive, h.sound, h.placed, h.regions, h.role, h.waiting, h.unstalled, h.fenced⟩

theorem wit_YieldSleepResult :
    (∀ len ∈ [4, 12], roomB s0 g0 (At regs0 { len }) = true) ∧ Full 26 7 { a := 576 } (E regs0 12) ∧ Full 26 7 { a := 577 } (E regs0 12) ∧
    Can (withA regs0) blk { len := 4 } ∧ Can (withA regs0) blk { len := 12 } :=
  ⟨by decide +kernel, full_of (by decide +kernel), full_of (by decide +kernel), can0 _ _ rfl, can0 _ _ rfl⟩

/-! The memory family: bench memory, whose offsets need no translation; in `regs`, s0 + v1 are the offsets 0, 4, …, 124. -/

def rd (len : Nat) : IssueInfo := { len, reads := true }
def wr (len : Nat) : IssueInfo := { len, writes := true }

/-- The hypotheses of the load `x`, its accesses given. -/
def loadB (fn : Nat) (x : Ext) (len n : Nat) (accs : List Access) (vals : List (Option Nat) → Env → List RegVal) : Bool :=
  fullB 21 fn x (E regs len) &&
  okAnd ((At regs (rd len)).placeAll false (isBm x) n accs) fun p =>
    let ps := if fn = 2 then p.1 else p.2.spareHelpers (isBm x) n accs p.1
    !p.2.behindAtom (isBm x) ps n && roomB (st (withA regs) blk) (withA regs) (p.2.loads (isBm x) ps n (vals ps p.2) (accs.map Access.va))

theorem wit_LoadResult :
    (∀ p ∈ [(({ d := 127, a := 128, b := 1, imm8 := 2 } : Ext), 12), (bmExt { off := 0, a := 1, b := 0, d := 4, scr := false, w := 0 }, 4)],
      loadB 0 p.1 p.2 4 ((At regs (rd p.2)).slotAccesses p.1 ((At regs (rd p.2)).loadSlots p.1) 4)
        (fun _ _ => [.v p.1.d.toNat (.g [])]) = true) ∧
    loadB 2 { d := 128, a := 128, imm8 := 3 } 12 8 [{ slot := none, va := 0, n := 8 }] (fun _ _ => [.u 0 0]) = true ∧
    loadB 2 (umExt { imm := 8, a := 2, d := 5, w := 3 }) 4 8
      [{ slot := none, va := (At regs (rd 4)).eaU (umExt { imm := 8, a := 2, d := 5, w := 3 }), n := 8 }] (fun _ _ => [.u 5 0]) = true ∧
    (let x : Ext := { d := 127, a := 128, b := 580 }
     let e := At regs (rd 12)
     e.strideTrap x false = none ∧ loadB 4 x 12 4 (e.tileAccesses x (e.loadSlots x)) (fun _ _ => []) = true) ∧
    Can (withA regs) blk (rd 12) ∧ Can (withA regs) blk (rd 4) := by
  refine ⟨by decide +kernel, by decide +kernel, by decide +kernel, ⟨by decide +kernel, by decide +kernel⟩, can0 _ _ rfl, can0 _ _ rfl⟩

/-- The hypotheses of the store `x`: its bytes fit the queue, and the group's registers the pool. -/
def stB (fn : Nat) (x : Ext) (len n : Nat) (accs : List Access) (ws : List (Option Nat) → List (Nat × Byte)) : Bool :=
  storeB fn x (E regs len) &&
  okAnd ((At regs (wr len)).placeAll true (isBm x) n accs) fun p =>
    p.2.s.sqCore p.2.g.core + ((p.2.entriesOf (isBm x) (ws p.1)).map fun q => q.slots).sum ≤ 2048 &&
      roomB (st (withA regs) blk) (withA regs) (p.2.queued (isBm x) (ws p.1))

theorem wit_StoreResult :
    (∀ p ∈ [(({ d := 127, a := 128, b := 1, imm8 := 2 } : Ext), 12), (bmExt { off := 0, a := 1, b := 0, d := 4, scr := false, w := 0 }, 4)],
      let e := At regs (wr p.2)
      stB 1 p.1 p.2 4 (e.slotAccesses p.1 (e.storeSlots p.1) 4) (fun ps =>
        ((e.storeSlots p.1).zip ps).flatMap fun q => bytesFrom (q.2.getD 0) ((e.vval p.1.d.toNat).slot q.1).toNat 4) = true) ∧
    (∀ p ∈ [(({ d := 131, a := 128, imm8 := 3 } : Ext), 12), (umExt { imm := 8, a := 2, d := 5, w := 3 }, 4)],
      let e := At regs (wr p.2)
      stB 3 p.1 p.2 8 [{ slot := none, va := e.eaU p.1, n := 8 }]
        (fun ps => bytesFrom ((ps.headD none).getD 0) (e.sval (p.1.d.toNat - 128)).toNat 8) = true) ∧
    (let x : Ext := { d := 127, a := 128, b := 580 }
     let e := At regs (wr 12)
     e.strideTrap x true = none ∧ stB 5 x 12 4 (e.tileAccesses x (e.storeSlots x)) (fun ps =>
       (ps.zip ((e.storeSlots x).flatMap fun t => (List.range 1).map fun j => ((e.vval (127 + j)).slot t).toNat)).flatMap
         fun p => bytesFrom (p.1.getD 0) p.2 4) = true) ∧
    Can (withA regs) blk (wr 12) ∧ Can (withA regs) blk (wr 4) := by
  refine ⟨by decide +kernel, by decide +kernel, ⟨by decide +kernel, by decide +kernel⟩, can0 _ _ rfl, can0 _ _ rfl⟩

theorem wit_SpillResult :
    (let x : Ext := { d := 127 }
     let e := At regs (wr 12)
     storeB 6 x (E regs 12) = true ∧ okAnd (e.spillRange x) (fun r =>
       okAnd (e.placeAll true false 4 (e.spillAccesses r.2.1 r.2.2)) fun p =>
         let e2 := p.2.setArch { p.2.g.arch with spillMark := max (withA regs).arch.spillMark r.2.2 }
         let ws := (p.1.zip (e.spillWords x)).flatMap fun q => bytesFrom (q.1.getD 0) q.2.toNat 4
         e2.s.sqCore e2.g.core + ((e2.entriesOf false ws).map fun q => q.slots).sum ≤ 2048 &&
           roomB (st (withA regs) blk) (withA regs) (e2.queued false ws)) = true) ∧
    (let x : Ext := { d := 129, imm8 := 1, c := 240 }
     let e := At regs (rd 12)
     fullB 21 7 x (E regs 12) = true ∧ okAnd (e.spillRange x) (fun r =>
       okAnd (e.placeAll false false 4 (e.spillAccesses r.2.1 r.2.2)) fun p =>
         !p.2.behindAtom false p.1 4 && roomB (st (withA regs) blk) (withA regs) (p.2.loads false p.1 4 [.u 1 0, .u 2 0] ((e.spillAccesses r.2.1 r.2.2).map Access.va)))
       = true) ∧
    Full 21 8 { a := 128, b := 1 } (E regs 12) ∧ Can (withA regs) blk (wr 12) ∧ Can (withA regs) blk (rd 12) :=
  ⟨⟨by decide +kernel, by decide +kernel⟩, ⟨by decide +kernel, by decide +kernel⟩, full_of (by decide +kernel), can0 _ _ rfl,
    can0 _ _ rfl⟩

/-! The copy family: a copy-role group whose s10 to s15 hold a descriptor (R319): 64 bytes, in bench memory, from 0 to 128. -/

def cg (size : W64) : Group :=
  { grp 0 with
    arch := ((((grp 0).arch.setS 11 { val := 128 }).setS 12 { val := size }).setS 13 { val := 64 + 64 * 2 ^ 32 }).setS 15
      { val := 256 * 2 ^ 32 } }
def cx : Ext := { d := 131, a := 138 }
def ci : IssueInfo := { len := lenExt cx, mem := true, role := some 0 }
def cE (size : W64) : Env := envOf (st (cg size) blk) (cg size) blk (lenExt cx)
def cA (size : W64) : Env := envAt ci (st (cg size) blk) (cg size) blk
/-- Ready also where the index list is read, as CPYG and CPYS do. -/
theorem canC (size : W64) (r : Bool) : Can (cg size) blk { ci with reads := r } :=
  can _ _ _ rfl rfl rfl rfl rfl rfl rfl rfl rfl rfl rfl (by decide) (fun r h => by cases h; rfl)
def noCopyB (d : CopyDesc) : Bool :=
  d.size = 0 && roomB (st (cg 0) blk) (cg 0) (((cA 0).hold (.emptyCopy 64 d.course) [] none false).setS64 3 64)
def someCopyB (size : W64) (d : CopyDesc) : Bool :=
  let s := st (cg size) blk
  d.size ≠ 0 && ((List.range 64).find? fun k => !(s.copy 0 k).live) = some 0 &&
    s.locksOnDie 0 + ((cA size).locksOf d 0).length ≤ 1024 &&
    roomB s (cg size) (((cA size).setS (({ s with nextId := s.nextId + 1 } : State).setCopy 0 0 {})).setS64 3 256)

theorem wit_CopyResult :
    (∀ k ∈ List.range 6, fullB 22 k cx (cE 0) = true ∧ (cA 0).indexBehind cx k = false ∧ okAnd ((cA 0).checkDesc cx k) noCopyB = true) ∧
    (fullB 22 0 cx (cE 64) = true ∧ okAnd ((cA 64).checkDesc cx 0) (someCopyB 64) = true) ∧
    (∀ k ∈ [1, 2, 3, 4, 5], fullB 22 k cx (cE (64 + 2 ^ 32)) = true ∧ (cA (64 + 2 ^ 32)).indexBehind cx k = false ∧
      okAnd ((cA (64 + 2 ^ 32)).checkDesc cx k) (someCopyB (64 + 2 ^ 32)) = true) ∧
    (∀ i r, Can (cg i) blk { ci with reads := r }) :=
  ⟨by decide +kernel, ⟨by decide +kernel, by decide +kernel⟩, by decide +kernel, canC⟩

/-- CAOUT of the zero name, to bench memory from 128 (R355). -/
theorem wit_CopyResult_caout : let w := (cA 0).descWord cx
    let d0 : CopyDesc := { kind := 8, src := w 0, dst := w 1, rowBytes := 256 * 32 ^ (w 2 % 8), rows := 1,
                           dspace := bit (w 2) 3, op := w 2 % 8 }
    Full 23 6 cx (cE 0) ∧ w 2 % 8 ≤ 4 ∧ w 2 < 64 ∧ w 0 = 0 ∧ (cA 0).pastBench d0 = none ∧ bit (w 2) 4 = false ∧
      someCopyB 0 d0 = true :=
  ⟨full_of (by decide +kernel), by decide +kernel, by decide +kernel, by decide +kernel, by decide +kernel, by decide +kernel,
    by decide +kernel⟩

theorem wit_CopyQueryResult : Full 22 6 cx (cE 0) ∧ Full 22 6 { cx with imm8 := 1 } (cE 0) ∧ Full 22 7 { a := 138 } (cE 0) ∧
    roomB (st (cg 0) blk) (cg 0) ((cA 0).pendResult Config.latBench [.u 3 0] none) = true ∧
    roomB (st (cg 0) blk) (cg 0) ((cA 0).hold (.copyStop 0 false) [] none false) = true ∧ Can (cg 0) blk ci :=
  ⟨full_of (by decide +kernel), full_of (by decide +kernel), full_of (by decide +kernel), by decide +kernel, by decide +kernel, canC 0 false⟩

/-! The content-addressed and the synchronisation family. -/

def cl (x : Ext) : IssueInfo := { len := lenExt x, closing := true, mem := true, reads := true }
theorem can1 (f : Arch → Arch) (i : IssueInfo) (hr : i.role = none) : Can (withA f) blk i := can0 f i hr
/-- The request has its entries, and the registers it empties fit. -/
def heldB (e : Env) (r : Request) (dst : List Nat) : Bool :=
  e.s.sqCore e.g.core + r.entries ≤ 2048 && roomB (st (withA regs) blk) (withA regs) (e.hold r dst none false)

theorem wit_ContentResult : let x : Ext := { d := 131, a := 2 }
    let e := At regs (cl x)
    let zero : Ext := { d := 1, a := 128 }
    (fullB 23 0 x (E regs 12) = true ∧ okAnd (e.caGather x) (fun c => c.all (· = 0) && !e.caBehind x &&
      heldB e (.caput false c (nameHash (s0.owner 0).nkey false c) 65536 3) [3]) = true) ∧
    (fullB 23 2 x (E regs 12) = true ∧ okAnd ((At regs { len := 12, mem := true, reads := true }).caGather x)
      (fun _ => !(At regs { len := 12, mem := true, reads := true }).caBehind x) = true) ∧
    Full 23 1 zero (E regs 12) ∧ (E regs 12).srcU zero.lit zero.a = 0 ∧ Full 23 7 { d := 131, a := 128 } (E regs 12) ∧
    Full 23 3 { a := 128 } (E regs 12) ∧ Full 23 4 { a := 128 } (E regs 12) ∧ heldB e (.caref 0) [] = true ∧
    (let y : Ext := { d := 131, a := 130, b := 130, c := 130 }
     fullB 23 5 y (E regs 12) = true ∧ okAnd ((At regs (cl y)).placeSync true { slot := none, va := 131072, n := 8 })
       (fun p => heldB p.2 (.caswap 131072 p.1 0 0 3) [3]) = true) ∧
    Can (withA regs) blk (cl x) ∧ Can (withA regs) blk { len := 12, mem := true } ∧
    Can (withA regs) blk { len := 12, mem := true, reads := true } :=
  ⟨⟨by decide +kernel, by decide +kernel⟩, ⟨by decide +kernel, by decide +kernel⟩, full_of (by decide +kernel), by decide +kernel,
    full_of (by decide +kernel), full_of (by decide +kernel), full_of (by decide +kernel), by decide +kernel,
    ⟨by decide +kernel, by decide +kernel⟩, can0 _ _ rfl, can0 _ _ rfl, can0 _ _ rfl⟩

/-- The pool of owner 0 holds a line of the name 256, which s2 holds. -/
def regsN (a : Arch) : Arch := a.setS 2 { val := 256 }
def line : CaLine := { slot := 0, count := 1, allocGtc := 0 }
def sLine : State := { st (withA regsN) blk with caLines := [(0, 256, line)] }
theorem wit_ContentResult_line : let i : IssueInfo := { len := 12, mem := true, reads := true }
    let e := envAt i sLine (withA regsN) blk
    let x : Ext := { d := 1, a := 130 }
    let y : Ext := { d := 131, a := 130 }
    (E regsN 12).srcU x.lit x.a = 256 ∧ sLine.hasPool 0 256 = true ∧ sLine.caFind 0 256 = some line ∧
    Full 23 1 x (envOf sLine (withA regsN) blk 12) ∧ Full 23 7 y (envOf sLine (withA regsN) blk 12) ∧
    roomB sLine (withA regsN) ((e.namePath 256).2.pendResult (e.namePath 256).1 [.v 1 (.g []), .v 2 (.g [])] none) = true ∧ e.poisonOf false [some (sLine.caPa 0 256 0)] 256 [256] = none ∧
    roomB sLine (withA regsN) ((e.namePath 256).2.setS64 3 0) = true ∧ Ready i sLine (withA regsN) blk := by
  have h := (can0 regsN { len := 12, mem := true, reads := true } rfl).1
  exact ⟨by decide +kernel, by decide +kernel, by decide +kernel, full_of (by decide +kernel), full_of (by decide +kernel),
    by decide +kernel, by decide +kernel, by decide +kernel, ⟨h.group, h.block, h.alive, h.sound, h.placed, h.regions, h.role, h.waiting, h.unstalled, h.fenced⟩⟩

theorem wit_SyncResult :
    (let x : Ext := { d := 131, a := 130, b := 130, sat := true, imm8 := 0xB0 }
     let e := At regs (cl x)
     (usage 24 0 x).any (fun u => (E regs 12).blocked (srcCodes u x) (dstCodes u x) = none) = true ∧
     okAnd (e.placeSyncAll true [{ slot := none, va := e.baseAt x 0, n := 8 }]) (fun p =>
       heldB p.2 (.atom 0 true 3 true [(none, 0, 0, 0, 0)] (some 3) false) [3]) = true ∧ Can (withA regs) blk (cl x)) ∧
    (let x : Ext := { d := 1, a := 130, b := 1, imm8 := 0x80 }
     let e := At regs (cl x)
     (usage 24 0 x).any (fun u => (E regs 12).blocked (srcCodes u x) (dstCodes u x) = none) = true ∧
     okAnd (e.placeSyncAll true ((slots.filter fun i => e.active x i).map fun i => { slot := some i, va := e.baseAt x i, n := 4 }))
       (fun p => heldB (p.2.withPasses 8) (.atom 0 true 3 true (List.replicate 32 (none, 0, 0, 0, 0)) (some 1) true) [1]) = true ∧
     Can (withA regs) blk (cl x)) ∧
    (let x : Ext := { d := 131, a := 130, b := 130, c := 130 }
     let e := At regs (cl x)
     Full 24 1 x (E regs 12) ∧ okAnd (e.placeSync false { slot := none, va := 131072, n := 4 }) (fun p =>
       heldB p.2 (.waitc 0 0 0 false 0 0 0 0 3) [3]) = true ∧ Can (withA regs) blk (cl x)) ∧
    (let x : Ext := { d := 131, a := 130, b := 130, c := 130, e := 577, imm8 := 7 }
     Full 24 1 x (E regs (lenExt x)) ∧ (E regs (lenExt x)).blocked [(577, false)] [] = none ∧
     ((At regs (cl x)).srcU x.lit x.e).toNat % 2 ^ 32 ≠ 0) ∧
    (∀ q ∈ [(2, Request.qlock 131072 131072 0, true), (3, .qunlk 131072 131072 0, false)], let x : Ext := { a := 130 }
     fullB 24 q.1 x (E regs 12) = true ∧
     okAnd ((At regs { cl x with reads := q.2.2 }).placeSync true { slot := none, va := 131072, n := 8 }) (fun p =>
       heldB p.2 q.2.1 []) = true) ∧
    (∀ r, Can (withA regs) blk { cl {} with reads := r }) := by
  refine ⟨⟨by decide +kernel, by decide +kernel, can0 _ _ rfl⟩, ⟨by decide +kernel, by decide +kernel, can0 _ _ rfl⟩,
    ⟨full_of (by decide +kernel), by decide +kernel, can0 _ _ rfl⟩, ⟨full_of (by decide +kernel), by decide +kernel, by decide +kernel⟩,
    by decide +kernel, fun _ => can0 _ _ rfl⟩

/-- A course of two stages stands at bench offset 0 (R398), for CSARV, CSWT and CSREL. -/
def courseBlk : Block :=
  { blk with kernel := { kern with groups := 4 },
             bench := [(0, 2), (1, 1), (2, 1), (3, 0xC5), (16, 1), (17, 1), (18, 1), (24, 1), (25, 1)] }
def co (f : Arch → Arch) (i : IssueInfo) : Env := envAt i (st (withA f) courseBlk) (withA f) courseBlk
theorem canCo (i : IssueInfo) (hr : i.role = none) : Can (withA regs0) courseBlk i :=
  can _ _ _ rfl rfl rfl rfl rfl rfl rfl rfl rfl rfl rfl (by decide) (fun r h => by rw [hr] at h; cases h)

theorem wit_OrderResult :
    Full 24 4 { imm8 := 0x33 } (E regs 12) ∧ Can (withA regs) blk { len := 12, mem := true } ∧
    (let x : Ext := { d := 131, a := 130 }
     let e := At regs (rd 12)
     fullB 24 5 x (E regs 12) = true ∧ okAnd (e.placeAll false false 4 [{ slot := none, va := 131072, n := 4 }]) (fun p =>
       !p.2.behindAtom false p.1 4 && !p.2.promoHeld ((p.1.headD none).getD 0) 4 &&
         p.2.poisonOf false p.1 4 [131072] = none &&
         roomB (st (withA regs) blk) (withA regs) ((p.2.readPath false p.1 4).2.pendResult 9 [.u 3 0] none)) = true) ∧
    (let x : Ext := { imm8 := 3, a := 577 }
     Full 24 6 x (E regs 12) ∧ ((E regs 12).srcU x.lit x.a).toNat ≤ blk.kernel.groups ∧ Full 24 7 {} (E regs 12) ∧
     heldB (At regs { len := 12, closing := true, mem := true }) (.bar 3 0 1) [] = true ∧
     Can (withA regs) blk { len := 12, closing := true, mem := true }) ∧
    (let s := (st (withA regs) blk).setTcb 0 { coresident := true }
     (s.tcb 0).coresident = true ∧ Ready { len := 12, closing := true, mem := true } s (withA regs) blk) := by
  have h := (can0 regs { len := 12, closing := true, mem := true } rfl).1
  exact ⟨full_of (by decide +kernel), can0 _ _ rfl, ⟨by decide +kernel, by decide +kernel⟩,
    ⟨full_of (by decide +kernel), by decide +kernel, full_of (by decide +kernel), by decide +kernel, can0 _ _ rfl⟩,
    by decide +kernel, ⟨h.group, h.block, h.alive, h.sound, h.placed, h.regions, h.role, h.waiting, h.unstalled, h.fenced⟩⟩

theorem course_ok {e : Env} {x : Ext} {n : Nat} (h : okAnd (e.courseHeader (e.srcU x.lit x.a).toNat) (· = n) = true) :
    e.isCourse x n := by
  unfold Env.isCourse
  unfold okAnd at h
  split at h
  · rename_i k hk
    rw [hk]
    simpa using h
  · cases h

theorem wit_OrderResult_courses :
    (let x : Ext := { a := 128, b := 768, lit := some 0x10102 }
     let e0 := E regs 16
     Full 24 8 x e0 ∧ (e0.srcU x.lit x.b).toNat = 2 + 1 * 2 ^ 8 + 1 * 2 ^ 16 ∧ (e0.srcU x.lit x.a).toNat % 16 = 0 ∧
     0 + (16 + 8 * 2) ≤ e0.kernel.benchMem ∧ (0 / 524288 = (0 + 32 - 1) / 524288) ∧
     (At regs (wr 16)).s.sqCore 0 + (((At regs (wr 16)).entriesOf true ((List.range 32).map fun o => (o, 0))).map fun q => q.slots).sum
       ≤ 2048 ∧ Can (withA regs) blk (wr 16)) ∧
    (let x : Ext := { a := 128, b := 577 }
     let i : IssueInfo := { len := 12, closing := true, mem := true }
     Full 24 9 x (envOf (st (withA regs0) courseBlk) (withA regs0) courseBlk 12) ∧
     Full 24 10 x (envOf (st (withA regs0) courseBlk) (withA regs0) courseBlk 12) ∧
     Full 24 11 x (envOf (st (withA regs0) courseBlk) (withA regs0) courseBlk 12) ∧
     (co regs0 i).isCourse x 2 ∧ (co regs0 (wr 12)).isCourse x 2 ∧ (co regs0 (wr 12)).requestRoom (.csrel 0 1) ∧
     (co regs0 (rd 12)).isCourse x 2 ∧ (co regs0 (rd 12)).behindAtom true [some (0 + 18 + 8 * (1 % 2))] 1 = false ∧
     (let ph := (co regs0 (rd 12)).valueAt true ((co regs0 (rd 12)).ownQueue true) 1 (some (0 + 18 + 8 * (0 % 2)))
      ph % 2 = (0 / 2 + 1) % 2) ∧
     Can (withA regs0) courseBlk i ∧ Can (withA regs0) courseBlk (wr 12) ∧ Can (withA regs0) courseBlk (rd 12)) :=
  ⟨⟨full_of (by decide +kernel), by decide +kernel, by decide +kernel, by decide +kernel, by decide +kernel, by decide +kernel,
      can0 _ _ rfl⟩,
    full_of (by decide +kernel), full_of (by decide +kernel), full_of (by decide +kernel), course_ok (by decide +kernel),
    course_ok (by decide +kernel), by unfold Env.requestRoom; decide +kernel, course_ok (by decide +kernel),
    by decide +kernel, by decide +kernel, canCo _ rfl, canCo _ rfl, canCo _ rfl⟩

/-! The matrix family: a matrix-role group; s2 to s5 hold a format block of two FP32 sides with strides of 0, s10 holds a
compressed one (R265), s6 the base 0. -/

def mg : Group := { grp 1 with arch := (grp 1).arch.setS 10 { val := 2 ^ 26 } }
/-- The engine with ab0 and wb0 loaded dense, and wb2 loaded for compression. -/
def engine : Core := (((({} : Core).setSlot 0 { state := 1 }).setSlot 2 { state := 1 }).setSlot 4 { state := 2 })
def sM : State := (st mg blk).setCore 0 engine
def mi (x : Ext) : IssueInfo := { len := lenExt x, role := some 1 }
def mE (x : Ext) : Env := envOf sM mg blk (lenExt x)
def mA (i : IssueInfo) : Env := envAt i sM mg blk
theorem readyM (i : IssueInfo) (hr : i.role = some 1) : Ready i sM mg blk := by
  have h := ready_of mg blk i rfl rfl rfl rfl rfl (by decide) rfl rfl rfl rfl (fun r h => by rw [hr] at h; cases h; rfl)
  exact ⟨h.group, h.block, h.alive, h.sound, h.placed, h.regions, h.role, h.waiting, h.unstalled, h.fenced⟩
def mxRoom (e : Env) : Bool := roomB sM mg e

theorem wit_MatrixResult :
    (let x : Ext := { a := 130, imm8 := 0 }
     let e := mA (mi x)
     fullB 25 0 x (mE x) = true ∧ okAnd (e.mxBlock x.a) (fun f => mmaTrap (sM.core 0) f 0 0 = none) = true ∧
     (slots.all fun t => !e.active x t) = false ∧ e.mxHeld [8, 10] = false ∧ e.mxReady [8, 10] [0] ∧ mxRoom (e.mxSave [0]) = true) ∧
    (let x : Ext := { a := 130, kp := 1 }
     let e := mA (mi x)
     fullB 25 0 x (mE x) = true ∧ okAnd (e.mxBlock x.a) (fun f => mmaTrap (sM.core 0) f 0 0 = none) = true ∧
     (slots.all fun t => !e.active x t) = true ∧ e.mxHeld [8, 10] = false ∧ mxRoom e.mxWorked = true) ∧
    (let x : Ext := {}
     Full 25 4 x (mE x) ∧ (mA (mi x)).mxReady [] [0]) ∧
    (let x : Ext := { a := 128, imm8 := 1 }
     Full 25 9 x (mE x) ∧ (mA (mi x)).mxReady [0] [1]) ∧
    (let x : Ext := { d := 120 }
     Full 25 5 x (mE x) ∧ (mA (mi x)).mxHeld [0] = false ∧ mxRoom ((mA (mi x)).pendResult 12 [.v 120 (.g [])] none) = true) ∧
    (let x : Ext := { a := 120, imm8 := 0x7F }
     Full 25 6 x (mE x) ∧ (slots.filter fun t => (mA (mi x)).active x t) ≠ [] ∧ (mA (mi x)).mxReady [] [7]) ∧
    (let x : Ext := { a := 120, kp := 1 }
     Full 25 6 x (mE x) ∧ (slots.filter fun t => (mA (mi x)).active x t) = []) ∧
    (let x : Ext := { a := 138, imm8 := 2 }
     let e := mA (mi x)
     fullB 25 8 x (mE x) = true ∧ okAnd (e.mxBlock x.a) (fun f => f.bsp && !takesPair f.b.fmt f.k && f.b.fmt = 0 && !f.b.len32 && !f.b.scaled)
       = true ∧ ((sM.core 0).slot 4).state = 2 ∧ ((sM.core 0).slot 4).fmt = 0 ∧ e.mxHeld [12] = false ∧ e.mxReady [] [12]) ∧
    (∀ x, Ready (mi x) sM mg blk) := by
  refine ⟨⟨?_, ?_, ?_, ?_, ⟨?_, ?_⟩, ?_⟩, ⟨?_, ?_, ?_, ?_, ?_⟩, ⟨full_of ?_, ?_, ?_⟩, ⟨full_of ?_, ?_, ?_⟩, ⟨full_of ?_, ?_, ?_⟩,
    ⟨full_of ?_, ?_, ?_, ?_⟩, ⟨full_of ?_, ?_⟩, ⟨?_, ?_, ?_, ?_, ?_, ⟨?_, ?_⟩⟩, fun x => readyM _ rfl⟩ <;> decide +kernel

theorem wit_MatrixResult_mst : let x : Ext := { a := 128, b := 128, imm8 := 0x30 }
    let i : IssueInfo := { mi x with writes := true }
    let e := mA i
    Full 25 7 x (mE x) ∧ e.eaU x % 16 = 0 ∧ e.stride x % 16 = 0 ∧ e.mxHeld [0] = false ∧
    okAnd (e.placeChunks true true (rowChunks (e.eaU x) (e.stride x) 64)) (fun p => mxRoom p.2) = true ∧ Ready i sM mg blk :=
  ⟨full_of (by decide +kernel), by decide +kernel, by decide +kernel, by decide +kernel, by decide +kernel, readyM _ rfl⟩

def mxLoadB (bm : Bool) (items : List Nat) (cs ss : List (Nat × Nat)) (i : IssueInfo) : Bool :=
  let e := mA i
  !e.mxHeld items && e.mxFree items && okAnd (e.placeChunks false bm (cs ++ ss)) fun p =>
    let data := (p.1.take cs.length).map some
    let scales := (p.1.drop cs.length).map some
    !p.2.behindAtom bm data 16 && !p.2.behindAtom bm scales 1 &&
      (let q := p.2.readPath bm data 16
       let r := q.2.readPath bm scales 1
       let e2 := r.2.pendResult (max q.1 r.1) [] none
       (r.2.poisonOf bm data 16 (cs.map (·.1))).isNone && (r.2.poisonOf bm scales 1 (ss.map (·.1))).isNone &&
         !e2.mxHeld items && e2.mxFree items && mxRoom e2)
def ml (x : Ext) : IssueInfo := { mi x with reads := true }

theorem wit_MatrixLoadResult :
    (let x : Ext := { a := 128, b := 130 }
     let i := ml x
     fullB 25 1 x (mE x) = true ∧ okAnd ((mA i).mxBlock x.b) (fun f => f.a.stride % 16 = 0 && (mA i).eaU x % 16 = 0 &&
       mxLoadB true [8] (rowChunks ((mA i).eaU x) f.a.stride (rowBytes f.a.fmt f.k)) (scaleChunks f.a ((mA i).eaU x) f.k) i) = true) ∧
    (let x : Ext := { a := 128, b := 130, imm8 := 15 }
     let i := ml x
     fullB 25 2 x (mE x) = true ∧ okAnd ((mA i).mxBlock x.b) (fun f => !takesPair f.b.fmt f.k && f.b.stride % 16 = 0 &&
       (mA i).eaU x % 16 = 0 &&
       mxLoadB true [25] (rowChunks ((mA i).eaU x) f.b.stride (rowBytes f.b.fmt f.k)) (scaleChunks f.b ((mA i).eaU x) f.k) i) = true) ∧
    (let x : Ext := { a := 128 }
     let i := ml x
     fullB 25 3 x (mE x) = true ∧ (mA i).eaU x % 16 = 0 ∧
       mxLoadB true [26] ((List.range 128).map fun j => (((mA i).eaU x + 16 * j) % 2 ^ 64, 16)) [] i = true) ∧
    (∀ x, Ready (ml x) sM mg blk) :=
  ⟨⟨by decide +kernel, by decide +kernel⟩, ⟨by decide +kernel, by decide +kernel⟩,
    ⟨by decide +kernel, by decide +kernel, by decide +kernel⟩, fun x => readyM _ rfl⟩

/-! The task and system family. -/

/-- A group in its handler, and a block whose THROTTLE edge is pending. -/
def regsH (a : Arch) : Arch := { (a.setS 377 { val := 65600 }) with handler := true, entryRun := 0xFF }
def edgeBlk : Block := { blk with edgePend := true, armBegin := true }
theorem canE (f : Arch → Arch) (b : Block) (i : IssueInfo) (hb : b.ref = ⟨0, 0⟩) (h3 : b.state = .placed)
    (hk : b.kernel.vcount ≤ 128) (hr : i.role = none) : Can (withA f) b i :=
  can _ _ _ rfl rfl rfl rfl rfl rfl rfl rfl rfl hb h3 hk (fun r h => by rw [hr] at h; cases h)

theorem wit_SpecialResult :
    (∀ p ∈ ([(3, { d := 131, imm8 := 7 }), (8, { d := 131 }), (8, { d := 131, imm8 := 1 }), (10, { d := 131 }), (4, { a := 130 }),
       (4, { a := 130, imm8 := 4 }), (4, { a := 130, imm8 := 9 }), (6, { d := 131, a := 577 })] : List (Nat × Ext)),
      fullB 26 p.1 p.2 (E regs 12) = true) ∧
    roomB (st (withA regs) blk) (withA regs) (At regs { len := 12 }) = true ∧
    roomB (st (withA regs) blk) (withA regs) ((At regs { len := 12 }).setS64 3 1) = true ∧ Can (withA regs) blk { len := 12 } :=
  ⟨by decide +kernel, by decide +kernel, by decide +kernel, can0 _ _ rfl⟩

theorem wit_RteResult :
    Full 26 9 {} (envOf (st (withA regsH) blk) (withA regsH) blk 12) ∧ (withA regsH).arch.handler = true ∧
    (envOf (st (withA regsH) blk) (withA regsH) blk 12).blocked [(128 + 377, false)] [] = none ∧ blk.edgePend = false ∧
    Full 26 9 {} (envOf (st (withA regsH) edgeBlk) (withA regsH) edgeBlk 12) ∧ edgeBlk.edgePend = true ∧
    (envOf (st (withA regsH) edgeBlk) (withA regsH) edgeBlk 12).blocked [(128 + 377, false)] [] = none ∧
    (let e := (envAt { len := 12, closing := true } (st (withA regsH) edgeBlk) (withA regsH) edgeBlk).setArch
       ((withA regsH).arch.past 12).returnFromTrap
     (electGroup (e.g :: (e.s.groupsOf edgeBlk.ref).filter fun h => h.ref ≠ e.g.ref)).isSome = true ∧
       roomB e.s (withA regsH) e = true) ∧
    Can (withA regsH) blk { len := 12, closing := true } ∧ Can (withA regsH) edgeBlk { len := 12, closing := true } := by
  refine ⟨full_of ?_, ?_, ?_, ?_, full_of ?_, ?_, ?_, ⟨?_, ?_⟩, can0 _ _ rfl, canE _ _ _ rfl rfl (by decide) rfl⟩ <;>
    decide +kernel

/-- 64 bytes of zeros at 131072 under the owner's key: a spawn record with no tiles (R121). -/
def sRec : State :=
  { st (withA regs) blk with mem := (List.range 64).map fun i => (131072 + i, 0), keys := [(2048, { data := 0, tweak := 0 })] }
def sq : IssueInfo := { len := 12, closing := true, mem := true, reads := true }

/-- A launch whose die holds a tile index, one with none to come (R132), and a block that has fetched further than the group. -/
def tiles0 : List (Tcb × Block) :=
  [({ stock := [(0, [5])] }, blk), ({ spent := [0] }, blk), ({}, { blk with recNext := 3, tileRec := [(0, 7), (1, 8), (2, 9)] })]
def sTile (p : Tcb × Block) : State := (st (withA regs) p.2).setTcb 0 p.1

def tileB (p : Tcb × Block) : Bool :=
  let s := sTile p
  let t := s.tcb 0
  (s.groupsOf p.2.ref).all (fun h => h.exited || h.ref = (withA regs).ref) &&
    (0 < p.2.recNext || tget [] t.stock p.2.die ≠ [] || (t.dry p.2.die && (tfind t.asked p.2.die).isNone)) &&
    roomB s (withA regs) ((envAt { len := 12 } s (withA regs) p.2).pendResult Config.latScratch [.u 3 0] none)

theorem wit_TaskResult :
    (let x : Ext := { d := 131, a := 130 }
     let e := envAt sq sRec (withA regs) blk
     Full 26 1 x (envOf sRec (withA regs) blk 12) ∧ okAnd (e.placeAll false false 64 [{ slot := none, va := 131072, n := 64 }])
       (fun p => spawnOk (p.2.bytesAt false (p.2.ownQueue false) ((p.1.headD none).getD 0) 64) &&
         roomB sRec (withA regs) ((p.2.readPath false p.1 64).2.pendResult 9 [] none |>.hold (.spawn [] 0) [3] none false)) = true ∧
     Ready sq sRec (withA regs) blk) ∧
    Full 26 2 { d := 131 } (E regs 12) ∧ (s0.tcb 0).coresident = false ∧
    (let i : IssueInfo := { len := 12, closing := true }
     roomB (st (withA regs) blk) (withA regs) ((At regs i).hold (.join 3) [3] none true) = true ∧ Can (withA regs) blk i) ∧
    Full 26 0 { d := 131 } (E regs 12) ∧
    (∀ p ∈ tiles0, tileB p = true ∧ Ready { len := 12 } (sTile p) (withA regs) p.2) ∧
    Full 26 5 { a := 130, b := 577, imm8 := 2 } (E regs 12) ∧ (At regs { len := 12 }).released = true ∧
    Can (withA regs) blk { len := 12 } := by
  have h := (can0 regs sq rfl).1
  have h3 : ∀ p ∈ tiles0, tileB p = true ∧ p.2.ref = ⟨0, 0⟩ ∧ p.2.state = .placed ∧ p.2.kernel.vcount ≤ 128 := by decide +kernel
  have h4 : ∀ p ∈ tiles0, Ready { len := 12 } (sTile p) (withA regs) p.2 := fun p hp => by
    have h := (canE regs p.2 { len := 12 } (h3 p hp).2.1 (h3 p hp).2.2.1 (h3 p hp).2.2.2 rfl).1
    exact ⟨h.group, h.block, h.alive, h.sound, h.placed, h.regions, h.role, h.waiting, h.unstalled, h.fenced⟩
  refine ⟨⟨full_of ?_, ?_, ⟨h.group, h.block, h.alive, h.sound, h.placed, h.regions, h.role, h.waiting, h.unstalled, h.fenced⟩⟩, full_of ?_, ?_,
    ⟨?_, can0 _ _ rfl⟩, full_of ?_, fun p hp => ⟨(h3 p hp).1, h4 p hp⟩,
    full_of ?_, ?_, can0 _ _ rfl⟩ <;> decide +kernel

/-! The events: each clause's hypotheses at a state of its own, the simplest that has them. -/

/-- The machine after bring-up. -/
def up : State := { State.reset.setOwner 0 { en := true } with step := 7, gtc := 1000 }
/-- Queue 0 with a committed packet of a type. -/
def pk (type : Nat) (body : List W32) : Packet :=
  { type, body, addr := 131072, level := 0, words := body.length + 1, pas := [131072], commitAt := some 0 }
def withQ (q : Queue) : State := up.setQueue 0 { q with en := true }
def qOf (p : Packet) : State := withQ { inflight := [p] }

theorem wit_QueueRegisters : (State.reset.queue 0).en = false ∧ ((withQ { stalled := true }).queue 0).stalled = true ∧
    (withQ { stalled := true }).launchRoom 0 = true := by
  refine ⟨?_, ?_, ?_⟩ <;> decide +kernel

/-- A ring of 4 KiB at 131072 that holds one NOP packet: its header is a word of zeros. -/
def sRing : State :=
  { withQ { base := 131072, log := 12, wptr := 4 } with
    mem := (List.range 64).map fun i => (131072 + i, 0), keys := [(2048, { data := 0, tweak := 0 })], tlb := [page] }
def packetB (p : Parsed) (k : Packet → Bool) : Bool := match p with | .packet p _ _ => k p | .nothing => false
theorem packet_of {x : Parsed} {k : Packet → Bool} (h : packetB x k = true) : ∃ p q s, x = .packet p q s ∧ k p = true := by
  cases x with
  | nothing => cases h
  | packet p q s => exact ⟨p, q, s, rfl, h⟩
theorem wit_PacketLife_parse : sRing.parseChoice 0 = some 0 ∧
    ∃ p q s, sRing.nextPacket 0 = .packet p q s ∧ (p.type = 0 && p.fault = 0) = true :=
  ⟨by decide +kernel, packet_of (by decide +kernel)⟩

/-- A packet that has been parsed, and two that have committed: one that takes a fault, one whose effect has been applied. -/
theorem wit_PacketLife_done : let p := { pk 2 [] with fault := 9 }
    let d := { pk 0 [] with done := true }
    let o := { pk 0 [] with commitAt := none, parseEnd := 1000 }
    let r := { pk 5 [] with commitAt := none }
    (((qOf r).queue 0).inflight = r :: [] ∧ ((qOf r).queue 0).en = true ∧ r.parseEnd ≤ (qOf r).gtc ∧ r.fault = 0 ∧ r.skip = false) ∧
    (((qOf o).queue 0).inflight = o :: [] ∧ ((qOf o).queue 0).en = true ∧ o.parseEnd ≤ (qOf o).gtc) ∧
    (((qOf p).queue 0).inflight = p :: [] ∧ ((qOf p).queue 0).en = true ∧ p.parseEnd ≤ (qOf p).gtc ∧ p.commitAt = some 0 ∧ p.fault ≠ 0) ∧
    (((qOf d).queue 0).inflight = d :: [] ∧ ((qOf d).queue 0).en = true ∧ d.parseEnd ≤ (qOf d).gtc ∧ d.commitAt = some 0 ∧ d.fault = 0 ∧
      (d.done || d.skip) = true ∧ d.opens = false ∧ ((qOf d).queue 0).levels = [] ∧ ((qOf d).queue 0).loops = []) := by
  refine ⟨⟨?_, ?_, ?_, ?_, ?_⟩, ⟨?_, ?_, ?_⟩, ⟨?_, ?_, ?_, ?_, ?_⟩, ?_, ?_, ?_, ?_, ?_, ?_, ?_, ?_, ?_⟩ <;> decide +kernel

/-- The packets that write do so at once on their own die, and are held on the way to the other (R315). -/
theorem wit_PacketEffects : (∀ type ∈ [1, 8, 10], let p := { pk type [] with sent := none }
      let f := { p with pas := [2 ^ 37] }
      p.sent = none ∧ (qOf p).packetHold 0 p = 0 ∧ (qOf f).packetHold 0 f ≠ 0 ∧ ((qOf f).queue 0).due 1000 type = some f) ∧
    (∀ type < 13, ((qOf (pk type [])).queue 0).due 1000 type = some (pk type [])) ∧
    (let s := withQ { inflight := [pk 3 [1]], recent := [0], launches := 1 }
     (s.queue 0).due 1000 3 = some (pk 3 [1]) ∧ (s.queue 0).recent[bodyWord (pk 3 [1]).body 0 % 2 ^ 12 - 1]? = some 0) ∧
    (let p := { pk 5 [] with value := some true }
     ((qOf p).queue 0).due 1000 5 = some p) ∧
    (let s := qOf (pk 8 [0, 0, 0, 0, 1])
     bodyWord (pk 8 [0, 0, 0, 0, 1]).body 4 % 4 = 1 ∧ s.launchesRetired 0 = true) := by
  refine ⟨?_, ?_, ⟨?_, ?_⟩, ?_, ?_, ?_⟩ <;> decide +kernel

/-- 64 bytes at 131072 under the owner's key. -/
def bytesAt (s : State) (bs : List Byte) : State :=
  { s with mem := bs.zipIdx.map fun b => (131072 + b.2, b.1), keys := [(2048, { data := 0, tweak := 0 })] }
/-- A CHECKPOINT packet whose descriptor's bytes are those (R449), and its record once it runs. -/
def ckPk : Packet := { pk 11 [] with pas := codes 131072 64 }
def ckpt : Checkpoint := { queue := 0, desc := codes 131072 64, owner := 0, flags := 1, ports := 1, sink := 0, limit := 0, start := 0 }

theorem wit_PacketWaits :
    (let s := withQ { inflight := [pk 2 []], preds := [1], recent := [1], launches := 1 }
     let t := s.setTcb 1 { state := .running, seq := 0 }
     (t.queue 0).due 1000 2 = some (pk 2 []) ∧ t.launchRoom 0 = true ∧ t.freeTcb 0 = some 0 ∧
       ((t.queue 0).preds.filter fun x => (t.tcb x).state ≠ TaskState.retired) = [1] ∧ [1].Nodup) ∧
    (let p := pk 7 [0, 0, 0, 0, 0, 0, 0, 1]
     let s := bytesAt (qOf p) (List.replicate 64 0)
     (s.queue 0).due 1000 7 = some p ∧ p.watch = none ∧
       Watch.holdsNow { pa := 131072, cc := 0, ref := 0, mask := 0 } s 0 = true) ∧
    (let p := { pk 7 [0, 0, 0, 0, 0, 0, 1, 1] with value := some false }
     let s := bytesAt (qOf p) (List.replicate 64 0)
     (s.queue 0).due 1000 7 = some p ∧ p.watch = none ∧ p.value ≠ some true ∧
       Watch.holdsNow { pa := 131072, cc := bodyWord p.body 6, ref := 0, mask := 0 } s 0 = false) ∧
    (let w : Watch := { pa := 131072, cc := 0, ref := 0, mask := 0, met := true }
     let p := { pk 7 [] with watch := some w }
     let s := bytesAt (qOf p) (List.replicate 64 0)
     (s.queue 0).due 1000 7 = some p ∧ p.reevaluateDue 1000 = true ∧ w.holdsNow s 0 = true) ∧
    (let w : Watch := { pa := 131072, cc := 0, ref := 0, mask := 0 }
     let p := { pk 7 [] with watch := some w, waitUntil := some 1000 }
     ((qOf p).queue 0).due 1000 7 = some p ∧ p.watch = some w ∧ w.met = false ∧ p.waitUntil = some 1000) ∧
    (∀ q ∈ [([0x43, 0x48, 0x43, 0x4B, 1, 0, 0, 0, 1, 0], true), ([], false)],
     let s := bytesAt (qOf ckPk) (q.1 ++ List.replicate 64 0)
     (s.queue 0).due 1000 11 = some ckPk ∧ s.launchesRetired 0 = true ∧ s.checkpoints = [] ∧
       checkpointOk (ckPk.pas.map fun pa => s.readByte (s.queueKey (s.queue 0) pa) pa) = q.2) := by
  refine ⟨⟨?_, ?_, ?_, ?_, ?_⟩, ⟨?_, ?_, ?_⟩, ⟨?_, ?_, ?_, ?_⟩, ⟨?_, ?_, ?_⟩, ⟨?_, ?_, ?_, ?_⟩, ?_⟩ <;> decide +kernel

/-- The bytes of a checkpoint contain a free number of runs: it is done at some cycle, whatever that number is. -/
theorem wit_PacketWaits_end : ∃ n, let s := { qOf ckPk with checkpoints := [ckpt], gtc := n }
    (s.queue 0).due n 11 = some ckPk ∧ s.checkpoints.find? (fun c => c.queue = 0) = some ckpt ∧ s.checkpointDue ckpt = true ∧
      ckPk.sent = none ∧ s.packetHold 0 ckPk = 0 := by
  have hh : ({ qOf ckPk with checkpoints := [ckpt] } : State).packetHold 0 ckPk = 0 := by decide +kernel
  refine ⟨(qOf ckPk).checkpointBytes ckpt / 2600, ?_, by decide, ?_, rfl, hh⟩
  · show Queue.due { inflight := [ckPk], en := true } _ 11 = _
    simp [Queue.due, ckPk, pk, Packet.committed]
  · unfold State.checkpointDue
    rw [decide_eq_true_iff]
    exact Nat.le_of_eq (Nat.zero_add _)

/-- Task 1 is a producer whose next successor takes a chunk, on a die whose chunks are those of `l` (R97). -/
def sFull (l : List Nat) : State :=
  { (withQ { inflight := [pk 2 []], preds := [1] }).setTcb 1 { state := .running } with dies := [(0, { chunksUsed := l })] }
theorem full_chunks (l : List Nat) (h : l.length = 2 ^ 18) : (sFull l).launchRoom 0 = false := by
  have h1 : (sFull l).chunkRoom [1] = (decide (1 + l.length ≤ 2 ^ 18) && decide (0 + ((sFull l).die 1).chunksUsed.length ≤ 2 ^ 18)) := by
    have hd : ((sFull l).die 0).chunksUsed = l := rfl
    have hn : ([1].filter fun p => dieOfTask p = 0 && (sFull l).needsChunk p).length = 1 := by rfl
    have hm : ([1].filter fun p => dieOfTask p = 1 && (sFull l).needsChunk p).length = 0 := by rfl
    unfold State.chunkRoom
    simp [List.all_cons, hd, hn, hm]
  have h2 : ((sFull l).tcb 1).state = .running := rfl
  have h3 : ((sFull l).queue 0).preds = [1] := rfl
  unfold State.launchRoom
  simp [h3, h1, h2, h]
/-- A producer whose successor list needs a chunk while none is free (R97). -/
theorem wit_PacketWaits_stall : let s := sFull (List.replicate (2 ^ 18) 0)
    (s.queue 0).due 1000 2 = some (pk 2 []) ∧ s.launchRoom 0 = false :=
  ⟨rfl, full_chunks _ List.length_replicate⟩

/-! Tasks and blocks: task 0 runs `k1` on field 0, whose block is `b1`. -/

def k1 : Kernel := { curClass := 100, benchMem := 4096, textBase := 65536, textSize := 65536 }
def b1 : Block := { ref := ⟨0, 0⟩, kernel := k1 }
def t1 : Tcb := { state := .ready, fmask := 1, tiles := 1, blocks := 1, kernel := some k1 }
def run1 : Tcb := { t1 with state := .running, placed := 1, blkLeft := 1 }
/-- Field 0 is on, and die 0 has a save pool. -/
def sF : State := (up.setField 0 { on := true }).setDie 0 { saveBase := 2 ^ 30, saveSize := 64 }
def sT (t : Tcb) (bs : List Block) : State := { sF.setTcb 0 t with blocks := bs, groups := bs.map fun b => b.newGroup 0 0 }
def isError {ε α : Type} (r : Except ε α) : Bool := match r with | .ok _ => false | .error _ => true
/-- The dispatcher has an opportunity, and its first candidate is as asked. -/
def chanceB (s : State) (die : Nat) (k : Candidate → Bool) : Bool :=
  s.placing && (match s.candidates die with | c :: _ => k c | [] => false)
/-- Nothing stands under the number of the task's next block. -/
def freshB (s : State) (task : Nat) : Bool :=
  (s.block? ⟨task, (s.tcb task).placed⟩).isNone && s.groups.all fun h => blockOf h.ref ≠ ⟨task, (s.tcb task).placed⟩
/-- The span and the spill slots that a block of `k` takes (R129, R130, R283). -/
def spanB (s : State) (task : Nat) (k : Kernel) (mask : Nat) (ok : Nat → Bool) : Bool :=
  (s.findSpan task k mask ok).isSome && (s.spillRoom 0 k.groups k.spillSz).isSome
def resumesB (s : State) : Bool := chanceB s 0 fun c =>
  c.resume = some ⟨0, 0⟩ && (match s.tryCandidate c 255 with | .places _ => true | _ => false)
/-- The save pool has room for a block. -/
def roomOf (s : State) (b : Block) : Bool :=
  let sq := s.squashAll ((s.groupsOf b.ref).map fun g => g.ref)
  s.block? b.ref = some b && (pickUnits (sq.die b.die).saveUnits (sq.die b.die).saveSize
    (((b.areaLayout (sq.groupList b)).2.2 + 65535) / 65536)).isSome
def saved1 : Block := { b1 with state := .saved 1 0 1 0 }
/-- A task of a higher priority with an old reservation of the field that `b1` is on, whose current is all committed. -/
def sRes : State := ((sT run1 [b1]).setTcb 1 { t1 with prio := 1, reserved := true }).setField 0 { on := true, commit := 1600 }
def ask (op task : Nat) (t : Tcb) (bs : List Block) : State :=
  let s := sT t bs
  s.setDie 0 { s.die 0 with pctlDone := false, runOp := op, runTask := task }
def askedB (s : State) (op : Nat) : Bool := !(s.die 0).pctlDone && (s.die 0).runOp = op && s.drone.recovering.isNone
def goB (s : State) : Bool := askedB s 1 && !(s.die 0).pctlBegun

/-- The task waits for a tile index at an empty stock, and its refill performs (R132). -/
def sWaits (t : Tcb) : State :=
  { sT t [b1] with groups := [{ b1.newGroup 0 0 with wait := .empty }] }

theorem wit_DispatcherEvents :
    (let s := sT { t1 with splicing := true } []
     (s.tcb 0).splicing = true ∧ isError (s.spliceTests 0) = true) ∧
    chanceB (sT { t1 with cancel := true } []) 0 (fun c => c.task = 0 && c.resume.isNone) = true ∧
    chanceB (sT { t1 with tiles := 0 } []) 0 (fun c => c.task = 0 && c.resume.isNone) = true ∧
    (let s := sT { run1 with tiles := 2, blocks := 2 } [b1]
     chanceB s 0 (fun c => c.task = 0 && c.resume.isNone) = true ∧ s.capacity k1 1 ≠ 0 ∧
       spanB s 0 k1 (1 &&& 255) (fun _ => true) = true ∧ freshB s 0 = true) ∧
    (let s := sT { run1 with blocks := 1 } [saved1]
     chanceB s 0 (fun c => c.resume = some ⟨0, 0⟩) = true ∧ s.block? ⟨0, 0⟩ = some saved1 ∧
       spanB s 0 k1 (1 &&& 255) (s.copiesFit saved1) = true ∧ resumesB s = true) ∧
    ({ t1 with passedSince := some 0 } : Tcb).reservationDue 100000 = true ∧
    (let s := { sRes with gtc := 200000 }
     s.reservationUnmet 1 = true ∧ s.victims 1 = [b1] ∧ (s.stopAll 1 (s.withCoresident b1)).isSome = true ∧
       (s.tcb 0).coresident = false ∧ roomOf s b1 = true) ∧
    (let s := sWaits { run1 with tiles := 64 }
     s.refillDue 0 0 = false ∧ s.refillWanted 0 0 = true) ∧
    (let s := sWaits { run1 with tiles := 64, asked := [(0, 1000)] }
     s.refillDue 0 0 = true ∧ (∃ x ∈ s.blocksOn 0 0, x.exhausted = false) ∧ 0 < (s.die 0).batch ∧ 0 ∉ (s.tcb 0).spent) ∧
    (let s := sWaits { run1 with tiles := 64, asked := [(0, 1000)], returned := List.range 64 }
     s.refillDue 0 0 = true ∧ (∃ x ∈ s.blocksOn 0 0, x.exhausted = false) ∧ ¬((s.tcb 0).returned.take (s.die 0).batch).length < (s.die 0).batch) ∧
    (let s := ask 1 0 run1 [b1]
     goB s = true ∧ dieOfTask (s.die 0).runTask = 0 ∧ (s.tcb 0).state = .running ∧ (s.preemptTask 0 1).isSome = true ∧
       (s.blocks.filter fun x => x.ref.task = 0 && x.state = .placed) = [b1] ∧ roomOf s b1 = true) ∧
    (let s := (ask 1 0 run1 [b1]).setDie 0 { pctlDone := false, runOp := 1, runTask := 0 }
     goB s = true ∧ (s.preemptTask 0 1).isNone = true ∧ (s.tcb 0).state = .running) ∧
    (goB (ask 1 0 { run1 with state := .retiring } []) = true ∧ ((ask 1 0 { run1 with state := .retiring } []).tcb 0).state = .retiring) ∧
    (goB (ask 1 0 t1 []) = true ∧ ((ask 1 0 t1 []).tcb 0).state ≠ .running ∧ ((ask 1 0 t1 []).tcb 0).state ≠ .retiring) ∧
    (let s := ask 2 0 run1 [b1]
     askedB s 2 = true ∧ (s.die 0).pctlBegun = false ∧ (s.tcb 0).state = .running) ∧
    (let s := (ask 2 0 t1 []).setDie 0 { pctlDone := false, runOp := 2, runTask := 0, pctlBegun := true }
     askedB s 2 = true ∧ (s.die 0).pctlBegun = true ∧ (s.tcb 0).state ≠ .running) := by
  refine ⟨⟨?_, ?_⟩, ?_, ?_, ⟨?_, ?_, ?_, ?_⟩, ⟨?_, ?_, ?_, ?_⟩, ?_, ⟨?_, ?_, ?_, ?_, ?_⟩, ⟨?_, ?_⟩, ⟨?_, ?_, ?_, ?_⟩, ⟨?_, ?_, ?_⟩,
    ⟨?_, ?_, ?_, ?_, ?_, ?_⟩, ⟨?_, ?_, ?_⟩, ⟨?_, ?_⟩, ⟨?_, ?_, ?_⟩, ⟨?_, ?_, ?_⟩, ?_, ?_, ?_⟩ <;> decide +kernel

/-- A block that is saved at 1000; one whose only group has exited; a task whose retirement is due, with a successor. -/
theorem wit_BlockEvents :
    (let b := { b1 with state := .saving 1 0 1 1000 }
     let s := sT run1 [b]
     s.block? b.ref = some b ∧ 1000 ≤ s.gtc ∧ s.entries = [] ∧ s.pendings = [] ∧ s.copies = []) ∧
    (let s := { sT run1 [b1] with groups := [{ b1.newGroup 0 0 with exited := true, ended := true }] }
     s.block? b1.ref = some b1 ∧ s.blockEnds b1 = true ∧ (s.tcb 0).state = .running ∧ (s.tcb 0).blkLeft = 1 ∧
       ∀ x ∈ s.blocks, x.ref.task = 0 → x.ref = b1.ref) ∧
    (let s0 := (sT { run1 with state := .retiring } []).setTcb 1 { state := .waiting, preds := 1 }
     let s := ((s0.setDie 0 { retireQueue := [0], tcbPool := 2 ^ 30 }).setQueue 0 { recent := [0] }).addSucc 0 1
     (s.die (dieOfTask 0)).retireQueue.head? = some 0 ∧ (s.tcb 0).state = .retiring ∧ s.drone.recovering = none ∧
       (s.tcb 0).fusedFlag = false ∧ s.successors 0 = [1] ∧ (s.tcb 0).spawned = false ∧ 0 ∈ (s.queue (s.tcb 0).queue).recent ∧
       (s.tcb 1).state = .waiting ∧ (s.tcb 1).preds = 1) ∧
    (let s := (sT { run1 with state := .retiring, spawned := true } []).setDie 0 { retireQueue := [0] }
     (s.die (dieOfTask 0)).retireQueue.head? = some 0 ∧ (s.tcb 0).state = .retiring ∧ (s.tcb 0).fusedFlag = false ∧
       s.successors 0 = [] ∧ (s.tcb 0).spawned = true) := by
  refine ⟨⟨?_, ?_, ?_, ?_, ?_⟩, ⟨?_, ?_, ?_, ?_, ?_⟩, ⟨?_, ?_, ?_, ?_, ?_, ?_, ?_, ?_, ?_⟩, ?_, ?_, ?_, ?_, ?_⟩ <;> decide +kernel

/-- Bring-up ramps field `f`, whose ramp has ended. -/
def bring (f failed : Nat) (signed : Bool) : State :=
  { up.setField f { ramping := some 1000 } with step := 4, bringUp := some { pool0 := 0, pool1 := 0, failed, signed, field := f } }
def bringsB (s : State) (f : Nat) (k : BringUp → Bool) : Bool :=
  ((s.field f).ramping.any fun e => e ≤ s.gtc) && s.bringUp.any fun u => u.field = f && k u

def clearB (s : State) (f : Nat) : Bool := !s.hung && s.inputPower + 60 ≤ 3400 &&
  (List.range 8).all fun i => !(i / 4 = f / 4 && (i = f + 1 || f = i + 1)) || !(s.field i).tripped
def idleB (s : State) (f : Nat) : Bool :=
  !s.hung && s.step = 7 && !(s.field f).offline && !(s.field f).on && (s.field f).ramping.isNone

theorem wit_PowerEvents :
    (State.reset.step = 0 ∧ clearB State.reset 0 = true) ∧ (idleB up 3 = true ∧ clearB up 3 = true) ∧
    (idleB { up with inputPower := 3400 } 3 = true ∧ clearB { up with inputPower := 3400 } 3 = false) ∧
    (idleB (up.setField 2 { tripped := true }) 3 = true ∧ clearB (up.setField 2 { tripped := true }) 3 = false) ∧
    (((up.setField 7 { ramping := some 1000 }).field 7).ramping = some 1000 ∧ up.bringUp = none) ∧
    (bringsB (bring 0 1 true) 0 (fun u => bit u.failed 0) = true ∧
      bringsB (bring 0 0 false) 0 (fun u => !bit u.failed 0 && !u.signed) = true ∧
      bringsB (bring 0 2 true) 0 (fun u => !bit u.failed 0 && u.signed) = true ∧
      bringsB (bring 1 2 true) 1 (fun _ => true) = true ∧ bringsB (bring 7 0 true) 7 (fun _ => true) = true) ∧
    ((sF.field 0).on = true ∧ sF.fieldBusy 0 = false) ∧
    (6 ≤ up.step ∧ (∃ drop, 3 * Config.pathResistance (4 / 4 % 2) 5 + 150 < drop) ∧
      ∃ drop, drop ≤ 3 * Config.pathResistance (4 / 4 % 2) 5 + 150) ∧
    (let x := (up.setField 0 { cur := 1600 }).field 0
     x.eff ≤ x.cur ∧ x.tripped = false ∧ x.modTrip = false ∧ x.hot = []) ∧
    (let s := { up.setField 0 { tripped := true, lowSince := some 0 } with gtc := 10000 }
     (s.field 0).tripped = true ∧ (s.field 0).lowSince = some 0 ∧ 0 + 10000 ≤ s.gtc) ∧
    ({ up with gtc := 1000000 } : State).watchdog + 1000000 ≤ ({ up with gtc := 1000000 } : State).gtc := by
  refine ⟨⟨?_, ?_⟩, ⟨?_, ?_⟩, ⟨?_, ?_⟩, ⟨?_, ?_⟩, ⟨?_, ?_⟩, ⟨?_, ?_, ?_, ?_, ?_⟩, ⟨?_, ?_⟩,
    ⟨?_, ⟨_, Nat.lt_succ_self _⟩, _, Nat.le_refl _⟩, ⟨?_, ?_, ?_, ?_⟩, ⟨?_, ?_, ?_⟩, ?_⟩ <;> decide +kernel

theorem wit_BenchEvents :
    (legalPattern 0x8888 = true ∧ popOf 0x8888 ≤ 12 ∧ up.updating = false) ∧ ({ up with updating := true } : State).updating = true ∧
    legalPattern 0xFFFF = true ∧ legalPattern 0 = false ∧ up.hung = false ∧ ({ up with hung := true } : State).hung = true ∧
    (up.gtc % 4 = 0 ∧ up.slewed ≠ up.gtc) ∧
    (let s := (up.setField 0 { slewNext := some (7, 250) }).setCore 42 { jobs := [{ g := ⟨0, 0, 0⟩, region := 0, left := 128 }] }
     (s.field 0).slewNext = some (7, 250) ∧ 250 ≤ s.gtc / 4 ∧ 4 * (12 * 0 + (0 + s.gtc / 4) % 12) + s.gtc / 4 % 4 = 42 ∧
       0 < (s.core 42).work ∧ (s.core 42).rungs < 4) ∧
    (let s := up.setField 0 { tripped := true }
     s.throttleDue 0 = some 0 ∧ (s.bench 0).throttling = false ∧ popOf (s.strum 0) < 16) ∧
    ({ up.setBench 0 { throttling := true } with gtc := 100000 } : State).throttleDue 0 = some 1 := by
  refine ⟨⟨?_, ?_, ?_⟩, ?_, ?_, ?_, ?_, ?_, ⟨?_, ?_⟩, ⟨?_, ?_, ?_, ?_, ?_⟩, ⟨?_, ?_, ?_⟩, ?_⟩ <;> decide +kernel

/-- A group of a placed block, pending and ready since 0. -/
def pend : Group := { b1.newGroup 0 0 with readySince := some 0 }
def act (i : Nat) : Group := { b1.newGroup (i + 1) 0 with ref := ⟨0, 0, i + 1⟩, core := 0, active := true, wait := .yield, waitSince := 4096 }
def sLanes (n : Nat) : State := { sT run1 [b1] with groups := pend :: (List.range n).map act, gtc := 4096 }

theorem wit_GroupEvents :
    ((sLanes 7).entering 0 = some pend ∧ ((sLanes 7).activeOn 0).length < 8) ∧
    ((sLanes 8).entering 0 = some pend ∧ (sLanes 8).group? pend.ref = some pend ∧ 8 ≤ ((sLanes 8).activeOn 0).length ∧
      (sLanes 8).leaving 0 = some (act 0) ∧ (sLanes 8).group? (act 0).ref = some (act 0) ∧ (act 0).ref ≠ pend.ref ∧
      pend.readySince.getD 0 + 2048 ≤ (sLanes 8).gtc ∧
      leastBy (fun h => [h.activeSince, h.ref.task, h.ref.bid, h.ref.gid]) ((sLanes 8).activeOn 0) = some (act 0)) ∧
    (let g := { pend with wait := .sleep 1000 }
     ({ up with groups := [g] } : State).group? g.ref = some g ∧ 1000 ≤ up.gtc) ∧
    (let g := { pend with wait := .icinv 1000 2 none }
     ({ up with groups := [g] } : State).group? g.ref = some g) := by
  refine ⟨⟨?_, ?_⟩, ⟨?_, ?_, ?_, ?_, ?_, ?_, ?_, ?_⟩, ⟨?_, ?_⟩, ?_⟩ <;> decide +kernel

/-! Regions, sensors, translation, the host. -/

/-- `g0` with one region, in `s0`. -/
def reg : Region := { seq := 0, ctx := {}, firstIssue := 0, started := true }
def gR (q : Region) : Group := { g0 with regions := [q] }
def sR (q : Region) : State := { st (gR q) blk with gtc := 5000 }
def entry0 : QEntry := { id := 0, g := ⟨0, 0, 0⟩, region := 0, bench := true, owner := 0, pa := 128, bytes := [(0, 1)], released := true }
/-- An entry for die 1, reached over the link (R315). -/
def entry1 : QEntry := { entry0 with bench := false, pa := 2 ^ 37 }
def fill0 (closing : Bool) : Fill := { id := 5, g := ⟨0, 0, 0⟩, region := 0, closing, due := 0, vals := [.u 3 1] }
def emptied (a : Arch) : Arch := a.setS 3 { pend := some 5 }

theorem wit_RegionEvents :
    ((sR reg).group? ⟨0, 0, 0⟩ = some (gR reg) ∧ (gR reg).timedOut (sR reg) = true) ∧
    (gR { reg with headAt := some 5000 }).closable (sR { reg with headAt := some 5000 }) = true ∧
    (let q := { reg with close := some (100, 64) }
     (gR q).regions = q :: [] ∧ max (max (100 + 64) (gR q).lastCommit) (q.tagEnd (sR q)) ≤ (sR q).gtc ∧ q.requests = [] ∧ q.ends = false ∧
       q.trap = none) ∧
    (let q := { reg with close := some (5000, 64) }
     (sR q).gtc < max (max (5000 + 64) (gR q).lastCommit) (q.tagEnd (sR q))) ∧
    (let s := { s0 with entries := [{ entry0 with phase := 2 }] }
     s.entries.find? (fun o => o.id = 0) = some { entry0 with phase := 2 } ∧ s.drainDue { entry0 with phase := 2 } = true) ∧
    (let s := { s0 with entries := [entry0] }
     s.entries.find? (fun o => o.id = 0) = some entry0 ∧ s.drainDue entry0 = true ∧ s.entryHold entry0 = 0) ∧
    (let s := { s0 with entries := [entry1] }
     s.drainDue entry1 = true ∧ s.entryHold entry1 ≠ 0) ∧
    (let s := { s0 with entries := [{ entry1 with phase := 1 }] }
     s.drainDue { entry1 with phase := 1 } = true) ∧
    (∀ rs ∈ [[], [reg]], let g := { (withA emptied) with owed := [(5, 0)], regions := rs }
     ∀ c, let s := { st g blk with fills := [fill0 c] }
       s.fills.find? (fun h => h.id = 5) = some (fill0 c) ∧ s.fillDue (fill0 c) = true ∧ s.group? ⟨0, 0, 0⟩ = some g ∧
         (g.arch.ureg 3).pend = some 5) ∧
    (let g := { g0 with arch := { g0.arch with deferred := [{ code := 30 }] } }
     g.nextTrap = some { code := 30 } ∧ (st g blk).trapDue g = true ∧ (st g blk).group? g.ref = some g) := by
  refine ⟨⟨?_, ?_⟩, ?_, ⟨?_, ?_, ?_, ?_, ?_⟩, ?_, ⟨?_, ?_⟩, ⟨?_, ?_, ?_⟩, ⟨?_, ?_⟩, ?_, ?_, ⟨?_, ?_, ?_⟩⟩ <;> decide +kernel

/-- Cell 0 of core 0; an event record, whose die writes to an empty ring and to a full one; three drone mismatches. -/
def cell0 : CellRef := ⟨0, 0⟩
def rec0 : EventRec := { stamp := 0, src := 0, type := 8 }
def sRec1 (tail : Nat) : State :=
  { up.setDie 0 { evEn := true, evBase := 131072, evTail := tail } with events := [rec0] }

theorem wit_SensorEvents : up.mayReport cell0 = true ∧ cellValid cell0 = true ∧ up.blocks = [] ∧
    (∀ g ∈ ({ sR reg with blocks := [blk] } : State).residents 0, g.regions ≠ []) ∧
    (∀ tail ∈ [0, 1], ((sRec1 tail).nextRecord 0 = some rec0 ∧ rec0.stamp + 512 ≤ (sRec1 tail).gtc)) ∧
    (let d := (sRec1 1).die 0
     (d.evHead + 1) % 2 ^ d.evLog = d.evTail % 2 ^ d.evLog) ∧
    (let d := (sRec1 0).die 0
     (d.evHead + 1) % 2 ^ d.evLog ≠ d.evTail % 2 ^ d.evLog) ∧
    (let d : Drone := { mismatches := [900, 800] }
     d.activeDie = 0 ∧ 2 ≤ (d.mismatches.filter fun u => 1000 < u + 2 ^ 30).length) ∧
    ({ recovering := some 0 } : Drone).recovering.isSome = true ∧
    (∀ w, let g := gR { reg with wrote := if w then [130] else [] }
     (st g blk).storageOf (.register ⟨0, 0, 0⟩ 130) = ([g], w) ∧ (st g blk).mayReport ⟨fieldOfCore g.core, 4 * (g.core % 48)⟩ = true) := by
  refine ⟨?_, ?_, ?_, ?_, ?_, ?_, ?_, ⟨?_, ?_⟩, ?_, ?_⟩ <;> decide +kernel

theorem wit_TranslationEvents :
    (up.die 0).tlbiDone = true ∧
    (let s := up.setDie 0 { tlbiDone := false }
     (s.die 0).tlbiDone = false ∧ s.shootdownDue 0 = true) ∧
    (up.setOwner 0 { en := true, retiring := some (0, 0) }).ownerRetireDue 0 = true ∧
    (paMalformed 131072 = false ∧ paModule 131072 = up.domid ∧ paClass 131072 = 0) := by
  refine ⟨?_, ⟨?_, ?_⟩, ?_, ?_, ?_, ?_⟩ <;> decide +kernel

/-- A file that is no object is refused by the first check of the format (R37). -/
theorem wit_HostEvents : isError (up.load 0 0 0 0 [] []) = true ∧
    w0Aligned 0x10 4 = true ∧ w0Aligned 0x11 4 = false ∧ ((State.reset).owner 5).en = false ∧ (up.owner 0).en = true := by
  refine ⟨?_, ?_, ?_, ?_, ?_⟩ <;> decide +kernel

/-! Copies, the content-addressed region, and requests where they perform. -/

def copy0 (d : CopyDesc) (pos : Nat) (pieces : List Piece) : Copy :=
  { live := true, g := ⟨0, 0, 0⟩, committed := true, state := .running, desc := d, spec := pos, pos, pieces, readAt := 0 }
/-- A fill of 64 bytes of bench memory (CPYW, R318), not begun, and with its one piece staged. -/
def fillDesc : CopyDesc := { kind := 5, src := 7, dst := 0, rowBytes := 64, rows := 1 }
def piece0 : Piece := { pos := 0, bytes := List.replicate 64 7, dst := List.range 64, firstRead := 0, arrived := 0 }
def sCopy (c : Copy) : State := s0.setCopy 0 0 c

/-- A released request whose time has come. -/
def pd (req : Request) : Pending := { id := 9, g := ⟨0, 0, 0⟩, req, due := some 0, dues := [0] }
def sP (req : Request) : State := { s0 with pendings := [pd req] }
def readyB (req : Request) : Bool := (sP req).pending? 9 = some (pd req) && (sP req).mayPerform (pd req)
def putOf (c : List Byte) : Request := .caput false c 0 0 3
def isOk {ε α : Type} (r : Except ε α) : Bool := !isError r

theorem wit_CopyContentEvents :
    (∀ d ∈ [fillDesc, { fillDesc with kind := 0, src := 64 }], let s := sCopy (copy0 d 0 [])
     s.pieceReady 0 0 = true ∧ s.pieceBehind 0 0 = false ∧
       okAnd (s.readPiece 0 (s.copy 0 0) ((s.copy 0 0).desc.pieceAt (s.copy 0 0).spec)) (fun _ => !(s.copy 0 0).desc.dspace) = true) ∧
    (let s := sCopy (copy0 { fillDesc with kind := 0, src := 2 ^ 60, sspace := true } 0 [])
     s.pieceReady 0 0 = true ∧ s.pieceBehind 0 0 = false ∧
       isError (s.readPiece 0 (s.copy 0 0) ((s.copy 0 0).desc.pieceAt (s.copy 0 0).spec)) = true) ∧
    (let s := sCopy (copy0 fillDesc 64 [piece0])
     s.drainReady 0 0 = true ∧ (s.copy 0 0).pieces = piece0 :: [] ∧ s.pieceHold 0 (s.copy 0 0) piece0 = 0) ∧
    (∀ sent, let c := { piece0 with dst := (List.range 64).map fun i => 2 ^ 37 + i, sent }
     let s := sCopy (copy0 { fillDesc with dspace := true } 64 [c])
     s.drainReady 0 0 = true ∧ (s.copy 0 0).pieces = c :: [] ∧ s.pieceHold 0 (s.copy 0 0) c ≠ 0) ∧
    (readyB (putOf (List.replicate 256 0)) = true ∧ isOk (s0.caPut 0 false (List.replicate 256 0) 0).1 = true) ∧
    (let r := putOf (List.replicate 256 7)
     let s : State := { sP r with owners := [] }
     s.pending? 9 = some (pd r) ∧ s.mayPerform (pd r) = true ∧
      isError ((s.dropPending 9).caPut 0 false (List.replicate 256 7) 0).1 = true) ∧
    (s0.hasPool 0 256 = true ∧ readyB (.caref 256) = true ∧ readyB (.carel 256) = true) ∧
    (readyB (.caswap 131072 131072 0 1 3) = true ∧ (sP (.caswap 131072 131072 0 1 3)).poisonAt 131072 8 = false) ∧
    (s0.owner 0).capEn = true := by
  refine ⟨?_, ⟨?_, ?_, ?_⟩, ⟨?_, ?_, ?_⟩, ?_, ⟨?_, ?_⟩, ⟨?_, ?_, ?_⟩, ⟨?_, ?_, ?_⟩, ⟨?_, ?_⟩, ?_⟩ <;> decide +kernel

def lock0 (holder : GroupRef) : Lock := { owner := 0, pa := 131072, holder }
def mon (c : Nat) : Monitor :=
  { id := 9, g := ⟨0, 0, 0⟩, pa := 131072, cc := c, wide := false, ref := 0, mask := 0, deadline := some 0, dst := 3, owner := 0,
    dirty := true }

theorem wit_SyncEvents :
    (let r : Request := .atom 0 true 4 true [(none, 131072, 131072, 1, 0)] (some 3) false
     readyB r = true ∧ (sP r).group? ⟨0, 0, 0⟩ = some g0 ∧ (sP r).poisonAt 131072 8 = false ∧ (pd r).got = [] ∧ (pd r).dues = [0]) ∧
    (let r : Request := .waitc 131072 131072 0 false 4 0 0 0 3
     readyB r = true ∧ (sP r).syncRoom false 131072 = some false) ∧
    (let s := bytesAt { s0 with monitors := [mon 0] } (List.replicate 64 0)
     s.monitors.find? (fun m => m.id = 9) = some (mon 0) ∧ (mon 0).dirty = true ∧ (mon 0).holds s = true ∧
       (mon 1).deadline = some 0 ∧ 0 ≤ s.gtc ∧ (mon 1).holds s = false) ∧
    (let r : Request := .qlock 131072 131072 4
     readyB r = true ∧ (sP r).lockAt 0 131072 = none ∧ (sP r).syncRoom true 131072 = some false ∧
       ({ sP r with locks := [lock0 ⟨0, 0, 1⟩] } : State).lockAt 0 131072 = some (lock0 ⟨0, 0, 1⟩) ∧
       ((⟨0, 0, 1⟩ : GroupRef) ≠ ⟨0, 0, 0⟩)) ∧
    (let r : Request := .qunlk 131072 131072 4
     readyB r = true ∧ ({ sP r with locks := [lock0 ⟨0, 0, 0⟩] } : State).lockAt 0 131072 = some (lock0 ⟨0, 0, 0⟩)) ∧
    (∀ form < 3, ∀ count ∈ [1, 2], readyB (.bar 0 form count) = true ∧ readyB (.lbar form count) = true ∧
      (sP (.bar 0 form count)).group? ⟨0, 0, 0⟩ = some g0 ∧
      (((sP (.bar 0 form count)).groupsOf ⟨0, 0⟩).filter fun h => h.exited = false).length = 1) ∧
    (let s := { sP (.bar 0 2 0) with groups := [{ g0 with tokens := [(0, some 5)] }] }
     (s.pending? 9 = some (pd (.bar 0 2 0)) ∧ (s.group? ⟨0, 0, 0⟩).bind (·.token (.block ⟨0, 0⟩ 0)) = some 5)) ∧
    (readyB (.csarv 0 0) = true ∧ readyB (.csrel 0 0) = true) ∧
    (let r : Request := .spawn (List.replicate 64 0) 3
     readyB r = true ∧ (sP r).group? ⟨0, 0, 0⟩ = some g0 ∧ ((sP r).dropPending 9).freeTcb (dieOfCore g0.core) = some 0) ∧
    (readyB (.join 3) = true ∧ (sP (.join 3)).block? ⟨0, 0⟩ = some blk ∧ blk.children = 0 ∧ blk.joins = []) ∧
    (let b := { blk with children := 1 }
     let s := { (sP (.join 3)).setDie 0 { saveBase := 2 ^ 30, saveSize := 64 } with blocks := [b] }
     s.block? b.ref = some b ∧ b.children ≠ 0 ∧ b.state = .placed ∧ (s.stopToSave b.ref 2).isSome = true) := by
  refine ⟨⟨?_, ?_, ?_, ?_, ?_⟩, ⟨?_, ?_⟩, ⟨?_, ?_, ?_, ?_, ?_, ?_⟩, ⟨?_, ?_, ?_, ?_, ?_⟩, ⟨?_, ?_⟩, ?_, ⟨?_, ?_⟩, ⟨?_, ?_⟩, ⟨?_, ?_, ?_⟩,
    ⟨?_, ?_, ?_, ?_⟩, ⟨?_, ?_, ?_, ?_⟩⟩ <;> decide +kernel

/-! A pair that can be spliced, an object that loads, and a full TCB pool. -/

def w32Bytes (ws : List W32) : List Byte := ws.flatMap fun w => leBytes 4 w.toNat
def zeros (n : Nat) : List Byte := List.replicate n 0
/-- A descriptor of Table 2-3 with one group and, where the flag says so, a splice descriptor 128 bytes from it, counted from its
text (R39), which is `rel` bytes from it and `text` long. -/
def descBytes (flags rel text : Nat) : List Byte :=
  zeros 8 ++ leBytes 2 16 ++ leBytes 2 32 ++ leBytes 2 1 ++ leBytes 2 32 ++ leBytes 1 1 ++ leBytes 1 flags ++ zeros 6 ++ leBytes 2 1 ++
    zeros 6 ++ leBytes 4 0xFFFFFFFF ++ leBytes 4 100 ++ zeros 8 ++ leBytes 4 (flags * (128 + 2 ^ 64 - rel)) ++ zeros 8 ++ leBytes 8 rel ++ leBytes 4 text ++ zeros 56
/-- The loop is the first two instructions, the second of which is the one site (R26). -/
def splBytes (stt : Bool) : List Byte :=
  leBytes 4 0 ++ leBytes 4 24 ++ zeros 4 ++ (if stt then [1, 0] else [0, 1]) ++ zeros 2 ++
    (if stt then leBytes 4 12 ++ zeros 60 else zeros 32 ++ leBytes 4 12 ++ zeros 28)
/-- TFETCH s10; STT (`fn` 5) or LDT (4) of the slot register `d`; EXIT. -/
def tileWords (fn : Nat) (d : BitVec 10) : List Byte :=
  w32Bytes (Shape.encode (.ext 26 0 { d := 138 }) ++ Shape.encode (.ext 21 fn { d, a := 130, b := 131 }) ++ Shape.encode (.bctl 1 0))
/-- Text at 65536 and 65600; descriptors at 131072 and 131328. -/
def pairMem : List Host.Cell :=
  ((tileWords 5 1 ++ zeros 36 ++ tileWords 4 2).zipIdx.map
    fun b => (65536 + b.2, b.1)) ++
  ((descBytes 1 (2 ^ 64 - 65536) 28 ++ splBytes true ++ zeros 48 ++ descBytes 1 (2 ^ 64 - 65728) 28 ++ splBytes false).zipIdx.map
    fun b => (131072 + b.2, b.1))
def pairTcb (desc : Nat) : Tcb :=
  { state := .ready, fmask := 1, tiles := 1, tshape := 65537, kdesc := desc, spliceOk := true }
def pairEdge : EdgeRec := { handle := 77, producer := 0, transient := true }
def sPair : State :=
  { (up.setTcb 0 (pairTcb 131072)).setTcb 1 { pairTcb 131328 with splicing := true, producers := [0], edges := [pairEdge] } with
    mem := pairMem, keys := [1024, 1025, 2048, 2049, 2050, 2051, 2052, 2053, 2054, 2055].map fun n => (n, { data := 0, tweak := 0 }),
    tlb := [page, { page with page := 1, pa := 65536, r := false, w := false, x := true }] }

theorem ok_of {ε α : Type} {r : Except ε α} {k : α → Bool} (h : okAnd r k = true) : ∃ x, r = .ok x ∧ k x = true := by
  cases r with
  | error e => cases h
  | ok x => exact ⟨x, rfl, h⟩

/-- Where a run is laid decides none of its transfers. -/
theorem emitRun_isSome (labels : List (SKey × Nat)) (b1 b2 : Nat) (o : Nat) (l : List SElem) :
    (emitRun labels b1 o l).isSome = (emitRun labels b2 o l).isSome := by
  induction l generalizing o with
  | nil => rfl
  | cons x l ih =>
    cases x with
    | label k => exact ih o
    | gone f c a => exact ih o
    | item i =>
      have h := ih (o + i.size)
      simp only [emitRun]
      generalize emitRun labels b1 (o + i.size) l = r1 at h
      generalize emitRun labels b2 (o + i.size) l = r2 at h
      cases r1 <;> cases r2
      · rfl
      · cases h
      · cases h
      · simp only []
        cases i.sh with
        | none => rfl
        | some sh =>
          cases i.target with
          | none => rfl
          | some k =>
            simp only []
            split <;> rfl

/-- The run of a plan, and whether it can be laid at the start of the cache. -/
def runOf (pl : Plan) : List SElem :=
  let ldts := pl.matched.foldl (fun t m => tput t m.ldt.addr ((tileRegs m.ldt).zip (tileRegs m.stt))) []
  let elems := runElems pl.p pl.c pl.pc pl.cc pl.pHead pl.cHead (if pl.keep then [] else pl.matched.map fun m => m.stt.addr) ldts
  joinRun (elems.filterMap SElem.label?) elems
def laidB (pl : Plan) : Bool :=
  let x := placeLabels 0 (runOf pl)
  (emitRun x.1 0 0 (runOf pl)).isSome && (pl.s.liveRuns (dieOfTask pl.pTask)).isEmpty && x.2 ≤ 0x200000

theorem fuse_isSome (pl : Plan) (c : Nat) (h : laidB pl = true) : (pl.fuse c).isSome = true := by
  unfold laidB at h
  simp only [Bool.and_eq_true, decide_eq_true_eq] at h
  obtain ⟨⟨h1, h2⟩, h3⟩ := h
  have hm : 0 ∈ pl.s.splicePlaces (dieOfTask pl.pTask) (placeLabels 0 (runOf pl)).2 := by
    refine List.mem_filter.2 ⟨List.mem_map.2 ⟨0, List.mem_range.2 (by decide), rfl⟩, ?_⟩
    rw [List.isEmpty_iff.1 h2]
    simpa using h3
  have hf : ∀ o, ((emitRun (placeLabels 0 (runOf pl)).1 (spliceBase (dieOfTask pl.pTask) + o) 0 (runOf pl)).isSome) = true := fun o => by
    rw [emitRun_isSome _ _ 0]
    exact h1
  have key : ∀ (places : List Nat) (n : Nat) (k : Nat → Option Fused), 0 ∈ places → (∀ o, (k o).isSome = true) →
      (match places[n % places.length]? with | none => none | some o => k o).isSome = true := by
    intro places n k h0 hk
    have hl : 0 < places.length := List.length_pos_of_mem h0
    rw [List.getElem?_eq_getElem (Nat.mod_lt n hl)]
    exact hk _
  have hg : ∀ (o : Nat) (g : List FusedWord → Fused),
      ((emitRun (placeLabels 0 (runOf pl)).1 (spliceBase (dieOfTask pl.pTask) + o) 0 (runOf pl)).map g).isSome = true := fun o g => by
    rw [Option.isSome_map]
    exact hf o
  unfold Plan.fuse
  unfold runOf at hm hg
  generalize hS : State.splicePlaces pl.s _ _ = S at hm
  simp only [hS]
  exact key S _ _ hm fun o => hg o _

theorem wit_DispatcherEvents_splice : (sPair.tcb 1).splicing = true ∧
    ∃ pl f, sPair.spliceTests 1 = .ok pl ∧ pl.fuse 1 = some f ∧ pl.pTask ≠ 1 := by
  obtain ⟨pl, h, hk⟩ := ok_of (show okAnd (sPair.spliceTests 1) (fun pl => laidB pl && pl.pTask ≠ 1) = true by decide +kernel)
  simp only [Bool.and_eq_true, decide_eq_true_eq] at hk
  obtain ⟨f, hf⟩ := Option.isSome_iff_exists.1 (fuse_isSome pl 1 hk.1)
  exact ⟨by decide +kernel, pl, f, h, hf, hk.2⟩

/-- The first block of a launch whose kernel has not been read (R39, R128). -/
theorem wit_DispatcherEvents_first :
    let s : State := { sPair with tcbs := [(0, pairTcb 131072)], fields := [(0, { on := true })] }
    chanceB s 0 (fun c => c.task = 0 && c.resume.isNone) = true ∧ (s.tcb 0).kernel = none ∧ (s.tcb 0).fusedFlag = false ∧
    okAnd (s.readKernel (s.tcb 0).owner (4 * dieOfTask 0) (s.tcb 0).kdesc (s.tcb 0).args) (fun p =>
      let t := p.2.tcb 0
      let n := min t.tiles (p.2.capacity p.1 t.fmask)
      p.1.groups * p.1.spillSz ≤ (p.2.owner t.owner).spillSize * 65536 && n ≠ 0 &&
        spanB (p.2.setTcb 0 { t with kernel := some p.1, blocks := n }) 0 p.1 ((s.tcb 0).fmask &&& 255) (fun _ => true) &&
        freshB (p.2.setTcb 0 { t with kernel := some p.1, blocks := n }) 0) = true := by
  refine ⟨?_, ?_, ?_, ?_⟩ <;> decide +kernel

/-- An object of one kernel whose text is EXIT (R16 to R20): header, area table, descriptor, text, the null symbol, and a string. -/
def areaBytes (fo fs vo : Nat) : List Byte := leBytes 4 fo ++ leBytes 4 fs ++ leBytes 8 vo
def rawObject : List Byte :=
  leBytes 4 0x4E55524C ++ leBytes 4 1 ++ leBytes 4 0x4B017208 ++ leBytes 4 1 ++ leBytes 8 0 ++ leBytes 8 131072 ++ zeros 32 ++
    areaBytes 192 128 0 ++ areaBytes 320 4 65536 ++ areaBytes 0 0 (2 ^ 64 - 1) ++ areaBytes 0 0 (2 ^ 64 - 1) ++
    areaBytes 328 24 (2 ^ 64 - 1) ++ areaBytes 352 1 (2 ^ 64 - 1) ++ areaBytes 0 0 (2 ^ 64 - 1) ++ areaBytes 0 0 (2 ^ 64 - 1) ++
    descBytes 0 65536 4 ++ w32Bytes (Shape.encode (.bctl 1 0)) ++ zeros 4 ++ zeros 24 ++ zeros 1
/-- The CRC byte by byte, each step's value before the next. -/
def force (c : Nat) (k : Nat → Nat) : Nat := match c with | 0 => k 0 | n + 1 => k (n + 1)
def crcSteps : List Byte → Nat → Nat
  | [], c => c
  | b :: bs, c => force (crcByte c b) (crcSteps bs)
theorem crcSteps_eq (l : List Byte) (c : Nat) : crcSteps l c = l.foldl crcByte c := by
  induction l generalizing c with
  | nil => rfl
  | cons b l ih =>
    have hf : ∀ (c : Nat) (k : Nat → Nat), force c k = k c := fun c k => by cases c <;> rfl
    rw [crcSteps, hf, ih]
    rfl
theorem crc32_eq (l : List Byte) : crc32 l = crcSteps l 0xFFFFFFFF ^^^ 0xFFFFFFFF := by rw [crcSteps_eq]; rfl
def objectCrc : Nat := 3946451075
def object : List Byte := putAt rawObject 0x20 (leBytes 4 objectCrc)
/-- Page tables of a die down to a last level with two free entries (Table 14-3). -/
def tables (root : Nat) : List Host.Cell :=
  ((List.range 5).flatMap fun i => (leBytes 8 (root + 4096 * (i + 1) + 1)).zipIdx.map fun b => (root + 4096 * i + b.2, b.1)) ++
    (List.range 16).map fun j => (root + 20480 + j, 0)
def sLoad : State :=
  { up.setOwner 0 { en := true, root0 := 2 ^ 20, root1 := 2 ^ 37 + 2 ^ 20 } with mem := tables (2 ^ 20) ++ tables (2 ^ 37 + 2 ^ 20) }
theorem object_crc : crc32 (putAt object 0x20 [0, 0, 0, 0]) = objectCrc := by
  rw [crc32_eq]
  decide +kernel
theorem wit_HostEvents_load : ∃ s1, sLoad.load 0 0 (2 ^ 21) (2 ^ 37 + 2 ^ 21) [] object = .ok s1 := by
  have h : okAnd (sLoad.load 0 0 (2 ^ 21) (2 ^ 37 + 2 ^ 21) [] object) (fun _ => true) = true := by
    unfold State.load
    rw [object_crc]
    decide +kernel
  obtain ⟨s1, h, _⟩ := ok_of h
  exact ⟨s1, h⟩

/-- A pool of 2^20 running tasks has no TCB for a SPAWN (R121). -/
def poolOf (n : Nat) : Table Tcb := (List.range' 0 n).map fun i => (i, { state := .running })
theorem poolOf_get (n i lo : Nat) (h : lo ≤ i) (hi : i < lo + n) :
    tget ({} : Tcb) ((List.range' lo n).map fun i => (i, { state := .running })) i = { state := .running } := by
  induction n generalizing lo with
  | zero => omega
  | succ n ih =>
    rw [List.range'_succ, List.map_cons]
    unfold tget
    by_cases e : lo = i
    · rw [if_pos e]
    · rw [if_neg e]
      exact ih (lo + 1) (by omega) (by omega)
theorem pool_full (s : State) (n : Nat) (hn : 2 ^ 20 ≤ n) (hs : s.tcbs = poolOf n) : s.freeTcb 0 = none := by
  unfold State.freeTcb
  refine List.find?_eq_none.2 fun x hx => ?_
  obtain ⟨i, hi, rfl⟩ := List.mem_map.1 hx
  have h1 := List.mem_range.1 hi
  have h2 : s.tcb (0 * 2 ^ 20 + i) = { state := .running } := by
    unfold State.tcb
    rw [hs]
    exact poolOf_get n _ 0 (Nat.zero_le _) (by omega)
  rw [h2]
  decide
def spawn0 : Request := .spawn (List.replicate 64 0) 3
theorem wit_SyncEvents_full : let s : State := { sP spawn0 with tcbs := poolOf (2 ^ 20) }
    s.pending? 9 = some (pd spawn0) ∧ s.mayPerform (pd spawn0) = true ∧ (s.dropPending 9).freeTcb (dieOfCore g0.core) = none := by
  refine ⟨by decide +kernel, by decide +kernel, ?_⟩
  exact pool_full _ _ (Nat.le_refl _) rfl

/-! The rules stated whole, the encodings, the step and the whole-machine statements. -/

/-- s2 = 200, s3 = -2^63, s4 = -7, s5 = -1, s6 = 2. -/
def regsD (a : Arch) : Arch :=
  ((((a.setS 2 { val := 200 }).setS 3 { val := BitVec.ofInt 64 (-2 ^ 63) }).setS 4 { val := BitVec.ofInt 64 (-7) }).setS 5
    { val := BitVec.ofInt 64 (-1) }).setS 6 { val := 2 }
/-- A and B of each function at the corner that the clause names, with D = s8. -/
def corners : List (Nat × Nat × Nat) :=
  [(12, 4, 5), (12, 4, 2), (13, 4, 5), (13, 4, 2), (14, 4, 6), (14, 4, 2), (5, 4, 0), (6, 4, 0), (7, 4, 0), (8, 4, 0), (5, 3, 5),
   (7, 3, 5), (5, 4, 6), (7, 4, 6)]
theorem wit_ShiftAndDivision :
    (∀ p ∈ corners, fullB 16 p.1 { d := 136, a := BitVec.ofNat 10 (128 + p.2.1), b := BitVec.ofNat 10 (128 + p.2.2) } (E regsD 12) = true) ∧
    (∀ p ∈ corners, fullB 16 p.1 (.ofBase 16 p.1 { d := 8, a := BitVec.ofNat 6 p.2.1, b := BitVec.ofNat 6 p.2.2 }) (E regsD 4) = true) ∧
    (let v (n : Nat) : W64 := (E regsD 4).srcU none (BitVec.ofNat 10 (128 + n))
     64 ≤ (v 2).toNat % 2 ^ 8 ∧ v 0 = 0 ∧ v 3 = BitVec.ofInt 64 (-2 ^ 63) ∧ v 5 = BitVec.ofInt 64 (-1) ∧ v 4 = BitVec.ofInt 64 (-7) ∧
       v 6 = 2) ∧ Can (withA regsD) blk { len := 12 } ∧ Can (withA regsD) blk { len := 4 } := by
  refine ⟨?_, ?_, ⟨?_, ?_, ?_, ?_, ?_, ?_⟩, can0 _ _ rfl, can0 _ _ rfl⟩ <;> decide +kernel

theorem wit_BranchAndCall : (E regs 4).blocked [] [129] = none ∧ Can (withA regs) blk { len := 4 } :=
  ⟨by decide +kernel, can0 _ _ rfl⟩

theorem wf_of {l : Limits} {i : Instr} (h : Instr.wf l i = true) : i.WellFormed l := by
  unfold Instr.wf at h
  unfold Instr.WellFormed
  split at h
  · cases h
  · rename_i sh hs
    exact ⟨sh, hs, List.isEmpty_iff.1 h⟩

theorem wit_DecodeEncode : Instr.WellFormed { vcount := 16, scount := 32 } (.sadd { d := 131, a := 130, b := 130 }) ∧
    Instr.WellFormed { vcount := 16, scount := 32 } (.fmul { d := 9, a := 8, b := 768, lit := some 0x40200000 }) :=
  ⟨wf_of (by decide +kernel), wf_of (by decide +kernel)⟩

theorem wit_EncodeDecode : ∃ i, decodeWith { vcount := 16, scount := 32 } [0x0C414010] = .ok i := by
  have h : (match decodeWith { vcount := 16, scount := 32 } [0x0C414010] with | .ok _ => true | .bad _ => false) = true := by
    decide +kernel
  split at h
  · rename_i i hi
    exact ⟨i, hi⟩
  · cases h

/-- A group of bench 0 with one base word to issue (RGN), and nothing due before it. -/
def sStep : State := { State.reset.withFetchWord 32 0x22C with step := 7, gtc := 1001 }
def gS : Group := { ref := ⟨0, 0, 0⟩, launched := BitVec.allOnes 32, arch := { run := BitVec.allOnes 32, pc := 65536 } }
def bS : Block := { ref := ⟨0, 0⟩, kernel := { desc := 65536, textBase := 65536, textSize := 65536, spillSz := 0 } }

theorem step_offers : sStep.offers 0 = [sStep.offer gS bS] := by
  have h0 : sStep.coreChoice 0 = [gS] := by decide +kernel
  have h1 : sStep.coreChoice 1 = [] := by decide +kernel
  have h2 : sStep.coreChoice 2 = [] := by decide +kernel
  have h3 : sStep.coreChoice 3 = [] := by decide +kernel
  have hb : sStep.block? (blockOf gS.ref) = some bS := by decide +kernel
  have hc : codes (4 * 0) 4 = [0, 1, 2, 3] := by decide +kernel
  unfold State.offers
  rw [if_pos (by decide +kernel), hc]
  simp [List.flatMap_cons, h0, h1, h2, h3, hb]

theorem wit_StepRunsDecoded_choice : sStep.activeBenches = 0 :: [] ∧ sStep.offers 0 = [sStep.offer gS bS] ∧
    (sStep.offer gS bS).weight ≤ sStep.allowNow 0 := ⟨by decide +kernel, step_offers, by decide +kernel⟩
theorem step_issue : sStep.dueIssue = some (sStep.offer gS bS).choice := by
  have h := wit_StepRunsDecoded_choice
  have hp : sStep.pay 0 [sStep.offer gS bS] = some (sStep.offer gS bS).choice := by
    unfold State.pay
    by_cases hw : (sStep.offer gS bS).waits
    · simp [hw]
    · simp [hw, sortBy, insertBy, h.2.2]
  unfold State.dueIssue
  rw [h.1]
  simp [h.2.1, hp]

theorem wit_StepRunsDecoded : sStep.input = none ∧ sStep.dueEvent = none ∧ sStep.dueIssue = some (sStep.offer gS bS).choice ∧
    ∃ ws s1 i, fetchInstr sStep bS gS.core gS.arch.pc = .ok (ws, s1) ∧ decodeWith (limitsAt bS gS.arch) ws = .ok i := by
  have h0 : sStep.input.isNone = true := by decide +kernel
  have h1 : sStep.dueEvent.isNone = true := by decide +kernel
  obtain ⟨p, hf, hd⟩ := ok_of (show okAnd (fetchInstr sStep bS gS.core gS.arch.pc)
    (fun p => match decodeWith (limitsAt bS gS.arch) p.1 with | .ok _ => true | .bad _ => false) = true by decide +kernel)
  split at hd
  · rename_i i hi
    exact ⟨Option.isNone_iff_eq_none.1 h0, Option.isNone_iff_eq_none.1 h1, step_issue, p.1, p.2, i, hf, hi⟩
  · cases hd

theorem choose_step : sStep.choose = (sStep.offer gS bS).choice := by
  obtain ⟨h0, h1, h2, _⟩ := wit_StepRunsDecoded
  unfold State.choose
  rw [h0, h1, h2]
  simp only [Option.orElse_none, Option.orElse_some, Option.getD_some]

/-- The schedule issues an instruction in one state and runs an event in another. -/
theorem wit_OnlyDecodedIssue : (∃ i r ws t, sStep.choose = .issue i r ws t) ∧
    ∃ i t, State.choose { up with cells := [(0, { inject := some 0 })] } = .event i t := by
  refine ⟨?_, ?_⟩
  · rw [choose_step]
    have h : (match (sStep.offer gS bS).choice with | .issue _ _ _ _ => true | _ => false) = true := by decide +kernel
    split at h
    · rename_i i r ws t hc
      exact ⟨i, r, ws, t, hc⟩
    · cases h
  · have h : (match State.choose { up with cells := [(0, { inject := some 0 })] } with | .event _ _ => true | _ => false) = true := by
      decide +kernel
    split at h
    · rename_i i t hc
      exact ⟨i, t, hc⟩
    · cases h

def nextB (o : Host.Outcome State Fault Refusal) : Bool := match o with | .next _ => true | _ => false
theorem next_of {o : Host.Outcome State Fault Refusal} (h : nextB o = true) : ∃ t, o = .next t := by
  unfold nextB at h
  split at h
  · exact ⟨_, rfl⟩
  · cases h

/-- Memory that holds the instruction's text is canonical, and the step goes on. -/
theorem wit_StepKeepsMemory : Memory.wf sStep.mem = true ∧ sStep.mem ≠ [] ∧ ∃ t, step sStep = .next t :=
  ⟨by decide +kernel, by decide +kernel, next_of (by decide +kernel)⟩

theorem wit_IssueIsPrivate : encode (.sleep { a := 577 }) ≠ [] ∧ ∃ t, exec (.sleep { a := 577 }) s0 = .next t :=
  ⟨by decide +kernel, next_of (by decide +kernel)⟩

theorem wit_DrainFrame : ∀ e ∈ [entry0, { entry0 with bench := false, pa := 131072, bytes := [(0, 1), (63, 2)] }],
    let s : State := { s0 with entries := [e] }
    s.entries.find? (fun o => o.id = e.id) = some e ∧ s.drainDue e = true ∧ Table.sorted e.bytes = true ∧
      (∀ w ∈ e.bytes, (e.pa + w.1) / 64 = e.pa / 64) ∧ e.phase ≤ 1 ∧ s.entryHold e = 0 := by decide +kernel

/-- The same block without a handler. -/
def noTrap : Block := { blk with kernel := { kern with trapOff := none } }
def inHandler (a : Arch) : Arch := { a with handler := true }
theorem wit_TrapEntry : (E inHandler 4).g.arch.handler = true ∧ (E regs 4).g.arch.handler = false ∧
    (envOf (st g0 noTrap) g0 noTrap 4).trapBase = 0 ∧ (E regs 4).trapBase ≠ 0 ∧ blk.fused = none ∧
    (let b : Block := { blk with fused := some { base := 65536, code := [], p := kern, c := kern, consumer := 1 } }
     (envOf (st g0 b) g0 b 4).trapBase ≠ 0 ∧ b.fused.isSome = true) := by
  refine ⟨?_, ?_, ?_, ?_, ?_, ?_, ?_⟩ <;> decide +kernel

/-- A vector-role group issues a copy and a matrix instruction. -/
theorem wit_RoleTrap : (Instr.cpy {}, 0) ∈ engineTable {} ∧ (Instr.mma {}, 1) ∈ engineTable {} ∧ s0.cur.bind s0.group? = some g0 ∧
    s0.block? (blockOf g0.ref) = some blk ∧ g0.ended = false ∧ g0.doomed = false ∧ blk.state = .placed ∧ g0.regions.length < 4 ∧
    g0.role ≠ 0 ∧ g0.role ≠ 1 :=
  ⟨List.mem_cons_self, List.mem_of_getElem? (i := 9) rfl, rfl, rfl, rfl, rfl, rfl, by decide, by decide, by decide⟩

/-- A group with a region whose cover has the cell, and a cell that it has not; the same of the other die, whose message has
come. -/
def covered : Region := { reg with cover := [cell0] }
def far : Group := { gR covered with core := 200 }
def sMsg (c : CellRef) : State := { st far blk with messages := [(1, { due := 0, stamp := 0, cell := c })] }
theorem wit_SquashRestores :
    (let s := sR covered
     s.mayReport cell0 = true ∧ (recent s.gtc (s.cell cell0).events).length < 7 ∧ s.group? (gR covered).ref = some (gR covered) ∧
     (∃ h ∈ s.groups, h.ref = (gR covered).ref ∧ dieOfCore h.core = cellDie cell0 ∧ ∃ y ∈ h.regions, cell0 ∈ y.cover) ∧
     (gR covered).regions = covered :: [] ∧ s.mayReport ⟨0, 4⟩ = true ∧
     ∀ h ∈ s.groups, ¬(h.ref = (gR covered).ref ∧ dieOfCore h.core = cellDie cell0 ∧ ∃ y ∈ h.regions, (⟨0, 4⟩ : CellRef) ∈ y.cover)) ∧
    (∀ c, (sMsg c).messages.find? (fun d => d.2.due ≤ (sMsg c).gtc) = some (1, { due := 0, stamp := 0, cell := c }) ∧
      (sMsg c).group? far.ref = some far) ∧ (∀ c ∈ [cell0, ⟨0, 4⟩], (sMsg c).input.isNone = true) ∧
    (∃ h ∈ (sMsg cell0).groups, h.ref = far.ref ∧ dieOfCore h.core = 1 ∧ ∃ y ∈ h.regions, cell0 ∈ y.cover) ∧
    ∀ h ∈ (sMsg ⟨0, 4⟩).groups, ¬(h.ref = far.ref ∧ dieOfCore h.core = 1 ∧ ∃ y ∈ h.regions, (⟨0, 4⟩ : CellRef) ∈ y.cover) := by
  refine ⟨⟨?_, ?_, ?_, ?_, ?_, ?_, ?_⟩, fun c => ⟨rfl, rfl⟩, ?_, ?_, ?_⟩ <;> decide +kernel

/-! Walks, and the registers that the host writes. -/

/-- A page table that ends in a leaf, readable and writable, and one that ends in an empty entry. -/
def sWalk (leaf : Nat) : State :=
  { up.setOwner 0 { en := true, root0 := 2 ^ 20 } with mem := (tables (2 ^ 20)).take 40 ++
      ((leBytes 8 leaf).zipIdx.map fun b => (2 ^ 20 + 20480 + b.2, b.1)) }
theorem wit_TranslationEvents_walk :
    (∀ p ∈ [(2 ^ 22 + 15, Walk.leaf (2 ^ 22) 1 true true false false), (0, .page 5)],
      pageWalk (sWalk p.1) 0 0 0 = p.2 ∧ ((sWalk p.1).owner 0).en = true ∧ inSpliceCache 0 = false ∧
        (sWalk p.1).tlb.find? (fun e => e.maps 0 0 none 0) = none ∧ (sWalk p.1).frames = []) ∧
    (∀ n ∈ [0, 1], (up.setDie 0 { tlbiCount := n }).die 0 = { tlbiCount := n } ∧ ((up.setDie 0 { tlbiCount := n }).die 0).tlbiDone = true) := by
  refine ⟨?_, ?_⟩ <;> decide +kernel

theorem wit_HostEvents_writes :
    (∀ c ∈ headerChecks object, c.2 = true) ∧ recField object 8 4 ≠ 0x4B010000 + ({ up with family := 1 } : State).family ∧
    recField object 8 4 = 0x4B010000 + up.family ∧ (∀ c ∈ headerChecks rawObject, c.2 = true) ∧
    (up.queue 127).en = false ∧ up.ovfUsed 1 = 0 ∧ (up.die 1).evEn = false ∧ (up.die 1).saveUsed = 0 ∧ (State.reset.owner 1023).capEn = false := by
  refine ⟨?_, ?_, ?_, ?_, ?_, ?_, ?_, ?_, ?_⟩ <;> decide +kernel

/-- The CRC of the object as it stands before its own is put into it is not what it says. -/
theorem wit_HostEvents_crc : recField rawObject 8 4 = 0x4B010000 + up.family ∧
    crc32 (putAt rawObject 0x20 [0, 0, 0, 0]) ≠ recField rawObject 0x20 4 := by
  refine ⟨by decide +kernel, ?_⟩
  have h : putAt rawObject 0x20 [0, 0, 0, 0] = putAt object 0x20 [0, 0, 0, 0] := by decide +kernel
  rw [h, object_crc]
  decide +kernel

end

end Sys2Proof.Tests
end

namespace Sys2Proof.Machine

open Sys2Proof

/-! ### A write of QWIN.W and the tags that stand (R15, R315)

O44 says that a write of QWIN.W leaves the groups as they were.  It does not: data that has crossed a link keeps the W in force
where it was sent, so the write puts into each tag whose stamp has come the GTC to which that W holds it, and a group's regions
hold such tags. -/

/-- A write of one aligned word of W0 (R76). -/
theorem exec_registerWrite_word (fn off v : Nat) (s : State) (h : w0Aligned off 4 = true) :
    exec (.registerWrite fn off 4 v) s = .next (s.writeW0 fn off (wordAt v 0)) := by
  show execRegisterWrite fn off 4 v s = _
  unfold execRegisterWrite
  rw [if_pos h]
  rfl

/-- QWIN.W, written by the physical function, is the window (R15). -/
theorem writeW0_qwin (s : State) (v : Nat) : s.writeW0 0 0x10 v = s.setWindow (v % 512) := rfl

theorem exec_registerWrite_qwin (s : State) {w : Nat} (hw : w < 512) :
    exec (.registerWrite 0 0x10 4 w) s = .next (s.setWindow w) := by
  have hv : wordAt w 0 % 512 = w := by unfold wordAt; omega
  rw [exec_registerWrite_word 0 0x10 w s rfl, writeW0_qwin, hv]

theorem State.setWindow_groups (s : State) {w : Nat} (hlo : 64 ≤ w) (hhi : w ≤ 255) :
    (s.setWindow w).groups = (s.fixTags s.domid).groups := by
  unfold State.setWindow
  rw [if_pos (by simp [hlo, hhi])]
  rfl

/-- A tag of the module, whose stamp has come, keeps the W in force at it. -/
theorem State.fixTag_sent (s : State) {m : Nat} {t : Tag} (hm : t.module = m) (hs : t.stamp ≤ s.gtc) :
    s.fixTag m t = { t with fixed := some (s.tagEnd t) } := by
  unfold State.fixTag
  rw [if_pos (by simp [hm, hs])]

/-- `fixTag` changes neither a tag's module nor its stamp. -/
theorem State.fixTag_origin (s : State) (m : Nat) (t : Tag) :
    (s.fixTag m t).module = t.module ∧ (s.fixTag m t).stamp = t.stamp := by
  unfold State.fixTag
  split <;> exact ⟨rfl, rfl⟩

/-- After a write of QWIN.W every tag of the module that a region holds, and whose stamp has come, says to which GTC it holds. -/
theorem State.setWindow_fixes_tags (s : State) {w : Nat} (hlo : 64 ≤ w) (hhi : w ≤ 255) :
    ∀ g ∈ (s.setWindow w).groups, ∀ r ∈ g.regions, ∀ t ∈ r.tags,
      t.module = s.domid → t.stamp ≤ s.gtc → t.fixed.isSome = true := by
  rw [s.setWindow_groups hlo hhi]
  intro g hg r hr t ht hm hs
  obtain ⟨g, -, rfl⟩ := List.mem_map.1 hg
  obtain ⟨r, -, rfl⟩ := List.mem_map.1 hr
  obtain ⟨t, -, rfl⟩ := List.mem_map.1 ht
  obtain ⟨hmodule, hstamp⟩ := s.fixTag_origin s.domid t
  rw [s.fixTag_sent (hmodule ▸ hm) (hstamp ▸ hs)]
  rfl

/-- A tag of data that entered the seam link at GTC 120 under the window that is still in force, in the open region of a group. -/
def sentTag : Tag := { stamp := 120, module := 0 }
def taggedRegion : Region := { seq := 0, ctx := {}, firstIssue := 100, started := true, tags := [sentTag] }
def taggedGroup : Group := { ref := ⟨0, 0, 0⟩, regions := [taggedRegion] }

/-- A running module of DOMID 0 at GTC 150 with that group. -/
def taggedState : State := { State.reset with step := 7, gtc := 150, groups := [taggedGroup] }

theorem taggedState_holds_sentTag : taggedGroup ∈ taggedState.groups ∧ taggedRegion ∈ taggedGroup.regions ∧
    sentTag ∈ taggedRegion.tags ∧ sentTag.module = taggedState.domid ∧ sentTag.stamp ≤ taggedState.gtc :=
  ⟨List.mem_singleton_self _, List.mem_singleton_self _, List.mem_singleton_self _, rfl, by decide⟩

/-- A write of 100 to QWIN.W changes the groups of `taggedState`. -/
theorem taggedState_setWindow_groups_ne : (taggedState.setWindow 100).groups ≠ taggedState.groups := by
  intro h
  obtain ⟨hg, hr, ht, hm, hs⟩ := taggedState_holds_sentTag
  have hfixed : sentTag.fixed.isSome = true :=
    taggedState.setWindow_fixes_tags (by decide) (by decide) _ (h ▸ hg) _ hr _ ht hm hs
  exact absurd hfixed (by decide)

/-- Refutes O44: its clause of QWIN.W claims `t.groups = s.groups`, but where a region holds the tag of a reply that has crossed
the seam link (`taggedState`), the write of 100 to offset 0x10 fixes that tag's hold (R315). -/
theorem not_hostEvents : ¬ Obligations.HostEvents := by
  unfold Obligations.HostEvents
  intro h
  obtain ⟨-, -, -, -, hqwin, -⟩ := h taggedState 0 0 0 100 0 0 0 0 [] []
  obtain ⟨t, hexec, -, -, hgroups, -⟩ := hqwin (by decide) (by decide)
  rw [exec_registerWrite_qwin taggedState (by decide)] at hexec
  injection hexec with hstate
  exact taggedState_setWindow_groups_ne (hstate ▸ hgroups)

end Sys2Proof.Machine

namespace Sys2Proof

/-! ## Encoding and decoding (chapter 3)

The decoder reads the words of a shape back as that shape, and accepts nothing but the words of a shape without a defect. -/

/-! ### Fields of a word -/

/-- Fields that stand side by side are one field. -/
theorem field_append_field {w : W32} {hi lo m n : Nat} (h : hi = lo + n) :
    field w hi m ++ field w lo n = field w lo (m + n) :=
  BitVec.extractLsb'_append_extractLsb'_eq_extractLsb' h

theorem field_all (w : W32) : field w 0 32 = w := BitVec.extractLsb'_eq_self

theorem flag_getLsbD (w : W32) (i : Nat) : flag (w.getLsbD i) = field w i 1 := by
  refine BitVec.eq_of_getLsbD_eq fun j hj => ?_
  obtain rfl : j = 0 := by omega
  simp [flag, field]

theorem getLsbD_eq_field (w : W32) (i : Nat) : w.getLsbD i = (field w i 1).getLsbD 0 := by simp [field]

theorem getLsbD_flag (b : Bool) : (flag b).getLsbD 0 = b := by simp [flag]

/-- LEN and MAJ stand at the bottom of word 0 (R44). -/
theorem lenOf_word (x : BitVec 30) (len : BitVec 2) : lenOf (x ++ len) = len.toNat :=
  congrArg BitVec.toNat BitVec.extractLsb'_append_eq_right

theorem majOf_word (x : BitVec 25) (maj : BitVec 5) (len : BitVec 2) : majOf (x ++ maj ++ len) = maj.toNat := by
  unfold majOf field
  rw [BitVec.extractLsb'_append_eq_of_le (by omega), BitVec.extractLsb'_append_eq_right]

theorem zeroDefect_eq_nil {v bit : Nat} : zeroDefect false v bit = [] ↔ v = 0 := by simp [zeroDefect]

theorem firstDefect_eq_none : ∀ {ds : List Defect}, firstDefect ds = none ↔ ds = []
  | [] => by simp [firstDefect]
  | d :: ds => by
    simp only [firstDefect, reduceCtorEq, iff_false]
    split <;> simp

/-! ### The words of an instruction and its literal (R44, Table 3-1) -/

theorem litWords_append (l0 l1 : W32) : litWords (some (l1 ++ l0)) = [l0, l1] :=
  congrArg₂ (fun a b => [a, b]) BitVec.extractLsb'_append_eq_right BitVec.extractLsb'_append_eq_left

theorem litWords_some (v : W64) : ∃ l0 l1, litWords (some v) = [l0, l1] ∧ l1 ++ l0 = v :=
  ⟨_, _, rfl, BitVec.extractLsb'_append_extractLsb'⟩

theorem readShape_base {w0 : W32} {lit : Option W64} (h : lenOf w0 = (lenBits false lit).toNat) (rest : List W32) :
    readShape ((w0 :: litWords lit) ++ rest) = some (readBase w0 lit) := by
  cases lit with
  | none => simp [readShape, litWords, h, lenBits]
  | some v =>
    obtain ⟨l0, l1, hl, rfl⟩ := litWords_some v
    simp [readShape, hl, h, lenBits]

theorem readShape_extended {w0 : W32} {lit : Option W64} (h : lenOf w0 = (lenBits true lit).toNat) (w1 w2 : W32)
    (rest : List W32) : readShape ((w0 :: w1 :: w2 :: litWords lit) ++ rest) = some (readExtended w0 w1 w2 lit) := by
  cases lit with
  | none => simp [readShape, litWords, h, lenBits]
  | some v =>
    obtain ⟨l0, l1, hl, rfl⟩ := litWords_some v
    simp [readShape, hl, h, lenBits]

/-- What is read was read from its own words: a base form's, or an extended form's. -/
theorem readShape_eq_some {ws : List W32} {r : RawShape} : readShape ws = some r → ∃ w0 lit rest,
    (lenOf w0 = (lenBits false lit).toNat ∧ readBase w0 lit = r ∧ ws = (w0 :: litWords lit) ++ rest) ∨
    ∃ w1 w2, lenOf w0 = (lenBits true lit).toNat ∧ readExtended w0 w1 w2 lit = r ∧
      ws = (w0 :: w1 :: w2 :: litWords lit) ++ rest := by
  fun_cases readShape ws with
  | case1 => simp
  | case2 w0 rest hl => exact fun h => ⟨w0, none, rest, .inl ⟨hl, Option.some.inj h, rfl⟩⟩
  | case3 w0 l0 l1 rest hl =>
    exact fun h => ⟨w0, some (l1 ++ l0), rest, .inl ⟨hl, Option.some.inj h, by rw [litWords_append]; rfl⟩⟩
  | case4 w0 w1 w2 rest hl => exact fun h => ⟨w0, none, rest, .inr ⟨w1, w2, hl, Option.some.inj h, rfl⟩⟩
  | case5 w0 w1 w2 l0 l1 rest hl =>
    exact fun h => ⟨w0, some (l1 ++ l0), rest, .inr ⟨w1, w2, hl, Option.some.inj h, by rw [litWords_append]; rfl⟩⟩
  | case6 => simp

/-! ### Names -/

/-- No family has an instruction beyond FN 63 (Tables 4-4 to 4-15). -/
theorem usage_fn_lt {maj fn : Nat} {x : Ext} {u : Usage} (h : usage maj fn x = some u) : fn < 64 := by
  by_contra hfn
  obtain ⟨k, rfl⟩ : ∃ k, fn = k + 64 := ⟨fn - 64, by omega⟩
  revert h
  fun_cases usage maj (k + 64) x <;>
    simp [uniformUsage, vectorUsage, floatUsage, crossUsage, controlUsage, memoryUsage, copyUsage, contentUsage, syncUsage,
      matrixUsage, systemUsage]

/-- The shape of every instruction names it (Tables 4-3 to 4-15). -/
theorem toInstr?_of_shape (i : Instr) : Laws.Named.Statement i := by
  cases i with
  | sshli f => exact Laws.Named.sshli f
  | sshri f => exact Laws.Named.sshri f
  | ssrai f => exact Laws.Named.ssrai f
  | _ => exact fun _ h => by cases h <;> rfl

theorem shape_of_extInstr {maj fn : Nat} {x : Ext} {i : Instr} :
    extInstr maj fn x = some i → i.shape = some (.ext maj fn x) := by
  (fun_cases extInstr maj fn x <;>
      [fun_cases extUniform fn x; fun_cases extVector fn x; fun_cases extFloat fn x; fun_cases extCross fn x;
       fun_cases extControl fn x; fun_cases extMemory fn x; fun_cases extCopy fn x; fun_cases extContent fn x;
       fun_cases extSync fn x; fun_cases extMatrix fn x; fun_cases extSystem fn x; skip]) <;>
    exact fun h => by cases h <;> rfl

theorem shape_of_baseInstr {maj fn : Nat} {f : BaseF} {i : Instr} :
    baseInstr maj fn f = some i → i.shape = some (.base maj fn f) := by
  (fun_cases baseInstr maj fn f <;>
      [fun_cases base4 fn f; fun_cases base5 fn f; fun_cases base6 fn f; fun_cases base7 fn f; skip]) <;>
    exact fun h => by cases h <;> rfl

/-- The count of a UA shift stands in the low bits of an immediate whose other bits are 0, or bit 6 alone (R71). -/
theorem shift_imm {imm : BitVec 12} (h : imm.toNat / 64 = 0) : (imm.setWidth 6).setWidth 12 = imm := by
  apply BitVec.eq_of_toNat_eq
  simp only [BitVec.toNat_setWidth]
  omega

theorem shift_imm_logical {imm : BitVec 12} (h : imm.toNat / 128 = 0) (hb : imm.getLsbD 6 = false) :
    (imm.setWidth 6).setWidth 12 = imm := by
  have hb : imm.toNat / 64 % 2 = 0 := by
    simpa [BitVec.getLsbD, Nat.testBit_eq_decide_div_mod_eq] using hb
  exact shift_imm (by omega)

theorem shift_imm_arithmetic {imm : BitVec 12} (h : imm.toNat / 128 = 0) (hb : imm.getLsbD 6 = true) :
    (1#1 ++ imm.setWidth 6).setWidth 12 = imm := by
  have hb : imm.toNat / 64 % 2 = 1 := by
    simpa [BitVec.getLsbD, Nat.testBit_eq_decide_div_mod_eq] using hb
  apply BitVec.eq_of_toNat_eq
  have hc : (1#1 ++ imm.setWidth 6).toNat = 64 + imm.toNat % 64 := by
    rw [BitVec.toNat_append, ← Nat.shiftLeft_add_eq_or_of_lt (BitVec.isLt _)]
    simp
  rw [BitVec.toNat_setWidth, hc]
  omega

theorem shape_of_uaInstr {l : Limits} {fn : Nat} {f : UaF} {i : Instr} (hd : uaDefects l fn f = []) :
    uaInstr fn f = some i → i.shape = some (.ua fn f) := by
  obtain ⟨himm, -, -⟩ : _ ∧ sDefect l f.d.toNat 10 = [] ∧ sDefect l f.a.toNat 15 = [] := by
    simpa [uaDefects, and_assoc] using hd
  fun_cases uaInstr fn f with
  | case7 =>
    rintro ⟨⟩
    simp only [Instr.shape, shift_imm (zeroDefect_eq_nil.1 himm)]
  | case8 f hb =>
    rintro ⟨⟩
    simp only [Instr.shape, shift_imm_arithmetic (zeroDefect_eq_nil.1 himm) hb]
  | case9 f hb =>
    rintro ⟨⟩
    simp only [Instr.shape, shift_imm_logical (zeroDefect_eq_nil.1 himm) (by simpa using hb)]
  | _ => exact fun h => by cases h <;> rfl

theorem shape_of_bctlInstr {l : Limits} {fn : Nat} {imm : BitVec 18} {i : Instr} (hd : (Shape.bctl fn imm).defects l = []) :
    bctlInstr fn imm = some i → i.shape = some (.bctl fn imm) := by
  have himm (h6 : fn < 6) : imm = 0 := by
    rw [Shape.defects, if_neg (by omega), if_neg (by omega)] at hd
    exact BitVec.eq_of_toNat_eq (zeroDefect_eq_nil.1 hd)
  fun_cases bctlInstr fn imm <;> intro h <;> cases h
  case case7 => rfl
  all_goals rw [himm (by omega)]; rfl

/-- A shape without a defect is that of the instruction that it names. -/
theorem shape_of_toInstr? {l : Limits} {sh : Shape} {i : Instr} (hd : sh.defects l = []) (h : sh.toInstr? = some i) :
    i.shape = some sh := by
  cases sh with
  | ui pc f => cases pc <;> cases h <;> rfl
  | ua fn f =>
    have hfn : fn < 8 := by
      by_contra hfn
      simp [Shape.defects, hfn] at hd
    exact shape_of_uaInstr (l := l) (by simpa [Shape.defects, hfn] using hd) h
  | base maj fn f => exact shape_of_baseInstr h
  | bra link off => cases link <;> cases h <;> rfl
  | brac f => cases h; rfl
  | bctl fn imm => exact shape_of_bctlInstr hd h
  | bm store f => cases store <;> cases h <;> rfl
  | um store f => cases store <;> cases h <;> rfl
  | ext maj fn x => exact shape_of_extInstr h
  | pair p => cases h; rfl

/-! ### What is encoded is read back (R44, R48, R52, R61) -/

theorem base_fields {l : Limits} {maj fn : Nat} {f : BaseF} (hd : (Shape.base maj fn f).defects l = []) :
    (4 ≤ maj ∧ maj ≤ 7) ∧ fn < 64 := by
  by_cases hm : 4 ≤ maj ∧ maj ≤ 7
  · refine ⟨hm, ?_⟩
    rw [Shape.defects, if_pos (by simpa using hm), baseDefects] at hd
    cases hu : usage (maj + 12) fn {} with
    | none => simp only [hu, reduceCtorEq] at hd
    | some u => exact usage_fn_lt hu
  · simp [Shape.defects, hm] at hd

theorem ext_fields {l : Limits} {maj fn : Nat} {x : Ext} (hd : (Shape.ext maj fn x).defects l = []) :
    (16 ≤ maj ∧ maj ≤ 26) ∧ fn < 64 := by
  rw [Shape.defects, extDefects] at hd
  by_cases hm : 16 ≤ maj ∧ maj ≤ 26
  · refine ⟨hm, ?_⟩
    rw [if_neg (by simp; omega)] at hd
    cases hu : usage maj fn x with
    | none => simp only [hu, reduceCtorEq] at hd
    | some u => exact usage_fn_lt hu
  · rw [if_pos (by simp; omega)] at hd
    cases hd

theorem ua_fields {l : Limits} {fn : Nat} {f : UaF} (hd : (Shape.ua fn f).defects l = []) : fn < 8 := by
  by_contra h
  simp [Shape.defects, h] at hd

theorem bctl_fields {l : Limits} {fn : Nat} {imm : BitVec 18} (hd : (Shape.bctl fn imm).defects l = []) : fn < 7 := by
  by_contra h
  simp [Shape.defects, Nat.le_of_not_lt h] at hd

theorem readBase_base {maj fn : Nat} (hm : 4 ≤ maj ∧ maj ≤ 7) (hf : fn < 64) (f : BaseF) :
    readBase (f.b ++ f.a ++ f.d ++ BitVec.ofNat 7 fn ++ BitVec.ofNat 5 maj ++ lenBits false f.lit) f.lit =
      .shape (.base maj fn f) [] := by
  have hmaj : (BitVec.ofNat 5 maj).toNat = maj := Nat.mod_eq_of_lt (by omega)
  have hfn : (BitVec.ofNat 7 fn).toNat = fn := Nat.mod_eq_of_lt (by omega)
  unfold readBase
  rw [majOf_word, hmaj]
  obtain rfl | rfl | rfl | rfl : maj = 4 ∨ maj = 5 ∨ maj = 6 ∨ maj = 7 := by omega
  all_goals
    simp (disch := omega) only [field, BitVec.extractLsb'_append_eq_of_le (v := 30) (w := 2),
      BitVec.extractLsb'_append_eq_of_le, BitVec.extractLsb'_append_eq_of_add_le, Nat.reduceSub, BitVec.extractLsb'_eq_self, hfn]
    rfl

theorem readExtended_ext {maj fn : Nat} (hm : 16 ≤ maj ∧ maj ≤ 26) (hf : fn < 64) (x : Ext) :
    readExtended
      (0#1 ++ x.ch ++ x.yh ++ flag x.tc ++ flag x.tb ++ flag x.ta ++ flag x.sat ++ x.rm ++ flag x.kn ++ x.kp ++
        BitVec.ofNat 9 fn ++ BitVec.ofNat 5 maj ++ lenBits true x.lit)
      (flag x.xa ++ flag x.na ++ x.b ++ x.a ++ x.d)
      (x.e ++ x.imm8 ++ flag x.xc ++ flag x.nc ++ flag x.xb ++ flag x.nb ++ x.c) x.lit = .shape (.ext maj fn x) [] := by
  have hmaj : (BitVec.ofNat 5 maj).toNat = maj := Nat.mod_eq_of_lt (by omega)
  have hfn : (BitVec.ofNat 9 fn).toNat = fn := Nat.mod_eq_of_lt (by omega)
  unfold readExtended
  rw [majOf_word, hmaj, if_neg (by omega), if_pos (by simpa using hm)]
  simp (disch := omega) only [readExt, getLsbD_eq_field, field, BitVec.extractLsb'_append_eq_of_le (v := 30) (w := 2),
    BitVec.extractLsb'_append_eq_of_le (v := 22) (w := 10), BitVec.extractLsb'_append_eq_of_add_le (v := 22) (w := 10),
    BitVec.extractLsb'_append_eq_of_le, BitVec.extractLsb'_append_eq_of_add_le, Nat.reduceSub, BitVec.extractLsb'_eq_self,
    getLsbD_flag, hfn]
  rfl

theorem readExtended_pair (p : PairF) :
    readExtended (0#1 ++ p.xkp ++ p.xa ++ p.xd ++ p.xfn ++ 31#5 ++ 2#2) (0#2 ++ p.ykp ++ p.yd ++ p.yfn ++ p.xc ++ p.xb)
      (0#10 ++ p.yc ++ p.yb ++ p.ya) none = .shape (.pair p) [] := by
  unfold readExtended
  rw [majOf_word]
  show RawShape.shape _ _ = _
  simp (disch := omega) only [readPair, field, BitVec.extractLsb'_append_eq_of_le (v := 30) (w := 2),
    BitVec.extractLsb'_append_eq_of_le (v := 25) (w := 7), BitVec.extractLsb'_append_eq_of_add_le (v := 25) (w := 7),
    BitVec.extractLsb'_append_eq_of_le (v := 24) (w := 8), BitVec.extractLsb'_append_eq_of_add_le (v := 24) (w := 8),
    BitVec.extractLsb'_append_eq_of_le, BitVec.extractLsb'_append_eq_of_add_le, Nat.reduceSub, BitVec.extractLsb'_eq_self]
  rfl

/-- The words of a shape without a defect are read as that shape, and show nothing else. -/
theorem readShape_encode {l : Limits} {sh : Shape} (hd : sh.defects l = []) (rest : List W32) :
    readShape (sh.encode ++ rest) = some (.shape sh []) := by
  cases sh
  case base maj fn f =>
    obtain ⟨hm, hf⟩ := base_fields hd
    exact (readShape_base (lenOf_word _ _) rest).trans (congrArg some (readBase_base hm hf f))
  case ext maj fn x =>
    obtain ⟨hm, hf⟩ := ext_fields hd
    exact (readShape_extended (lenOf_word _ _) _ _ rest).trans (congrArg some (readExtended_ext hm hf x))
  case pair p =>
    exact (readShape_extended (lit := none) (lenOf_word _ _) _ _ rest).trans (congrArg some (readExtended_pair p))
  case' ui pc f => cases pc
  case' ua fn f => have hfn := ua_fields hd
  case' bctl fn imm => have hfn := bctl_fields hd
  case' bra link off => cases link
  all_goals
    refine (readShape_base (lit := none) (lenOf_word _ _) rest).trans (congrArg some ?_)
    unfold readBase
    rw [majOf_word]
    simp (disch := omega) only [getLsbD_eq_field, field, BitVec.extractLsb'_append_eq_of_le (v := 30) (w := 2),
      BitVec.extractLsb'_append_eq_of_le, BitVec.extractLsb'_append_eq_of_add_le, Nat.reduceSub, BitVec.extractLsb'_eq_self,
      getLsbD_flag, BitVec.toNat_ofNat, Nat.mod_eq_of_lt]
    rfl

/-- R47: a shape without a defect passes the decoder's checks. -/
theorem checkShape_encode {l : Limits} {sh : Shape} (hd : sh.defects l = []) (rest : List W32) :
    checkShape l (sh.encode ++ rest) = .ok sh := by
  unfold checkShape
  rw [readShape_encode hd]
  simp only [List.nil_append, hd, firstDefect]

/-- Settles O49: the words of a shape without a defect are read as that shape (`readShape_encode`), which names the
instruction (`toInstr?_of_shape`). -/
theorem decodeEncode : Obligations.DecodeEncode := by
  unfold Obligations.DecodeEncode
  rintro l i rest ⟨sh, hs, hd⟩
  have he : encode i = sh.encode := by simp only [encode, hs]
  simp only [he, decodeWith, checkShape_encode hd, toInstr?_of_shape i sh hs]

/-! ### What is read is what was encoded (R44, R47, R53) -/

theorem ofNat_toNat_field (w : W32) (lo n : Nat) : BitVec.ofNat n (field w lo n).toNat = field w lo n := by simp

theorem field_of_majOf {w : W32} {n : Nat} (h : majOf w = n) : BitVec.ofNat 5 n = field w 2 5 :=
  h ▸ ofNat_toNat_field w 2 5

theorem field_of_lenOf {w : W32} {v : BitVec 2} (h : lenOf w = v.toNat) : v = field w 0 2 := (BitVec.eq_of_toNat_eq h).symm

/-- A base form's words are those of the shape that is read from them, where they show no defect. -/
theorem encode_of_readBase {w : W32} {lit : Option W64} {sh : Shape} (hlen : lenOf w = (lenBits false lit).toNat) :
    readBase w lit = .shape sh [] → sh.encode = w :: litWords lit := by
  have hl := field_of_lenOf hlen
  have noLit {sh' : Shape} (h : RawShape.shape sh' (if lit.isSome = true then [⟨.illLit, 0⟩] else []) = .shape sh []) :
     sh = sh' ∧ lit = none := by
    cases lit <;> simp_all
  fun_cases readBase w lit
  case case10 =>
    intro h
    cases h
    rw [Shape.encode, hl, field_of_majOf rfl, ofNat_toNat_field]
    simp (disch := omega) only [field_append_field]
    rw [field_all]
  case case11 => intro h; cases h
  all_goals
    rename_i hmaj
    intro h
    obtain ⟨rfl, rfl⟩ := noLit h
    simp +zetaDelta only [Shape.encode, Bool.false_eq_true, if_false, if_true, ofNat_toNat_field, flag_getLsbD]
    rw [field_of_majOf hmaj, show 0#2 = field w 0 2 from hl]
    simp (disch := omega) only [field_append_field]
    rw [field_all]
    rfl

theorem encode_of_readExtended {w0 w1 w2 : W32} {lit : Option W64} {sh : Shape} (hlen : lenOf w0 = (lenBits true lit).toNat) :
    readExtended w0 w1 w2 lit = .shape sh [] → sh.encode = w0 :: w1 :: w2 :: litWords lit := by
  have hl := field_of_lenOf hlen
  have zero {w : W32} {lo n bit : Nat} (h : zeroDefect false (field w lo n).toNat bit = []) : BitVec.ofNat n 0 = field w lo n :=
    (ofNat_toNat_field w lo n).symm ▸ congrArg (BitVec.ofNat n) (zeroDefect_eq_nil.1 h).symm
  fun_cases readExtended w0 w1 w2 lit with
  | case2 maj hm hlit =>
    intro h
    obtain ⟨rfl, hz⟩ := RawShape.shape.inj h
    simp only [List.append_eq_nil_iff] at hz
    obtain ⟨⟨h0, h1⟩, h2⟩ := hz
    obtain rfl : lit = none := by simpa using hlit
    rw [Shape.encode, field_of_majOf hm, show 2#2 = field w0 0 2 from hl, zero h0, zero h1, zero h2]
    simp (disch := omega) only [readPair, field_append_field]
    rw [field_all, field_all, field_all]
    rfl
  | case3 maj hm hr =>
    intro h
    obtain ⟨rfl, hz⟩ := RawShape.shape.inj h
    have hlit : (readExt w0 w1 w2 lit).lit = lit := rfl
    rw [Shape.encode, hlit, hl, field_of_majOf rfl, ofNat_toNat_field, zero hz]
    simp (disch := omega) only [readExt, flag_getLsbD, field_append_field]
    rw [field_all, field_all, field_all]
  | _ => intro h; cases h

/-- What is read without a defect has the words of its shape in front. -/
theorem encode_of_readShape {ws : List W32} {sh : Shape} (h : readShape ws = some (.shape sh [])) : sh.encode <+: ws := by
  obtain ⟨w0, lit, rest, ⟨hl, hr, rfl⟩ | ⟨w1, w2, hl, hr, rfl⟩⟩ := readShape_eq_some h
  · exact ⟨rest, by rw [encode_of_readBase hl hr]⟩
  · exact ⟨rest, by rw [encode_of_readExtended hl hr]⟩

theorem checkShape_eq_ok {l : Limits} {ws : List W32} {sh : Shape} (h : checkShape l ws = .ok sh) :
    readShape ws = some (.shape sh []) ∧ sh.defects l = [] := by
  revert h
  fun_cases checkShape l ws with
  | case4 sh' extra hr hd =>
    intro h
    cases h
    obtain ⟨rfl, hnil⟩ := List.append_eq_nil_iff.1 (firstDefect_eq_none.1 hd)
    exact ⟨hr, hnil⟩
  | _ => intro h; cases h

theorem decodeWith_eq_ok {l : Limits} {ws : List W32} {i : Instr} (h : decodeWith l ws = .ok i) :
    ∃ sh, checkShape l ws = .ok sh ∧ sh.toInstr? = some i := by
  revert h
  fun_cases decodeWith l ws with
  | case2 sh hc j hj =>
    intro h
    cases h
    exact ⟨sh, hc, hj⟩
  | _ => intro h; cases h

/-- Settles O50: what the decoder accepts was read from its own words (`encode_of_readShape`), and its shape, which has no
defect, is the instruction's (`shape_of_toInstr?`). -/
theorem encodeDecode : Obligations.EncodeDecode := by
  unfold Obligations.EncodeDecode
  intro l ws i h
  obtain ⟨sh, hc, hn⟩ := decodeWith_eq_ok h
  obtain ⟨hr, hd⟩ := checkShape_eq_ok hc
  have hs := shape_of_toInstr? hd hn
  refine ⟨⟨sh, hs, hd⟩, ?_⟩
  have he : encode i = sh.encode := by simp only [encode, hs]
  rw [he]
  exact (List.prefix_iff_eq_take.1 (encode_of_readShape hr)).symm


/-! ### The spec's listings -/

theorem wellFormed_of_wf {l : Limits} {i : Instr} (h : i.wf l = true) : i.WellFormed l := by
  unfold Instr.wf at h
  split at h
  · cases h
  · next sh hs => exact ⟨sh, hs, List.isEmpty_iff.1 h⟩

theorem wordTable_encode : ∀ p ∈ Machine.wordTable, encode p.2 = p.1 := by decide

theorem wordTable_wf : ∀ p ∈ Machine.wordTable, p.2.wf Limits.all = true := by decide

/-- Settles O51: each listed instruction is well formed and its encoding is the listed words, which therefore decode to it. -/
theorem decodedWords : Obligations.DecodedWords := by
  unfold Obligations.DecodedWords
  intro p hp
  have he := wordTable_encode p hp
  refine ⟨?_, he⟩
  simpa only [he, List.append_nil] using decodeEncode _ p.2 [] (wellFormed_of_wf (wordTable_wf p hp))

end Sys2Proof

namespace Sys2Proof.Machine

/-! ## Base forms of the register families (R51, R70)

Each family has one operation that runs all its instructions.  A row of the family's table says with which function; what the
operation leaves of the group is said once. -/

/-! ### The uniform family -/

section
variable {s : State} {g : Group} {b : Block}

theorem uniformOp_completes {n : Instr} {fn len : Nat} {x : Ext} {val : W64 → W64 → W64 → W64}
    (hx : exec n s = uniformOp fn x len val s) (hf : Full 16 fn x (envOf s g b len)) :
    let e := envOf s g b len
    Completes n { len } s g b
      (e.putU (g.arch.past len) (x.d.toNat - 128) (val (e.srcU x.lit x.a) (e.srcU x.lit x.b) (e.srcU x.lit x.c)))
      (e.uCodes (x.d.toNat - 128)) :=
  ext_completes (i := uInfo len) hx hf rfl (setS64_s _ _ _) (setS64_b _ _ _) (by rw [putU_done]; simp only [envAt_srcU]; rfl)

end

theorem sseqVal_eq : sseqVal = fun a b _ => if a = b then 1 else 0 := by
  funext a b _
  simp [sseqVal, ofBool64]

/-- Each base form of Table 10-1 runs the family's operation with the function of its row. -/
theorem exec_uniformBase (f : BaseF) :
    ∀ p ∈ uniformBaseTable f, exec p.2.1 = uniformOp p.1 (.ofBase 16 p.1 f) (lenBase f) p.2.2 := by
  simp only [uniformBaseTable, ← sseqVal_eq, List.forall_mem_cons, List.not_mem_nil, false_implies, implies_true, and_true]
  and_intros <;> rfl

/-- Settles O2: every base form is the uniform operation with the function of its row (`exec_uniformBase`), and that operation
writes D alone (`uniformOp_completes`). -/
theorem uniformBaseResult : Obligations.UniformBaseResult := by
  unfold Obligations.UniformBaseResult
  intro s g b f p hp e x d hf
  exact uniformOp_completes (congrFun (exec_uniformBase f p hp) s) hf

/-! ### The vector integer family -/

section
variable {s : State} {g : Group} {b : Block}

theorem vectorOp_completes {n : Instr} {fn len k : Nat} {x : Ext} {aff : VVal → VVal → VVal → Option VVal}
    {val : W32 → W32 → W32 → W32} (hx : exec n s = vectorOp fn x len k aff val s) (hf : Full 17 fn x (envOf s g b len)) :
    let e := envOf s g b len
    Completes n { len } s g b (e.putV x (g.arch.past len) x.d.toNat (e.vectorResult x k aff val)) [e.vIdx x.d.toNat] :=
  ext_completes (i := uInfo len) hx hf rfl rfl rfl (by rw [writeV_g]; simp only [envAt_src32]; rfl)

end

/-- Each base form of Table 10-2 runs the family's operation with what its row gives. -/
theorem exec_vectorBase (f : BaseF) :
    ∀ p ∈ vectorBaseTable f, exec p.2.1 = vectorOp p.1 (.ofBase 17 p.1 f) (lenBase f) p.2.2.1 p.2.2.2.1 p.2.2.2.2 := by
  simp only [vectorBaseTable, List.forall_mem_cons, List.not_mem_nil, false_implies, implies_true, and_true]
  and_intros <;> rfl

/-- Settles O5: every base form is the vector operation with what its row gives (`exec_vectorBase`), and that operation writes D
alone (`vectorOp_completes`). -/
theorem vectorBaseResult : Obligations.VectorBaseResult := by
  unfold Obligations.VectorBaseResult
  intro s g b f p hp e x hf
  exact vectorOp_completes (congrFun (exec_vectorBase f p hp) s) hf

/-! ### The vector float family -/

/-- R236: where no slot that takes part raises an enabled exception, the flags are set and nothing traps. -/
theorem fpOutcome_ok {fmode : W64} {counts : Nat → Bool} {ex : Nat → Exc} {half : Nat}
    (h : allRaised counts ex &&& excEnabled fmode = 0) :
    fpOutcome fmode counts ex half = .ok (raiseFlags fmode (allRaised counts ex)) := by
  simp only [fpOutcome, fpTrap, if_pos h]

theorem finishV_done {s : State} {g : Group} {b : Block} {len half : Nat} {x : Ext} {rs : Slots}
    (h : (envOf s g b len).raised x rs &&& excEnabled g.arch.fmode = 0) :
    ∃ e, (envAt { len } s g b).finishV x half rs = .done e ∧ e.s = s ∧ e.b = b ∧
      e.g = (g.atIssue { len } s.gtc).wrote ((envOf s g b len).putF x (g.arch.past len) rs) [(envOf s g b len).vIdx x.d.toNat] := by
  have hfm : (envAt { len } s g b).g.arch.fmode = g.arch.fmode := by rw [envAt_arch]; rfl
  have hact : (envAt { len } s g b).active x = (envOf s g b len).active x := funext fun j => envAt_active _ s g b x j
  unfold Env.finishV
  simp only [hfm, hact]
  rw [fpOutcome_ok h]
  refine ⟨_, rfl, setFmode_s _ _, setFmode_b _ _, ?_⟩
  exact setFmode_g (writeV_g x _ _) _

/-- `n` completes with the slots `rs`, where none of those that take part raises an enabled exception (R236). -/
def CompletesF (n : Instr) (maj fn len : Nat) (x : Ext) (s : State) (g : Group) (b : Block) (rs : Slots) : Prop :=
  let e := envOf s g b len
  Full maj fn x e → e.raised x rs &&& excEnabled g.arch.fmode = 0 →
    Completes n { len } s g b (e.putF x (g.arch.past len) rs) [e.vIdx x.d.toNat]

section
variable {s : State} {g : Group} {b : Block} {n : Instr} {maj fn len : Nat} {x : Ext}

theorem finishV_completes {k : Env → Res} {rs : Slots} (hx : exec n s = issueExt maj fn x (uInfo len) k s)
    (hk : k (envAt { len } s g b) = (envAt { len } s g b).finishV x 0 rs) : CompletesF n maj fn len x s g b rs := by
  intro hf h
  obtain ⟨e', he, hs, hb, hg⟩ := finishV_done h
  exact ext_completes (i := uInfo len) hx hf (hk.trans he) hs hb hg

theorem scalarOp_completes {op : FMode → FSpec → Nat → Nat → Nat → Nat × Exc} (hx : exec n s = scalarOp fn x len op s) :
    CompletesF n 18 fn len x s g b ((envOf s g b len).scalarSlots x op) :=
  finishV_completes hx (by simp only [envAt_src32, envAt_fmodeFor]; rfl)

theorem packedOp_completes {op : FMode → FSpec → Nat → Nat → Nat → Nat × Exc} (hx : exec n s = packedOp fn x len op s) :
    CompletesF n 18 fn len x s g b ((envOf s g b len).packedSlots x op) :=
  finishV_completes hx (by simp only [envAt_src32, envAt_fmodeFor]; rfl)

/-- FRND has the row of FN 8 among the conversions (R245). -/
theorem frndOp_completes (hx : exec n s = frndOp x len s) :
    ∀ r ∈ convertTable (envOf s g b len) x, r.1 = 8 → CompletesF n 18 8 len x s g b r.2.2 := by
  simp only [convertTable, List.forall_mem_cons, List.not_mem_nil, false_implies, implies_true, and_true, Nat.reduceEqDiff,
    forall_const]
  exact scalarOp_completes (op := fun m f a _ _ => frndV (x.imm8.getLsbD 2) m f a) hx

/-- FLDEXP has the row of FN 23 (R245). -/
theorem fldexpOp_completes (hx : exec n s = fldexpOp x len s) :
    ∀ r ∈ convertTable (envOf s g b len) x, r.1 = 23 → CompletesF n 18 23 len x s g b r.2.2 := by
  simp only [convertTable, List.forall_mem_cons, List.not_mem_nil, false_implies, implies_true, and_true, true_and,
    Nat.reduceEqDiff, forall_const]
  unfold fldexpOp floatOp at hx
  exact finishV_completes hx (by simp only [envAt_src32, envAt_fmodeFor]; rfl)

/-- FDOT2 has the row of FN 30 (R246). -/
theorem dotOp_completes (hx : exec n s = dotOp x len s) :
    ∀ r ∈ convertTable (envOf s g b len) x, r.1 = 30 → CompletesF n 18 30 len x s g b r.2.2 := by
  simp only [convertTable, List.forall_mem_cons, List.not_mem_nil, false_implies, implies_true, and_true, true_and,
    Nat.reduceEqDiff, forall_const]
  exact finishV_completes hx (by simp only [envAt_src32, envAt_src64, envAt_fmodeFor]; rfl)

end

/-- Each scalar base form of Table 12-1 runs the scalar operation with the element function of its row. -/
theorem exec_scalarBase (f : BaseF) :
    ∀ p ∈ scalarBaseTable f, exec p.2.1 = scalarOp p.1 (.ofBase 18 p.1 f) (lenBase f) p.2.2 := by
  simp only [scalarBaseTable, List.forall_mem_cons, List.not_mem_nil, false_implies, implies_true, and_true]
  and_intros <;> rfl

/-- And each packed one the packed operation. -/
theorem exec_packedBase (f : BaseF) :
    ∀ p ∈ packedBaseTable f, exec p.2.1 = packedOp p.1 (.ofBase 18 p.1 f) (lenBase f) p.2.2 := by
  simp only [packedBaseTable, List.forall_mem_cons, List.not_mem_nil, false_implies, implies_true, and_true]
  and_intros <;> rfl

/-- Settles O9: every operation of the family ends in `finishV`, which sets the flags and writes D alone where nothing traps. -/
theorem floatBaseResult : Obligations.FloatBaseResult := by
  unfold Obligations.FloatBaseResult
  intro s g b f e ok
  refine ⟨fun p hp => ?_, fun p hp => ?_, ?_, ?_, ?_⟩
  · exact scalarOp_completes (congrFun (exec_scalarBase f p hp) s)
  · exact packedOp_completes (congrFun (exec_packedBase f p hp) s)
  · exact frndOp_completes rfl
  · exact fldexpOp_completes rfl
  · exact dotOp_completes rfl

/-! ### The cross-thread family -/

section
variable {s : State} {g : Group} {b : Block}

theorem crossOp_completes {n : Instr} {fn len : Nat} {x : Ext} {src : Nat → W32 → Nat}
    (hx : exec n s = crossOp fn x len src s) (hf : Full 19 fn x (envOf s g b len)) :
    let e := envOf s g b len
    let a := e.src32 .int x.lit x.a
    let v := e.src32 .int x.lit x.b
    Completes n { len } s g b
      (e.putV x (g.arch.past len) x.d.toNat (.ofSlots fun t => e.readAt x.a a (src t (v.slot t)))) [e.vIdx x.d.toNat] :=
  ext_completes (i := uInfo len) hx hf rfl rfl rfl (by rw [writeV_g]; simp only [envAt_src32, envAt_readAt]; rfl)

/-- R185: the tag of a shape. -/
theorem ofNat_tag (v : VVal) : BitVec.ofNat 32 v.tag = match v with | .u _ => 0 | .a _ _ => 1 | .g _ => 2 := by
  cases v <;> rfl

theorem vtagOp_completes {n : Instr} {len : Nat} {x : Ext} (hx : exec n s = vtagOp x len s)
    (hf : Full 19 12 x (envOf s g b len)) :
    let e := envOf s g b len
    Completes n { len } s g b
      (e.putV x (g.arch.past len) x.d.toNat (.u (match e.vval x.a.toNat with | .u _ => 0 | .a _ _ => 1 | .g _ => 2)))
      [e.vIdx x.d.toNat] :=
  ext_completes (i := uInfo len) hx hf rfl rfl rfl (by rw [writeV_g, envAt_vval, ofNat_tag]; rfl)

theorem vgenOp_completes {n : Instr} {len : Nat} {x : Ext} (hx : exec n s = vgenOp x len s)
    (hf : Full 19 13 x (envOf s g b len)) :
    let e := envOf s g b len
    let a := e.src32 .int x.lit x.a
    Completes n { len } s g b (e.putV x (g.arch.past len) x.d.toNat (.ofSlots fun j => a.slot j)) [e.vIdx x.d.toNat] :=
  ext_completes (i := uInfo len) hx hf rfl rfl rfl (by rw [writeV_g, envAt_src32]; rfl)

end

/-- Settles O13: QBCST and STOV exchange slots, VTAG and VGEN have an operation each. -/
theorem crossBaseResult : Obligations.CrossBaseResult := by
  unfold Obligations.CrossBaseResult
  intro s g b f
  dsimp only
  exact ⟨fun hf => crossOp_completes (fn := 1) (src := fun t v => 4 * (t / 4) + v.toNat % 4) rfl hf,
    fun hf => crossOp_completes (fn := 11) (src := fun _ v => v.toNat % 32) rfl hf,
    fun hf => vtagOp_completes rfl hf, fun hf => vgenOp_completes rfl hf⟩

/-! ## The pair word (R61 to R63) -/

/-- What the slots of a half that take part raise. -/
def Env.halfRaised (e : Env) (h : Half) : Exc := allRaised (e.active h.x) (halfExc (e.halfResult h))

/-- A pair word that traps nothing: both results are read from `e`, before X's is written. -/
def Env.pairDone (e : Env) (p : PairF) : Env :=
  ((e.writeV p.halfX.x p.halfX.x.d.toNat (e.halfResult p.halfX).1).writeV p.halfY.x p.halfY.x.d.toNat
    (e.halfResult p.halfY).1).setFmode (raiseFlags e.g.arch.fmode (e.halfRaised p.halfX ||| e.halfRaised p.halfY))

section
variable (i : IssueInfo) (s : State) (g : Group) (b : Block)

theorem envAt_fmode : (envAt i s g b).g.arch.fmode = g.arch.fmode := by
  rw [envAt_arch]
  rfl

theorem envAt_halfResult (h : Half) : (envAt i s g b).halfResult h = (envOf s g b i.len).halfResult h := by
  unfold Env.halfResult
  simp only [envAt_fmodeFor, envAt_src32, envAt_src64]

theorem envAt_halfRaised (h : Half) : (envAt i s g b).halfRaised h = (envOf s g b i.len).halfRaised h := by
  unfold Env.halfRaised
  rw [envAt_halfResult, funext fun j => envAt_active i s g b h.x j]

end

theorem fpTrap_none {fmode : W64} {counts : Nat → Bool} {ex : Nat → Exc} {all : Exc} {half : Nat}
    (h : allRaised counts ex &&& excEnabled fmode = 0) : fpTrap fmode counts ex all half = none := if_pos h

/-- A destination holds what it held before another was written. -/
theorem writeV_vOld_other {e : Env} {x : Ext} {n m : Nat} {r : VVal} (h : e.vIdx n ≠ e.vIdx m) :
    (e.writeV x n r).vOld m = e.vOld m :=
  congrArg VReg.val (Arch.vreg_setV_other _ _ _ _ h)

theorem pairDone_g {i : IssueInfo} {s : State} {g : Group} {b : Block} {p : PairF} :
    let e := envOf s g b i.len
    let hx := p.halfX
    let hy := p.halfY
    e.vIdx hx.x.d.toNat ≠ e.vIdx hy.x.d.toNat →
    ((envAt i s g b).pairDone p).g = (g.atIssue i s.gtc).wrote
      { e.putV hy.x (e.putV hx.x (g.arch.past i.len) hx.x.d.toNat (e.halfResult hx).1) hy.x.d.toNat (e.halfResult hy).1 with
        fmode := raiseFlags g.arch.fmode (e.halfRaised hx ||| e.halfRaised hy) } [e.vIdx hx.x.d.toNat, e.vIdx hy.x.d.toNat] := by
  intro e hx hy hne
  unfold Env.pairDone
  simp only [envAt_halfResult, envAt_halfRaised, envAt_fmode]
  have hold (r : VVal) : ((envAt i s g b).writeV hx.x hx.x.d.toNat r).vOld hy.x.d.toNat = e.vOld hy.x.d.toNat := by
    rw [writeV_vOld_other (by simpa using hne), envAt_vOld]
  exact setFmode_g (writeV_next (writeV_g _ _ _) ((writeV_agrees _ _ _ _).trans (envAt_agrees i s g b)) _ _ _ (hold _)) _

/-- Settles O14: both results are those of the state before the issue (`pairDone`), and Y's old slots are not X's
(`pairDone_g`). -/
theorem pairResult : Obligations.PairResult := by
  unfold Obligations.PairResult
  intro s g b p
  dsimp only
  intro hfull hne hexc
  obtain ⟨hx, hy⟩ : (envOf s g b 12).halfRaised p.halfX &&& excEnabled g.arch.fmode = 0 ∧
      (envOf s g b 12).halfRaised p.halfY &&& excEnabled g.arch.fmode = 0 :=
    BitVec.or_eq_zero_iff.1 (BitVec.and_or_distrib_right.symm.trans hexc)
  have hexec : exec (.pairWord p) s = execPairWord p s := rfl
  unfold execPairWord at hexec
  refine completes_of hexec ?_ (setFmode_s _ _) (setFmode_b _ _) (pairDone_g (i := { len := 12 }) hne)
  rw [← envAt_halfRaised { len := 12 }, ← envAt_fmode { len := 12 } s g b] at hx hy
  rw [whenFull_done (by simpa using hfull)]
  dsimp only
  rw [fpTrap_none hx, fpTrap_none hy]
  rfl

end Sys2Proof.Machine

namespace Sys2Proof.Machine

/-! ## The schedule (R48, R166, R170)

What is due without an instruction's words is an event that no word encodes, or a state to go to; what a bench's cores offer is the
instruction of an eligible group's own words. -/

/-! ### Choices that issue nothing -/

/-- A choice that is no issue, and whose event, if it is one, no word encodes. -/
def Choice.Unencoded : Choice → Prop
  | .event i _ => encode i = []
  | .issue .. => False
  | .done _ => True

/-- An attempt that comes to nothing but such choices. -/
def Unencoded (o : Option Choice) : Prop := ∀ c, o = some c → c.Unencoded

theorem unencoded_none : Unencoded none := fun _ h => absurd h (by simp only [reduceCtorEq, not_false_eq_true])

theorem unencoded_some {c : Choice} (h : c.Unencoded) : Unencoded (some c) := by
  intro d hd
  exact Option.some.inj hd ▸ h

theorem unencoded_ite {p : Prop} [Decidable p] {a b : Option Choice} (ha : Unencoded a) (hb : Unencoded b) :
    Unencoded (if p then a else b) := by
  split
  · exact ha
  · exact hb

theorem unencoded_map {α : Type} {o : Option α} {f : α → Choice} (h : ∀ a, (f a).Unencoded) : Unencoded (o.map f) := by
  cases o with
  | none => exact unencoded_none
  | some a => exact unencoded_some (h a)

theorem unencoded_orElse {o : Option Choice} {p : Unit → Option Choice} (ho : Unencoded o) (hp : Unencoded (p ())) :
    Unencoded (o.orElse p) := by
  cases o with
  | none => exact hp
  | some c => exact ho

theorem unencoded_findSome? {α : Type} {l : List α} {f : α → Option Choice} (h : ∀ a, Unencoded (f a)) :
    Unencoded (l.findSome? f) := by
  intro c hc
  obtain ⟨a, -, ha⟩ := List.exists_of_findSome?_eq_some hc
  exact h a c ha

theorem unencoded_firstOf {fs : List (Unit → Option Choice)} (h : fs.Forall fun f => Unencoded (f ())) :
    Unencoded (firstOf fs) := by
  induction fs with
  | nil => exact unencoded_none
  | cons f fs ih =>
    obtain ⟨hf, hfs⟩ := List.forall_cons _ _ _ |>.1 h
    unfold firstOf
    split
    · next c hc => exact unencoded_some (hf c hc)
    · exact ih hfs

theorem unencoded_dueAt {l : List Nat} {p : Nat → Bool} {i : Nat → Instr} {s : State} (h : ∀ n, encode (i n) = []) :
    Unencoded (dueAt l p i s) := unencoded_map h

theorem unencoded_when {a : Bool} {c : Choice} (h : c.Unencoded) : Unencoded (when a c) :=
  unencoded_ite (unencoded_some h) unencoded_none

/-! ### What is due -/

section
variable (s : State)

theorem unencoded_input : Unencoded s.input := by
  refine unencoded_map fun m => ?_
  dsimp only
  split
  · split
    · next h => exact List.isEmpty_iff.1 h
    · trivial
  · trivial

theorem unencoded_dueReport : Unencoded s.dueReport :=
  unencoded_firstOf ⟨unencoded_map fun _ => trivial, unencoded_map fun _ => rfl⟩

theorem unencoded_duePower : Unencoded s.duePower :=
  unencoded_firstOf ⟨unencoded_dueAt fun _ => rfl, unencoded_dueAt fun _ => rfl, unencoded_map fun _ => trivial,
    unencoded_dueAt fun _ => rfl, unencoded_dueAt fun _ => rfl, unencoded_dueAt fun _ => rfl, unencoded_map fun _ => rfl⟩

theorem unencoded_dueWaits : Unencoded s.dueWaits := by
  refine unencoded_findSome? fun g => unencoded_orElse ?_ (unencoded_when rfl)
  split
  · exact unencoded_when rfl
  · exact unencoded_when rfl
  · exact unencoded_none

theorem unencoded_dueRegions : Unencoded s.dueRegions := by
  refine unencoded_firstOf ⟨unencoded_map fun _ => rfl, unencoded_map fun _ => rfl, unencoded_map fun _ => rfl,
    unencoded_map fun _ => trivial, unencoded_map fun q => ?_⟩
  split
  · exact rfl
  · exact rfl

theorem Pending.unencoded_choice (p : Pending) : (p.choice s).Unencoded := by
  unfold Pending.choice
  split <;> simp only [Choice.Unencoded] <;> rfl

theorem unencoded_dueRequests : Unencoded s.dueRequests :=
  unencoded_firstOf ⟨unencoded_map fun p => p.unencoded_choice s, unencoded_map fun _ => rfl, unencoded_when trivial⟩

theorem unencoded_dueTimeouts : Unencoded s.dueTimeouts := unencoded_map fun _ => rfl

theorem unencoded_dueCopies : Unencoded s.dueCopies :=
  unencoded_firstOf ⟨unencoded_dueAt fun _ => rfl, unencoded_dueAt fun _ => rfl⟩

theorem unencoded_duePacket (n : Nat) : Unencoded (s.duePacket n) := by
  unfold State.duePacket
  split
  · exact unencoded_none
  refine unencoded_ite unencoded_none (unencoded_ite (unencoded_some rfl) (unencoded_ite unencoded_none
    (unencoded_ite (unencoded_some rfl) ?_)))
  split
  case h_3 => exact unencoded_ite (unencoded_some rfl) (unencoded_ite (unencoded_some rfl) unencoded_none)
  case h_8 =>
    exact unencoded_ite (unencoded_some rfl) (unencoded_ite (unencoded_some rfl) (unencoded_ite (unencoded_some rfl) unencoded_none))
  case h_9 => exact unencoded_ite unencoded_none (unencoded_some rfl)
  case h_12 =>
    split
    · exact unencoded_ite (unencoded_some rfl) unencoded_none
    · exact unencoded_ite (unencoded_some rfl) unencoded_none
  all_goals exact unencoded_some rfl

theorem unencoded_dueFront : Unencoded s.dueFront :=
  unencoded_firstOf ⟨unencoded_when rfl, unencoded_findSome? fun q => unencoded_duePacket s q.1, unencoded_dueAt fun _ => rfl⟩

theorem unencoded_duePlace (die : Nat) : Unencoded (s.duePlace die) := by
  unfold State.duePlace
  dsimp only
  split
  · split
    · exact unencoded_some rfl
    · exact unencoded_some rfl
  · exact unencoded_when rfl

theorem unencoded_duePctl (die : Nat) : Unencoded (s.duePctl die) :=
  unencoded_ite unencoded_none (unencoded_ite (unencoded_when rfl) (unencoded_when rfl))

theorem unencoded_dueStops : Unencoded s.dueStops :=
  unencoded_firstOf ⟨unencoded_orElse (unencoded_duePctl s 0) (unencoded_duePctl s 1), unencoded_map fun _ => rfl,
    unencoded_map fun p => p.unencoded_choice s⟩

theorem unencoded_dueTasks : Unencoded s.dueTasks :=
  unencoded_firstOf ⟨unencoded_map fun _ => rfl, unencoded_map fun _ => rfl, unencoded_map fun _ => rfl,
    unencoded_map fun _ => rfl, unencoded_map fun _ => rfl, unencoded_orElse (unencoded_duePlace s 0) (unencoded_duePlace s 1),
    unencoded_findSome? fun _ => unencoded_map fun _ => rfl⟩

theorem unencoded_dueSystem : Unencoded s.dueSystem :=
  unencoded_firstOf ⟨unencoded_dueAt fun _ => rfl, unencoded_dueAt fun _ => rfl, unencoded_dueAt fun _ => rfl⟩

theorem unencoded_readyChange : Unencoded s.readyChange := unencoded_map fun _ => trivial

theorem unencoded_dueSwaps : Unencoded s.dueSwaps :=
  unencoded_firstOf ⟨unencoded_readyChange s, unencoded_dueAt fun _ => rfl, unencoded_dueAt fun _ => rfl⟩

theorem unencoded_dueTraps : Unencoded s.dueTraps := unencoded_map fun _ => rfl

theorem unencoded_dueEvent : Unencoded s.dueEvent :=
  unencoded_firstOf ⟨unencoded_dueReport s, unencoded_dueStops s, unencoded_duePower s, unencoded_dueWaits s,
    unencoded_dueRegions s, unencoded_dueRequests s, unencoded_dueCopies s, unencoded_dueFront s, unencoded_dueTimeouts s,
    unencoded_dueTasks s, unencoded_dueSystem s, unencoded_dueSwaps s, unencoded_dueTraps s⟩

theorem unencoded_dueSlew : Unencoded s.dueSlew := unencoded_when rfl

theorem unencoded_dueStrike : Unencoded s.dueStrike := unencoded_map fun _ => trivial

end

/-! ### What a group offers (R48) -/

section
variable (s : State) (g : Group) (b : Block)

@[simp] theorem offer_g : (s.offer g b).g = g := by
  unfold State.offer
  dsimp only
  split
  · rfl
  · split <;> rfl

@[simp] theorem offer_turn : (s.offer g b).turn = s.turn g b := by
  unfold State.offer
  dsimp only
  split
  · rfl
  · split <;> rfl

/-- A group's turn goes to an instruction only where its own words decode to it. -/
theorem turn_eq_run_iff {i : Instr} {ws : List W32} {t : State} :
    s.turn g b = .run i ws t ↔ ∃ s1, fetchInstr s b g.core g.arch.pc = .ok (ws, s1) ∧
      decodeWith (limitsAt b g.arch) ws = .ok i ∧ t = { s1 with cur := some g.ref } := by
  unfold State.turn
  cases hf : fetchInstr s b g.core g.arch.pc with
  | error e => simp only [reduceCtorEq, false_and, exists_false]
  | ok p =>
    obtain ⟨vs, s1⟩ := p
    dsimp only
    constructor
    · intro h
      split at h
      · exact Turn.noConfusion h
      · next j hd =>
        obtain ⟨rfl, rfl, rfl⟩ := Turn.run.inj h
        exact ⟨s1, rfl, hd, rfl⟩
    · rintro ⟨s2, he, hd, rfl⟩
      obtain ⟨rfl, rfl⟩ := Prod.mk.inj (Except.ok.inj he)
      rw [hd]

/-- An offer is no event. -/
theorem choice_offer_ne_event (i : Instr) (t : State) : (s.offer g b).choice ≠ .event i t := by
  unfold Offer.choice
  split <;> exact Choice.noConfusion

/-- What a group offers to issue is the instruction of its own words. -/
theorem choice_offer_eq_issue_iff {i : Instr} {r : GroupRef} {ws : List W32} {t : State} :
    (s.offer g b).choice = .issue i r ws t ↔ g.ref = r ∧ s.turn g b = .run i ws t := by
  unfold Offer.choice
  rw [offer_turn, offer_g]
  split
  · next h => simp only [h, reduceCtorEq, and_false]
  · next h => simp only [h, Choice.issue.injEq, Turn.run.injEq]; tauto

end

/-! ### What a bench's cores offer (R166, R170) -/

theorem mem_insertBy {α : Type} {lt : α → α → Bool} {x a : α} : ∀ {l : List α}, a ∈ insertBy lt x l → a = x ∨ a ∈ l
  | [], h => List.mem_cons.1 h
  | y :: ys, h => by
    unfold insertBy at h
    split at h
    · exact List.mem_cons.1 h
    · obtain rfl | h := List.mem_cons.1 h
      · exact .inr List.mem_cons_self
      · exact (mem_insertBy h).imp_right (List.mem_cons_of_mem y)

theorem mem_foldl_insertBy {α : Type} {lt : α → α → Bool} {a : α} (l acc : List α)
    (h : a ∈ l.foldl (fun acc x => insertBy lt x acc) acc) : a ∈ acc ∨ a ∈ l := by
  induction l generalizing acc with
  | nil => exact .inl h
  | cons x xs ih =>
    obtain h | h := ih _ h
    · exact (mem_insertBy h).elim (fun e => .inr (e ▸ List.mem_cons_self)) .inl
    · exact .inr (List.mem_cons_of_mem x h)

theorem mem_of_mem_sortBy {α : Type} {lt : α → α → Bool} {a : α} {l : List α} (h : a ∈ sortBy lt l) : a ∈ l :=
  (mem_foldl_insertBy l [] h).resolve_left List.not_mem_nil

section
variable {s : State}

theorem mem_residents {g : Group} {c : Nat} (h : g ∈ s.residents c) :
    g ∈ s.groups ∧ g.core = c ∧ ∃ b, s.block? (blockOf g.ref) = some b ∧ b.state = .placed := by
  unfold State.residents at h
  simp only [List.mem_filter, Bool.and_eq_true, decide_eq_true_eq] at h
  obtain ⟨hg, hc, hb⟩ := h
  refine ⟨hg, hc, ?_⟩
  split at hb
  · next b h => exact ⟨b, h, of_decide_eq_true hb⟩
  · cases hb

theorem mem_coreChoice {g : Group} {c : Nat} (h : g ∈ s.coreChoice c) :
    g ∈ s.residents c ∧ g.eligible s.gtc (s.effCycles (benchOfCore c)) = true :=
  List.mem_filter.1 (mem_of_mem_sortBy (List.mem_of_mem_take h))

/-- A bench's offers are those of eligible groups of placed blocks. -/
theorem mem_offers {o : Offer} {bench : Nat} (h : o ∈ s.offers bench) :
    ∃ g b, o = s.offer g b ∧ g ∈ s.groups ∧ g.eligible s.gtc (s.effCycles (benchOfCore g.core)) = true ∧
      s.block? (blockOf g.ref) = some b ∧ b.state = .placed := by
  unfold State.offers at h
  split at h
  · simp only [List.mem_flatMap, List.mem_filterMap, Option.map_eq_some_iff] at h
    obtain ⟨c, -, g, hg, b, hb, rfl⟩ := h
    obtain ⟨hr, he⟩ := mem_coreChoice hg
    obtain ⟨hgs, rfl, b', hb', hp⟩ := mem_residents hr
    obtain rfl := Option.some.inj (hb.symm.trans hb')
    exact ⟨g, b, rfl, hgs, he, hb, hp⟩
  · cases h

/-- A bench runs one of the offers or withholds. -/
theorem pay_eq_some {bench : Nat} {os : List Offer} {c : Choice} (h : s.pay bench os = some c) :
    (∃ o ∈ os, c = o.choice) ∨ ∃ t, c = .done t := by
  unfold State.pay at h
  split at h
  · next o ho => exact .inl ⟨o, List.mem_of_find?_eq_some ho, (Option.some.inj h).symm⟩
  · split at h
    · exact absurd h (by simp only [reduceCtorEq, not_false_eq_true])
    · next o rest ho =>
      split at h
      · exact .inl ⟨o, mem_of_mem_sortBy (ho ▸ List.mem_cons_self), (Option.some.inj h).symm⟩
      · exact .inr ⟨_, (Option.some.inj h).symm⟩

/-- A lone offer that the allowance covers pays. -/
theorem pay_singleton {bench : Nat} {o : Offer} (h : o.weight ≤ s.allowNow bench) : s.pay bench [o] = some o.choice := by
  unfold State.pay
  cases hw : o.waits with
  | true => simp only [List.find?_cons, hw]
  | false => simp only [List.find?_cons, hw, List.find?_nil, sortBy, List.foldl_cons, List.foldl_nil, insertBy, h, if_true]

theorem dueIssue_eq_some {c : Choice} (h : s.dueIssue = some c) :
    (∃ g b, c = (s.offer g b).choice ∧ g ∈ s.groups ∧ g.eligible s.gtc (s.effCycles (benchOfCore g.core)) = true ∧
      s.block? (blockOf g.ref) = some b ∧ b.state = .placed) ∨ ∃ t, c = .done t := by
  obtain ⟨bench, -, hp⟩ := List.exists_of_findSome?_eq_some h
  refine (pay_eq_some hp).imp_left fun ⟨o, ho, hc⟩ => ?_
  obtain ⟨g, b, rfl, hg⟩ := mem_offers ho
  exact ⟨g, b, hc, hg⟩

/-- A step that is no choice of `dueIssue` issues nothing, and runs only what no word encodes. -/
theorem choose_cases (s : State) : s.choose.Unencoded ∨ s.dueIssue = some s.choose := by
  unfold State.choose
  cases hin : s.input with
  | some c => exact .inl (unencoded_input s c hin)
  | none =>
    cases hev : s.dueEvent with
    | some c => exact .inl (unencoded_dueEvent s c hev)
    | none =>
      cases hdi : s.dueIssue with
      | some c => exact .inr rfl
      | none =>
        cases hl : s.dueSlew with
        | some c => exact .inl (unencoded_dueSlew s c hl)
        | none =>
          cases hk : s.dueStrike with
          | some c => exact .inl (unencoded_dueStrike s c hk)
          | none => exact .inl trivial

end

/-- Settles O53: only `dueIssue` issues, and what it takes is an offer of an eligible group. -/
theorem onlyDecodedIssue : Obligations.OnlyDecodedIssue := by
  intro s t i r ws
  constructor
  · intro h
    obtain hu | hd := choose_cases s
    · rw [h] at hu
      exact hu.elim
    rw [h] at hd
    obtain ⟨g, b, hc, hg, he, hb, hp⟩ | ⟨u, hu⟩ := dueIssue_eq_some hd
    · obtain ⟨rfl, hr⟩ := (choice_offer_eq_issue_iff s g b).1 hc.symm
      obtain ⟨s1, hf, hi, ht⟩ := (turn_eq_run_iff s g b).1 hr
      exact ⟨g, b, s1, hg, rfl, he, hb, hp, hf, hi, ht⟩
    · exact Choice.noConfusion hu
  · intro h
    obtain hu | hd := choose_cases s
    · rw [h] at hu
      exact hu
    rw [h] at hd
    obtain ⟨g, b, hc, -⟩ | ⟨u, hu⟩ := dueIssue_eq_some hd
    · exact absurd hc.symm (choice_offer_ne_event s g b i t)
    · exact Choice.noConfusion hu

/-- Settles O52: with no input and no event due, the step is the issue of the chosen offer. -/
theorem stepRunsDecoded : Obligations.StepRunsDecoded := by
  intro s s1 g b ws i bench bs
  refine ⟨fun hin hev hdue hf hd => ?_, fun hb ho hw => ?_⟩
  · have hc : s.choose = .issue i g.ref ws { s1 with cur := some g.ref } := by
      have hr := (turn_eq_run_iff s g b).2 ⟨s1, hf, hd, rfl⟩
      unfold State.choose
      rw [hin, hev, hdue]
      exact (choice_offer_eq_issue_iff s g b).2 ⟨rfl, hr⟩
    unfold step
    rw [hc]
  · unfold State.dueIssue
    rw [hb, List.findSome?_cons, ho, pay_singleton hw]

end Sys2Proof.Machine

namespace Sys2Proof.Machine

/-! ## Roles (R73) -/

/-- What `f` does is the issue of an instruction with the fields of `x`, by role `r` alone; it neither closes nor is an RGN. -/
def IssuesByRole (x : Ext) (r : Nat) (f : State → Host.Outcome State Fault Refusal) : Prop :=
  ∃ reads writes mem body, f = issue { len := lenExt x, role := some r, reads, writes, mem } body

/-- A group of another role takes ROLE_ENGINE, and the body does not run. -/
theorem IssuesByRole.traps {x : Ext} {r : Nat} {f : State → Host.Outcome State Fault Refusal} {s : State} {g : Group} {b : Block}
    (h : IssuesByRole x r f) (hgroup : s.cur.bind s.group? = some g) (hblock : s.block? (blockOf g.ref) = some b)
    (halive : g.ended = false) (hsound : g.doomed = false) (hplaced : b.state = .placed)
    (hroom : g.opensFor { len := lenExt x } = true → g.regions.length < 4) (hrole : g.role ≠ r) :
    f s = .next ((envBefore { len := lenExt x } s g b).takeTrap { code := 6 } g.arch.pc).close := by
  obtain ⟨reads, writes, mem, body, rfl⟩ := h
  exact issue_role hgroup hblock halive hsound hplaced hroom rfl hrole

/-- The copy family and CAOUT: the copy role. -/
theorem issuesByRole_copy (maj fn : Nat) (x : Ext) (reads : Bool) (k : Env → Res) :
    IssuesByRole x 0 (issueExt maj fn x { copyInfo x with reads } k) :=
  ⟨reads, false, true, _, rfl⟩

/-- The matrix family: the matrix role. -/
theorem issuesByRole_mxOp (fn : Nat) (x : Ext) (reads writes : Bool) (k : Env → Res) :
    IssuesByRole x 1 (mxOp fn x { mxInfo x with reads, writes } k) := by
  unfold mxOp issueExt
  exact ⟨reads, writes, false, _, rfl⟩

/-- R73: every engine instruction issues by the role of its row. -/
theorem exec_engineTable (x : Ext) : ∀ p ∈ engineTable x, IssuesByRole x p.2 (exec p.1) := by
  have copies (k : Nat) : IssuesByRole x 0 (copyOp k x) := issuesByRole_copy 22 k x _ _
  have loads (fn : Nat) (isA : Bool) : IssuesByRole x 1 (loadSide fn x isA) := issuesByRole_mxOp fn x true false _
  have matrix (fn : Nat) := issuesByRole_mxOp fn x
  simp only [engineTable, List.forall_mem_cons, List.not_mem_nil, false_implies, implies_true, and_true]
  exact ⟨copies 0, copies 1, copies 2, copies 3, copies 4, copies 5, issuesByRole_copy 22 6 x false _,
    issuesByRole_copy 22 7 x false _, issuesByRole_copy 23 6 x false _, matrix 0 false false _, loads 1 true, loads 2 false,
    matrix 3 true false _, matrix 4 false false _, matrix 5 false false _, matrix 6 false false _, matrix 7 false true _,
    matrix 8 false false _, matrix 9 false false _⟩

/-- Settles O59: every engine instruction issues by its role alone (`exec_engineTable`), so a group of another role traps at it
before its body runs (`IssuesByRole.traps`). -/
theorem roleTrap : Obligations.RoleTrap := by
  unfold Obligations.RoleTrap
  intro s g b x p hp i hgroup hblock halive hsound hplaced hroom hrole
  exact (exec_engineTable x p hp).traps hgroup hblock halive hsound hplaced hroom hrole

end Sys2Proof.Machine

namespace Sys2Proof.Machine

/-! ## Host window W0 by banks, and its reset values (R76, Table 5-8)

W0 is a row of banks of equal register blocks: a word reads as its block's word at its offset there.  At reset every block of a
bank reads alike, so the reset table is a matter of one block for each bank. -/

/-- A bank of W0: `count` blocks of `stride` bytes from `base` on, and the word at an offset of a block. -/
structure Bank where
  base : Nat
  stride : Nat
  count : Nat
  read : State → Nat → Nat → Nat

/-- The word of a sensor cell of a bank of 4-byte blocks (R418). -/
def State.readCellWord (s : State) (n _o : Nat) : Nat :=
  let c : CellRef := ⟨n / 512, n % 512⟩
  if cellValid c then (s.cell c).stateCode s.gtc else 0

/-- Table 5-8. -/
def w0Banks : List Bank :=
  [⟨0, 0x100, 1, fun s _ o => s.readDeviceWord o⟩,
   ⟨0x10000, 0x40, 128, fun s n o => (s.queue n).readWord o⟩,
   ⟨0x80000, 0x100, 8, State.readFieldWord⟩,
   ⟨0x90000, 0x40, 2, fun s n o => (s.die n).readTlbi o⟩,
   ⟨0xA0000, 0x40, 2, State.readSovf⟩,
   ⟨0xB0000, 0x40, 2, fun s n o => (s.die n).readRing o⟩,
   ⟨0xC0000, 4, 4096, State.readCellWord⟩,
   ⟨0xD0000, 0x40, 2, fun s n o => (s.die n).readPctl o⟩,
   ⟨0x100000, 0x100, 1024, fun s n o => (s.owner n).readWord o⟩,
   ⟨0x200000, 0x40, 1024, State.readCapWord⟩]

/-- The place of an offset within a bank of blocks. -/
theorem block_of_offset {base stride n o : Nat} (ho : o < stride) :
    (base + stride * n + o - base) / stride = n := by
  have e : base + stride * n + o - base = stride * n + o := by omega
  rw [e, Nat.mul_add_div (by omega), Nat.div_eq_of_lt ho, Nat.add_zero]

/-- Every bank of W0 reads by block and offset. -/
theorem readW0_bank : ∀ b ∈ w0Banks, ∀ (s : State) (n o : Nat), n < b.count → o < b.stride →
    s.readW0 (b.base + b.stride * n + o) = b.read s n o := by
  simp only [w0Banks, List.forall_mem_cons, List.not_mem_nil, false_implies, implies_true, and_true]
  refine ⟨?device, ?queue, ?field, ?tlbi, ?sovf, ?ring, ?cell, ?pctl, ?owner, ?cap⟩
  all_goals
    intro s n o hn ho
    unfold State.readW0
    simp only [Bool.and_eq_true, decide_eq_true_eq]
    repeat rw [if_neg (by omega)]
    rw [if_pos (by omega)]
  case device => congr; omega
  case cell =>
    unfold State.readCellWord
    have hfield : (0xC0000 + 4 * n + o - 0xC0000) / 0x800 = n / 512 := by omega
    have hcell : (0xC0000 + 4 * n + o) % 0x800 / 4 = n % 512 := by omega
    unfold cellAt
    rw [hfield, hcell]
  case owner =>
    unfold ownerAt
    rw [block_of_offset ho]
    congr; omega
  all_goals
    rw [block_of_offset ho]
    congr; omega

theorem reset_readCellWord (n o : Nat) : State.reset.readCellWord n o = 0 := by
  unfold State.readCellWord
  exact ite_self 0

/-- At reset the blocks of a bank read alike. -/
theorem reset_bank_alike : ∀ b ∈ w0Banks, ∀ n o, b.read State.reset n o = b.read State.reset 0 o := by
  simp only [w0Banks, List.forall_mem_cons, List.not_mem_nil, false_implies, implies_true, and_true, reset_readCellWord]
  exact ⟨trivial, fun _ _ => rfl, fun _ _ => rfl, fun _ _ => rfl, fun _ _ => rfl, fun _ _ => rfl, trivial, fun _ _ => rfl,
    fun _ _ => rfl, fun _ _ => rfl⟩

/-- Each row of the reset table is a bank, whose first block holds the row's values. -/
theorem resetTable_banks : ∀ t ∈ resetTable, ∃ b ∈ w0Banks, b.base = t.1 ∧ b.stride = t.2.1 ∧ b.count = t.2.2.1 ∧
    ∀ p ∈ t.2.2.2, p.1 < b.stride ∧ b.read State.reset 0 p.1 = p.2 := by
  decide

/-- Settles O54: a word of the reset table lies in a bank (`readW0_bank`), whose blocks read alike at reset (`reset_bank_alike`);
what nothing has written reads as its default. -/
theorem resetValues : Obligations.ResetValues := by
  unfold Obligations.ResetValues
  refine ⟨?_, fun _ => rfl, fun _ => ⟨rfl, rfl, rfl⟩, fun _ => rfl, rfl, rfl, rfl, reset_mem_wf⟩
  intro t ht n hn p hp
  obtain ⟨b, hb, hbase, hstride, hcount, hvals⟩ := resetTable_banks t ht
  obtain ⟨hlt, hval⟩ := hvals p hp
  rw [← hbase, ← hstride, readW0_bank b hb _ n p.1 (hcount ▸ hn) hlt, reset_bank_alike b hb, hval]

end Sys2Proof.Machine

namespace Sys2Proof.Machine

/-! ## Tasks that become FREE, and the queue registers (R78, R92, R97, R109) -/

section
variable (s : State) (x : Nat)

@[simp] theorem State.tcb_freeTask_same : (s.freeTask x).tcb x = {} := State.tcb_setTcb_same _ _ _

theorem State.tcb_freeTask_other {y : Nat} (h : x ≠ y) : (s.freeTask x).tcb y = s.tcb y := by
  unfold State.freeTask State.dropSuccs
  rw [State.tcb_setTcb_other _ _ h, State.tcb_setTcb_other _ _ h]
  rfl

/-- R109: a TCB that is RETIRED becomes FREE. -/
def State.freeRetired : State := if (s.tcb x).state = .retired then s.freeTask x else s

@[simp] theorem State.freeRetired_mem : (s.freeRetired x).mem = s.mem := by
  unfold State.freeRetired
  split <;> rfl

/-- It touches no other TCB. -/
theorem State.tcb_freeRetired_other {y : Nat} (h : x ≠ y) : (s.freeRetired x).tcb y = s.tcb y := by
  unfold State.freeRetired
  split
  · exact s.tcb_freeTask_other x h
  · rfl

theorem State.freeRetired_of_ne (h : (s.tcb x).state ≠ .retired) : s.freeRetired x = s := if_neg h

theorem State.tcb_freeRetired_same (h : (s.tcb x).state = .retired) : ((s.freeRetired x).tcb x).state = .free := by
  unfold State.freeRetired
  rw [if_pos h, State.tcb_freeTask_same]

/-- It leaves a FREE TCB so. -/
theorem State.freeRetired_keeps_free {y : Nat} (h : (s.tcb y).state = .free) : ((s.freeRetired x).tcb y).state = .free := by
  by_cases e : x = y
  · subst e
    rw [State.freeRetired_of_ne s x (by rw [h]; decide), h]
  · rw [s.tcb_freeRetired_other x e, h]

end

theorem State.foldl_freeRetired_keeps_free (l : List Nat) (s : State) {y : Nat} (h : (s.tcb y).state = .free) :
    ((l.foldl State.freeRetired s).tcb y).state = .free := by
  induction l generalizing s with
  | nil => exact h
  | cons x l ih => exact ih _ (s.freeRetired_keeps_free x h)

/-- Of a list of tasks the RETIRED ones become FREE. -/
theorem State.foldl_freeRetired_frees (l : List Nat) (s : State) {y : Nat} (hy : y ∈ l) (h : (s.tcb y).state = .retired) :
    ((l.foldl State.freeRetired s).tcb y).state = .free := by
  induction l generalizing s with
  | nil => cases hy
  | cons x l ih =>
    rw [List.foldl_cons]
    by_cases e : x = y
    · subst e
      exact State.foldl_freeRetired_keeps_free l _ (s.tcb_freeRetired_same x h)
    · have hl : y ∈ l := (List.mem_cons.1 hy).resolve_left fun c => e c.symm
      exact ih _ hl (by rw [s.tcb_freeRetired_other x e, h])

section
variable (s : State) (fn n val : Nat)

/-- QWPTR takes an offset that is a word of the ring, and marks any other (R78). -/
theorem exec_qwptrWrite : exec (.qwptrWrite fn n val) s = .next (s.setQueue n
    (if val % 2 ^ 24 % 4 = 0 ∧ val % 2 ^ 24 < 2 ^ (s.queue n).log then { s.queue n with wptr := val % 2 ^ 24 }
     else { s.queue n with badPtr := true })) := by
  show execQwptrWrite fn n val s = _
  refine congrArg (fun q => Host.Outcome.next (s.setQueue n q)) ?_
  unfold Queue.size
  by_cases h : val % 2 ^ 24 % 4 = 0 ∧ val % 2 ^ 24 < 2 ^ (s.queue n).log
  · rw [if_pos h, if_neg (by simp only [Bool.or_eq_true, decide_eq_true_eq]; omega)]
  · rw [if_neg h, if_pos (by simp only [Bool.or_eq_true, decide_eq_true_eq]; omega)]

/-- R78: a disabled queue starts at QRPTR. -/
theorem exec_queueEnable (h : (s.queue n).en = false) : exec (.queueEnable fn n val) s =
    .next (s.setQueue n { ((s.queue n).control fn val).restart with en := true }) := by
  show execQueueEnable fn n val s = _
  exact congrArg (fun q => Host.Outcome.next (s.setQueue n q)) (if_neg (by rw [h]; decide))

/-- QCTL's fields are none of the stream's. -/
theorem Queue.control_stream (q : Queue) : (q.control fn val).rptr = q.rptr ∧ (q.control fn val).wptr = q.wptr := by
  unfold Queue.control
  split <;> exact ⟨rfl, rfl⟩

/-- R92, R109: a halt frees the queue's retired TCBs and restarts it at QRPTR, disabled and without a code. -/
theorem exec_queueHalt : exec (.queueHalt fn n val) s =
    .next ({ (s.queue n).recent.foldl State.freeRetired s with
      checkpoints := ((s.queue n).recent.foldl State.freeRetired s).checkpoints.filter fun c => c.queue ≠ n }.setQueue n
        { ((s.queue n).control fn val).restart with en := false, code := 0, level := 0 }) := rfl

theorem exec_parserStallResume (hq : (s.queue n).stalled = true) (hr : s.launchRoom n = true) :
    exec (.parserStallResume n) s = .next (s.setQueue n { s.queue n with stalled := false }) := by
  show execParserStallResume n s = _
  exact congrArg Host.Outcome.next (if_pos (by rw [hq, hr]; rfl))

end

/-- Settles O32: each write has one outcome (`exec_qwptrWrite`, `exec_queueEnable`, `exec_queueHalt`); the halt frees every RETIRED
task of the queue's list, since freeing one leaves the others' TCBs (`State.foldl_freeRetired_frees`). -/
theorem queueRegisters : Obligations.QueueRegisters := by
  unfold Obligations.QueueRegisters
  intro s fn n val
  obtain ⟨hrptr, hwptr⟩ := Queue.control_stream fn val (s.queue n)
  refine ⟨exec_qwptrWrite s fn n val, fun hen => ?enable, ?halt, exec_parserStallResume s n⟩
  case enable =>
    refine ⟨_, exec_queueEnable s fn n val hen, ?_⟩
    rw [State.queue_setQueue_same]
    exact ⟨rfl, hrptr, hrptr, hwptr, rfl, rfl, rfl, rfl, rfl, rfl, rfl, rfl, rfl⟩
  case halt =>
    refine ⟨_, exec_queueHalt s fn n val, ?_⟩
    rw [State.queue_setQueue_same]
    exact ⟨rfl, rfl, rfl, hrptr, rfl, fun x hx hret => State.foldl_freeRetired_frees _ s hx hret⟩

end Sys2Proof.Machine

namespace Sys2Proof.Machine

/-! ## A packet's life (R79, R81, R92) -/

/-- R79: the parser core takes the packet that the chosen queue offers; its region opens. -/
theorem exec_packetParse {s s1 : State} {die n : Nat} {p : Packet} {q : Queue} (hc : s.parseChoice die = some n)
    (hp : s.nextPacket n = .packet p q s1) : exec (.packetParse die) s =
      let s2 := s1.setQueue n { q with inflight := [{ p with parseEnd := s.gtc + parseLatency }] }
      .next (s2.setDie die { (s2.die die) with rr := tput (s2.die die).rr q.prio n }) := by
  show execPacketParse die s = _
  unfold execPacketParse
  rw [hc]
  simp only [hp]

/-- A PRED or a WAIT that its region reads the word for. -/
def Packet.reads (p : Packet) : Prop := (p.type = 5 ∨ p.type = 7) ∧ p.fault = 0 ∧ p.skip = false

section
variable {s : State} {n : Nat} {p : Packet} {rest : List Packet}

theorem State.readWord_of_not_reads (q : Queue) (h : ¬p.reads) : s.readWord n q p = p := by
  unfold State.readWord
  refine if_neg fun hr => h ?_
  simp only [Bool.and_eq_true, Bool.or_eq_true, decide_eq_true_eq, Bool.not_eq_true'] at hr
  exact ⟨hr.1.1, hr.1.2, hr.2⟩

theorem State.readWord_of_reads (q : Queue) (h : p.reads) : s.readWord n q p =
    { p with value := some (p.watchOf.holdsNow s q.packetOwner), cover := p.cover ++ (s.parserRead n (p.pas.headD 0)).1,
             tags := p.tags ++ (s.parserRead n (p.pas.headD 0)).2 } := by
  obtain ⟨htype, hfault, hskip⟩ := h
  unfold State.readWord
  refine if_pos ?_
  simp only [Bool.and_eq_true, Bool.or_eq_true, decide_eq_true_eq, Bool.not_eq_true']
  exact ⟨⟨htype, hfault⟩, hskip⟩

variable (hinf : (s.queue n).inflight = p :: rest) (hen : (s.queue n).en = true) (hparse : p.parseEnd ≤ s.gtc)
include hinf hen hparse

/-- R81: a parsed packet's region closes, and commits W mc later or at the end of its tags. -/
theorem exec_packetPerform_closes (hcommit : p.commitAt = none) : exec (.packetPerform n) s =
    let r := s.readWord n (s.queue n) p
    .next (s.setQueue n { s.queue n with inflight := [{ r with commitAt := some (s.packetCommit r) }] }) := by
  show execPacketPerform n s = _
  unfold execPacketPerform
  simp only [hinf, hen, hcommit]
  rw [if_neg (by simpa using hparse)]
  rfl

variable {g : Nat} (hcommit : p.commitAt = some g) (hg : g ≤ s.gtc)
include hcommit hg

/-- R92: committed, a packet with a fault halts its queue. -/
theorem exec_packetPerform_faults (hfault : p.fault ≠ 0) : exec (.packetPerform n) s =
    .next (s.queueFault n p.fault p.level p.addr) := by
  have hdone : p.committed s.gtc = true := by simp [Packet.committed, hcommit, hg]
  show execPacketPerform n s = _
  unfold execPacketPerform
  simp only [hinf, hen]
  rw [if_neg (by simpa using hparse), if_neg (by simp [hcommit]), if_neg (by simp [hdone]), if_pos hfault]

/-- A packet that has performed, or that is skipped, is consumed. -/
theorem exec_packetPerform_moves (hfault : p.fault = 0) (hdone : (p.done || p.skip) = true) : exec (.packetPerform n) s =
    .next (s.setQueue n ({ (if p.opens then s.queue n else (s.queue n).consume p) with inflight := [] }.settle 8).moveRptr) := by
  have hc : p.committed s.gtc = true := by simp [Packet.committed, hcommit, hg]
  show execPacketPerform n s = _
  unfold execPacketPerform
  simp only [hinf, hen]
  rw [if_neg (by simpa using hparse), if_neg (by simp [hcommit]), if_neg (by simp [hc]), if_neg (by simpa using hfault),
    if_neg (by rw [← Bool.not_or, hdone]; decide)]

end

/-- R92: what a queue fault leaves of its queue, and what it does not touch. -/
theorem State.queue_queueFault (s : State) (n code level addr : Nat) : (s.queueFault n code level addr).queue n =
    { s.queue n with code, level, foff := addr, inflight := [], edges := [], preds := [], stalled := false } := by
  unfold State.queueFault
  simp only
  split <;> exact State.queue_setQueue_same _ _ _

theorem State.queueFault_frame (s : State) (n code level addr : Nat) :
    (s.queueFault n code level addr).msix = s.msix ++ (if (s.queue n).fie then [(s.queue n).vec] else []) ∧
      (s.queueFault n code level addr).mem = s.mem ∧ (s.queueFault n code level addr).tcbs = s.tcbs := by
  unfold State.queueFault
  simp only
  split <;> simp

/-- In the ring trimming changes the window alone. -/
theorem Queue.trim_ring {q : Queue} (h : q.levels = []) : q.trim = { q with window := q.trim.window } := by
  unfold Queue.trim Queue.setWindow
  simp only [h]

theorem Queue.loopHere_none {q : Queue} (h : q.loops = []) : q.loopHere = none := by
  unfold Queue.loopHere
  rw [h]
  rfl

/-- In the ring, outside a loop, a packet's consumption moves the position past it. -/
theorem Queue.consume_ring {q : Queue} (p : Packet) (hlevels : q.levels = []) (hloops : q.loops = []) :
    q.consume p = ({ q with pos := (q.pos + 4 * p.words) % 2 ^ q.log } : Queue).trim := by
  unfold Queue.consume Queue.advance
  simp only [Queue.loopHere_none hloops, hlevels]
  rfl

/-- There nothing ends with the packet, and QRPTR is the position. -/
theorem Queue.moveRptr_settle_ring {q : Queue} (k : Nat) (hlevels : q.levels = []) (hloops : q.loops = []) :
    (q.settle k).moveRptr = { q with rptr := q.pos } := by
  have hs : q.settle k = q := by
    cases k with
    | zero => rfl
    | succ k =>
      unfold Queue.settle
      simp only [Queue.loopHere_none hloops, hlevels]
  rw [hs]
  unfold Queue.moveRptr
  simp only [Queue.loopHere_none hloops, hlevels]
  rfl

/-- QRPTR moves past a packet of the ring. -/
theorem Queue.moveRptr_consume_ring {q : Queue} (p : Packet) (hlevels : q.levels = []) (hloops : q.loops = []) :
    ({ q.consume p with inflight := [] }.settle 8).moveRptr =
      { ({ q with pos := (q.pos + 4 * p.words) % 2 ^ q.log } : Queue).trim with
        rptr := (q.pos + 4 * p.words) % 2 ^ q.log, inflight := [] } := by
  have ht := Queue.trim_ring (q := { q with pos := (q.pos + 4 * p.words) % 2 ^ q.log }) hlevels
  rw [Queue.consume_ring p hlevels hloops]
  rw [Queue.moveRptr_settle_ring 8 (by rw [ht]; exact hlevels) (by rw [ht]; exact hloops), ht]

/-- Settles O33: the parse is `exec_packetParse`; a parsed packet closes, faults or moves on (`exec_packetPerform_closes`,
`exec_packetPerform_faults`, `exec_packetPerform_moves`), and in the ring moving on is one step of the position
(`Queue.moveRptr_consume_ring`). -/
theorem packetLife : Obligations.PacketLife := by
  unfold Obligations.PacketLife
  intro s s1 die n p q rest
  refine ⟨fun hc hp => ?parse, ?closes, ?reads, ?faults, ?moves⟩
  case parse =>
    refine ⟨_, exec_packetParse hc hp, ?_, fun m hm => ?_, rfl, rfl⟩
    · exact State.queue_setQueue_same _ _ _
    · exact State.queue_setQueue_other _ _ (Ne.symm hm)
  case closes =>
    rintro ⟨hinf, hen, hparse⟩ hcommit hreads
    rw [exec_packetPerform_closes hinf hen hparse hcommit]
    simp only [State.readWord_of_not_reads _ hreads]
    rfl
  case reads =>
    rintro ⟨hinf, hen, hparse⟩ hcommit hreads
    refine ⟨_, { s.readWord n (s.queue n) p with commitAt := some (s.packetCommit (s.readWord n (s.queue n) p)) },
      exec_packetPerform_closes hinf hen hparse hcommit, ?_⟩
    rw [State.queue_setQueue_same, State.readWord_of_reads _ hreads]
    exact ⟨rfl, rfl, List.subset_append_left _ _, List.subset_append_left _ _, rfl, rfl⟩
  case faults =>
    rintro ⟨⟨hinf, hen, hparse⟩, g, hcommit, hg⟩ hfault
    refine ⟨_, exec_packetPerform_faults hinf hen hparse hcommit hg hfault, ?_⟩
    rw [State.queue_queueFault]
    exact ⟨rfl, rfl, rfl, rfl, rfl, rfl, rfl, State.queueFault_frame _ _ _ _ _⟩
  case moves =>
    rintro ⟨⟨hinf, hen, hparse⟩, g, hcommit, hg⟩ hfault hdone hopens hlevels hloops
    rw [exec_packetPerform_moves hinf hen hparse hcommit hg hfault hdone, hopens]
    exact congrArg (fun x => Host.Outcome.next (s.setQueue n x)) (Queue.moveRptr_consume_ring p hlevels hloops)

end Sys2Proof.Machine

namespace Sys2Proof.Machine

/-! ## The packets' effects (R81, R84 to R87, R89 to R91, R315)

`packetEffect` runs an effect on the packet that is due; most effects change the queue and mark the packet done. -/

section
variable {s : State} {n : Nat} {p : Packet}

/-- A due packet's effect runs. -/
theorem packetEffect_due {type : Nat} (k : Queue → Packet → State → State) (h : (s.queue n).due s.gtc type = some p) :
    packetEffect n type k s = .next (k (s.queue n) p s) := by
  unfold packetEffect
  simp only [h]

/-- A packet that is done stands alone in its queue. -/
@[simp] theorem State.queue_packetDone (s : State) (n : Nat) (p : Packet) :
    (s.packetDone n p).queue n = { s.queue n with inflight := [{ p with done := true }], stalled := false } :=
  State.queue_setQueue_same _ _ _

/-- A write that has no hold, or whose hold has passed, performs (R315). -/
theorem State.writesOf_clear {q : Queue} {k : State}
    (h : (p.sent = none ∧ s.packetHold n p = 0) ∨ ∃ g, p.sent = some g ∧ g ≤ s.gtc) : s.writesOf n q p k = k := by
  unfold State.writesOf
  rcases h with ⟨hsent, hhold⟩ | ⟨g, hsent, hg⟩
  · simp only [hsent]
    exact if_pos hhold
  · simp only [hsent]
    exact if_neg (Nat.not_lt.mpr hg)

/-- A write that leaves the die is held there (R315). -/
theorem State.writesOf_held {q : Queue} {k : State} (h : p.sent = none ∧ s.packetHold n p ≠ 0) : s.writesOf n q p k =
    s.setQueue n { q with inflight := [{ p with sent := some (s.gtc + s.qwin + s.packetHold n p) }] } := by
  obtain ⟨hsent, hhold⟩ := h
  unfold State.writesOf
  simp only [hsent]
  exact if_neg hhold

theorem exec_nopPacket (h : (s.queue n).due s.gtc 0 = some p) : exec (.nopPacket n) s = .next (s.packetDone n p) :=
  (packetEffect_due _ h : execNopPacket n s = _)

theorem exec_write (h : (s.queue n).due s.gtc 1 = some p) : exec (.write n) s = .next (s.writesOf n (s.queue n) p
    (((p.pas.zip (p.body.drop 2)).foldl (fun t x => t.performBytes (t.queueKey (s.queue n) x.1) x.1 (bytesOfWord x.2)) s).packetDone
      n p)) :=
  (packetEffect_due _ h : execWrite n s = _)

/-- R84: the producer joins the pending ones, and a buffer edge is kept. -/
theorem exec_edge {producer : Nat} (h : (s.queue n).due s.gtc 3 = some p)
    (hproducer : (s.queue n).recent[bodyWord p.body 0 % 2 ^ 12 - 1]? = some producer) : exec (.edge n) s =
    .next ((s.setQueue n { s.queue n with
      edges := if bit (bodyWord p.body 0) 12 then (s.queue n).edges ++
        [{ handle := bodyDouble p.body 2, producer, pslot := bodyWord p.body 1 % 4, cslot := bodyWord p.body 1 / 4 % 4,
           transient := bit (bodyWord p.body 0) 13, keep := bit (bodyWord p.body 0) 14 }] else (s.queue n).edges,
      preds := if producer ∈ (s.queue n).preds then (s.queue n).preds else (s.queue n).preds ++ [producer] }).packetDone n p) := by
  refine (packetEffect_due _ h : execEdge n s = _).trans ?_
  simp only [hproducer, List.contains_iff_mem]

theorem exec_ib (h : (s.queue n).due s.gtc 4 = some p) : exec (.ib n) s = .next ((s.setQueue n { (s.queue n).consume p with
    levels := { addr := bodyDouble p.body 0, left := bodyWord p.body 2 } :: ((s.queue n).consume p).levels }).packetDone n p) :=
  (packetEffect_due _ h : execIb n s = _)

/-- R86: what its region read. -/
theorem exec_pred {v : Bool} (h : (s.queue n).due s.gtc 5 = some p) (hv : p.value = some v) :
    exec (.pred n) s = .next ((s.setQueue n { s.queue n with pred := v }).packetDone n p) := by
  refine (packetEffect_due _ h : execPred n s = _).trans ?_
  simp only [hv, Option.getD_some]

theorem exec_loopPacket (h : (s.queue n).due s.gtc 6 = some p) : exec (.loopPacket n) s =
    .next ((s.setQueue n { (s.queue n).consume p with
      loops := { level := ((s.queue n).consume p).depth, addr := p.addr, size := bodyWord p.body 0 % 128,
                 count := bodyWord p.body 0 / 256 % 256 } :: ((s.queue n).consume p).loops }).packetDone n p) :=
  (packetEffect_due _ h : execLoopPacket n s = _)

/-- What a SIGNAL that need not wait does: the write, then the interrupt (R91). -/
def State.signalled (s : State) (n : Nat) (p : Packet) : State :=
  let w4 := bodyWord p.body 4
  let pa := p.pas.headD 0
  let key := s.queueKey (s.queue n) pa
  let old := if bit w4 2 then s.valueAt key pa 8 else 0
  let u := s.performBytes key pa (leBytes 8 ((old + bodyDouble p.body 2) % 2 ^ 64))
  ({ u with msix := if bit w4 3 then u.msix ++ [w4 / 16 % 2048] else u.msix } : State).packetDone n p

theorem exec_signal (h : (s.queue n).due s.gtc 8 = some p) (hw : bodyWord p.body 4 % 4 = 1 → s.launchesRetired n = true) :
    exec (.signal n) s = .next (s.writesOf n (s.queue n) p (s.signalled n p)) := by
  refine (packetEffect_due _ h : execSignal n s = _).trans (congrArg Host.Outcome.next (if_neg ?_))
  simpa using hw

theorem exec_fetchFence (h : (s.queue n).due s.gtc 9 = some p) : exec (.fetchFence n) s = .next ((s.setQueue n { s.queue n with
    window := [], levels := (s.queue n).levels.map fun l => { l with window := [] } }).packetDone n p) :=
  (packetEffect_due _ h : execFetchFence n s = _)

theorem exec_timestamp (h : (s.queue n).due s.gtc 10 = some p) : exec (.timestamp n) s = .next (s.writesOf n (s.queue n) p
    ((s.performBytes (s.queueKey (s.queue n) (p.pas.headD 0)) (p.pas.headD 0)
      (leBytes 8 (p.commitAt.getD 0 % 2 ^ 64))).packetDone n p)) :=
  (packetEffect_due _ h : execTimestamp n s = _)

theorem exec_owner (h : (s.queue n).due s.gtc 12 = some p) : exec (.owner n) s =
    .next ((s.setQueue n { s.queue n with ownerNow := some (bodyWord p.body 0 % 1024) }).packetDone n p) :=
  (packetEffect_due _ h : execOwner n s = _)

end

/-- Settles O34: each effect by its equation; a packet that writes does so through `State.writesOf`, which holds it where the write
leaves the die and else lets it perform. -/
theorem packetEffects : Obligations.PacketEffects := by
  unfold Obligations.PacketEffects
  intro s n p
  refine ⟨exec_nopPacket, fun h hclear => ?write, fun h hheld => ?writeHeld, fun producer h hp => ⟨_, exec_edge h hp, ?edge⟩,
    fun h => ⟨_, exec_ib h, ?ib⟩, fun v h hv => ⟨_, exec_pred h hv, ?pred⟩, fun h => ⟨_, exec_loopPacket h, ?loop⟩,
    fun h hw hheld => ?signalHeld, fun h hw hclear => ?signal, fun h => ⟨_, exec_fetchFence h, ?fence⟩,
    fun g h hg hclear => ?timestamp, fun h hheld => ?timestampHeld, fun h => ⟨_, exec_owner h, ?owner⟩⟩
  case write => rw [exec_write h, State.writesOf_clear hclear]
  case writeHeld => rw [exec_write h, State.writesOf_held hheld]
  case signalHeld => rw [exec_signal h hw, State.writesOf_held hheld]
  case signal =>
    rw [exec_signal h hw, State.writesOf_clear hclear]
    rfl
  case timestamp =>
    rw [exec_timestamp h, State.writesOf_clear hclear, hg]
    rfl
  case timestampHeld => rw [exec_timestamp h, State.writesOf_held hheld]
  all_goals rw [State.queue_packetDone, State.queue_setQueue_same]
  case edge => exact ⟨rfl, rfl⟩
  case fence =>
    refine ⟨rfl, fun l hl => ?_⟩
    obtain ⟨_, -, rfl⟩ := List.mem_map.1 hl
    rfl

end Sys2Proof.Machine

namespace Sys2Proof.Machine

/-! ## Successor lists (R97) -/

theorem evalMonitor_tcbs (s : State) (m : Monitor) : (s.evalMonitor m).tcbs = s.tcbs := by
  unfold State.evalMonitor State.endMonitor State.answer State.answerFrom
  repeat' split
  all_goals rfl

theorem settleSector_tcbs (s : State) (sec : Nat) : (s.settleSector sec).tcbs = s.tcbs := by
  unfold State.settleSector
  generalize s.monitors.filter (fun m => m.dirty && m.pa / 64 = sec) = l
  induction l generalizing s with
  | nil => rfl
  | cons m l ih => rw [List.foldl_cons, ih, evalMonitor_tcbs]

theorem writeByte_tcbs (s : State) (key : Option KeyVal) (pa : Nat) (b : Byte) : (s.writeByte key pa b).tcbs = s.tcbs := by
  unfold State.writeByte
  split <;> rfl

theorem foldl_writeByte_tcbs (key : Option KeyVal) (ws : List (Nat × Byte)) (s : State) :
    (ws.foldl (fun s w => s.writeByte key w.1 w.2) s).tcbs = s.tcbs := by
  induction ws generalizing s with
  | nil => rfl
  | cons w ws ih => rw [List.foldl_cons, ih, writeByte_tcbs]

theorem performWrite_tcbs (s : State) (key : Option KeyVal) (ws : List (Nat × Byte)) : (s.performWrite key ws).tcbs = s.tcbs := by
  unfold State.performWrite
  split
  · rfl
  · rename_i w rest
    have h := (foldl_writeByte_tcbs key (w :: rest) (s.settleSector (w.1 / 64))).trans (settleSector_tcbs s _)
    show State.tcbs (if _ then _ else _) = s.tcbs
    split <;> exact h

/-- A write to memory changes no TCB's fields. -/
@[simp] theorem performBytes_tcbs (s : State) (key : Option KeyVal) (pa : Nat) (bs : List Byte) :
    (s.performBytes key pa bs).tcbs = s.tcbs := by
  unfold State.performBytes
  generalize gather (bs.zipIdx.map fun b => (pa + b.2, b.1)) = l
  induction l generalizing s with
  | nil => rfl
  | cons c l ih => rw [List.foldl_cons, ih, performWrite_tcbs]

theorem State.tcb_congr {s t : State} (h : t.tcbs = s.tcbs) (x : Nat) : t.tcb x = s.tcb x := by
  unfold State.tcb
  rw [h]

/-- `t` is as `s` in its TCBs, but for one successor more of `task`. -/
structure State.CountsSucc (s t : State) (task : Nat) : Prop where
  state : (t.tcb task).state = (s.tcb task).state
  count : (t.tcb task).succCnt = (s.tcb task).succCnt + 1
  other : ∀ x, task ≠ x → t.tcb x = s.tcb x

theorem State.CountsSucc.congr {s t u : State} {task : Nat} (h : s.CountsSucc t task) (hu : u.tcbs = t.tcbs) :
    s.CountsSucc u task := by
  refine ⟨?_, ?_, fun x hx => (State.tcb_congr hu x).trans (h.other x hx)⟩
  · rw [State.tcb_congr hu, h.state]
  · rw [State.tcb_congr hu, h.count]

theorem State.CountsSucc.setSuccAddr {s t : State} {task : Nat} (h : s.CountsSucc t task) (pa : Nat) :
    s.CountsSucc (t.setTcb task { t.tcb task with succAddr := pa }) task := by
  refine ⟨?_, ?_, fun x hx => (State.tcb_setTcb_other _ _ hx).trans (h.other x hx)⟩
  · rw [State.tcb_setTcb_same, ← h.state]
  · rw [State.tcb_setTcb_same, ← h.count]

@[simp] theorem State.tcb_setQueue (s : State) (n : Nat) (q : Queue) (x : Nat) : (s.setQueue n q).tcb x = s.tcb x := rfl

@[simp] theorem State.tcb_packetDone (s : State) (n : Nat) (p : Packet) (x : Nat) : (s.packetDone n p).tcb x = s.tcb x := rfl

/-- An append counts one successor more, wherever it writes its number. -/
theorem State.addSucc_counts (s : State) (task id : Nat) : s.CountsSucc (s.addSucc task id) task := by
  have hcount : s.CountsSucc (s.setTcb task { s.tcb task with succCnt := (s.tcb task).succCnt + 1 }) task := by
    refine ⟨?_, ?_, fun x hx => State.tcb_setTcb_other _ _ hx⟩ <;> rw [State.tcb_setTcb_same]
  unfold State.addSucc
  simp only
  split
  · exact hcount.congr (performBytes_tcbs _ _ _ _)
  · split
    · exact hcount.congr ((performBytes_tcbs _ _ _ _).trans (performBytes_tcbs _ _ _ _))
    · refine State.CountsSucc.setSuccAddr ?_ _
      exact hcount.congr (performBytes_tcbs _ _ _ _)

/-- Appending to several producers leaves every TCB's state. -/
theorem State.foldl_addSucc_state (l : List Nat) (s : State) (id x : Nat) :
    ((l.foldl (State.addSucc · · id) s).tcb x).state = (s.tcb x).state := by
  induction l generalizing s with
  | nil => rfl
  | cons y l ih =>
    rw [List.foldl_cons, ih]
    by_cases e : y = x
    · exact e ▸ (s.addSucc_counts y id).state
    · rw [(s.addSucc_counts y id).other x e]

theorem State.foldl_addSucc_other (l : List Nat) (s : State) (id : Nat) {x : Nat} (h : x ∉ l) :
    (l.foldl (State.addSucc · · id) s).tcb x = s.tcb x := by
  induction l generalizing s with
  | nil => rfl
  | cons y l ih =>
    obtain ⟨hy, hl⟩ := List.ne_and_not_mem_of_not_mem_cons h
    rw [List.foldl_cons, ih _ hl]
    exact (s.addSucc_counts y id).other x (Ne.symm hy)

/-- Each of some distinct producers counts one successor more. -/
theorem State.foldl_addSucc_count (l : List Nat) (s : State) (id : Nat) {x : Nat} (hd : l.Nodup) (h : x ∈ l) :
    ((l.foldl (State.addSucc · · id) s).tcb x).succCnt = (s.tcb x).succCnt + 1 := by
  induction l generalizing s with
  | nil => cases h
  | cons y l ih =>
    obtain ⟨hy, hl⟩ := List.nodup_cons.1 hd
    rw [List.foldl_cons]
    rcases List.mem_cons.1 h with rfl | hx
    · rw [State.foldl_addSucc_other l _ id hy, (s.addSucc_counts _ id).count]
    · rw [ih _ hl hx, (s.addSucc_counts y id).other x fun e => hy (e ▸ hx)]

/-! ## LAUNCH (R83, R84, R99) -/

section
variable (s : State) (n : Nat) (p : Packet) (id : Nat)

/-- The producers of a LAUNCH's pending edges that have not retired. -/
def State.livePreds : List Nat := (s.queue n).preds.filter fun x => (s.tcb x).state ≠ TaskState.retired

/-- The TCB that a LAUNCH builds. -/
def State.launched : Tcb :=
  (launchTcb (s.queue n) n (s.livePreds n).length p.body).created s.gtc
    ((s.livePreds n).foldl (State.addSucc · · id) s).nextId

/-- The producers' lists name the task `id`, whose TCB is built. -/
def State.withTask : State :=
  { (s.livePreds n).foldl (State.addSucc · · id) s with
    nextId := ((s.livePreds n).foldl (State.addSucc · · id) s).nextId + 1 }.setTcb id (s.launched n p id)

/-- Of the 4,095 tasks that an EDGE may name the oldest is forgotten: RETIRED, it becomes FREE (R109). -/
def State.forgetOldest (t : State) : Option Nat → State
  | some x => t.freeRetired x
  | none => t

/-- R98: the new task is READY, or WAITING for its producers. -/
theorem State.launched_state : (s.launched n p id).state = if s.livePreds n = [] then .ready else .waiting := by
  unfold State.launched Tcb.created launchTcb
  simp only [List.length_eq_zero_iff]

theorem State.tcb_withTask_same : (s.withTask n p id).tcb id = s.launched n p id := State.tcb_setTcb_same _ _ _

theorem State.tcb_withTask_other {x : Nat} (h : x ≠ id) :
    (s.withTask n p id).tcb x = ((s.livePreds n).foldl (State.addSucc · · id) s).tcb x :=
  State.tcb_setTcb_other _ _ (Ne.symm h)

/-- What is forgotten has retired, so it is neither the new task nor a producer that has not. -/
theorem State.tcb_forgetOldest {t : State} (o : Option Nat) {x : Nat} (h : (t.tcb x).state ≠ .retired) :
    (t.forgetOldest o).tcb x = t.tcb x := by
  cases o with
  | none => rfl
  | some y =>
    by_cases e : y = x
    · subst e
      exact congrArg (State.tcb · y) (t.freeRetired_of_ne y h)
    · exact t.tcb_freeRetired_other y e

theorem State.forgetOldest_mem (t : State) (o : Option Nat) : (t.forgetOldest o).mem = t.mem := by
  cases o with
  | none => rfl
  | some y => exact t.freeRetired_mem y

theorem State.tcb_launch_new (o : Option Nat) : ((s.withTask n p id).forgetOldest o).tcb id = s.launched n p id := by
  rw [State.tcb_forgetOldest, s.tcb_withTask_same]
  rw [s.tcb_withTask_same, s.launched_state]
  split <;> decide

theorem State.tcb_launch_producer (o : Option Nat) (hd : (s.livePreds n).Nodup) {x : Nat} (hx : x ∈ s.livePreds n) (hid : x ≠ id) :
    (((s.withTask n p id).forgetOldest o).tcb x).succCnt = (s.tcb x).succCnt + 1 := by
  have hlive : (s.tcb x).state ≠ .retired := by simpa using (List.mem_filter.1 hx).2
  rw [State.tcb_forgetOldest, s.tcb_withTask_other n p id hid, State.foldl_addSucc_count _ s id hd hx]
  rwa [s.tcb_withTask_other n p id hid, State.foldl_addSucc_state]

end

section
variable {s : State} {n id : Nat} {p : Packet}

theorem exec_launch (h : (s.queue n).due s.gtc 2 = some p) (hroom : s.launchRoom n = true)
    (hfree : s.freeTcb (n / 64 % 2) = some id) : exec (.launch n) s =
    .next ((((s.withTask n p id).forgetOldest (s.queue n).recent[4094]?).setQueue n { s.queue n with
      launches := (s.queue n).launches + 1, recent := id :: (s.queue n).recent.take 4094, edges := [], preds := [] }).packetDone
        n p) := by
  refine (packetEffect_due _ h : execLaunch n s = _).trans (congrArg Host.Outcome.next ?_)
  rw [if_neg (by rw [hroom]; decide)]
  simp only [hfree]
  cases (s.queue n).recent[4094]? <;> rfl

theorem exec_launch_stalls (h : (s.queue n).due s.gtc 2 = some p)
    (hroom : s.launchRoom n = false) : exec (.launch n) s = .next (s.setQueue n { s.queue n with stalled := true }) := by
  refine (packetEffect_due _ h : execLaunch n s = _).trans (congrArg Host.Outcome.next (if_pos ?_))
  rw [hroom]
  rfl

end

/-! ## WAIT (R86) -/

section
variable {s : State} {n : Nat} {p : Packet}

theorem exec_wait_holds (h : (s.queue n).due s.gtc 7 = some p) (hw : p.watch = none)
    (hv : p.value = some true ∨ p.watchOf.holdsNow s (s.queue n).packetOwner = true) :
    exec (.wait n) s = .next (s.packetDone n p) := by
  refine (packetEffect_due _ h : execWait n s = _).trans (congrArg Host.Outcome.next ?_)
  rw [if_neg (by rw [hw]; decide), if_pos (by simpa using hv)]

theorem exec_wait_stands (h : (s.queue n).due s.gtc 7 = some p) (hw : p.watch = none) (hv : p.value ≠ some true)
    (hn : p.watchOf.holdsNow s (s.queue n).packetOwner = false) : exec (.wait n) s =
    .next (s.setQueue n { s.queue n with inflight := [{ p with
      watch := some p.watchOf, pollAt := s.gtc + 2000,
      waitUntil := if bodyWord p.body 7 = 0 then none else some (s.gtc + 1000 * bodyWord p.body 7) }] }) := by
  refine (packetEffect_due _ h : execWait n s = _).trans (congrArg Host.Outcome.next ?_)
  rw [if_neg (by rw [hw]; decide), if_neg (by simp [hv, hn])]

theorem exec_waitReevaluate_holds {v : Watch} (h : (s.queue n).due s.gtc 7 = some p) (hw : p.watch = some v)
    (hdue : p.reevaluateDue s.gtc = true) (hv : v.met = true ∨ v.holdsNow s (s.queue n).packetOwner = true) :
    exec (.waitReevaluate n) s = .next (s.packetDone n { p with watch := none }) := by
  refine (packetEffect_due _ h : execWaitReevaluate n s = _).trans (congrArg Host.Outcome.next ?_)
  simp only [hw]
  rw [if_neg (by rw [hdue]; decide), if_pos (by simpa using hv)]

theorem exec_waitTimeout_faults {v : Watch} {g : Nat} (h : (s.queue n).due s.gtc 7 = some p) (hw : p.watch = some v)
    (hmet : v.met = false) (hg : p.waitUntil = some g) (hdue : g ≤ s.gtc) :
    exec (.waitTimeout n) s = .next (s.queueFault n 11 p.level p.addr) := by
  refine (packetEffect_due _ h : execWaitTimeout n s = _).trans (congrArg Host.Outcome.next (if_pos ?_))
  simp [hw, hmet, hg, hdue]

/-! ## CHECKPOINT (R449, R450) -/

/-- The checkpoint that a CHECKPOINT packet describes. -/
def State.checkpointOf (s : State) (n : Nat) (p : Packet) : Checkpoint :=
  let d := p.pas.map fun pa => s.readByte (s.queueKey (s.queue n) pa) pa
  { queue := n, desc := p.pas, owner := (s.queue n).packetOwner, flags := recField d 4 4, ports := recField d 8 2,
    sink := recField d 0x10 8, limit := recField d 0x18 8, start := s.gtc }

/-- The packet is due, every earlier LAUNCH has retired, and no checkpoint of the queue runs. -/
theorem exec_checkpoint_idle (h : (s.queue n).due s.gtc 11 = some p) (hret : s.launchesRetired n = true)
    (hnone : ∀ c ∈ s.checkpoints, c.queue ≠ n) : exec (.checkpoint n) s = .next
      (if !checkpointOk (p.pas.map fun pa => s.readByte (s.queueKey (s.queue n) pa) pa) then s.queueFault n 10 p.level p.addr
      else { s with checkpoints := s.checkpoints ++ [s.checkpointOf n p] }) := by
  have hany : (s.checkpoints.any fun c => c.queue = n) = false := by simpa using hnone
  refine (packetEffect_due _ h : execCheckpoint n s = _).trans (congrArg Host.Outcome.next (if_neg ?_))
  rw [hret, hany]
  decide

/-- The state once a checkpoint has sent what it sends and its status words stand: its queue has no checkpoint left (R450). -/
def State.checkpointWritten (s : State) (n : Nat) (c : Checkpoint) : State :=
  let (result, written, s1) := s.checkpointEnd c
  let s2 := s1.performAt c.owner (((c.desc.drop 0x20).take 4).zip (leBytes 4 result) ++ (c.desc.drop 0x28).zip
    (leBytes 8 written ++ leBytes 8 (if bit c.flags 3 then 0 else s.linesSkipped c) ++ leBytes 8 (s.gtc % 2 ^ 64)))
  { s2 with
    checkpoints := s2.checkpoints.filter fun x => x.queue ≠ n,
    msix := if bit c.flags 4 then s2.msix ++ [(s2.queue n).vec] else s2.msix }

theorem State.checkpointWritten_none (c : Checkpoint) : ∀ x ∈ (s.checkpointWritten n c).checkpoints, x.queue ≠ n := by
  intro x hx
  simpa using (List.mem_filter.1 hx).2

theorem exec_checkpointDone {c : Checkpoint} (h : (s.queue n).due s.gtc 11 = some p)
    (hc : s.checkpoints.find? (fun c => c.queue = n) = some c) (hdue : s.checkpointDue c = true)
    (hclear : (p.sent = none ∧ s.packetHold n p = 0) ∨ ∃ g, p.sent = some g ∧ g ≤ s.gtc) :
    exec (.checkpointDone n) s = .next ((s.checkpointWritten n c).packetDone n p) := by
  show execCheckpointDone n s = _
  unfold execCheckpointDone
  simp only [hc, h]
  rw [if_neg (by rw [hdue]; decide), State.writesOf_clear hclear]
  rfl

end

theorem State.queueFault_stops (s : State) (n code level addr : Nat) :
    ((s.queueFault n code level addr).queue n).code = code ∧ ((s.queueFault n code level addr).queue n).level = level ∧
      ((s.queueFault n code level addr).queue n).foff = addr ∧ ((s.queueFault n code level addr).queue n).inflight = [] := by
  rw [State.queue_queueFault]
  exact ⟨rfl, rfl, rfl, rfl⟩

/-- Settles O35: a LAUNCH by `exec_launch`, whose new TCB and whose producers the freeing of the oldest task leaves
(`State.tcb_launch_new`, `State.tcb_launch_producer`); a WAIT by its compare; a CHECKPOINT by its two events. -/
theorem packetWaits : Obligations.PacketWaits := by
  unfold Obligations.PacketWaits
  intro s n p
  refine ⟨fun id h hroom hfree => ⟨_, exec_launch h hroom hfree, ?launch⟩, exec_launch_stalls, exec_wait_holds, exec_wait_stands,
    fun v => exec_waitReevaluate_holds, fun v g h hw hmet hg hdue =>
      ⟨_, exec_waitTimeout_faults h hw hmet hg hdue, s.queueFault_stops n 11 p.level p.addr⟩,
    fun h hret hnone => ⟨_, exec_checkpoint_idle h hret hnone, ?checkpoint⟩, fun c h hc hdue hclear => ?done⟩
  case launch =>
    have hmem := (s.withTask n p id).forgetOldest_mem (s.queue n).recent[4094]?
    simp only [State.tcb_packetDone, State.tcb_setQueue, State.tcb_launch_new]
    rw [State.queue_packetDone, State.queue_setQueue_same]
    exact ⟨s.launched_state n p id, rfl, rfl, rfl, rfl, rfl, rfl, rfl, rfl, rfl, rfl, rfl, rfl, rfl, hmem,
      fun hd x hx hid => s.tcb_launch_producer n p id _ hd hx hid, rfl, rfl, rfl⟩
  case checkpoint =>
    refine ⟨fun hok => by rw [if_neg (by rw [hok]; decide)]; rfl, fun hok => ?_⟩
    rw [if_pos (by rw [hok]; decide)]
    exact s.queueFault_stops n 10 p.level p.addr
  case done =>
    refine ⟨_, exec_checkpointDone h hc hdue hclear, s.checkpointWritten_none c, ?_⟩
    rw [State.queue_packetDone]

end Sys2Proof.Machine

namespace Sys2Proof.Machine

/-! ## What an event record leaves (R408) -/

/-- A record stands with the events, or is counted at its die: what depends on neither is as before. -/
theorem State.record_keeps {α : Type} (f : State → α) (hf : ∀ s es ds, f { s with events := es, dies := ds } = f s) (s : State)
    (r : EventRec) : f (s.record r) = f s := by
  unfold State.record
  simp only
  split
  · exact hf s _ s.dies
  · exact hf s s.events _

/-- `t` is as `s` in memory with its keys and its poison, in the groups and in the blocks. -/
structure State.SameWork (s t : State) : Prop where
  mem : t.mem = s.mem
  keys : t.keys = s.keys
  groups : t.groups = s.groups
  poison : t.poison = s.poison
  blocks : t.blocks = s.blocks

theorem State.SameWork.record {s t : State} (h : s.SameWork t) (r : EventRec) : s.SameWork (t.record r) where
  mem := (t.record_keeps State.mem (fun _ _ _ => rfl) r).trans h.mem
  keys := (t.record_keeps State.keys (fun _ _ _ => rfl) r).trans h.keys
  groups := (t.record_keeps State.groups (fun _ _ _ => rfl) r).trans h.groups
  poison := (t.record_keeps State.poison (fun _ _ _ => rfl) r).trans h.poison
  blocks := (t.record_keeps State.blocks (fun _ _ _ => rfl) r).trans h.blocks

/-- The counts of memory rows are none of it. -/
theorem State.SameWork.rows {s t : State} (h : s.SameWork t) (rows : Table (List Nat)) (spared offlineRows : List Nat) :
    s.SameWork { t with rows, spared, offlineRows } :=
  ⟨h.mem, h.keys, h.groups, h.poison, h.blocks⟩

/-! ## Sensor cells (R404, R416 to R419) -/

section
variable (s : State) (c : CellRef)

@[simp] theorem State.cell_setCell_same (x : Cell) : (s.setCell c x).cell c = x := tget_tset_same _ _ _ _

/-- A cell that may report is one of the module's. -/
theorem State.mayReport_field {s : State} {c : CellRef} (h : s.mayReport c = true) : c.field < 8 := by
  unfold State.mayReport cellValid at h
  simp only [Bool.and_eq_true, decide_eq_true_eq] at h
  exact h.1.1

theorem exec_sensorReport_own {s : State} {c : CellRef} (h : s.mayReport c = true) : exec (.sensorReport c) s =
    .next (s.report c ((s.cell c).inject.any fun t => t ≤ s.gtc)) := by
  show execSensorReport c s = _
  unfold execSensorReport
  rw [if_neg (Nat.not_le.mpr (State.mayReport_field h))]
  exact if_pos h

theorem exec_sensorReport_peer {c : CellRef} (h : 8 ≤ c.field) : exec (.sensorReport c) s = .next (s.peerReport c) :=
  (if_pos h : execSensorReport c s = _)

theorem exec_cellInject_physical {s : State} {c : CellRef} (h : s.mayReport c = true) : exec (.cellInject 0 c) s =
    .next (s.setCell c { s.cell c with inject := some (s.gtc + 1) }) :=
  (if_pos (by rw [h]; rfl) : execCellInject 0 c s = _)

theorem exec_cellInject_virtual {fn : Nat} (h : fn ≠ 0) : exec (.cellInject fn c) s = .next s :=
  (if_neg (by simp [h]) : execCellInject fn c s = _)

theorem exec_cellClear_virtual {fn : Nat} (h : fn ≠ 0) : exec (.cellClear fn c) s = .next s :=
  (if_pos (by simp [h]) : execCellClear fn c s = _)

/-- A core back in service. -/
def State.online (s : State) (k : Nat) : State := s.setCore k { s.core k with offline := false }

theorem State.cell_modField (f : Nat) (k : Field → Field) : (s.modField f k).cell c = s.cell c := rfl

theorem State.foldl_online_cells (l : List Nat) (s : State) : (l.foldl State.online s).cells = s.cells := by
  induction l generalizing s with
  | nil => rfl
  | cons k l ih => exact ih _

/-- It is in service, and a core that was still is. -/
theorem State.online_offline (s : State) (k m : Nat) (h : k = m ∨ (s.core m).offline = false) :
    ((s.online k).core m).offline = false := by
  unfold State.online
  by_cases e : k = m
  · rw [e, State.core_setCore_same]
  · rw [State.core_setCore_other _ _ e]
    exact h.resolve_left e

theorem State.foldl_online (l : List Nat) (s : State) {m : Nat} (h : m ∈ l ∨ (s.core m).offline = false) :
    ((l.foldl State.online s).core m).offline = false := by
  induction l generalizing s with
  | nil => exact h.resolve_left (List.not_mem_nil)
  | cons k l ih =>
    refine ih _ ?_
    rcases h with hm | hon
    · exact (List.mem_cons.1 hm).symm.imp id fun e => s.online_offline k m (Or.inl e.symm)
    · exact Or.inr (s.online_offline k m (Or.inr hon))

/-- The cell and its cores after a clearing (R418). -/
def State.cleared (s : State) (c : CellRef) : State :=
  (cellCores c).foldl State.online (s.setCell c { s.cell c with events := [], off := false })

/-- A clearing by the physical function that no block stands against: the cell is cleared, and its cores are in service. -/
theorem exec_cellClear_physical {s : State} {c : CellRef} (hvalid : cellValid c = true)
    (hfree : ∀ b ∈ s.blocks, b.holdsCores = true → ∀ k ∈ b.cores, k ∉ cellCores c) : exec (.cellClear 0 c) s =
    .next (if 216 ≤ c.cell && c.cell < 222 then (s.cleared c).modField c.field fun f => { f with offline := false }
      else s.cleared c) := by
  have hheld : (s.blocks.any fun b => b.holdsCores && b.cores.any fun k => (cellCores c).contains k) = false := by
    simpa using hfree
  refine (if_neg ?_ : execCellClear 0 c s = _)
  rw [hvalid, hheld]
  decide

theorem State.cell_cleared : (s.cleared c).cell c = { s.cell c with events := [], off := false } := by
  unfold State.cell State.cleared
  rw [State.foldl_online_cells]
  exact State.cell_setCell_same _ _ _

theorem State.core_cleared : ∀ k ∈ cellCores c, ((s.cleared c).core k).offline = false :=
  fun _ hk => State.foldl_online _ _ (Or.inl hk)

end

/-! ## Memory errors (R420, R421) -/

/-- A corrected error of a row of the bonded DRAM is counted and recorded; the row may be spared or go offline. -/
theorem exec_eccCorr_bonded (s : State) (die row : Nat) (spare : Bool) :
    ∃ t, exec (.eccCorr die 1 row spare) s = .next t ∧ s.SameWork t := by
  have hrows (rows : Table (List Nat)) := (⟨rfl, rfl, rfl, rfl, rfl⟩ : s.SameWork { s with rows })
  show ∃ t, execEccCorr die 1 row spare s = .next t ∧ s.SameWork t
  unfold execEccCorr
  simp only
  split
  · exact ⟨_, rfl, ((hrows _).record _).record _⟩
  · split
    · split
      · exact ⟨_, rfl, (((hrows _).record _).rows _ _ _).record _⟩
      · rw [if_neg (by decide)]
        exact ⟨_, rfl, (((hrows _).record _).rows _ _ _).record _⟩
    · exact ⟨_, rfl, (hrows _).record _⟩

/-- A poisoned sector (R421). -/
theorem exec_poison_sector (s : State) (pa : Nat) : ∃ t, exec (.poison (.sector pa)) s = .next t ∧ pa / 64 ∈ t.poison ∧
    t.mem = s.mem ∧ t.groups = s.groups := by
  refine ⟨_, rfl, ?_, State.record_keeps State.mem (fun _ _ _ => rfl) _ _, State.record_keeps State.groups (fun _ _ _ => rfl) _ _⟩
  rw [State.record_keeps State.poison (fun _ _ _ => rfl)]
  show pa / 64 ∈ if s.poison.contains (pa / 64) then s.poison else pa / 64 :: s.poison
  split
  · rename_i h
    exact List.contains_iff_mem.1 h
  · exact List.mem_cons_self

/-- POISON for the groups that hold a piece of storage, those that have left excepted. -/
def State.poisonGroups (s : State) (gs : List Group) : State :=
  gs.foldl (fun s g => if g.exited then s else s.modGroup g.ref fun g => g.deferFault none { code := 30 }) s

/-- An error of a core's storage that groups hold (R421). -/
theorem exec_poison_storage {s : State} {site : PoisonSite} {g : Group} {gs : List Group} {restorable : Bool}
    (hsite : ∀ a, site ≠ .sector a) (h : s.storageOf site = (g :: gs, restorable)) : exec (.poison site) s =
      let cell : CellRef := ⟨fieldOfCore g.core, 4 * (g.core % 48)⟩
      .next (if restorable && s.mayReport cell then s.report cell false else s.poisonGroups (g :: gs)) := by
  have hx : exec (.poison site) s =
      let (gs, restorable) := s.storageOf site
      let cell : CellRef := match gs with | g :: _ => ⟨fieldOfCore g.core, 4 * (g.core % 48)⟩ | [] => ⟨0, 0⟩
      if gs.isEmpty then .next s
      else if restorable && s.mayReport cell then .next (s.report cell false) else .next (s.poisonGroups gs) := by
    cases site with
    | sector a => exact absurd rfl (hsite a)
    | register => rfl
    | storeQueue => rfl
    | staging => rfl
    | frame => rfl
  rw [hx, h]
  exact (apply_ite Host.Outcome.next _ _ _).symm

/-- A change of a group that keeps its name leaves every other group. -/
theorem State.group?_modGroup_other (s : State) {r q : GroupRef} {f : Group → Group} (hf : ∀ g, (f g).ref = g.ref) (h : r ≠ q) :
    (s.modGroup r f).group? q = s.group? q := by
  show findGroup (s.groups.map fun g => if g.ref = r then f g else g) q = findGroup s.groups q
  unfold findGroup
  induction s.groups with
  | nil => rfl
  | cons g gs ih =>
    by_cases hg : g.ref = r
    · simp [hg, hf, h, ih]
    · by_cases hq : g.ref = q
      · simp [hq, Ne.symm h]
      · simp [hg, hq, ih]

theorem State.poisonGroups_other (gs : List Group) (s : State) : (s.poisonGroups gs).mem = s.mem ∧
    (s.poisonGroups gs).blocks = s.blocks ∧ ∀ q, (∀ g ∈ gs, g.ref ≠ q) → (s.poisonGroups gs).group? q = s.group? q := by
  unfold State.poisonGroups
  induction gs generalizing s with
  | nil => exact ⟨rfl, rfl, fun _ _ => rfl⟩
  | cons g gs ih =>
    rw [List.foldl_cons]
    obtain ⟨hmem, hblocks, hgroup⟩ := ih (if g.exited then s else s.modGroup g.ref fun g => g.deferFault none { code := 30 })
    refine ⟨hmem.trans ?_, hblocks.trans ?_, fun q hq => (hgroup q fun x hx => hq x (List.mem_cons_of_mem _ hx)).trans ?_⟩
    · split <;> rfl
    · split <;> rfl
    · split
      · rfl
      · exact s.group?_modGroup_other (fun _ => rfl) (hq g List.mem_cons_self)

/-! ## Links (R407) -/

theorem exec_linkEvent_down (s : State) (die link row : Nat) :
    ∃ t, exec (.linkEvent die link 2 row) s = .next t ∧ (die % 2, link % 16) ∈ t.linksDown := by
  refine ⟨_, rfl, ?_⟩
  rw [State.record_keeps State.linksDown (fun _ _ _ => rfl)]
  show _ ∈ if s.linksDown.contains (die % 2, link % 16) then s.linksDown else (die % 2, link % 16) :: s.linksDown
  split
  · rename_i h
    exact List.contains_iff_mem.1 h
  · exact List.mem_cons_self

theorem exec_linkEvent_retrained (s : State) (die link row : Nat) :
    ∃ t, exec (.linkEvent die link 0 row) s = .next t ∧ (die % 2, link % 16) ∉ t.linksDown := by
  refine ⟨_, rfl, ?_⟩
  rw [State.record_keeps State.linksDown (fun _ _ _ => rfl)]
  show _ ∉ s.linksDown.filter fun x => x ≠ (die % 2, link % 16)
  simp

/-! ## The event rings (R408, R409) -/

/-- The ring of a die that has taken a record. -/
def State.recordTaken (s : State) (die : Nat) (r : EventRec) : State :=
  let d := s.die die
  let base := d.evBase / 2 ^ (5 + d.evLog) * 2 ^ (5 + d.evLog)
  ({ s with events := s.events.erase r }.performBytes none (base + 32 * d.evHead) (r.bytes d.evGap)).setDie die
    { d with evHead := (d.evHead + 1) % 2 ^ d.evLog, evGap := false }

/-- And its interrupt. -/
def State.ringWritten (s : State) (die : Nat) (r : EventRec) : State :=
  let t := s.recordTaken die r
  if (s.die die).evIe then { t with msix := t.msix ++ [(s.die die).evVec] } else t

theorem State.die_recordTaken (s : State) (die : Nat) (r : EventRec) : (s.recordTaken die r).die die =
    { s.die die with evHead := ((s.die die).evHead + 1) % 2 ^ (s.die die).evLog, evGap := false } :=
  State.die_setDie_same _ _ _

theorem State.die_ringWritten (s : State) (die : Nat) (r : EventRec) : (s.ringWritten die r).die die =
    { s.die die with evHead := ((s.die die).evHead + 1) % 2 ^ (s.die die).evLog, evGap := false } := by
  have hdies : (s.ringWritten die r).dies = (s.recordTaken die r).dies := by
    unfold State.ringWritten
    simp only
    split
    · rfl
    · rfl
  rw [← s.die_recordTaken die r]
  exact congrArg (tget {} · die) hdies

section
variable {s : State} {die : Nat} {r : EventRec} (hr : s.nextRecord die = some r) (hdue : r.stamp + 512 ≤ s.gtc)
include hr hdue

/-- A full ring drops the record and counts it. -/
theorem exec_eventRecordWrite_full
    (hfull : ((s.die die).evHead + 1) % 2 ^ (s.die die).evLog = (s.die die).evTail % 2 ^ (s.die die).evLog) :
    exec (.eventRecordWrite die) s = .next ({ s with events := s.events.erase r }.setDie die
      { s.die die with evLost := ((s.die die).evLost + 1) % 2 ^ 32, evGap := true }) := by
  show execEventRecordWrite die s = _
  unfold execEventRecordWrite
  simp only [hr]
  rw [if_neg (Nat.not_lt.mpr hdue), if_pos hfull]

/-- Else it is written, and the head moves. -/
theorem exec_eventRecordWrite_room
    (hroom : ((s.die die).evHead + 1) % 2 ^ (s.die die).evLog ≠ (s.die die).evTail % 2 ^ (s.die die).evLog) :
    exec (.eventRecordWrite die) s = .next (s.ringWritten die r) := by
  show execEventRecordWrite die s = _
  unfold execEventRecordWrite
  simp only [hr]
  rw [if_neg (Nat.not_lt.mpr hdue), if_neg hroom]
  rfl

end

/-! ## The drone pairs (R94) -/

/-- A change of every value that keeps the default one. -/
theorem tget_map {α : Type} (d : α) (f : α → α) (hf : f d = d) (t : Table α) (i : Nat) :
    tget d (t.map fun q => (q.1, f q.2)) i = f (tget d t i) := by
  induction t with
  | nil => exact hf.symm
  | cons p t ih =>
    obtain ⟨k, v⟩ := p
    by_cases hk : k = i <;> simp [tget, hk, ih]

/-- The mismatches of the last 2^30 mc, with one now. -/
def State.recentMismatches (s : State) : List Nat := s.gtc :: s.drone.mismatches.filter fun u => s.gtc < u + 2 ^ 30

/-- Recovery starts; the third mismatch hands over to die 1; of the packets in flight only the committed stay (R94). -/
theorem exec_droneMismatch (s : State) : ∃ t, exec .droneMismatch s = .next t ∧
    t.drone = { activeDie := if 3 ≤ s.recentMismatches.length && s.drone.activeDie = 0 then 1 else s.drone.activeDie,
                mismatches := s.recentMismatches, recovering := some (s.gtc + 500000) } ∧
    ∀ n, (t.queue n).inflight = (s.queue n).inflight.filter fun p => p.committed s.gtc := by
  refine ⟨_, rfl, rfl, fun n => ?_⟩
  unfold State.queue
  simp only
  rw [tget_map {} (fun q : Queue => { q with inflight := q.inflight.filter fun p => p.committed s.gtc }) rfl]
  have hqueues (u : State) (r : EventRec) : (u.record r).queues = u.queues := u.record_keeps State.queues (fun _ _ _ => rfl) r
  split
  · rw [hqueues, hqueues]
  · rw [hqueues]

theorem exec_droneRecoveryEnd_recovering {s : State} (h : s.drone.recovering.isSome = true) : exec .droneRecoveryEnd s =
    .next { s with drone := { s.drone with recovering := none } } :=
  (congrArg Host.Outcome.next (if_pos h) : execDroneRecoveryEnd s = _)

/-- Settles O42: each event by its equation above; a record changes only the events and the dies' counts (`State.record_keeps`). -/
theorem sensorEvents : Obligations.SensorEvents := by
  unfold Obligations.SensorEvents
  intro s c fn die pa link row spare r
  refine ⟨exec_sensorReport_own, exec_sensorReport_peer s, ⟨_, rfl, ?decay⟩, exec_cellInject_physical,
    fun hfn => ⟨exec_cellInject_virtual s c hfn, exec_cellClear_virtual s c hfn⟩,
    fun hvalid hfree => ⟨_, exec_cellClear_physical hvalid hfree, ?clear⟩, ?corrected, exec_poison_sector s pa,
    fun site gs g hstorage hreport hsite => ?restored, fun site gs g hstorage hsite => ⟨_, exec_poison_storage hsite hstorage, ?lost⟩,
    exec_linkEvent_down s die link row, exec_linkEvent_retrained s die link row,
    fun hr hdue hfull => ⟨_, exec_eventRecordWrite_full hr hdue hfull, ?full⟩,
    fun hr hdue hroom => ⟨_, exec_eventRecordWrite_room hr hdue hroom, ?room⟩, ?mismatch, exec_droneRecoveryEnd_recovering⟩
  case decay =>
    rw [State.cell_setCell_same]
    rfl
  case clear =>
    split
    · rw [State.cell_modField, State.cell_cleared]
      exact ⟨rfl, rfl, s.core_cleared c⟩
    · rw [State.cell_cleared]
      exact ⟨rfl, rfl, s.core_cleared c⟩
  case corrected =>
    obtain ⟨t, ht, hwork⟩ := exec_eccCorr_bonded s die row spare
    exact ⟨t, ht, hwork.mem, hwork.keys, hwork.groups, hwork.poison, hwork.blocks⟩
  case restored =>
    rw [exec_poison_storage hsite hstorage]
    exact congrArg Host.Outcome.next (if_pos (by rw [hreport]; rfl))
  case lost =>
    obtain ⟨hmem, hblocks, hgroup⟩ := State.poisonGroups_other (g :: gs) s
    exact ⟨hmem, hblocks, fun h _ hne hh => (hgroup h.ref hne).trans hh⟩
  case full =>
    rw [State.die_setDie_same]
    exact ⟨rfl, rfl, rfl, rfl⟩
  case room =>
    rw [State.die_ringWritten]
    exact ⟨rfl, rfl, rfl⟩
  case mismatch =>
    obtain ⟨t, ht, hdrone, hinflight⟩ := exec_droneMismatch s
    refine ⟨t, ht, by rw [hdrone], fun hdie hcount => ?_, fun n p hp => ?_⟩
    · have hthird : 3 ≤ s.recentMismatches.length := Nat.succ_le_succ hcount
      rw [hdrone]
      exact if_pos (by simp [hthird, hdie])
    · rw [hinflight n] at hp
      exact (List.mem_filter.1 hp).2

end Sys2Proof.Machine

namespace Sys2Proof.Machine

open Sys2Proof

/-! ## ICINV and the TLB of its core (R150, R290)

O30 has ICINV translate its range as core `fieldOfCore g.core` would: the number of the group's field stands where
`icinvRanges` takes a core.  The instruction translates through its own core's TLB, which takes the entry that its field's TLB
holds. -/

/-- The group stalls until the invalidation of the ranges `r.1` is complete (R150), their walks made. -/
def Env.invalidates (e : Env) (scope : Nat) (r : List (Nat × Nat) × State) : Env :=
  { e with s := r.2, g := { e.g with wait := .icinv (r.2.gtc + icinvBound scope) scope (some r.1) } }

section
variable {s : State} {g : Group} {b : Block} {x : Ext}

/-- R150: ICINV of a range stalls its group over the ranges that the group's own core translates. -/
theorem icinv_ends (hfull : Full 26 5 x (envOf s g b (lenExt x))) (hrel : (envAt { len := lenExt x } s g b).released = true)
    {va n : Nat} (hva : ((envOf s g b (lenExt x)).srcU x.lit x.a).toNat = va)
    (hn : ((envOf s g b (lenExt x)).srcU x.lit x.b).toNat = n) (hpos : n ≠ 0) (hlt : n < 4294967296) :
    Ends (.icinv x) { len := lenExt x } s g b
      ((envAt { len := lenExt x } s g b).invalidates (x.imm8.toNat % 8) (icinvRanges s b.owner g.core va n)) := by
  have hrange : (n = 0 || 2 ^ 32 ≤ n) = false := by simp [hpos, hlt]
  have hexec : exec (.icinv x) s = execIcinv x s := rfl
  unfold execIcinv at hexec
  refine ends_ext hexec hfull ?_
  simp only [hrel, envAt_srcU, hva, hn, hrange, Bool.not_true, Bool.false_eq_true, if_false]
  rw [← envAt_core { len := lenExt x } s g b]
  rfl

end

/-- A leaf for page 0 that a walk for field 0 has cached, but of no core yet. -/
def fieldLeaf : TlbEntry := { owner := 0, field := 0, page := 0, npages := 1, pa := 0, r := true, w := false, x := true, ca := false }

/-- A group on core 1, which lies in field 0, of a module whose field 0 holds that leaf. -/
def core1Block : Block := { ref := ⟨0, 0⟩, lead := 1 }
def core1Group : Group := { ref := ⟨0, 0, 0⟩, core := 1 }
def core1State : State :=
  { State.reset.setOwner 0 { en := true } with
    cur := some ⟨0, 0, 0⟩, groups := [core1Group], blocks := [core1Block], tlb := [fieldLeaf] }

/-- ICINV of the byte at address 0, at FIELD scope. -/
def icinvByte : Ext := { a := 576, b := 577, imm8 := 2 }
def icinvByteInfo : IssueInfo := { len := lenExt icinvByte }

theorem core1_ready : Ready icinvByteInfo core1State core1Group core1Block where
  group := by decide
  block := by decide
  alive := rfl
  sound := rfl
  placed := rfl
  regions := fun _ => by decide
  role := fun _ h => by cases h
  waiting := fun h => by cases h
  unstalled := rfl
  fenced := fun h => by cases h

theorem core1_full : Full 26 5 icinvByte (envOf core1State core1Group core1Block (lenExt icinvByte)) :=
  ⟨_, rfl, by decide⟩

theorem core1_released : (envAt icinvByteInfo core1State core1Group core1Block).released = true := by decide

theorem core1_va : ((envOf core1State core1Group core1Block (lenExt icinvByte)).srcU icinvByte.lit icinvByte.a).toNat = 0 := by decide
theorem core1_n : ((envOf core1State core1Group core1Block (lenExt icinvByte)).srcU icinvByte.lit icinvByte.b).toNat = 1 := by decide

/-- The walk of core `c` of field 0 leaves the leaf in the TLB of that core. -/
theorem core1_ranges_tlb : ∀ c ∈ [0, 1], (icinvRanges core1State 0 c 0 1).2.tlb = [{ fieldLeaf with core := some c }, fieldLeaf] := by
  decide

theorem core1_room : Room core1State core1Group (envAt icinvByteInfo core1State core1Group core1Block).g := by
  unfold Room
  decide

/-- The issue of ICINV where core `c` makes the walk. -/
def core1After (c : Nat) : Env :=
  (envAt icinvByteInfo core1State core1Group core1Block).invalidates 2 (icinvRanges core1State 0 c 0 1)

theorem core1After_room (c : Nat) : Room core1State core1Group (core1After c).g := core1_room

/-- It issues to a state whose TLBs name core `c`. -/
theorem core1After_tlb {c : Nat} (hc : c ∈ [0, 1])
    (h : Ends (.icinv icinvByte) icinvByteInfo core1State core1Group core1Block (core1After c)) :
    ∃ t, exec (.icinv icinvByte) core1State = .next t ∧ t.tlb = [{ fieldLeaf with core := some c }, fieldLeaf] :=
  ⟨_, h core1_ready (core1After_room c), core1_ranges_tlb c hc⟩

/-- Refutes O30: its clause of ICINV has the group's field number stand for its core. In `core1State` the group's core is core 1,
and the walk leaves the leaf in that core's TLB; the clause has it in the TLB of core 0. -/
theorem not_taskResult : ¬ Obligations.TaskResult := by
  unfold Obligations.TaskResult
  intro h
  obtain ⟨-, -, -, hicinv⟩ := h core1State core1Group core1Block icinvByte [] (envOf core1State core1Group core1Block 0)
  have hclaim := hicinv core1_full core1_released
  rw [core1_n, core1_va, if_neg (by decide)] at hclaim
  have hexec := icinv_ends core1_full core1_released core1_va core1_n (by decide) (by decide)
  obtain ⟨t, ht, htlb⟩ := core1After_tlb (c := 1) (by decide) hexec
  obtain ⟨u, hu, hutlb⟩ := core1After_tlb (c := 0) (by decide) hclaim
  have htu : t = u := Host.Outcome.next.inj (ht.symm.trans hu)
  exact absurd (htlb.symm.trans ((congrArg State.tlb htu).trans hutlb)) (by decide)

end Sys2Proof.Machine

namespace Sys2Proof.Machine

open Sys2Proof

/-! ## What the shared operations leave: changes by name, answers, performed writes, walks -/

/-- What every step of a fold keeps, the fold keeps. -/
theorem foldl_keeps {σ α β : Type} (f : σ → α) {op : σ → β → σ} (h : ∀ s x, f (op s x) = f s) (l : List β) (s : σ) :
    f (l.foldl op s) = f s := by
  induction l generalizing s with
  | nil => rfl
  | cons x l ih => rw [List.foldl_cons, ih, h]

/-- A search by key where the elements of one key have been changed, their key kept. -/
theorem find?_map_key {α κ : Type} [DecidableEq κ] (key : α → κ) (l : List α) (r q : κ) {f : α → α}
    (hf : ∀ x, key (f x) = key x) :
    (l.map fun x => if key x = r then f x else x).find? (fun x => key x = q) =
      (l.find? fun x => key x = q).map fun x => if key x = r then f x else x := by
  rw [List.find?_map]
  congr 2
  funext x
  by_cases h : key x = r <;> simp [h, hf]

theorem State.group?_modGroup (s : State) (r q : GroupRef) {f : Group → Group} (hf : ∀ g, (f g).ref = g.ref) :
    (s.modGroup r f).group? q = (s.group? q).map fun g => if g.ref = r then f g else g :=
  find?_map_key Group.ref s.groups r q hf

theorem State.block?_modBlock (s : State) (r q : BlockRef) {f : Block → Block} (hf : ∀ b, (f b).ref = b.ref) :
    (s.modBlock r f).block? q = (s.block? q).map fun b => if b.ref = r then f b else b :=
  find?_map_key Block.ref s.blocks r q hf

theorem State.group?_ref {s : State} {r : GroupRef} {g : Group} (h : s.group? r = some g) : g.ref = r := findGroup_ref h

theorem State.block?_ref {s : State} {r : BlockRef} {b : Block} (h : s.block? r = some b) : b.ref = r := findBlock_ref h

/-- The changed group is found under its name. -/
theorem State.group?_modGroup_same {s : State} {r : GroupRef} {g : Group} (h : s.group? r = some g) {f : Group → Group}
    (hf : ∀ g, (f g).ref = g.ref) : (s.modGroup r f).group? r = some (f g) := by
  rw [s.group?_modGroup r r hf, h, Option.map_some, if_pos (State.group?_ref h)]

theorem State.block?_modBlock_same {s : State} {r : BlockRef} {b : Block} (h : s.block? r = some b) {f : Block → Block}
    (hf : ∀ b, (f b).ref = b.ref) : (s.modBlock r f).block? r = some (f b) := by
  rw [s.block?_modBlock r r hf, h, Option.map_some, if_pos (State.block?_ref h)]

/-! ### Answers (R308) -/

/-- An answer changes nothing but the results on their way, of which none is taken away. -/
def State.Answered (s t : State) : Prop := ∃ fs, t = { s with fills := s.fills ++ fs }

theorem State.Answered.refl (s : State) : s.Answered s := ⟨[], by rw [List.append_nil]⟩

theorem State.Answered.trans {s t u : State} (h : s.Answered t) (k : t.Answered u) : s.Answered u := by
  obtain ⟨fs, rfl⟩ := h
  obtain ⟨gs, rfl⟩ := k
  exact ⟨fs ++ gs, by rw [List.append_assoc]⟩

theorem State.answerFrom_answered (s : State) (r : GroupRef) (id : Nat) (pas : List Nat) (back : Bool) (vals : List RegVal)
    (fault : Option Trap) : s.Answered (s.answerFrom r id pas back vals fault) := by
  unfold State.answerFrom
  split
  · exact .refl s
  · simp only
    split <;> exact ⟨_, rfl⟩

theorem State.answer_answered (s : State) (r : GroupRef) (id pa : Nat) (vals : List RegVal) (fault : Option Trap) :
    s.Answered (s.answer r id pa vals fault) := s.answerFrom_answered r id [pa] true vals fault

/-- The result, the completion or the end of operation `id` of a group is on its way. -/
def State.Came (t : State) (id : Nat) (r : GroupRef) : Prop := ∃ f ∈ t.fills, f.id = id ∧ f.g = r ∧ f.closing = true

theorem State.Came.answered {s t : State} {id : Nat} {r : GroupRef} (h : s.Came id r) (ht : s.Answered t) : t.Came id r := by
  obtain ⟨f, hf, hid⟩ := h
  obtain ⟨fs, rfl⟩ := ht
  exact ⟨f, List.mem_append_left fs hf, hid⟩

theorem State.answerVia_came (s : State) (r : GroupRef) (id lat : Nat) (cells : List CellRef) (tags : List Tag) (vals : List RegVal)
    (fault : Option Trap) : (s.answerVia r id lat cells tags vals fault).Came id r :=
  ⟨_, List.mem_append_right _ (List.mem_singleton_self _), rfl, rfl, rfl⟩

theorem State.answerFrom_came {s : State} {r : GroupRef} {g : Group} (h : s.group? r = some g) (id : Nat) (pas : List Nat)
    (back : Bool) (vals : List RegVal) (fault : Option Trap) : (s.answerFrom r id pas back vals fault).Came id r := by
  unfold State.answerFrom
  rw [h]
  simp only
  split <;> exact State.answerVia_came ..

/-! ### Writes that perform (R360) -/

/-- Performed writes change memory, its keys and its poison, and what watches it: monitors, promotion records, the WAITs of the
queues; a monitor that ends answers. -/
def State.Performed (s t : State) : Prop :=
  ∃ mem keys poison promos monitors queues fs,
    t = { s with mem, keys, poison, promos, monitors, queues, fills := s.fills ++ fs }

theorem State.Performed.of_no_answer {s t : State}
    (h : { s with
      mem := t.mem, keys := t.keys, poison := t.poison, promos := t.promos, monitors := t.monitors, queues := t.queues } = t) :
    s.Performed t :=
  ⟨_, _, _, _, _, _, [], by rw [List.append_nil]; exact h.symm⟩

theorem State.Performed.refl (s : State) : s.Performed s := .of_no_answer rfl

theorem State.Performed.trans {s t u : State} (h : s.Performed t) (k : t.Performed u) : s.Performed u := by
  obtain ⟨_, _, _, _, _, _, fs, rfl⟩ := h
  obtain ⟨_, _, _, _, _, _, gs, rfl⟩ := k
  exact ⟨_, _, _, _, _, _, fs ++ gs, by rw [List.append_assoc]⟩

theorem State.Performed.foldl {β : Type} {op : State → β → State} (h : ∀ (s : State) x, s.Performed (op s x)) (l : List β) (s : State) :
    s.Performed (l.foldl op s) := by
  induction l generalizing s with
  | nil => exact .refl s
  | cons x l ih => exact (h s x).trans (ih _)

theorem State.evalMonitor_performed (s : State) (m : Monitor) : s.Performed (s.evalMonitor m) := by
  unfold State.evalMonitor State.endMonitor
  split
  · obtain ⟨fs, hfs⟩ := State.answer_answered { s with monitors := s.monitors.filter fun n => n.id ≠ m.id } m.g m.id m.pa
      (uVal (uDst m.dst) 0) none
    exact ⟨_, _, _, _, _, _, fs, hfs⟩
  · exact .of_no_answer rfl

theorem State.writeByte_performed (s : State) (key : Option KeyVal) (pa : Nat) (b : Byte) : s.Performed (s.writeByte key pa b) := by
  unfold State.writeByte
  split <;> exact .of_no_answer rfl

theorem State.foldl_writeByte_performed (key : Option KeyVal) (ws : List (Nat × Byte)) (s : State) :
    s.Performed (ws.foldl (fun s w => s.writeByte key w.1 w.2) s) := .foldl (fun s w => s.writeByte_performed key w.1 w.2) ws s

theorem State.performWrite_performed (s : State) (key : Option KeyVal) (ws : List (Nat × Byte)) :
    s.Performed (s.performWrite key ws) := by
  unfold State.performWrite
  split
  · exact .refl s
  · rename_i w rest
    have hsettle : s.Performed (s.settleSector (w.1 / 64)) := .foldl State.evalMonitor_performed _ s
    refine (hsettle.trans (State.foldl_writeByte_performed key (w :: rest) _)).trans ?_
    simp only
    split <;> exact .of_no_answer rfl

theorem State.performBytes_performed (s : State) (key : Option KeyVal) (pa : Nat) (bs : List Byte) :
    s.Performed (s.performBytes key pa bs) := .foldl (fun s _ => s.performWrite_performed key _) _ s

/-! ### Walks (R145, R290) -/

/-- Translations change nothing but what `State.walked` takes over: TLBs, the attributes of frames, the count of free values. -/
def State.Walked (s t : State) : Prop := s.walked t = t

theorem State.Walked.refl (s : State) : s.Walked s := rfl

theorem State.Walked.trans {s t u : State} (h : s.Walked t) (k : t.Walked u) : s.Walked u := by
  unfold State.Walked at h k
  rw [← h] at k
  exact k

theorem State.tlbTake_walked (s : State) (e : TlbEntry) : s.Walked (s.tlbTake e) := by
  unfold State.tlbTake
  simp only
  repeat' split
  all_goals rfl

theorem State.tlbHold_walked (s : State) (v : Viewer) (e : TlbEntry) : s.Walked (s.tlbHold v e) := by
  cases v with
  | core c => exact (s.tlbTake_walked e).trans (State.tlbTake_walked _ _)
  | unit f => exact s.tlbTake_walked e

/-- A walk records the uses of its frames; a leaf whose X is refused is not cached. -/
theorem State.frames_walked (s : State) (frames : List FrameUse) (refused : Bool) (v : Viewer) (e : TlbEntry) :
    s.Walked (if refused then { s with frames } else State.tlbHold { s with frames } v e) := by
  have h : s.Walked { s with frames } := rfl
  split
  · exact h
  · exact h.trans (State.tlbHold_walked _ v e)

theorem State.translateBy_walked (s : State) (v : Viewer) (owner va : Nat) : s.Walked (s.translateBy v owner va).2 := by
  unfold State.translateBy
  split
  · exact .refl s
  · split
    · exact .refl s
    · split
      · exact .refl s
      · split
        · cases v with
          | core c => exact s.tlbTake_walked _
          | unit f => exact .refl s
        · simp only
          split
          · exact .refl s
          · split
            · exact .refl s
            · exact s.frames_walked _ _ v _

/-- The state that an access leaves, whether it finds a place or not. -/
def placedState {α ε : Type} : Except (ε × State) (α × State) → State
  | .ok x => x.2
  | .error x => x.2

theorem placeScr_walked (s : State) (v : Viewer) (owner : Nat) (r w : Bool) (va : Nat) :
    s.Walked (placedState (placeScr s v owner r w va)) := by
  have h := s.translateBy_walked v owner va
  unfold placeScr
  split
  all_goals rename_i heq; rw [heq] at h
  · exact h
  · exact h
  · exact h
  · simp only
    split
    · exact h
    · split <;> exact h

end Sys2Proof.Machine

namespace Sys2Proof.Machine

open Sys2Proof

/-! ## Barriers (R393, R394, R396) -/

section
variable {s : State} {a : BarrierAt} {r : GroupRef} {g : Group}

/-- The place of a barrier stands: its block does; a launch's barrier stands with its TCB. -/
def State.hasBarrier (s : State) : BarrierAt → Prop
  | .block b _ => (s.block? b).isSome = true
  | .launch _ => True

/-- A change of what no barrier stands in leaves them all. -/
theorem State.barrier_congr {s t : State} (hb : t.blocks = s.blocks) (ht : t.tcbs = s.tcbs) (a : BarrierAt) :
    t.barrier a = s.barrier a := by
  cases a with
  | block b id => unfold State.barrier State.block?; rw [hb]
  | launch task => unfold State.barrier State.tcb; rw [ht]

theorem State.barrier_setBarrier (h : s.hasBarrier a) (x : Barrier) : (s.setBarrier x a).barrier a = x := by
  cases a with
  | block b id =>
    obtain ⟨y, hy⟩ := Option.isSome_iff_exists.1 h
    have hfound := State.block?_modBlock_same hy (f := fun y => { y with barriers := tset {} y.barriers id x }) fun _ => rfl
    show (match (s.modBlock b _).block? b with | some x => tget {} x.barriers id | none => {}) = x
    rw [hfound]
    exact tget_tset_same _ _ _ _
  | launch task => exact congrArg Tcb.lbar (State.tcb_setTcb_same s task _)

theorem State.hasBarrier_setBarrier (h : s.hasBarrier a) (x : Barrier) : (s.setBarrier x a).hasBarrier a := by
  cases a with
  | block b id =>
    obtain ⟨y, hy⟩ := Option.isSome_iff_exists.1 h
    exact Option.isSome_iff_exists.2 ⟨_, State.block?_modBlock_same hy fun _ => rfl⟩
  | launch task => trivial

/-- Nothing else of the state but blocks and TCBs holds barriers. -/
theorem State.setBarrier_rest (s : State) (x : Barrier) (a : BarrierAt) :
    (s.setBarrier x a).groups = s.groups ∧ (s.setBarrier x a).fills = s.fills ∧ (s.setBarrier x a).mem = s.mem := by
  cases a <;> exact ⟨rfl, rfl, rfl⟩

theorem Group.token_setToken (g : Group) (t : Option Nat) (a : BarrierAt) : (g.setToken t a).token a = t := by
  cases a with
  | block b id => exact tget_tset_same _ _ _ _
  | launch task => rfl

theorem Group.setToken_ref (g : Group) (t : Option Nat) (a : BarrierAt) : (g.setToken t a).ref = g.ref := by cases a <;> rfl
theorem Group.setToken_exited (g : Group) (t : Option Nat) (a : BarrierAt) : (g.setToken t a).exited = g.exited := by
  cases a <;> rfl

theorem State.answerBarrier_answered (s : State) (a : BarrierAt) (id : Nat) (r : GroupRef) (waited : Bool) :
    s.Answered (s.answerBarrier a id r waited) := by
  cases a with
  | block b n => exact ⟨_, rfl⟩
  | launch task => exact s.answerFrom_answered r id _ waited [] none

theorem State.answerBarrier_came (h : s.group? r = some g) (a : BarrierAt) (id : Nat) (waited : Bool) :
    (s.answerBarrier a id r waited).Came id r := by
  cases a with
  | block b n => exact s.answerVia_came ..
  | launch task => exact State.answerFrom_came h ..

theorem State.Answered.group? {s t : State} (h : s.Answered t) (r : GroupRef) : t.group? r = s.group? r := by
  obtain ⟨fs, rfl⟩ := h
  rfl

theorem State.Answered.barrier {s t : State} (h : s.Answered t) (a : BarrierAt) : t.barrier a = s.barrier a := by
  obtain ⟨fs, rfl⟩ := h
  exact State.barrier_congr rfl rfl a

theorem State.Answered.groups {s t : State} (h : s.Answered t) : t.groups = s.groups := by
  obtain ⟨fs, rfl⟩ := h
  rfl

theorem State.Answered.mem {s t : State} (h : s.Answered t) : t.mem = s.mem := by
  obtain ⟨fs, rfl⟩ := h
  rfl

/-- The waits that a release completes. -/
def State.endWaits (s : State) (a : BarrierAt) (ws : List (Nat × GroupRef × Nat)) : State :=
  ws.foldl (fun s w => s.answerBarrier a w.1 w.2.1 true) s

theorem State.endWaits_answered (a : BarrierAt) (ws : List (Nat × GroupRef × Nat)) (s : State) : s.Answered (s.endWaits a ws) := by
  induction ws generalizing s with
  | nil => exact .refl s
  | cons w ws ih => exact (s.answerBarrier_answered a w.1 w.2.1 true).trans (ih _)

/-- Each of them whose group stands is told. -/
theorem State.endWaits_came {a : BarrierAt} {ws : List (Nat × GroupRef × Nat)} {s : State} {w : Nat × GroupRef × Nat} (hw : w ∈ ws)
    (hg : s.group? w.2.1 = some g) : (s.endWaits a ws).Came w.1 w.2.1 := by
  induction ws generalizing s with
  | nil => cases hw
  | cons v ws ih =>
    have hstep := s.answerBarrier_answered a v.1 v.2.1 true
    rcases List.mem_cons.1 hw with rfl | hw
    · exact (State.answerBarrier_came hg a w.1 true).answered (State.endWaits_answered a ws _)
    · exact ih hw ((hstep.group? w.2.1).trans hg)

theorem State.slewFrom_eq (s : State) (fields : List Nat) (gen : Nat) : ∃ x, s.slewFrom fields gen = { s with fields := x } := by
  unfold State.slewFrom
  induction fields generalizing s with
  | nil => exact ⟨_, rfl⟩
  | cons f fs ih =>
    obtain ⟨x, hx⟩ := ih (s.modField f fun x => x.slewAfter s.gtc gen)
    exact ⟨x, hx⟩

/-! ### One arrival (R393) -/

/-- An arrival is counted, and its group holds the token of the generation. -/
def State.arrived (s : State) (a : BarrierAt) (r : GroupRef) (count : Nat) : State :=
  (s.setBarrier ((s.barrier a).arrive count) a).modGroup r fun g => g.setToken (some (s.barrier a).gen) a

/-- The generation that a group's wait is for: the one behind its token's, or the one to come. -/
def State.waitTarget (s : State) (a : BarrierAt) (r : GroupRef) : Nat :=
  match (s.group? r).bind fun g => g.token a with
  | some t => nextGen t
  | none => nextGen (s.barrier a).gen

/-- The same for a group, at a barrier of generation `gen`. -/
def Group.waitTarget (g : Group) (a : BarrierAt) (gen : Nat) : Nat :=
  match g.token a with
  | some t => nextGen t
  | none => nextGen gen

/-- The wait of a BAR or LBAR, which claims the group's token: it completes at once, or stands for the generation to come. -/
def State.awaited (s : State) (a : BarrierAt) (r : GroupRef) (id : Nat) : State :=
  let u := s.modGroup r fun g => g.setToken none a
  if s.waitTarget a r ≠ nextGen (s.barrier a).gen then u.answerBarrier a id r true
  else u.setBarrier { s.barrier a with waits := (s.barrier a).waits ++ [(id, r, s.waitTarget a r)] } a

/-! The three forms of R393: 0 arrives and waits, 1 arrives, 2 waits. -/

theorem State.performBarrier_both (s : State) (a : BarrierAt) (r : GroupRef) (id count : Nat) :
    s.performBarrier a r id 0 count = ((s.arrived a r count).checkBarrier a).awaited a r id := rfl
theorem State.performBarrier_arrival (s : State) (a : BarrierAt) (r : GroupRef) (id count : Nat) :
    s.performBarrier a r id 1 count = ((s.arrived a r count).checkBarrier a).answerBarrier a id r false := rfl
theorem State.performBarrier_wait (s : State) (a : BarrierAt) (r : GroupRef) (id count : Nat) :
    s.performBarrier a r id 2 count = s.awaited a r id := rfl

theorem State.barrier_arrived (h : s.hasBarrier a) (r : GroupRef) (count : Nat) :
    (s.arrived a r count).barrier a = (s.barrier a).arrive count :=
  (State.barrier_congr rfl rfl a).trans (State.barrier_setBarrier h _)

theorem State.hasBarrier_arrived (h : s.hasBarrier a) {r : GroupRef} {count : Nat} : (s.arrived a r count).hasBarrier a := by
  have hset := State.hasBarrier_setBarrier h ((s.barrier a).arrive count)
  cases a <;> exact hset

theorem State.group?_arrived (s : State) (a : BarrierAt) (r q : GroupRef) (count : Nat) :
    (s.arrived a r count).group? q = (s.group? q).map fun g => if g.ref = r then g.setToken (some (s.barrier a).gen) a else g := by
  refine (State.group?_modGroup _ r q fun g => g.setToken_ref _ a).trans ?_
  unfold State.group?
  rw [(s.setBarrier_rest _ a).1]

/-- Tokens are none of what "all" counts (R394). -/
theorem State.liveGroups_arrived (s : State) (a : BarrierAt) (r : GroupRef) (count : Nat) (p : GroupRef → Bool) :
    liveGroups ((s.arrived a r count).groups.filter fun g => p g.ref) = liveGroups (s.groups.filter fun g => p g.ref) := by
  have hgroups : (s.arrived a r count).groups =
      s.groups.map fun g => if g.ref = r then g.setToken (some (s.barrier a).gen) a else g := by
    unfold State.arrived State.modGroup
    rw [(s.setBarrier_rest _ a).1]
  rw [hgroups]
  unfold liveGroups
  simp only [List.filter_map, List.length_map, List.filter_filter]
  congr 2
  funext g
  simp only [Function.comp_apply]
  split <;> simp [Group.setToken_ref, Group.setToken_exited]

theorem State.barrierGroups_arrived (s : State) (a : BarrierAt) (r : GroupRef) (count : Nat) :
    (s.arrived a r count).barrierGroups a = s.barrierGroups a := by
  cases a with
  | block b id => exact s.liveGroups_arrived (.block b id) r count fun q => decide (blockOf q = b)
  | launch task => exact s.liveGroups_arrived (.launch task) r count fun q => decide (q.task = task)

/-- The count that an arrival is held against (R393). -/
def Barrier.want (b : Barrier) (all count : Nat) : Nat :=
  let n := if b.tally = 0 then count else b.count
  if n = 0 then all else n

/-- The barrier after its release: the next generation, and the waits for the one behind it. -/
def Barrier.released (b : Barrier) : Barrier :=
  { gen := nextGen b.gen, tally := 0, count := 0, waits := b.waits.filter fun w => w.2.2 = nextGen (nextGen b.gen) }

theorem Barrier.check_arrive_full {b : Barrier} {all count : Nat} (h : b.want all count ≤ b.tally + 1) :
    (b.arrive count).check all =
      (b.released, b.waits.filter fun w => w.2.2 ≠ nextGen (nextGen b.gen), some (nextGen b.gen)) := by
  unfold Barrier.want at h
  unfold Barrier.check Barrier.arrive
  rw [if_pos (by simpa using h)]
  rfl

theorem Barrier.check_arrive_short {b : Barrier} {all count : Nat} (h : ¬ b.want all count ≤ b.tally + 1) :
    (b.arrive count).check all = (b.arrive count, [], none) := by
  unfold Barrier.want at h
  unfold Barrier.check
  exact if_neg fun c => h (of_decide_eq_true (Bool.and_eq_true_iff.1 c).2)

/-- An arrival that does not make up the count releases nothing. -/
theorem State.checkBarrier_short (h : s.hasBarrier a) {count : Nat}
    (hshort : ¬ (s.barrier a).want (s.barrierGroups a) count ≤ (s.barrier a).tally + 1) :
    (s.arrived a r count).checkBarrier a = s.arrived a r count := by
  unfold State.checkBarrier
  rw [State.barrier_arrived h, s.barrierGroups_arrived, Barrier.check_arrive_short hshort]

/-- The arrival of state `u` that makes up the count of a barrier that stood as `old` leaves `t`: the barrier is released, and the
groups that stand are told of the waits it completes. -/
structure State.Releases (u t : State) (a : BarrierAt) (old : Barrier) : Prop where
  barrier : t.barrier a = old.released
  groups : t.groups = u.groups
  mem : t.mem = u.mem
  came : ∀ w ∈ old.waits, w.2.2 ≠ nextGen (nextGen old.gen) → ∀ g, u.group? w.2.1 = some g → t.Came w.1 w.2.1

theorem State.checkBarrier_full (h : s.hasBarrier a) {r : GroupRef} {count : Nat}
    (hfull : (s.barrier a).want (s.barrierGroups a) count ≤ (s.barrier a).tally + 1) :
    (s.arrived a r count).Releases ((s.arrived a r count).checkBarrier a) a (s.barrier a) := by
  have hbarrier := State.barrier_arrived h r count
  have hall := s.barrierGroups_arrived a r count
  have hplace : (s.arrived a r count).hasBarrier a := State.hasBarrier_arrived h
  generalize s.arrived a r count = u at hbarrier hall hplace ⊢
  unfold State.checkBarrier
  rw [hbarrier, hall, Barrier.check_arrive_full hfull]
  obtain ⟨x, hx⟩ := (u.setBarrier (s.barrier a).released a).slewFrom_eq (u.barrierFields a) (nextGen (s.barrier a).gen)
  obtain ⟨hgroups, -, hmem⟩ := u.setBarrier_rest (s.barrier a).released a
  simp only [hx]
  change u.Releases (State.endWaits _ a _) a _
  have hends := State.endWaits_answered a ((s.barrier a).waits.filter fun w => w.2.2 ≠ nextGen (nextGen (s.barrier a).gen))
    { u.setBarrier (s.barrier a).released a with fields := x }
  refine ⟨(hends.barrier a).trans ?_, hends.groups.trans hgroups, hends.mem.trans hmem, fun w hw hne g hg => ?_⟩
  · exact (State.barrier_congr rfl rfl a).trans (State.barrier_setBarrier hplace _)
  · refine State.endWaits_came (g := g) (List.mem_filter.2 ⟨hw, by simpa using hne⟩) ?_
    rw [← hg]
    exact congrArg (findGroup · _) hgroups

/-! ### Waits (R393) -/

/-- A wait leaves memory, and what is on its way. -/
theorem State.awaited_keeps (s : State) (a : BarrierAt) (r : GroupRef) (id : Nat) : (s.awaited a r id).mem = s.mem ∧
    ∀ n q, s.Came n q → (s.awaited a r id).Came n q := by
  unfold State.awaited
  simp only
  split
  · have h := State.answerBarrier_answered (s.modGroup r fun g => g.setToken none a) a id r true
    exact ⟨h.mem, fun n q hc => State.Came.answered (s := s.modGroup r fun g => g.setToken none a) hc h⟩
  · obtain ⟨-, hfills, hmem⟩ := State.setBarrier_rest (s.modGroup r fun g => g.setToken none a) _ a
    refine ⟨hmem, fun n q hc => ?_⟩
    unfold State.Came
    rw [hfills]
    exact hc

/-- A wait claims the token of its group. -/
theorem State.awaited_token (hg : s.group? r = some g) (id : Nat) : (s.awaited a r id).group? r = some (g.setToken none a) := by
  have hmod := State.group?_modGroup_same hg (f := fun g => g.setToken none a) fun g => g.setToken_ref none a
  unfold State.awaited
  simp only
  split
  · exact ((State.answerBarrier_answered _ a id r true).group? r).trans hmod
  · exact (congrArg (findGroup · r) (State.setBarrier_rest _ _ a).1).trans hmod

/-- A wait whose target is not the generation to come completes at once. -/
theorem State.awaited_passes (hg : s.group? r = some g) (id : Nat) (ht : s.waitTarget a r ≠ nextGen (s.barrier a).gen) :
    (s.awaited a r id).Came id r ∧ (s.awaited a r id).barrier a = s.barrier a := by
  have hmod := State.group?_modGroup_same hg (f := fun g => g.setToken none a) fun g => g.setToken_ref none a
  unfold State.awaited
  simp only [if_pos ht]
  exact ⟨State.answerBarrier_came hmod a id true,
    ((State.answerBarrier_answered _ a id r true).barrier a).trans (State.barrier_congr rfl rfl a)⟩

/-- Any other stands. -/
theorem State.awaited_stands (h : s.hasBarrier a) (id : Nat) (ht : s.waitTarget a r = nextGen (s.barrier a).gen) :
    (s.awaited a r id).barrier a = { s.barrier a with waits := (s.barrier a).waits ++ [(id, r, s.waitTarget a r)] } := by
  unfold State.awaited
  simp only [if_neg (not_not.2 ht)]
  refine State.barrier_setBarrier ?_ _
  cases a <;> exact h

theorem nextGen_nextGen_ne (n : Nat) : nextGen n ≠ nextGen (nextGen n) := by
  unfold nextGen
  omega

theorem State.arrived_mem (s : State) (a : BarrierAt) (r : GroupRef) (count : Nat) : (s.arrived a r count).mem = s.mem :=
  (s.setBarrier_rest _ a).2.2

theorem State.checkBarrier_mem (h : s.hasBarrier a) (r : GroupRef) (count : Nat) :
    ((s.arrived a r count).checkBarrier a).mem = s.mem := by
  by_cases hfull : (s.barrier a).want (s.barrierGroups a) count ≤ (s.barrier a).tally + 1
  · exact (State.checkBarrier_full h hfull).mem.trans (s.arrived_mem a r count)
  · rw [State.checkBarrier_short h hfull, s.arrived_mem]

/-- The group that has arrived holds the token of the generation, whether its arrival releases the barrier or not. -/
theorem State.group?_checkBarrier (h : s.hasBarrier a) (hg : s.group? r = some g) (count : Nat) :
    ((s.arrived a r count).checkBarrier a).group? r = some (g.setToken (some (s.barrier a).gen) a) := by
  have harrived : (s.arrived a r count).group? r = some (g.setToken (some (s.barrier a).gen) a) := by
    rw [s.group?_arrived, hg, Option.map_some, if_pos (State.group?_ref hg)]
  by_cases hfull : (s.barrier a).want (s.barrierGroups a) count ≤ (s.barrier a).tally + 1
  · rw [← harrived]
    exact congrArg (findGroup · r) (State.checkBarrier_full h hfull).groups
  · rw [State.checkBarrier_short h hfull, harrived]

/-- The arrival that makes up the count: the barrier, and the waits of the groups that stand. -/
theorem State.checkBarrier_releases (h : s.hasBarrier a) {count : Nat}
    (hfull : (s.barrier a).want (s.barrierGroups a) count ≤ (s.barrier a).tally + 1) :
    ((s.arrived a r count).checkBarrier a).barrier a = (s.barrier a).released ∧
      ((∀ w ∈ (s.barrier a).waits, ∃ h, s.group? w.2.1 = some h) →
        ∀ w ∈ (s.barrier a).waits, w.2.2 ≠ nextGen (nextGen (s.barrier a).gen) →
          ((s.arrived a r count).checkBarrier a).Came w.1 w.2.1) := by
  have hrel := State.checkBarrier_full h (r := r) hfull
  refine ⟨hrel.barrier, fun hstand w hw hne => ?_⟩
  obtain ⟨g, hg⟩ := hstand w hw
  exact hrel.came w hw hne _ (by rw [s.group?_arrived, hg, Option.map_some])

theorem State.waitTarget_eq (hg : s.group? r = some g) : s.waitTarget a r = g.waitTarget a (s.barrier a).gen := by
  unfold State.waitTarget
  rw [hg]
  rfl

/-- Whatever form: it leaves memory. -/
theorem State.performBarrier_mem (h : s.hasBarrier a) (id : Nat) {form : Nat} (count : Nat) (hform : form < 3) :
    (s.performBarrier a r id form count).mem = s.mem := by
  match form, hform with
  | 0, _ => rw [s.performBarrier_both, (State.awaited_keeps _ a r id).1, State.checkBarrier_mem h r count]
  | 1, _ => rw [s.performBarrier_arrival, (State.answerBarrier_answered _ a id r false).mem, State.checkBarrier_mem h r count]
  | 2, _ => rw [s.performBarrier_wait, (s.awaited_keeps a r id).1]

/-- What the arrival or the wait of a group at a barrier does, by its form (R393): 0 arrives and waits, 1 arrives, 2 waits. -/
theorem State.performBarrier_spec (h : s.hasBarrier a) {all : Nat} (hall : s.barrierGroups a = all) (r : GroupRef) (g : Group)
    (id count : Nat) {form : Nat} (hform : form < 3) :
    let old := s.barrier a
    let full := old.want all count ≤ old.tally + 1
    let t := s.performBarrier a r id form count
    t.mem = s.mem ∧
      (form = 0 ∨ form = 1 → full → s.group? r = some g → t.barrier a = old.released) ∧
      (form = 0 ∨ form = 1 → full → (∀ w ∈ old.waits, ∃ h, s.group? w.2.1 = some h) →
        ∀ w ∈ old.waits, w.2.2 ≠ nextGen (nextGen old.gen) → t.Came w.1 w.2.1) ∧
      (form = 0 ∨ form = 1 → full → s.group? r = some g → t.Came id r) ∧
      (form = 1 → ¬ full → t.barrier a = old.arrive count) ∧
      (form = 1 → s.group? r = some g → t.Came id r ∧ (t.group? r).bind (·.token a) = some old.gen) ∧
      (form = 0 → ¬ full → s.group? r = some g → t.barrier a =
        { old.arrive count with waits := old.waits ++ [(id, r, nextGen old.gen)] }) ∧
      (form = 0 ∨ form = 2 → s.group? r = some g → ∃ h, t.group? r = some h ∧ h.token a = none) ∧
      (form = 2 → s.group? r = some g →
        (g.waitTarget a old.gen ≠ nextGen old.gen → t.Came id r ∧ t.barrier a = old) ∧
        (g.waitTarget a old.gen = nextGen old.gen →
          t.barrier a = { old with waits := old.waits ++ [(id, r, g.waitTarget a old.gen)] })) := by
  subst hall
  intro old full t
  -- after the arrival and the check of its count
  let u := (s.arrived a r count).checkBarrier a
  have htoken (hg : s.group? r = some g) : u.group? r = some (g.setToken (some old.gen) a) := State.group?_checkBarrier h hg count
  have htarget (hg : s.group? r = some g) : u.waitTarget a r = nextGen old.gen := by
    rw [State.waitTarget_eq (htoken hg), Group.waitTarget, Group.token_setToken]
  have hpasses (hfull : full) (hg : s.group? r = some g) :=
    State.awaited_passes (htoken hg) id (a := a) (by
      rw [htarget hg, (State.checkBarrier_releases h hfull).1]
      exact nextGen_nextGen_ne old.gen)
  refine ⟨State.performBarrier_mem h id count hform, ?_, ?_, ?_, ?_, ?_, ?_, ?_, ?_⟩
  · rintro (rfl | rfl) hfull hg
    · exact (hpasses hfull hg).2.trans (State.checkBarrier_releases h hfull).1
    · exact ((State.answerBarrier_answered u a id r false).barrier a).trans (State.checkBarrier_releases h hfull).1
  · rintro (rfl | rfl) hfull hstand w hw hne
    · exact (u.awaited_keeps a r id).2 _ _ ((State.checkBarrier_releases h hfull).2 hstand w hw hne)
    · exact ((State.checkBarrier_releases h hfull).2 hstand w hw hne).answered (State.answerBarrier_answered u a id r false)
  · rintro (rfl | rfl) hfull hg
    · exact (hpasses hfull hg).1
    · exact State.answerBarrier_came (htoken hg) a id false
  · rintro rfl hshort
    refine ((State.answerBarrier_answered u a id r false).barrier a).trans ?_
    rw [show u = s.arrived a r count from State.checkBarrier_short h hshort, State.barrier_arrived h]
  · rintro rfl hg
    refine ⟨State.answerBarrier_came (htoken hg) a id false, ?_⟩
    rw [show t.group? r = _ from ((State.answerBarrier_answered u a id r false).group? r).trans (htoken hg)]
    exact Group.token_setToken g _ a
  · rintro rfl hshort hg
    have hu : u = s.arrived a r count := State.checkBarrier_short h hshort
    have hbarrier : u.barrier a = old.arrive count := by rw [hu, State.barrier_arrived h]
    have hplace : u.hasBarrier a := hu ▸ State.hasBarrier_arrived h
    refine (State.awaited_stands hplace id ?_).trans ?_
    · rw [htarget hg, hbarrier]
      rfl
    · rw [htarget hg, hbarrier]
      rfl
  · rintro (rfl | rfl) hg
    · exact ⟨_, State.awaited_token (htoken hg) id, Group.token_setToken _ none a⟩
    · exact ⟨_, State.awaited_token hg id, Group.token_setToken _ none a⟩
  · rintro rfl hg
    rw [← State.waitTarget_eq hg]
    exact ⟨fun ht => State.awaited_passes hg id ht, fun ht => State.awaited_stands h id ht⟩

end

/-- The groups that "all" counts have not exited (R394). -/
theorem liveGroups_eq (gs : List Group) : liveGroups gs = (gs.filter fun g => g.exited = false).length := by
  unfold liveGroups
  congr 2
  funext g
  cases g.exited <;> rfl

theorem liveGroups_filter (gs : List Group) (p : Group → Prop) [DecidablePred p] :
    liveGroups (gs.filter fun g => p g) = (gs.filter fun g => p g ∧ g.exited = false).length := by
  rw [liveGroups_eq, List.filter_filter]
  congr 2
  funext g
  by_cases h : p g <;> simp [h]

end Sys2Proof.Machine

namespace Sys2Proof.Machine

open Sys2Proof

/-! ## The events in which synchronisation requests perform -/

section
variable {s : State} {id : Nat} {p : Pending}

theorem State.pending?_id (h : s.pending? id = some p) : p.id = id := by
  have h := List.find?_some h
  simpa using h

theorem State.group?_dropPending (s : State) (id : Nat) (r : GroupRef) : (s.dropPending id).group? r = s.group? r := rfl

theorem exec_barrierArrival_bar (hp : s.pending? id = some p) (hmay : s.mayPerform p = true) {n form count : Nat}
    (hreq : p.req = .bar n form count) : exec (.barrierArrival id) s =
      .next ((s.dropPending id).performBarrier (.block (blockOf p.g) n) p.g id form count) := by
  change execBarrierArrival id s = _
  simp [execBarrierArrival, hp, hmay, hreq]

theorem exec_barrierArrival_lbar (hp : s.pending? id = some p) (hmay : s.mayPerform p = true) {form count : Nat}
    (hreq : p.req = .lbar form count) : exec (.barrierArrival id) s =
      .next ((s.dropPending id).performBarrier (.launch p.g.task) p.g id form count) := by
  change execBarrierArrival id s = _
  simp [execBarrierArrival, hp, hmay, hreq]

/-! ### Courses (R399) -/

theorem tget_tset {α : Type} [DecidableEq α] (d : α) (t : Table α) (i j : Nat) (v : α) :
    tget d (tset d t i v) j = if j = i then v else tget d t j := by
  by_cases h : j = i
  · rw [if_pos h, h, tget_tset_same]
  · rw [if_neg h, tget_tset_other d t v (Ne.symm h)]

/-- A byte of the bench memory after a stage of a course has counted down. -/
theorem Block.bench_courseStep (b : Block) (off st phase a : Nat) :
    let o := off + 16 + 8 * st
    let left : Nat := ((tget 0 b.bench (o + phase)).toNat + 255) % 256
    tget 0 (b.courseStep off st phase).bench a =
      if a = o + phase then (if left = 0 then tget 0 b.bench (off + 1 + phase) else BitVec.ofNat 8 left)
      else if a = o + 2 ∧ left = 0 then tget 0 b.bench (o + 2) ^^^ BitVec.ofNat 8 (2 ^ phase)
      else tget 0 b.bench a := by
  intro o left
  have hbyte (x : Byte) : BitVec.ofNat 8 x.toNat = x := by rw [BitVec.ofNat_toNat, BitVec.setWidth_eq]
  have hstep : b.courseStep off st phase = if left = 0 then
      (b.setBenchByte (o + 2) (b.benchByte (o + 2) ^^^ 2 ^ phase)).setBenchByte (o + phase) (b.benchByte (off + 1 + phase))
    else b.setBenchByte (o + phase) left := rfl
  have hbench (x : Block) (n v : Nat) : (x.setBenchByte n v).bench = tset 0 x.bench n (BitVec.ofNat 8 v) := rfl
  rw [hstep]
  by_cases hleft : left = 0
  · rw [if_pos hleft, if_pos hleft]
    simp only [hbench, tget_tset, Block.benchByte, BitVec.ofNat_xor, hbyte, hleft, and_true]
  · rw [if_neg hleft, if_neg hleft]
    simp only [hbench, tget_tset, hleft, and_false, if_false]

/-- A stage of a course of the group's block has counted down. -/
def State.coursed (s : State) (r : GroupRef) (id off st phase : Nat) : State :=
  (s.dropPending id).modBlock (blockOf r) fun b => b.courseStep off st phase

theorem Block.courseStep_ref (b : Block) (off st phase : Nat) : (b.courseStep off st phase).ref = b.ref := by
  unfold Block.courseStep
  simp only
  split <;> rfl

theorem State.block?_coursed {c : Block} (r : GroupRef) (h : s.block? (blockOf r) = some c) (id off st phase : Nat) :
    (s.coursed r id off st phase).block? (blockOf r) = some (c.courseStep off st phase) :=
  State.block?_modBlock_same (s := s.dropPending id) h fun b => b.courseStep_ref off st phase

theorem exec_courseUpdate_csarv (hp : s.pending? id = some p) (hmay : s.mayPerform p = true) {off st : Nat}
    (hreq : p.req = .csarv off st) :
    exec (.courseUpdate id) s = .next ((s.coursed p.g id off st 0).answerBench p.g id).sendReady := by
  change execCourseUpdate id s = _
  simp [execCourseUpdate, hp, hmay, hreq, State.coursed]

theorem exec_courseUpdate_csrel (hp : s.pending? id = some p) (hmay : s.mayPerform p = true) {off st : Nat}
    (hreq : p.req = .csrel off st) : exec (.courseUpdate id) s = .next (s.coursed p.g id off st 1).sendReady := by
  change execCourseUpdate id s = _
  simp [execCourseUpdate, hp, hmay, hreq, State.coursed]

/-! ### Atomics (R383) -/

/-- The one lane of an ATOM of 64 bits in group mode, whose location no poison marks. -/
theorem State.atomSteps_one (owner op pa : Nat) (slot : Option Nat) (va x c : W64) (hclean : s.poisonAt pa 8 = false) :
    s.atomSteps owner op 64 [(slot, pa, va, x, c)] =
      ([((slot, pa, va, x, c), some (s.valueAt (some (s.keyAt owner pa)) pa 8))],
        s.performBytes (some (s.keyAt owner pa)) pa
          (leBytes 8 (atomNew op 64 (s.valueAt (some (s.keyAt owner pa)) pa 8) x.toNat c.toNat))) := by
  have hx : x.toNat % 2 ^ 64 = x.toNat := Nat.mod_eq_of_lt x.isLt
  have hc : c.toNat % 2 ^ 64 = c.toNat := Nat.mod_eq_of_lt c.isLt
  simp only [State.atomSteps, State.atomStep, Nat.reduceDiv, hclean, Bool.false_eq_true, if_false, hx, hc]

theorem State.Performed.group? {t : State} (h : s.Performed t) (r : GroupRef) : t.group? r = s.group? r := by
  obtain ⟨_, _, _, _, _, _, fs, rfl⟩ := h
  rfl

/-- The result of an ATOM in group mode whose lane found a value, where no record is kept of it. -/
theorem State.atomDone_one {g : Group} (hg : s.group? p.g = some g) (slot : Option Nat) (pa dst old : Nat) (va x c : W64)
    {scope : Nat} (hscope : 4 ≤ scope) :
    s.atomDone p true true false scope dst [((slot, pa, va, x, c), some old)] = s.answer p.g p.id pa (uVal (uDst dst) old) none := by
  have hkeep : ¬ scope < 4 := by omega
  simp [State.atomDone, hg, hkeep, atomVals, State.answer]

theorem exec_atomicPerform_one {g : Group} (hp : s.pending? id = some p) (hmay : s.mayPerform p = true)
    (hg : s.group? p.g = some g) (hgot : p.got = []) {d op scope slot pa dst} {va x c : W64} (hdues : p.dues = [d])
    (hreq : p.req = .atom op true scope true [(slot, pa, va, x, c)] (some dst) false) (hclean : s.poisonAt pa 8 = false)
    (hscope : 4 ≤ scope) :
    let key := some (s.keyAt (s.ownerOf p.g) pa)
    let old := s.valueAt key pa 8
    exec (.atomicPerform id) s = .next ((((s.performBytes key pa
      (leBytes 8 (atomNew op 64 old x.toNat c.toNat))).dropPending id).answer p.g id pa (uVal (uDst dst) old) none)).sendReady := by
  intro key old
  change execAtomicPerform id s = _
  have hlane : s.laneReady p ((slot, pa, va, x, c), d) = true := by
    have h := (Bool.and_eq_true_iff.1 hmay).2
    simpa [hreq, hdues] using h
  have hfound : ((s.performBytes key pa (leBytes 8 (atomNew op 64 old x.toNat c.toNat))).dropPending id).group? p.g = some g := by
    rw [State.group?_dropPending, (s.performBytes_performed key pa _).group?, hg]
  have hdone := State.atomDone_one (p := p) hfound slot pa dst old va x c hscope
  rw [State.pending?_id hp] at hdone
  have hsteps := State.atomSteps_one (s.ownerOf p.g) op pa slot va x c hclean
  change _ = (_, s.performBytes key pa (leBytes 8 (atomNew op 64 old x.toNat c.toNat))) at hsteps
  have hshuffle (draw : Nat) (l : AtomLane) : shuffle draw [l].length [l] = [l] := rfl
  unfold execAtomicPerform
  simp only [hp, hreq, hmay, hdues, hgot, List.zip_cons_cons, List.zip_nil_right, Bool.not_true, Bool.false_eq_true, if_false,
    List.filter_cons, hlane, if_true, List.filter_nil, List.map_cons, List.map_nil, hshuffle, hsteps, List.isEmpty_nil,
    List.nil_append, Option.getD_some]
  rw [hdone]

/-! ### Monitors (R386) -/

theorem exec_waitcPerform_taken (hp : s.pending? id = some p) (hmay : s.mayPerform p = true)
    {va pa cc wide scope ref mask timeout dst ovf} (hreq : p.req = .waitc va pa cc wide scope ref mask timeout dst)
    (hroom : s.syncRoom false pa = some ovf) :
    let u := (s.dropPending id).settleSector (pa / 64)
    let m : Monitor := { id, g := p.g, pa, cc, wide, ref, mask, dst, va, ovf, owner := s.ownerOf p.g,
                         deadline := if timeout = 0 then none else some (s.gtc + timeout) }
    exec (.waitcPerform id) s = .next ({ u with monitors := u.monitors ++ [m] }.evalMonitor m) := by
  change execWaitcPerform id s = _
  simp only [execWaitcPerform, hp, hmay, hreq, hroom, Bool.not_true, Bool.false_eq_true, if_false]

theorem exec_monitorEvaluate_holds {m : Monitor} (hm : s.monitors.find? (fun m => m.id = id) = some m) (hdirty : m.dirty = true)
    (hholds : m.holds s = true) : exec (.monitorEvaluate id) s = .next (s.endMonitor m 0) := by
  change execMonitorEvaluate id s = _
  simp only [execMonitorEvaluate, hm, hdirty, State.evalMonitor, hholds, if_true]

theorem exec_waitcTimeout_expired {m : Monitor} {e : Nat} (hm : s.monitors.find? (fun m => m.id = id) = some m)
    (hdeadline : m.deadline = some e) (he : e ≤ s.gtc) :
    exec (.waitcTimeout id) s = .next (s.endMonitor m (if m.holds s then 0 else 1)) := by
  change execWaitcTimeout id s = _
  simp only [execWaitcTimeout, hm, hdeadline, Option.any_some, he, decide_true, Bool.not_true, Bool.false_eq_true, if_false]
  cases m.holds s <;> rfl

/-! ### Locks (R387, R388) -/

theorem exec_lockPerform_free (hp : s.pending? id = some p) (hmay : s.mayPerform p = true) {va pa scope ovf}
    (hreq : p.req = .qlock va pa scope) (hfree : s.lockAt (s.ownerOf p.g) pa = none) (hroom : s.syncRoom true pa = some ovf) :
    let s0 := s.dropPending id
    exec (.lockPerform id) s =
      .next ({ s0 with locks := { owner := s.ownerOf p.g, pa, holder := p.g, ovf } :: s0.locks }.answer p.g id pa [] none) := by
  change execLockPerform id s = _
  simp only [execLockPerform, hp, hmay, hreq, hfree, hroom, Bool.not_true, Bool.false_eq_true, if_false]

theorem exec_lockPerform_held (hp : s.pending? id = some p) (hmay : s.mayPerform p = true) {va pa scope l}
    (hreq : p.req = .qlock va pa scope) (hheld : s.lockAt (s.ownerOf p.g) pa = some l) (hother : l.holder ≠ p.g) :
    let s0 := s.dropPending id
    let own := s.ownerOf p.g
    exec (.lockPerform id) s = .next { s0 with locks := s0.locks.map fun k =>
      if k.owner = own && k.pa = pa then { k with fifo := k.fifo ++ [(id, p.g)] } else k } := by
  change execLockPerform id s = _
  simp only [execLockPerform, hp, hmay, hreq, hheld, hother, Bool.not_true, Bool.false_eq_true, if_false]

theorem exec_lockPerform_unlock (hp : s.pending? id = some p) (hmay : s.mayPerform p = true) {va pa scope l}
    (hreq : p.req = .qunlk va pa scope) (hheld : s.lockAt (s.ownerOf p.g) pa = some l) (hown : l.holder = p.g) (hscope : 4 ≤ scope) :
    exec (.lockPerform id) s = .next (((s.dropPending id).handOn l).acknowledge p.g id pa) := by
  change execLockPerform id s = _
  have hkeep : ¬ scope < 4 := by omega
  simp only [execLockPerform, hp, hmay, hreq, hheld, hown, hkeep, Bool.not_true, Bool.false_eq_true, if_false, ne_eq,
    not_true_eq_false]

/-! ### Spawned tasks and their parents (R121, R124) -/

theorem exec_spawnPerform_full {g : Group} (hp : s.pending? id = some p) (hmay : s.mayPerform p = true) {r dst}
    (hreq : p.req = .spawn r dst) (hg : s.group? p.g = some g)
    (hfull : (s.dropPending id).freeTcb (dieOfCore g.core) = none) :
    let s0 := s.dropPending id
    exec (.spawnPerform id) s =
      .next (s0.answer p.g id (s0.die (dieOfCore g.core)).tcbPool (uVal (uDst dst) 0xFFFFFFFF) none) := by
  change execSpawnPerform id s = _
  simp only [execSpawnPerform, hp, hmay, hreq, hg, hfull, Bool.not_true, Bool.false_eq_true, if_false]

theorem State.Answered.tcb {t : State} (h : s.Answered t) (n : Nat) : t.tcb n = s.tcb n := by
  obtain ⟨fs, rfl⟩ := h
  rfl

/-- The TCB of the child stands as its record says, and the child is created (R98). -/
theorem exec_spawnPerform_created {g : Group} (hp : s.pending? id = some p) (hmay : s.mayPerform p = true) {r dst n}
    (hreq : p.req = .spawn r dst) (hg : s.group? p.g = some g)
    (hfree : (s.dropPending id).freeTcb (dieOfCore g.core) = some n) :
    ∃ t, exec (.spawnPerform id) s = .next t ∧ t.tcb n = (s.childOf p.g r).created s.gtc s.nextId := by
  change ∃ t, execSpawnPerform id s = .next t ∧ _
  simp only [execSpawnPerform, hp, hmay, hreq, hg, hfree, Bool.not_true, Bool.false_eq_true, if_false]
  refine ⟨_, rfl, ?_⟩
  rw [(State.answer_answered _ _ _ _ _ _).tcb]
  split
  · exact State.tcb_setTcb_same { s.dropPending id with nextId := s.nextId + 1 } n ((s.childOf p.g r).created s.gtc s.nextId)
  · rw [State.tcb_setTcb_same]
    rfl

theorem exec_joinPerform_alone {b : Block} (hp : s.pending? id = some p) (hmay : s.mayPerform p = true) {dst}
    (hreq : p.req = .join dst) (hb : s.block? (blockOf p.g) = some b) (hchildren : b.children = 0) (hjoins : b.joins = []) :
    exec (.joinPerform id) s = .next (((s.dropPending id).modBlock b.ref fun x => { x with failed := 0 }).answer p.g id
      (s.tcbPa p.g.task) (uVal (uDst dst) b.failed) none) := by
  change execJoinPerform id s = _
  simp only [execJoinPerform, hp, hmay, hreq, hb, hchildren, hjoins, Bool.not_true, Bool.false_eq_true, if_false, decide_true,
    List.isEmpty_nil, Bool.and_true, if_true]

theorem exec_joinPerform_suspends {b : Block} (hp : s.pending? id = some p) (hmay : s.mayPerform p = true) {dst u}
    (hreq : p.req = .join dst) (hb : s.block? (blockOf p.g) = some b) (hchildren : b.children ≠ 0) (hplaced : b.state = .placed)
    (hstop : s.stopToSave b.ref 2 = some u) : exec (.joinPerform id) s = .next (u.waitJoin p dst) := by
  change execJoinPerform id s = _
  simp only [execJoinPerform, hp, hmay, hreq, hb, hchildren, hplaced, hstop, Bool.not_true, Bool.false_eq_true, if_false,
    decide_false, Bool.false_and, ne_eq, not_true_eq_false]

end

/-- Settles O46: each event is its execution's equation; for the barriers the rule of their arrivals and waits, in the state that
the request has left. -/
theorem syncEvents : Obligations.SyncEvents := by
  intro s id p g b ready own s0 came arrives steps
  refine ⟨?_, ?_, ?_, ?_, ?_, ?_, ?_, ?_, ?_, ?_, ?_, ?_, ?_⟩
  · rintro op scope slot pa va x c dst d ⟨hp, hmay⟩ hg hgot hdues hreq hclean hscope
    exact exec_atomicPerform_one hp hmay hg hgot hdues hreq hclean hscope
  · rintro va pa cc wide scope ref mask timeout dst ovf ⟨hp, hmay⟩ hreq hroom
    exact exec_waitcPerform_taken hp hmay hreq hroom
  · exact fun m hm hdirty hholds => exec_monitorEvaluate_holds hm hdirty hholds
  · exact fun m e hm hdeadline he => exec_waitcTimeout_expired hm hdeadline he
  · rintro va pa scope ovf ⟨hp, hmay⟩ hreq hfree hroom
    exact exec_lockPerform_free hp hmay hreq hfree hroom
  · rintro va pa scope l ⟨hp, hmay⟩ hreq hheld hother
    exact exec_lockPerform_held hp hmay hreq hheld hother
  · rintro va pa scope l ⟨hp, hmay⟩ hreq hheld hown hscope
    exact exec_lockPerform_unlock hp hmay hreq hheld hown hscope
  · rintro n form count ⟨hp, hmay⟩ hreq hb hform
    have hplace : (s.dropPending id).hasBarrier (.block (blockOf p.g) n) := Option.isSome_iff_exists.2 ⟨b, hb⟩
    exact ⟨_, exec_barrierArrival_bar hp hmay hreq,
      State.performBarrier_spec hplace (liveGroups_eq _) p.g g id count hform⟩
  · rintro form count ⟨hp, hmay⟩ hreq hform
    exact ⟨_, exec_barrierArrival_lbar hp hmay hreq,
      State.performBarrier_spec (s := s.dropPending id) (a := .launch p.g.task) trivial (liveGroups_filter _ _) p.g g id count hform⟩
  · rintro off st ⟨hp, hmay⟩ hreq
    have hcame : ((s.coursed p.g id off st 0).answerBench p.g id).sendReady.Came id p.g :=
      State.answerVia_came (s.coursed p.g id off st 0) ..
    exact ⟨_, exec_courseUpdate_csarv hp hmay hreq, fun c hc =>
      ⟨_, State.block?_coursed p.g hc id off st 0, c.bench_courseStep off st 0⟩, hcame, rfl⟩
  · rintro off st ⟨hp, hmay⟩ hreq
    exact ⟨_, exec_courseUpdate_csrel hp hmay hreq, fun c hc =>
      ⟨_, State.block?_coursed p.g hc id off st 1, c.bench_courseStep off st 1⟩, rfl⟩
  · rintro r dst ⟨hp, hmay⟩ hreq hg
    refine ⟨exec_spawnPerform_full hp hmay hreq hg, fun n hfree => ?_⟩
    obtain ⟨t, ht, htcb⟩ := exec_spawnPerform_created hp hmay hreq hg hfree
    refine ⟨t, ht, ?_⟩
    simp only [htcb]
    exact ⟨rfl, rfl, rfl, rfl, rfl, rfl, rfl, rfl, rfl, rfl, rfl, rfl⟩
  · rintro dst ⟨hp, hmay⟩ hreq hb
    exact ⟨exec_joinPerform_alone hp hmay hreq hb, fun u => exec_joinPerform_suspends hp hmay hreq hb⟩

end Sys2Proof.Machine

namespace Sys2Proof.Machine

open Sys2Proof

/-! ## What blocks take and give back -/

/-- The accounts of the hardware change at most, and what is on its way and recorded: fields, owners' pools, engines, copies,
locks, dies. -/
def State.Accounted (s t : State) : Prop :=
  { s with
    fields := t.fields, owners := t.owners, cores := t.cores, copies := t.copies, rangeLocks := t.rangeLocks, dies := t.dies,
    events := t.events, locks := t.locks, fills := t.fills } = t

theorem State.Accounted.refl (s : State) : s.Accounted s := rfl

theorem State.Accounted.trans {s t u : State} (h : s.Accounted t) (k : t.Accounted u) : s.Accounted u := by
  unfold State.Accounted at h k
  rw [← h] at k
  exact k

theorem State.Accounted.foldl {β : Type} {op : State → β → State} (h : ∀ (s : State) x, s.Accounted (op s x)) (l : List β)
    (s : State) : s.Accounted (l.foldl op s) := by
  induction l generalizing s with
  | nil => exact .refl s
  | cons x l ih => exact (h s x).trans (ih _)

section
variable {s t : State} (h : s.Accounted t)
include h

theorem State.Accounted.blocks : t.blocks = s.blocks := by rw [← h]
theorem State.Accounted.groups : t.groups = s.groups := by rw [← h]
theorem State.Accounted.tcbs : t.tcbs = s.tcbs := by rw [← h]
theorem State.Accounted.mem : t.mem = s.mem := by rw [← h]
theorem State.Accounted.queues : t.queues = s.queues := by rw [← h]

theorem State.Accounted.tcb (n : Nat) : t.tcb n = s.tcb n := by unfold State.tcb; rw [h.tcbs]

end

section
variable (s : State)

theorem State.setDie_accounted (n : Nat) (x : Die) : s.Accounted (s.setDie n x) := rfl
theorem State.setCore_accounted (n : Nat) (x : Core) : s.Accounted (s.setCore n x) := rfl
theorem State.endCopy_accounted (bench entry : Nat) (st : CopyState) : s.Accounted (s.endCopy bench entry st) := rfl

theorem State.record_accounted (r : EventRec) : s.Accounted (s.record r) := by
  unfold State.record
  simp only
  split <;> rfl

theorem State.Answered.accounted {s t : State} (h : s.Answered t) : s.Accounted t := by
  obtain ⟨fs, rfl⟩ := h
  rfl

theorem State.handOn_accounted (l : Lock) : s.Accounted (s.handOn l) := by
  unfold State.handOn
  split
  · rfl
  · rename_i id g fifo _
    let rest := s.locks.filter fun k => !(k.owner = l.owner && k.pa = l.pa)
    have hheld : s.Accounted { s with locks := { l with holder := g, fifo } :: rest } := rfl
    exact hheld.trans (State.answer_answered _ g id l.pa [] none).accounted

theorem State.abandonLocks_accounted (r : BlockRef) : s.Accounted (s.abandonLocks r) :=
  .foldl (fun s l => ((s.handOn_accounted l).trans (State.record_accounted _ _)).trans (State.setDie_accounted _ _ _)) _ s

theorem State.hold_accounted (owner lead : Nat) (k : Kernel) (spill : List Nat) : s.Accounted (s.hold owner lead k spill) := by
  unfold State.hold
  simp only
  split <;> rfl

theorem State.unhold_accounted (b : Block) : s.Accounted (s.unhold b) := by
  unfold State.unhold
  simp only
  split <;> rfl

theorem State.clearEngines_accounted (b : Block) : s.Accounted (s.clearEngines b) :=
  .foldl (fun s c => s.setCore_accounted c _) _ s

theorem State.endCopies_accounted (l : List (Nat × Copy)) (st : CopyState) :
    s.Accounted (l.foldl (fun s c => s.endCopy (c.1 / 64) (c.1 % 64) st) s) :=
  .foldl (fun s _ => s.endCopy_accounted _ _ st) l s

theorem State.finishPctl_accounted : s.Accounted s.finishPctl :=
  .foldl (fun s d => by split <;> rfl) [0, 1] s

/-- The stock of a die goes back at most: nothing but the task's TCB changes, and there the lists of R132. -/
theorem State.returnStock_eq (task die : Nat) (leaving : BlockRef) : ∃ returned stock,
    s.returnStock task die leaving = s.setTcb task { (s.tcb task) with returned, stock } ∨ s.returnStock task die leaving = s := by
  unfold State.returnStock
  split
  · exact ⟨[], [], .inr rfl⟩
  · exact ⟨_, _, .inl rfl⟩

theorem State.returnStock_keeps {α : Type} (f : State → α) (hf : ∀ s x, f { s with tcbs := x } = f s) (task die : Nat)
    (leaving : BlockRef) : f (s.returnStock task die leaving) = f s := by
  obtain ⟨returned, stock, h | h⟩ := s.returnStock_eq task die leaving
  · rw [h]
    exact hf s _
  · rw [h]

theorem State.tcb_returnStock (task die : Nat) (leaving : BlockRef) :
    ((s.returnStock task die leaving).tcb task).blkLeft = (s.tcb task).blkLeft ∧
      ((s.returnStock task die leaving).tcb task).state = (s.tcb task).state := by
  obtain ⟨returned, stock, h | h⟩ := s.returnStock_eq task die leaving
  · rw [h, State.tcb_setTcb_same]
    exact ⟨rfl, rfl⟩
  · rw [h]
    exact ⟨rfl, rfl⟩

end

/-! ## A block is saved (R434) -/

theorem State.Walked.blocks {s t : State} (h : s.Walked t) : t.blocks = s.blocks := by rw [← h]; rfl

theorem State.readSpill_walked (owner field va n : Nat) (s : State) : s.Walked (s.readSpill owner field va n).2 := by
  induction n generalizing s va with
  | zero => exact .refl s
  | succ n ih =>
    have hplace := placeScr_walked s (.unit field) owner true false va
    unfold State.readSpill
    simp only
    split
    all_goals
      rename_i heq
      rw [heq] at hplace
      exact hplace.trans (ih _ _)

theorem State.readSlots_walked (b : Block) (vas : List Nat) (s : State) : s.Walked (s.readSlots b vas).2 := by
  induction vas generalizing s with
  | nil => exact .refl s
  | cons va vas ih => exact (State.readSpill_walked ..).trans (ih _)

theorem State.Performed.blocks {s t : State} (h : s.Performed t) : t.blocks = s.blocks := by
  obtain ⟨_, _, _, _, _, _, fs, rfl⟩ := h
  rfl

theorem State.saveReady_of {s : State} {b : Block} {reason unit units due : Nat} (hstate : b.state = .saving reason unit units due)
    (hdue : due ≤ s.gtc) (hentries : ∀ q ∈ s.entries, blockOf q.g ≠ b.ref)
    (hpendings : ∀ p ∈ s.pendings, blockOf p.g = b.ref → p.req.saves = false)
    (hcopies : ∀ c ∈ s.copies, ¬(c.2.live = true ∧ blockOf c.2.g = b.ref ∧ c.2.state = .running)) : s.saveReady b = true := by
  unfold State.saveReady
  rw [hstate]
  simp only [Bool.and_eq_true, Bool.not_eq_true', List.any_eq_false, decide_eq_true_eq, hdue, true_and, and_assoc]
  refine ⟨hentries, fun p hp hsaves => ?_, hcopies⟩
  rw [hpendings p hp hsaves.1] at hsaves
  exact absurd hsaves.2 (by decide)

/-- The block as SAVE_COMPLETE leaves it. -/
def Block.savedAt (b : Block) (reason unit units gtc : Nat) (copiesSaved : List (Copy × List RangeLock)) : Block :=
  { b with state := .saved reason unit units gtc, readyAt := if reason = 2 then b.readyAt else gtc, copiesSaved }

/-- A group off its core, at its head. -/
def Group.parked (g : Group) : Group := { g with active := false, wait := .ready, headPending := true }

/-- Up to the save's end no block changes. -/
theorem State.finishSave_eq (s : State) (b : Block) (reason unit units : Nat) : ∃ (t : State) (copies : List (Copy × List RangeLock)),
    t.blocks = s.blocks ∧
    s.finishSave b reason unit units =
      ((t.modBlock b.ref (·.savedAt reason unit units s.gtc copies)).modGroupsOf b.ref Group.parked).finishPctl := by
  refine ⟨_, _, ?_, rfl⟩
  rw [State.returnStock_keeps _ State.blocks fun _ _ => rfl, (State.clearEngines_accounted _ _).blocks,
    (State.unhold_accounted _ _).blocks, (State.endCopies_accounted _ _ _).blocks, (State.performBytes_performed _ _ _ _).blocks]
  exact (s.readSlots_walked b b.spillSlots).blocks

/-- A group of a block after `modGroupsOf` is a changed one. -/
theorem State.mem_modGroupsOf {s : State} {r : BlockRef} {f : Group → Group} {g : Group} (hg : g ∈ (s.modGroupsOf r f).groups)
    (hr : blockOf g.ref = r) : ∃ h ∈ s.groups, f h = g := by
  obtain ⟨h, hh, heq⟩ := List.mem_map.1 hg
  refine ⟨h, hh, ?_⟩
  by_cases hin : blockOf h.ref = r
  · rwa [if_pos hin] at heq
  · rw [if_neg hin] at heq
    exact absurd (heq ▸ hr) hin

/-- What a save leaves of the block and its groups. -/
theorem State.finishSave_leaves {s : State} {b : Block} (hb : s.block? b.ref = some b) (reason unit units : Nat) :
    let u := s.finishSave b reason unit units
    (∃ x, u.block? b.ref = some x ∧ x.state = .saved reason unit units s.gtc) ∧
      ∀ g ∈ u.groups, blockOf g.ref = b.ref → g.active = false ∧ g.headPending = true ∧ g.wait = .ready := by
  obtain ⟨t, copies, hblocks, heq⟩ := s.finishSave_eq b reason unit units
  rw [heq]
  have ht : t.block? b.ref = some b := by
    unfold State.block?
    rw [hblocks]
    exact hb
  have hpctl := State.finishPctl_accounted
    ((t.modBlock b.ref (·.savedAt reason unit units s.gtc copies)).modGroupsOf b.ref Group.parked)
  refine ⟨⟨b.savedAt reason unit units s.gtc copies, ?_, rfl⟩, fun g hg hr => ?_⟩
  · unfold State.block?
    rw [hpctl.blocks]
    exact State.block?_modBlock_same ht fun _ => rfl
  · rw [hpctl.groups] at hg
    obtain ⟨h, -, rfl⟩ := State.mem_modGroupsOf hg hr
    exact ⟨rfl, rfl, rfl⟩

theorem exec_saveComplete {s : State} {b : Block} {reason unit units due : Nat} (hb : s.block? b.ref = some b)
    (hstate : b.state = .saving reason unit units due) (hready : s.saveReady b = true) :
    exec (.saveComplete b.ref) s = .next (s.finishSave b reason unit units) := by
  change execSaveComplete b.ref s = _
  simp only [execSaveComplete, hb, hstate, hready, if_true]

/-! ## A block ends (R444) -/

/-- The state in which a block that ends has left its cores, its locks and its stock. -/
def State.vacated (s : State) (b : Block) : State :=
  (((s.abandonLocks b.ref).returnStock b.ref.task b.die b.ref).unhold b).clearEngines
    (if b.kernel.nmatrix = 0 then { b with kernel := { b.kernel with span := 0 } } else b)

theorem State.vacated_blocks (s : State) (b : Block) : (s.vacated b).blocks = s.blocks := by
  unfold State.vacated
  rw [(State.clearEngines_accounted _ _).blocks, (State.unhold_accounted _ _).blocks,
    State.returnStock_keeps _ State.blocks fun _ _ => rfl, (s.abandonLocks_accounted _).blocks]

theorem State.tcb_vacated (s : State) (b : Block) :
    ((s.vacated b).tcb b.ref.task).blkLeft = (s.tcb b.ref.task).blkLeft ∧
      ((s.vacated b).tcb b.ref.task).state = (s.tcb b.ref.task).state := by
  unfold State.vacated
  rw [(State.clearEngines_accounted _ _).tcb, (State.unhold_accounted _ _).tcb, ← (s.abandonLocks_accounted b.ref).tcb]
  exact State.tcb_returnStock ..

/-- The block and what is its own are gone, and its task counts one block less. -/
def State.ended (s : State) (r : BlockRef) : State :=
  { s with
    blocks := s.blocks.filter fun x => x.ref ≠ r, groups := s.groups.filter fun g => blockOf g.ref ≠ r,
    fills := s.fills.filter fun f => blockOf f.g ≠ r }.setTcb r.task { (s.tcb r.task) with blkLeft := (s.tcb r.task).blkLeft - 1 }

theorem State.tcb_ended (s : State) (r : BlockRef) :
    (s.ended r).tcb r.task = { (s.tcb r.task) with blkLeft := (s.tcb r.task).blkLeft - 1 } := State.tcb_setTcb_same ..

theorem State.tcb_toRetiring (s : State) (task : Nat) :
    (s.toRetiring task).tcb task = { (s.tcb task) with state := .retiring, reserved := false, passedSince := none } := by
  unfold State.toRetiring
  exact State.tcb_setTcb_same s task { (s.tcb task) with state := .retiring, reserved := false, passedSince := none }

theorem exec_blockEnd {s : State} {b : Block} (hb : s.block? b.ref = some b) (hends : s.blockEnds b = true) :
    exec (.blockEnd b.ref) s = .next (if ((s.vacated b).ended b.ref).taskDone b.ref.task
      then ((s.vacated b).ended b.ref).toRetiring b.ref.task else (s.vacated b).ended b.ref) := by
  change execBlockEnd b.ref s = _
  simp only [execBlockEnd, hb, hends, Bool.not_true, Bool.false_eq_true, if_false]
  rfl

/-- With the last block of a running task the task is done. -/
theorem State.taskDone_ended {s : State} {b : Block} (hrun : (s.tcb b.ref.task).state = .running)
    (hlast : (s.tcb b.ref.task).blkLeft = 1) (hblocks : ∀ x ∈ s.blocks, x.ref.task = b.ref.task → x.ref = b.ref) :
    ((s.vacated b).ended b.ref).taskDone b.ref.task = true := by
  obtain ⟨hleft, hstate⟩ := s.tcb_vacated b
  have hnone : (((s.vacated b).ended b.ref).blocks.any fun x => x.ref.task = b.ref.task) = false := by
    change ((((s.vacated b).blocks).filter fun x => x.ref ≠ b.ref).any fun x => x.ref.task = b.ref.task) = false
    rw [s.vacated_blocks, List.any_eq_false]
    intro x hx htask
    obtain ⟨hmem, hne⟩ := List.mem_filter.1 hx
    exact of_decide_eq_true hne (hblocks x hmem (of_decide_eq_true htask))
  unfold State.taskDone
  rw [State.tcb_ended, hnone]
  simp [hleft, hstate, hrun, hlast]

/-! ## A task retires (R106 to R109) -/

section
variable (s : State)

/-- Its die's retirement queue has let the head go. -/
def State.dequeued (task : Nat) : State :=
  let d := s.die (dieOfTask task)
  s.setDie (dieOfTask task) { d with retireQueue := d.retireQueue.drop 1 }

theorem State.chunkPa_dequeued (task die i : Nat) : (s.dequeued task).chunkPa die i = s.chunkPa die i := by
  have hpool : ((s.dequeued task).die die).tcbPool = (s.die die).tcbPool := by
    unfold State.dequeued
    by_cases h : dieOfTask task = die
    · rw [← h, State.die_setDie_same]
    · rw [State.die_setDie_other _ _ h]
  unfold State.chunkPa
  rw [hpool]

theorem State.chunkList_dequeued (task die k pa n : Nat) :
    (s.dequeued task).chunkList die k pa n = s.chunkList die k pa n := by
  induction k generalizing pa n with
  | zero => rfl
  | succ k ih =>
    unfold State.chunkList
    rw [s.chunkPa_dequeued, ih]
    rfl

theorem State.successors_dequeued (task : Nat) : (s.dequeued task).successors task = s.successors task := by
  have hchunks : (s.dequeued task).chunksOf task = s.chunksOf task := s.chunkList_dequeued ..
  unfold State.successors
  rw [hchunks]
  rfl

/-! ### The successors' decrements -/

theorem State.tcb_decPreds_other (cancel : Bool) {x y : Nat} (h : x ≠ y) : (s.decPreds cancel x).tcb y = s.tcb y :=
  State.tcb_setTcb_other s _ h

/-- The TCB of a successor once a task before it has retired. -/
def Tcb.decremented (t : Tcb) (cancel : Bool) (gtc : Nat) : Tcb :=
  let t1 := { t with preds := t.preds - 1, cancel := t.cancel || cancel }
  if t.state = .waiting && t.preds ≤ 1 then { t1 with state := .ready, readyGtc := gtc } else t1

theorem State.tcb_decPreds_same (cancel : Bool) (x : Nat) :
    (s.decPreds cancel x).tcb x = (s.tcb x).decremented cancel s.gtc := State.tcb_setTcb_same s x _

/-- Nothing but TCBs changes. -/
theorem State.foldl_decPreds_tcbs (cancel : Bool) (l : List Nat) :
    ∃ x, l.foldl (State.decPreds · cancel) s = { s with tcbs := x } := by
  induction l generalizing s with
  | nil => exact ⟨s.tcbs, rfl⟩
  | cons x l ih =>
    obtain ⟨y, hy⟩ := ih (s.decPreds cancel x)
    exact ⟨y, hy⟩

theorem State.tcb_foldl_decPreds_other (cancel : Bool) (l : List Nat) {y : Nat} (h : y ∉ l) :
    (l.foldl (State.decPreds · cancel) s).tcb y = s.tcb y := by
  induction l generalizing s with
  | nil => rfl
  | cons x l ih =>
    rw [List.foldl_cons, ih _ fun c => h (List.mem_cons_of_mem _ c), s.tcb_decPreds_other]
    exact fun c => h (c ▸ List.mem_cons_self)

/-- Each of distinct successors is decremented once. -/
theorem State.tcb_foldl_decPreds (cancel : Bool) {l : List Nat} (hl : l.Nodup) {x : Nat} (hx : x ∈ l) :
    (l.foldl (State.decPreds · cancel) s).tcb x = (s.tcb x).decremented cancel s.gtc := by
  induction l generalizing s with
  | nil => cases hx
  | cons y l ih =>
    obtain ⟨hy, hl⟩ := List.nodup_cons.1 hl
    rw [List.foldl_cons]
    rcases List.mem_cons.1 hx with rfl | hx
    · rw [State.tcb_foldl_decPreds_other _ _ _ hy, s.tcb_decPreds_same]
    · have hne : y ≠ x := fun c => hy (c ▸ hx)
      rw [ih _ hl hx, s.tcb_decPreds_other _ hne]
      rfl

/-! ### The TCB itself -/

theorem State.childDone_eq (t : Tcb) : ∃ x, s.childDone t = { s with blocks := x } := by
  unfold State.childDone
  split
  · exact ⟨s.blocks, rfl⟩
  · exact ⟨_, rfl⟩

/-- The record of a task's fault, where it has one. -/
def State.faultRecorded (task : Nat) : State :=
  let t := s.tcb task
  if t.fault = 0 then s
  else s.record { stamp := s.gtc, src := srcNum (dieOfTask task) 0 5 0, type := 9, code := t.fault, data0 := task }

theorem State.faultRecorded_accounted (task : Nat) : s.Accounted (s.faultRecorded task) := by
  unfold State.faultRecorded
  simp only
  split
  · exact .refl s
  · exact s.record_accounted _

theorem State.retireTcb_keeps (task : Nat) (h : (s.tcb task).spawned = false) (hname : task ∈ (s.queue (s.tcb task).queue).recent) :
    s.retireTcb task = (s.faultRecorded task).setTcb task { (s.tcb task) with
      state := .retired, retireGtc := s.gtc, stock := [], returned := [], asked := [], reserved := false, passedSince := none } := by
  unfold State.retireTcb State.faultRecorded
  simp [h, hname]

theorem State.retireTcb_frees (task : Nat)
    (h : (s.tcb task).spawned = true ∨ task ∉ (s.queue (s.tcb task).queue).recent) :
    s.retireTcb task = (s.faultRecorded task).freeTask task := by
  unfold State.retireTcb State.faultRecorded
  rcases h with h | h <;> simp [h]

theorem State.tcb_retireTcb_other (task : Nat) {y : Nat} (h : task ≠ y) : (s.retireTcb task).tcb y = s.tcb y := by
  rw [← (s.faultRecorded_accounted task).tcb y]
  by_cases hfree : (s.tcb task).spawned = true ∨ task ∉ (s.queue (s.tcb task).queue).recent
  · rw [s.retireTcb_frees task hfree, State.tcb_freeTask_other _ _ h]
  · obtain ⟨hspawned, hname⟩ := not_or.1 hfree
    rw [s.retireTcb_keeps task (by simpa using hspawned) (not_not.1 hname), State.tcb_setTcb_other _ _ h]

theorem State.freeTask_mem (task : Nat) : (s.freeTask task).mem = s.mem := rfl

theorem State.retireTcb_mem (task : Nat) : (s.retireTcb task).mem = s.mem := by
  rw [← (s.faultRecorded_accounted task).mem]
  by_cases hfree : (s.tcb task).spawned = true ∨ task ∉ (s.queue (s.tcb task).queue).recent
  · rw [s.retireTcb_frees task hfree, State.freeTask_mem]
  · obtain ⟨hspawned, hname⟩ := not_or.1 hfree
    rw [s.retireTcb_keeps task (by simpa using hspawned) (not_not.1 hname), State.setTcb_mem]

/-- The state in which a task's successors and its parent have been told. -/
def State.toldOf (task : Nat) : State :=
  (((s.successors task).foldl (State.decPreds · ((s.tcb task).fault ≠ 0)) (s.dequeued task))).childDone (s.tcb task)

theorem exec_taskRetire {task : Nat} (hhead : (s.die (dieOfTask task)).retireQueue.head? = some task)
    (hstate : (s.tcb task).state = .retiring) (hdrone : s.drone.recovering = none) (hfused : (s.tcb task).fusedFlag = false) :
    exec (.taskRetire task) s = .next ((s.toldOf task).retireTcb task) := by
  have hsucc : (s.dequeued task).successorsOf task = s.successors task := by
    rw [← s.successors_dequeued task]
    unfold State.successorsOf
    exact if_neg (by rw [show (s.dequeued task).tcb task = s.tcb task from rfl, hfused]; decide)
  have hnot : ¬ ((s.die (dieOfTask task)).retireQueue.head? ≠ some task || (s.tcb task).state ≠ .retiring ||
      s.drone.recovering.isSome) = true := by simp [hhead, hstate, hdrone]
  change execTaskRetire task s = _
  unfold execTaskRetire
  simp only [hfused, Bool.false_eq_true, if_false]
  rw [if_neg hnot]
  unfold State.toldOf
  rw [← hsucc]
  rfl

/-- Told are the successors' TCBs, the die's queue and the parent's block: what depends on none of them is as before. -/
theorem State.toldOf_keeps {α : Type} (f : State → α) (hf : ∀ s x y z, f { s with tcbs := x, dies := y, blocks := z } = f s)
    (task : Nat) : f (s.toldOf task) = f s := by
  obtain ⟨x, hx⟩ := State.foldl_decPreds_tcbs (s.dequeued task) ((s.tcb task).fault ≠ 0) (s.successors task)
  obtain ⟨y, hy⟩ := State.childDone_eq
    ((s.successors task).foldl (State.decPreds · ((s.tcb task).fault ≠ 0)) (s.dequeued task)) (s.tcb task)
  unfold State.toldOf
  rw [hy, hx]
  exact hf s x _ y

theorem State.tcb_toldOf (task n : Nat) : (s.toldOf task).tcb n =
    ((s.successors task).foldl (State.decPreds · ((s.tcb task).fault ≠ 0)) (s.dequeued task)).tcb n := by
  obtain ⟨y, hy⟩ := State.childDone_eq
    ((s.successors task).foldl (State.decPreds · ((s.tcb task).fault ≠ 0)) (s.dequeued task)) (s.tcb task)
  unfold State.toldOf
  rw [hy]
  rfl

theorem State.tcb_toldOf_self {task : Nat} (hself : task ∉ s.successors task) : (s.toldOf task).tcb task = s.tcb task := by
  rw [s.tcb_toldOf, State.tcb_foldl_decPreds_other _ _ _ hself]
  rfl

theorem State.tcb_toldOf_successor {task x : Nat} (hnodup : (s.successors task).Nodup) (hx : x ∈ s.successors task) :
    (s.toldOf task).tcb x = (s.tcb x).decremented ((s.tcb task).fault ≠ 0) s.gtc := by
  rw [s.tcb_toldOf, State.tcb_foldl_decPreds _ _ hnodup hx]
  rfl

end

theorem Tcb.decremented_spec (t : Tcb) (cancel : Bool) (gtc : Nat) :
    (t.decremented cancel gtc).preds = t.preds - 1 ∧ (t.decremented cancel gtc).cancel = (t.cancel || cancel) ∧
      (t.state = .waiting → t.preds = 1 →
        (t.decremented cancel gtc).state = .ready ∧ (t.decremented cancel gtc).readyGtc = gtc) := by
  unfold Tcb.decremented
  simp only
  split
  · exact ⟨rfl, rfl, fun _ _ => ⟨rfl, rfl⟩⟩
  · rename_i h
    exact ⟨rfl, rfl, fun hw hp => absurd (by simp [hw, hp]) h⟩

/-- What a block's end leaves, whether its task goes on or not. -/
theorem State.blockEnd_leaves (s : State) (b : Block) :
    let e := (s.vacated b).ended b.ref
    let u := if e.taskDone b.ref.task then e.toRetiring b.ref.task else e
    (∀ x ∈ u.blocks, x.ref ≠ b.ref) ∧ (∀ g ∈ u.groups, blockOf g.ref ≠ b.ref) ∧ (∀ f ∈ u.fills, blockOf f.g ≠ b.ref) ∧
      (u.tcb b.ref.task).blkLeft = (s.tcb b.ref.task).blkLeft - 1 := by
  intro e
  have hblocks : ∀ x ∈ e.blocks, x.ref ≠ b.ref := fun x hx => of_decide_eq_true (List.mem_filter.1 hx).2
  have hgroups : ∀ g ∈ e.groups, blockOf g.ref ≠ b.ref := fun g hg => of_decide_eq_true (List.mem_filter.1 hg).2
  have hfills : ∀ f ∈ e.fills, blockOf f.g ≠ b.ref := fun f hf => of_decide_eq_true (List.mem_filter.1 hf).2
  have hleft : (e.tcb b.ref.task).blkLeft = (s.tcb b.ref.task).blkLeft - 1 := by
    rw [State.tcb_ended, ← (s.tcb_vacated b).1]
  cases e.taskDone b.ref.task with
  | false => exact ⟨hblocks, hgroups, hfills, hleft⟩
  | true =>
    refine ⟨hblocks, hgroups, hfills, ?_⟩
    simp only [if_true]
    rw [State.tcb_toRetiring]
    exact hleft

/-- Settles O37: a save's end touches no other block (`finishSave_leaves`), a block's end leaves nothing under its name
(`blockEnd_leaves`), and a retirement decrements each successor once (`tcb_toldOf_successor`). -/
theorem blockEvents : Obligations.BlockEvents := by
  intro s b task r t0 succ
  refine ⟨?_, ?_, ?_⟩
  · intro reason unit units due hb hstate hdue hentries hpendings hcopies u
    exact ⟨exec_saveComplete hb hstate (State.saveReady_of hstate hdue hentries hpendings hcopies),
      State.finishSave_leaves hb reason unit units⟩
  · intro hb hends
    obtain ⟨hblocks, hgroups, hfills, hleft⟩ := s.blockEnd_leaves b
    refine ⟨_, exec_blockEnd hb hends, hblocks, hgroups, hfills, hleft, fun hrun hlast hothers => ?_⟩
    rw [if_pos (State.taskDone_ended hrun hlast hothers), State.tcb_toRetiring]
  · intro hhead hstate hdrone hfused hself hnodup
    have htcb := s.tcb_toldOf_self hself
    have hqueue (q : Nat) : (s.toldOf task).queue q = s.queue q := s.toldOf_keeps (State.queue · q) (fun _ _ _ _ => rfl) task
    refine ⟨_, exec_taskRetire s hhead hstate hdrone hfused, fun hspawned hname => ?_, fun hfree => ?_, fun x hx => ?_, ?_⟩
    · rw [State.retireTcb_keeps _ task (by rw [htcb]; exact hspawned) (by rw [htcb, hqueue]; exact hname),
        State.tcb_setTcb_same]
      exact ⟨rfl, s.toldOf_keeps State.gtc (fun _ _ _ _ => rfl) task⟩
    · rw [State.retireTcb_frees _ task (by rw [htcb, hqueue]; exact hfree), State.tcb_freeTask_same]
    · have hne : task ≠ x := fun c => hself (c ▸ hx)
      rw [State.tcb_retireTcb_other _ task hne, s.tcb_toldOf_successor hnodup hx]
      exact Tcb.decremented_spec ..
    · rw [State.retireTcb_mem]
      exact s.toldOf_keeps State.mem (fun _ _ _ _ => rfl) task

end Sys2Proof.Machine

namespace Sys2Proof.Machine

open Sys2Proof

/-! ## A block starts (R128, R157, R159) -/

/-! ### The threads of a group -/

/-- A sum of distinct powers of two holds the bits that it was made of. -/
theorem foldl_range_two_pow (f : Nat → Bool) (n : Nat) :
    (List.range n).foldl (fun m i => if f i then m + 2 ^ i else m) 0 < 2 ^ n ∧
      ∀ j, ((List.range n).foldl (fun m i => if f i then m + 2 ^ i else m) 0).testBit j = (decide (j < n) && f j) := by
  induction n with
  | zero => simp
  | succ n ih =>
    obtain ⟨hlt, hbits⟩ := ih
    rw [List.range_succ, List.foldl_append, List.foldl_cons, List.foldl_nil]
    generalize (List.range n).foldl (fun m i => if f i then m + 2 ^ i else m) 0 = m at hlt hbits
    have hpow : 2 ^ (n + 1) = 2 ^ n + 2 ^ n := by rw [Nat.pow_succ]; omega
    by_cases hf : f n = true
    · rw [if_pos hf]
      refine ⟨by omega, fun j => ?_⟩
      rw [Nat.add_comm]
      rcases Nat.lt_trichotomy j n with hj | rfl | hj
      · rw [Nat.testBit_two_pow_add_gt hj, hbits]
        simp [hj, Nat.lt_succ_of_lt hj]
      · rw [Nat.testBit_two_pow_add_eq, hbits]
        simp [hf]
      · rw [Nat.testBit_lt_two_pow]
        · simp; omega
        · exact lt_of_lt_of_le (by omega : 2 ^ n + m < 2 ^ (n + 1)) (Nat.pow_le_pow_right (by decide) hj)
    · rw [if_neg hf]
      refine ⟨by omega, fun j => ?_⟩
      rw [hbits]
      by_cases hj : j = n
      · subst hj
        simp [hf]
      · congr 1
        exact decide_eq_decide.2 (by omega)

theorem getLsbD_maskOf (f : Nat → Bool) {j : Nat} (hj : j < 32) : (maskOf f).getLsbD j = f j := by
  have h := (foldl_range_two_pow f 32).2 j
  unfold maskOf
  rw [BitVec.getLsbD_ofNat]
  simp only [hj, decide_true, Bool.true_and] at h ⊢
  exact h

/-! ### The groups at their start -/

/-- Arguments go to uniform registers: nothing else of the architectural state changes. -/
theorem Arch.foldl_setS (l : List (Nat × W64)) (a : Arch) :
    ∃ x, l.foldl (fun a r => a.setS r.1 { val := r.2 }) a = { a with s := x } := by
  induction l generalizing a with
  | nil => exact ⟨a.s, rfl⟩
  | cons r l ih =>
    obtain ⟨x, hx⟩ := ih (a.setS r.1 { val := r.2 })
    refine ⟨x, ?_⟩
    rw [List.foldl_cons, hx]
    unfold Arch.setS
    split <;> rfl

/-- What lies below the registers that the arguments take stays. -/
theorem Arch.ureg_foldl_setS_below (l : List W64) (o m i : Nat) (ho : 0 < o) (a : Arch) (hi : i < o + m) :
    (((l.zipIdx m).map fun x => (o + x.2, x.1)).foldl (fun a r => a.setS r.1 { val := r.2 }) a).ureg i = a.ureg i := by
  induction l generalizing m a with
  | nil => rfl
  | cons v l ih =>
    rw [List.zipIdx_cons, List.map_cons, List.foldl_cons, ih (m + 1) _ (by omega)]
    have hne : o + m ≠ 0 := by omega
    rw [Arch.ureg_setS (h := hne), if_neg (by omega)]

/-- Argument `j` stands in register `o + m + j`. -/
theorem Arch.ureg_foldl_setS (l : List W64) (o m : Nat) (ho : 0 < o) (a : Arch) {j : Nat} {v : W64} (hj : l[j]? = some v) :
    ((((l.zipIdx m).map fun x => (o + x.2, x.1)).foldl (fun a r => a.setS r.1 { val := r.2 }) a).ureg (o + m + j)).val = v := by
  induction l generalizing m a j with
  | nil => simp at hj
  | cons w l ih =>
    rw [List.zipIdx_cons, List.map_cons, List.foldl_cons]
    cases j with
    | zero =>
      have hw : w = v := by simpa using hj
      rw [Arch.ureg_foldl_setS_below l o (m + 1) _ ho _ (by omega), Arch.ureg_setS (h := by omega)]
      simp [hw]
    | succ j => rw [show o + m + (j + 1) = o + (m + 1) + j by omega]; exact ih (m + 1) _ (by simpa using hj)

/-- A group at its start (R21, R157, R159). -/
theorem Block.newGroup_spec (b : Block) (i gtc : Nat) :
    let h := b.newGroup i gtc
    let k := b.kernel
    h.core = b.lead + i / ((k.groups + k.span - 1) / k.span) ∧
      (∀ j < 32, h.launched.getLsbD j = decide (32 * i + j < k.threads)) ∧ h.arch.run = h.launched ∧
      h.arch.pc = (k.textBase + k.entry) % 2 ^ 64 ∧ h.arch.stack = [] ∧ h.arch.handler = false ∧ h.regions = [] ∧
      h.active = false ∧ h.role = (if i < k.ncopy then 0 else if i < k.ncopy + k.nmatrix then 1 else 2) ∧
      (b.fused = none → ∀ j v, k.argv[j]? = some v → (h.arch.ureg (2 + j)).val = v) := by
  intro h k
  obtain ⟨x, hx⟩ := Arch.foldl_setS b.argRegs { run := launchedMask k.threads i, pc := (k.textBase + k.entry) % 2 ^ 64 }
  have harch : h.arch = { run := launchedMask k.threads i, pc := (k.textBase + k.entry) % 2 ^ 64, s := x } := hx
  refine ⟨rfl, fun j hj => getLsbD_maskOf _ hj, by rw [harch]; rfl, by rw [harch], by rw [harch], by rw [harch], rfl, rfl, rfl,
    fun hfused j v hj => ?_⟩
  have hargs : b.argRegs = k.argv.zipIdx.map fun x => (2 + x.2, x.1) := by
    unfold Block.argRegs
    rw [hfused]
  change ((b.argRegs.foldl (fun (a : Arch) r => a.setS r.1 { val := r.2 }) _).ureg (2 + j)).val = v
  rw [hargs]
  exact Arch.ureg_foldl_setS k.argv 2 0 (by decide) _ hj

/-! ### The block -/

section
variable (s : State) (task : Nat) (k : Kernel) (lead : Nat) (spill : List Nat)

/-- The block that starts. -/
def State.startedBlock : Block :=
  let t := s.tcb task
  { ref := ⟨task, t.placed⟩, kernel := k, fused := t.fusedCode, owner := t.owner, lead, die := dieOfCore lead, spillSlots := spill }

/-- The TCB of its task. -/
def Tcb.started (t : Tcb) (curClass : Nat) : Tcb :=
  { t with
    state := .running, placed := t.placed + 1, blkLeft := if t.placed = 0 then t.blocks else t.blkLeft, curClass,
    passedSince := none, reserved := false }

/-- The state in which the block holds its cores. -/
def State.held : State :=
  (s.hold (s.tcb task).owner lead k spill).clearEngines (
    if k.nmatrix = 0 then { s.startedBlock task k lead spill with kernel := { k with span := 0 } }
    else s.startedBlock task k lead spill)

/-- The state in which the block and its groups stand. -/
def State.entered : State :=
  let t := (s.held task k lead spill).setTcb task ((s.tcb task).started k.curClass)
  { t with
    blocks := t.blocks ++ [s.startedBlock task k lead spill],
    groups := t.groups ++ (List.range k.groups).map fun i => (s.startedBlock task k lead spill).newGroup i s.gtc }

theorem State.startBlock_eq : s.startBlock task k lead spill =
    (s.entered task k lead spill).deliverPending ⟨task, (s.tcb task).placed⟩ := rfl

theorem State.held_accounted : s.Accounted (s.held task k lead spill) :=
  (s.hold_accounted _ _ _ _).trans (State.clearEngines_accounted _ _)

theorem State.entered_blocks : (s.entered task k lead spill).blocks = s.blocks ++ [s.startedBlock task k lead spill] :=
  congrArg (· ++ _) (s.held_accounted task k lead spill).blocks

theorem State.entered_groups : (s.entered task k lead spill).groups =
    s.groups ++ (List.range k.groups).map fun i => (s.startedBlock task k lead spill).newGroup i s.gtc :=
  congrArg (· ++ _) (s.held_accounted task k lead spill).groups

theorem State.tcb_entered : (s.entered task k lead spill).tcb task = (s.tcb task).started k.curClass :=
  (s.held task k lead spill).tcb_setTcb_same task ((s.tcb task).started k.curClass)

theorem State.clearEngines_fields (b : Block) : (s.clearEngines b).fields = s.fields :=
  foldl_keeps State.fields (fun s c => s.setCore_fields c _) b.cores s

/-- What a block holds beside its cores is CURCLASS of its field. -/
theorem State.held_commit : ((s.held task k lead spill).field (fieldOfCore lead)).commit =
    (s.field (fieldOfCore lead)).commit + k.curClass := by
  have hfields : (s.held task k lead spill).fields = (s.commitField lead fun c => c + k.curClass).fields := by
    unfold State.held
    rw [State.clearEngines_fields]
    unfold State.hold
    simp only
    split <;> rfl
  unfold State.field
  rw [hfields]
  change ((s.setField (fieldOfCore lead) _).field (fieldOfCore lead)).commit = _
  rw [State.field_setField_same]
  rfl

section
variable {s task} (hfresh : Fresh s task)
include hfresh

theorem State.block?_entered : (s.entered task k lead spill).block? ⟨task, (s.tcb task).placed⟩ =
    some (s.startedBlock task k lead spill) := by
  unfold State.block?
  rw [State.entered_blocks]
  unfold findBlock
  rw [List.find?_append, show s.blocks.find? _ = none from hfresh.1, Option.none_or, List.find?_cons_of_pos]
  exact decide_eq_true rfl

theorem State.group?_entered {i : Nat} (hi : i < k.groups) :
    (s.entered task k lead spill).group? ⟨task, (s.tcb task).placed, i⟩ =
      some ((s.startedBlock task k lead spill).newGroup i s.gtc) := by
  have hold : s.groups.find? (fun g => g.ref = (⟨task, (s.tcb task).placed, i⟩ : GroupRef)) = none := by
    rw [List.find?_eq_none]
    exact fun g hg h => hfresh.2 g hg (by rw [of_decide_eq_true h]; rfl)
  have hnew : (List.range k.groups).find? (fun j => decide (((s.startedBlock task k lead spill).newGroup j s.gtc).ref =
      ⟨task, (s.tcb task).placed, i⟩)) = some i := by
    rw [List.find?_range_eq_some]
    refine ⟨decide_eq_true rfl, List.mem_range.2 hi, fun j hj => ?_⟩
    have hne : ((s.startedBlock task k lead spill).newGroup j s.gtc).ref ≠ ⟨task, (s.tcb task).placed, i⟩ := fun c =>
      absurd (congrArg GroupRef.gid c) (Nat.ne_of_lt hj)
    simp [hne]
  unfold State.group?
  rw [State.entered_groups]
  unfold findGroup
  rw [List.find?_append, hold, Option.none_or, List.find?_map]
  exact congrArg (Option.map _) hnew

/-- No edge is pending for a block that starts. -/
theorem State.startBlock_fresh : s.startBlock task k lead spill = s.entered task k lead spill := by
  rw [s.startBlock_eq]
  unfold State.deliverPending
  rw [State.block?_entered k lead spill hfresh]
  rfl

theorem State.startBlock_starts : Starts s (s.startBlock task k lead spill) task (s.tcb task).blocks k lead spill := by
  have hacc := s.held_accounted task k lead spill
  rw [State.startBlock_fresh k lead spill hfresh]
  unfold Starts
  simp only [s.tcb_entered]
  refine ⟨rfl, rfl, rfl, rfl, rfl, ⟨_, State.block?_entered k lead spill hfresh, rfl, rfl, rfl, rfl, rfl, rfl, rfl, rfl⟩,
    fun i hi => ⟨_, State.group?_entered k lead spill hfresh hi, Block.newGroup_spec _ i s.gtc⟩, s.held_commit task k lead spill,
    fun x hx => ?_, fun g hg => ?_, hacc.mem, hacc.queues⟩
  · rw [s.entered_blocks]
    exact List.mem_append_left _ hx
  · rw [s.entered_groups]
    exact List.mem_append_left _ hg

end

end

end Sys2Proof.Machine

namespace Sys2Proof.Machine

open Sys2Proof

/-! ## The dispatcher and the splicer -/

/-! ### What the dispatcher reads (R39) -/

theorem State.Walked.tcbs {s t : State} (h : s.Walked t) : t.tcbs = s.tcbs := by rw [← h]; rfl

theorem State.devRead_walked (owner field va n : Nat) (s : State) : s.Walked (placedState (s.devRead owner field va n)) := by
  induction n generalizing s va with
  | zero => exact .refl s
  | succ n ih =>
    have hplace := placeScr_walked s (.unit field) owner true false (va % 2 ^ 64)
    unfold State.devRead
    split
    all_goals
      rename_i heq
      rw [heq] at hplace
    · exact hplace
    · rename_i pa s1
      have hrest := ih (va + 1) s1
      simp only
      split
      all_goals
        rename_i heq'
        rw [heq'] at hrest
        exact State.Walked.trans hplace hrest

theorem State.readDesc_walked (s : State) (owner field va : Nat) : s.Walked (placedState (s.readDesc owner field va)) := by
  have hdesc := State.devRead_walked owner field va 128 s
  unfold State.readDesc
  split
  all_goals
    rename_i heq
    rw [heq] at hdesc
  · exact hdesc
  · rename_i d s1
    split
    · exact hdesc
    · have hshapes := State.devRead_walked owner field
        ((s1.objectOf owner va (wrap64 (va + (BitVec.ofNat 64 (recField d 0x3C 8)).toInt))).1 + recField d 0x34 4)
        (64 * recField d 0x38 2) s1
      simp only
      split
      all_goals
        rename_i heq'
        rw [heq'] at hshapes
      · exact State.Walked.trans hdesc hshapes
      · split
        · exact State.Walked.trans hdesc hshapes
        · exact State.Walked.trans hdesc hshapes

theorem State.readKernel_walked (s : State) (owner field va args : Nat) :
    s.Walked (placedState (s.readKernel owner field va args)) := by
  have hdesc := s.readDesc_walked owner field va
  unfold State.readKernel
  split
  all_goals
    rename_i heq
    rw [heq] at hdesc
  · exact hdesc
  · rename_i k nargs s2
    split
    · exact hdesc
    · have hargs := State.devRead_walked owner field args (8 * nargs) s2
      split
      all_goals
        rename_i heq'
        rw [heq'] at hargs
        exact State.Walked.trans hdesc hargs

theorem State.readKernel_tcbs {s s1 : State} {owner field va args : Nat} {k : Kernel}
    (h : s.readKernel owner field va args = .ok (k, s1)) : s1.tcbs = s.tcbs := by
  have hwalked := s.readKernel_walked owner field va args
  rw [h] at hwalked
  exact hwalked.tcbs

/-! ### An opportunity (R129) -/

section
variable {s : State} {c : Candidate} {cs : List Candidate} {die : Nat}

theorem State.dispatchDie_ends {t : State} (hplacing : s.placing = true) (hfirst : s.candidates die = c :: cs)
    (h : s.tryCandidate c 255 = .ends t) : s.dispatchDie die = (some (c, t), [], s) := by
  unfold State.dispatchDie
  rw [if_pos hplacing, hfirst]
  unfold State.dispatch
  rw [h]

theorem State.dispatchDie_places {t : State} (hplacing : s.placing = true) (hfirst : s.candidates die = c :: cs)
    (h : s.tryCandidate c 255 = .places t) : s.dispatchDie die = (some (c, t), [], s) := by
  unfold State.dispatchDie
  rw [if_pos hplacing, hfirst]
  unfold State.dispatch
  rw [h]

theorem exec_placeBlock_of {t : State} (hpick : s.dispatchDie die = (some (c, t), [], s)) (hfresh : c.resume = none) :
    exec (.placeBlock die) s = .next t := by
  change execPlaceBlock die s = _
  unfold execPlaceBlock
  rw [hpick]
  simp only [hfresh, Option.isNone_none, if_true]
  rfl

theorem exec_blockResume_of {t : State} {r : BlockRef} (hpick : s.dispatchDie (dieOfTask r.task) = (some (c, t), [], s))
    (hresume : c.resume = some r) : exec (.blockResume r) s = .next t := by
  change execBlockResume r s = _
  unfold execBlockResume
  rw [hpick]
  simp only [hresume, if_true]

theorem State.tryCandidate_task (h : c.resume = none) (mask : Nat) : s.tryCandidate c mask = s.tryTask c.task mask := by
  unfold State.tryCandidate
  rw [h]

end

section
variable {s : State} {task mask : Nat}

theorem State.tryTask_cancelled (hplaced : (s.tcb task).placed = 0) (hcancel : (s.tcb task).cancel = true) :
    s.tryTask task mask = .ends (s.endTask task 65) := by
  unfold State.tryTask
  simp [hplaced, hcancel]

theorem State.tryTask_empty (hplaced : (s.tcb task).placed = 0) (hcancel : (s.tcb task).cancel = false)
    (htiles : (s.tcb task).tiles = 0) : s.tryTask task mask = .ends (s.toRetiring task) := by
  unfold State.tryTask
  simp [hplaced, hcancel, htiles]

theorem State.placeOne_of {k : Kernel} {lead : Nat} {spill : List Nat} (hspan : s.findSpan task k mask = some lead)
    (hroom : s.spillRoom (s.tcb task).owner k.groups k.spillSz = some spill) :
    s.placeOne task k mask = some (s.startBlock task k lead spill) := by
  unfold State.placeOne
  rw [hspan, hroom]

/-- A further block of a task whose kernel is known. -/
theorem State.tryTask_next {k : Kernel} {lead : Nat} {spill : List Nat} (hkernel : (s.tcb task).kernel = some k)
    (hplaced : 0 < (s.tcb task).placed) (halone : (s.tcb task).coresident = false) (hblocks : (s.tcb task).blocks ≠ 0)
    (hcap : s.capacity k (s.tcb task).fmask ≠ 0) (hspan : s.findSpan task k ((s.tcb task).fmask &&& mask) = some lead)
    (hroom : s.spillRoom (s.tcb task).owner k.groups k.spillSz = some spill) :
    s.tryTask task mask = .places (s.startBlock task k lead spill) := by
  have hne : (s.tcb task).placed ≠ 0 := by omega
  have hread : s.taskKernel task = .ok (k, s) := by
    unfold State.taskKernel
    simp only [hkernel]
  have hfix : s.fixBlocks task k = (s, (s.tcb task).blocks) := by
    unfold State.fixBlocks
    simp [hkernel, hne]
  unfold State.tryTask
  simp [hne, hread, hfix, hblocks, hcap, halone, State.placeOne_of hspan hroom]

/-- The first block of a task, once its kernel has been read. -/
theorem State.tryTask_first {s1 : State} {k : Kernel} {lead : Nat} {spill : List Nat} (hkernel : (s.tcb task).kernel = none)
    (hplaced : (s.tcb task).placed = 0) (hcancel : (s.tcb task).cancel = false) (htiles : (s.tcb task).tiles ≠ 0)
    (hfused : (s.tcb task).fusedFlag = false) (halone : (s.tcb task).coresident = false)
    (hread : s.readKernel (s.tcb task).owner (4 * dieOfTask task) (s.tcb task).kdesc (s.tcb task).args = .ok (k, s1)) :
    let t1 := s1.tcb task
    let n := min t1.tiles (s1.capacity k t1.fmask)
    let s2 := s1.setTcb task { t1 with kernel := some k, blocks := n }
    k.groups * k.spillSz ≤ (s1.owner t1.owner).spillSize * 65536 → n ≠ 0 →
      s2.findSpan task k ((s.tcb task).fmask &&& mask) = some lead →
      s2.spillRoom (s2.tcb task).owner k.groups k.spillSz = some spill →
      s.tryTask task mask = .places (s2.startBlock task k lead spill) := by
  intro t1 n s2 hpool hn hspan hroom
  have htcb : s1.tcb task = s.tcb task := by
    unfold State.tcb
    rw [State.readKernel_tcbs hread]
  have hkern : s.taskKernel task = .ok (k, s1) := by
    unfold State.taskKernel
    simp [hkernel, hread, hfused]
  have hwide : ¬ (s1.owner t1.owner).spillSize * 65536 < k.groups * k.spillSz := Nat.not_lt.2 hpool
  have hfix : s1.fixBlocks task k = (s2, n) := by
    unfold State.fixBlocks
    simp only [show (s1.tcb task).kernel.isSome = false by rw [htcb, hkernel]; rfl, Bool.false_eq_true, if_false]
    rw [if_neg hwide]
  unfold State.tryTask
  simp [hplaced, hcancel, htiles, hkern, hfix, hn, halone, State.placeOne_of hspan hroom]

/-- A saved block of a task that is not coresident. -/
theorem State.tryResume_of {r : BlockRef} {b : Block} {lead : Nat} {spill : List Nat} (hb : s.block? r = some b)
    (halone : (s.tcb r.task).coresident = false)
    (hspan : s.findSpan b.ref.task b.kernel ((s.tcb r.task).fmask &&& mask) (s.copiesFit b) = some lead)
    (hroom : s.spillRoom b.owner b.kernel.groups b.kernel.spillSz = some spill) :
    s.tryResume r mask = .places (s.resumeBlock b lead spill) := by
  have hone : s.resumeOne ((s.tcb r.task).fmask &&& mask) b = some (s.resumeBlock b lead spill) := by
    unfold State.resumeOne
    rw [hspan, hroom]
  unfold State.tryResume
  simp [hb, halone, hone]

end

/-! ### Blocks that stop (R434) -/

theorem State.squash_blocks (s : State) (r : GroupRef) : (s.squash r).blocks = s.blocks := by
  unfold State.squash
  split
  · rfl
  · split
    · rfl
    · exact (s.endCopies_accounted _ _).blocks

theorem State.squashAll_blocks (s : State) (rs : List GroupRef) : (s.squashAll rs).blocks = s.blocks :=
  foldl_keeps State.blocks State.squash_blocks rs s

/-- A list of blocks holds one that is saved to unit `n` of the pool. -/
def StopsAt (blocks : List Block) (r : BlockRef) (state : BlockState) : Prop :=
  (∃ x ∈ blocks, x.ref = r) ∧ ∀ x ∈ blocks, x.ref = r → x.state = state

/-- With room in the pool, the block that stops is being saved, and no other changes its state. -/
theorem State.stopToSave_stops {s : State} {b : Block} {n : Nat} (reason : Nat) (hb : s.block? b.ref = some b) :
    let sq := s.squashAll ((s.groupsOf b.ref).map fun g => g.ref)
    let total := (b.areaLayout (sq.groupList b)).2.2
    pickUnits (sq.die b.die).saveUnits (sq.die b.die).saveSize ((total + 65535) / 65536) = some n →
      ∃ u, s.stopToSave b.ref reason = some u ∧
        StopsAt u.blocks b.ref (.saving reason n ((total + 65535) / 65536) (s.gtc + 24 + (total + 311) / 312)) := by
  intro sq total hroom
  refine ⟨(sq.setDie b.die { (sq.die b.die) with
    saveUnits := (sq.die b.die).saveUnits ++ [(n, (total + 65535) / 65536)] }).modBlock b.ref fun x =>
      { x with state := .saving reason n ((total + 65535) / 65536) (s.gtc + 24 + (total + 311) / 312) }, ?_, ?_, ?_⟩
  · unfold State.stopToSave
    simp only [hb]
    rw [show pickUnits _ _ _ = some n from hroom]
  · refine ⟨_, List.mem_map_of_mem (a := b) ?_, ?_⟩
    · rw [State.setDie_blocks, s.squashAll_blocks]
      exact List.mem_of_find?_eq_some hb
    · rw [if_pos rfl]
  · intro x hx hr
    obtain ⟨y, -, rfl⟩ := List.mem_map.1 hx
    by_cases hy : y.ref = b.ref
    · rw [if_pos hy]
    · rw [if_neg hy] at hr
      exact absurd hr hy

theorem State.stopAll_one (s : State) (reason : Nat) (r : BlockRef) : s.stopAll reason [r] = s.stopToSave r reason := by
  unfold State.stopAll State.stopAll
  split <;> rename_i h <;> rw [h]

theorem exec_reservationPreempt_of {s t : State} {task : Nat} {b : Block} {bs : List Block} (hunmet : s.reservationUnmet task = true)
    (hvictims : s.victims task = b :: bs) (hstop : s.stopAll 1 (s.withCoresident b) = some t) :
    exec (.reservationPreempt task) s = .next t := by
  change execReservationPreempt task s = _
  unfold execReservationPreempt
  rw [if_neg (by simp [hunmet]), hvictims]
  simp only [hstop, Option.getD_some]

/-! ### Requests of the host to a die (R433, R439) -/

section
variable {s : State} {die : Nat}

theorem State.pctlDone_ended (s : State) (die result : Nat) :
    ((s.pctlDone die result).die die).pctlDone = true ∧ ((s.pctlDone die result).die die).pctlResult = result := by
  unfold State.pctlDone
  rw [State.die_setDie_same]
  exact ⟨rfl, rfl⟩

/-- The die's PCTL asks for something that has not been done, and no drone pair recovers. -/
structure State.Asks (s : State) (die op : Nat) : Prop where
  undone : (s.die die).pctlDone = false
  op : (s.die die).runOp = op
  steady : s.drone.recovering = none
  here : dieOfTask (s.die die).runTask = die
  task : (s.die die).runTask < 2 ^ 21

theorem State.Asks.stands {op : Nat} (h : s.Asks die op) :
    ¬ ((s.die die).pctlDone || (s.die die).runOp ≠ op || s.drone.recovering.isSome) = true := by
  simp [h.undone, h.op, h.steady]

theorem State.Asks.mine {op : Nat} (h : s.Asks die op) :
    ¬ (dieOfTask (s.die die).runTask ≠ die || 2 ^ 21 ≤ (s.die die).runTask) = true := by
  simp only [h.here, ne_eq, not_true_eq_false, decide_false, Bool.false_or, decide_eq_true_eq]
  exact Nat.not_le.2 h.task

section
variable (h : s.Asks die 1) (hbegun : (s.die die).pctlBegun = false)
include h hbegun

theorem exec_preempt_retiring (hstate : (s.tcb (s.die die).runTask).state = .retiring) :
    exec (.preempt die) s = .next (s.pctlDone die 0) := by
  change execPreempt die s = _
  unfold execPreempt
  dsimp only
  rw [if_neg h.stands, if_neg (by simp [hbegun]), if_neg h.mine, if_pos hstate]

theorem exec_preempt_other (hrun : (s.tcb (s.die die).runTask).state ≠ .running)
    (hretiring : (s.tcb (s.die die).runTask).state ≠ .retiring) : exec (.preempt die) s = .next (s.pctlDone die 1) := by
  change execPreempt die s = _
  unfold execPreempt
  dsimp only
  rw [if_neg h.stands, if_neg (by simp [hbegun]), if_neg h.mine, if_neg hretiring, if_pos hrun]

theorem exec_preempt_full (hrun : (s.tcb (s.die die).runTask).state = .running)
    (hfull : s.preemptTask (s.die die).runTask 1 = none) : exec (.preempt die) s = .next (s.pctlDone die 2) := by
  change execPreempt die s = _
  unfold execPreempt
  dsimp only
  rw [if_neg h.stands, if_neg (by simp [hbegun]), if_neg h.mine, if_neg (by simp [hrun]), if_neg (by simp [hrun]), hfull]

theorem exec_preempt_stops {t : State} (hrun : (s.tcb (s.die die).runTask).state = .running)
    (hstop : s.preemptTask (s.die die).runTask 1 = some t) :
    exec (.preempt die) s = .next (t.setDie die { (t.die die) with pctlBegun := true }).finishPctl := by
  change execPreempt die s = _
  unfold execPreempt
  dsimp only
  rw [if_neg h.stands, if_neg (by simp [hbegun]), if_neg h.mine, if_neg (by simp [hrun]), if_neg (by simp [hrun]), hstop]

end

theorem exec_kill_begins (h : s.Asks die 2) (hbegun : (s.die die).pctlBegun = false)
    (hrun : (s.tcb (s.die die).runTask).state = .running) :
    let u := s.endTask (s.die die).runTask 66
    exec (.kill die) s = .next (u.setDie die { (u.die die) with pctlBegun := true }) := by
  change execKill die s = _
  unfold execKill
  dsimp only
  rw [if_neg h.stands, if_neg h.mine, if_pos (by simp [hbegun]), if_pos hrun]

theorem exec_kill_done (h : s.Asks die 2) (hbegun : (s.die die).pctlBegun = true)
    (hrun : (s.tcb (s.die die).runTask).state ≠ .running) : exec (.kill die) s = .next (s.pctlDone die 0) := by
  change execKill die s = _
  unfold execKill
  dsimp only
  rw [if_neg h.stands, if_neg h.mine, if_neg (by simp [hbegun]), if_neg hrun]

end

/-! ### The tile dispenser (R132, R133) -/

/-- What a refill takes: from the list, and, where that is short of a batch, from the counter. -/
theorem Tcb.refill_spec (t : Tcb) (die batch : Nat) :
    let list := t.returned.take batch
    let add : Prop := list.length < batch ∧ die ∉ t.spent
    let u := t.refill die batch
    u.returned = t.returned.drop batch ∧
      (add → u.counter = t.counter + batch ∧
        tget [] u.stock die = tget [] t.stock die ++ list ++ codes t.counter (min (t.counter + batch) t.tiles - t.counter) ∧
        (t.tiles ≤ t.counter → die ∈ u.spent)) ∧
      (¬ add → u.counter = t.counter ∧ tget [] u.stock die = tget [] t.stock die ++ list) := by
  intro list add u
  have hadd : (list.length < batch && !t.spent.contains die) = decide add := by
    rw [Bool.decide_and]
    simp
  have hcounter : u.counter = if decide add then t.counter + batch else t.counter := by rw [← hadd]; rfl
  have hstock : tget [] u.stock die = tget [] t.stock die ++ list ++
      if decide add then codes t.counter (min (t.counter + batch) t.tiles - t.counter) else [] := by
    rw [← hadd]
    exact tget_tset_same _ _ _ _
  refine ⟨rfl, fun h => ?_, fun h => ?_⟩
  · rw [hcounter, hstock, decide_eq_true h]
    refine ⟨rfl, rfl, fun hall => ?_⟩
    change die ∈ if (list.length < batch && !t.spent.contains die) && t.tiles ≤ t.counter then die :: t.spent else t.spent
    rw [hadd, decide_eq_true h, decide_eq_true hall]
    exact List.mem_cons_self
  · rw [hcounter, hstock, decide_eq_false h]
    exact ⟨rfl, List.append_nil _⟩

theorem exec_dispenserRefill_asks {s : State} {task die : Nat} (hdue : s.refillDue task die = false)
    (hwanted : s.refillWanted task die = true) :
    exec (.dispenserRefill task die) s = .next (s.setTcb task ((s.tcb task).ask task die s.gtc)) := by
  change execDispenserRefill task die s = _
  unfold execDispenserRefill
  dsimp only
  rw [if_neg (by simp [hdue]), if_pos hwanted]

theorem exec_dispenserRefill_performs {s : State} {task die : Nat} (hdue : s.refillDue task die = true)
    (hopen : ∃ x ∈ s.blocksOn task die, x.exhausted = false) :
    exec (.dispenserRefill task die) s = .next (s.setTcb task ((s.tcb task).refill die (s.die die).batch)) := by
  obtain ⟨x, hx, hexhausted⟩ := hopen
  have hsome : ¬ ((s.blocksOn task die).all fun b => b.exhausted) = true := fun h => by
    have := List.all_eq_true.1 h x hx
    simp [hexhausted] at this
  change execDispenserRefill task die s = _
  unfold execDispenserRefill
  dsimp only
  rw [if_pos hdue, if_neg hsome]

/-! ### A splice is decided (R110, R111, R115) -/

theorem exec_spliceDecision_refused {s : State} {task code : Nat} (hsplicing : (s.tcb task).splicing = true)
    (htests : s.spliceTests task = .error code) : exec (.spliceDecision task) s =
      .next (s.setTcb task { (s.tcb task) with refusal := code, splicing := false }) := by
  change execSpliceDecision task s = _
  unfold execSpliceDecision
  dsimp only
  rw [if_neg (by simp [hsplicing]), htests]

theorem exec_spliceDecision_fuses {s : State} {task : Nat} {pl : Plan} {f : Fused} (hsplicing : (s.tcb task).splicing = true)
    (htests : s.spliceTests task = .ok pl) (hfuse : pl.fuse task = some f) :
    exec (.spliceDecision task) s = .next (pl.commit task f) := by
  change execSpliceDecision task s = _
  unfold execSpliceDecision
  dsimp only
  rw [if_neg (by simp [hsplicing]), htests]
  simp only [hfuse]

theorem Plan.tcb_commit_consumer (pl : Plan) (task : Nat) (f : Fused) : (pl.commit task f).tcb task =
    { (pl.s.tcb task) with state := .fused, fusedWith := pl.pTask, splicing := false } := by
  unfold Plan.commit
  exact State.tcb_setTcb_same ..

theorem Plan.tcb_commit_producer (pl : Plan) {task : Nat} (f : Fused) (h : pl.pTask ≠ task) : (pl.commit task f).tcb pl.pTask =
    { (pl.s.tcb pl.pTask) with
      fusedFlag := true, fusedCode := some f, fusedWith := task, prio := max (pl.s.tcb pl.pTask).prio (pl.s.tcb task).prio,
      fmask := (pl.s.tcb pl.pTask).fmask &&& (pl.s.tcb task).fmask, kernel := none, blocks := 0 } := by
  unfold Plan.commit
  rw [State.tcb_setTcb_other _ _ (Ne.symm h)]
  exact State.tcb_setTcb_same ..

theorem exec_reservation_due {s : State} {task : Nat} (h : (s.tcb task).reservationDue s.gtc = true) :
    exec (.reservation task) s = .next (s.setTcb task { (s.tcb task) with reserved := true, reservedSince := s.gtc }) := by
  change execReservation task s = _
  unfold execReservation
  dsimp only
  rw [if_pos h]

/-- A block that stops in a task of its own: RESERVATION_PREEMPT's victim. -/
theorem State.withCoresident_alone {s : State} {b : Block} (h : (s.tcb b.ref.task).coresident = false) :
    s.withCoresident b = [b.ref] := by
  unfold State.withCoresident
  exact if_neg (by simp [h])

/-- Settles O36: each event is its execution's equation; a block that starts is `startBlock_starts`, one that stops
`stopToSave_stops`. -/
theorem dispatcherEvents : Obligations.DispatcherEvents := by
  intro s s1 task die lead n c cs r b bs k spill t0 tc d chance asked go here ended sq total room stops
  have hasks (op : Nat) (ha : asked op) (hh : here) : s.Asks die op := ⟨ha.1, ha.2.1, ha.2.2, hh.1, hh.2⟩
  refine ⟨?_, ?_, ?_, ?_, ?_, ?_, ?_, ?_, ?_, ?_, ?_, ?_, ?_, ?_, ?_, ?_, ?_, ?_, ?_, ?_⟩
  · intro hsplicing code htests
    refine ⟨_, exec_spliceDecision_refused hsplicing htests, ?_⟩
    rw [State.tcb_setTcb_same]
    exact ⟨rfl, rfl, rfl⟩
  · intro hsplicing pl f htests hfuse hother
    refine ⟨_, exec_spliceDecision_fuses hsplicing htests hfuse, ?_⟩
    simp only [pl.tcb_commit_consumer, pl.tcb_commit_producer f hother, and_self]
  · rintro ⟨hplacing, hfirst⟩ hfresh hplaced hcancel
    exact exec_placeBlock_of (State.dispatchDie_ends hplacing hfirst
      ((State.tryCandidate_task hfresh 255).trans (State.tryTask_cancelled hplaced hcancel))) hfresh
  · rintro ⟨hplacing, hfirst⟩ hfresh hplaced hcancel htiles
    exact exec_placeBlock_of (State.dispatchDie_ends hplacing hfirst
      ((State.tryCandidate_task hfresh 255).trans (State.tryTask_empty hplaced hcancel htiles))) hfresh
  · rintro ⟨hplacing, hfirst⟩ hfresh hkernel hplaced halone hblocks hcap hspan hroom hnew
    exact ⟨_, exec_placeBlock_of (State.dispatchDie_places hplacing hfirst ((State.tryCandidate_task hfresh 255).trans
      (State.tryTask_next hkernel hplaced halone hblocks hcap hspan hroom))) hfresh, State.startBlock_starts k lead spill hnew⟩
  · rintro ⟨hplacing, hfirst⟩ hfresh hkernel hplaced hcancel htiles hfused halone hread t1 s2 hpool hn hspan hroom hnew
    have hstarts := State.startBlock_starts k lead spill hnew
    rw [State.tcb_setTcb_same] at hstarts
    exact ⟨_, exec_placeBlock_of (State.dispatchDie_places hplacing hfirst ((State.tryCandidate_task hfresh 255).trans
      (State.tryTask_first hkernel hplaced hcancel htiles hfused halone hread hpool hn hspan hroom))) hfresh, hstarts⟩
  · rintro ⟨hplacing, hfirst⟩ hresume hb halone hspan hroom
    have htry : s.tryCandidate c 255 = s.tryResume r 255 := by
      unfold State.tryCandidate
      rw [hresume]
    exact exec_blockResume_of (State.dispatchDie_places hplacing hfirst
      (htry.trans (State.tryResume_of hb halone hspan hroom))) hresume
  · rintro ⟨hplacing, hfirst⟩ hresume htry
    exact exec_blockResume_of (State.dispatchDie_places hplacing hfirst htry) hresume
  · exact exec_reservation_due
  · exact exec_reservationPreempt_of
  · rintro hunmet hvictims halone ⟨hb, hpick⟩
    obtain ⟨u, hstop, hstops⟩ := State.stopToSave_stops 1 hb hpick
    rw [← s.stopAll_one, ← State.withCoresident_alone halone] at hstop
    exact ⟨u, exec_reservationPreempt_of hunmet hvictims hstop, hstops⟩
  · exact exec_dispenserRefill_asks
  · intro hdue hopen
    refine ⟨_, exec_dispenserRefill_performs hdue hopen, ?_⟩
    rw [State.tcb_setTcb_same]
    exact Tcb.refill_spec ..
  · exact fun hgo hhere hrun hstop => exec_preempt_stops (hasks 1 hgo.1 hhere) hgo.2 hrun hstop
  · rintro hgo hhere hrun honly ⟨hb, hpick⟩
    obtain ⟨u, hstop, hstops⟩ := State.stopToSave_stops 1 hb hpick
    have hpreempt : s.preemptTask (s.die die).runTask 1 = some u := by
      unfold State.preemptTask
      rw [honly]
      exact (s.stopAll_one 1 b.ref).trans hstop
    refine ⟨_, exec_preempt_stops (hasks 1 hgo.1 hhere) hgo.2 hrun hpreempt, ?_⟩
    have hblocks := (State.finishPctl_accounted (u.setDie die { (u.die die) with pctlBegun := true })).blocks
    rw [State.setDie_blocks] at hblocks
    change StopsAt _ _ _
    rw [hblocks]
    exact hstops
  · exact fun hgo hhere hrun hfull =>
      ⟨_, exec_preempt_full (hasks 1 hgo.1 hhere) hgo.2 hrun hfull, s.pctlDone_ended die 2⟩
  · exact fun hgo hhere hretiring =>
      ⟨_, exec_preempt_retiring (hasks 1 hgo.1 hhere) hgo.2 hretiring, s.pctlDone_ended die 0⟩
  · exact fun hgo hhere hrun hretiring =>
      ⟨_, exec_preempt_other (hasks 1 hgo.1 hhere) hgo.2 hrun hretiring, s.pctlDone_ended die 1⟩
  · exact fun ha hhere hbegun hrun => exec_kill_begins (hasks 2 ha hhere) hbegun hrun
  · exact fun ha hhere hbegun hrun => ⟨_, exec_kill_done (hasks 2 ha hhere) hbegun hrun, s.pctlDone_ended die 0⟩

end Sys2Proof.Machine

namespace Sys2Proof.Machine

open Sys2Proof

/-! ## Placement and power (chapter 7) -/

/-! ### What the operations on fields and benches leave -/

section
variable (s : State)

@[simp] theorem State.field_modField_same (f : Nat) (k : Field → Field) : (s.modField f k).field f = k (s.field f) :=
  State.field_setField_same _ _ _

theorem State.field_modField_other {f i : Nat} (k : Field → Field) (h : f ≠ i) : (s.modField f k).field i = s.field i :=
  State.field_setField_other _ _ h

@[simp] theorem State.bench_modBench_same (b : Nat) (k : Bench → Bench) : (s.modBench b k).bench b = k (s.bench b) :=
  State.bench_setBench_same _ _ _

theorem State.bench_modBench_other {b i : Nat} (k : Bench → Bench) (h : b ≠ i) : (s.modBench b k).bench i = s.bench i :=
  State.bench_setBench_other _ _ h

/-- One change made to each field of a list, which may depend on the time. -/
theorem State.field_foldl_modField (k : Nat → Field → Field) {l : List Nat} (hl : l.Nodup) (i : Nat) :
    (l.foldl (fun s f => s.modField f (k s.gtc)) s).field i = if i ∈ l then k s.gtc (s.field i) else s.field i := by
  induction l generalizing s with
  | nil => rfl
  | cons f l ih =>
    obtain ⟨hf, hl⟩ := List.nodup_cons.1 hl
    rw [List.foldl_cons, ih _ hl, show (s.modField f (k s.gtc)).gtc = s.gtc from rfl]
    by_cases e : f = i
    · subst e
      simp [hf]
    · rw [s.field_modField_other _ e]
      simp [Ne.symm e]

/-- One change made to each bench of a list. -/
theorem State.bench_foldl_modBench (k : Bench → Bench) {l : List Nat} (hl : l.Nodup) (i : Nat) :
    (l.foldl (fun s b => s.modBench b k) s).bench i = if i ∈ l then k (s.bench i) else s.bench i := by
  induction l generalizing s with
  | nil => rfl
  | cons b l ih =>
    obtain ⟨hb, hl⟩ := List.nodup_cons.1 hl
    rw [List.foldl_cons, ih _ hl]
    by_cases e : b = i
    · subst e
      simp [hb]
    · rw [s.bench_modBench_other _ e]
      simp [Ne.symm e]

/-- Before a pattern changes the benches' counters alone are brought up to date. -/
theorem State.settled_keeps {α : Type} (p : State → α) (hp : ∀ s x, p { s with benches := x } = p s) (l : List Nat) :
    p (l.foldl State.settleBench s) = p s :=
  foldl_keeps p (fun s _ => hp s _) l s

theorem State.field_settled (l : List Nat) (i : Nat) : (l.foldl State.settleBench s).field i = s.field i :=
  s.settled_keeps (State.field · i) (fun _ _ => rfl) l

/-- A power record leaves the fields and the benches. -/
@[simp] theorem State.field_powerRecord (f type code data0 i : Nat) : (s.powerRecord f type code data0).field i = s.field i :=
  s.record_keeps (State.field · i) (fun _ _ _ => rfl) _

@[simp] theorem State.bench_powerRecord (f type code data0 i : Nat) : (s.powerRecord f type code data0).bench i = s.bench i :=
  s.record_keeps (State.bench · i) (fun _ _ _ => rfl) _

/-- A guard changes one field behind the settled benches, and leaves a record. -/
theorem State.field_repattern_modField (l : List Nat) (f : Nat) (k : Field → Field) :
    (s.repattern l fun s => s.modField f k).field f = k (s.field f) := by
  unfold State.repattern
  rw [State.field_modField_same, State.field_settled]

end

/-! ### Forced patterns (R139, R143) -/

theorem Field.forced_modTrip {x : Field} (h : x.modTrip = true) : x.forced = some 0x8888 := by
  simp [Field.forced, h]

theorem Field.forced_hot {x : Field} {n : Nat} (h : n ∈ x.hot) : x.forced = some 0x8888 := by
  simp [Field.forced, List.ne_nil_of_mem h]

theorem Field.forced_tripped {x : Field} (h : x.tripped = true) (hmod : x.modTrip = false) (hhot : x.hot = []) :
    x.forced = some 0xAAAA := by
  simp [Field.forced, h, hmod, hhot]

/-! ### Ramps (R140) -/

theorem mem_besideField {f n : Nat} : n ∈ besideField f ↔ n < 8 ∧ n / 4 = f / 4 ∧ (n = f + 1 ∨ f = n + 1) := by
  simp only [besideField, List.mem_filter, List.mem_cons, List.not_mem_nil, or_false, Bool.and_eq_true, decide_eq_true_eq]
  omega

section
variable (s : State) (f : Nat)

theorem State.rampClear_iff : s.rampClear f = true ↔ s.hung = false ∧ s.inputPower + 60 ≤ 3400 ∧
    ∀ i < 8, i / 4 = f / 4 → i = f + 1 ∨ f = i + 1 → (s.field i).tripped = false := by
  simp [State.rampClear, mem_besideField, and_assoc]

/-- Reservations change the benches alone. -/
theorem State.fixInrush_keeps {α : Type} (p : State → α) (hp : ∀ s x, p { s with benches := x } = p s) (fs : List Nat) :
    p (s.fixInrush fs) = p s := by
  unfold State.fixInrush
  exact foldl_keeps p (fun s b => (hp (s.debit b 0) _).trans (hp s _)) _ s

theorem State.field_fixInrush (fs : List Nat) (i : Nat) : (s.fixInrush fs).field i = s.field i :=
  s.fixInrush_keeps (State.field · i) (fun _ _ => rfl) fs

/-- A ramp, or the wait for one, changes fields and benches alone. -/
theorem State.askRamp_keeps {α : Type} (p : State → α) (hp : ∀ s x y, p { s with fields := x, benches := y } = p s) :
    p (s.askRamp f) = p s := by
  unfold State.askRamp
  split
  · exact (State.fixInrush_keeps _ p (fun s x => hp s s.fields x) _).trans (hp s _ s.benches)
  · exact hp s _ s.benches

theorem State.field_askRamp_other {i : Nat} (h : f ≠ i) : (s.askRamp f).field i = s.field i := by
  unfold State.askRamp
  split
  · rw [State.field_fixInrush, s.field_modField_other _ h]
  · exact s.field_modField_other _ h

/-- A ramp that may start. -/
theorem State.askRamp_ramps (h : s.rampClear f = true) :
    let x := (s.askRamp f).field f
    x.ramping = some (s.gtc + 2000000) ∧ x.inrushUntil = some (s.gtc + 200000) ∧ x.inrushFrom = s.neighbours f ∧
      x.on = (s.field f).on := by
  unfold State.askRamp
  rw [if_pos h, State.field_fixInrush, State.field_modField_same]
  exact ⟨rfl, rfl, rfl, rfl⟩

theorem State.askRamp_waits (h : ¬s.rampClear f = true) : s.askRamp f = s.setField f { s.field f with rampAsked := true } :=
  if_neg h

/-- What returns a reservation changes fields and benches alone. -/
theorem State.returnInrush_keeps {α : Type} (p : State → α) (hp : ∀ s x y, p { s with fields := x, benches := y } = p s) :
    p (s.returnInrush f) = p s := by
  unfold State.returnInrush
  split
  · rfl
  · exact (State.fixInrush_keeps _ p (fun s x => hp s s.fields x) _).trans (hp s _ s.benches)

theorem State.field_returnInrush : ∃ e l, (s.returnInrush f).field f = { s.field f with inrushUntil := e, inrushFrom := l } := by
  unfold State.returnInrush
  split
  · exact ⟨_, _, rfl⟩
  · exact ⟨_, _, by rw [State.field_fixInrush, State.field_modField_same]⟩

/-- The state behind a ramp that ends, with the field off where its self-test failed. -/
def State.rampEnded (bad : Bool) : State :=
  (s.modField f fun x => { x with ramping := none, on := !bad, offline := x.offline || (bad && f ≠ 0) }).returnInrush f

theorem State.rampEnded_keeps {α : Type} (p : State → α) (hp : ∀ s x y, p { s with fields := x, benches := y } = p s)
    (bad : Bool) : p (s.rampEnded f bad) = p s :=
  (State.returnInrush_keeps _ f p hp).trans (hp s _ s.benches)

theorem State.field_rampEnded (bad : Bool) :
    ((s.rampEnded f bad).field f).ramping = none ∧ ((s.rampEnded f bad).field f).on = !bad := by
  unfold State.rampEnded
  obtain ⟨e, l, h⟩ := State.field_returnInrush
    (s.modField f fun x => { x with ramping := none, on := !bad, offline := x.offline || (bad && f ≠ 0) }) f
  rw [h, State.field_modField_same]
  exact ⟨rfl, rfl⟩

end

/-! ### Bring-up (R141, R142) -/

section
variable {s : State} {u : BringUp} {f : Nat}

/-- Bring-up ramps the next field at most. -/
theorem State.field_bringUpNext : (s.bringUpNext u).field u.field = s.field u.field := by
  unfold State.bringUpNext
  split
  · rfl
  split
  · rfl
  split
  · rw [State.field_askRamp_other _ _ (Nat.succ_ne_self _)]
    rfl
  · rfl

theorem State.bringUpNext_failed (h0 : u.field = 0) (hbad : bit u.failed 0 = true) :
    s.bringUpNext u = { s with bringUp := none, smbus := some 3 } :=
  if_pos (by simp [h0, hbad])

theorem State.bringUpNext_unsigned (h0 : u.field = 0) (hgood : bit u.failed 0 = false) (himage : u.signed = false) :
    s.bringUpNext u = { s with step := 3, bringUp := none, smbus := some 4 } := by
  simp [State.bringUpNext, h0, hgood, himage]

theorem State.bringUpNext_ramps (hlast : u.field < 7) (h0 : u.field = 0 → bit u.failed 0 = false ∧ u.signed = true) :
    s.bringUpNext u = ({ s with step := 4, bringUp := some { u with field := u.field + 1 } }.setDie 0
      { (s.die 0) with tcbPool := u.pool0 / 256 * 256, poolUp := true }).askRamp (u.field + 1) := by
  unfold State.bringUpNext
  rw [if_neg (by simpa using fun h => (h0 h).1), if_neg (by simpa using fun h => (h0 h).2), if_pos hlast]

theorem State.bringUpNext_last (hlast : u.field = 7) : s.bringUpNext u =
    { (s.setDie 1 { (s.die 1) with tcbPool := u.pool1 / 256 * 256, poolUp := true }) with
      step := 7, bringUp := none, watchdog := s.gtc } := by
  simp [State.bringUpNext, hlast]

end

/-! ### The power events -/

section
variable {s : State} {f : Nat}

theorem exec_powerUp {strap pool0 pool1 failed : Nat} {signed : Bool} (h : s.step = 0) :
    exec (.powerUp strap pool0 pool1 failed signed) s =
      .next ({ s with step := 2, domid := strap % 16, bringUp := some { pool0, pool1, failed, signed, field := 0 } }.askRamp 0) :=
  (if_neg (not_not.2 h) : execPowerUp strap pool0 pool1 failed signed s = _)

/-- A field that is off and in order, on a module that is up. -/
theorem exec_fieldPowerUp (hf : f < 8) (hhung : s.hung = false) (hstep : s.step = 7) (hin : (s.field f).offline = false)
    (hon : (s.field f).on = false) (hramp : (s.field f).ramping = none) :
    exec (.fieldPowerUp f) s = .next (s.askRamp f) :=
  (if_pos (by simp [hf, hhung, hstep, hin, hon, hramp]) : execFieldPowerUp f s = _)

theorem exec_fieldPowerUp_hung (h : s.hung = true) : exec (.fieldPowerUp f) s = .next s :=
  (if_neg (by simp [h]) : execFieldPowerUp f s = _)

theorem exec_fieldPowerDown (hon : (s.field f).on = true) (hfree : s.fieldBusy f = false) (hhung : s.hung = false) :
    exec (.fieldPowerDown f) s = .next (s.setField f { s.field f with on := false }) :=
  (if_pos (by simp [hon, hfree, hhung]) : execFieldPowerDown f s = _)

theorem exec_fieldPowerDown_hung (h : s.hung = true) : exec (.fieldPowerDown f) s = .next s :=
  (if_neg (by simp [h]) : execFieldPowerDown f s = _)

/-- A ramp ends outside bring-up. -/
theorem exec_fieldRampDone_alone {e : Nat} (hramp : (s.field f).ramping = some e) (he : e ≤ s.gtc) (hup : s.bringUp = none) :
    exec (.fieldRampDone f) s = .next (s.rampEnded f false) := by
  change execFieldRampDone f s = _
  unfold execFieldRampDone
  rw [if_pos (by simp [hramp, he]), hup]
  rfl

/-- And within it. -/
theorem exec_fieldRampDone_bringUp {e : Nat} {u : BringUp} (hramp : (s.field f).ramping = some e) (he : e ≤ s.gtc)
    (hup : s.bringUp = some u) (hu : u.field = f) :
    exec (.fieldRampDone f) s = .next ((s.rampEnded f (bit u.failed f)).bringUpNext u) := by
  change execFieldRampDone f s = _
  unfold execFieldRampDone
  rw [if_pos (by simp [hramp, he]), hup]
  simp only [Option.filter_some, hu, decide_true, if_true, Option.any_some]
  rfl

/-- The field of bring-up, behind its ramp. -/
theorem State.field_rampEnded_bringUp {u : BringUp} (hu : u.field = f) (bad : Bool) :
    (((s.rampEnded f bad).bringUpNext u).field f).ramping = none ∧ (((s.rampEnded f bad).bringUpNext u).field f).on = !bad := by
  subst hu
  rw [State.field_bringUpNext]
  exact s.field_rampEnded _ bad

theorem exec_supplyPath {die pin fields current drop : Nat} (hstep : 6 ≤ s.step)
    (h : current * Config.pathResistance (die % 2) pin + 150 < drop) :
    exec (.supplyPath die pin fields ⟨current, drop⟩) s =
      .next ((((List.range 8).filter fun f => bit fields f).foldl
        (fun s f => s.modField f fun x => { x with halved := true }.judge s.gtc) s).powerRecord (4 * (die % 2)) 12 pin drop) :=
  (if_neg (by simp; omega) : execSupplyPath die pin fields ⟨current, drop⟩ s = _)

theorem exec_supplyPath_within {die pin fields current drop : Nat}
    (h : drop ≤ current * Config.pathResistance (die % 2) pin + 150) :
    exec (.supplyPath die pin fields ⟨current, drop⟩) s = .next s :=
  (if_pos (by simp [h]) : execSupplyPath die pin fields ⟨current, drop⟩ s = _)

theorem exec_fieldTrip (hf : f < 8) (hcur : (s.field f).eff ≤ (s.field f).cur) (htrip : (s.field f).tripped = false) :
    exec (.fieldTrip f) s = .next ((s.repattern (benchesOf f) fun s => s.modField f fun x =>
      { x with tripped := true, lowSince := none }).powerRecord f 15 0xAAAA (s.field f).cur) :=
  (if_pos (by simp [hf, hcur, htrip]) : execFieldTrip f s = _)

theorem exec_fieldTripRelease {e : Nat} (htrip : (s.field f).tripped = true) (hlow : (s.field f).lowSince = some e)
    (he : e + 10000 ≤ s.gtc) : exec (.fieldTripRelease f) s =
      .next (s.repattern (benchesOf f) fun s => s.modField f fun x => { x with tripped := false }) :=
  (if_pos (by simp [htrip, hlow, he]) : execFieldTripRelease f s = _)

theorem exec_pwrWatchdog (h : s.watchdog + 1000000 ≤ s.gtc) :
    exec (.pwrWatchdog f) s = .next ({ s with watchdog := s.gtc, hung := true }.powerRecord f 13 0 0) :=
  (if_pos h : execPwrWatchdog f s = _)

theorem exec_thermal {sensor temp : Nat} (hf : f < 8) (ht : 115 ≤ temp) : exec (.thermal f sensor temp) s =
    .next ((s.repattern (benchesOf f) fun s => s.modField f fun x => { x with
      hot := if x.hot.contains sensor then x.hot else sensor :: x.hot }).powerRecord f 16 sensor temp) :=
  (if_pos (by simp [hf, ht]) : execThermal f sensor temp s = _)

theorem exec_thermalRelease {sensor temp : Nat} (ht : temp < 105) : exec (.thermalRelease ⟨f, sensor, temp⟩) s =
    .next (s.repattern (benchesOf f) fun s => s.modField f fun x => { x with hot := x.hot.filter fun n => n ≠ sensor }) :=
  (if_pos ht : execThermalRelease ⟨f, sensor, temp⟩ s = _)

end

/-- Every field of a module that trips. -/
theorem State.field_modtrip (s : State) (current : Nat) : ∃ t, exec (.modtrip current) s = .next t ∧
    ∀ i, i < 8 → t.field i = { s.field i with modTrip := true } := by
  refine ⟨_, rfl, fun i hi => ?_⟩
  rw [State.field_powerRecord]
  unfold State.repattern
  rw [State.field_foldl_modField _ (fun _ x => { x with modTrip := true }) List.nodup_range, if_pos (List.mem_range.2 hi),
    State.field_settled]

/-- The fields that a pin group feeds work at half their limit. -/
theorem State.halved_foldl_feeds (s : State) (fields : Nat) {i : Nat} (hi : i < 8) :
    ((((List.range 8).filter fun f => bit fields f).foldl
      (fun s f => s.modField f fun x => { x with halved := true }.judge s.gtc) s).field i).halved =
        (bit fields i || (s.field i).halved) := by
  refine (congrArg Field.halved
    (s.field_foldl_modField (fun gtc x => { x with halved := true }.judge gtc) (List.nodup_range.filter _) i)).trans ?_
  by_cases h : bit fields i = true
  · rw [if_pos (by simp [hi, h]), h]
    rfl
  · rw [if_neg (by simp [h]), Bool.eq_false_iff.2 h, Bool.false_or]

/-- Settles O38: each event by its equation above; bring-up goes on behind the ramp that ends (`exec_fieldRampDone_bringUp`), and
a guard's pattern follows from the field that it changes (`Field.forced`). -/
theorem powerEvents : Obligations.PowerEvents := by
  unfold Obligations.PowerEvents
  intro s f a b c u x clear ramps idle ramped bringing done
  refine ⟨?_, ?_, ?_, ?_, ?_, ?_, ?_, ?_, ?_, ?_, ?_, ?_, ?_, ?_, ?_, ?_, ?_, ?_⟩
  · rintro hstep rfl hclear pool0 pool1 failed signed
    refine ⟨_, exec_powerUp hstep, ?_, ?_, ?_, ?_⟩
    · rw [State.askRamp_keeps _ _ State.step fun _ _ _ => rfl]
    · rw [State.askRamp_keeps _ _ State.domid fun _ _ _ => rfl]
    · rw [State.askRamp_keeps _ _ State.bringUp fun _ _ _ => rfl]
    · exact State.askRamp_ramps _ 0 ((State.rampClear_iff _ 0).2 hclear)
  · rintro ⟨hf, hhung, hstep, hin, hon, hramp⟩ hclear
    exact ⟨_, exec_fieldPowerUp hf hhung hstep hin hon hramp, s.askRamp_ramps f ((s.rampClear_iff f).2 hclear)⟩
  · rintro ⟨hf, hhung, hstep, hin, hon, hramp⟩ hclear
    rw [exec_fieldPowerUp hf hhung hstep hin hon hramp, s.askRamp_waits f (mt (s.rampClear_iff f).1 hclear)]
  · rintro ⟨e, hramp, he⟩ hup
    obtain ⟨hnone, hon⟩ := s.field_rampEnded f false
    exact ⟨_, ⟨exec_fieldRampDone_alone hramp he hup, hnone⟩, hon⟩
  · rintro ⟨⟨e, hramp, he⟩, hup, hu⟩ h0 hbad
    subst h0
    obtain ⟨hnone, hon⟩ := State.field_rampEnded_bringUp (s := s) hu (bit u.failed 0)
    refine ⟨_, ⟨exec_fieldRampDone_bringUp hramp he hup hu, hnone⟩, by rw [hon, hbad]; rfl, ?_⟩
    rw [State.bringUpNext_failed hu hbad]
    exact ⟨rfl, rfl, s.rampEnded_keeps 0 State.step (fun _ _ _ => rfl) _⟩
  · rintro ⟨⟨e, hramp, he⟩, hup, hu⟩ h0 hgood himage
    subst h0
    obtain ⟨hnone, hon⟩ := State.field_rampEnded_bringUp (s := s) hu (bit u.failed 0)
    refine ⟨_, ⟨exec_fieldRampDone_bringUp hramp he hup hu, hnone⟩, by rw [hon, hgood]; rfl, ?_⟩
    rw [State.bringUpNext_unsigned hu hgood himage]
    exact ⟨rfl, rfl, rfl⟩
  · rintro ⟨⟨e, hramp, he⟩, hup, hu⟩ hlast h0
    subst hu
    obtain ⟨hnone, hon⟩ := State.field_rampEnded_bringUp (s := s) rfl (bit u.failed u.field)
    refine ⟨_, ⟨exec_fieldRampDone_bringUp hramp he hup rfl, hnone⟩, hon, ?_⟩
    rw [State.bringUpNext_ramps hlast h0]
    refine ⟨?_, ?_, ?_⟩
    · rw [State.askRamp_keeps _ _ State.bringUp fun _ _ _ => rfl, State.setDie_bringUp]
    · rw [State.askRamp_keeps _ _ State.step fun _ _ _ => rfl, State.setDie_step]
    · rw [State.askRamp_keeps _ _ (State.die · 0) fun _ _ _ => rfl, State.die_setDie_same]
  · rintro ⟨⟨e, hramp, he⟩, hup, hu⟩ hlast
    obtain ⟨hnone, hon⟩ := State.field_rampEnded_bringUp (s := s) hu (bit u.failed f)
    refine ⟨_, ⟨exec_fieldRampDone_bringUp hramp he hup hu, hnone⟩, hon, ?_⟩
    rw [State.bringUpNext_last (hu.trans hlast)]
    refine ⟨rfl, rfl, s.rampEnded_keeps f State.gtc (fun _ _ _ => rfl) _, ?_⟩
    exact congrArg Die.tcbPool (State.die_setDie_same _ 1 _)
  · exact fun hhung => ⟨exec_fieldPowerUp_hung hhung, exec_fieldPowerDown_hung hhung⟩
  · exact exec_fieldPowerDown
  · intro hstep hdrop fields
    refine ⟨_, exec_supplyPath hstep hdrop, fun i hi => ?_⟩
    rw [State.field_powerRecord, s.halved_foldl_feeds fields hi]
  · exact fun hdrop fields => exec_supplyPath_within hdrop
  · intro hf hcur htrip
    refine ⟨_, exec_fieldTrip hf hcur htrip, ?_⟩
    rw [State.field_powerRecord, State.field_repattern_modField]
    exact ⟨rfl, fun hmod hhot => Field.forced_tripped rfl hmod hhot⟩
  · intro e htrip hlow he
    refine ⟨_, exec_fieldTripRelease htrip hlow he, ?_⟩
    rw [State.field_repattern_modField]
  · obtain ⟨t, hexec, hfield⟩ := s.field_modtrip a
    refine ⟨t, hexec, fun i hi => ?_⟩
    rw [hfield i hi]
    exact ⟨rfl, Field.forced_modTrip rfl⟩
  · exact fun hlate => ⟨_, exec_pwrWatchdog hlate, State.record_keeps State.hung (fun _ _ _ => rfl) _ _,
      State.record_keeps State.benches (fun _ _ _ => rfl) _ _, State.record_keeps State.fields (fun _ _ _ => rfl) _ _⟩
  · intro hf htemp
    refine ⟨_, exec_thermal hf htemp, ?_⟩
    rw [State.field_powerRecord, State.field_repattern_modField]
    have hmem : a ∈ if x.hot.contains a then x.hot else a :: x.hot := by
      split
      · exact List.contains_iff_mem.1 ‹_›
      · exact List.mem_cons_self
    exact ⟨hmem, Field.forced_hot hmem⟩
  · intro htemp
    refine ⟨_, exec_thermalRelease htemp, ?_⟩
    rw [State.field_repattern_modField]

end Sys2Proof.Machine

namespace Sys2Proof.Machine

open Sys2Proof

/-! ## The slew limiter (R172, R173) -/

/-! ### Grants over the cores of a bench -/

/-- `k` grants move rungs from `r` to `r'`, each of them by `delta` at a core of `l` that wants one. -/
inductive Grants (want : Nat → Nat → Bool) (delta : Int) (l : List Nat) : Table Nat → Nat → Table Nat → Prop
  | stop (r : Table Nat) : Grants want delta l r 0 r
  | grant {r r' : Table Nat} {c k : Nat} : c ∈ l → want c (tget 0 r c) = true →
      Grants want delta l (tset 0 r c ((tget 0 r c : Nat) + delta : Int).toNat) k r' → Grants want delta l r (k + 1) r'

section
variable {want : Nat → Nat → Bool} {delta : Int}

/-- The order behind a grant is one of the same cores. -/
theorem mem_afterGrant {order : List Nat} {c : Nat} (hc : c ∈ order) (x : Nat) :
    x ∈ (order.dropWhile (· ≠ c)).drop 1 ++ order.takeWhile (· ≠ c) ++ [c] ↔ x ∈ order := by
  obtain ⟨tail, htail⟩ : ∃ tail, order.dropWhile (· ≠ c) = c :: tail := by
    induction order with
    | nil => cases hc
    | cons y ys ih =>
      by_cases e : y = c
      · exact ⟨ys, by simp [e]⟩
      · obtain ⟨tail, h⟩ := ih ((List.mem_cons.1 hc).resolve_left (Ne.symm e))
        exact ⟨tail, by simpa [e] using h⟩
  have hsplit : order = order.takeWhile (· ≠ c) ++ c :: tail := by rw [← htail, List.takeWhile_append_dropWhile]
  rw [htail]
  conv_rhs => rw [hsplit]
  simp only [List.drop_one, List.tail_cons, List.mem_append, List.mem_cons, List.not_mem_nil, or_false]
  tauto

/-- A grant goes to the first core that wants one. -/
theorem grantCores_grant {order : List Nat} {r : Table Nat} {c : Nat}
    (h : order.find? (fun c => want c (tget 0 r c)) = some c) (n : Nat) : ∃ rest, (∀ x, x ∈ rest ↔ x ∈ order) ∧
      let p := grantCores want delta rest n (tset 0 r c ((tget 0 r c : Nat) + delta : Int).toNat)
      grantCores want delta order (n + 1) r = (p.1, p.2 + 1) := by
  refine ⟨_, mem_afterGrant (List.mem_of_find?_eq_some h), ?_⟩
  rw [grantCores, h]

/-- What a pass can do: it stops where no core wants a grant, and else a core that does gets one. -/
theorem grantCores_succ (order : List Nat) (n : Nat) (r : Table Nat) :
    ((∀ c ∈ order, want c (tget 0 r c) = false) ∧ grantCores want delta order (n + 1) r = (r, 0)) ∨
    ∃ c ∈ order, want c (tget 0 r c) = true ∧ ∃ rest, (∀ x, x ∈ rest ↔ x ∈ order) ∧
      let p := grantCores want delta rest n (tset 0 r c ((tget 0 r c : Nat) + delta : Int).toNat)
      grantCores want delta order (n + 1) r = (p.1, p.2 + 1) := by
  cases h : order.find? fun c => want c (tget 0 r c) with
  | none =>
    refine Or.inl ⟨fun c hc => by simpa using List.find?_eq_none.1 h c hc, ?_⟩
    rw [grantCores, h]
  | some c =>
    exact Or.inr ⟨c, List.mem_of_find?_eq_some h, List.find?_some (p := fun c => want c (tget 0 r c)) h, grantCores_grant h n⟩

theorem grantCores_grants {l : List Nat} (n : Nat) : ∀ {order : List Nat} (r : Table Nat), (∀ c ∈ order, c ∈ l) →
    Grants want delta l r (grantCores want delta order n r).2 (grantCores want delta order n r).1 := by
  induction n with
  | zero => exact fun r _ => .stop r
  | succ n ih =>
    intro order r hl
    obtain ⟨-, h⟩ | ⟨c, hc, hwant, rest, hrest, h⟩ := grantCores_succ (want := want) (delta := delta) order n r
    · rw [h]
      exact .stop r
    · rw [h]
      exact .grant (hl c hc) hwant (ih _ fun x hx => hl x ((hrest x).1 hx))

theorem grantCores_le (n : Nat) : ∀ (order : List Nat) (r : Table Nat), (grantCores want delta order n r).2 ≤ n := by
  induction n with
  | zero => exact fun _ _ => Nat.le_refl _
  | succ n ih =>
    intro order r
    obtain ⟨-, h⟩ | ⟨c, -, -, rest, -, h⟩ := grantCores_succ (want := want) (delta := delta) order n r
    · rw [h]
      exact Nat.zero_le _
    · rw [h]
      exact Nat.succ_le_succ (ih rest _)

/-- Where grants are left over, no core wants one. -/
theorem grantCores_sated (n : Nat) : ∀ (order : List Nat) (r : Table Nat), (grantCores want delta order n r).2 < n →
    ∀ c ∈ order, want c (tget 0 (grantCores want delta order n r).1 c) = false := by
  induction n with
  | zero => exact fun _ _ h => absurd h (Nat.not_lt_zero _)
  | succ n ih =>
    intro order r hlt
    obtain ⟨hnone, h⟩ | ⟨c, -, -, rest, hrest, h⟩ := grantCores_succ (want := want) (delta := delta) order n r
    · rw [h]
      exact hnone
    · rw [h] at hlt ⊢
      exact fun x hx => ih rest _ (Nat.lt_of_succ_lt_succ hlt) x ((hrest x).2 hx)

end

/-- A rung more or less at one core of a list is one more or less in the sum. -/
theorem sum_tset {l : List Nat} (hl : l.Nodup) {c : Nat} (hc : c ∈ l) (r : Table Nat) (v : Nat) :
    (l.map (tget 0 (tset 0 r c v))).sum + tget 0 r c = (l.map (tget 0 r)).sum + v := by
  induction l with
  | nil => cases hc
  | cons x l ih =>
    obtain ⟨hx, hl⟩ := List.nodup_cons.1 hl
    simp only [List.map_cons, List.sum_cons]
    by_cases e : x = c
    · subst e
      have hrest : l.map (tget 0 (tset 0 r x v)) = l.map (tget 0 r) :=
        List.map_congr_left fun y hy => tget_tset_other _ _ _ fun e => hx (e ▸ hy)
      rw [hrest, tget_tset_same]
      omega
    · have := ih hl ((List.mem_cons.1 hc).resolve_left (Ne.symm e))
      rw [tget_tset_other _ _ _ (Ne.symm e)]
      omega

/-- What grants do: a core that they move has moved last from where it wanted a grant, each core moves one way, and the sum moves
by all of them. -/
theorem Grants.moves {want : Nat → Nat → Bool} {delta : Int} (hwant : ∀ c v, want c v = true → 0 ≤ (v : Int) + delta)
    {l : List Nat} {r r' : Table Nat} {k : Nat} (h : Grants want delta l r k r') :
    (∀ c, tget 0 r' c = tget 0 r c ∨ ∃ v, want c v = true ∧ ((tget 0 r' c : Nat) : Int) = v + delta) ∧
      (∀ c, ∃ j : Nat, ((tget 0 r' c : Nat) : Int) = tget 0 r c + j * delta) ∧
      (l.Nodup → (((l.map (tget 0 r')).sum : Nat) : Int) = (l.map (tget 0 r)).sum + k * delta) := by
  induction h with
  | stop r => exact ⟨fun _ => Or.inl rfl, fun _ => ⟨0, by simp⟩, fun _ => by simp⟩
  | @grant r r' c k hc hw _ ih =>
    obtain ⟨hlast, hway, hsum⟩ := ih
    have hv := Int.toNat_of_nonneg (hwant c _ hw)
    generalize ((tget 0 r c : Nat) + delta : Int).toNat = v at hlast hway hsum hv
    refine ⟨fun x => ?_, fun x => ?_, fun hl => ?_⟩
    · by_cases e : x = c
      · subst e
        rcases hlast x with h | h
        · exact Or.inr ⟨_, hw, by rw [h, tget_tset_same, hv]⟩
        · exact Or.inr h
      · simpa [tget_tset, e] using hlast x
    · obtain ⟨j, hj⟩ := hway x
      by_cases e : x = c
      · subst e
        rw [tget_tset_same, hv] at hj
        exact ⟨j + 1, by rw [hj]; push_cast; ring⟩
      · exact ⟨j, by simpa [tget_tset, e] using hj⟩
    · have hone := congrArg (Nat.cast (R := Int)) (sum_tset hl hc r v)
      rw [hsum hl]
      push_cast at hone ⊢
      linarith

/-- Grants of a rung more go to cores that have work and fewer than 4. -/
theorem Grants.climb {work : Nat → Nat} {l : List Nat} {r r' : Table Nat} {k : Nat}
    (h : Grants (fun c r => 0 < work c && r < 4) 1 l r k r') :
    (∀ c, tget 0 r c ≤ tget 0 r' c) ∧ (∀ c, tget 0 r c < tget 0 r' c → 0 < work c ∧ tget 0 r' c ≤ 4) ∧
      (l.Nodup → (l.map (tget 0 r')).sum = (l.map (tget 0 r)).sum + k) := by
  obtain ⟨hlast, hway, hsum⟩ := h.moves fun _ _ _ => by omega
  refine ⟨fun c => ?_, fun c hlt => ?_, fun hl => ?_⟩
  · obtain ⟨j, hj⟩ := hway c
    omega
  · obtain ⟨v, hv, heq⟩ := (hlast c).resolve_left (Nat.ne_of_gt hlt)
    simp only [Bool.and_eq_true, decide_eq_true_eq] at hv
    exact ⟨hv.1, by omega⟩
  · have := hsum hl
    omega

/-- Grants of a rung less go to cores that have rungs and no work. -/
theorem Grants.drop {work : Nat → Nat} {l : List Nat} {r r' : Table Nat} {k : Nat}
    (h : Grants (fun c r => work c = 0 && 0 < r) (-1) l r k r') :
    (∀ c, tget 0 r' c ≤ tget 0 r c) ∧ (∀ c, tget 0 r' c < tget 0 r c → work c = 0) ∧
      (l.Nodup → (l.map (tget 0 r')).sum + k = (l.map (tget 0 r)).sum) := by
  obtain ⟨hlast, hway, hsum⟩ := h.moves fun c v hw => by
    simp only [Bool.and_eq_true, decide_eq_true_eq] at hw
    omega
  refine ⟨fun c => ?_, fun c hlt => ?_, fun hl => ?_⟩
  · obtain ⟨j, hj⟩ := hway c
    omega
  · obtain ⟨v, hv, -⟩ := (hlast c).resolve_left (Nat.ne_of_lt hlt)
    simp only [Bool.and_eq_true, decide_eq_true_eq] at hv
    exact hv.1
  · have := hsum hl
    omega

/-- The first core of the order gets the first grant, where it wants one. -/
theorem grantCores_first {work : Nat → Nat} {c : Nat} (cs : List Nat) {n : Nat} (hn : 0 < n) {r : Table Nat} (hwork : 0 < work c)
    (hr : tget 0 r c < 4) :
    tget 0 r c < tget 0 (grantCores (fun c r => 0 < work c && r < 4) 1 (c :: cs) n r).1 c := by
  obtain ⟨n, rfl⟩ := Nat.exists_eq_succ_of_ne_zero (Nat.ne_of_gt hn)
  obtain ⟨rest, -, h⟩ := grantCores_grant (want := fun c r => 0 < work c && r < 4) (delta := 1) (order := c :: cs) (r := r)
    (List.find?_cons_of_pos (by simp [hwork, hr])) n
  rw [h]
  have hrest := (grantCores_grants (want := fun c r => 0 < work c && r < 4) (delta := 1) (l := rest) n
    (tset 0 r c ((tget 0 r c : Nat) + 1 : Int).toNat) fun _ hx => hx).climb.1 c
  rw [tget_tset_same] at hrest
  exact Nat.lt_of_lt_of_le (Nat.lt_succ_self _) hrest

/-! ### One bench's step -/

theorem nodup_codes (c n : Nat) : (codes c n).Nodup :=
  List.nodup_range.map fun _ _ => Nat.add_left_cancel

/-- The cores of a bench, the starting one first, are its cores. -/
theorem mem_slewOrder (bench start c : Nat) :
    c ∈ ((List.range 4).map fun j => 4 * bench + (start + j) % 4) ↔ c ∈ codes (4 * bench) 4 := by
  simp only [List.mem_map, List.mem_range, mem_codes]
  exact ⟨fun ⟨j, _, e⟩ => by omega, fun h => ⟨(c - 4 * bench + 3 * start) % 4, by omega, by omega⟩⟩

/-- The rungs of a list's cores, as a table. -/
def State.rungsOf (s : State) (cores : List Nat) : Table Nat := cores.foldl (fun t c => tset 0 t c (s.core c).rungs) []

theorem State.tget_rungsOf (s : State) {cores : List Nat} {c : Nat} (h : c ∈ cores) :
    tget 0 (s.rungsOf cores) c = (s.core c).rungs := by
  suffices H : ∀ t, c ∈ cores ∨ tget 0 t c = (s.core c).rungs →
      tget 0 (cores.foldl (fun t c => tset 0 t c (s.core c).rungs) t) c = (s.core c).rungs from H [] (Or.inl h)
  clear h
  induction cores with
  | nil => exact fun t h => h.resolve_left List.not_mem_nil
  | cons x l ih =>
    intro t h
    refine ih _ ?_
    by_cases e : c = x
    · exact Or.inr (by rw [e, tget_tset_same])
    · exact h.imp (fun h => (List.mem_cons.1 h).resolve_left e) fun h => by rw [tget_tset_other _ _ _ (Ne.symm e), h]

/-- Give the cores of a list the rungs of a table. -/
def State.setRungs (s : State) (cores : List Nat) (r : Table Nat) : State :=
  cores.foldl (fun s c => if tget 0 r c = (s.core c).rungs then s else s.setCore c { (s.core c) with rungs := tget 0 r c }) s

section
variable (s : State)

theorem State.setRungs_keeps {α : Type} (p : State → α) (hp : ∀ s x, p { s with cores := x } = p s) (cores : List Nat)
    (r : Table Nat) : p (s.setRungs cores r) = p s := by
  refine foldl_keeps p (fun s c => ?_) cores s
  split
  · rfl
  · exact hp s _

theorem State.core_setRungs {cores : List Nat} (hl : cores.Nodup) (r : Table Nat) (c : Nat) : (s.setRungs cores r).core c =
    if c ∈ cores then { s.core c with rungs := tget 0 r c } else s.core c := by
  unfold State.setRungs
  induction cores generalizing s with
  | nil => rfl
  | cons x l ih =>
    obtain ⟨hx, hl⟩ := List.nodup_cons.1 hl
    have hone : ∀ c, (if tget 0 r x = (s.core x).rungs then s else s.setCore x { s.core x with rungs := tget 0 r x }).core c =
        if c = x then { s.core c with rungs := tget 0 r c } else s.core c := by
      intro c
      by_cases e : c = x
      · subst e
        split
        · rename_i heq
          rw [if_pos rfl, heq]
        · rw [State.core_setCore_same, if_pos rfl]
      · rw [if_neg e]
        split
        · rfl
        · exact State.core_setCore_other _ _ (Ne.symm e)
    rw [List.foldl_cons, ih _ hl, hone]
    by_cases e : c = x
    · subst e
      simp [hx]
    · simp [e]

end

/-- The decreases of a bench's step, and the increases behind them: the table of rungs, and how many grants went out. -/
def State.slewDown (s : State) (bench start : Nat) : Table Nat × Nat :=
  grantCores (fun c r => (s.core c).work = 0 && 0 < r) (-1) ((List.range 4).map fun j => 4 * bench + (start + j) % 4) 2
    (s.rungsOf (codes (4 * bench) 4))
def State.slewUp (s : State) (bench start left : Nat) : Table Nat × Nat :=
  grantCores (fun c r => 0 < (s.core c).work && r < 4) 1 ((List.range 4).map fun j => 4 * bench + (start + j) % 4) (min 2 left)
    (s.slewDown bench start).1

theorem State.slewBench_eq (s : State) (bench start left : Nat) : s.slewBench bench start left =
    (s.setRungs (codes (4 * bench) 4) (s.slewUp bench start left).1, left - (s.slewUp bench start left).2) := rfl

theorem State.slewDown_drops (s : State) (bench start : Nat) :
    Grants (fun c r => (s.core c).work = 0 && 0 < r) (-1) (codes (4 * bench) 4) (s.rungsOf (codes (4 * bench) 4))
      (s.slewDown bench start).2 (s.slewDown bench start).1 :=
  grantCores_grants 2 _ fun c => (mem_slewOrder bench start c).1

theorem State.slewUp_climbs (s : State) (bench start left : Nat) :
    Grants (fun c r => 0 < (s.core c).work && r < 4) 1 (codes (4 * bench) 4) (s.slewDown bench start).1
      (s.slewUp bench start left).2 (s.slewUp bench start left).1 :=
  grantCores_grants _ _ fun c => (mem_slewOrder bench start c).1

theorem State.slewDown_sated {s : State} {bench start c : Nat} (h : (s.slewDown bench start).2 < 2)
    (hc : c ∈ codes (4 * bench) 4) : 0 < (s.core c).work ∨ tget 0 (s.slewDown bench start).1 c = 0 := by
  have hnone := grantCores_sated _ _ _ h c ((mem_slewOrder bench start c).2 hc)
  change (decide ((s.core c).work = 0) && decide (0 < tget 0 (s.slewDown bench start).1 c)) = false at hnone
  rw [Bool.and_eq_false_iff, decide_eq_false_iff_not, decide_eq_false_iff_not] at hnone
  omega

theorem State.slewUp_sated {s : State} {bench start left c : Nat} (h : (s.slewUp bench start left).2 < min 2 left)
    (hc : c ∈ codes (4 * bench) 4) (hwork : 0 < (s.core c).work) : 4 ≤ tget 0 (s.slewUp bench start left).1 c := by
  have hnone := grantCores_sated _ _ _ h c ((mem_slewOrder bench start c).2 hc)
  change (decide (0 < (s.core c).work) && decide (tget 0 (s.slewUp bench start left).1 c < 4)) = false at hnone
  rw [Bool.and_eq_false_iff, decide_eq_false_iff_not, decide_eq_false_iff_not] at hnone
  omega

/-- What a step does to the cores of a bench, where it leaves the bench's field `left` of its increases (R173). -/
structure State.BenchSlews (s t : State) (bench left : Nat) : Prop where
  jobs : ∀ c ∈ codes (4 * bench) 4, (t.core c).jobs = (s.core c).jobs
  climbs : ∀ c ∈ codes (4 * bench) 4, (s.core c).rungs < (t.core c).rungs → 0 < (s.core c).work ∧ (t.core c).rungs ≤ 4
  drops : ∀ c ∈ codes (4 * bench) 4, (t.core c).rungs < (s.core c).rungs → ¬0 < (s.core c).work
  climbed_le : climbed s t (codes (4 * bench) 4) ≤ 2
  dropped_le : dropped s t (codes (4 * bench) 4) ≤ 2
  idle : dropped s t (codes (4 * bench) 4) < 2 → ∀ c ∈ codes (4 * bench) 4, 0 < (s.core c).work ∨ (t.core c).rungs = 0
  busy : climbed s t (codes (4 * bench) 4) < 2 →
    left = 0 ∨ ∀ c ∈ codes (4 * bench) 4, 0 < (s.core c).work → 4 ≤ (t.core c).rungs

/-- Two states agree on the cores of a list. -/
def SameCores (cores : List Nat) (s t : State) : Prop := ∀ c ∈ cores, s.core c = t.core c

theorem climbed_congr {s t s' t' : State} {cores : List Nat} (hs : SameCores cores s' s) (ht : SameCores cores t' t) :
    climbed s' t' cores = climbed s t cores :=
  congrArg List.sum (List.map_congr_left fun c hc => by rw [hs c hc, ht c hc])

theorem dropped_congr {s t s' t' : State} {cores : List Nat} (hs : SameCores cores s' s) (ht : SameCores cores t' t) :
    dropped s' t' cores = dropped s t cores :=
  congrArg List.sum (List.map_congr_left fun c hc => by rw [hs c hc, ht c hc])

/-- It speaks of the bench's cores alone, and stands as the field's increases run out. -/
theorem State.BenchSlews.congr {s t s' t' : State} {bench left left' : Nat} (h : s.BenchSlews t bench left)
    (hs : SameCores (codes (4 * bench) 4) s' s) (ht : SameCores (codes (4 * bench) 4) t' t) (hleft : left' ≤ left) :
    s'.BenchSlews t' bench left' where
  jobs c hc := by rw [hs c hc, ht c hc, h.jobs c hc]
  climbs c hc := by rw [hs c hc, ht c hc]; exact h.climbs c hc
  drops c hc := by rw [hs c hc, ht c hc]; exact h.drops c hc
  climbed_le := by rw [climbed_congr hs ht]; exact h.climbed_le
  dropped_le := by rw [dropped_congr hs ht]; exact h.dropped_le
  idle hlt c hc := by
    rw [dropped_congr hs ht] at hlt
    rw [hs c hc, ht c hc]
    exact h.idle hlt c hc
  busy hlt := by
    rw [climbed_congr hs ht] at hlt
    refine (h.busy hlt).imp (fun h0 => by omega) fun h c hc => ?_
    rw [hs c hc, ht c hc]
    exact h c hc

theorem sum_map_sub {l : List Nat} {f g : Nat → Nat} (h : ∀ c ∈ l, f c ≤ g c) :
    (l.map fun c => g c - f c).sum + (l.map f).sum = (l.map g).sum := by
  induction l with
  | nil => rfl
  | cons x l ih =>
    have := h x List.mem_cons_self
    have := ih fun c hc => h c (List.mem_cons_of_mem _ hc)
    simp only [List.map_cons, List.sum_cons]
    omega

section
variable (s : State) (bench start left : Nat)

theorem State.core_slewBench {c : Nat} (hc : c ∈ codes (4 * bench) 4) : (s.slewBench bench start left).1.core c =
    { s.core c with rungs := tget 0 (s.slewUp bench start left).1 c } := by
  rw [State.slewBench_eq, State.core_setRungs _ (nodup_codes _ _), if_pos hc]

theorem State.core_slewBench_other {c : Nat} (hc : c ∉ codes (4 * bench) 4) :
    (s.slewBench bench start left).1.core c = s.core c := by
  rw [State.slewBench_eq, State.core_setRungs _ (nodup_codes _ _), if_neg hc]

/-- A core with work loses nothing, and one without gains nothing. -/
theorem State.slewTables {c : Nat} (hc : c ∈ codes (4 * bench) 4) :
    (0 < (s.core c).work → tget 0 (s.slewDown bench start).1 c = (s.core c).rungs) ∧
      (¬0 < (s.core c).work → tget 0 (s.slewUp bench start left).1 c = tget 0 (s.slewDown bench start).1 c) := by
  obtain ⟨hdown, hidle, -⟩ := (s.slewDown_drops bench start).drop
  obtain ⟨hup, hbusy, -⟩ := (s.slewUp_climbs bench start left).climb
  rw [← s.tget_rungsOf hc]
  refine ⟨fun h => Nat.le_antisymm (hdown c) (Nat.le_of_not_lt fun hlt => ?_), fun h => Nat.le_antisymm ?_ (hup c)⟩
  · exact absurd (hidle c hlt) (Nat.ne_of_gt h)
  · exact Nat.le_of_not_lt fun hlt => h (hbusy c hlt).1

/-- The grants are the rungs that the cores have climbed and dropped. -/
theorem State.climbed_slewBench :
    climbed s (s.slewBench bench start left).1 (codes (4 * bench) 4) = (s.slewUp bench start left).2 := by
  obtain ⟨hup, -, hsum⟩ := (s.slewUp_climbs bench start left).climb
  have hdown := (s.slewDown_drops bench start).drop.1
  have hsub := sum_map_sub (l := codes (4 * bench) 4) fun c _ => hup c
  have hcores : climbed s (s.slewBench bench start left).1 (codes (4 * bench) 4) = ((codes (4 * bench) 4).map fun c =>
      tget 0 (s.slewUp bench start left).1 c - tget 0 (s.slewDown bench start).1 c).sum := by
    refine congrArg List.sum (List.map_congr_left fun c hc => ?_)
    obtain ⟨hw, hi⟩ := s.slewTables bench start left hc
    have hd := hdown c
    rw [s.tget_rungsOf hc] at hd
    rw [s.core_slewBench bench start left hc]
    change tget 0 _ c - _ = _
    by_cases h : 0 < (s.core c).work
    · rw [hw h]
    · rw [hi h]
      omega
  have := hsum (nodup_codes _ _)
  omega

theorem State.dropped_slewBench :
    dropped s (s.slewBench bench start left).1 (codes (4 * bench) 4) = (s.slewDown bench start).2 := by
  have hup := (s.slewUp_climbs bench start left).climb.1
  obtain ⟨hdown, -, hsum⟩ := (s.slewDown_drops bench start).drop
  have hsub := sum_map_sub (l := codes (4 * bench) 4) fun c _ => hdown c
  have hcores : dropped s (s.slewBench bench start left).1 (codes (4 * bench) 4) = ((codes (4 * bench) 4).map fun c =>
      tget 0 (s.rungsOf (codes (4 * bench) 4)) c - tget 0 (s.slewDown bench start).1 c).sum := by
    refine congrArg List.sum (List.map_congr_left fun c hc => ?_)
    obtain ⟨hw, hi⟩ := s.slewTables bench start left hc
    have hu := hup c
    rw [s.core_slewBench bench start left hc, s.tget_rungsOf hc]
    change _ - tget 0 _ c = _
    by_cases h : 0 < (s.core c).work
    · rw [hw h] at hu ⊢
      omega
    · rw [hi h]
  have := hsum (nodup_codes _ _)
  omega

/-- The increases of a bench count against those of its field. -/
theorem State.climbed_slewBench_add :
    climbed s (s.slewBench bench start left).1 (codes (4 * bench) 4) + (s.slewBench bench start left).2 = left := by
  have hle : (s.slewUp bench start left).2 ≤ min 2 left := grantCores_le _ _ _
  rw [State.climbed_slewBench, State.slewBench_eq]
  change _ + (left - _) = left
  omega

theorem State.slewBench_slews : s.BenchSlews (s.slewBench bench start left).1 bench (s.slewBench bench start left).2 where
  jobs c hc := by rw [s.core_slewBench bench start left hc]
  climbs c hc hlt := by
    obtain ⟨-, hbusy, -⟩ := (s.slewUp_climbs bench start left).climb
    have hd := (s.slewDown_drops bench start).drop.1 c
    rw [s.tget_rungsOf hc] at hd
    rw [s.core_slewBench bench start left hc] at hlt ⊢
    exact hbusy c (Nat.lt_of_le_of_lt hd hlt)
  drops c hc hlt h := by
    obtain ⟨hw, -⟩ := s.slewTables bench start left hc
    have hu := (s.slewUp_climbs bench start left).climb.1 c
    rw [s.core_slewBench bench start left hc] at hlt
    rw [hw h] at hu
    exact absurd hlt (Nat.not_lt_of_le hu)
  climbed_le := by
    have hle : (s.slewUp bench start left).2 ≤ min 2 left := grantCores_le _ _ _
    rw [State.climbed_slewBench]
    omega
  dropped_le := by
    rw [State.dropped_slewBench]
    exact grantCores_le _ _ _
  idle hlt c hc := by
    rw [State.dropped_slewBench] at hlt
    rw [s.core_slewBench bench start left hc]
    refine or_iff_not_imp_left.2 fun h => ?_
    exact ((s.slewTables bench start left hc).2 h).trans ((State.slewDown_sated hlt hc).resolve_left h)
  busy hlt := by
    rw [State.climbed_slewBench] at hlt
    rw [State.slewBench_eq]
    refine or_iff_not_imp_left.2 fun hleft c hc h => ?_
    have hspare : (s.slewUp bench start left).2 < min 2 left := by
      change ¬left - _ = 0 at hleft
      omega
    rw [State.core_setRungs _ (nodup_codes _ _), if_pos hc]
    exact State.slewUp_sated hspare hc h

/-- The starting core climbs first. -/
theorem State.slewBench_lead (hleft : 0 < left) (hwork : 0 < (s.core (4 * bench + start % 4)).work)
    (hrungs : (s.core (4 * bench + start % 4)).rungs < 4) : (s.core (4 * bench + start % 4)).rungs <
      ((s.slewBench bench start left).1.core (4 * bench + start % 4)).rungs := by
  have hc : 4 * bench + start % 4 ∈ codes (4 * bench) 4 := (mem_codes ..).2 (by omega)
  have hsame := (s.slewTables bench start left hc).1 hwork
  rw [s.core_slewBench bench start left hc, ← hsame]
  rw [← hsame] at hrungs
  exact grantCores_first (work := fun c => (s.core c).work)
    ([1, 2, 3].map fun j => 4 * bench + (start + j) % 4) (by omega) hwork hrungs

end

/-! ### One field's step -/

theorem State.slewBench_keeps {α : Type} (p : State → α) (hp : ∀ s x, p { s with cores := x } = p s) (s : State)
    (bench start left : Nat) : p (s.slewBench bench start left).1 = p s :=
  s.setRungs_keeps p hp _ _

/-- The benches of different numbers have no core in common. -/
theorem not_mem_codes_of_ne {b b' c : Nat} (h : b' ≠ b) (hc : c ∈ codes (4 * b') 4) : c ∉ codes (4 * b) 4 := by
  rw [mem_codes] at hc ⊢
  omega

/-- The steps of the benches of a list, one behind the other, with the increases that each leaves to the next. -/
def State.slewBenches (s : State) (start left : Nat) (benches : List Nat) : State × Nat :=
  benches.foldl (fun p b => p.1.slewBench b start p.2) (s, left)

section
variable {start : Nat}

theorem State.slewBenches_keeps {α : Type} (p : State → α) (hp : ∀ s x, p { s with cores := x } = p s) (s : State) (left : Nat)
    (benches : List Nat) : p (s.slewBenches start left benches).1 = p s :=
  foldl_keeps (fun q : State × Nat => p q.1) (fun q b => State.slewBench_keeps p hp q.1 b start q.2) benches (s, left)

theorem State.core_slewBenches_other {benches : List Nat} {c : Nat} : ∀ (s : State) (left : Nat),
    (∀ b ∈ benches, c ∉ codes (4 * b) 4) → (s.slewBenches start left benches).1.core c = s.core c := by
  induction benches with
  | nil => exact fun _ _ _ => rfl
  | cons b l ih =>
    intro s left h
    exact (ih _ _ fun x hx => h x (List.mem_cons_of_mem _ hx)).trans
      (s.core_slewBench_other b start left (h b List.mem_cons_self))

/-- Each bench takes its step, and what they have climbed together is what is gone of the field's increases. -/
theorem State.slewBenches_slews {benches : List Nat} (hl : benches.Nodup) : ∀ (s : State) (left : Nat),
    let p := s.slewBenches start left benches
    (∀ b ∈ benches, s.BenchSlews p.1 b p.2) ∧
      (benches.map fun b => climbed s p.1 (codes (4 * b) 4)).sum + p.2 = left := by
  induction benches with
  | nil => exact fun _ _ => ⟨fun _ h => absurd h List.not_mem_nil, Nat.zero_add _⟩
  | cons b l ih =>
    intro s left p
    obtain ⟨hb, hl⟩ := List.nodup_cons.1 hl
    let q := s.slewBench b start left
    obtain ⟨hslews, hsum⟩ := ih hl q.1 q.2
    have hp : q.1.slewBenches start q.2 l = p := rfl
    rw [hp] at hslews hsum
    have hlater : SameCores (codes (4 * b) 4) p.1 q.1 := fun c hc =>
      State.core_slewBenches_other q.1 q.2 fun x hx => not_mem_codes_of_ne (b' := b) (fun e => hb (e ▸ hx)) hc
    have hbefore : ∀ x ∈ l, SameCores (codes (4 * x) 4) s q.1 := fun x hx c hc =>
      (s.core_slewBench_other b start left (not_mem_codes_of_ne (fun e => hb (e ▸ hx)) hc)).symm
    have hfirst : climbed s q.1 (codes (4 * b) 4) + q.2 = left := s.climbed_slewBench_add b start left
    have hspent : p.2 ≤ q.2 := by omega
    refine ⟨fun x hx => ?_, ?_⟩
    · rcases List.mem_cons.1 hx with rfl | hx
      · exact (s.slewBench_slews x start left).congr (fun _ _ => rfl) hlater hspent
      · exact (hslews x hx).congr (hbefore x hx) (fun _ _ => rfl) (Nat.le_refl _)
    · have hrest : l.map (fun x => climbed s p.1 (codes (4 * x) 4)) = l.map fun x => climbed q.1 p.1 (codes (4 * x) 4) :=
        List.map_congr_left fun x hx => climbed_congr (hbefore x hx) fun _ _ => rfl
      rw [List.map_cons, List.sum_cons, hrest, climbed_congr (s' := s) (fun _ _ => rfl) hlater]
      omega

/-- The starting core of the first bench climbs before all others. -/
theorem State.slewBenches_lead {b : Nat} {l : List Nat} (hb : b ∉ l) (s : State) {left : Nat} (hleft : 0 < left)
    (hwork : 0 < (s.core (4 * b + start % 4)).work) (hrungs : (s.core (4 * b + start % 4)).rungs < 4) :
    (s.core (4 * b + start % 4)).rungs < ((s.slewBenches start left (b :: l)).1.core (4 * b + start % 4)).rungs := by
  have hc : 4 * b + start % 4 ∈ codes (4 * b) 4 := (mem_codes ..).2 (by omega)
  have hlater := State.core_slewBenches_other (start := start) (s.slewBench b start left).1 (s.slewBench b start left).2
    fun x hx => not_mem_codes_of_ne (b' := b) (fun e => hb (e ▸ hx)) hc
  exact Nat.lt_of_lt_of_eq (s.slewBench_lead b start left hleft hwork hrungs) (congrArg Core.rungs hlater).symm

end

/-- The benches of a field, the starting one first. -/
def slewOrder (f start : Nat) : List Nat := (List.range 12).map fun i => 12 * f + (start + i) % 12

theorem slewOrder_perm (f start : Nat) : (slewOrder f start).Perm (codes (12 * f) 12) := by
  have hturn : ∀ n < 12, ((List.range 12).map fun i => (n + i) % 12).Perm (List.range 12) := by decide
  have h := (hturn (start % 12) (Nat.mod_lt _ (by decide))).map (12 * f + ·)
  rw [List.map_map] at h
  simpa [slewOrder, codes, Function.comp_def] using h

/-- The cores of a field are those of its benches. -/
theorem codes_field (f : Nat) : codes (48 * f) 48 = (codes (12 * f) 12).flatMap fun b => codes (4 * b) 4 := by
  have h : List.range 48 = (List.range 12).flatMap fun i => (List.range 4).map fun j => 4 * i + j := by decide
  unfold codes
  rw [h, List.map_flatMap, List.flatMap_map]
  refine List.flatMap_congr fun i _ => ?_
  rw [List.map_map]
  exact List.map_congr_left fun j _ => by simp only [Function.comp_apply]; omega

theorem climbed_field (s t : State) (f : Nat) :
    climbed s t (codes (48 * f) 48) = ((codes (12 * f) 12).map fun b => climbed s t (codes (4 * b) 4)).sum := by
  rw [codes_field]
  unfold climbed
  rw [List.map_flatMap, List.flatMap_def, List.sum_flatten, List.map_map]
  rfl

/-- The core that is first to climb in this step (R173). -/
def State.slewLead (s : State) (f slewStart : Nat) : Nat :=
  4 * (12 * f + (slewStart + s.gtc / 4) % 12) + s.gtc / 4 % 4

/-- What a step does to a field and its cores. -/
structure State.FieldSlews (s t : State) (f : Nat) : Prop where
  field : t.field f = (s.field f).slewTo (s.gtc / 4)
  benches : ∀ b ∈ codes (12 * f) 12, s.BenchSlews t b (12 - climbed s t (codes (48 * f) 48))
  climbed_le : climbed s t (codes (48 * f) 48) ≤ 12
  lead : let c := s.slewLead f ((s.field f).slewTo (s.gtc / 4)).slewStart
    0 < (s.core c).work → (s.core c).rungs < 4 → (s.core c).rungs < (t.core c).rungs

theorem State.slewField_eq (s : State) (f : Nat) : s.slewField f =
    ((s.setField f ((s.field f).slewTo (s.gtc / 4))).slewBenches (s.gtc / 4 % 4) 12
      (slewOrder f ((((s.field f).slewTo (s.gtc / 4)).slewStart + s.gtc / 4) % 12))).1 := rfl

section
variable (s : State) (f : Nat)

theorem State.slewField_keeps {α : Type} (p : State → α) (hp : ∀ s x y, p { s with fields := x, cores := y } = p s) :
    p (s.slewField f) = p s :=
  (State.slewBenches_keeps p (fun s x => hp s s.fields x) _ _ _).trans (hp s _ s.cores)

theorem State.field_slewField : (s.slewField f).field f = (s.field f).slewTo (s.gtc / 4) :=
  (State.slewBenches_keeps (State.field · f) (fun _ _ => rfl) _ _ _).trans (State.field_setField_same _ _ _)

theorem State.field_slewField_other {i : Nat} (h : f ≠ i) : (s.slewField f).field i = s.field i :=
  (State.slewBenches_keeps (State.field · i) (fun _ _ => rfl) _ _ _).trans (State.field_setField_other _ _ h)

theorem State.core_slewField_other {c : Nat} (h : c ∉ codes (48 * f) 48) : (s.slewField f).core c = s.core c := by
  refine State.core_slewBenches_other _ _ fun b hb hc => h ?_
  rw [codes_field]
  exact List.mem_flatMap.2 ⟨b, (slewOrder_perm _ _).mem_iff.1 hb, hc⟩

theorem State.slewField_slews : s.FieldSlews (s.slewField f) f := by
  have horder := slewOrder_perm f ((((s.field f).slewTo (s.gtc / 4)).slewStart + s.gtc / 4) % 12)
  have hnodup := horder.nodup_iff.2 (nodup_codes _ _)
  obtain ⟨hslews, hsum⟩ := State.slewBenches_slews (start := s.gtc / 4 % 4) hnodup
    (s.setField f ((s.field f).slewTo (s.gtc / 4))) 12
  rw [(horder.map _).sum_eq, ← climbed_field, ← State.slewField_eq] at hsum
  rw [← State.slewField_eq] at hslews
  have hclimbed : climbed s (s.slewField f) (codes (48 * f) 48) =
    climbed (s.setField f ((s.field f).slewTo (s.gtc / 4))) (s.slewField f) (codes (48 * f) 48) := rfl
  refine ⟨s.field_slewField f, fun b hb => ?_, by omega, fun hwork hrungs => ?_⟩
  · exact (hslews b (horder.mem_iff.2 hb)).congr (fun _ _ => rfl) (fun _ _ => rfl) (by omega)
  · have hhead : ∃ l, slewOrder f ((((s.field f).slewTo (s.gtc / 4)).slewStart + s.gtc / 4) % 12) =
        (12 * f + (((s.field f).slewTo (s.gtc / 4)).slewStart + s.gtc / 4) % 12) :: l :=
      ⟨_, List.cons_eq_cons.2 ⟨by simp, rfl⟩⟩
    obtain ⟨l, hl⟩ := hhead
    rw [hl] at hnodup
    rw [State.slewField_eq, hl]
    have := State.slewBenches_lead (start := s.gtc / 4 % 4) (List.nodup_cons.1 hnodup).1
      (s.setField f ((s.field f).slewTo (s.gtc / 4))) (left := 12) (by decide)
    rw [Nat.mod_mod] at this
    exact this hwork hrungs

end

/-! ### The step of all fields -/

/-- In a sweep over parts that do not meet, each operation finds its part as it was, and leaves it as it stays. -/
theorem foldl_part {σ : Type} {op : σ → Nat → σ} {same : Nat → σ → σ → Prop} (hrefl : ∀ i s, same i s s)
    (htrans : ∀ i s t u, same i s t → same i t u → same i s u) (hother : ∀ i j s, i ≠ j → same i s (op s j)) {l : List Nat}
    (hl : l.Nodup) {i : Nat} (hi : i ∈ l) (s : σ) : ∃ u, same i s u ∧ same i (op u i) (l.foldl op s) := by
  have hleaves : ∀ (l : List Nat) (s : σ), i ∉ l → same i s (l.foldl op s) := by
    intro l
    induction l with
    | nil => exact fun s _ => hrefl i s
    | cons j l ih =>
      exact fun s h => htrans _ _ _ _ (hother i j s fun e => h (e ▸ List.mem_cons_self))
        (ih _ fun hi => h (List.mem_cons_of_mem _ hi))
  induction l generalizing s with
  | nil => cases hi
  | cons j l ih =>
    obtain ⟨hj, hl⟩ := List.nodup_cons.1 hl
    rcases List.mem_cons.1 hi with rfl | hi
    · exact ⟨s, hrefl _ _, hleaves l _ hj⟩
    · obtain ⟨u, hu, hend⟩ := ih hl hi (op s j)
      exact ⟨u, htrans _ _ _ _ (hother i j s fun e => hj (e ▸ hi)) hu, hend⟩

/-- Two states agree on a field with its cores, and on the time. -/
structure SameField (f : Nat) (s t : State) : Prop where
  gtc : s.gtc = t.gtc
  field : s.field f = t.field f
  cores : SameCores (codes (48 * f) 48) s t

theorem SameField.refl (f : Nat) (s : State) : SameField f s s := ⟨rfl, rfl, fun _ _ => rfl⟩

theorem SameField.trans (f : Nat) (s t u : State) (h : SameField f s t) (k : SameField f t u) : SameField f s u :=
  ⟨h.gtc.trans k.gtc, h.field.trans k.field, fun c hc => (h.cores c hc).trans (k.cores c hc)⟩

theorem SameField.slewField_other (f i : Nat) (s : State) (h : f ≠ i) : SameField f s (s.slewField i) where
  gtc := (s.slewField_keeps i State.gtc fun _ _ _ => rfl).symm
  field := (s.field_slewField_other i h.symm).symm
  cores c hc := by
    rw [mem_codes] at hc
    exact (s.core_slewField_other i fun hi => by rw [mem_codes] at hi; omega).symm

/-- The starting core is one of the field's. -/
theorem State.slewLead_mem (s : State) (f slewStart : Nat) : s.slewLead f slewStart ∈ codes (48 * f) 48 := by
  unfold State.slewLead
  rw [mem_codes]
  omega

theorem State.FieldSlews.congr {s t s' t' : State} {f : Nat} (h : s.FieldSlews t f) (hs : SameField f s' s)
    (ht : SameField f t' t) : s'.FieldSlews t' f := by
  have hbench : ∀ {b}, b ∈ codes (12 * f) 12 → ∀ c ∈ codes (4 * b) 4, c ∈ codes (48 * f) 48 := fun hb c hc => by
    rw [codes_field]
    exact List.mem_flatMap.2 ⟨_, hb, hc⟩
  have hclimbed := climbed_congr hs.cores ht.cores
  have hstart : ∀ n, s'.slewLead f n = s.slewLead f n := fun n => by unfold State.slewLead; rw [hs.gtc]
  refine ⟨?_, fun b hb => ?_, ?_, ?_⟩
  · rw [ht.field, hs.field, hs.gtc, h.field]
  · rw [hclimbed]
    exact (h.benches b hb).congr (fun c hc => hs.cores c (hbench hb c hc)) (fun c hc => ht.cores c (hbench hb c hc))
      (Nat.le_refl _)
  · rw [hclimbed]
    exact h.climbed_le
  · intro c
    have hc : c ∈ codes (48 * f) 48 := s'.slewLead_mem f _
    rw [hs.cores c hc, ht.cores c hc]
    have heq : c = s.slewLead f ((s.field f).slewTo (s.gtc / 4)).slewStart := by
      rw [← hstart, ← hs.field, ← hs.gtc]
    rw [heq]
    exact h.lead

/-- The steps of the fields of a list. -/
def State.slewFields (s : State) (fields : List Nat) : State := fields.foldl State.slewField s

theorem State.slewFields_slews (s : State) {fields : List Nat} (hl : fields.Nodup) {f : Nat} (hf : f ∈ fields) :
    s.FieldSlews (s.slewFields fields) f := by
  obtain ⟨u, hbefore, hend⟩ := foldl_part SameField.refl SameField.trans SameField.slewField_other hl hf s
  exact (u.slewField_slews f).congr hbefore ⟨hend.gtc.symm, hend.field.symm, fun c hc => (hend.cores c hc).symm⟩

theorem State.slewFields_keeps {α : Type} (p : State → α) (hp : ∀ s x y, p { s with fields := x, cores := y } = p s) (s : State)
    (fields : List Nat) : p (s.slewFields fields) = p s :=
  foldl_keeps p (fun s f => s.slewField_keeps f p hp) fields s

def State.setSlewed (s : State) (n : Nat) : State := { s with slewed := n }

theorem State.setSlewed_sameField (s : State) (n f : Nat) : SameField f (s.setSlewed n) s := ⟨rfl, rfl, fun _ _ => rfl⟩

/-- The state behind a step of the slew limiter. -/
def State.slewn (s : State) : State := (s.slewFields (List.range 8)).setSlewed s.gtc

theorem State.slewn_slews (s : State) {f : Nat} (hf : f < 8) : s.FieldSlews s.slewn f :=
  (s.slewFields_slews List.nodup_range (List.mem_range.2 hf)).congr (.refl f s) (State.setSlewed_sameField _ _ f)

theorem State.slewn_keeps {α : Type} (p : State → α) (hp : ∀ s x y, p { s with fields := x, cores := y } = p s)
    (hslewed : ∀ (s : State) n, p (s.setSlewed n) = p s) (s : State) : p s.slewn = p s :=
  (hslewed _ _).trans (s.slewFields_keeps p hp _)

/-- Every core has a bench, and a bench its field. -/
theorem State.slewn_bench (s : State) {b : Nat} (hb : b < 96) :
    s.BenchSlews s.slewn b (12 - climbed s s.slewn (codes (48 * (b / 12)) 48)) :=
  (s.slewn_slews (f := b / 12) (by omega)).benches b ((mem_codes ..).2 (by omega))

theorem exec_slewStep {s : State} (hgtc : s.gtc % 4 = 0) (hnew : s.slewed ≠ s.gtc) : exec .slewStep s = .next s.slewn :=
  (if_pos (by simp [hgtc, hnew]) : execSlewStep s = _)

/-- The next starting bench is taken over at its step, and not before (R173). -/
theorem Field.slewTo_slewStart (x : Field) (n : Nat) : (x.slewNext = none → (x.slewTo n).slewStart = x.slewStart) ∧
    ∀ off m, x.slewNext = some (off, m) → m ≤ n → (x.slewTo n).slewStart = off ∧ (x.slewTo n).slewNext = none := by
  refine ⟨fun h => ?_, fun off m h hm => ?_⟩
  · unfold Field.slewTo
    rw [h]
  · unfold Field.slewTo
    rw [h]
    simp [hm]

/-! ### The writes to a bench -/

/-- Benches parked at a pattern, or let go again (R139). -/
def State.park (s : State) (o : Option (BitVec 16)) (benches : List Nat) : State :=
  benches.foldl (fun s b => s.modBench b fun x => { x with parked := o }) s

theorem State.park_updating (s : State) (o : Option (BitVec 16)) (benches : List Nat) : (s.park o benches).updating = s.updating :=
  foldl_keeps (op := fun s b => s.modBench b fun x => { x with parked := o }) State.updating (fun _ _ => rfl) benches s

theorem State.bench_park (s : State) (o : Option (BitVec 16)) {benches : List Nat} (hl : benches.Nodup) {i : Nat}
    (hi : i ∈ benches) : ((s.park o benches).bench i).parked = o := by
  unfold State.park
  rw [s.bench_foldl_modBench (fun x => { x with parked := o }) hl, if_pos hi]

/-- An update begins, or ends, at all benches. -/
def State.parkAll (s : State) (o : Option (BitVec 16)) (updating : Bool) : State :=
  s.repattern allBenches fun s => ({ s with updating } : State).park o allBenches

theorem State.parkAll_updating (s : State) (o : Option (BitVec 16)) (updating : Bool) :
    (s.parkAll o updating).updating = updating := by
  unfold State.parkAll State.repattern
  rw [State.park_updating]

theorem State.bench_parkAll (s : State) (o : Option (BitVec 16)) (updating : Bool) {i : Nat} (hi : i < 96) :
    ((s.parkAll o updating).bench i).parked = o := by
  unfold State.parkAll State.repattern
  rw [State.bench_park _ o (show allBenches.Nodup from List.nodup_range) (show i ∈ allBenches from List.mem_range.2 hi)]

section
variable {s : State} {p : BitVec 16} {bench refill : Nat}

theorem exec_pwrUpdate (hlegal : legalPattern p = true) (hpop : popOf p ≤ 12) (hfree : s.updating = false)
    (hhung : s.hung = false) : exec (.pwrUpdate p) s = .next ((s.parkAll (some p) true).powerRecord 0 17 p.toNat 0) :=
  (if_pos (by simp [hlegal, hpop, hfree, hhung]) : execPwrUpdate p s = _)

theorem exec_pwrUpdate_hung (h : s.hung = true) : exec (.pwrUpdate p) s = .next s :=
  (if_neg (by simp [h]) : execPwrUpdate p s = _)

theorem exec_pwrUpdateEnd (hup : s.updating = true) (hhung : s.hung = false) :
    exec .pwrUpdateEnd s = .next (s.parkAll none false) :=
  (if_pos (by simp [hup, hhung]) : execPwrUpdateEnd s = _)

theorem exec_pwrUpdateEnd_hung (h : s.hung = true) : exec .pwrUpdateEnd s = .next s :=
  (if_neg (by simp [h]) : execPwrUpdateEnd s = _)

theorem exec_strumWrite (hb : bench < 96) (hhung : s.hung = false) (hlegal : legalPattern p = true) :
    exec (.strumWrite bench p) s = .next (s.repattern [bench] fun s => s.modBench bench fun x => { x with pattern := p }) := by
  change execStrumWrite bench p s = _
  unfold execStrumWrite
  rw [if_neg (by simp [hhung]; omega), if_pos hlegal]

theorem exec_strumWrite_illegal (hb : bench < 96) (hhung : s.hung = false) (hlegal : legalPattern p = false) :
    exec (.strumWrite bench p) s = .next (s.powerRecord (fieldOfBench bench) 14 p.toNat 0) := by
  change execStrumWrite bench p s = _
  unfold execStrumWrite
  rw [if_neg (by simp [hhung]; omega), if_neg (by simp [hlegal])]

theorem exec_strumWrite_hung (h : s.hung = true) : exec (.strumWrite bench p) s = .next s :=
  (if_pos (by simp [h]) : execStrumWrite bench p s = _)

theorem exec_allowRefillWrite (hb : bench < 96) (hhung : s.hung = false) (hlo : 1 ≤ refill) (hhi : refill ≤ 1023) :
    exec (.allowRefillWrite bench refill) s = .next ((s.debit bench 0).modBench bench fun x => { x with refill }) := by
  have hmod : refill % 1024 = refill := Nat.mod_eq_of_lt (by omega)
  change execAllowRefillWrite bench refill s = _
  unfold execAllowRefillWrite
  rw [hmod, if_neg (by simp [hhung]; omega)]

theorem exec_allowRefillWrite_zero : exec (.allowRefillWrite bench 0) s = .next s := rfl

theorem exec_allowRefillWrite_hung (h : s.hung = true) : exec (.allowRefillWrite bench refill) s = .next s :=
  (if_pos (by simp [h]) : execAllowRefillWrite bench refill s = _)

end

/-! ### Throttling (R174, R175) -/

/-- An edge at a block changes groups and blocks alone. -/
theorem State.bench_deliverEdge (s : State) (r : BlockRef) (kind cause n : Nat) :
    (s.deliverEdge r kind cause).bench n = s.bench n := by
  unfold State.deliverEdge
  split <;> rfl

theorem State.throttleDue_begins {s : State} {bench : Nat} (hthrottling : (s.bench bench).throttling = false)
    (hpop : popOf (s.strum bench) < 16) : s.throttleDue bench = some 0 := by
  have hcause : s.throttleCause bench ≠ 0 := by
    unfold State.throttleCause
    rw [if_pos hpop]
    omega
  simp [State.throttleDue, hthrottling, hcause]

/-- The bench behind an edge that is due. -/
theorem exec_throttleEdge {s : State} {bench kind : Nat} (h : s.throttleDue bench = some kind) :
    ∃ t, exec (.throttleEdge bench) s = .next t ∧ t.bench bench = { s.bench bench with
      throttling := kind = 0, cause := if kind = 0 then s.throttleCause bench else (s.bench bench).cause } := by
  have hexec : exec (.throttleEdge bench) s = execThrottleEdge bench s := rfl
  unfold execThrottleEdge at hexec
  rw [h] at hexec
  refine ⟨_, hexec, ?_⟩
  rw [foldl_keeps (State.bench · bench) fun s b => s.bench_deliverEdge _ _ _ _,
    State.record_keeps (State.bench · bench) fun _ _ _ => rfl, State.bench_modBench_same]

/-- Settles O39: the writes by their equations above; a step of the slew limiter bench by bench and field by field
(`State.slewn_bench`, `State.slewn_slews`); an edge that is due by `exec_throttleEdge`. -/
theorem benchEvents : Obligations.BenchEvents := by
  unfold Obligations.BenchEvents
  intro s bench refill p works
  refine ⟨?_, ?_, ?_, ?_, ?_, ?_, ?_, ?_, ?_, ?_⟩
  · intro hlegal hpop hfree hhung
    refine ⟨_, exec_pwrUpdate hlegal hpop hfree hhung, ?_, fun i hi => ?_⟩
    · rw [State.powerRecord, State.record_keeps State.updating fun _ _ _ => rfl, State.parkAll_updating]
    · rw [State.bench_powerRecord, Bench.own, s.bench_parkAll (some p) true hi]
      rfl
  · exact fun hup hhung => ⟨_, exec_pwrUpdateEnd hup hhung, s.parkAll_updating none false,
      fun i hi => s.bench_parkAll none false hi⟩
  · intro hb hhung hlegal
    refine ⟨_, exec_strumWrite hb hhung hlegal, ?_, fun i hi => ?_⟩
    · unfold State.repattern
      rw [State.bench_modBench_same]
    · exact (State.bench_modBench_other _ _ hi.symm).trans (s.bench_setBench_other _ hi.symm)
  · intro hb hhung hlegal
    exact ⟨_, exec_strumWrite_illegal hb hhung hlegal, State.record_keeps State.benches (fun _ _ _ => rfl) _ _⟩
  · intro hb hhung hlo hhi
    refine ⟨_, exec_allowRefillWrite hb hhung hlo hhi, ?_, fun i hi => ?_⟩
    · rw [State.bench_modBench_same]
    · exact (State.bench_modBench_other _ _ hi.symm).trans (s.bench_setBench_other _ hi.symm)
  · exact exec_allowRefillWrite_zero
  · exact fun hhung => ⟨exec_strumWrite_hung hhung, exec_allowRefillWrite_hung hhung, exec_pwrUpdate_hung hhung,
      exec_pwrUpdateEnd_hung hhung⟩
  · intro hgtc hnew
    refine ⟨_, exec_slewStep hgtc hnew, rfl, s.slewn_keeps State.groups (fun _ _ _ => rfl) fun _ _ => rfl,
      s.slewn_keeps State.mem (fun _ _ _ => rfl) fun _ _ => rfl, fun c hc => ?_, fun b hb => ?_, fun f hf => ?_⟩
    · have hslews := s.slewn_bench (b := c / 4) (by omega)
      have hmem : c ∈ codes (4 * (c / 4)) 4 := (mem_codes ..).2 (by omega)
      exact ⟨hslews.jobs c hmem, hslews.climbs c hmem, hslews.drops c hmem⟩
    · have hslews := s.slewn_bench hb
      have hle := (s.slewn_slews (f := b / 12) (by omega)).climbed_le
      exact ⟨hslews.climbed_le, hslews.dropped_le, hslews.idle, fun hlt => (hslews.busy hlt).imp_left fun h => by omega⟩
    · have hslews := s.slewn_slews hf
      obtain ⟨hstands, hnext⟩ := (s.field f).slewTo_slewStart (s.gtc / 4)
      rw [hslews.field]
      exact ⟨hslews.climbed_le, hstands, hnext, hslews.lead⟩
  · intro hthrottling hpop
    obtain ⟨t, hexec, hbench⟩ := exec_throttleEdge (State.throttleDue_begins hthrottling hpop)
    refine ⟨t, hexec, ?_⟩
    rw [hbench]
    exact ⟨rfl, rfl⟩
  · intro kind hdue
    obtain ⟨t, hexec, hbench⟩ := exec_throttleEdge hdue
    refine ⟨t, hexec, ?_⟩
    rw [hbench]
    exact ⟨rfl, fun h => if_pos h⟩

end Sys2Proof.Machine

namespace Sys2Proof.Machine

open Sys2Proof

/-! ## Lanes, SLEEP and ICINV (R151, R165, R167, R182) -/

/-! ### Lanes (R165, R167) -/

section
variable {s : State} {core : Nat} {g h : Group}

theorem State.enterLane_eq (s : State) (g : Group) : s.enterLane g = s.modGroup g.ref (Group.entered · s.gtc) := by
  unfold State.enterLane Group.entered
  congr 1
  funext x
  cases x.wait <;> rfl

theorem State.leaveLane_eq (s : State) (h : Group) : s.leaveLane h = s.modGroup h.ref Group.left := by
  unfold State.leaveLane Group.left
  congr 1
  funext x
  cases x.wait <;> rfl

theorem State.group?_enterLane_same (hg : s.group? g.ref = some g) :
    (s.enterLane g).group? g.ref = some (g.entered s.gtc) := by
  rw [State.enterLane_eq]
  exact State.group?_modGroup_same hg fun _ => rfl

theorem State.group?_enterLane_other {r : GroupRef} (hr : r ≠ g.ref) : (s.enterLane g).group? r = s.group? r :=
  State.group?_modGroup_other s (fun _ => rfl) hr.symm

theorem State.group?_leaveLane_same (hh : s.group? h.ref = some h) : (s.leaveLane h).group? h.ref = some h.left := by
  rw [State.leaveLane_eq]
  exact State.group?_modGroup_same hh fun _ => rfl

theorem State.group?_leaveLane_other {r : GroupRef} (hr : r ≠ h.ref) : (s.leaveLane h).group? r = s.group? r :=
  State.group?_modGroup_other s (fun _ => rfl) hr.symm

/-- A lane handed from `h` on to `g` changes these two groups alone. -/
theorem State.leaveLane_enterLane (hg : s.group? g.ref = some g) (hh : s.group? h.ref = some h) (hne : h.ref ≠ g.ref) :
    ((s.leaveLane h).enterLane g).group? g.ref = some (g.entered s.gtc) ∧
      ((s.leaveLane h).enterLane g).group? h.ref = some h.left ∧
      ∀ r, r ≠ g.ref → r ≠ h.ref → ((s.leaveLane h).enterLane g).group? r = s.group? r := by
  refine ⟨?_, ?_, fun r hrg hrh => ?_⟩
  · have hstays := (State.group?_leaveLane_other (s := s) hne.symm).trans hg
    exact State.group?_enterLane_same hstays
  · rw [State.group?_enterLane_other hne, State.group?_leaveLane_same hh]
  · rw [State.group?_enterLane_other hrg, State.group?_leaveLane_other hrh]

theorem exec_groupSwap_free (hin : s.entering core = some g) (hroom : (s.activeOn core).length < 8) :
    exec (.groupSwap core) s = .next (s.enterLane g) := by
  change execGroupSwap core s = _
  simp only [execGroupSwap, State.swap, hin, if_pos hroom, Option.getD_some]

theorem exec_groupSwap_full (hin : s.entering core = some g) (hfull : 8 ≤ (s.activeOn core).length)
    (hout : s.leaving core = some h) : exec (.groupSwap core) s = .next ((s.leaveLane h).enterLane g) := by
  change execGroupSwap core s = _
  simp only [execGroupSwap, State.swap, hin, if_neg (Nat.not_lt.mpr hfull), hout, Option.getD_some]

theorem exec_forcedSwap (hin : s.entering core = some g) (hlong : g.readySince.getD 0 + 2048 ≤ s.gtc)
    (hfull : 8 ≤ (s.activeOn core).length)
    (hout : leastBy (fun h => [h.activeSince, h.ref.task, h.ref.bid, h.ref.gid]) (s.activeOn core) = some h) :
    exec (.forcedSwap core) s = .next ((s.leaveLane h).enterLane g) := by
  have hwaits : ¬(s.gtc < g.readySince.getD 0 + 2048 || (s.activeOn core).length < 8) = true := by simp [hlong, hfull]
  change execForcedSwap core s = _
  simp only [execForcedSwap, State.forced, hin, if_neg hwaits, hout, Option.getD_some]

/-! ### Ends of stalls (R151, R182) -/

theorem exec_sleepWake {wake : Nat} (hg : s.group? g.ref = some g) (hwait : g.wait = .sleep wake) (hwake : wake ≤ s.gtc) :
    exec (.sleepWake g.ref) s = .next (s.setGroup { g with wait := .ready }) := by
  change execSleepWake g.ref s = _
  simp only [execSleepWake, hg, hwait, if_pos hwake]

theorem exec_icinvDone {wake scope : Nat} {ranges : Option (List (Nat × Nat))} (hg : s.group? g.ref = some g)
    (hwait : g.wait = .icinv wake scope ranges) (hwake : wake ≤ s.gtc) :
    exec (.icinvDone g.ref) s = .next ((s.invalidate scope g.core ranges).setGroup { g with wait := .ready }) := by
  change execIcinvDone g.ref s = _
  simp only [execIcinvDone, hg, hwait, if_pos hwake]

/-- A range of physical addresses meets the line of a fetch block. -/
def FetchBlock.Meets (b : FetchBlock) (r : Nat × Nat) : Prop := b.pa / 64 * 64 < r.2 ∧ r.1 < b.pa / 64 * 64 + 64

/-- A fetch block is the one that it was, but for the cores that may no longer read it. -/
def FetchBlock.Remains (o b : FetchBlock) : Prop := b.field = o.field ∧ b.pa = o.pa ∧ b.bytes = o.bytes

/-- A block that loses the cores of a scope and remains is one that none of them reads (R151). -/
theorem FetchBlock.lose_gone {scope core : Nat} {o b : FetchBlock} (h : o.lose scope core = some b) :
    o.Remains b ∧ ∀ k ∈ codes (48 * b.field) 48, inScope scope core k = true → k ∈ b.gone := by
  unfold FetchBlock.lose at h
  simp only at h
  split at h
  case isTrue hnone =>
    cases h
    have hout : ∀ k ∈ codes (48 * o.field) 48, ¬inScope scope core k = true :=
      List.filter_eq_nil_iff.mp (List.isEmpty_iff.mp hnone)
    exact ⟨⟨rfl, rfl, rfl⟩, fun k hk hscope => absurd hscope (hout k hk)⟩
  case isFalse =>
    split at h
    · cases h
    · cases h
      exact ⟨⟨rfl, rfl, rfl⟩, fun k hk hscope => List.mem_append_right _ (List.mem_filter.mpr ⟨hk, hscope⟩)⟩

/-- What an invalidation leaves in the fetch caches: no core of the scope reads a block that the ranges meet, any block where
no ranges are given (R151). -/
theorem State.mem_icache_invalidate {scope : Nat} {ranges : Option (List (Nat × Nat))} {b : FetchBlock}
    (h : b ∈ (s.invalidate scope core ranges).icache) :
    ∃ o ∈ s.icache, o.Remains b ∧ ((∀ rs, ranges = some rs → ∃ x ∈ rs, b.Meets x) →
      ∀ k ∈ codes (48 * b.field) 48, inScope scope core k = true → k ∈ b.gone) := by
  obtain ⟨o, ho, hlose⟩ := List.mem_filterMap.mp h
  refine ⟨o, ho, ?_⟩
  split at hlose
  case isTrue =>
    obtain ⟨hremains, hgone⟩ := FetchBlock.lose_gone hlose
    exact ⟨hremains, fun _ => hgone⟩
  case isFalse hmisses =>
    cases hlose
    refine ⟨⟨rfl, rfl, rfl⟩, fun hmeets => absurd ?_ hmisses⟩
    simpa [Option.all_eq_true, FetchBlock.Meets] using hmeets

end

/-- Settles O40: swaps hand a lane on as `State.leaveLane_enterLane` has it, into a free lane by `State.group?_enterLane_same`
alone; ICINV's end leaves the fetch blocks of `State.mem_icache_invalidate`. -/
theorem groupEvents : Obligations.GroupEvents := by
  unfold Obligations.GroupEvents
  intro s core g h enters leaves entered swapped
  have hswap (hin : enters) (hout : leaves) : swapped ((s.leaveLane h).enterLane g) := by
    obtain ⟨hg, hh, hrest⟩ := State.leaveLane_enterLane hin.2 hout.1 hout.2
    exact ⟨⟨hg, rfl, rfl⟩, hh, hrest⟩
  refine ⟨?_, ?_, ?_, ?_, ?_⟩
  · intro ⟨hin, hg⟩ hroom
    exact ⟨_, exec_groupSwap_free hin hroom, ⟨State.group?_enterLane_same hg, rfl, rfl⟩,
      fun r hr => State.group?_enterLane_other hr⟩
  · exact fun hin hout hfull hleaving => ⟨_, exec_groupSwap_full hin.1 hfull hleaving, hswap hin hout⟩
  · exact fun hin hout hlong hfull hleast => ⟨_, exec_forcedSwap hin.1 hlong hfull hleast, hswap hin hout⟩
  · exact fun wake hg hwait hwake => exec_sleepWake hg hwait hwake
  · intro wake scope ranges hg hwait hwake
    refine ⟨_, exec_icinvDone hg hwait hwake, ?_, fun b hb => ?_⟩
    · exact State.group?_setGroup_same _ { g with wait := .ready } (Option.isSome_of_eq_some hg)
    · obtain ⟨o, ho, ⟨hfield, hpa, hbytes⟩, hgone⟩ := State.mem_icache_invalidate hb
      exact ⟨o, ho, hfield, hpa, hbytes, hgone⟩

end Sys2Proof.Machine

namespace Sys2Proof.Machine

open Sys2Proof

/-! ## Translation and owners (R145, R290, R291, R293, R447) -/

/-! ### Walks (R145, R290) -/

/-- A TLB that takes an entry holds it, and nothing else that it did not hold. -/
theorem State.tlbTake_eq (s : State) (e : TlbEntry) :
    ∃ l n, s.tlbTake e = { s with tlb := e :: l, freeCtr := n } ∧ ∀ t ∈ l, t ∈ s.tlb := by
  unfold State.tlbTake
  simp only
  generalize (if e.core.isSome = true then 256 else 16384) = room
  split
  · exact ⟨_, _, rfl, fun t ht => ht⟩
  · exact ⟨_, _, rfl, fun t ht => List.mem_of_mem_filter ht⟩

/-- The uses that a walk records of the frames of its leaf: executable ones, writable ones (R145). -/
def leafUses (die owner va f pages : Nat) (w x : Bool) : List FrameUse :=
  (if x then [{ die, frame := f / 65536, npages := pages, owner, vpage := va / 65536 / pages * pages, exec := true }] else []) ++
    (if w then [{ die, frame := f / 65536, npages := pages, owner, vpage := va / 65536 / pages * pages, exec := false }] else [])

/-- A leaf's permission is refused only by a use that stands against it. -/
theorem and_any_eq_false {α : Type} {a : Bool} {l : List α} {p : α → Bool} (h : ∀ u ∈ l, p u = true → a = false) :
    (a && l.any p) = false := by
  cases a with
  | false => rfl
  | true => exact List.any_eq_false.mpr fun u hu hp => Bool.noConfusion (h u hu hp)

theorem and_not_of_and_eq_false {a b : Bool} (h : (a && b) = false) : (a && !b) = a := by
  cases b with
  | false => exact Bool.and_true a
  | true =>
    rw [Bool.and_true] at h
    rw [h, Bool.false_and]

section
variable {s : State} {owner field va : Nat}

/-- A field's walker is to walk: the address is one that an enabled owner's tables may map, and the field's TLB does not hold
it (R290). -/
structure State.Misses (s : State) (owner field va : Nat) : Prop where
  enabled : (s.owner owner).en = true
  range : va < 2 ^ 56
  outside : inSpliceCache va = false
  missed : s.tlb.find? (fun e => e.maps owner field none va) = none

theorem State.Misses.translates (h : s.Misses owner field va) : (2 ^ 56 ≤ va || !(s.owner owner).en) = false := by
  rw [h.enabled, decide_eq_false (Nat.not_le.mpr h.range)]
  rfl

theorem State.translate_page (h : s.Misses owner field va) {level : Nat}
    (hwalk : pageWalk s owner (dieOfField field) va = .page level) : (s.translate owner field va).2 = s := by
  simp only [State.translate, State.translateBy, Viewer.core?, Viewer.field, h.translates, h.outside, h.missed, hwalk,
    Option.bind_none, Bool.false_eq_true, if_false]

/-- The uses of the leaf's frames allow its permissions (R145). -/
def State.Allows (s : State) (die f pages : Nat) (w x : Bool) : Prop :=
  ∀ u ∈ s.frames, u.covers die (f / 65536) pages = true → (u.exec = true → w = false) ∧ (u.exec = false → x = false)

theorem State.translate_leaf (h : s.Misses owner field va) {f pages : Nat} {r w x ca : Bool}
    (hwalk : pageWalk s owner (dieOfField field) va = .leaf f pages r w x ca)
    (hallows : s.Allows (dieOfField field) f pages w x) :
    (s.translate owner field va).2 =
      State.tlbTake { s with frames := leafUses (dieOfField field) owner va f pages w x ++ s.frames }
        { owner, field, page := va / 65536 / pages * pages, npages := pages, pa := f, r, w, x, ca } := by
  have hw : (w && s.frames.any fun u => u.exec && u.covers (dieOfField field) (f / 65536) pages) = false :=
    and_any_eq_false fun u hu huse => by
      obtain ⟨hexec, hcovers⟩ := Bool.and_eq_true_iff.mp huse
      exact (hallows u hu hcovers).1 hexec
  have hx : (x && s.frames.any fun u => !u.exec && u.covers (dieOfField field) (f / 65536) pages) = false :=
    and_any_eq_false fun u hu huse => by
      obtain ⟨hwrite, hcovers⟩ := Bool.and_eq_true_iff.mp huse
      exact (hallows u hu hcovers).2 (Bool.not_eq_true' _ ▸ hwrite)
  simp only [State.translate, State.translateBy, Viewer.core?, Viewer.field, h.translates, h.outside, h.missed, hwalk, hw,
    and_not_of_and_eq_false hx, hx,
    Option.bind_none, Bool.false_eq_true, if_false]
  rfl

end

theorem exec_pageWalk {s : State} {owner die field va : Nat} (hfield : field < 8) (hdie : dieOfField field = die) :
    exec (.pageWalk owner die field va) s = .next (s.translate owner field va).2 :=
  (if_pos (by simp [hfield, hdie]) : execPageWalk owner die field va s = _)

/-! ### Shootdowns (R291) -/

section
variable {s : State} {die owner lo hi : Nat}

theorem TlbEntry.hit_iff (e : TlbEntry) : e.hit die owner lo hi = true ↔
    e.owner = owner ∧ dieOfField e.field = die ∧ e.page < hi ∧ lo < e.page + e.npages := by
  simp [TlbEntry.hit, and_assoc]

theorem State.mem_tlb_shoot {e : TlbEntry} : e ∈ (s.shoot die owner lo hi).tlb ↔
    e ∈ s.tlb ∧ (e.owner = owner → dieOfField e.field = die → ¬(e.page < hi ∧ lo < e.page + e.npages)) := by
  simp only [State.shoot, List.mem_filter, Bool.not_eq_true', ← Bool.not_eq_true, e.hit_iff, not_and]

theorem Die.tlbiPages_all {d : Die} (h : d.tlbiCount = 0) : d.tlbiPages = (0, 2 ^ 40) := if_pos h

theorem Die.tlbiPages_some {d : Die} (h : d.tlbiCount ≠ 0) :
    d.tlbiPages = (d.tlbiVa / 65536, d.tlbiVa / 65536 + d.tlbiCount) := if_neg h

theorem exec_shootdown (hdie : die < 2) (hdone : (s.die die).tlbiDone = true) :
    exec (.shootdown die) s =
      .next ((s.shoot die (s.die die).tlbiOwner (s.die die).tlbiPages.1 (s.die die).tlbiPages.2).setDie die
        { s.die die with
          tlbiDone := false, tlbiWho := (s.die die).tlbiOwner, tlbiLo := (s.die die).tlbiPages.1,
          tlbiHi := (s.die die).tlbiPages.2, tlbiFrom := s.nextId, tlbiGtc := s.gtc }) :=
  (if_neg (by simp [hdone, hdie]) : execShootdown die s = _)

theorem exec_shootdown_running (hruns : (s.die die).tlbiDone = false) : exec (.shootdown die) s = .next s :=
  (if_pos (by simp [hruns]) : execShootdown die s = _)

theorem exec_shootdownDone (hdue : s.shootdownDue die = true) :
    exec (.shootdownDone die) s =
      .next ((s.shootFetch die (s.die die).tlbiWho (s.die die).tlbiLo (s.die die).tlbiHi).setDie die
        { s.die die with tlbiDone := true }) :=
  (if_pos hdue : execShootdownDone die s = _)

theorem State.mem_icache_shootFetch {b : FetchBlock} : b ∈ (s.shootFetch die owner lo hi).icache ↔
    b ∈ s.icache ∧ (dieOfField b.field = die → s.shotFrame die owner lo hi (b.pa / 65536) = false) := by
  simp [State.shootFetch, imp_iff_not_or]

/-- A frame whose recorded use a shootdown covers is among those that it drops fetch blocks of (log 46, DEDUCED). -/
theorem State.shotFrame_of_dying {u : FrameUse} {frame : Nat} (hu : u ∈ s.frames) (hdying : u.dying = true) (hdie : u.die = die)
    (howner : u.owner = owner) (hframe : u.frame ≤ frame ∧ frame < u.frame + u.npages) :
    s.shotFrame die owner lo hi frame = true := by
  have hany : (s.frames.any fun u => u.dying && u.die = die && u.owner = owner && u.frame ≤ frame && frame < u.frame + u.npages) =
      true := List.any_eq_true.mpr ⟨u, hu, by simp [hdying, hdie, howner, hframe]⟩
  simp [State.shotFrame, hany]

/-! ### Owners and peers (R293, R447) -/

/-- The state whose TLBs and fetch caches hold nothing of an owner any more. -/
def State.shootOwner (s : State) (owner : Nat) : State :=
  (((s.shoot 0 owner 0 (2 ^ 40)).shoot 1 owner 0 (2 ^ 40)).shootFetch 0 owner 0 (2 ^ 40)).shootFetch 1 owner 0 (2 ^ 40)

theorem State.mem_tlb_shootOwner {e : TlbEntry} (h : e ∈ (s.shootOwner owner).tlb) (howner : e.owner = owner)
    (hfield : dieOfField e.field < 2) : ¬(e.page < 2 ^ 40 ∧ 0 < e.page + e.npages) := by
  have hshot : e ∈ ((s.shoot 0 owner 0 (2 ^ 40)).shoot 1 owner 0 (2 ^ 40)).tlb := h
  obtain ⟨hshot0, hfree1⟩ := State.mem_tlb_shoot.mp hshot
  obtain ⟨-, hfree0⟩ := State.mem_tlb_shoot.mp hshot0
  obtain hd | hd : dieOfField e.field = 0 ∨ dieOfField e.field = 1 := by omega
  · exact hfree0 howner hd
  · exact hfree1 howner hd

theorem exec_ownerRetire (hdue : s.ownerRetireDue owner = true) :
    exec (.ownerRetire owner) s = .next ((s.shootOwner owner).setOwner owner
      { (s.shootOwner owner).owner owner with en := false, keyOk := false, retiring := none }) :=
  (if_neg (by simp [hdue]) : execOwnerRetire owner s = _)

/-- The key of a peer's read, and the sectors it has no bytes of, are the model's choice (log 104, DEDUCED). -/
theorem exec_peerRead {pa len : Nat} (hpa : paMalformed pa = false) (hmodule : paModule pa = s.domid) (hclass : paClass pa = 0) :
    exec (.peerRead owner pa len) s = .next { s with peerReply := s.peerReply ++ [(List.range len).map fun i =>
      if s.poisonAt (pa + i) 1 then none else some (s.readByte (some (s.keyOf owner)) (pa + i))] } :=
  (if_neg (by simp [hpa, hmodule, hclass]) : execPeerRead owner pa len s = _)

end

/-- Settles O43: a walk by `State.translate_leaf`, a shootdown by `State.mem_tlb_shoot` over the pages of `Die.tlbiPages`, its
completion by `State.mem_icache_shootFetch`, a retirement by `State.mem_tlb_shootOwner`. -/
theorem translationEvents : Obligations.TranslationEvents := by
  unfold Obligations.TranslationEvents
  intro s owner die field va pa len d walks
  refine ⟨?_, ?_, ?_, ?_, ?_, ?_, ?_⟩
  · rintro f pages r w x ca ⟨hfield, rfl, hen, hva, hout, hmiss⟩ hwalk huses
    have hallows : s.Allows (dieOfField field) f pages w x := fun u hu hcovers => by
      simp only [FrameUse.covers, Bool.and_eq_true, decide_eq_true_eq] at hcovers
      exact huses u hu hcovers.1.1 hcovers.1.2 hcovers.2
    have hleaf := State.translate_leaf ⟨hen, hva, hout, hmiss⟩ hwalk hallows
    have hframe : s.Walked (s.translate owner field va).2 := s.translateBy_walked (.unit field) owner va
    obtain ⟨l, n, htake, hl⟩ := State.tlbTake_eq
      { s with frames := leafUses (dieOfField field) owner va f pages w x ++ s.frames }
      { owner, field, page := va / 65536 / pages * pages, npages := pages, pa := f, r, w, x, ca }
    refine ⟨_, exec_pageWalk hfield rfl, ?_, ?_, ?_, ?_, (congrArg State.mem hframe).symm, (congrArg State.groups hframe).symm⟩
    all_goals rw [hleaf, htake]
    · exact List.mem_cons_self
    · rintro rfl
      exact ⟨_, List.mem_append_left _ (List.mem_append_right _ (List.mem_singleton_self _)), rfl, rfl, rfl, rfl⟩
    · rintro rfl
      exact ⟨_, List.mem_append_left _ (List.mem_append_left _ (List.mem_singleton_self _)), rfl, rfl, rfl, rfl⟩
    · intro e he
      obtain rfl | hold := List.mem_cons.mp he
      · exact .inr ⟨rfl, rfl⟩
      · exact .inl (hl e hold)
  · rintro level ⟨hfield, rfl, hen, hva, hout, hmiss⟩ hwalk
    rw [exec_pageWalk hfield rfl, State.translate_page ⟨hen, hva, hout, hmiss⟩ hwalk]
  · intro hdie hdone
    refine ⟨_, exec_shootdown hdie hdone, ?_, fun e he => ?_⟩
    · rw [State.die_setDie_same]
    · obtain ⟨hold, hfree⟩ := State.mem_tlb_shoot.mp he
      refine ⟨hold, fun howner hfield => ⟨fun hcount => ?_, fun hcount => ?_⟩⟩
      · rw [Die.tlbiPages_some hcount] at hfree
        exact hfree howner hfield
      · rw [Die.tlbiPages_all hcount] at hfree
        exact hfree howner hfield
  · exact exec_shootdown_running
  · intro hdue
    refine ⟨_, exec_shootdownDone hdue, ?_, fun b hb => ?_⟩
    · rw [State.die_setDie_same]
    · obtain ⟨hold, hshot⟩ := State.mem_icache_shootFetch.mp hb
      refine ⟨hold, fun hfield => ⟨hshot hfield, fun u hu hdying hdie howner hframe => ?_⟩⟩
      exact Bool.eq_false_iff.mp (hshot hfield) (State.shotFrame_of_dying hu hdying hdie howner hframe)
  · intro hdue
    refine ⟨_, exec_ownerRetire hdue, ?_, ?_, fun e he => ?_⟩
    · rw [State.owner_setOwner_same]
    · rw [State.owner_setOwner_same]
    · rw [State.setOwner_tlb] at he
      exact State.mem_tlb_shootOwner he
  · exact exec_peerRead

end Sys2Proof.Machine

namespace Sys2Proof.Machine

open Sys2Proof

/-! ## The extended forms of the vector integer family (R160, R195 to R199) -/

theorem vselVal_eq : vselVal = fun a b c => if c ≠ 0 then a else b := by
  funext a b c
  simp only [vselVal, ite_not]

/-- Each extended form of Table 10-2 with one destination runs the family's operation with what its row gives. -/
theorem exec_vector (x : Ext) :
    ∀ p ∈ vectorTable x, exec p.2.1 = vectorOp p.1 x (lenExt x) p.2.2.1 p.2.2.2.1 p.2.2.2.2 := by
  simp only [vectorTable, ← vselVal_eq, List.forall_mem_cons, List.not_mem_nil, false_implies, implies_true, and_true]
  and_intros <;> rfl

/-- Settles O4: every row is the vector operation with what it gives (`exec_vector`), and that operation writes D alone
(`vectorOp_completes`). -/
theorem vectorResult : Obligations.VectorResult := by
  unfold Obligations.VectorResult
  intro s g b x p hp e hf
  exact vectorOp_completes (congrFun (exec_vector x p hp) s) hf

/-! ## YIELD, SLEEP and the special registers (R177 to R184) -/

/-- A group that waits from now on. -/
def Env.waits (e : Env) (w : Wait) : Env := { e with g := { e.g with wait := w, waitSince := e.s.gtc } }

theorem exec_yield (s : State) : exec .yield s = issue (cInfo 4) (fun e => .done (e.waits .yield)) s := rfl

/-- Settles O18: the bodies of YIELD and SLEEP end with the group's wait set; SLEEP's count is what the issue sees of A. -/
theorem yieldSleepResult : Obligations.YieldSleepResult := by
  unfold Obligations.YieldSleepResult
  intro s g b x at' n
  refine ⟨ends_of (exec_yield s) rfl, fun hf => ends_ext rfl hf ?_⟩
  simp only [envAt_srcU]
  rfl

section
variable {i : IssueInfo} {s : State} {g : Group} {b : Block}

/-- An extended instruction that writes a uniform destination alone. -/
theorem setS64_completes {maj fn d : Nat} {x : Ext} {n : Instr} {k : Env → Res} {v : W64} (hx : exec n s = issueExt maj fn x i k s)
    (hf : Full maj fn x (envOf s g b i.len)) (hk : k (envAt i s g b) = .done ((envAt i s g b).setS64 d v)) :
    Completes n i s g b ((envOf s g b i.len).putU (g.arch.past i.len) d v) ((envOf s g b i.len).uCodes d) :=
  ext_completes hx hf hk (setS64_s _ _ _) (setS64_b _ _ _) (putU_done _ _)

theorem note_g {e : Env} {h : Group} {a : Arch} {w : List Nat} (he : e.g = h.wrote a w) (c : Nat) :
    (e.note c).g = h.wrote a (w ++ [c]) := by
  rw [← wrote_note h a a]
  simp only [Env.note, Env.modRegion, he]
  rfl

theorem envAt_benchNo : (envAt i s g b).benchNo = benchOfCore g.core := congrArg benchOfCore (envAt_core i s g b)

theorem envAt_powerWord : (envAt i s g b).powerWord = (envOf s g b i.len).powerWord := by
  unfold Env.powerWord Env.field
  simp only [envAt_benchNo, envAt_core]
  rfl

end

theorem exec_sget (x : Ext) (s : State) : exec (.sget x) s = issueExt 26 3 x (uInfo (lenExt x))
    (fun e => .done (e.setS64 (x.d.toNat - 128) (e.specialReg x.imm8.toNat))) s := rfl

/-! ### SSET's registers (R177, R179) -/

section
variable {x : Ext} (s : State)

/-- FMODE is special register 0. -/
theorem exec_sset_fmode (hx : x.imm8 = 0) : exec (.sset x) s = issueExt 26 4 x (uInfo (lenExt x))
    (fun e => .done ((e.setFmode (writeFmode e.g.arch.fmode (e.srcU x.lit x.a))).note 1024)) s := by
  change execSset x s = _
  unfold execSset
  simp only [hx]
  rfl

/-- TARMCFG is special register 4. -/
theorem exec_sset_tarmcfg (hx : x.imm8 = 4) : exec (.sset x) s = issueExt 26 4 x (uInfo (lenExt x))
    (fun e => .done { e with b := e.b.arm e.s.gtc e.g.ref.gid (e.srcU x.lit x.a) }) s := by
  change execSset x s = _
  unfold execSset
  simp only [hx]
  rfl

/-- No other has a field that SSET writes. -/
theorem exec_sset_other (h0 : x.imm8 ≠ 0) (h4 : x.imm8 ≠ 4) :
    exec (.sset x) s = issueExt 26 4 x (uInfo (lenExt x)) .done s := by
  change execSset x s = _
  unfold execSset
  congr 1
  funext e
  simp only
  split
  · rename_i heq
    exact absurd (BitVec.eq_of_toNat_eq (y := 0) heq) h0
  · rename_i heq
    exact absurd (BitVec.eq_of_toNat_eq (y := 4) heq) h4
  · rfl

end

/-- Settles O29: SGET, TIME and PWRQ write one uniform register (`setS64_completes`), SSET what its register has
(`exec_sset_fmode`, `exec_sset_tarmcfg`, `exec_sset_other`); each reads what the issue sees. -/
theorem specialResult : Obligations.SpecialResult := by
  unfold Obligations.SpecialResult
  intro s g b x i e0 e p d v
  refine ⟨fun hf => ?_, fun hf => ?_, fun hf => ?_, fun hf => ⟨fun hx => ?_, fun hx => ?_, fun h0 h4 => ?_⟩, fun hf => ?_⟩
  · exact setS64_completes (i := i) (v := e.specialReg x.imm8.toNat) (exec_sget x s) hf rfl
  · refine setS64_completes (i := i) rfl hf ?_
    simp only [envAt_benchNo]
    rfl
  · refine setS64_completes (i := i) rfl hf ?_
    rw [envAt_powerWord]
  · refine ext_completes (i := i) (exec_sset_fmode s hx) hf rfl
      (setFmode_s (envAt i s g b) _) (setFmode_b (envAt i s g b) _) ?_
    rw [note_g (setFmode_g (envAt_wrote i s g b) _), envAt_srcU, envAt_arch]
    rfl
  · refine ends_ext (i := i) (exec_sset_tarmcfg s hx) hf ?_
    simp only [envAt_srcU, envAt_ref]
    rfl
  · exact ext_completes (i := i) (exec_sset_other s h0 h4) hf rfl rfl rfl (envAt_wrote i s g b)
  · refine ends_ext (i := i) rfl hf ?_
    simp only [envAt_srcU, envAt_ref, envAt_benchNo]
    rfl

end Sys2Proof.Machine

namespace Sys2Proof.Machine

open Sys2Proof

/-! ## Regions (R163, R305 to R315, R424) -/

section
variable {s : State} {g : Group}

/-! ### Heads and closes (R305, R309) -/

theorem exec_regionTimeoutHead (hg : s.group? g.ref = some g) (htime : g.timedOut s = true) :
    exec (.regionTimeoutHead g.ref) s = .next (s.setGroup { g with
      headPending := true, regions := modLast (fun q => q.headNow (q.firstIssue + 4096)) g.regions }) := by
  change execRegionTimeoutHead g.ref s = _
  simp only [execRegionTimeoutHead, hg, if_pos htime]

/-- A region that times out has had no head yet. -/
theorem Group.timedOut_headAt {y : Region} (htime : g.timedOut s = true) (hlast : g.regions.getLast? = some y) :
    y.headAt = none := by
  simp only [Group.timedOut, hlast, Bool.and_eq_true, Option.isNone_iff_eq_none] at htime
  exact htime.1.2

theorem exec_regionClose (hg : s.group? g.ref = some g) (hclose : g.closable s = true) :
    exec (.regionClose g.ref) s = .next (s.setGroup { g with regions := g.regions.map fun y => y.closeNow s g }) := by
  change execRegionClose g.ref s = _
  simp only [execRegionClose, hg, if_pos hclose]

/-! ### Commits (R309, R311) -/

section
variable {q : Region} {qs : List Region} {c w : Nat}

/-- The mc at which a region closed at `c` under the window `w` commits. -/
theorem Region.commitAt_closed (hclose : q.close = some (c, w)) (last : Nat) :
    q.commitAt s last = some (max (max (c + w) last) (q.tagEnd s)) := by
  simp only [Region.commitAt, hclose, Option.map_some]

theorem exec_regionCommit_early (hg : s.group? g.ref = some g) (hr : g.regions = q :: qs) (hclose : q.close = some (c, w))
    (hm : s.gtc < max (max (c + w) g.lastCommit) (q.tagEnd s)) : exec (.regionCommit g.ref) s = .next s := by
  change execRegionCommit g.ref s = _
  simp only [execRegionCommit, hg, Group.commitDue, hr, Region.commitAt_closed hclose, Option.any_some, decide_eq_true_eq,
    if_neg (Nat.not_le.mpr hm)]

theorem exec_regionCommit_due (hg : s.group? g.ref = some g) (hr : g.regions = q :: qs) (hclose : q.close = some (c, w))
    (hm : max (max (c + w) g.lastCommit) (q.tagEnd s) ≤ s.gtc) : exec (.regionCommit g.ref) s = .next (s.commit g q) := by
  change execRegionCommit g.ref s = _
  simp only [execRegionCommit, hg, Group.commitDue, hr, Region.commitAt_closed hclose, Option.any_some, decide_eq_true_eq,
    if_pos hm]

/-- A commit that releases no request, ends no group and carries no trap. -/
theorem State.commit_plain (hreq : q.requests = []) (hends : q.ends = false) (htrap : q.trap = none) :
    s.commit g q =
      ((s.setGroup { g with regions := g.regions.drop 1, lastCommit := s.gtc }).releaseRegion g.ref q.seq).sendReady := by
  simp only [State.commit, hreq, List.foldl_nil, hends, Bool.false_eq_true, if_false, State.trapHolds, htrap]

/-- R311: what a committed region has queued is released. -/
theorem State.released_of_releaseRegion {r : GroupRef} {seq : Nat} {o : QEntry} (ho : o ∈ (s.releaseRegion r seq).entries)
    (hg : o.g = r) (hseq : o.region = seq) : o.released = true := by
  obtain ⟨x, -, rfl⟩ := List.mem_map.mp ho
  split
  · rfl
  · rename_i hnot
    rw [if_neg hnot] at hg hseq
    simpa [hg, hseq] using hnot

end

/-! ### Drains (R311, R315) -/

section
variable {e : QEntry}

theorem exec_storeDrain_acked (he : s.entries.find? (fun o => o.id = e.id) = some e) (hdue : s.drainDue e = true)
    (hphase : e.phase = 2) :
    exec (.storeDrain e.id) s = .next ({ s with entries := s.entries.filter fun o => o.id ≠ e.id } : State).sendReady := by
  change execStoreDrain e.id s = _
  simp only [execStoreDrain, he, hdue, hphase, Bool.not_true, Bool.false_eq_true, if_false, if_true]

theorem exec_storeDrain_performs (he : s.entries.find? (fun o => o.id = e.id) = some e) (hdue : s.drainDue e = true)
    (hphase : e.phase = 0) (hhold : s.entryHold e = 0) : exec (.storeDrain e.id) s = .next (s.performEntry e) := by
  change execStoreDrain e.id s = _
  simp [execStoreDrain, he, hdue, hphase, hhold]

theorem exec_storeDrain_leaves (he : s.entries.find? (fun o => o.id = e.id) = some e) (hdue : s.drainDue e = true)
    (hphase : e.phase = 0) (hhold : s.entryHold e ≠ 0) :
    exec (.storeDrain e.id) s = .next (s.setEntry { e with phase := 1, due := s.gtc + s.qwin + s.entryHold e }) := by
  change execStoreDrain e.id s = _
  simp [execStoreDrain, he, hdue, hphase, hhold]

theorem exec_taggedHoldEnd (he : s.entries.find? (fun o => o.id = e.id) = some e) (hdue : s.drainDue e = true)
    (hphase : e.phase = 1) : exec (.taggedHoldEnd e.id) s = .next (s.performEntry e) := by
  change execTaggedHoldEnd e.id s = _
  simp [execTaggedHoldEnd, he, hdue, hphase]

end

/-! ### Results (R163, R308) -/

/-- A group whose marks behind an arrived result have been raised (R368). -/
def Group.raised (g : Group) (id gtc : Nat) : Group :=
  { g with
    relMark := g.relMark.raise id gtc, arBefore := g.arBefore.raise id gtc,
    regions := g.regions.map fun q => { q with requests := q.requests.map fun h => { h with after := h.after.raise id gtc } } }

theorem State.group?_raiseMarks (s : State) (r q : GroupRef) (id : Nat) :
    (s.raiseMarks r id).group? q = (s.group? q).map fun g => if g.ref = r then g.raised id s.gtc else g :=
  find?_map_key Group.ref s.groups r q (f := fun g => g.raised id s.gtc) fun _ => rfl

/-- What a result leaves of the region that it finds: its number, its head, its cover and its tags. -/
def Region.seen (y : Region) : Nat × Arch × List CellRef × List Tag := (y.seq, y.ctx, y.cover, y.tags)

/-- The state behind a result `id` that has left its group as `h`, with the results `fills` still to come. -/
def State.filled (s : State) (fills : List Fill) (h : Group) (id : Nat) : State :=
  (({ s with fills }.setGroup h).raiseMarks h.ref id).sendReady

theorem State.filled_group {h : Group} (hh : (s.group? h.ref).isSome = true) (fills : List Fill) (id : Nat) :
    (s.filled fills h id).group? h.ref = some (h.raised id s.gtc) := by
  have hset : (({ s with fills } : State).setGroup h).group? h.ref = some h := State.group?_setGroup_same _ h hh
  change (State.raiseMarks _ h.ref id).group? h.ref = _
  rw [State.group?_raiseMarks, hset, Option.map_some, if_pos rfl]
  rfl

theorem Group.raised_seen (g : Group) (id gtc : Nat) : (g.raised id gtc).regions.map Region.seen = g.regions.map Region.seen := by
  simp only [Group.raised, List.map_map]
  rfl

theorem Group.fillOrdinary_ref (g : Group) (f : Fill) : (g.fillOrdinary f).ref = g.ref := by
  unfold Group.fillOrdinary
  cases f.fault with
  | none => rfl
  | some t => rfl

section
variable {f : Fill}

theorem exec_registerFill_ordinary (hf : s.fills.find? (fun h => h.id = f.id) = some f) (hdue : s.fillDue f = true)
    (hg : s.group? f.g = some g) (hclosing : f.closing = false) (hhandle : f.handle = none) :
    exec (.registerFill f.id) s = .next (s.filled (s.fills.filter fun h => h.id ≠ f.id) (g.fillOrdinary f) f.id) := by
  have href : f.g = (g.fillOrdinary f).ref := by rw [Group.fillOrdinary_ref, State.group?_ref hg]
  obtain ⟨id, r⟩ := f
  subst hclosing hhandle
  change execRegisterFill id s = _
  simp only [execRegisterFill, hf, hdue, hg, Bool.not_true, Bool.false_eq_true, if_false, State.filled, ← href]

/-- The group that receives the result of a closing operation: one with no region open opens one, unless it has ended
(log 123). -/
def Group.opened (g : Group) (gtc : Nat) : Group := if g.regions = [] ∧ g.ended = false then g.openEarly gtc else g

theorem Group.opened_ref (g : Group) (gtc : Nat) : (g.opened gtc).ref = g.ref := by
  unfold Group.opened
  split <;> rfl

/-- R308: the result of a closing operation stays listed with the region that has received it. -/
def Fill.kept (f : Fill) (g : Group) : List Fill :=
  if g.regions.isEmpty then [] else [{ f with arrived := true, region := g.receiver f.id }]

theorem Fill.mem_kept (hopen : g.regions ≠ []) : { f with arrived := true, region := g.receiver f.id } ∈ f.kept g := by
  unfold Fill.kept
  rw [if_neg fun hnone => hopen (List.isEmpty_iff.mp hnone)]
  exact List.mem_singleton_self _

theorem exec_registerFill_closing (hf : s.fills.find? (fun h => h.id = f.id) = some f) (hdue : s.fillDue f = true)
    (hg : s.group? f.g = some g) (hclosing : f.closing = true) :
    let g1 := g.opened s.gtc
    exec (.registerFill f.id) s = .next
      (s.filled (f.kept g1 ++ s.fills.filter fun h => h.id ≠ f.id) (g1.fillClosing f (g1.receiver f.id)) f.id) := by
  intro g1
  have hopen : (if g.regions.isEmpty && !g.ended then g.openEarly s.gtc else g) = g1 := by simp [g1, Group.opened]
  have href : f.g = (g1.fillClosing f (g1.receiver f.id)).ref :=
    (State.group?_ref hg).symm.trans (g.opened_ref s.gtc).symm
  obtain ⟨id, r⟩ := f
  subst hclosing
  change execRegisterFill id s = _
  simp only [execRegisterFill, hf, hdue, hg, Bool.not_true, Bool.false_eq_true, if_false, if_true, hopen, State.filled, ← href]
  rfl

/-- R163: the register that waits for a result, and nothing else of it, is filled. -/
theorem Group.fillOrdinary_ureg {n : Nat} {v : W64} (hvals : f.vals = [.u n v]) (hn : n ≠ 0)
    (hpend : (g.arch.ureg n).pend = some f.id) (hfault : f.fault = none) :
    (g.fillOrdinary f).arch.ureg n = { val := v } := by
  have hfill : (g.fillOrdinary f).arch = g.arch.setS n { val := v } := by
    simp only [Group.fillOrdinary, hfault, Arch.fill, hvals, List.foldl_cons, List.foldl_nil, if_pos hpend, Fill.poisoned,
      Bool.false_eq_true, if_false]
  rw [hfill, Arch.ureg_setS (h := hn), if_pos rfl]

end

/-! ### Deliveries (R424) -/

theorem exec_trapEntry {b : Block} {x : Trap} (hg : s.group? g.ref = some g) (hb : s.block? (blockOf g.ref) = some b)
    (hnext : g.nextTrap = some x) (hdue : s.trapDue g = true) :
    exec (.trapEntry g.ref) s = .next (s.enterTrap g b x) := by
  change execTrapEntry g.ref s = _
  simp only [execTrapEntry, hg, hb, hnext, if_pos hdue]

end

/-- Settles O41: each event by its equation above; what a result leaves of its group is `State.filled_group`. -/
theorem regionEvents : Obligations.RegionEvents := by
  unfold Obligations.RegionEvents
  intro s g b q qs e f here queued came g1 g2 seen holds
  have hholds {fills : List Fill} {h : Group} (href : h.ref = g.ref) (hh : (s.group? g.ref).isSome = true) :
      holds (s.filled fills h f.id) h := by
    refine ⟨h.raised f.id s.gtc, ?_, rfl, Group.raised_seen .., rfl, rfl, rfl, rfl⟩
    rw [← href] at hh ⊢
    exact State.filled_group hh fills f.id
  have hcame : came → (s.group? g.ref).isSome = true := fun ⟨_, _, hg⟩ => by
    rw [State.group?_ref hg, hg]
    rfl
  refine ⟨?_, ?_, ?_, ?_, ?_, ?_, ?_, ?_, ?_, ?_⟩
  · intro hg htime
    refine ⟨_, _, exec_regionTimeoutHead hg htime,
      State.group?_setGroup_same _ { g with headPending := true, regions := _ } (Option.isSome_of_eq_some hg), rfl,
      fun y hlast => ?_⟩
    rw [modLast_getLast, hlast, Option.map_some]
    simp only [Region.headNow, Group.timedOut_headAt htime hlast, Option.isSome_none, Bool.false_eq_true, if_false]
  · exact exec_regionClose
  · intro hg hr c w hclose m
    refine ⟨exec_regionCommit_early hg hr hclose, exec_regionCommit_due hg hr hclose, fun hm hreq hends htrap => ?_⟩
    refine ⟨_, exec_regionCommit_due hg hr hclose hm, ?_⟩
    rw [State.commit_plain hreq hends htrap, hr]
    exact ⟨State.group?_setGroup_same s { g with regions := qs, lastCommit := s.gtc } (Option.isSome_of_eq_some hg), rfl,
      fun o ho => State.released_of_releaseRegion ho⟩
  · intro ⟨he, hdue⟩ hphase
    exact ⟨_, exec_storeDrain_acked he hdue hphase, fun o ho => of_decide_eq_true (List.mem_filter.mp ho).2, rfl⟩
  · exact fun ⟨he, hdue⟩ => exec_storeDrain_performs he hdue
  · exact fun ⟨he, hdue⟩ => exec_storeDrain_leaves he hdue
  · exact fun ⟨he, hdue⟩ => exec_taggedHoldEnd he hdue
  · intro hc hclosing hhandle
    obtain ⟨hf, hdue, hg⟩ := id hc
    exact ⟨_, exec_registerFill_ordinary hf hdue hg hclosing hhandle, hholds (g.fillOrdinary_ref f) (hcame hc),
      fun h hh => of_decide_eq_true (List.mem_filter.mp hh).2, fun n v => Group.fillOrdinary_ureg⟩
  · intro hc hclosing
    obtain ⟨hf, hdue, hg⟩ := id hc
    exact ⟨_, exec_registerFill_closing hf hdue hg hclosing, hholds (h := g2) (g.opened_ref s.gtc) (hcame hc),
      fun x hx => of_decide_eq_true (List.mem_filter.mp hx).2, fun hopen => List.mem_append_left _ (Fill.mem_kept hopen)⟩
  · exact fun x => exec_trapEntry

end Sys2Proof.Machine

namespace Sys2Proof.Machine

open Sys2Proof

/-! ## What an issue cannot reach (R158, R307, R311)

An instruction sends nothing from its core: all that lies outside is observed as one value (`State.outside`), which each step of a
body keeps; what it writes back is its own group and its own block, whose bench memory it has left as it was. -/

/-! ### What lies outside a group -/

/-- What no instruction of a group changes: memory with its keys and its poison, what has left the cores, the bench memories, and
of the other groups the registers and the regions. -/
structure Outside where
  mem : List Host.Cell
  keys : Table KeyVal
  poison : List Nat
  caLines : List (Nat × W64 × CaLine)
  locks : List Lock
  monitors : List Monitor
  pendings : List Pending
  queues : Table Queue
  owners : Table Owner
  gtc : Nat
  bench : BlockRef → Option (Table Byte)
  others : GroupRef → Option (Arch × List Region)

/-- The registers and the regions of the groups but `r`. -/
def State.others (s : State) (r q : GroupRef) : Option (Arch × List Region) :=
  if q = r then none else (s.group? q).map fun g => (g.arch, g.regions)

def State.outside (s : State) (r : GroupRef) : Outside where
  mem := s.mem
  keys := s.keys
  poison := s.poison
  caLines := s.caLines
  locks := s.locks
  monitors := s.monitors
  pendings := s.pendings
  queues := s.queues
  owners := s.owners
  gtc := s.gtc
  bench q := (s.block? q).map (·.bench)
  others := s.others r

section
variable {s : State} {r : GroupRef}

theorem State.Walked.outside {t : State} (h : s.Walked t) : t.outside r = s.outside r := by
  rw [← h]
  rfl

theorem State.delay_outside (base : Nat) : (s.delay base).2.outside r = s.outside r := by
  unfold State.delay
  split <;> rfl

theorem State.record_outside (x : EventRec) : (s.record x).outside r = s.outside r := by
  unfold State.record
  simp only
  split <;> rfl

theorem State.outside_of_others {t : State} (h : t = { s with groups := t.groups }) (ho : t.others r = s.others r) :
    t.outside r = s.outside r := by
  rw [h] at ho ⊢
  exact congrArg (fun o => { s.outside r with others := o }) ho

theorem State.setGroup_outside (g : Group) : (s.setGroup g).outside g.ref = s.outside g.ref := by
  refine State.outside_of_others rfl (funext fun q => ?_)
  by_cases hq : q = g.ref
  · simp only [State.others, if_pos hq]
  · simp only [State.others, if_neg hq, State.group?_setGroup_other s g (Ne.symm hq)]

/-- A change of other groups that leaves their registers and their regions. -/
theorem State.modGroup_outside (q : GroupRef) {f : Group → Group}
    (hf : ∀ g, (f g).ref = g.ref ∧ (f g).arch = g.arch ∧ (f g).regions = g.regions) :
    (s.modGroup q f).outside r = s.outside r := by
  refine State.outside_of_others rfl (funext fun p => ?_)
  have hkeeps : ∀ g : Group,
      ((if g.ref = q then f g else g).arch, (if g.ref = q then f g else g).regions) = (g.arch, g.regions) := fun g => by
      obtain ⟨-, harch, hregions⟩ := hf g
      split
      · rw [harch, hregions]
      · rfl
  simp only [State.others, s.group?_modGroup q p fun g => (hf g).1, Option.map_map, Function.comp_def, hkeeps]

/-- A block written back with the bench memory that it has. -/
theorem State.setBlock_outside {b : Block} (h : (s.outside r).bench b.ref = some b.bench) :
    (s.setBlock b).outside r = s.outside r := by
  refine congrArg (fun o => { s.outside r with bench := o }) (funext fun q => ?_)
  by_cases hq : q = b.ref
  · subst hq
    have hsome : (s.block? b.ref).isSome = true := by
      have := congrArg Option.isSome h
      simpa [State.outside] using this
    rw [State.block?_setBlock_same s b hsome]
    exact h.symm
  · rw [State.block?_setBlock_other s b (Ne.symm hq)]

end

/-! ### The environment of an issue -/

/-- The names of the group and the block that issue, the block's bench memory, and what lies outside the group. -/
def Env.outside (e : Env) : GroupRef × BlockRef × Table Byte × Outside := (e.g.ref, e.b.ref, e.b.bench, e.s.outside e.g.ref)

section
variable {e : Env}

theorem Env.setS_outside {s : State} (h : s.outside e.g.ref = e.s.outside e.g.ref) : (e.setS s).outside = e.outside :=
  congrArg (fun o => (e.g.ref, e.b.ref, e.b.bench, o)) h

/-- A new environment is told apart from `e` by its names and its state alone. -/
theorem Env.outside_of {f : Env} (hg : f.g.ref = e.g.ref) (hb : f.b.ref = e.b.ref) (hbench : f.b.bench = e.b.bench)
    (hs : f.s.outside e.g.ref = e.s.outside e.g.ref) : f.outside = e.outside := by
  unfold Env.outside
  rw [hg, hb, hbench, hs]

@[simp] theorem Env.setArch_outside (a : Arch) : (e.setArch a).outside = e.outside := rfl
@[simp] theorem Env.setPc_outside (n : Nat) : (e.setPc n).outside = e.outside := rfl
@[simp] theorem Env.modRegion_outside (k : Region → Region) : (e.modRegion k).outside = e.outside := rfl
@[simp] theorem Env.note_outside (c : Nat) : (e.note c).outside = e.outside := rfl
@[simp] theorem Env.withPasses_outside (n : Nat) : (e.withPasses n).outside = e.outside := rfl
@[simp] theorem Env.setK_outside (n : Nat) (x : W32) : (e.setK n x).outside = e.outside := rfl
@[simp] theorem Env.writeV_outside (x : Ext) (n : Nat) (v : VVal) : (e.writeV x n v).outside = e.outside := rfl
@[simp] theorem Env.writeK_outside (x : Ext) (n : Nat) (f : Nat → Bool) : (e.writeK x n f).outside = e.outside := rfl
@[simp] theorem Env.writePair_outside (x : Ext) (v w : VVal) : (e.writePair x v w).outside = e.outside := rfl
@[simp] theorem Env.mxSave_outside (items : List Nat) : (e.mxSave items).outside = e.outside := rfl

@[simp] theorem Env.setS64_outside (n : Nat) (x : W64) : (e.setS64 n x).outside = e.outside := by
  unfold Env.setS64
  split <;> rfl

@[simp] theorem Env.setFmode_outside (w : W64) : (e.setFmode w).outside = e.outside := by
  unfold Env.setFmode
  split <;> rfl

theorem Env.doom_outside (code fault task orig : Nat) : (e.doom code fault task orig).outside = e.outside := by
  refine Env.outside_of ?_ rfl rfl rfl
  change (e.g.ensureRegion e.s.gtc).ref = e.g.ref
  unfold Group.ensureRegion
  split <;> rfl

theorem Env.takeTrap_outside (t : Trap) (resume : Nat) : (e.takeTrap t resume).outside = e.outside := by
  unfold Env.takeTrap
  simp only
  split
  · exact e.doom_outside ..
  · split
    · split
      · rfl
      · exact e.doom_outside ..
    · refine Env.outside_of rfl rfl rfl ?_
      simp only
      split
      · exact State.record_outside _
      · rfl

/-- What is written back of an environment is the group and the block that it is of. -/
theorem Env.close_outside {s : State} {g : Group} {b : Block} (h : e.outside = (g.ref, b.ref, b.bench, s.outside g.ref))
    (hb : s.block? b.ref = some b) : e.close.outside g.ref = s.outside g.ref := by
  simp only [Env.outside, Prod.mk.injEq] at h
  obtain ⟨href, hbref, hbench, hout⟩ := h
  rw [href] at hout
  have hgroup : (e.s.setGroup e.g).outside g.ref = s.outside g.ref := by
    rw [← href, State.setGroup_outside, href, hout]
  have hown : ((e.s.setGroup e.g).outside g.ref).bench e.b.ref = some e.b.bench := by
    rw [hgroup, hbref, hbench]
    exact congrArg (Option.map (·.bench)) hb
  exact (State.setBlock_outside hown).trans hgroup

end

/-! ### Bodies -/

/-- If it has taken effect, it has left the outside as `o`. -/
def Res.Within (o : GroupRef × BlockRef × Table Byte × Outside) (r : Res) : Prop := ∀ e, r = .done e → e.outside = o

/-- A body leaves the outside as it is. -/
def Confined (k : Env → Res) : Prop := ∀ e, (k e).Within e.outside

section
variable {o : GroupRef × BlockRef × Table Byte × Outside} {e : Env}

@[simp] theorem Res.within_done : (Res.done e).Within o ↔ e.outside = o :=
  ⟨fun h => h e rfl, fun h _ he => by cases he; exact h⟩
@[simp] theorem Res.within_trap (t : Trap) : (Res.trap t).Within o := fun _ h => nomatch h
@[simp] theorem Res.within_trapAfter (t : Trap) (s : State) : (Res.trapAfter t s).Within o := fun _ h => nomatch h
@[simp] theorem Res.within_wait (w : Wait) : (Res.wait w).Within o := fun _ h => nomatch h
@[simp] theorem Res.within_waitHead : Res.waitHead.Within o := fun _ h => nomatch h
@[simp] theorem Res.within_stall : Res.stall.Within o := fun _ h => nomatch h

theorem Env.blocked_within {srcs : List (Nat × Bool)} {dsts : List Nat} {r : Res} (h : e.blocked srcs dsts = some r) :
    r.Within o := by
  unfold Env.blocked at h
  split at h
  · cases h
    exact Res.within_trap _
  · split at h
    · cases h
      exact Res.within_wait _
    · cases h

theorem Env.whenFull_within {srcs : List (Nat × Bool)} {dsts : List Nat} {k : Env → Res} (h : (k e).Within o) :
    (e.whenFull srcs dsts k).Within o := by
  unfold Env.whenFull
  split
  case h_1 r hblocked => exact Env.blocked_within hblocked
  case h_2 => exact h

end

/-! ### The issue -/

/-- Run from a state, it leaves the outside of the state's current group as it is. -/
def KeepsOutside (f : State → Host.Outcome State Fault Refusal) : Prop :=
  ∀ s t, f s = .next t → ∃ r, s.cur = some r ∧ t.outside r = s.outside r

theorem State.waitAt_outside (s : State) {g h : Group} (w : Wait) (href : h.ref = g.ref) :
    (s.waitAt h w).outside g.ref = s.outside g.ref := by
  rw [← href]
  exact State.setGroup_outside { h with wait := w, waitSince := _ }

theorem envBefore_outside (i : IssueInfo) (s : State) (g : Group) (b : Block) :
    (envBefore i s g b).outside = (g.ref, b.ref, b.bench, s.outside g.ref) := by
  unfold Env.outside
  rw [show (envBefore i s g b).g.ref = g.ref from atIssue_ref g i s.gtc]
  rfl

theorem Group.passHead_ref (g : Group) (gtc : Nat) (c : Bool) : (if c then g.passHead gtc else g).ref = g.ref := by
  cases c <;> rfl

/-- The wrapper writes back what its body has left, or the group's wait or trap. -/
theorem issue_keepsOutside {i : IssueInfo} {body : Env → Res} (hbody : Confined body) : KeepsOutside (issue i body) := by
  intro s t h
  unfold issue at h
  split at h
  case h_1 => cases h
  case h_2 g hcur =>
    obtain ⟨r, hr, hg⟩ := Option.bind_eq_some_iff.mp hcur
    obtain rfl := State.group?_ref hg
    refine ⟨_, hr, ?_⟩
    split at h
    case h_1 => cases h
    case h_2 b hb =>
      rw [← State.block?_ref hb] at hb
      have hbefore := envBefore_outside i s g b
      have htrap (x : Trap) : ((envBefore i s g b).takeTrap x g.arch.pc).close.outside g.ref = s.outside g.ref :=
        Env.close_outside ((Env.takeTrap_outside x _).trans hbefore) hb
      have hwait (w : Wait) : (s.waitAt (if g.opensFor i then g.passHead s.gtc else g) w).outside g.ref = s.outside g.ref :=
        s.waitAt_outside w (g.passHead_ref s.gtc _)
      simp only at h
      split at h
      · cases h; rfl
      split at h
      · cases h; exact s.waitAt_outside .empty rfl
      split at h
      · cases h; exact htrap _
      split at h
      · cases h; exact hwait .empty
      split at h
      · cases h; exact hwait .empty
      have hat : (envAt i s g b).outside = (g.ref, b.ref, b.bench, s.outside g.ref) := hbefore
      split at h
      case h_1 x _ => cases h; exact htrap x
      case h_2 x w _ =>
        cases h
        exact Env.close_outside (s := s)
          ((Env.takeTrap_outside x _).trans (envBefore_outside i (s.walked w) g b)) hb
      case h_3 => cases h; exact Env.close_outside hbefore hb
      case h_4 w _ => cases h; exact hwait w
      case h_5 =>
        cases h
        refine s.waitAt_outside .empty ?_
        split <;> rfl
      case h_6 e he =>
        split at h
        · cases h; exact hwait .empty
        · cases h
          exact Env.close_outside (e := e.issued i _ _) ((hbody _ e he).trans hat) hb

theorem issueExt_keepsOutside {maj fn : Nat} {x : Ext} {i : IssueInfo} {k : Env → Res} (hk : Confined k) :
    KeepsOutside (issueExt maj fn x i k) :=
  issue_keepsOutside fun e => by
    split
    · exact Res.within_trap _
    · exact Env.whenFull_within (hk e)

theorem issueStore_keepsOutside {maj fn : Nat} {x : Ext} {i : IssueInfo} {k : Env → Res} (hk : Confined k) :
    KeepsOutside (issueStore maj fn x i k) :=
  issue_keepsOutside fun e => by
    split
    · exact Res.within_trap _
    · exact Env.whenFull_within (hk e)

/-! ### Accesses find their places (R296, R384) -/

/-- The environment that an access goes on with, whether it finds a place or not. -/
def Env.placed {α ε : Type} (e : Env) : Except (ε × State) (α × Env) → Env
  | .ok x => x.2
  | .error x => e.setS x.2

section
variable {e e1 : Env}

theorem Env.setS_walked {s : State} (h : e.s.Walked s) : (e.setS s).outside = e.outside := Env.setS_outside h.outside

theorem Env.place_outside (store bm : Bool) (align : Nat) (a : Access) :
    (e.placed (e.place store bm align a)).outside = e.outside := by
  have hwalk := placeScr_walked e.s (.core e.g.core) e.b.owner (!store) store a.va
  unfold Env.place
  simp only
  split
  · rfl
  · split
    · split
      · rfl
      · split <;> rfl
    · split
      case h_1 x hx =>
        rw [hx] at hwalk
        exact Env.setS_walked hwalk
      case h_2 pa s' hx =>
        rw [hx] at hwalk
        split <;> exact Env.setS_walked hwalk

theorem Env.placeAll_outside {store bm : Bool} {align : Nat} {as : List Access} {ps : List (Option Nat)}
    (h : e.placeAll store bm align as = .ok (ps, e1)) : e1.outside = e.outside := by
  induction as generalizing e ps with
  | nil => cases h; rfl
  | cons a as ih =>
    have hplace := e.place_outside store bm align a
    unfold Env.placeAll at h
    split at h
    case h_1 x hx =>
      rw [hx] at hplace
      split at h
      · split at h
        · cases h
        case h_2 hrest => cases h; exact (ih hrest).trans hplace
      · cases h
    case h_2 p e2 hx =>
      rw [hx] at hplace
      split at h
      · cases h
      case h_2 hrest => cases h; exact (ih hrest).trans hplace

theorem Env.placeChunks_outside {store bm : Bool} {cs : List (Nat × Nat)} {ps : List Nat}
    (h : e.placeChunks store bm cs = .ok (ps, e1)) : e1.outside = e.outside := by
  induction cs generalizing e ps with
  | nil => cases h; rfl
  | cons c cs ih =>
    unfold Env.placeChunks at h
    split at h
    · cases h
    case h_2 hfirst =>
      split at h
      · cases h
      case h_2 hrest => cases h; exact (ih hrest).trans (Env.placeAll_outside hfirst)

theorem Env.placeSync_outside {write : Bool} {a : Access} {p : Nat} (h : e.placeSync write a = .ok (p, e1)) :
    e1.outside = e.outside := by
  have hwalk := placeScr_walked e.s (.core e.g.core) e.b.owner true write a.va
  unfold Env.placeSync at h
  simp only at h
  split at h
  · cases h
  · split at h
    · cases h
    case h_2 pa s' hx =>
      rw [hx] at hwalk
      split at h
      · cases h
      · cases h; exact Env.setS_walked hwalk

theorem Env.placeSyncAll_outside {write : Bool} {as : List Access} {ps : List Nat}
    (h : e.placeSyncAll write as = .ok (ps, e1)) : e1.outside = e.outside := by
  induction as generalizing e ps with
  | nil => cases h; rfl
  | cons a as ih =>
    unfold Env.placeSyncAll at h
    split at h
    · cases h
    case h_2 hfirst =>
      split at h
      · cases h
      case h_2 hrest => cases h; exact (ih hrest).trans (Env.placeSync_outside hfirst)

/-! ### Reads, queued writes and requests (R295, R307, R311) -/

theorem Env.delayed_outside (base : Nat) : (e.setS (e.s.delay base).2).outside = e.outside :=
  Env.setS_outside (State.delay_outside base)

@[simp] theorem Env.readPath_outside (bm : Bool) (ps : List (Option Nat)) (n : Nat) :
    (e.readPath bm ps n).2.outside = e.outside := by
  unfold Env.readPath
  split
  · exact e.delayed_outside _
  · refine foldl_keeps (fun a : Nat × Env => a.2.outside) (fun a l => ?_) (linesOf ps n) (1, e)
    have hdelay := a.2.delayed_outside (scratchLatency a.2.s e.field (256 * l)).1
    simp only
    split <;> exact hdelay

@[simp] theorem Env.pendResult_outside (lat : Nat) (vals : List RegVal) (fault : Option Trap) :
    (e.pendResult lat vals fault).outside = e.outside := by
  unfold Env.pendResult
  simp only
  rw [foldl_keeps Env.outside fun a v => ?_]
  · rfl
  · cases v with
    | v n x => rfl
    | u n x => simp only; split <;> rfl

theorem Env.enqueue_within {qs : List QEntry} : (e.enqueue qs .done).Within e.outside := by
  unfold Env.enqueue
  split
  · split
    · exact Res.within_wait _
    · exact Res.within_waitHead
  · exact Res.within_done.mpr rfl

theorem Env.queueWrites_within {bm : Bool} {ws : List (Nat × Byte)} : (e.queueWrites bm ws .done).Within e.outside :=
  Env.enqueue_within

/-- The register of a code that a request will fill becomes empty. -/
theorem Env.emptied_outside (c id : Nat) :
    (if c < 128 then (e.setArch (e.g.arch.setV c { e.g.arch.vreg c with pend := some id })).note c
      else if c = 128 then e
      else (e.setArch (e.g.arch.setS (c - 128) { e.g.arch.ureg (c - 128) with pend := some id })).note c).outside = e.outside := by
  split
  · rw [Env.note_outside, Env.setArch_outside]
  · split
    · rfl
    · rw [Env.note_outside, Env.setArch_outside]

theorem Env.setWaiting_outside (w : List Nat) : ({ e with g := { e.g with waiting := w } } : Env).outside = e.outside := rfl

@[simp] theorem Env.hold_outside (req : Request) (dst : List Nat) (scope : Option Nat) (waiting : Bool) :
    (e.hold req dst scope waiting).outside = e.outside := by
  unfold Env.hold
  simp only
  split
  · rw [Env.setWaiting_outside, foldl_keeps Env.outside fun a c => a.emptied_outside c _]
    rfl
  · rw [foldl_keeps Env.outside fun a c => a.emptied_outside c _]
    rfl

theorem Env.holdEntries_within {req : Request} {dst : List Nat} {scope : Option Nat} :
    (e.holdEntries req dst scope).Within e.outside := by
  unfold Env.holdEntries
  split
  · split
    · exact Res.within_wait _
    · exact Res.within_waitHead
  · exact Res.within_done.mpr (e.hold_outside ..)

end

/-! ### What the families share -/

/-- One of two results, both within. -/
theorem Res.within_ite {o : GroupRef × BlockRef × Table Byte × Outside} {c : Prop} [Decidable c] {a b : Res} (ha : a.Within o)
    (hb : b.Within o) : (if c then a else b).Within o := by
  split
  · exact ha
  · exact hb

/-- A group that has to wait has changed nothing outside. -/
theorem Res.within_unlessWait {o : GroupRef × BlockRef × Table Byte × Outside} {c : Prop} [Decidable c] {w : Wait} {r : Res}
    (h : r.Within o) : (if c then .wait w else r).Within o := Res.within_ite (Res.within_wait w) h

/-- A trap leaves the outside to the wrapper. -/
theorem Res.within_unlessTrap {o : GroupRef × BlockRef × Table Byte × Outside} {c : Prop} [Decidable c] {t : Trap} {r : Res}
    (h : r.Within o) : (if c then .trap t else r).Within o := Res.within_ite (Res.within_trap t) h

section
variable {e : Env}

theorem Env.jumpTo_within (target : W64) : (e.jumpTo target).Within e.outside := by
  unfold Env.jumpTo
  split
  · exact Res.within_trap _
  · exact Res.within_done.mpr (e.setPc_outside _)

theorem Env.finishV_within (x : Ext) (half : Nat) (rs : List (W32 × Exc)) : (e.finishV x half rs).Within e.outside := by
  unfold Env.finishV
  simp only
  split
  · exact Res.within_trap _
  · exact Res.within_done.mpr (Env.setFmode_outside _)

/-- A pop goes on with the outside as it was. -/
theorem Env.popStack_within {o : GroupRef × BlockRef × Table Byte × Outside} {a : Arch} {k : Env → Res}
    (hk : ∀ f : Env, f.outside = e.outside → (k f).Within o) : (e.popStack a k).Within o := by
  unfold Env.popStack
  split
  · exact hk _ (e.setArch_outside a)
  · split
    · exact Res.within_wait _
    · split
      case h_1 hplaced =>
        split
        · exact Res.within_wait _
        · refine hk _ ?_
          rw [Env.setArch_outside, Env.readPath_outside, Env.placeAll_outside hplaced]
      case h_2 => exact hk _ rfl

theorem Env.pushStack_within (a : Arch) : (e.pushStack a).Within e.outside := by
  unfold Env.pushStack
  split
  · exact Res.within_done.mpr (e.setArch_outside a)
  · split
    · exact Res.within_wait _
    · simp only
      split
      case h_1 => exact Res.within_trapAfter _ _
      case h_2 ps e1 hplaced =>
        rw [← Env.placeAll_outside hplaced, ← e1.setArch_outside a]
        exact Env.queueWrites_within

theorem Env.startCopy_within (dst : Nat) (d : CopyDesc) : (e.startCopy dst d).Within e.outside := by
  unfold Env.startCopy
  simp only
  split
  · rw [Res.within_done, Env.setS64_outside, Env.hold_outside]
  · split
    · split
      · exact Res.within_wait _
      · exact Res.within_waitHead
    · split
      · split
        · exact Res.within_wait _
        · exact Res.within_waitHead
      · rw [Res.within_done, Env.setS64_outside]
        exact Env.setS_outside rfl

theorem Env.setCore_outside (c : Nat) (x : Core) : (e.setS (e.s.setCore c x)).outside = e.outside := Env.setS_outside rfl

/-- A write of a matrix engine goes on with the outside as it was. -/
theorem Env.mxWrite_within {o : GroupRef × BlockRef × Table Byte × Outside} {reads writes : List Nat} {k : Core → Core}
    {after : Env → Res} (hafter : ∀ f : Env, f.outside = e.outside → (after f).Within o) :
    (e.mxWrite reads writes k after).Within o := by
  unfold Env.mxWrite
  split
  · exact Res.within_wait _
  · exact hafter _ (((e.mxSave writes).setCore_outside ..).trans (e.mxSave_outside writes))

/-- A matrix engine's read goes on with the outside as it was. -/
theorem Env.mxLoad_within {bm : Bool} {cs ss : List (Nat × Nat)} {k : Env → List Byte → Res}
    (hk : ∀ (f : Env) (bytes : List Byte), f.outside = e.outside → (k f bytes).Within e.outside) :
    (e.mxLoad bm cs ss k).Within e.outside := by
  unfold Env.mxLoad
  split
  case h_1 => exact Res.within_trapAfter _ _
  case h_2 ps e1 hplaced =>
    simp only
    split
    · exact Res.within_wait _
    · split
      · rw [Res.within_done, Env.pendResult_outside, Env.readPath_outside, Env.readPath_outside, Env.placeChunks_outside hplaced]
      · refine hk _ _ ?_
        rw [Env.pendResult_outside, Env.readPath_outside, Env.readPath_outside, Env.placeChunks_outside hplaced]

theorem Env.namePath_outside (n : Nat) : (e.namePath n).2.outside = e.outside := e.readPath_outside ..

theorem fetchTranslate_walked (s : State) (v : Viewer) (owner va : Nat) :
    s.Walked (placedState (fetchTranslate s v owner va)) := by
  have h := s.translateBy_walked v owner va
  unfold fetchTranslate
  simp only
  split
  case h_1 x t ht =>
    rw [ht] at h
    split <;> exact h
  case h_2 ht => rw [ht] at h; exact h
  case h_3 ht => rw [ht] at h; exact h

theorem icinvPieces_walked (owner core a n : Nat) (s : State) (l : List Nat) :
    s.Walked (icinvPieces owner core a n s l).2 := by
  induction l generalizing s with
  | nil => exact .refl s
  | cons i is ih =>
    have h := fetchTranslate_walked s (.core core) owner (max a ((a / 65536 + i) * 65536) % 2 ^ 64)
    unfold icinvPieces
    simp only
    split
    case h_1 ht => rw [ht] at h; exact h.trans (ih _)
    case h_2 ht => rw [ht] at h; exact h.trans (ih _)

theorem State.prefetch_walked (s : State) (v : Viewer) (owner : Nat) (va : Nat → Nat) (l : List Nat) :
    s.Walked (l.foldl (fun t i => (t.translateBy v owner (va i)).2) s) := by
  induction l generalizing s with
  | nil => exact .refl s
  | cons i is ih => exact (s.translateBy_walked v owner (va i)).trans (ih _)

end

/-! ### Uniform and vector instructions -/

theorem uniformOp_keepsOutside {fn : Nat} {x : Ext} {len : Nat} {f : W64 → W64 → W64 → W64} :
    KeepsOutside (uniformOp fn x len f) :=
  issueExt_keepsOutside fun _ => Res.within_done.mpr (Env.setS64_outside ..)

theorem uaOp_keepsOutside {d a : BitVec 5} {f : W64 → W64} : KeepsOutside (uaOp d a f) :=
  issue_keepsOutside fun _ => Env.whenFull_within (Res.within_done.mpr (Env.setS64_outside ..))

theorem execSlui_keepsOutside {f : UiF} : KeepsOutside (execSlui f) :=
  issue_keepsOutside fun _ => Env.whenFull_within (Res.within_done.mpr (Env.setS64_outside ..))

theorem execSauipc_keepsOutside {f : UiF} : KeepsOutside (execSauipc f) :=
  issue_keepsOutside fun _ => Env.whenFull_within (Res.within_done.mpr (Env.setS64_outside ..))

theorem execSidx_keepsOutside {x : Ext} : KeepsOutside (execSidx x) :=
  issueExt_keepsOutside fun e => by
    simp only
    split
    · exact Res.within_trap _
    split
    · exact Res.within_trap _
    · exact Env.whenFull_within (Res.within_done.mpr (foldl_keeps Env.outside (fun _ _ => Env.setS64_outside ..) _ _))

theorem vectorOp_keepsOutside {fn : Nat} {x : Ext} {len nsrc : Nat} {aff : VVal → VVal → VVal → Option VVal}
    {f : W32 → W32 → W32 → W32} : KeepsOutside (vectorOp fn x len nsrc aff f) :=
  issueExt_keepsOutside fun _ => Res.within_done.mpr (Env.writeV_outside ..)

theorem execVcmp_keepsOutside {x : Ext} : KeepsOutside (execVcmp x) :=
  issueExt_keepsOutside fun _ => Res.within_done.mpr (Env.withPasses_outside _)

theorem execVidx_keepsOutside {x : Ext} : KeepsOutside (execVidx x) :=
  issueExt_keepsOutside fun e => by
    simp only
    split
    · exact Res.within_trap _
    split
    · exact Res.within_trap _
    · exact Env.whenFull_within (Res.within_done.mpr (foldl_keeps Env.outside (fun _ _ => Env.writeV_outside ..) _ _))

theorem execVaddc_keepsOutside {x : Ext} : KeepsOutside (execVaddc x) :=
  issueExt_keepsOutside fun _ => Res.within_done.mpr (Env.writeK_outside ..)

theorem execVmadw_keepsOutside {x : Ext} : KeepsOutside (execVmadw x) :=
  issueExt_keepsOutside fun _ => Res.within_done.mpr (Env.writePair_outside ..)

theorem execVlea_keepsOutside {x : Ext} : KeepsOutside (execVlea x) :=
  issueExt_keepsOutside fun _ => Res.within_done.mpr (Env.writePair_outside ..)

/-! ### Floating-point instructions and exchanges -/

theorem floatOp_keepsOutside {fn : Nat} {x : Ext} {len : Nat} {f : FSpec} {pb pc : Option Pos}
    {op : FMode → Nat → Nat → Nat → Nat × Exc} : KeepsOutside (floatOp fn x len f pb pc op) :=
  issueExt_keepsOutside fun _ => Env.finishV_within _ _ _

theorem scalarOp_keepsOutside {fn : Nat} {x : Ext} {len : Nat} {op : FMode → FSpec → Nat → Nat → Nat → Nat × Exc} :
    KeepsOutside (scalarOp fn x len op) := by
  unfold scalarOp
  exact floatOp_keepsOutside

theorem frndOp_keepsOutside {x : Ext} {len : Nat} : KeepsOutside (frndOp x len) := scalarOp_keepsOutside

theorem fldexpOp_keepsOutside {x : Ext} {len : Nat} : KeepsOutside (fldexpOp x len) := by
  unfold fldexpOp
  exact floatOp_keepsOutside

theorem packedOp_keepsOutside {fn : Nat} {x : Ext} {len : Nat} {op : FMode → FSpec → Nat → Nat → Nat → Nat × Exc} :
    KeepsOutside (packedOp fn x len op) :=
  issueExt_keepsOutside fun _ => Env.finishV_within _ _ _

theorem rawOp_keepsOutside {fn : Nat} {x : Ext} {op : FMode → Nat → Nat × Exc} : KeepsOutside (rawOp fn x op) :=
  issueExt_keepsOutside fun _ => Env.finishV_within _ _ _

theorem execFcvt_keepsOutside {x : Ext} : KeepsOutside (execFcvt x) := by
  unfold execFcvt
  exact floatOp_keepsOutside

theorem execFcvti_keepsOutside {x : Ext} : KeepsOutside (execFcvti x) := by
  unfold execFcvti
  exact floatOp_keepsOutside

theorem execFpack_keepsOutside {x : Ext} : KeepsOutside (execFpack x) := by
  unfold execFpack
  exact floatOp_keepsOutside

theorem execIcvtf_keepsOutside {x : Ext} : KeepsOutside (execIcvtf x) := by
  unfold execIcvtf
  exact rawOp_keepsOutside

theorem execFunpk_keepsOutside {x : Ext} : KeepsOutside (execFunpk x) := by
  unfold execFunpk
  exact rawOp_keepsOutside

theorem dotOp_keepsOutside {x : Ext} {len : Nat} : KeepsOutside (dotOp x len) :=
  issueExt_keepsOutside fun _ => Env.finishV_within _ _ _

theorem redOp_keepsOutside {fn : Nat} {x : Ext} {pick : List ((Nat × Exc) × (Nat × Exc)) → Nat → Nat × Exc} :
    KeepsOutside (redOp fn x pick) :=
  issueExt_keepsOutside fun _ => Env.finishV_within _ _ _

theorem execFcmp_keepsOutside {x : Ext} : KeepsOutside (execFcmp x) :=
  issueExt_keepsOutside fun e => by
    simp only
    split
    · exact Res.within_trap _
    · rw [Res.within_done, Env.withPasses_outside, Env.setFmode_outside, Env.writeK_outside]

theorem crossOp_keepsOutside {fn : Nat} {x : Ext} {len : Nat} {src : Nat → W32 → Nat} : KeepsOutside (crossOp fn x len src) :=
  issueExt_keepsOutside fun _ => Res.within_done.mpr (Env.writeV_outside ..)

theorem qbcstOp_keepsOutside {x : Ext} {len : Nat} : KeepsOutside (qbcstOp x len) := crossOp_keepsOutside

theorem stovOp_keepsOutside {x : Ext} {len : Nat} : KeepsOutside (stovOp x len) := crossOp_keepsOutside

theorem execGvote_keepsOutside {x : Ext} : KeepsOutside (execGvote x) :=
  issueExt_keepsOutside fun _ => Res.within_done.mpr (Env.withPasses_outside _)

theorem execGbalt_keepsOutside {x : Ext} : KeepsOutside (execGbalt x) :=
  issueExt_keepsOutside fun _ => Res.within_done.mpr ((Env.withPasses_outside _).trans (Env.setS64_outside ..))

theorem execVtos_keepsOutside {x : Ext} : KeepsOutside (execVtos x) :=
  issueExt_keepsOutside fun _ => Res.within_done.mpr (Env.setS64_outside ..)

theorem vtagOp_keepsOutside {x : Ext} {len : Nat} : KeepsOutside (vtagOp x len) :=
  issueExt_keepsOutside fun _ => Res.within_done.mpr (Env.writeV_outside ..)

theorem vgenOp_keepsOutside {x : Ext} {len : Nat} : KeepsOutside (vgenOp x len) :=
  issueExt_keepsOutside fun _ => Res.within_done.mpr (Env.writeV_outside ..)

theorem execPairWord_keepsOutside {p : PairF} : KeepsOutside (execPairWord p) :=
  issue_keepsOutside fun e => Env.whenFull_within <| by
    simp only
    split
    · exact Res.within_trap _
    · exact Res.within_trap _
    · rw [Res.within_done, Env.setFmode_outside, Env.writeV_outside, Env.writeV_outside]

/-! ### Control -/

/-- A change of the group that leaves its name. -/
theorem Env.setGroup_outside {e : Env} {g : Group} (h : g.ref = e.g.ref) : ({ e with g } : Env).outside = e.outside :=
  Env.outside_of h rfl rfl rfl

theorem execNop_keepsOutside : KeepsOutside execNop := issue_keepsOutside fun _ => Res.within_done.mpr rfl

theorem execRgn_keepsOutside : KeepsOutside execRgn := issue_keepsOutside fun _ => Res.within_done.mpr rfl

theorem execExit_keepsOutside : KeepsOutside execExit :=
  issue_keepsOutside fun e => by
    simp only
    split
    · exact Res.within_wait _
    · refine Env.popStack_within fun f hf => Res.within_done.mpr ?_
      split
      · exact hf
      · exact (Env.setGroup_outside rfl).trans hf

theorem execRet_keepsOutside : KeepsOutside execRet :=
  issue_keepsOutside fun _ => Env.whenFull_within (Env.jumpTo_within _)

theorem execYield_keepsOutside : KeepsOutside execYield :=
  issue_keepsOutside fun _ => Res.within_done.mpr (Env.setGroup_outside rfl)

theorem execSleep_keepsOutside {x : Ext} : KeepsOutside (execSleep x) :=
  issueExt_keepsOutside fun _ => Res.within_done.mpr (Env.setGroup_outside rfl)

theorem execRcv_keepsOutside : KeepsOutside execRcv :=
  issue_keepsOutside fun _ => Env.popStack_within fun _ hf => Res.within_done.mpr hf

theorem execTrap_keepsOutside {imm : BitVec 18} : KeepsOutside (execTrap imm) :=
  issue_keepsOutside fun _ => Res.within_done.mpr (Env.takeTrap_outside ..)

theorem execBra_keepsOutside {off : BitVec 25} : KeepsOutside (execBra off) :=
  issue_keepsOutside fun _ => Res.within_done.mpr (Env.setPc_outside _)

theorem execCall_keepsOutside {off : BitVec 25} : KeepsOutside (execCall off) :=
  issue_keepsOutside fun _ =>
    Env.whenFull_within (Res.within_done.mpr ((Env.setPc_outside _).trans (Env.setS64_outside ..)))

theorem execBrac_keepsOutside {f : BracF} : KeepsOutside (execBrac f) :=
  issue_keepsOutside fun e => Res.within_done.mpr <| by
    split
    · exact Env.setPc_outside _
    · rfl

theorem execCallr_keepsOutside {x : Ext} : KeepsOutside (execCallr x) :=
  issueExt_keepsOutside fun e => by
    rw [← e.setS64_outside]
    exact Env.jumpTo_within _

theorem execJmpr_keepsOutside {x : Ext} : KeepsOutside (execJmpr x) := issueExt_keepsOutside fun _ => Env.jumpTo_within _

theorem execDivb_keepsOutside {x : Ext} : KeepsOutside (execDivb x) :=
  issueExt_keepsOutside fun e => by
    simp only
    split
    · exact Res.within_trap _
    · exact Env.pushStack_within _

theorem execLoop_keepsOutside {x : Ext} : KeepsOutside (execLoop x) :=
  issueExt_keepsOutside fun e => Res.within_done.mpr <| by
    split
    · rw [Env.setPc_outside, Env.setS64_outside]
    · exact Env.setS64_outside ..

theorem execSbrc_keepsOutside {x : Ext} : KeepsOutside (execSbrc x) :=
  issueExt_keepsOutside fun e => Res.within_done.mpr <| by
    split
    · exact Env.setPc_outside _
    · rfl

theorem maskOp_keepsOutside {fn : Nat} {x : Ext} {f : W32 → W32 → W32} : KeepsOutside (maskOp fn x f) :=
  issueExt_keepsOutside fun _ => Res.within_done.mpr (Env.writeK_outside ..)

/-! ### Loads and stores -/

theorem ldOp_keepsOutside {x : Ext} {len : Nat} : KeepsOutside (ldOp x len) :=
  issueExt_keepsOutside fun e => by
    simp only
    split
    case h_1 => exact Res.within_trapAfter _ _
    case h_2 hplaced =>
      refine Res.within_unlessWait ?_
      rw [Res.within_done, Env.pendResult_outside, Env.readPath_outside, Env.placeAll_outside hplaced]

theorem stOp_keepsOutside {x : Ext} {len : Nat} : KeepsOutside (stOp x len) :=
  issueStore_keepsOutside fun e => by
    simp only
    split
    case h_1 => exact Res.within_trapAfter _ _
    case h_2 hplaced =>
      rw [← Env.placeAll_outside hplaced]
      exact Env.queueWrites_within

theorem lduOp_keepsOutside {x : Ext} {len : Nat} : KeepsOutside (lduOp x len) :=
  issueExt_keepsOutside fun e => by
    simp only
    split
    case h_1 => exact Res.within_trapAfter _ _
    case h_2 hplaced =>
      refine Res.within_unlessWait ?_
      rw [Res.within_done, Env.pendResult_outside, Env.readPath_outside, Env.placeAll_outside hplaced]

theorem stuOp_keepsOutside {x : Ext} {len : Nat} : KeepsOutside (stuOp x len) :=
  issueStore_keepsOutside fun e => by
    simp only
    split
    case h_1 => exact Res.within_trapAfter _ _
    case h_2 hplaced =>
      rw [← Env.placeAll_outside hplaced]
      exact Env.queueWrites_within

theorem execLdt_keepsOutside {x : Ext} : KeepsOutside (execLdt x) :=
  issueExt_keepsOutside fun e => by
    simp only
    split
    · exact Res.within_trap _
    split
    case h_1 => exact Res.within_trapAfter _ _
    case h_2 hplaced =>
      refine Res.within_unlessWait ?_
      rw [Res.within_done, Env.pendResult_outside, Env.readPath_outside, Env.placeAll_outside hplaced]

theorem execStt_keepsOutside {x : Ext} : KeepsOutside (execStt x) :=
  issueStore_keepsOutside fun e => by
    simp only
    split
    · exact Res.within_trap _
    split
    case h_1 => exact Res.within_trapAfter _ _
    case h_2 hplaced =>
      rw [← Env.placeAll_outside hplaced]
      exact Env.queueWrites_within

theorem execSpill_keepsOutside {x : Ext} : KeepsOutside (execSpill x) :=
  issueStore_keepsOutside fun e => by
    simp only
    split
    · exact Res.within_trap _
    split
    case h_1 => exact Res.within_trapAfter _ _
    case h_2 hplaced =>
      rw [← Env.placeAll_outside hplaced, ← Env.setArch_outside]
      exact Env.queueWrites_within

theorem execFill_keepsOutside {x : Ext} : KeepsOutside (execFill x) :=
  issueExt_keepsOutside fun e => by
    simp only
    split
    · exact Res.within_trap _
    split
    case h_1 => exact Res.within_trapAfter _ _
    case h_2 hplaced =>
      refine Res.within_unlessWait ?_
      rw [Res.within_done, Env.pendResult_outside, Env.readPath_outside, Env.placeAll_outside hplaced]

theorem execPrf_keepsOutside {x : Ext} : KeepsOutside (execPrf x) :=
  issueExt_keepsOutside fun _ => Res.within_done.mpr (Env.setS_walked (State.prefetch_walked ..))

/-! ### The system family -/

theorem Block.arm_keeps (b : Block) (gtc gid : Nat) (v : W64) :
    (b.arm gtc gid v).ref = b.ref ∧ (b.arm gtc gid v).bench = b.bench := by
  unfold Block.arm
  split <;> exact ⟨rfl, rfl⟩

theorem Env.arm_outside (e : Env) (v : W64) : ({ e with b := e.b.arm e.s.gtc e.g.ref.gid v } : Env).outside = e.outside :=
  Env.outside_of rfl (e.b.arm_keeps ..).1 (e.b.arm_keeps ..).2 rfl

theorem execSget_keepsOutside {x : Ext} : KeepsOutside (execSget x) :=
  issueExt_keepsOutside fun _ => Res.within_done.mpr (Env.setS64_outside ..)

theorem execSset_keepsOutside {x : Ext} : KeepsOutside (execSset x) :=
  issueExt_keepsOutside fun e => by
    simp only
    split
    · rw [Res.within_done, Env.note_outside, Env.setFmode_outside]
    · exact Res.within_done.mpr (e.arm_outside _)
    · exact Res.within_done.mpr rfl

theorem execTarm_keepsOutside {x : Ext} : KeepsOutside (execTarm x) :=
  issueExt_keepsOutside fun e => Res.within_done.mpr ((Env.setS64_outside ..).trans (e.arm_outside _))

theorem execTime_keepsOutside {x : Ext} : KeepsOutside (execTime x) :=
  issueExt_keepsOutside fun _ => Res.within_done.mpr (Env.setS64_outside ..)

theorem execPwrq_keepsOutside {x : Ext} : KeepsOutside (execPwrq x) :=
  issueExt_keepsOutside fun _ => Res.within_done.mpr (Env.setS64_outside ..)

/-- The pending edge of the block may go to another group, whose registers and regions it leaves. -/
theorem execRte_keepsOutside {x : Ext} : KeepsOutside (execRte x) :=
  issueExt_keepsOutside fun e => by
    simp only
    split
    · exact Res.within_trap _
    · refine Env.whenFull_within ?_
      have hedge : ({ e.setArch e.g.arch.returnFromTrap with b := { e.b with edgePend := false } } : Env).outside = e.outside :=
        Env.outside_of rfl rfl rfl rfl
      split
      · exact Res.within_done.mpr (e.setArch_outside _)
      split
      case h_1 => exact Res.within_done.mpr (e.setArch_outside _)
      case h_2 =>
        split
        · exact Res.within_done.mpr ((Env.setGroup_outside rfl).trans hedge)
        · refine Res.within_done.mpr ((Env.setS_outside (State.modGroup_outside _ fun g => ?_)).trans hedge)
          exact ⟨rfl, rfl, rfl⟩

theorem execSpawn_keepsOutside {x : Ext} : KeepsOutside (execSpawn x) :=
  issueExt_keepsOutside fun e => by
    simp only
    refine Res.within_unlessTrap ?_
    split
    case h_1 => exact Res.within_trapAfter _ _
    case h_2 hplaced =>
      refine Res.within_unlessWait (Res.within_unlessTrap ?_)
      rw [Res.within_done, Env.hold_outside, Env.pendResult_outside, Env.readPath_outside, Env.placeAll_outside hplaced]

theorem execJoin_keepsOutside {x : Ext} : KeepsOutside (execJoin x) :=
  issueExt_keepsOutside fun e => Res.within_unlessTrap (Res.within_done.mpr (e.hold_outside ..))

/-- A tile is taken from the die's stock and enters the block's record. -/
theorem Env.recTile_outside {e : Env} {b : Block} (t : Tcb) (hb : b.ref = e.b.ref) (hbench : b.bench = e.b.bench) :
    ({ e with s := e.s.setTcb e.g.ref.task t, b } : Env).outside = e.outside :=
  Env.outside_of rfl hb hbench rfl

theorem execTfetch_keepsOutside {x : Ext} : KeepsOutside (execTfetch x) :=
  issueExt_keepsOutside fun e => by
    refine Res.within_unlessWait (Res.within_unlessWait ?_)
    rw [Res.within_done, Env.pendResult_outside, Env.setArch_outside, Env.delayed_outside]
    split
    · exact Env.recTile_outside _ rfl rfl
    · rfl

theorem execIcinv_keepsOutside {x : Ext} : KeepsOutside (execIcinv x) :=
  issueExt_keepsOutside fun e => Res.within_unlessWait <| by
    refine Res.within_ite ?_ ?_
    · exact Res.within_done.mpr (Env.setGroup_outside rfl)
    · exact Res.within_done.mpr (Env.outside_of rfl rfl rfl (icinvPieces_walked ..).outside)

/-! ### Synchronisation -/

/-- An ATOM with results for the slots takes the passes of a vector register. -/
theorem Env.withPasses_holdEntries_within {e : Env} {c : Prop} [Decidable c] {n : Nat} {req : Request} {dst : List Nat}
    {scope : Option Nat} : ((if c then e.withPasses n else e).holdEntries req dst scope).Within e.outside := by
  have hsame : (if c then e.withPasses n else e).outside = e.outside := by split <;> rfl
  rw [← hsame]
  exact Env.holdEntries_within

theorem execAtom_keepsOutside {x : Ext} : KeepsOutside (execAtom x) := by
  unfold execAtom
  refine issue_keepsOutside fun e => ?_
  split
  · exact Res.within_trap _
  · refine Env.whenFull_within ?_
    simp only
    generalize hplaced : Env.placeSyncAll _ _ _ = placed
    match placed with
    | .error t => exact Res.within_trapAfter _ _
    | .ok (pas, e1) =>
      rw [← Env.placeSyncAll_outside hplaced]
      exact Env.withPasses_holdEntries_within

theorem execWaitc_keepsOutside {x : Ext} : KeepsOutside (execWaitc x) :=
  issueExt_keepsOutside fun e => Env.whenFull_within <| by
    refine Res.within_unlessTrap ?_
    simp only
    generalize hplaced : Env.placeSync _ _ _ = placed
    cases placed with
    | error t => exact Res.within_trapAfter _ _
    | ok found => rw [Res.within_done, Env.hold_outside, Env.placeSync_outside hplaced]

theorem lockOp_keepsOutside {fn : Nat} {x : Ext} {waiting : Bool} {req : Nat → Nat → Nat → Request} :
    KeepsOutside (lockOp fn x waiting req) :=
  issueExt_keepsOutside fun e => by
    simp only
    split
    case h_1 => exact Res.within_trapAfter _ _
    case h_2 hplaced => rw [Res.within_done, Env.hold_outside, Env.placeSync_outside hplaced]

theorem execFence_keepsOutside {x : Ext} : KeepsOutside (execFence x) :=
  issueExt_keepsOutside fun e => Res.within_done.mpr <| Env.setGroup_outside <| by
    split <;> split <;> split <;> rfl

theorem Env.setStall_outside (e : Env) (n : Option Nat) : ({ e with g := { e.g with stall := n } } : Env).outside = e.outside :=
  rfl

theorem execPromote_keepsOutside {x : Ext} : KeepsOutside (execPromote x) :=
  issueExt_keepsOutside fun e => by
    simp only
    split
    case h_1 => exact Res.within_trapAfter _ _
    case h_2 hplaced =>
      refine Res.within_unlessWait ?_
      refine Res.within_done.mpr ((Env.setStall_outside _ _).trans ?_)
      rw [Env.pendResult_outside, Env.readPath_outside, Env.placeAll_outside hplaced]

theorem barOp_keepsOutside {fn : Nat} {x : Ext} {most : Env → Nat} {req : Nat → Nat → Request} {scope : Nat}
    {check : Env → Option Trap} : KeepsOutside (barOp fn x most req scope check) :=
  issueExt_keepsOutside fun e => by
    simp only
    split
    · exact Res.within_trap _
    · exact Res.within_unlessTrap (Res.within_done.mpr (e.hold_outside ..))

theorem execCsini_keepsOutside {x : Ext} : KeepsOutside (execCsini x) :=
  issueExt_keepsOutside fun _ =>
    Res.within_unlessTrap <| Res.within_unlessTrap <| Res.within_unlessTrap <| Res.within_unlessTrap Env.queueWrites_within

theorem courseOp_keepsOutside {fn : Nat} {x : Ext} {i : IssueInfo} {k : Env → Nat → Nat → Nat → Res}
    (hk : ∀ o n r, Confined fun e => k e o n r) : KeepsOutside (courseOp fn x i k) :=
  issueExt_keepsOutside fun e => by
    simp only
    split
    · exact Res.within_trap _
    · exact hk _ _ _ e

theorem execCsarv_keepsOutside {x : Ext} : KeepsOutside (execCsarv x) :=
  courseOp_keepsOutside fun _ _ _ e => Res.within_done.mpr (e.hold_outside ..)

theorem execCsrel_keepsOutside {x : Ext} : KeepsOutside (execCsrel x) :=
  courseOp_keepsOutside fun _ _ _ _ => Env.holdEntries_within

theorem execCswt_keepsOutside {x : Ext} : KeepsOutside (execCswt x) :=
  courseOp_keepsOutside fun _ _ _ _ =>
    Res.within_unlessWait (Res.within_ite (Res.within_done.mpr rfl) Res.within_stall)

/-! ### Content-addressed memory and copies -/

theorem execCaput_keepsOutside {x : Ext} : KeepsOutside (execCaput x) :=
  issueExt_keepsOutside fun e => by
    split
    · exact Res.within_trap _
    · exact Res.within_unlessWait (Res.within_unlessTrap Env.holdEntries_within)

theorem execCahash_keepsOutside {x : Ext} : KeepsOutside (execCahash x) :=
  issueExt_keepsOutside fun e => by
    split
    · exact Res.within_trap _
    · refine Res.within_unlessWait (Res.within_done.mpr ?_)
      rw [Env.withPasses_outside, Env.setS64_outside]

theorem execCaget_keepsOutside {x : Ext} : KeepsOutside (execCaget x) :=
  issueExt_keepsOutside fun e => by
    refine Res.within_ite (Res.within_done.mpr (e.pendResult_outside ..)) (Res.within_unlessTrap ?_)
    have hpath := e.namePath_outside (e.srcU x.lit x.a).toNat
    generalize e.namePath _ = path at hpath ⊢
    match e.s.caFind e.b.owner (e.srcU x.lit x.a).toNat, path with
    | none, _ => exact Res.within_trap _
    | some _, (_, e1) => exact Res.within_done.mpr ((e1.pendResult_outside ..).trans hpath)

theorem execCaprb_keepsOutside {x : Ext} : KeepsOutside (execCaprb x) :=
  issueExt_keepsOutside fun e => Res.within_unlessTrap <| by
    have hpath := e.namePath_outside (e.srcU x.lit x.a).toNat
    generalize e.namePath _ = path at hpath ⊢
    rw [Res.within_done, Env.withPasses_outside, Env.setS64_outside]
    split
    · rfl
    · exact hpath

theorem countOp_keepsOutside {fn : Nat} {x : Ext} {req : W64 → Request} : KeepsOutside (countOp fn x req) :=
  issueExt_keepsOutside fun _ => Res.within_unlessTrap Env.holdEntries_within

theorem execCaswap_keepsOutside {x : Ext} : KeepsOutside (execCaswap x) :=
  issueExt_keepsOutside fun e => by
    simp only
    split
    case h_1 => exact Res.within_trapAfter _ _
    case h_2 hplaced =>
      rw [← Env.placeSync_outside hplaced]
      exact Env.holdEntries_within

theorem copyOp_keepsOutside {k : Nat} {x : Ext} : KeepsOutside (copyOp k x) :=
  issueExt_keepsOutside fun e => Res.within_unlessWait <| by
    split
    · exact Res.within_trap _
    · exact Env.startCopy_within _ _

theorem execCaout_keepsOutside {x : Ext} : KeepsOutside (execCaout x) :=
  issueExt_keepsOutside fun e => by
    refine Res.within_unlessTrap (Res.within_unlessTrap ?_)
    split
    · exact Res.within_trap _
    split
    · exact Res.within_trap _
    · exact Env.startCopy_within _ _

/-- A pending result is marked, and the group may wait for it. -/
theorem Env.markFill_outside (e : Env) (fills : List Fill) (waiting : List Nat) :
    ({ e with s := { e.s with fills }, g := { e.g with waiting } } : Env).outside = e.outside := rfl

theorem execCpyq_keepsOutside {x : Ext} : KeepsOutside (execCpyq x) :=
  issueExt_keepsOutside fun e =>
    Res.within_done.mpr ((Env.markFill_outside _ _ _).trans (e.pendResult_outside ..))

theorem execCpyx_keepsOutside {x : Ext} : KeepsOutside (execCpyx x) :=
  issueExt_keepsOutside fun e => Res.within_done.mpr (e.hold_outside ..)

/-! ### Matrix instructions -/

theorem mxOp_keepsOutside {fn : Nat} {x : Ext} {i : IssueInfo} {k : Env → Res} (hk : Confined k) :
    KeepsOutside (mxOp fn x i k) :=
  issueExt_keepsOutside hk

theorem loadSide_keepsOutside {fn : Nat} {x : Ext} {isA : Bool} : KeepsOutside (loadSide fn x isA) :=
  mxOp_keepsOutside fun e => by
    split
    · exact Res.within_trap _
    · exact Res.within_unlessTrap <| Res.within_unlessTrap <| Res.within_unlessWait <|
        Env.mxLoad_within fun _ _ hf => Env.mxWrite_within fun _ hf' => Res.within_done.mpr (hf'.trans hf)

theorem execMcbt_keepsOutside {x : Ext} : KeepsOutside (execMcbt x) :=
  mxOp_keepsOutside fun _ =>
    Res.within_unlessTrap <| Res.within_unlessWait <|
      Env.mxLoad_within fun _ _ hf => Env.mxWrite_within fun _ hf' => Res.within_done.mpr (hf'.trans hf)

theorem execMma_keepsOutside {x : Ext} : KeepsOutside (execMma x) :=
  mxOp_keepsOutside fun e => by
    split
    · exact Res.within_trap _
    · refine Res.within_unlessWait ?_
      split
      · exact Res.within_trap _
      · exact Res.within_ite (Res.within_done.mpr (e.setCore_outside ..))
          (Env.mxWrite_within fun f hf => Res.within_done.mpr ((f.setCore_outside ..).trans hf))

theorem execMzero_keepsOutside {x : Ext} : KeepsOutside (execMzero x) :=
  mxOp_keepsOutside fun _ => Env.mxWrite_within fun _ hf => Res.within_done.mpr hf

theorem execMscl_keepsOutside {x : Ext} : KeepsOutside (execMscl x) :=
  mxOp_keepsOutside fun _ => Env.mxWrite_within fun _ hf => Res.within_done.mpr hf

theorem execMrd_keepsOutside {x : Ext} : KeepsOutside (execMrd x) :=
  mxOp_keepsOutside fun e => Res.within_unlessWait <| by
    rw [Res.within_done, Env.withPasses_outside, Env.pendResult_outside]

theorem execMwr_keepsOutside {x : Ext} : KeepsOutside (execMwr x) :=
  mxOp_keepsOutside fun e =>
    Res.within_ite (Res.within_unlessWait (Res.within_done.mpr (e.withPasses_outside 8)))
      (Env.mxWrite_within fun f hf => Res.within_done.mpr ((f.withPasses_outside 8).trans hf))

theorem execMst_keepsOutside {x : Ext} : KeepsOutside (execMst x) :=
  mxOp_keepsOutside fun e => Res.within_unlessTrap <| Res.within_unlessWait <| by
    simp only
    split
    case h_1 => exact Res.within_trapAfter _ _
    case h_2 hplaced => rw [Res.within_done, Env.setCore_outside, Env.placeChunks_outside hplaced]

theorem execMcmp_keepsOutside {x : Ext} : KeepsOutside (execMcmp x) :=
  mxOp_keepsOutside fun e => by
    split
    · exact Res.within_trap _
    · exact Res.within_unlessTrap <| Res.within_unlessWait <| Res.within_unlessTrap <| Res.within_unlessTrap <|
        Env.mxWrite_within fun _ hf => Res.within_done.mpr hf

/-! ### Every instruction (R158, R307, R311) -/

/-- An event has no encoding; an instruction runs through one of the operations above. -/
theorem exec_keepsOutside {i : Instr} (h : encode i ≠ []) : KeepsOutside (exec i) := by
  cases i with simp only [funext (exec.eq_def _)]
  | loadObject | registerWrite | w0BadAccess | qwptrWrite | queueEnable | queueHalt | packetParse | packetPerform
  | nopPacket | write | launch | edge | ib | pred | loopPacket | wait | waitReevaluate | waitTimeout | signal | fetchFence
  | timestamp | checkpoint | checkpointDone | owner | parserStallResume | droneMismatch | droneRecoveryEnd | spliceDecision
  | placeBlock | reservation | reservationPreempt | dispenserRefill | blockEnd | taskRetire | blockResume | preempt | kill
  | saveComplete | powerUp | fieldPowerUp | fieldPowerDown | supplyPath | fieldTrip | fieldTripRelease | modtrip
  | pwrWatchdog | pwrUpdate | thermal | thermalRelease | strumWrite | allowRefillWrite | slewStep | throttleEdge | groupSwap
  | forcedSwap | sleepWake | registerFill | trapEntry | regionTimeoutHead | regionClose | regionCommit | storeDrain
  | taggedHoldEnd | sensorReport | cellCountDecay | cellInject | cellClear | eccCorr | poison | linkEvent | eventRecordWrite
  | pageWalk | shootdown | shootdownDone | ownerRetire | capDisable | copyPieceRead | copyPieceDrain | atomicPerform
  | monitorEvaluate | waitcTimeout | lockPerform | barrierArrival | courseUpdate | spawnPerform | joinPerform | caputPerform
  | caCountChange | caswapPerform | reclaimRelease | waitcPerform | icinvDone | fieldRampDone | pwrUpdateEnd | keyWrite
  | peerRead => exact absurd rfl h
  | slui => exact execSlui_keepsOutside
  | sauipc => exact execSauipc_keepsOutside
  | saddi | sandi | sori | sxori | sslti | ssltiu | sshli | sshri | ssrai => exact uaOp_keepsOutside
  | bra => exact execBra_keepsOutside
  | call => exact execCall_keepsOutside
  | brac => exact execBrac_keepsOutside
  | nop => exact execNop_keepsOutside
  | exit => exact execExit_keepsOutside
  | ret => exact execRet_keepsOutside
  | yield => exact execYield_keepsOutside
  | rgn => exact execRgn_keepsOutside
  | rcv => exact execRcv_keepsOutside
  | trap => exact execTrap_keepsOutside
  | ldShort | ld => exact ldOp_keepsOutside
  | stShort | st => exact stOp_keepsOutside
  | lduImm | ldu => exact lduOp_keepsOutside
  | stuImm | stu => exact stuOp_keepsOutside
  | saddBase | ssubBase | smulBase | smulhBase | smulhuBase | sdivBase | sdivuBase | sremBase | sremuBase | sandBase
  | sorBase | sxorBase | sshlBase | sshrBase | ssraBase | sminBase | smaxBase | sminuBase | smaxuBase | ssltBase | ssltuBase
  | sseqBase | spopcBase | sclzBase | sctzBase | smovBase | ssx32Base | sadd | ssub | smul | smulh | smulhu | sdiv | sdivu
  | srem | sremu | sand | sor | sxor | sshl | sshr | ssra | smin | smax | sminu | smaxu | sslt | ssltu | sseq | ssel | sbfx
  | sbfi | spopc | sclz | sctz | smov | ssx32 => exact uniformOp_keepsOutside
  | sidx => exact execSidx_keepsOutside
  | vaddBase | vsubBase | vmulBase | vmulhBase | vmulhuBase | vmadBase | vandBase | vorBase | vxorBase | vshlBase | vshrBase
  | vsraBase | vminBase | vmaxBase | vminuBase | vmaxuBase | vabsdBase | vpopcBase | vclzBase | vmovBase | vdot4Base
  | vdot8Base | vadd | vsub | vmul | vmulh | vmulhu | vmad | vand | vor | vxor | vshl | vshr | vsra | vmin | vmax | vminu
  | vmaxu | vabsd | vsel | vbfx | vbfi | vpopc | vclz | vmov | vperm | vsatp | vdot4 | vdot8 => exact vectorOp_keepsOutside
  | vmadw => exact execVmadw_keepsOutside
  | vcmp => exact execVcmp_keepsOutside
  | vidx => exact execVidx_keepsOutside
  | vaddc => exact execVaddc_keepsOutside
  | vlea => exact execVlea_keepsOutside
  | faddBase | fsubBase | fmulBase | ffmaBase | fminBase | fmaxBase | fclassBase | fdivBase | fsqrtBase | frcpBase
  | frsqBase | fexpBase | fexp2Base | flog2Base | fsinpiBase | fcospiBase | ftanhBase | fsigmBase | fgeluBase | fsiluBase
  | ferfBase | ffracBase | fadd | fsub | fmul | ffma | fmin | fmax | fclass | fdiv | fsqrt | frcp | frsq | fexp | fexp2
  | flog2 | fsinpi | fcospi | ftanh | fsigm | fgelu | fsilu | ferf | ffrac => exact scalarOp_keepsOutside
  | frndBase | frnd => exact frndOp_keepsOutside
  | fldexpBase | fldexp => exact fldexpOp_keepsOutside
  | fdot2Base | fdot2 => exact dotOp_keepsOutside
  | hadd2Base | hmul2Base | hfma2Base | hmin2Base | hmax2Base | hadd2 | hmul2 | hfma2 | hmin2 | hmax2 =>
    exact packedOp_keepsOutside
  | fcmp => exact execFcmp_keepsOutside
  | fcvt => exact execFcvt_keepsOutside
  | fcvti => exact execFcvti_keepsOutside
  | icvtf => exact execIcvtf_keepsOutside
  | fpack => exact execFpack_keepsOutside
  | funpk => exact execFunpk_keepsOutside
  | qbcstBase | qbcst => exact qbcstOp_keepsOutside
  | stovBase | stov => exact stovOp_keepsOutside
  | vtagBase | vtag => exact vtagOp_keepsOutside
  | vgenBase | vgen => exact vgenOp_keepsOutside
  | qswap | gshuf | gshfx | gshfu | gshfd => exact crossOp_keepsOutside
  | gvote => exact execGvote_keepsOutside
  | gbalt => exact execGbalt_keepsOutside
  | gred | gscan => exact redOp_keepsOutside
  | vtos => exact execVtos_keepsOutside
  | pairWord => exact execPairWord_keepsOutside
  | divb => exact execDivb_keepsOutside
  | callr => exact execCallr_keepsOutside
  | jmpr => exact execJmpr_keepsOutside
  | loop => exact execLoop_keepsOutside
  | sbrc => exact execSbrc_keepsOutside
  | kand | kor | kxor | kandn | knot | kmov => exact maskOp_keepsOutside
  | ldt => exact execLdt_keepsOutside
  | stt => exact execStt_keepsOutside
  | spill => exact execSpill_keepsOutside
  | fill => exact execFill_keepsOutside
  | prf => exact execPrf_keepsOutside
  | cpy | cpyt | cpyg | cpys | cpyr | cpyw => exact copyOp_keepsOutside
  | cpyq => exact execCpyq_keepsOutside
  | cpyx => exact execCpyx_keepsOutside
  | caput => exact execCaput_keepsOutside
  | caget => exact execCaget_keepsOutside
  | cahash => exact execCahash_keepsOutside
  | caref | carel => exact countOp_keepsOutside
  | caswap => exact execCaswap_keepsOutside
  | caout => exact execCaout_keepsOutside
  | caprb => exact execCaprb_keepsOutside
  | atom => exact execAtom_keepsOutside
  | waitc => exact execWaitc_keepsOutside
  | qlock | qunlk => exact lockOp_keepsOutside
  | fence => exact execFence_keepsOutside
  | promote => exact execPromote_keepsOutside
  | bar | lbar => exact barOp_keepsOutside
  | csini => exact execCsini_keepsOutside
  | csarv => exact execCsarv_keepsOutside
  | cswt => exact execCswt_keepsOutside
  | csrel => exact execCsrel_keepsOutside
  | mma => exact execMma_keepsOutside
  | mlda | mldb => exact loadSide_keepsOutside
  | mcbt => exact execMcbt_keepsOutside
  | mzero => exact execMzero_keepsOutside
  | mrd => exact execMrd_keepsOutside
  | mwr => exact execMwr_keepsOutside
  | mst => exact execMst_keepsOutside
  | mcmp => exact execMcmp_keepsOutside
  | mscl => exact execMscl_keepsOutside
  | tfetch => exact execTfetch_keepsOutside
  | spawn => exact execSpawn_keepsOutside
  | join => exact execJoin_keepsOutside
  | sget => exact execSget_keepsOutside
  | sset => exact execSset_keepsOutside
  | icinv => exact execIcinv_keepsOutside
  | tarm => exact execTarm_keepsOutside
  | sleep => exact execSleep_keepsOutside
  | time => exact execTime_keepsOutside
  | rte => exact execRte_keepsOutside
  | pwrq => exact execPwrq_keepsOutside

/-- Settles O56: what lies outside of the issuing group is read off `State.outside`, which every instruction keeps. -/
theorem issueIsPrivate : Obligations.IssueIsPrivate := by
  unfold Obligations.IssueIsPrivate
  intro s t i hcoded hexec
  obtain ⟨r, hcur, hout⟩ := exec_keepsOutside hcoded s t hexec
  refine ⟨congrArg Outside.mem hout, congrArg Outside.keys hout, congrArg Outside.poison hout, congrArg Outside.caLines hout,
    congrArg Outside.locks hout, congrArg Outside.monitors hout, congrArg Outside.pendings hout, congrArg Outside.queues hout,
    congrArg Outside.owners hout, congrArg Outside.gtc hout, congrFun (congrArg Outside.bench hout), fun q hq => ?_⟩
  have hother : q ≠ r := fun h => hq (h ▸ hcur)
  have hkept : t.others r q = s.others r q := congrFun (congrArg Outside.others hout) q
  simpa only [State.others, if_neg hother] using hkept

end Sys2Proof.Machine

namespace Sys2Proof.Machine

open Sys2Proof

/-! ## The uniform family: extended forms and the immediate formats (R186 to R192) -/

theorem sselVal_eq : sselVal = fun a b c => if c ≠ 0 then a else b := by
  funext a b c
  simp only [sselVal, ite_not]

/-- Each extended form of Table 10-1 with one destination runs the family's operation with the function of its row. -/
theorem exec_uniform (x : Ext) : ∀ p ∈ uniformTable x, exec p.2.1 = uniformOp p.1 x (lenExt x) p.2.2 := by
  simp only [uniformTable, ← sseqVal_eq, ← sselVal_eq, List.forall_mem_cons, List.not_mem_nil, false_implies, implies_true,
    and_true]
  and_intros <;> rfl

/-- Settles O1: every row is the uniform operation with its function (`exec_uniform`), and that operation writes D alone
(`uniformOp_completes`). -/
theorem uniformResult : Obligations.UniformResult := by
  unfold Obligations.UniformResult
  intro s g b x p hp e d hf
  exact uniformOp_completes (congrFun (exec_uniform x p hp) s) hf

/-! ### Words of one base word (R188, R189) -/

section
variable {i : IssueInfo} {s : State} {g : Group} {b : Block} {n : Instr} {srcs : List (Nat × Bool)} {dsts : List Nat}

/-- A base instruction whose registers are full, and whose body writes registers of its own group only. -/
theorem full_completes {k : Env → Res} {a : Arch} {w : List Nat} {e : Env}
    (hx : exec n s = issue i (fun e => e.whenFull srcs dsts k) s) (hf : (envOf s g b i.len).blocked srcs dsts = none)
    (hk : k (envAt i s g b) = .done e) (hs : e.s = s) (hb : e.b = b) (hg : e.g = (g.atIssue i s.gtc).wrote a w) :
    Completes n i s g b a w :=
  completes_of hx (by rw [whenFull_done (by simpa using hf), hk]) hs hb hg

/-- One that writes a uniform destination alone. -/
theorem setS64_full_completes {k : Env → Res} {d : Nat} {v : W64}
    (hx : exec n s = issue i (fun e => e.whenFull srcs dsts k) s) (hf : (envOf s g b i.len).blocked srcs dsts = none)
    (hk : k (envAt i s g b) = .done ((envAt i s g b).setS64 d v)) :
    Completes n i s g b ((envOf s g b i.len).putU (g.arch.past i.len) d v) ((envOf s g b i.len).uCodes d) :=
  full_completes hx hf hk (setS64_s _ _ _) (setS64_b _ _ _) (putU_done _ _)

end

/-- Each instruction of the UA format runs its operation with the function of its row. -/
theorem exec_ua (f : UaF) (c : UsF) : ∀ p ∈ uaTable f c, exec p.1 = uaOp p.2.2.1 p.2.1 p.2.2.2 := by
  simp only [uaTable, List.forall_mem_cons, List.not_mem_nil, false_implies, implies_true, and_true]
  and_intros <;> rfl

/-- Settles O3: the UA format, SLUI and SAUIPC write one uniform register, with what the issue sees of their source. -/
theorem immediateResult : Obligations.ImmediateResult := by
  unfold Obligations.ImmediateResult
  intro s g b f c u e a
  refine ⟨fun p hp hf => ?_, fun hf => ⟨?_, ?_⟩⟩
  · refine setS64_full_completes (i := uInfo 4) (congrFun (exec_ua f c p hp) s) hf ?_
    rw [envAt_sval]
    rfl
  · exact setS64_full_completes (i := uInfo 4) (v := upperImm u.imm) rfl hf rfl
  · exact setS64_full_completes (i := uInfo 4) (v := BitVec.ofNat 64 (b.original g.arch.pc) + upperImm u.imm) rfl hf rfl

/-! ## Shifts and divisions in exact arithmetic (R191) -/

/-- The three shifts, exactly. -/
theorem sshl_eq (a c : W64) : sshl a c = BitVec.ofNat 64 (a.toNat * 2 ^ (c.toNat % 2 ^ 8)) := by
  refine BitVec.eq_of_toNat_eq ?_
  simp [sshl, shCount, BitVec.toNat_shiftLeft, Nat.shiftLeft_eq]

theorem sshr_eq (a c : W64) : sshr a c = BitVec.ofNat 64 (a.toNat / 2 ^ (c.toNat % 2 ^ 8)) := by
  refine BitVec.eq_of_toNat_eq ?_
  have hlt : a.toNat / 2 ^ (c.toNat % 256) < 2 ^ 64 := Nat.lt_of_le_of_lt (Nat.div_le_self _ _) a.isLt
  simp only [sshr, shCount, BitVec.toNat_ushiftRight, Nat.shiftRight_eq_div_pow, BitVec.toNat_ofNat]
  exact (Nat.mod_eq_of_lt hlt).symm

theorem ssra_eq (a c : W64) : ssra a c = BitVec.ofInt 64 (a.toInt / 2 ^ min (c.toNat % 2 ^ 8) 63) := by
  unfold ssra shCount BitVec.sshiftRight
  rw [Int.shiftRight_eq_div_pow]
  norm_cast

/-- From a count of 64 on nothing is left of the value but, shifted arithmetically, its sign. -/
theorem sshl_eq_zero {a c : W64} (h : 64 ≤ c.toNat % 2 ^ 8) : sshl a c = 0 := BitVec.shiftLeft_eq_zero h

theorem sshr_eq_zero {a c : W64} (h : 64 ≤ c.toNat % 2 ^ 8) : sshr a c = 0 := BitVec.ushiftRight_eq_zero h

theorem ssra_eq_sign {a c : W64} (h : 64 ≤ c.toNat % 2 ^ 8) : ssra a c = if a.msb then BitVec.allOnes 64 else 0 := by
  have hlo := BitVec.le_toInt a
  have hhi := BitVec.toInt_lt (x := a)
  rw [ssra_eq, Nat.min_eq_right (Nat.le_of_lt h), BitVec.msb_eq_toInt]
  by_cases hneg : a.toInt < 0
  · rw [show a.toInt / 2 ^ 63 = -1 by omega, if_pos (decide_eq_true hneg)]
    rfl
  · rw [show a.toInt / 2 ^ 63 = 0 by omega, if_neg (by simpa using hneg)]
    rfl

section
variable {s : State} {g : Group} {b : Block}

/-- An instruction of the uniform family whose function gives `v`. -/
theorem uniformOp_gives {n : Instr} {fn len : Nat} {x : Ext} {val : W64 → W64 → W64 → W64} {v : W64}
    (hx : exec n = uniformOp fn x len val)
    (hv : let e := envOf s g b len; val (e.srcU x.lit x.a) (e.srcU x.lit x.b) (e.srcU x.lit x.c) = v)
    (hf : Full 16 fn x (envOf s g b len)) :
    let e := envOf s g b len
    Completes n { len } s g b (e.putU (g.arch.past len) (x.d.toNat - 128) v) (e.uCodes (x.d.toNat - 128)) :=
  hv ▸ uniformOp_completes (congrFun hx s) hf

end

/-- Settles O47: every clause is the family's operation with one function (`uniformOp_gives`), and the shifts and divisions have
these values at any length. -/
theorem shiftAndDivision : Obligations.ShiftAndDivision := by
  unfold Obligations.ShiftAndDivision
  intro s g b y f does all
  have values (len : Nat) (x : Nat → Ext) {shl shr sra div divu rem remu : Instr}
      (hshl : exec shl = uniformOp 12 (x 12) len sshlVal) (hshr : exec shr = uniformOp 13 (x 13) len sshrVal)
      (hsra : exec sra = uniformOp 14 (x 14) len ssraVal) (hdiv : exec div = uniformOp 5 (x 5) len sdivVal)
      (hdivu : exec divu = uniformOp 6 (x 6) len sdivuVal) (hrem : exec rem = uniformOp 7 (x 7) len sremVal)
      (hremu : exec remu = uniformOp 8 (x 8) len sremuVal) : all len x shl shr sra div divu rem remu :=
    ⟨uniformOp_gives hshl (sshl_eq _ _), fun h => uniformOp_gives hshl (sshl_eq_zero h),
      uniformOp_gives hshr (sshr_eq _ _), fun h => uniformOp_gives hshr (sshr_eq_zero h),
      uniformOp_gives hsra (ssra_eq _ _), fun h => uniformOp_gives hsra (ssra_eq_sign h),
      fun h => uniformOp_gives hdiv (if_pos h), fun h => uniformOp_gives hdivu (if_pos h),
      fun h => uniformOp_gives hrem (if_pos h), fun h => uniformOp_gives hremu (if_pos h),
      fun ha hc => uniformOp_gives hdiv (congrArg₂ sdiv ha hc), fun ha hc => uniformOp_gives hrem (congrArg₂ srem ha hc),
      fun ha hc => uniformOp_gives hdiv (congrArg₂ sdiv ha hc), fun ha hc => uniformOp_gives hrem (congrArg₂ srem ha hc)⟩
  exact ⟨values _ (fun _ => y) rfl rfl rfl rfl rfl rfl rfl, values _ (.ofBase 16 · f) rfl rfl rfl rfl rfl rfl rfl⟩

end Sys2Proof.Machine

namespace Sys2Proof.Machine

open Sys2Proof

/-! ## Mask operations and branches (R46, R209 to R212, R217 to R220) -/

section
variable {i : IssueInfo} {s : State} {g : Group} {b : Block}

theorem envAt_srcM (l : Option W64) (c : BitVec 10) : (envAt i s g b).srcM l c = (envOf s g b i.len).srcM l c := by
  unfold Env.srcM
  rw [envAt_srcU]

theorem maskOp_completes {n : Instr} {fn : Nat} {x : Ext} {val : W32 → W32 → W32} (hx : exec n s = maskOp fn x val s)
    (hf : Full 20 fn x (envOf s g b (lenExt x))) :
    let e := envOf s g b (lenExt x)
    Completes n { len := lenExt x } s g b
      (e.putK x (g.arch.past (lenExt x)) (x.d.toNat - 512) fun j => (val (e.srcM x.lit x.a) (e.srcM x.lit x.b)).getLsbD j)
      [512 + (x.d.toNat - 512)] :=
  ext_completes (i := cInfo (lenExt x)) hx hf rfl rfl rfl (by rw [writeK_g]; simp only [envAt_srcM]; rfl)

end

/-- Each mask operation runs with the function of its row. -/
theorem exec_mask (x : Ext) : ∀ q ∈ maskTable x, exec q.2.1 = maskOp q.1 x q.2.2 := by
  simp only [maskTable, List.forall_mem_cons, List.not_mem_nil, false_implies, implies_true, and_true]
  and_intros <;> rfl

/-- Settles O15: every row is the mask operation with its function (`exec_mask`), and that operation writes D alone
(`maskOp_completes`). -/
theorem maskResult : Obligations.MaskResult := by
  unfold Obligations.MaskResult
  intro s g b x q hq e hf
  exact maskOp_completes (congrFun (exec_mask x q hq) s) hf

/-! ### Targets -/

section
variable {i : IssueInfo} {s : State} {g : Group} {b : Block}

/-- The program counter at the target of an offset in words, after a write of a uniform destination. -/
theorem setS_target_g (d : Nat) (v : W64) (o : Int) :
    (((envAt i s g b).setS64 d v).setPc ((envAt i s g b).target o)).g = (g.atIssue i s.gtc).wrote
      { (envOf s g b i.len).putU (g.arch.past i.len) d v with pc := (((g.arch.pc : Int) + 4 * o) % 2 ^ 64).toNat }
      ((envOf s g b i.len).uCodes d) := by
  rw [setS_setPc_g, target_at, wrap_mod]

/-- A branch of `o` words writes the program counter alone. -/
theorem target_g (o : Int) :
    ((envAt i s g b).setPc ((envAt i s g b).target o)).g = (g.atIssue i s.gtc).wrote
      { g.arch with pc := (((g.arch.pc : Int) + 4 * o) % 2 ^ 64).toNat } [] := by
  rw [setPc_g, target_at, wrap_mod]

end

/-- A word of MAJ 8 or 9: the offset over the major code. -/
theorem bra_word (off : BitVec 25) (maj : BitVec 5) :
    off ++ maj ++ 0#2 = BitVec.ofNat 32 (off.toNat * 2 ^ 7 + maj.toNat * 4) := by
  refine BitVec.eq_of_toNat_eq ?_
  have hoff := off.isLt
  have hmaj := maj.isLt
  rw [BitVec.toNat_append, BitVec.toNat_append, ← Nat.shiftLeft_add_eq_or_of_lt hmaj, BitVec.toNat_ofNat, BitVec.toNat_ofNat]
  simp only [Nat.shiftLeft_eq, Nat.zero_mod, Nat.or_zero]
  omega

theorem exec_bra (off : BitVec 25) (s : State) : exec (.bra off) s =
    issue (cInfo 4) (fun e => .done (e.setPc (e.target off.toInt))) s := rfl

theorem exec_call (off : BitVec 25) (s : State) : exec (.call off) s = issue (cInfo 4) (fun e => e.whenFull [] [129] fun e =>
    .done ((e.setS64 1 (BitVec.ofNat 64 (e.addr + 4))).setPc (e.target off.toInt))) s := rfl

/-- Settles O48: BRA sets the program counter, CALL after writing s1, whose place fused code does not move; the words are their
encodings'. -/
theorem branchAndCall : Obligations.BranchAndCall := by
  unfold Obligations.BranchAndCall
  intro s g b off e dest
  refine ⟨?_, fun hf => ?_, congrArg (fun w => [w]) (bra_word off 8#5), congrArg (fun w => [w]) (bra_word off 9#5)⟩
  · exact completes_of (i := cInfo 4) (exec_bra off s) rfl rfl rfl (target_g _)
  · exact full_completes (i := cInfo 4) (exec_call off s) hf rfl
      (setS64_s (envAt (cInfo 4) s g b) _ _) (setS64_b (envAt (cInfo 4) s g b) _ _) (setS_target_g 1 _ _)

end Sys2Proof.Machine

namespace Sys2Proof.Machine

open Sys2Proof

/-! ## Branches, jumps and loops (R46, R209 to R212, R217 to R219) -/

/-- A jump to an aligned address goes there; another takes ALIGN (R46). -/
theorem jumpTo_aligned {e : Env} {t : W64} (h : t.toNat % 4 = 0) : e.jumpTo t = .done (e.setPc t.toNat) :=
  if_neg (not_not_intro h)

theorem jumpTo_misaligned {e : Env} {t : W64} (h : t.toNat % 4 ≠ 0) : e.jumpTo t = .trap { code := 8 } := if_pos h

section
variable {i : IssueInfo} {s : State} {g : Group} {b : Block} {n : Instr}

/-- The program counter at an address, after a write of a uniform destination. -/
theorem setS_address_g (d : Nat) (v : W64) (t : Nat) :
    (((envAt i s g b).setS64 d v).setPc t).g = (g.atIssue i s.gtc).wrote
      { (envOf s g b i.len).putU (g.arch.past i.len) d v with pc := ((t : Int) % 2 ^ 64).toNat } ((envOf s g b i.len).uCodes d) :=
  setS_setPc_g i s g b d v t

theorem address_g (t : Nat) : ((envAt i s g b).setPc t).g =
    (g.atIssue i s.gtc).wrote { g.arch with pc := ((t : Int) % 2 ^ 64).toNat } [] := setPc_g i s g b t

/-- A branch of `o` words where `c` holds. -/
theorem branch_g {c : Prop} [Decidable c] (o : Int) :
    (if c then (envAt i s g b).setPc ((envAt i s g b).target o) else envAt i s g b).g = (g.atIssue i s.gtc).wrote
      (if c then { g.arch with pc := (((g.arch.pc : Int) + 4 * o) % 2 ^ 64).toNat } else g.arch.past i.len) [] := by
  split
  · exact target_g o
  · exact envAt_wrote i s g b

/-- The same after a write of a uniform destination. -/
theorem setS_branch_g {c : Prop} [Decidable c] (d : Nat) (v : W64) (o : Int) :
    (if c then ((envAt i s g b).setS64 d v).setPc ((envAt i s g b).target o) else (envAt i s g b).setS64 d v).g =
      (g.atIssue i s.gtc).wrote
        (if c then { (envOf s g b i.len).putU (g.arch.past i.len) d v with pc := (((g.arch.pc : Int) + 4 * o) % 2 ^ 64).toNat }
          else (envOf s g b i.len).putU (g.arch.past i.len) d v) ((envOf s g b i.len).uCodes d) := by
  split
  · exact setS_target_g d v o
  · exact putU_done d v

/-- What both ways of a branch leave alone. -/
theorem branch_keeps {α : Type} (f : Env → α) {c : Prop} [Decidable c] {e e' : Env} (h : f e = f e') :
    f (if c then e else e') = f e' := by
  split
  · exact h
  · rfl

/-- An instruction whose registers are full, and whose body traps. -/
theorem full_traps {srcs : List (Nat × Bool)} {dsts : List Nat} {k : Env → Res} {t : Trap}
    (hx : exec n s = issue i (fun e => e.whenFull srcs dsts k) s) (hf : (envOf s g b i.len).blocked srcs dsts = none)
    (hr : Ready i s g b) (hk : k (envAt i s g b) = .trap t) :
    exec n s = .next ((envBefore i s g b).takeTrap t g.arch.pc).close :=
  traps_of hx hr (by rw [whenFull_done (by simpa using hf), hk])

end

/-! ### The instructions as issues -/

section
variable (x : Ext) (s : State)

theorem exec_nop : exec .nop s = issue (cInfo 4) .done s := rfl

theorem exec_rgn : exec .rgn s = issue { len := 4, rgn := true } .done s := rfl

theorem exec_ret : exec .ret s = issue (cInfo 4) (fun e => e.whenFull [(129, false)] [] fun e => e.jumpTo (e.sval 1)) s := rfl

theorem exec_brac (f : BracF) : exec (.brac f) s = issue (cInfo 4) (fun e =>
    .done (if bracHolds f.cond.toNat (e.kval f.k.toNat) e.g.arch.run then e.setPc (e.target f.off.toInt) else e)) s := rfl

theorem exec_callr : exec (.callr x) s = issueExt 20 1 x (cInfo (lenExt x)) (fun e =>
    (e.setS64 (x.d.toNat - 128) (BitVec.ofNat 64 (e.addr + lenExt x))).jumpTo (e.srcU x.lit x.a)) s := rfl

theorem exec_jmpr : exec (.jmpr x) s =
    issueExt 20 2 x (cInfo (lenExt x)) (fun e => e.jumpTo (e.srcU x.lit x.a)) s := rfl

theorem exec_loop : exec (.loop x) s = issueExt 20 3 x (cInfo (lenExt x)) (fun e =>
    let n := e.sval (x.d.toNat - 128) - 1
    let e' := e.setS64 (x.d.toNat - 128) n
    .done (if n ≠ 0 then e'.setPc (e.target (offsetOf x)) else e')) s := rfl

theorem exec_sbrc : exec (.sbrc x) s = issueExt 20 4 x (cInfo (lenExt x)) (fun e =>
    .done (if condHolds (x.imm8.toNat % 8) (e.srcU x.lit x.a) (e.srcU x.lit x.b) then e.setPc (e.target (offsetOf x)) else e))
    s := rfl

end

/-! ### RGN (R306, R316) -/

/-- The region that an issue opens: its head is the next instruction. -/
def Group.newRegion (g : Group) (gtc : Nat) : Region :=
  { seq := g.nextSeq, ctx := g.arch, firstIssue := gtc, cover := ownCells g.core }

/-- The youngest region after an issue: an RGN that has opened it, or at which it restarts, does not count as its first. -/
def Region.issued (r : Region) (i : IssueInfo) (opened : Bool) (cycle gtc : Nat) : Region :=
  { r with
    started := r.started || !(i.rgn && (opened || r.waitFirst)), lastPass := cycle,
    firstIssue := if r.waitFirst then gtc else r.firstIssue, waitFirst := false, stalled := false }

theorem issued_regions (e : Env) (i : IssueInfo) (o h : Bool) : (e.issued i o h).g.regions =
    modLast (·.issued i o (e.s.effCycles (benchOfCore e.g.core) + e.passes) e.s.gtc) e.g.regions := rfl

theorem modLast_concat {α : Type} (f : α → α) (l : List α) (x : α) : modLast f (l ++ [x]) = l ++ [f x] := by
  induction l with
  | nil => rfl
  | cons y l ih =>
    cases l with
    | nil => rfl
    | cons z l => exact congrArg (y :: ·) ih

theorem atIssue_regions (g : Group) (i : IssueInfo) (gtc : Nat) : (g.atIssue i gtc).regions =
    if g.opensFor i then modLast (·.headNow gtc) g.regions ++ [g.newRegion gtc] else g.regions := by
  unfold Group.atIssue
  cases g.opensFor i <;> rfl

/-- An RGN opens a region but where the youngest has issued nothing. -/
theorem opensFor_rgn (g : Group) {i : IssueInfo} (hi : i.rgn = true) : g.opensFor i = true ↔
    ∀ y, g.regions.getLast? = some y → y.started = true := by
  unfold Group.opensFor Group.opens Group.started
  cases h : g.regions.getLast? with
  | none => simp [List.getLast?_eq_none_iff.mp h]
  | some y =>
    have hne : g.regions ≠ [] := fun e => by simp [e] at h
    cases hy : y.started <;> simp [hne, hi, hy]

/-- What is written back of an environment is its group. -/
theorem close_group? {e : Env} (h : (e.s.group? e.g.ref).isSome = true) : e.close.group? e.g.ref = some e.g :=
  State.group?_setGroup_same e.s e.g h

theorem headNow_headAt (r : Region) (gtc : Nat) : (r.headNow gtc).headAt = some (r.headAt.getD gtc) := by
  unfold Region.headNow
  cases h : r.headAt <;> simp [h]

theorem headNow_keeps (r : Region) (gtc : Nat) :
    (r.headNow gtc).seq = r.seq ∧ (r.headNow gtc).ctx = r.ctx ∧ (r.headNow gtc).cover = r.cover := by
  unfold Region.headNow
  split <;> exact ⟨rfl, rfl, rfl⟩

/-- The regions that an instruction leaves which does nothing but to issue. -/
theorem idle_regions {n : Instr} {i : IssueInfo} {s : State} {g : Group} {b : Block} (hx : exec n s = issue i .done s)
    (hr : Ready i s g b) (hroom : Room s g ((g.atIssue i s.gtc).wrote (g.arch.past i.len) [])) :
    ∃ t g' cycle, exec n s = .next t ∧ t.group? g.ref = some g' ∧
      g'.regions = modLast (·.issued i (g.opensFor i) cycle s.gtc) (g.atIssue i s.gtc).regions := by
  let e := (envAt i s g b).issued i (g.opensFor i) g.arch.handler
  have href : e.g.ref = g.ref := envAt_ref i s g b
  have hclose : e.close.group? e.g.ref = some e.g :=
    close_group? (by rw [href]; exact Option.isSome_iff_exists.mpr ⟨g, (ready_ref hr).1⟩)
  rw [← envAt_wrote i s g b] at hroom
  exact ⟨e.close, e.g, _, ends_of hx rfl hr hroom, href ▸ hclose, rfl⟩

/-- At an RGN that opens a region: the new one restarts at it, and the one before it has its next head. -/
theorem opened_regions {g : Group} {i : IssueInfo} {gtc cycle : Nat} (h : g.opensFor i = true) :
    modLast (·.issued i (g.opensFor i) cycle gtc) (g.atIssue i gtc).regions =
      modLast (·.headNow gtc) g.regions ++ [(g.newRegion gtc).issued i true cycle gtc] := by
  rw [atIssue_regions, h, if_pos rfl, modLast_concat]

/-- The region before one that opens stands before it, with its next head issued. -/
theorem before_opened {l : List Region} {y z : Region} {gtc : Nat} (hy : l.getLast? = some y) :
    (modLast (·.headNow gtc) l ++ [z])[l.length - 1]? = some (y.headNow gtc) := by
  have hlast : (modLast (·.headNow gtc) l)[l.length - 1]? = some (y.headNow gtc) := by
    rw [← modLast_length (·.headNow gtc) l, ← List.getLast?_eq_getElem?, modLast_getLast, hy, Option.map_some]
  exact (List.getElem?_append_left (List.getElem?_eq_some_iff.mp hlast).1).trans hlast

/-- Settles O16: jumps and branches set the program counter after what they write (`setS_address_g`, `setS_branch_g`), a jump to a
misaligned address traps (`jumpTo_misaligned`), and RGN leaves the regions of `idle_regions`. -/
theorem branchResult : Obligations.BranchResult := by
  unfold Obligations.BranchResult
  intro s g b x f a e4 e p goto far d i4 i irgn opens aligned
  refine ⟨?_, ?_, fun hr hroom => ?_, fun hf hal => ?_, ?_, fun hf hal => ?_, fun hf hal => ?_, fun hf hr hmis => ?_,
    fun hf hr hmis => ?_, fun hf hr hmis => ?_, fun hf => ?_, fun hf => ?_⟩
  · exact completes_of (i := i4) (exec_nop s) rfl rfl rfl (envAt_wrote i4 s g b)
  · exact completes_of (i := irgn) (exec_rgn s) rfl rfl rfl (envAt_wrote irgn s g b)
  · obtain ⟨t, g', cycle, hexec, hgroup, hregions⟩ := idle_regions (exec_rgn s) hr hroom
    refine ⟨t, g', hexec, hgroup, fun hopens => ?_, fun hnot => ?_⟩
    · rw [hregions, opened_regions ((opensFor_rgn g rfl).mpr hopens)]
      refine ⟨by simp, ⟨_, List.getLast?_concat .., rfl, rfl, rfl, rfl, rfl, rfl⟩, fun y hy => ?_⟩
      obtain ⟨hseq, hctx, hcover⟩ := headNow_keeps y s.gtc
      exact ⟨_, before_opened hy, hseq, hctx, hcover, headNow_headAt y _⟩
    · rw [hregions, atIssue_regions, if_neg ((opensFor_rgn g rfl).not.mpr hnot), modLast_length]
      refine ⟨rfl, fun y hy => ?_⟩
      rw [modLast_getLast, hy]
      exact ⟨_, rfl, rfl, rfl, rfl⟩
  · refine full_completes (i := i4) (exec_ret s) hf ?_ rfl rfl (address_g _)
    rw [envAt_sval]
    exact jumpTo_aligned hal
  · refine completes_of (i := i4) (exec_brac s f) rfl (branch_keeps Env.s rfl) (branch_keeps Env.b rfl) ?_
    simp only [envAt_kval, envAt_arch]
    exact branch_g _
  · refine ext_completes (i := i) (exec_callr x s) hf ?_
      ((setPc_s _ _).trans (setS64_s (envAt i s g b) d _)) ((setPc_b _ _).trans (setS64_b (envAt i s g b) d _))
      (setS_address_g d _ _)
    rw [envAt_srcU]
    exact jumpTo_aligned hal
  · refine ext_completes (i := i) (exec_jmpr x s) hf ?_ rfl rfl (address_g _)
    rw [envAt_srcU]
    exact jumpTo_aligned hal
  · refine full_traps (exec_ret s) hf hr ?_
    rw [envAt_sval]
    exact jumpTo_misaligned hmis
  · refine traps_ext (exec_callr x s) hf hr ?_
    rw [envAt_srcU]
    exact jumpTo_misaligned hmis
  · refine traps_ext (exec_jmpr x s) hf hr ?_
    rw [envAt_srcU]
    exact jumpTo_misaligned hmis
  · refine ext_completes (i := i) (exec_loop x s) hf rfl ?_ ?_ ?_
    · exact (branch_keeps Env.s (setPc_s _ _)).trans (setS64_s _ _ _)
    · exact (branch_keeps Env.b (setPc_b _ _)).trans (setS64_b _ _ _)
    · simp only [envAt_sval]
      exact setS_branch_g d _ _
  · refine ext_completes (i := i) (exec_sbrc x s) hf rfl (branch_keeps Env.s rfl) (branch_keeps Env.b rfl) ?_
    simp only [envAt_srcU]
    exact branch_g _

end Sys2Proof.Machine

namespace Sys2Proof.Machine

open Sys2Proof

/-! ## Several destinations (R193, R200, R203, R207, R208)

A destination that is written after others is where it would be alone, and its slots that take no part keep what they held. -/

section
variable (i : IssueInfo) (s : State) (g : Group) (b : Block)

/-- R119: neither the counts nor the shape entry depend on the program counter. -/
theorem envAt_limitsAt : limitsAt b (envAt i s g b).g.arch = limitsAt b g.arch := by
  rw [envAt_arch]
  rfl

theorem envAt_shapeIndex (n : Nat) : (envAt i s g b).shapeIndex n = (envOf s g b i.len).shapeIndex n := by
  unfold Env.shapeIndex
  rw [envAt_arch]
  rfl

end

theorem setS64_agrees (e : Env) (n : Nat) (v : W64) : Agrees (e.setS64 n v) e := by
  unfold Env.setS64
  split
  · exact ⟨rfl, rfl, rfl, rfl, rfl, rfl, rfl⟩
  · exact ⟨rfl, Arch.setS_run _ _ _, Arch.setS_k _ _ _, Arch.setS_vwb _ _ _, Arch.setS_swb _ _ _, rfl, rfl⟩

theorem writeV_s (e : Env) (x : Ext) (n : Nat) (r : VVal) : (e.writeV x n r).s = e.s := rfl
theorem writeV_b (e : Env) (x : Ext) (n : Nat) (r : VVal) : (e.writeV x n r).b = e.b := rfl

section
variable {e e' : Env} {h : Group} {a : Arch} {w : List Nat}

/-- A uniform destination written after others. -/
theorem setS64_next (he : e.g = h.wrote a w) (ag : Agrees e e') (n : Nat) (v : W64) :
    (e.setS64 n v).g = h.wrote (e'.putU a n v) (w ++ e'.uCodes n) := by
  unfold Env.setS64 Env.putU Env.uCodes
  by_cases hn : n = 0
  · simp only [if_pos hn, List.append_nil, he]
  · rw [if_neg hn, if_neg hn, if_neg hn, ← ag.sIdx, ← wrote_note h a]
    simp only [Env.note, Env.modRegion, Env.setArch, he]
    rfl

/-- Consecutive uniform destinations, each with its value and its offset. -/
theorem setS64_foldl_g (d : Nat) (cs : List (Nat × Nat)) (he : e.g = h.wrote a w) (ag : Agrees e e') :
    (cs.foldl (fun e c => e.setS64 (d + c.2) (BitVec.ofNat 64 c.1)) e).g =
      h.wrote (cs.foldl (fun q c => e'.putU q (d + c.2) (BitVec.ofNat 64 c.1)) a)
        (w ++ cs.flatMap fun c => e'.uCodes (d + c.2)) := by
  induction cs generalizing e a w with
  | nil => simpa using he
  | cons c cs ih =>
    rw [List.foldl_cons, List.foldl_cons, List.flatMap_cons, ← List.append_assoc]
    exact ih (setS64_next he ag _ _) ((setS64_agrees e _ _).trans ag)

/-- Vector destinations in places of their own. -/
theorem writeV_foldl_g (x : Ext) (d : Nat) (r : Nat → VVal) (js : List Nat) (he : e.g = h.wrote a w) (ag : Agrees e e')
    (hold : ∀ j ∈ js, e.vOld (d + j) = e'.vOld (d + j)) (hapart : (js.map fun j => e'.vIdx (d + j)).Nodup) :
    (js.foldl (fun e j => e.writeV x (d + j) (r j)) e).g =
      h.wrote (js.foldl (fun q j => e'.putV x q (d + j) (r j)) a) (w ++ js.map fun j => e'.vIdx (d + j)) := by
  induction js generalizing e a w with
  | nil => simpa using he
  | cons j js ih =>
    obtain ⟨hfirst, hrest⟩ := List.nodup_cons.mp hapart
    have hkeeps : ∀ k ∈ js, (e.writeV x (d + j) (r j)).vOld (d + k) = e'.vOld (d + k) := fun k hk => by
      rw [writeV_vOld_other, hold k (List.mem_cons_of_mem j hk)]
      rw [ag.vIdx, ag.vIdx]
      exact fun heq => hfirst (List.mem_map.mpr ⟨k, hk, heq.symm⟩)
    rw [List.foldl_cons, List.foldl_cons, List.map_cons, List.append_cons]
    exact ih (writeV_next he ag x _ _ (hold j List.mem_cons_self)) ((writeV_agrees e x _ _).trans ag) hkeeps hrest

end

/-! ### SIDX (R193) -/

theorem exec_sidx (x : Ext) (s : State) : exec (.sidx x) s = execSidx x s := rfl

/-- Settles O7: the checks that SIDX makes are the statement's hypotheses, and its writes are those of `setS64_foldl_g`. -/
theorem sidxResult : Obligations.SidxResult := by
  unfold Obligations.SidxResult
  intro s g b x e d en cs hf hdim hallow hcross hfull
  have hfits : (!(limitsAt b g.arch).allows en.ndim (128 + d) || (d < 376 && 376 < d + en.ndim)) = false := by
    have : ¬(d < 376 ∧ 376 < d + en.ndim) := by omega
    simpa [hallow] using this
  refine ext_completes (i := uInfo (lenExt x)) (exec_sidx x s) hf (?_ : _ = Res.done
    (cs.zipIdx.foldl (fun e c => e.setS64 (d + c.2) (BitVec.ofNat 64 c.1)) (envAt (uInfo (lenExt x)) s g b))) ?_ ?_ ?_
  · simp only [envAt_b, envAt_limitsAt, envAt_shapeIndex]
    refine (if_neg hdim).trans ((if_neg (Bool.eq_false_iff.mp hfits)).trans ((whenFull_done ?_).trans ?_))
    · exact (envAt_blocked ..).trans hfull
    · rw [envAt_srcU]
      rfl
  · exact foldl_keeps Env.s (fun e c => setS64_s e _ _) _ _
  · exact foldl_keeps Env.b (fun e c => setS64_b e _ _) _ _
  · exact setS64_foldl_g d _ (envAt_wrote (uInfo (lenExt x)) s g b) (envAt_agrees _ s g b)

/-! ### The vector instructions with a mask or a second register (R200, R203, R207, R208) -/

section
variable {s : State} {g : Group} {b : Block} {n : Instr} {maj fn : Nat} {x : Ext} {i : IssueInfo} {k : Env → Res} {lo hi : VVal}

/-- Two results in a pair of registers that stand apart. -/
theorem writePair_completes (hx : exec n s = issueExt maj fn x i k s) (hf : Full maj fn x (envOf s g b i.len))
    (hapart : (envOf s g b i.len).vIdx x.d.toNat ≠ (envOf s g b i.len).vIdx (x.d.toNat + 1))
    (hk : k (envAt i s g b) = .done ((envAt i s g b).writePair x lo hi)) :
    let e := envOf s g b i.len
    Completes n i s g b (e.putV x (e.putV x (g.arch.past i.len) x.d.toNat lo) (x.d.toNat + 1) hi)
      [e.vIdx x.d.toNat, e.vIdx (x.d.toNat + 1)] := by
  refine ext_completes hx hf hk rfl rfl (writeV_next (writeV_g x _ lo) ((writeV_agrees _ _ _ _).trans (envAt_agrees i s g b))
    x _ hi ?_)
  rw [writeV_vOld_other (by simpa using hapart), envAt_vOld]

end

section
variable (x : Ext) (s : State)

theorem exec_vcmp : exec (.vcmp x) s = execVcmp x s := rfl
theorem exec_vaddc : exec (.vaddc x) s = execVaddc x s := rfl
theorem exec_vmadw : exec (.vmadw x) s = execVmadw x s := rfl
theorem exec_vlea : exec (.vlea x) s = execVlea x s := rfl
theorem exec_vidx : exec (.vidx x) s = execVidx x s := rfl

end

/-- Settles O6: each instruction's results are those of the environment at its issue, and go to destinations that stand apart
(`writePair_completes`, `writeV_foldl_g`). -/
theorem vectorWideResult : Obligations.VectorWideResult := by
  unfold Obligations.VectorWideResult
  intro s g b x e p i d va vb a64 c64 en
  refine ⟨fun hf => ?_, fun hf => ?_, fun hf hapart => ?_, fun hf hapart => ?_, fun hf hdim hcount hfull hapart => ?_⟩
  · refine ext_completes (i := i) (exec_vcmp x s) hf rfl rfl rfl ?_
    simp only [envAt_src32]
    exact writeK_g x _ _
  · refine ext_completes (i := i) (exec_vaddc x s) hf rfl rfl rfl ?_
    simp only [envAt_src32, envAt_kval]
    exact writeK_next (writeV_g x _ _) ((writeV_agrees _ _ _ _).trans (envAt_agrees i s g b)) x _ _
  · refine writePair_completes (i := i) (exec_vmadw x s) hf hapart ?_
    simp only [envAt_src32, envAt_src64]
    rfl
  · refine writePair_completes (i := i) (exec_vlea x s) hf hapart ?_
    simp only [envAt_src32, envAt_src64]
    rfl
  · refine ext_completes (i := i) (exec_vidx x s) hf (?_ : _ = Res.done
      ((List.range en.ndim).foldl (fun e j => e.writeV x (d + j) (shaped [va] none fun k =>
        BitVec.ofNat 32 ((splitIndex en.dims en.ndim (va.slot k).toNat).getD j 0))) (envAt i s g b))) ?_ ?_ ?_
    · simp only [envAt_b, envAt_limitsAt, envAt_shapeIndex]
      refine (if_neg hdim).trans ((if_neg (Nat.not_lt.mpr hcount)).trans ((whenFull_done ?_).trans ?_))
      · exact (envAt_blocked ..).trans hfull
      · rw [envAt_src32]
    · exact foldl_keeps Env.s (fun e j => writeV_s e x (d + j) _) _ _
    · exact foldl_keeps Env.b (fun e j => writeV_b e x (d + j) _) _ _
    · exact writeV_foldl_g x d _ _ (envAt_wrote i s g b) (envAt_agrees i s g b) (fun j _ => envAt_vOld i s g b (d + j))
        (by simpa only [codes, List.map_map, Function.comp_def] using hapart)

end Sys2Proof.Machine

namespace Sys2Proof.Machine

open Sys2Proof

/-! ## The divergence stack (R213 to R216, R429) -/

/-! ### Entries pushed (R213, R214) -/

/-- How many entries are in the slot once `k` more have been pushed: all but the newest 32. -/
def Arch.spilledWith (a : Arch) (k : Nat) : Nat := max a.spilled (a.stack.length + k - 32)

/-- The slot has room above SPILLMARK for what `k` more entries move to it. -/
def Arch.Fits (a : Arch) (spillSz k : Nat) : Prop :=
  ∀ n, a.spilled ≤ n → n < a.spilledWith k → 16 * (n + 1) + a.spillMark ≤ spillSz

def Arch.pushed (a : Arch) (ds : List DivEntry) : Arch :=
  { a with stack := ds ++ a.stack, spilled := a.spilledWith ds.length }

section
variable {a : Arch} {sz : Nat} {d d' : DivEntry}

theorem Arch.push_of_fits (hlen : a.stack.length ≤ 32 + a.spilled) (h : a.Fits sz 1) : a.push sz d = some (a.pushed [d]) := by
  unfold Arch.push Arch.pushed Arch.spilledWith
  by_cases hfull : 32 ≤ a.stack.length - a.spilled
  · have hroom := h a.spilled (Nat.le_refl _) (by unfold Arch.spilledWith; omega)
    rw [if_pos hfull, if_neg (Nat.not_lt.mpr hroom)]
    simp only [List.singleton_append, List.length_singleton]
    congr 2
    omega
  · rw [if_neg hfull]
    simp only [List.singleton_append, List.length_singleton]
    rw [max_eq_left (by omega)]

theorem Arch.push_of_not_fits (hlen : a.stack.length ≤ 32 + a.spilled) (h : ¬a.Fits sz 1) : a.push sz d = none := by
  unfold Arch.Fits Arch.spilledWith at h
  push Not at h
  obtain ⟨n, hlow, hhigh, hroom⟩ := h
  unfold Arch.push
  rw [if_pos (by omega), if_pos (by omega)]

/-- At most 32 entries are on chip after a push. -/
theorem Arch.pushed_length (a : Arch) (ds : List DivEntry) :
    (a.pushed ds).stack.length ≤ 32 + (a.pushed ds).spilled := by
  simp only [Arch.pushed, Arch.spilledWith, List.length_append]
  omega

theorem Arch.pushed_pushed : (a.pushed [d]).pushed [d'] = a.pushed [d', d] := by
  simp only [Arch.pushed, Arch.spilledWith, List.length_cons, List.length_nil, List.cons_append, List.nil_append]
  congr 1
  omega

/-- Two entries fit where the first does and then the second. -/
theorem Arch.fits_two : a.Fits sz 2 ↔ a.Fits sz 1 ∧ (a.pushed [d]).Fits sz 1 := by
  simp only [Arch.Fits, Arch.pushed, Arch.spilledWith, List.length_append, List.length_cons, List.length_nil]
  refine ⟨fun h => ⟨fun n hlow hhigh => h n hlow (by omega), fun n hlow hhigh => h n (by omega) (by omega)⟩,
    fun ⟨h1, h2⟩ n hlow hhigh => ?_⟩
  by_cases hn : n < max a.spilled (a.stack.length + 1 - 32)
  · exact h1 n hlow (by omega)
  · exact h2 n (by omega) (by omega)

end

/-! ### DIVB (R214) -/

/-- The threads of `$run` that fall through a DIVB under the mask `m`; those that branch are `m &&& a.run`. -/
def Arch.falls (a : Arch) (m : W32) : W32 := a.run &&& ~~~(m &&& a.run)

/-- The entries that it pushes: PENDING where the threads part. -/
def Arch.divbEntries (a : Arch) (m : W32) (target : Nat) : List DivEntry :=
  if m &&& a.run ≠ 0 ∧ a.falls m ≠ 0 then [.pending (m &&& a.run) target, .join a.run none] else [.join a.run none]

def Arch.diverged (a : Arch) (m : W32) (target : Nat) : Arch :=
  { a.pushed (a.divbEntries m target) with
    run := if m &&& a.run ≠ 0 ∧ a.falls m ≠ 0 then a.falls m else a.run, pc := if a.falls m = 0 then target else a.pc }

section
variable {a : Arch} {sz : Nat} {m : W32} {target : Nat}

theorem Arch.divb_of_fits (hlen : a.stack.length ≤ 32 + a.spilled) (h : a.Fits sz (a.divbEntries m target).length) :
    a.divb sz m target = some (a.diverged m target) := by
  unfold Arch.divb Arch.diverged
  unfold Arch.divbEntries at h ⊢
  have hpushed := a.pushed_length [.join a.run none]
  by_cases hparts : m &&& a.run ≠ 0 ∧ a.falls m ≠ 0
  · rw [if_pos hparts] at h
    obtain ⟨hjoin, hpending⟩ := Arch.fits_two.mp h
    rw [Arch.push_of_fits hlen hjoin]
    simp only [if_pos hparts, if_neg hparts.2]
    rw [if_pos (by simpa [Arch.falls] using hparts), Arch.push_of_fits hpushed hpending, Arch.pushed_pushed]
    rfl
  · rw [if_neg hparts] at h
    rw [Arch.push_of_fits hlen h]
    simp only [if_neg hparts]
    rw [if_neg (by simpa [Arch.falls] using hparts)]
    by_cases hfalls : a.falls m = 0
    · rw [if_pos hfalls]
      exact if_pos hfalls
    · rw [if_neg hfalls]
      exact if_neg hfalls

theorem Arch.divb_of_not_fits (hlen : a.stack.length ≤ 32 + a.spilled) (h : ¬a.Fits sz (a.divbEntries m target).length) :
    a.divb sz m target = none := by
  unfold Arch.divb
  unfold Arch.divbEntries at h
  have hpushed := a.pushed_length [.join a.run none]
  by_cases hjoin : a.Fits sz 1
  · rw [Arch.push_of_fits hlen hjoin]
    by_cases hparts : m &&& a.run ≠ 0 ∧ a.falls m ≠ 0
    · rw [if_pos hparts] at h
      have hpending : ¬(a.pushed [.join a.run none]).Fits sz 1 := fun hp => h (Arch.fits_two.mpr ⟨hjoin, hp⟩)
      simp only
      rw [if_pos (by simpa [Arch.falls] using hparts), Arch.push_of_not_fits hpushed hpending]
      rfl
    · rw [if_neg hparts] at h
      exact absurd hjoin h
  · rw [Arch.push_of_not_fits hlen hjoin]

end

section
variable {e e1 : Env} {a : Arch} {ps : List (Option Nat)}

/-- R311: a store that finds room in the queue. -/
theorem queueWrites_of_room {bm : Bool} {ws : List (Nat × Byte)} (h : e.queueRoom bm ws) :
    e.queueWrites bm ws .done = .done (e.queued bm ws) := if_neg (Nat.not_lt.mpr h)

/-- The bytes of a spilled entry at its place. -/
def Arch.spilledBytes (a : Arch) (p : Option Nat × Nat) : List (Nat × Byte) :=
  match a.stack.reverse[p.2]? with
  | some d => d.bytes.zipIdx.map fun b => (p.1.getD 0 + b.2, b.1)
  | none => []

theorem pushStack_onChip (h : a.spilled ≤ e.g.arch.spilled) : e.pushStack a = .done (e.setArch a) := if_pos h

theorem pushStack_spills {n : Nat} (hn : e.g.arch.spilled = n) (h : n < a.spilled) (hfree : e.g.memHeld e.s = false)
    (hplaces : e.placeAll true false 16 ((codes n (a.spilled - n)).map e.divAccess) = .ok (ps, e1))
    (hroom : (e1.setArch a).queueRoom false ((ps.zip (codes n (a.spilled - n))).flatMap a.spilledBytes)) :
    e.pushStack a = .done ((e1.setArch a).queued false ((ps.zip (codes n (a.spilled - n))).flatMap a.spilledBytes)) := by
  subst hn
  unfold Env.pushStack
  rw [if_neg (Nat.not_le.mpr h), if_neg (Bool.eq_false_iff.mp hfree)]
  simp only [hplaces]
  exact queueWrites_of_room hroom

/-! ### Entries popped (R215, R216) -/

theorem popStack_onChip {k : Env → Res} (h : e.g.arch.spilled ≤ a.spilled) : e.popStack a k = k (e.setArch a) := if_pos h

theorem popStack_fills {k : Env → Res} {n : Nat} (hn : e.g.arch.spilled = n) (h : a.spilled < n)
    (hfree : e.g.memHeld e.s = false) (hread : e.readHeld = false)
    (hplaces : e.placeAll false false 16 ((codes a.spilled (n - a.spilled)).map e.divAccess) = .ok (ps, e1))
    (hbehind : e1.behindAtom false ps 16 = false) : e.popStack a k = k ((e1.readPath false ps 16).2.setArch a) := by
  subst hn
  unfold Env.popStack
  rw [if_neg (Nat.not_le.mpr h), hfree, hread]
  simp only [hplaces, hbehind]
  rfl

end

/-- The entries from the first that still has a thread. -/
def liveEntries (l : List DivEntry) : List DivEntry := l.dropWhile fun d => d.mask = 0

theorem liveEntries_head {l rest : List DivEntry} {d : DivEntry} (h : liveEntries l = d :: rest) : d.mask ≠ 0 := by
  have hhead := List.head?_dropWhile_not (fun d : DivEntry => decide (d.mask = 0)) l
  unfold liveEntries at h
  rw [h] at hhead
  exact of_decide_eq_false hhead

theorem liveEntries_cons_dead {l : List DivEntry} {d : DivEntry} (h : d.mask = 0) : liveEntries (d :: l) = liveEntries l :=
  List.dropWhile_cons_of_pos (decide_eq_true h)

theorem liveEntries_cons_live {l : List DivEntry} {d : DivEntry} (h : d.mask ≠ 0) : liveEntries (d :: l) = d :: l :=
  List.dropWhile_cons_of_neg (by simpa using h)

section
variable (a : Arch) (addr : Nat) (l : List DivEntry)

/-- R215, R216: entries without a thread are dropped. -/
theorem Arch.rcv_live : a.rcv addr l = a.rcv addr (liveEntries l) := by
  induction l with
  | nil => rfl
  | cons d l ih =>
    by_cases hd : d.mask = 0
    · rw [liveEntries_cons_dead hd, ← ih]
      exact if_pos hd
    · rw [liveEntries_cons_live hd]

theorem Arch.exitPop_live : a.exitPop addr l = a.exitPop addr (liveEntries l) := by
  induction l with
  | nil => rfl
  | cons d l ih =>
    by_cases hd : d.mask = 0
    · rw [liveEntries_cons_dead hd, ← ih]
      exact if_pos hd
    · rw [liveEntries_cons_live hd]

end

section
variable {a : Arch} {addr : Nat} {l rest : List DivEntry} {m : W32}

theorem Arch.rcv_of_none (h : liveEntries l = []) : a.rcv addr l = { a with stack := [], spilled := 0 } := by
  rw [Arch.rcv_live, h]
  simp [Arch.rcv, Arch.popTo]

theorem Arch.rcv_of_pending {pc : Nat} (h : liveEntries l = .pending m pc :: rest) :
    a.rcv addr l = { a.popTo (setPoint addr rest) with run := m, pc } := by
  rw [Arch.rcv_live, h]
  exact if_neg (liveEntries_head h)

theorem Arch.rcv_of_join {r : Option Nat} (h : liveEntries l = .join m r :: rest) :
    a.rcv addr l = { a.popTo rest with run := m } := by
  rw [Arch.rcv_live, h]
  exact if_neg (liveEntries_head h)

theorem Arch.exitPop_of_none (h : liveEntries l = []) : a.exitPop addr l = { a.popTo [] with run := 0 } := by
  rw [Arch.exitPop_live, h]
  rfl

/-- R216: where the threads of the popped entry go on; a join that no RCV has reached, behind the EXIT. -/
def DivEntry.resume (next : Nat) : DivEntry → Nat
  | .pending _ pc => pc
  | .join _ (some r) => (r + 4) % 2 ^ 64
  | .join _ none => next

theorem Arch.exitPop_of_live {d : DivEntry} (h : liveEntries l = d :: rest) :
    a.exitPop addr l = { a.popTo rest with run := d.mask, pc := d.resume addr } := by
  rw [Arch.exitPop_live, h]
  refine (if_neg (liveEntries_head h)).trans ?_
  match d with
  | .pending m pc => rfl
  | .join m (some r) => rfl
  | .join m none => rfl

end

/-! ### The instructions -/

section
variable {i : IssueInfo} {s : State} {g : Group} {b : Block}

theorem envAt_spilled : (envAt i s g b).g.arch.spilled = g.arch.spilled := by
  rw [envAt_arch]
  rfl

/-- Registers set whole, and none listed as written (R162). -/
theorem setArch_g (a : Arch) : ((envAt i s g b).setArch a).g = (g.atIssue i s.gtc).wrote a [] := by
  simp only [Env.setArch, envAt_g, Group.wrote, List.foldl_nil, modLast_id]

/-- An entry is read back only where one is in the slot. -/
theorem stackNow_onChip (h : g.arch.spilled = 0) : (envAt i s g b).stackNow = g.arch.stack := by
  unfold Env.stackNow
  rw [envAt_arch]
  exact if_pos h

/-- The registers that DIVB leaves, none where the slot has no room, and what it does (R214). -/
def Env.divbArch (e : Env) (x : Ext) : Option Arch :=
  e.g.arch.divb e.spillSz (if x.imm8.getLsbD 0 then ~~~e.kval (x.a.toNat - 512) else e.kval (x.a.toNat - 512))
    (e.target (offsetOf x))

def Env.divb (e : Env) (x : Ext) : Res :=
  match e.divbArch x with
  | none => .trap { code := 16 }
  | some a => e.pushStack a

theorem exec_divb (x : Ext) : exec (.divb x) s = issueExt 20 0 x (cInfo (lenExt x)) (·.divb x) s := rfl

theorem divb_of_some {e : Env} {x : Ext} {a : Arch} (h : e.divbArch x = some a) : e.divb x = e.pushStack a := by
  unfold Env.divb
  rw [h]

theorem divb_of_none {e : Env} {x : Ext} (h : e.divbArch x = none) : e.divb x = .trap { code := 16 } := by
  unfold Env.divb
  rw [h]

theorem envAt_divbArch (x : Ext) :
    let k := (envOf s g b i.len).kval (x.a.toNat - 512)
    (envAt i s g b).divbArch x = (g.arch.past i.len).divb b.kernel.spillSz (if x.imm8.getLsbD 0 then ~~~k else k)
      (((g.arch.pc : Int) + 4 * offsetOf x) % 2 ^ 64).toNat := by
  unfold Env.divbArch
  rw [envAt_kval, envAt_arch]
  rfl

/-- What EXIT leaves of the registers, of the group where no thread is left, and what it does (R216, R442). -/
def Env.exitArch (e : Env) : Arch := ({ e.g.arch with stack := e.stackNow } : Arch).exit e.g.arch.pc

def Env.ended (e : Env) : Env :=
  { e with g := { e.g with
    arch := { e.g.arch with handler := false, vwb := 0, swb := 0 }, ended := true, active := false,
    regions := modLast (fun r => { r with ends := true }) e.g.regions } }

def Env.exits (e : Env) : Res :=
  if e.exitArch.run = 0 && e.exitHeld then .wait .empty
  else e.popStack e.exitArch fun f => .done (if e.exitArch.run ≠ 0 then f else f.ended)

theorem exec_exit : exec .exit s = issue (cInfo 4) Env.exits s := rfl

theorem exits_of_live {e : Env} (h : e.exitArch.run ≠ 0) : e.exits = e.popStack e.exitArch .done := by
  unfold Env.exits
  rw [decide_eq_false h, Bool.false_and]
  simp only [if_pos h]
  rfl

theorem exits_of_none {e : Env} (h : e.exitArch.run = 0) (hheld : e.exitHeld = false) :
    e.exits = e.popStack e.exitArch fun f => .done f.ended := by
  unfold Env.exits
  rw [hheld, Bool.and_false]
  simp only [if_neg (not_not_intro h)]
  rfl

/-- The entries that EXIT pops are those of the stack less the threads that end. -/
theorem envAt_exitArch : (envAt i s g b).exitArch =
    ({ g.arch.past i.len with
        stack := (envAt i s g b).stackNow.map (DivEntry.without g.arch.run),
        entryRun := g.arch.entryRun &&& ~~~g.arch.run } : Arch).exitPop (g.arch.past i.len).pc
      ((envAt i s g b).stackNow.map (DivEntry.without g.arch.run)) := by
  unfold Env.exitArch Arch.exit
  rw [envAt_arch]
  rfl

theorem exec_rcv : exec .rcv s = issue (cInfo 4) (fun e => e.popStack (e.g.arch.rcv e.addr e.stackNow) .done) s := rfl

theorem exec_trap (imm : BitVec 18) : exec (.trap imm) s = issue { len := 4, closing := true } (fun e =>
    .done (e.takeTrap { code := 31, cause0 := imm.setWidth 64 } (wrap64 (e.addr + 4)))) s := rfl

/-- An instruction that pops, on chip and with entries that come back from the slot. -/
theorem pops_of {n : Instr} {body k : Env → Res} {a : Arch} {past : Env → Env} {ps : List (Option Nat)} {e1 : Env}
    (hx : exec n s = issue i body s) (hbody : body (envAt i s g b) = (envAt i s g b).popStack a k)
    (hk : ∀ f, k f = .done (past f)) :
    let e := envAt i s g b
    let spilled := g.arch.spilled
    (spilled ≤ a.spilled → Ends n i s g b (past (e.setArch a))) ∧
    (a.spilled < spilled → e.g.memHeld s = false → e.readHeld = false →
      e.placeAll false false 16 ((codes a.spilled (spilled - a.spilled)).map e.divAccess) = .ok (ps, e1) →
      e1.behindAtom false ps 16 = false → Ends n i s g b (past ((e1.readPath false ps 16).2.setArch a))) :=
  ⟨fun h => ends_of hx (by rw [hbody, popStack_onChip (envAt_spilled.trans_le h), hk]),
    fun h hfree hread hplaces hbehind =>
      ends_of hx (by rw [hbody, popStack_fills envAt_spilled h hfree hread hplaces hbehind, hk])⟩

end

/-- Settles O17: DIVB pushes what `Arch.divb_of_fits` says, on chip (`pushStack_onChip`) or with stores to the slot
(`pushStack_spills`); RCV and EXIT pop (`pops_of`) the first entry with a thread (`Arch.rcv_live`, `Arch.exitPop_live`). -/
theorem divergenceResult : Obligations.DivergenceResult := by
  unfold Obligations.DivergenceResult
  intro s g b x imm ps e1 e k i4 e4 ix ex p run spilled taken falls target parts pushed now after fits moved ws live left pops
    under gone exits
  have hgone : liveEntries (e4.stackNow.map (DivEntry.without run)) = gone :=
    congrArg (fun f => liveEntries (e4.stackNow.map f)) (funext fun d => by cases d <;> rfl)
  have hexit {d : DivEntry} {rest : List DivEntry} (h : gone = d :: rest) :
      pops .exit (exits rest d.mask (d.resume p.pc)) id := by
    have harch : e4.exitArch = exits rest d.mask (d.resume p.pc) := by
      rw [envAt_exitArch, Arch.exitPop_of_live (hgone.trans h)]
      rfl
    rw [← harch]
    refine pops_of exec_exit (exits_of_live ?_) fun _ => rfl
    rw [harch]
    exact liveEntries_head h
  refine ⟨fun hf hlen _ hfits => ?_, fun hf hlen _ hnot hr => ?_, stackNow_onChip, fun h => ?_, fun m pc jm r rest h => ?_,
    fun m r rest h => ?_, fun m pc rest h => hexit h, fun m r rest h => hexit h, fun m rest h => hexit h, fun h hheld => ?_,
    ends_of (exec_trap imm) rfl⟩
  · have hdivb : ex.divb x = ex.pushStack after :=
      divb_of_some ((envAt_divbArch x).trans (Arch.divb_of_fits (a := g.arch.past (lenExt x)) hlen hfits))
    refine ⟨fun hnow => ?_, fun hspill hfree hplaces hroom => ?_⟩
    · exact ext_completes (i := ix) (exec_divb x) hf (hdivb.trans (pushStack_onChip (envAt_spilled.trans_ge hnow.le))) rfl rfl
        (setArch_g after)
    · have hbytes : (ps.zip moved).flatMap after.spilledBytes = ws := List.flatMap_congr fun q _ => by
        unfold Arch.spilledBytes
        match after.stack.reverse[q.2]? with
        | none => rfl
        | some (.pending _ _) => rfl
        | some (.join _ none) => rfl
        | some (.join _ (some _)) => rfl
      rw [← hbytes] at hroom ⊢
      exact ends_ext (i := ix) (exec_divb x) hf (hdivb.trans (pushStack_spills envAt_spilled hspill hfree hplaces hroom))
  · exact traps_ext (i := ix) (exec_divb x) hf hr
      (divb_of_none ((envAt_divbArch x).trans (Arch.divb_of_not_fits (a := g.arch.past (lenExt x)) hlen hnot)))
  · refine pops_of (k := .done) (past := id) exec_rcv ?_ fun _ => rfl
    rw [envAt_arch, Arch.rcv_of_none h]
  · refine pops_of (k := .done) (past := id) exec_rcv ?_ fun _ => rfl
    rw [envAt_arch, Arch.rcv_of_pending h]
    rfl
  · refine pops_of (k := .done) (past := id) exec_rcv ?_ fun _ => rfl
    rw [envAt_arch, Arch.rcv_of_join h]
    rfl
  · have harch : e4.exitArch = exits [] 0 p.pc := by
      rw [envAt_exitArch, Arch.exitPop_of_none (hgone.trans h)]
      rfl
    rw [← harch]
    exact pops_of exec_exit (exits_of_none (congrArg Arch.run harch) hheld) fun _ => rfl

end Sys2Proof.Machine

namespace Sys2Proof.Machine

open Sys2Proof

/-! ## The floating-point families: results and traps (R236, R237, R240 to R251, R256)

An instruction of these families ends in `finishV` with the slots of its row (`FinishesWith`); what that does where no enabled
exception is raised, and where one is, is said once. -/

/-! ### The slots that raise an enabled exception (R237) -/

theorem mem_slots {j : Nat} : j ∈ slots ↔ j < 32 := List.mem_range

theorem getD_slots_map {α : Type} (f : Nat → α) (d : α) {j : Nat} (hj : j < 32) : (slots.map f).getD j d = f j := by
  simp [slots, hj]

theorem maskOf_congr {f f' : Nat → Bool} (h : ∀ j < 32, f j = f' j) : maskOf f = maskOf f' :=
  BitVec.eq_of_getLsbD_eq fun j hj => by rw [getLsbD_maskOf f hj, getLsbD_maskOf f' hj, h j hj]

theorem maskOf_eq_zero_iff {f : Nat → Bool} : maskOf f = 0 ↔ ∀ j < 32, f j = false :=
  ⟨fun h j hj => by rw [← getLsbD_maskOf f hj, h]; exact BitVec.getLsbD_zero,
    fun h => (maskOf_congr h).trans (by decide : maskOf (fun _ => false) = 0)⟩

theorem allRaised_congr {counts : Nat → Bool} {ex ex' : Nat → Exc} (h : ∀ j < 32, ex j = ex' j) :
    allRaised counts ex = allRaised counts ex' :=
  List.foldl_ext _ _ _ fun _ j hj => by rw [h j (mem_slots.1 hj)]

theorem foldl_or_and_eq_zero_iff {counts : Nat → Bool} {ex : Nat → Exc} {en : Exc} (l : List Nat) (a : Exc) :
    l.foldl (fun a i => if counts i then a ||| ex i else a) a &&& en = 0 ↔
      a &&& en = 0 ∧ ∀ j ∈ l, counts j = true → ex j &&& en = 0 := by
  induction l generalizing a with
  | nil => simp
  | cons j l ih =>
    rw [List.foldl_cons, ih, List.forall_mem_cons, ← and_assoc]
    refine and_congr_left fun _ => ?_
    split_ifs with hj
    · rw [BitVec.and_or_distrib_right, forall_prop_of_true hj]
      exact BitVec.or_eq_zero_iff
    · rw [forall_prop_of_false hj, and_true]

/-- The mask that the trap frame holds is 0 where nothing traps, and only there. -/
theorem allRaised_and_eq_zero_iff {counts : Nat → Bool} {ex : Nat → Exc} {en : Exc} :
    allRaised counts ex &&& en = 0 ↔ (maskOf fun j => counts j && ex j &&& en ≠ 0) = 0 := by
  unfold allRaised
  rw [foldl_or_and_eq_zero_iff, maskOf_eq_zero_iff]
  simp [mem_slots, excNone]

/-! ### The trap frame (R237) -/

/-- The trap FP with its cause words: the slots `mask`, the exceptions `all`, the half. -/
def fpFrame (mask : W32) (all : Exc) (half : Nat) : Trap :=
  { code := 29, cause0 := mask.setWidth 64 ||| ((all.setWidth 64 : W64) <<< 32), cause1 := BitVec.ofNat 64 half }

/-- What slot `j` raises. -/
def slotExc (rs : Slots) (j : Nat) : Exc := (rs.getD j (0, excNone)).2

/-- The slots that take part and raise an enabled exception. -/
def Env.trapSlots (e : Env) (x : Ext) (rs : Slots) : W32 :=
  maskOf fun j => e.active x j && slotExc rs j &&& excEnabled e.g.arch.fmode ≠ 0

theorem fpTrap_some {fmode : W64} {counts : Nat → Bool} {ex : Nat → Exc} {all : Exc} {half : Nat}
    (h : allRaised counts ex &&& excEnabled fmode ≠ 0) :
    fpTrap fmode counts ex all half = some (fpFrame (maskOf fun j => counts j && ex j &&& excEnabled fmode ≠ 0) all half) :=
  if_neg h

/-- Only the exceptions of the 32 slots count. -/
theorem fpTrap_congr {fmode : W64} {counts : Nat → Bool} {ex ex' : Nat → Exc} {all : Exc} {half : Nat}
    (hex : ∀ j < 32, ex j = ex' j) : fpTrap fmode counts ex all half = fpTrap fmode counts ex' all half := by
  have hmask : (maskOf fun j => counts j && ex j &&& excEnabled fmode ≠ 0) =
      maskOf fun j => counts j && ex' j &&& excEnabled fmode ≠ 0 :=
    maskOf_congr fun j hj => by rw [hex j hj]
  simp only [fpTrap, allRaised_congr hex, hmask]

theorem fpOutcome_error {fmode : W64} {counts : Nat → Bool} {ex ex' : Nat → Exc} {half : Nat} (hex : ∀ j < 32, ex j = ex' j)
    (h : allRaised counts ex' &&& excEnabled fmode ≠ 0) :
    fpOutcome fmode counts ex half =
      .error (fpFrame (maskOf fun j => counts j && ex' j &&& excEnabled fmode ≠ 0) (allRaised counts ex') half) := by
  simp only [fpOutcome, allRaised_congr hex, fpTrap_congr hex, fpTrap_some h]

theorem envAt_activeSlots (i : IssueInfo) (s : State) (g : Group) (b : Block) (x : Ext) :
    (envAt i s g b).active x = (envOf s g b i.len).active x := funext (envAt_active i s g b x)

section
variable {s : State} {g : Group} {b : Block} {n : Instr} {maj fn len : Nat} {x : Ext} {rs : Slots}

theorem finishV_traps (h : (envOf s g b len).raised x rs &&& excEnabled g.arch.fmode ≠ 0) :
    (envAt { len } s g b).finishV x 0 rs =
      .trap (fpFrame ((envOf s g b len).trapSlots x rs) ((envOf s g b len).raised x rs) (envOf s g b len).half) := by
  unfold Env.finishV
  simp only [envAt_fmode, envAt_activeSlots, envAt_half, Nat.zero_max]
  rw [fpOutcome_error (fun _ _ => rfl) h]
  rfl

/-! ### Instructions that end in `finishV` -/

/-- Issued, with its registers full, `n` ends with the results `rs` (R236, R237). -/
def FinishesWith (n : Instr) (maj fn len : Nat) (x : Ext) (s : State) (g : Group) (b : Block) (rs : Slots) : Prop :=
  ∃ k, exec n s = issueExt maj fn x (uInfo len) k s ∧ k (envAt { len } s g b) = (envAt { len } s g b).finishV x 0 rs

/-- Where a slot of `rs` that takes part raises an enabled exception, `n` takes FP with those slots and all that is raised
(R237). -/
def TrapsF (n : Instr) (maj fn len : Nat) (x : Ext) (s : State) (g : Group) (b : Block) (rs : Slots) : Prop :=
  let e := envOf s g b len
  Ready { len } s g b → Full maj fn x e → e.raised x rs &&& excEnabled g.arch.fmode ≠ 0 →
    exec n s = .next ((envBefore { len } s g b).takeTrap (fpFrame (e.trapSlots x rs) (e.raised x rs) e.half) g.arch.pc).close

theorem FinishesWith.completes (h : FinishesWith n maj fn len x s g b rs) : CompletesF n maj fn len x s g b rs :=
  let ⟨_, hx, hk⟩ := h
  finishV_completes hx hk

theorem FinishesWith.traps (h : FinishesWith n maj fn len x s g b rs) : TrapsF n maj fn len x s g b rs :=
  fun hr hf hen =>
    let ⟨_, hx, hk⟩ := h
    traps_ext (i := uInfo len) hx hf hr (hk.trans (finishV_traps hen))

/-! ### The operations of the families -/

theorem scalarOp_finishes {op : FMode → FSpec → Nat → Nat → Nat → Nat × Exc} (hx : exec n s = scalarOp fn x len op s) :
    FinishesWith n 18 fn len x s g b ((envOf s g b len).scalarSlots x op) :=
  ⟨_, hx, by simp only [envAt_src32, envAt_fmodeFor]; rfl⟩

theorem packedOp_finishes {op : FMode → FSpec → Nat → Nat → Nat → Nat × Exc} (hx : exec n s = packedOp fn x len op s) :
    FinishesWith n 18 fn len x s g b ((envOf s g b len).packedSlots x op) :=
  ⟨_, hx, by simp only [envAt_src32, envAt_fmodeFor]; rfl⟩

theorem frndOp_finishes (hx : exec n s = frndOp x len s) :
    ∀ r ∈ convertTable (envOf s g b len) x, r.1 = 8 → FinishesWith n 18 8 len x s g b r.2.2 := by
  simp only [convertTable, List.forall_mem_cons, List.not_mem_nil, false_implies, implies_true, and_true, Nat.reduceEqDiff,
    forall_const]
  exact scalarOp_finishes (op := fun m f a _ _ => frndV (x.imm8.getLsbD 2) m f a) hx

theorem fldexpOp_finishes (hx : exec n s = fldexpOp x len s) :
    ∀ r ∈ convertTable (envOf s g b len) x, r.1 = 23 → FinishesWith n 18 23 len x s g b r.2.2 := by
  simp only [convertTable, List.forall_mem_cons, List.not_mem_nil, false_implies, implies_true, and_true, true_and,
    Nat.reduceEqDiff, forall_const]
  exact ⟨_, hx, by simp only [envAt_src32, envAt_fmodeFor]; rfl⟩

theorem dotOp_finishes (hx : exec n s = dotOp x len s) :
    ∀ r ∈ convertTable (envOf s g b len) x, r.1 = 30 → FinishesWith n 18 30 len x s g b r.2.2 := by
  simp only [convertTable, List.forall_mem_cons, List.not_mem_nil, false_implies, implies_true, and_true, true_and,
    Nat.reduceEqDiff, forall_const]
  exact ⟨_, hx, by simp only [envAt_src32, envAt_src64, envAt_fmodeFor]; rfl⟩

end

/-! ### The rows of the tables (R240 to R251, R256) -/

/-- Each scalar instruction of Table 12-1 runs the scalar operation with the element function of its row. -/
theorem exec_scalar (x : Ext) : ∀ p ∈ scalarTable x, exec p.2.1 = scalarOp p.1 x (lenExt x) p.2.2 := by
  simp only [scalarTable, List.forall_mem_cons, List.not_mem_nil, false_implies, implies_true, and_true]
  and_intros <;> rfl

/-- And each packed one the packed operation (R251). -/
theorem exec_packed (x : Ext) : ∀ p ∈ packedTable x, exec p.2.1 = packedOp p.1 x (lenExt x) p.2.2 := by
  simp only [packedTable, List.forall_mem_cons, List.not_mem_nil, false_implies, implies_true, and_true]
  and_intros <;> rfl

section
variable {s : State} {g : Group} {b : Block} {x : Ext}

/-- FRND, FLDEXP and FDOT2 (R245, R246), and the conversions (R233, R249, R250): what an issue sees of the sources and of FMODE
is what the row's slots are computed from. -/
theorem convertTable_finishes :
    ∀ p ∈ convertTable (envOf s g b (lenExt x)) x, FinishesWith p.2.1 18 p.1 (lenExt x) x s g b p.2.2 := by
  simp only [convertTable, List.forall_mem_cons, List.not_mem_nil, false_implies, implies_true, and_true]
  and_intros <;> exact ⟨_, rfl, by simp only [envAt_src32, envAt_src64, envAt_fmodeFor]; rfl⟩

/-- The folds of the sub-groups before and after each slot (R256). -/
def Env.redFolds (e : Env) (x : Ext) : List ((Nat × Exc) × (Nat × Exc)) :=
  let op := x.imm8.toNat / 8 % 16
  redScan op (subWidth x) (e.fmodeFor x.rm) (e.active x)
    (fun i => ((e.src32 (if 8 ≤ op then .flt .f32 else .int) x.lit x.a).slot i).toNat) 32 0 (0, excNone)

theorem redOp_finishes {n : Instr} {fn : Nat} {pick : List ((Nat × Exc) × (Nat × Exc)) → Nat → Nat × Exc}
    (hx : exec n s = redOp fn x pick s) :
    FinishesWith n 19 fn (lenExt x) x s g b (slots.map fun t =>
      let p := pick ((envOf s g b (lenExt x)).redFolds x) t
      (BitVec.ofNat 32 p.1, p.2)) :=
  ⟨_, hx, by simp only [envAt_src32, envAt_fmodeFor, envAt_active]; rfl⟩

theorem reduceTable_finishes :
    ∀ p ∈ reduceTable (envOf s g b (lenExt x)) x, FinishesWith p.2.1 19 p.1 (lenExt x) x s g b p.2.2 := by
  simp only [reduceTable, List.forall_mem_cons, List.not_mem_nil, false_implies, implies_true, and_true]
  refine ⟨redOp_finishes (pick := fun rs t => (foldAt rs (subBase (subWidth x) t + subWidth x - 1)).2) rfl, ?_⟩
  simp only [← apply_ite fun p : Nat × Exc => (BitVec.ofNat 32 p.1, p.2)]
  exact redOp_finishes (pick := fun rs t => if x.imm8.getLsbD 7 then (foldAt rs t).1 else (foldAt rs t).2) rfl

end

/-- Settles O8: every row ends in `finishV` with its slots, which sets the flags and writes D alone where nothing traps
(`FinishesWith.completes`). -/
theorem floatResult : Obligations.FloatResult := by
  unfold Obligations.FloatResult
  intro s g b x e ok
  refine ⟨fun p hp => ?_, fun p hp => ?_, fun p hp => ?_⟩
  · exact (scalarOp_finishes (congrFun (exec_scalar x p hp) s)).completes
  · exact (packedOp_finishes (congrFun (exec_packed x p hp) s)).completes
  · exact (convertTable_finishes p hp).completes

/-! ### FCMP (R243) -/

/-- What FCMP's slots raise (R243); its results are bits of a mask, not of a register. -/
def Env.fcmpSlots (e : Env) (x : Ext) : Slots :=
  let f := scalarSpec x.imm8.toNat
  let v (code : BitVec 10) (i : Nat) : Nat := ((e.src32 (posOf f) x.lit code).slot i).toNat
  slots.map fun i =>
    (0, (fcmpV (x.imm8.toNat / 4 % 8) (e.fmodeFor 0) f (modBits f x.na x.xa (v x.a i)) (modBits f x.nb x.xb (v x.b i))).2)

section
variable {s : State} {g : Group} {b : Block}

/-- FCMP ends beside `finishV`, but traps as that does (R237, R243). -/
theorem fcmp_traps {x : Ext} : TrapsF (.fcmp x) 18 6 (lenExt x) x s g b ((envOf s g b (lenExt x)).fcmpSlots x) := by
  intro hr hf hen
  have hx : exec (.fcmp x) s = execFcmp x s := rfl
  unfold execFcmp at hx
  refine traps_ext (i := { len := lenExt x }) hx hf hr ?_
  simp only [envAt_fmode, envAt_activeSlots, envAt_half, envAt_src32, envAt_fmodeFor]
  rw [fpOutcome_error (ex' := slotExc ((envOf s g b (lenExt x)).fcmpSlots x)) (fun j hj => ?_) hen]
  · rfl
  · unfold slotExc Env.fcmpSlots
    rw [getD_slots_map _ _ hj, getD_slots_map _ _ hj]

/-! ### The halves of a pair word (R63) -/

/-- The slots of a half, for their exceptions. -/
def Env.halfSlots (e : Env) (h : Half) : Slots := slots.map fun i => (0, (e.halfResult h).2.getD i excNone)

theorem slotExc_halfSlots (e : Env) (h : Half) {j : Nat} (hj : j < 32) :
    slotExc (e.halfSlots h) j = halfExc (e.halfResult h) j :=
  congrArg Prod.snd (getD_slots_map _ _ hj)

theorem halfRaised_eq_raised (e : Env) (h : Half) : e.halfRaised h = e.raised h.x (e.halfSlots h) :=
  allRaised_congr fun _ hj => (slotExc_halfSlots e h hj).symm

/-- The trap of a half: none where its mask is 0. -/
theorem fpTrap_half (h : Half) (all : Exc) (n : Nat) :
    let e := envOf s g b 12
    let e1 := envAt { len := 12 } s g b
    fpTrap e1.g.arch.fmode (e1.active h.x) (halfExc (e1.halfResult h)) all n =
      if e.trapSlots h.x (e.halfSlots h) = 0 then none else some (fpFrame (e.trapSlots h.x (e.halfSlots h)) all n) := by
  dsimp only
  rw [envAt_fmode, envAt_activeSlots, envAt_halfResult, fpTrap_congr fun j hj => (slotExc_halfSlots _ h hj).symm]
  split_ifs with h0
  · exact fpTrap_none (allRaised_and_eq_zero_iff.2 h0)
  · exact fpTrap_some (mt allRaised_and_eq_zero_iff.1 h0)

/-- X's slots are reported first, with what either half raises (R63, R237; log 122). -/
theorem pairWord_traps {p : PairF} (hr : Ready { len := 12 } s g b)
    (hf : (envOf s g b 12).blocked (halfCodes p.halfX ++ halfCodes p.halfY) [p.halfX.x.d.toNat, p.halfY.x.d.toNat] = none) :
    let e := envOf s g b 12
    let own (h : Half) : W32 := e.trapSlots h.x (e.halfSlots h)
    let all := e.raised p.halfX.x (e.halfSlots p.halfX) ||| e.raised p.halfY.x (e.halfSlots p.halfY)
    let traps (t : Trap) : Prop := exec (.pairWord p) s = .next ((envBefore { len := 12 } s g b).takeTrap t g.arch.pc).close
    (own p.halfX ≠ 0 → traps (fpFrame (own p.halfX) all 0)) ∧
      (own p.halfX = 0 → own p.halfY ≠ 0 → traps (fpFrame (own p.halfY) all 1)) := by
  intro e own all traps
  have hx : exec (.pairWord p) s = execPairWord p s := rfl
  unfold execPairWord at hx
  have hall : (envAt { len := 12 } s g b).halfRaised p.halfX ||| (envAt { len := 12 } s g b).halfRaised p.halfY = all := by
    rw [envAt_halfRaised, envAt_halfRaised, halfRaised_eq_raised, halfRaised_eq_raised]
  unfold Env.halfRaised at hall
  refine ⟨fun hX => full_traps hx hf hr ?_, fun hX hY => full_traps hx hf hr ?_⟩
  · dsimp only
    rw [hall, fpTrap_half p.halfX, if_neg hX]
  · dsimp only
    rw [hall, fpTrap_half p.halfX, fpTrap_half p.halfY, if_pos hX, if_neg hY]

end

/-- Settles O10: every row ends in `finishV` with its slots, which traps where one of them raises an enabled exception
(`FinishesWith.traps`); FCMP by `fcmp_traps`, and a pair word by `pairWord_traps`. -/
theorem floatTrap : Obligations.FloatTrap := by
  unfold Obligations.FloatTrap
  intro s g b x f p en slotsOf frame traps takes e eb ofBase base cmp
  refine ⟨fun q hq => ?_, fun q hq => ?_, fun q hq => ?_, fcmp_traps, fun q hq => ?_, fun q hq => ?_, fun q hq => ?_, ?_, ?_, ?_,
    pairWord_traps⟩
  · exact (scalarOp_finishes (congrFun (exec_scalar x q hq) s)).traps
  · exact (packedOp_finishes (congrFun (exec_packed x q hq) s)).traps
  · exact (convertTable_finishes q hq).traps
  · exact (reduceTable_finishes q hq).traps
  · exact (scalarOp_finishes (congrFun (exec_scalarBase f q hq) s)).traps
  · exact (packedOp_finishes (congrFun (exec_packedBase f q hq) s)).traps
  · exact fun q hq h => (frndOp_finishes rfl q hq h).traps
  · exact fun q hq h => (fldexpOp_finishes rfl q hq h).traps
  · exact fun q hq h => (dotOp_finishes rfl q hq h).traps

end Sys2Proof.Machine

namespace Sys2Proof.Machine

open Sys2Proof

/-! ## FCMP: the mask and the flags (R236, R243) -/

/-- What FCMP finds for slot `j`: the bit and the exceptions of its compare. -/
def Env.fcmpAt (e : Env) (x : Ext) (j : Nat) : Bool × Exc :=
  let f := scalarSpec x.imm8.toNat
  let v (code : BitVec 10) : Nat := ((e.src32 (posOf f) x.lit code).slot j).toNat
  fcmpV (x.imm8.toNat / 4 % 8) (e.fmodeFor 0) f (modBits f x.na x.xa (v x.a)) (modBits f x.nb x.xb (v x.b))

theorem exec_fcmp (x : Ext) (s : State) : exec (.fcmp x) s = issueExt 18 6 x (uInfo (lenExt x)) (fun e =>
    let r (j : Nat) := (slots.map (e.fcmpAt x)).getD j (false, excNone)
    match fpOutcome e.g.arch.fmode (e.active x) (fun j => (r j).2) e.half with
    | .error t => .trap t
    | .ok w => .done (((e.writeK x (x.d.toNat - 512) fun j => (r j).1).setFmode w).withPasses 8)) s := rfl

theorem envAt_fcmpAt (i : IssueInfo) (s : State) (g : Group) (b : Block) (x : Ext) :
    (envAt i s g b).fcmpAt x = (envOf s g b i.len).fcmpAt x := by
  unfold Env.fcmpAt
  simp only [envAt_src32, envAt_fmodeFor]

theorem fpOutcome_ok_congr {fmode : W64} {counts : Nat → Bool} {ex ex' : Nat → Exc} {half : Nat} (hex : ∀ j < 32, ex j = ex' j)
    (h : allRaised counts ex' &&& excEnabled fmode = 0) :
    fpOutcome fmode counts ex half = .ok (raiseFlags fmode (allRaised counts ex')) := by
  rw [← allRaised_congr hex] at h ⊢
  exact fpOutcome_ok h

/-- A mask destination takes the bits of the 32 slots alone. -/
theorem writeK_congr {e : Env} {x : Ext} {n : Nat} {f f' : Nat → Bool} (h : ∀ j < 32, f j = f' j) :
    e.writeK x n f = e.writeK x n f' :=
  congrArg (e.setK n) (maskOf_congr fun j hj => by rw [h j hj])

/-- Settles O11: nothing traps, so that the flags are set (`fpOutcome_ok_congr`) after the mask is written (`writeK_g`). -/
theorem fcmpResult : Obligations.FcmpResult := by
  unfold Obligations.FcmpResult
  intro s g b x e f v r raised hf hen
  have hslot : ∀ j < 32, (slots.map (e.fcmpAt x)).getD j (false, excNone) = r j := fun j hj => getD_slots_map _ _ hj
  refine ext_completes (i := uInfo (lenExt x)) (exec_fcmp x s) hf (?_ : _ = Res.done
    ((((envAt (uInfo (lenExt x)) s g b).writeK x (x.d.toNat - 512) fun j => (r j).1).setFmode
      (raiseFlags g.arch.fmode raised)).withPasses 8)) (setFmode_s _ _) (setFmode_b _ _) (setFmode_g (writeK_g x _ _) _)
  simp only [envAt_fmode, envAt_activeSlots, envAt_fcmpAt, uInfo]
  rw [fpOutcome_ok_congr (fun j hj => congrArg Prod.snd (hslot j hj)) hen]
  dsimp only
  rw [writeK_congr fun j hj => congrArg Prod.fst (hslot j hj)]
  rfl

/-! ## The cross-thread family: extended forms (R185, R253 to R257) -/

/-- Each exchange of Table 12-4 runs the family's operation with the source slot of its row. -/
theorem exec_cross (x : Ext) : ∀ q ∈ crossTable x, exec q.2.1 = crossOp q.1 x (lenExt x) q.2.2 := by
  simp only [crossTable, List.forall_mem_cons, List.not_mem_nil, false_implies, implies_true, and_true]
  and_intros <;> rfl

section
variable (x : Ext) (s : State)

theorem exec_gvote : exec (.gvote x) s = execGvote x s := rfl
theorem exec_gbalt : exec (.gbalt x) s = execGbalt x s := rfl
theorem exec_vtos : exec (.vtos x) s = execVtos x s := rfl

end

/-- A uniform destination after several passes of the pipe (R255). -/
theorem setS64_passes_completes {i : IssueInfo} {s : State} {g : Group} {b : Block} {maj fn d passes : Nat} {x : Ext} {n : Instr}
    {k : Env → Res} {v : W64} (hx : exec n s = issueExt maj fn x i k s) (hf : Full maj fn x (envOf s g b i.len))
    (hk : k (envAt i s g b) = .done (((envAt i s g b).setS64 d v).withPasses passes)) :
    Completes n i s g b ((envOf s g b i.len).putU (g.arch.past i.len) d v) ((envOf s g b i.len).uCodes d) :=
  ext_completes hx hf hk (setS64_s _ _ _) (setS64_b _ _ _) (putU_done _ _)

/-- No slot is other than 0 where every slot is 0 (R255). -/
theorem not_any_ne_zero (l : List Nat) (a : Nat → W32) : (!l.any fun j => a j ≠ 0) = l.all fun j => a j = 0 := by
  rw [List.not_any_eq_all_not]
  simp only [ne_eq, decide_not, Bool.not_not]

/-- Settles O12: an exchange is the operation of its row (`exec_cross`), a reduction or scan ends in `finishV` with its folds
(`reduceTable_finishes`), and the others write one destination with what the issue sees of their sources. -/
theorem crossResult : Obligations.CrossResult := by
  unfold Obligations.CrossResult
  intro s g b x e p i d va vb
  refine ⟨fun q hq hf => ?_, fun q hq => ?_, fun hf => ?_, fun hf => ?_, fun hf => ?_, fun hf => ?_, fun hf => ?_⟩
  · exact crossOp_completes (congrFun (exec_cross x q hq) s) hf
  · exact (reduceTable_finishes q hq).completes
  · refine ext_completes (i := uInfo (lenExt x)) (exec_gvote x s) hf rfl rfl rfl ?_
    simp only [envAt_src32, envAt_active, not_any_ne_zero, withPasses_g]
    exact writeK_g x _ _
  · refine setS64_passes_completes (passes := 8) (i := uInfo (lenExt x)) (exec_gbalt x s) hf ?_
    simp only [envAt_src32, envAt_active]
    rfl
  · refine setS64_completes (i := uInfo (lenExt x)) (exec_vtos x s) hf ?_
    simp only [envAt_src32, envAt_srcS32, envAt_active, envAt_readAt]
    rfl
  · exact vtagOp_completes rfl hf
  · exact vgenOp_completes rfl hf

end Sys2Proof.Machine

namespace Sys2Proof.Machine

open Sys2Proof

/-! ## Taking a trap (R118, R423, R424, R427) -/

section
variable (a : Arch) (t : Trap) (resume task orig gtc : Nat)

/-- R423: what the registers of the trap frame hold. -/
theorem Arch.ureg_frame :
    (a.frame t resume task orig gtc).ureg 376 = { val := BitVec.ofNat 64 t.code } ∧
      (a.frame t resume task orig gtc).ureg 377 = { val := BitVec.ofNat 64 resume } ∧
      (a.frame t resume task orig gtc).ureg 378 = { val := t.addr } ∧
      (a.frame t resume task orig gtc).ureg 379 = { val := BitVec.ofNat 64 task } ∧
      (a.frame t resume task orig gtc).ureg 380 = { val := BitVec.ofNat 64 orig } ∧
      (a.frame t resume task orig gtc).ureg 381 = { val := BitVec.ofNat 64 gtc } ∧
      (a.frame t resume task orig gtc).ureg 382 = { val := t.cause0 } ∧
      (a.frame t resume task orig gtc).ureg 383 = { val := t.cause1 } := by
  simp [Arch.frame, Arch.ureg_setS]

/-- The trap frame is s376 to s383. -/
theorem Arch.ureg_frame_other {n : Nat} (h : n < 376 ∨ 384 ≤ n) : (a.frame t resume task orig gtc).ureg n = a.ureg n := by
  unfold Arch.frame
  repeat rw [Arch.ureg_setS (h := by decide), if_neg (by omega)]

/-- The frame is written to uniform registers, and nothing else of the group changes. -/
theorem Arch.frame_keeps :
    (a.frame t resume task orig gtc).run = a.run ∧ (a.frame t resume task orig gtc).stack = a.stack ∧
      (a.frame t resume task orig gtc).v = a.v ∧
      (a.frame t resume task orig gtc).k = a.k ∧ (a.frame t resume task orig gtc).fmode = a.fmode ∧
      (a.frame t resume task orig gtc).cursor = a.cursor ∧ (a.frame t resume task orig gtc).deferred = a.deferred := by
  simp [Arch.frame]

/-- The registers as the handler at `pc` starts, in its window (R119). -/
def Arch.enter (pc : Nat) (window : Nat × Nat) : Arch :=
  { a with entryRun := a.run, handler := true, vwb := window.1, swb := window.2, pc }

theorem Arch.ureg_enter (pc : Nat) (window : Nat × Nat) (n : Nat) : (a.enter pc window).ureg n = a.ureg n := rfl

end

section
variable (e : Env) (t : Trap) (resume : Nat)

/-- The code in which a trap arises is the fused consumer's; the task and the program counter that its frame names (R118). -/
def Env.trapFromC : Bool := e.b.codeFromC e.fromC (t.site.getD e.addr)
def Env.trapTask : Nat := e.b.taskOf (e.trapFromC t)
def Env.trapOrigin : Nat := e.b.originalPc (e.trapFromC t) (t.site.getD e.addr) resume
def Env.trapHandler : Nat := { e with fromC := e.trapFromC t }.trapBase

/-- R119: the window of the handler's code. -/
def Env.trapWindow : Nat × Nat :=
  match e.b.fused with
  | some f => if e.trapFromC t then (f.p.vcount, f.p.scount) else (0, 0)
  | none => (0, 0)

theorem takeTrap_inHandler (h : e.g.arch.handler = true) :
    e.takeTrap t resume = e.doom t.code 34 (e.trapTask t) (e.trapOrigin t resume) := if_pos h

theorem takeTrap_noHandler (h : e.g.arch.handler = false) (hbase : e.trapHandler t = 0) :
    e.takeTrap t resume =
      if t.code = 32 || t.code = 33 then e else e.doom t.code t.code (e.trapTask t) (e.trapOrigin t resume) :=
  (if_neg (by rw [h]; decide)).trans (if_pos hbase)

/-- The registers with the trap's frame. -/
def Env.trapFrame : Arch := e.g.arch.frame t resume (e.trapTask t) (e.trapOrigin t resume) e.s.gtc

/-- A trap that its handler takes: the registers are set, a head stands before the handler, and the state but its event records
is as it was. -/
theorem takeTrap_handled (h : e.g.arch.handler = false) (hbase : e.trapHandler t ≠ 0) :
    let f := e.takeTrap t resume
    f.g.arch = (e.trapFrame t resume).enter (e.trapHandler t) (e.trapWindow t) ∧ f.g.headPending = true ∧ f.b = e.b ∧
      f.s.mem = e.s.mem := by
  have hout : ¬e.g.arch.handler = true := by rw [h]; decide
  have hf : e.takeTrap t resume = _ := (if_neg hout).trans (if_neg hbase)
  have hrun : (e.trapFrame t resume).run = e.g.arch.run := by simp [Env.trapFrame, Arch.frame]
  rw [hf, Arch.enter, hrun]
  refine ⟨rfl, rfl, rfl, ?_⟩
  simp only
  split
  · exact (e.s.record_accounted _).mem
  · rfl

/-- Code that is not fused is its own task's, at its own address. -/
theorem trapOrigin_unfused (h : e.b.fused = none) : e.trapTask t = e.b.ref.task ∧ e.trapOrigin t resume = resume := by
  simp [Env.trapTask, Env.trapOrigin, Block.taskOf, Block.originalPc, Block.original, Block.fusedAt, h]

end

/-- Settles O58: inside a handler and without one the group is doomed (`doom_spec`); otherwise its registers are those of
`Arch.enter` with the frame of `Arch.ureg_frame`. -/
theorem trapEntry : Obligations.TrapEntry := by
  unfold Obligations.TrapEntry
  intro e t resume a fromC handler o f c full ends
  have hends {fault : Nat} (h : f = e.doom t.code fault o.1 o.2) : ends fault := by
    obtain ⟨hdoomed, harch, hs, -, hregion⟩ := doom_spec e t.code fault o.1 o.2
    simp only [ends, c, h]
    exact ⟨hdoomed, harch, hs, hregion⟩
  refine ⟨fun hin => hends (takeTrap_inHandler e t resume hin), fun hout hnone hcode => ?_, fun hout hnone hstep hthrottle => ?_,
    fun hout hsome => ?_⟩
  · exact (takeTrap_noHandler e t resume hout hnone).trans (if_pos (by simpa using hcode))
  · exact hends ((takeTrap_noHandler e t resume hout hnone).trans (if_neg (by simp [hstep, hthrottle])))
  · obtain ⟨harch, hhead, hb, hmem⟩ := takeTrap_handled e t resume hout hsome
    have hc : c = (a.frame t resume o.1 o.2 e.s.gtc).enter handler (e.trapWindow t) := harch
    obtain ⟨hrun, hstack, hv, hk, hfmode, hcursor, hdeferred⟩ := a.frame_keeps t resume o.1 o.2 e.s.gtc
    obtain ⟨h376, h377, h378, h379, h380, h381, h382, h383⟩ := a.ureg_frame t resume o.1 o.2 e.s.gtc
    rw [hc]
    simp only [Arch.ureg_enter]
    simp only [Arch.enter, true_and]
    refine ⟨hrun, hrun, hstack, hv, hk, hfmode, hcursor, hdeferred,
      fun n => a.ureg_frame_other t resume o.1 o.2 e.s.gtc, h376, h377, h378, h379, h380, h381, h382, h383,
      fun hfused => ?_, fun k hfused => ?_, hhead, hb, hmem⟩
    · obtain ⟨htask, hpc⟩ := trapOrigin_unfused e t resume hfused
      have hwindow : e.trapWindow t = (0, 0) := by unfold Env.trapWindow; rw [hfused]
      exact ⟨congrArg Prod.fst hwindow, congrArg Prod.snd hwindow, Prod.ext htask hpc⟩
    · change e.trapWindow t = _
      unfold Env.trapWindow
      rw [hfused]
      rfl

end Sys2Proof.Machine

namespace Sys2Proof.Machine

open Sys2Proof

/-! ## RTE (R175, R430) -/

/-- What RTE does in a handler once its return address has arrived (R430), with its block's pending edge (R175). -/
def Env.returns (e : Env) : Res :=
  let e1 := e.setArch e.g.arch.returnFromTrap
  if !e.b.edgePend then .done e1
  else
    let e2 := { e1 with b := { e.b with edgePend := false } }
    match electGroup (e1.g :: (e.s.groupsOf e.b.ref).filter fun h => h.ref ≠ e.g.ref) with
    | none => .done e1
    | some h =>
      let t := some (e.b.edgeKind, e.b.edgeCause)
      if h.ref = e.g.ref then .done { e2 with g := { e2.g with throttle := t } }
      else .done (e2.setS (e2.s.modGroup h.ref fun g => { g with
        throttle := t, wait := match g.wait with | .sleep _ => .ready | w => w }))

theorem exec_rte (x : Ext) (s : State) : exec (.rte x) s = issueExt 26 9 x { len := lenExt x, closing := true } (fun e =>
    if !e.g.arch.handler then .trap { code := 1 } else e.whenFull [(128 + 377, false)] [] Env.returns) s := rfl

theorem returns_quiet {e : Env} (h : e.b.edgePend = false) : e.returns = .done (e.setArch e.g.arch.returnFromTrap) :=
  if_pos (by rw [h]; rfl)

/-- The group that takes the block's pending edge, the returning one or another of its block. -/
theorem returns_elected {e : Env} {h : Group} (hpend : e.b.edgePend = true)
    (helected : electGroup ((e.setArch e.g.arch.returnFromTrap).g :: (e.s.groupsOf e.b.ref).filter fun h => h.ref ≠ e.g.ref) =
      some h) :
    let e2 := { e.setArch e.g.arch.returnFromTrap with b := { e.b with edgePend := false } }
    let t := some (e.b.edgeKind, e.b.edgeCause)
    e.returns = .done (if h.ref = e.g.ref then { e2 with g := { e2.g with throttle := t } }
      else e2.setS (e2.s.modGroup h.ref fun g => { g with
        throttle := t, wait := match g.wait with | .sleep _ => .ready | w => w })) := by
  refine (if_neg (by rw [hpend]; decide)).trans ?_
  rw [helected]
  exact (apply_ite Res.done _ _ _).symm

/-- Settles O31: without a pending edge the registers are set and no more; with one, the group that the block elects takes it. -/
theorem rteResult : Obligations.RteResult := by
  unfold Obligations.RteResult
  intro s g b x i e0 e1 e2 t elected hf hhandler hfull
  have hbody (r : Res) (h : (envAt i s g b).returns = r) :
      (if !(envAt i s g b).g.arch.handler then .trap { code := 1 }
        else (envAt i s g b).whenFull [(128 + 377, false)] [] Env.returns) = r := by
    have hin : (envAt i s g b).g.arch.handler = true := by rw [envAt_arch]; exact hhandler
    rw [hin, whenFull_done ((envAt_blocked i s g b _ _).trans hfull), h]
    rfl
  refine ⟨fun hquiet => ?_, fun hpend h helected => ?_⟩
  · refine ext_completes (exec_rte x s) hf (hbody _ (returns_quiet hquiet)) rfl rfl ?_
    rw [envAt_arch]
    exact setArch_g _
  · refine ends_ext (exec_rte x s) hf (hbody _ ?_)
    refine (returns_elected (h := h) hpend ?_).trans ?_
    · rw [envAt_ref, envAt_arch]
      exact helected
    · rw [envAt_ref, envAt_arch]
      rfl

end Sys2Proof.Machine

namespace Sys2Proof.Machine

open Sys2Proof

/-! ## Accesses and reads of an issue: what they leave of the environment (R295, R296, R310) -/

section
variable {e e1 : Env}

/-- An access that has found its place leaves all but the state, in which its walks stand. -/
theorem place_eq {store bm : Bool} {align : Nat} {a : Access} {p : Nat} (h : e.place store bm align a = .ok (p, e1)) :
    e1 = e.setS e1.s := by
  unfold Env.place at h
  simp only at h
  split at h
  · cases h
  · split at h
    · split at h
      · cases h
      · split at h
        · cases h
        · cases h
          rfl
    · split at h
      · cases h
      · split at h
        · cases h
        · cases h
          rfl

theorem placeAll_eq {store bm : Bool} {align : Nat} {as : List Access} {ps : List (Option Nat)}
    (h : e.placeAll store bm align as = .ok (ps, e1)) : e1 = e.setS e1.s := by
  induction as generalizing e ps with
  | nil => cases h; rfl
  | cons a as ih =>
    unfold Env.placeAll at h
    split at h
    case h_1 x hx =>
      split at h
      · split at h
        · cases h
        case h_2 hrest => cases h; exact (ih hrest).trans rfl
      · cases h
    case h_2 p e2 hx =>
      split at h
      · cases h
      case h_2 hrest =>
        cases h
        rw [place_eq hx] at hrest
        exact (ih hrest).trans rfl

theorem readPath_eq (e : Env) (bm : Bool) (ps : List (Option Nat)) (n : Nat) :
    let p := (e.readPath bm ps n).2
    p = { e with s := p.s, g := { e.g with regions := p.g.regions } } := by
  intro p
  have hsame : ({ p with s := e.s, g := { p.g with regions := e.g.regions } } : Env) = e := by
    unfold p Env.readPath
    split
    · rfl
    · refine foldl_keeps (fun a : Nat × Env => ({ a.2 with s := e.s, g := { a.2.g with regions := e.g.regions } } : Env))
        (fun a l => ?_) (linesOf ps n) (1, e)
      simp only
      split <;> rfl
  rw [← hsame]

@[simp] theorem readPath_vIdx (e : Env) (bm : Bool) (ps : List (Option Nat)) (n k : Nat) :
    (e.readPath bm ps n).2.vIdx k = e.vIdx k := by
  rw [readPath_eq]
  rfl

@[simp] theorem readPath_vOld (e : Env) (bm : Bool) (ps : List (Option Nat)) (n k : Nat) :
    (e.readPath bm ps n).2.vOld k = e.vOld k := by
  rw [readPath_eq]
  rfl

@[simp] theorem readPath_sIdx (e : Env) (bm : Bool) (ps : List (Option Nat)) (n k : Nat) :
    (e.readPath bm ps n).2.sIdx k = e.sIdx k := by
  rw [readPath_eq]
  rfl

section
variable {store bm : Bool} {align : Nat} {as : List Access} {ps : List (Option Nat)}
  (h : e.placeAll store bm align as = .ok (ps, e1)) (k : Nat)
include h

theorem placed_vIdx : e1.vIdx k = e.vIdx k := by
  rw [placeAll_eq h]
  rfl

theorem placed_vOld : e1.vOld k = e.vOld k := by
  rw [placeAll_eq h]
  rfl

theorem placed_sIdx : e1.sIdx k = e.sIdx k := by
  rw [placeAll_eq h]
  rfl

theorem placed_vval : e1.vval k = e.vval k := by
  rw [placeAll_eq h]
  rfl

theorem placed_sval : e1.sval k = e.sval k := by
  rw [placeAll_eq h]
  rfl

end

end

/-! ## Loads (R298, R300, R301) -/

section
variable {s : State} {g : Group} {b : Block} {x : Ext} {len : Nat} {n : Instr} {ps : List (Option Nat)} {e1 : Env}

theorem ldOp_ends (hx : exec n s = ldOp x len s) :
    let info : IssueInfo := { len, reads := true }
    let e := envAt info s g b
    let size := x.imm8.toNat % 8
    let accs := e.slotAccesses x (e.loadSlots x) (2 ^ size)
    Full 21 0 x (envOf s g b len) → e.placeAll false (isBm x) (2 ^ size) accs = .ok (ps, e1) →
    let ps' := e1.spareHelpers (isBm x) (2 ^ size) accs ps
    e1.behindAtom (isBm x) ps' (2 ^ size) = false →
    let got := (e.loadSlots x).zip (ps'.map (e1.loaded (isBm x) size (x.imm8.getLsbD 3)))
    Ends n info s g b (e1.loads (isBm x) ps' (2 ^ size)
      ((List.range (sizeRegs size)).map fun j => .v (e.vIdx (x.d.toNat + j)) (.ofSlots fun i =>
        match tfind got i with
        | some v => BitVec.ofNat 32 (v / 2 ^ (32 * j))
        | none => (e.vOld (x.d.toNat + j)).slot i)) (accs.map Access.va)) := by
  intro info e size accs hf hplaces ps' hbehind got
  refine ends_ext hx hf ?_
  unfold accs size e Env.slotAccesses Env.loadSlots at hplaces
  simp only [hplaces]
  refine (if_neg (Bool.eq_false_iff.mp hbehind)).trans ?_
  simp only [readPath_vIdx, readPath_vOld, placed_vIdx hplaces, placed_vOld hplaces]
  rfl

theorem lduOp_ends (hx : exec n s = lduOp x len s) :
    let info : IssueInfo := { len, reads := true }
    let e := envAt info s g b
    let size := x.imm8.toNat % 4
    let acc : Access := { slot := none, va := e.eaU x, n := 2 ^ size }
    Full 21 2 x (envOf s g b len) → e.placeAll false (isBm x) (2 ^ size) [acc] = .ok (ps, e1) →
    e1.behindAtom (isBm x) ps (2 ^ size) = false →
    Ends n info s g b (e1.loads (isBm x) ps (2 ^ size)
      [.u (e.uDest x) (BitVec.ofNat 64 (extendLoad size (x.imm8.getLsbD 3)
        (e1.valueAt (isBm x) (e1.ownQueue (isBm x)) (2 ^ size) (ps.headD none))))] [acc.va]) := by
  intro info e size acc hf hplaces hbehind
  refine ends_ext hx hf ?_
  unfold acc size e at hplaces
  simp only [hplaces]
  refine (if_neg (Bool.eq_false_iff.mp hbehind)).trans ?_
  simp only [readPath_sIdx, placed_sIdx hplaces]
  rfl

theorem ldt_ends :
    let info : IssueInfo := { len := lenExt x, reads := true }
    let e := envAt info s g b
    let r := x.imm8.toNat % 8 + 1
    let on := if slots.any fun i => e.active x i then e.loadSlots x else []
    let accs := e.tileAccesses x on
    Full 21 4 x (envOf s g b (lenExt x)) → e.strideTrap x false = none → e.placeAll false (isBm x) 4 accs = .ok (ps, e1) →
    let ps' := e1.spareHelpers (isBm x) 4 accs ps
    e1.behindAtom (isBm x) ps' 4 = false →
    let got := ps'.map fun p => e1.valueAt (isBm x) (e1.ownQueue (isBm x)) 4 p
    Ends (.ldt x) info s g b (e1.loads (isBm x) ps' 4
      ((List.range r).map fun j => .v (e.vIdx (x.d.toNat + j)) (.ofSlots fun i =>
        match tfind on.zipIdx i with
        | some k => BitVec.ofNat 32 (got.getD (k * r + j) 0)
        | none => (e.vOld (x.d.toNat + j)).slot i)) (accs.map Access.va)) := by
  intro info e r on accs hf hstride hplaces ps' hbehind got
  refine ends_ext (k := _) rfl hf ?_
  unfold accs on e Env.loadSlots at hplaces
  unfold e at hstride
  simp only [hstride, hplaces]
  refine (if_neg (Bool.eq_false_iff.mp hbehind)).trans ?_
  simp only [readPath_vIdx, readPath_vOld, placed_vIdx hplaces, placed_vOld hplaces]
  rfl

end

/-- Settles O19: each load's accesses have found their places and nothing holds it, so that it ends with its values on their
way. -/
theorem loadResult : Obligations.LoadResult := by
  unfold Obligations.LoadResult
  intro s g b x fb fu ps0 e1 info
  simp only [List.forall_mem_cons, List.not_mem_nil, false_implies, implies_true, and_true]
  exact ⟨⟨ldOp_ends rfl, ldOp_ends rfl⟩, ⟨lduOp_ends rfl, lduOp_ends rfl⟩, ldt_ends⟩

/-! ## Stores (R298, R300, R301, R311) -/

section
variable {s : State} {g : Group} {b : Block} {x : Ext} {len : Nat} {n : Instr} {ps : List (Option Nat)} {e1 : Env}

/-- A store's data and base are read at its issue (R298). -/
def StoreFull (fn : Nat) (x : Ext) (e : Env) : Prop :=
  ∃ u, usage 21 fn x = some u ∧ e.blocked (srcCodes u x ++ (dstCodes u x).map fun n => (n, x.tc)) [] = none

theorem stOp_ends (hx : exec n s = stOp x len s) :
    let info : IssueInfo := { len, writes := true }
    let e := envAt info s g b
    let size := x.imm8.toNat % 8
    let word (i j : Nat) : Nat := ((e.vval (x.d.toNat + j)).slot i).toNat * 2 ^ (32 * j)
    let ws := ((e.storeSlots x).zip ps).flatMap fun p =>
      bytesFrom (p.2.getD 0) (((List.range (sizeRegs size)).map (word p.1)).sum) (2 ^ size)
    StoreFull 1 x (envOf s g b len) →
    e.placeAll true (isBm x) (2 ^ size) (e.slotAccesses x (e.storeSlots x) (2 ^ size)) = .ok (ps, e1) →
    e1.queueRoom (isBm x) ws → Ends n info s g b (e1.queued (isBm x) ws) := by
  intro info e size word ws hf hplaces hroom
  obtain ⟨u, hu, hfull⟩ := hf
  refine ends_store hx hu hfull ?_
  unfold size e Env.slotAccesses Env.storeSlots at hplaces
  simp only [hplaces, placed_vval hplaces]
  exact queueWrites_of_room hroom

theorem stuOp_ends (hx : exec n s = stuOp x len s) :
    let info : IssueInfo := { len, writes := true }
    let e := envAt info s g b
    let m := 2 ^ (x.imm8.toNat % 4)
    let ws := bytesFrom ((ps.headD none).getD 0) (e.sval (x.d.toNat - 128)).toNat m
    StoreFull 3 x (envOf s g b len) → e.placeAll true (isBm x) m [{ slot := none, va := e.eaU x, n := m }] = .ok (ps, e1) →
    e1.queueRoom (isBm x) ws → Ends n info s g b (e1.queued (isBm x) ws) := by
  intro info e m ws hf hplaces hroom
  obtain ⟨u, hu, hfull⟩ := hf
  refine ends_store hx hu hfull ?_
  unfold m e at hplaces
  simp only [hplaces, placed_sval hplaces]
  exact queueWrites_of_room hroom

theorem stt_ends :
    let info : IssueInfo := { len := lenExt x, writes := true }
    let e := envAt info s g b
    let r := x.imm8.toNat % 8 + 1
    let data := (e.storeSlots x).flatMap fun t => (List.range r).map fun j => ((e.vval (x.d.toNat + j)).slot t).toNat
    let ws := (ps.zip data).flatMap fun p => bytesFrom (p.1.getD 0) p.2 4
    StoreFull 5 x (envOf s g b (lenExt x)) → e.strideTrap x true = none →
    e.placeAll true (isBm x) 4 (e.tileAccesses x (e.storeSlots x)) = .ok (ps, e1) →
    e1.queueRoom (isBm x) ws → Ends (.stt x) info s g b (e1.queued (isBm x) ws) := by
  intro info e r data ws hf hstride hplaces hroom
  obtain ⟨u, hu, hfull⟩ := hf
  refine ends_store (k := _) rfl hu hfull ?_
  unfold e Env.storeSlots at hplaces
  unfold e at hstride
  simp only [hstride, hplaces, placed_vval hplaces]
  exact queueWrites_of_room hroom

end

/-- Settles O20: each store's accesses have found their places and the queue has room for its bytes. -/
theorem storeResult : Obligations.StoreResult := by
  unfold Obligations.StoreResult
  intro s g b x fb fu ps e1 info full
  simp only [List.forall_mem_cons, List.not_mem_nil, false_implies, implies_true, and_true]
  exact ⟨⟨stOp_ends rfl, stOp_ends rfl⟩, ⟨stuOp_ends rfl, stuOp_ends rfl⟩, stt_ends⟩

end Sys2Proof.Machine

namespace Sys2Proof.Machine

open Sys2Proof

/-! ## Copies (R317 to R321, R330, R332, R333, R355) -/

section
variable (i : IssueInfo) (s : State) (g : Group) (b : Block)

@[simp] theorem envAt_acqBefore : (envAt i s g b).g.acqBefore = g.acqBefore := by
  rw [envAt_g]
  unfold Group.atIssue
  cases g.opensFor i <;> rfl

@[simp] theorem envAt_arBefore : (envAt i s g b).g.arBefore = g.arBefore := by
  rw [envAt_g]
  unfold Group.atIssue
  cases g.opensFor i <;> rfl

end

section
variable {e : Env} {dst j : Nat} {d : CopyDesc}

/-- The copy of `d` in entry `j`, as it is registered (R317). -/
def Env.newCopy (e : Env) (d : CopyDesc) (j : Nat) : Copy :=
  { gen := ((e.s.copy e.benchNo j).gen + 1) % 2 ^ 24, live := true, g := e.g.ref, owner := e.b.owner, state := .running,
    desc := e.shifted d, region := (match e.g.regions.getLast? with | some r => r.seq | none => 0),
    order := e.s.nextId, readAt := e.s.gtc, addr := e.addr, acq := e.g.acqBefore, ar := e.g.arBefore }

/-- R321: it takes its entry and its locks, and its handle is the result. -/
def Env.registered (e : Env) (dst : Nat) (d : CopyDesc) (j : Nat) : Env :=
  (e.setS (State.setCopy { e.s with nextId := e.s.nextId + 1, rangeLocks := e.s.rangeLocks ++ e.locksOf d j } e.benchNo j
    (e.newCopy d j))).setS64 dst (BitVec.ofNat 64 (handleOf e.benchNo j (e.newCopy d j).gen))

theorem startCopy_empty (h : d.size = 0) : e.startCopy dst d =
    .done ((e.hold (.emptyCopy (zeroHandle e.benchNo) d.course) [] none false).setS64 dst
      (BitVec.ofNat 64 (zeroHandle e.benchNo))) := if_pos h

theorem startCopy_registers (h : d.size ≠ 0) (hfree : ((List.range 64).find? fun k => !(e.s.copy e.benchNo k).live) = some j)
    (hroom : e.s.locksOnDie (dieOfCore e.g.core) + (e.locksOf d j).length ≤ 1024) :
    e.startCopy dst d = .done (e.registered dst d j) := by
  unfold Env.startCopy
  simp only [if_neg h, hfree, if_neg (Nat.not_lt.mpr hroom)]
  rfl

end

section
variable {s : State} {g : Group} {b : Block} {x : Ext} {n : Instr} {d : CopyDesc} {j : Nat}

/-- R317, R320, R330: what becomes of a copy whose checks have passed. -/
theorem startCopy_ends {i i0 : IssueInfo} {dst : Nat}
    (hends : ∀ f : Env, (envAt i0 s g b).startCopy dst d = .done f → Ends n i s g b f) :
    let e := envAt i0 s g b
    let bench := benchOfCore g.core
    (d.size = 0 → Ends n i s g b
      ((e.hold (.emptyCopy (zeroHandle bench) d.course) [] none false).setS64 dst (BitVec.ofNat 64 (zeroHandle bench)))) ∧
    (d.size ≠ 0 → ((List.range 64).find? fun k => !(s.copy bench k).live) = some j →
      s.locksOnDie (dieOfCore g.core) + (e.locksOf d j).length ≤ 1024 → Ends n i s g b (e.registered dst d j)) := by
  intro e bench
  rw [show bench = e.benchNo from envAt_benchNo.symm]
  refine ⟨fun h => hends _ (startCopy_empty h), fun h hfree hroom => hends _ (startCopy_registers h hfree ?_)⟩
  rw [envAt_core]
  exact hroom

/-- Which registers an instruction reads of memory changes nothing of what its issue sees. -/
theorem copyOp_starts {k : Nat} (hx : exec n s = copyOp k x s) :
    let i : IssueInfo := { len := lenExt x, mem := true, role := some 0, reads := k = 2 || k = 3 }
    Full 22 k x (envOf s g b (lenExt x)) → (envAt i s g b).indexBehind x k = false → (envAt i s g b).checkDesc x k = .ok d →
    ∀ f : Env, (envAt i s g b).startCopy (x.d.toNat - 128) d = .done f → Ends n i s g b f := by
  intro i hf hbehind hcheck f hstart
  refine ends_ext hx hf ?_
  refine (if_neg (Bool.eq_false_iff.mp hbehind)).trans ?_
  rw [hcheck]
  exact hstart

/-- R355: the copy that CAOUT's descriptor asks for, without its course. -/
def Env.caoutDesc (e : Env) (x : Ext) : CopyDesc :=
  { kind := 8, src := e.descWord x 0, dst := e.descWord x 1, rowBytes := 256 * 32 ^ (e.descWord x 2 % 8), rows := 1,
    dspace := bit (e.descWord x 2) 3, op := e.descWord x 2 % 8 }

theorem caout_starts {c : Option Nat} :
    let i : IssueInfo := { len := lenExt x, mem := true, role := some 0 }
    let e := envAt i s g b
    Full 23 6 x (envOf s g b (lenExt x)) → e.descWord x 2 % 8 ≤ 4 → e.descWord x 2 < 64 → e.descWord x 3 < 2 ^ 32 →
    (e.descWord x 0 = 0 ∨ s.hasPool b.owner (e.descWord x 0) = true) → e.pastBench (e.caoutDesc x) = none →
    e.courseOf (bit (e.descWord x 2) 4) (e.descWord x 3) = .ok c →
    ∀ f : Env, e.startCopy (x.d.toNat - 128) { e.caoutDesc x with course := c } = .done f → Ends (.caout x) i s g b f := by
  intro i e hf hdepth hctl hfield hpool hbounds hcourse f hstart
  refine ends_ext (k := _) rfl hf ?_
  refine (if_neg ?_).trans ((if_neg ?_).trans ?_)
  · simp only [Bool.or_eq_true, decide_eq_true_eq]
    unfold e at hdepth hctl hfield
    omega
  · simpa using fun h => hpool.resolve_left h
  · unfold e Env.caoutDesc at hbounds hstart
    dsimp only
    rw [hbounds]
    dsimp only
    rw [hcourse]
    dsimp only at hstart ⊢
    exact hstart

end

/-- Settles O22: CPY and its kin start the copy that `checkDesc` gives (`copyOp_starts`), CAOUT its own (`caout_starts`); what
becomes of it is `startCopy_ends`. -/
theorem copyResult : Obligations.CopyResult := by
  unfold Obligations.CopyResult
  intro s g b x d j info e reg bench ok
  have hok {n : Instr} {i : IssueInfo} (he : envAt i s g b = e)
      (hends : ∀ f : Env, (envAt i s g b).startCopy reg d = .done f → Ends n i s g b f) : ok n i := by
    rw [he] at hends
    obtain ⟨hempty, htakes⟩ := startCopy_ends (j := j) hends
    refine ⟨hempty, ?_⟩
    intro hsize hfree hroom gen c s1
    have hc : e.newCopy d j = c := by
      unfold Env.newCopy e
      rw [envAt_benchNo, envAt_ref, envAt_acqBefore, envAt_arBefore]
      rfl
    have hends := htakes hsize hfree hroom
    unfold Env.registered at hends
    rwa [hc, envAt_benchNo] at hends
  refine ⟨?_, ?_⟩
  · simp only [List.forall_mem_cons, List.not_mem_nil, false_implies, implies_true, and_true]
    refine ⟨?_, ?_, ?_, ?_, ?_, ?_⟩
    all_goals exact fun hf hbehind hcheck => hok rfl (copyOp_starts rfl hf hbehind hcheck)
  · intro w d0 hf hdepth hctl hfield hpool hbounds hcourse hd
    have hstarts := caout_starts hf hdepth hctl hfield hpool hbounds hcourse
    exact hok rfl fun f hstart => hstarts f ((congrArg (Env.startCopy e reg) hd.symm).trans hstart)

/-- Settles O23: CPYQ's answer carries the handle's status and, without .poll, holds the group's memory instructions; CPYX's
request is held. -/
theorem copyQueryResult : Obligations.CopyQueryResult := by
  unfold Obligations.CopyQueryResult
  intro s g b x i e h poll
  refine ⟨fun hf => ?_, fun hf => ends_ext (k := _) rfl hf rfl⟩
  intro e1
  have hstatus : e.s.copyStatus e.benchNo h = s.copyStatus (benchOfCore g.core) h := congrArg (s.copyStatus · h) envAt_benchNo
  refine ends_ext (k := _) rfl hf ?_
  unfold e1
  rw [← hstatus]
  rfl

end Sys2Proof.Machine

namespace Sys2Proof.Machine

open Sys2Proof

/-! ## Content-addressed instructions at issue (R349 to R354) -/

section
variable {s : State} {g : Group} {b : Block} {x : Ext} {e e1 : Env} {n : Instr}

theorem holdEntries_of_room {r : Request} {dst : List Nat} {scope : Option Nat} (h : e.requestRoom r) :
    e.holdEntries r dst scope = .done (e.hold r dst scope false) :=
  if_neg (Nat.not_lt.mpr h)

/-- R336: a name that is 0 or has a pool is not refused for want of one. -/
theorem pooled_passes {v : W64} {owner : Nat} (h : v = 0 ∨ s.hasPool owner v.toNat = true) :
    ¬((v ≠ 0 && !s.hasPool owner v.toNat) = true) := by
  simpa using fun hne => h.resolve_left hne

@[simp] theorem envAt_caHashOf (i : IssueInfo) (kind : Bool) (c : List Byte) :
    (envAt i s g b).caHashOf kind c = nameHash (s.owner b.owner).nkey kind c := rfl

theorem caput_ends {c : List Byte} :
    let i : IssueInfo := { len := lenExt x, closing := true, mem := true, reads := true }
    let e := envAt i s g b
    let kind := x.imm8.getLsbD 0
    let hash := nameHash (s.owner b.owner).nkey kind c
    let r : Request := .caput kind c hash (BitVec.ofNat 64 g.arch.pc) (e.uCode x.d)
    Full 23 0 x (envOf s g b (lenExt x)) → e.caGather x = .ok c → e.caBehind x = false →
    (c.all (· = 0) = true ∨ s.hasPool b.owner (hash * 256) = true) → e.requestRoom r →
    Ends (.caput x) i s g b (e.hold r [e.uCode x.d] (some 4) false) := by
  intro i e kind hash r hf hgather hfree hpool hroom
  refine ends_ext (k := _) rfl hf ?_
  unfold e at hgather
  simp only [hgather]
  refine (if_neg (Bool.eq_false_iff.mp hfree)).trans ((if_neg ?_).trans (holdEntries_of_room hroom))
  simp only [Bool.and_eq_true, Bool.not_eq_true', not_and, Bool.not_eq_false]
  exact fun hne => hpool.resolve_left (Bool.eq_false_iff.mp hne)

theorem cahash_completes {c : List Byte} :
    let i : IssueInfo := { len := lenExt x, mem := true, reads := true }
    let e0 := envOf s g b (lenExt x)
    let kind := x.imm8.getLsbD 0
    let hash := nameHash (s.owner b.owner).nkey kind c
    Full 23 2 x e0 → (envAt i s g b).caGather x = .ok c → (envAt i s g b).caBehind x = false →
    Completes (.cahash x) i s g b
      (e0.putU (g.arch.past (lenExt x)) (x.d.toNat - 128) (BitVec.ofNat 64 (if c.all (· = 0) then 0
        else hash * 256 + (if hash = 0 && !kind then 4 else 0) + kindNat kind))) (e0.uCodes (x.d.toNat - 128)) := by
  intro i e0 kind hash hf hgather hfree
  refine setS64_passes_completes (k := _) (passes := 48) rfl hf ?_
  dsimp only
  rw [hgather]
  refine (if_neg (Bool.eq_false_iff.mp hfree)).trans ?_
  rw [envAt_caHashOf]

/-- What CAGET's registers are to receive of a line's contents (R351). -/
def cagetRegs (d : Nat) (c : List Byte) : List RegVal := (List.range 2).map fun j =>
  .v (d + j) (.ofSlots fun t => BitVec.ofNat 32 (leNat ((c.drop (8 * t + 4 * j)).take 4)))

theorem caget_null_ends :
    let i : IssueInfo := { len := lenExt x, mem := true, reads := true }
    let e0 := envOf s g b (lenExt x)
    Full 23 1 x e0 → e0.srcU x.lit x.a = 0 →
    Ends (.caget x) i s g b ((envAt i s g b).pendResult 1 (cagetRegs (e0.vIdx x.d.toNat) []) none) := by
  intro i e0 hf h0
  refine ends_ext (k := _) rfl hf ?_
  have hnull : ((envAt i s g b).srcU x.lit x.a).toNat = 0 := by
    rw [envAt_srcU]
    exact congrArg BitVec.toNat h0
  refine (if_pos hnull).trans ?_
  rw [envAt_vIdx]
  rfl

theorem caget_line_ends {l : CaLine} {p : Nat × Env} :
    let i : IssueInfo := { len := lenExt x, mem := true, reads := true }
    let e0 := envOf s g b (lenExt x)
    let v := e0.srcU x.lit x.a
    Full 23 1 x e0 → v ≠ 0 → s.hasPool b.owner v.toNat = true → s.caFind b.owner v.toNat = some l →
    (envAt i s g b).namePath v.toNat = p →
    Ends (.caget x) i s g b (p.2.pendResult p.1 (cagetRegs (e0.vIdx x.d.toNat) (s.caContent b.owner v.toNat l))
      ((envAt i s g b).poisonOf false [some (s.caPa b.owner v.toNat l.slot)] 256 [v.toNat])) := by
  intro i e0 v hf hne hpool hline hp
  obtain ⟨lat, e1⟩ := p
  refine ends_ext (k := _) rfl hf ?_
  have hv : (envAt i s g b).srcU x.lit x.a = v := envAt_srcU ..
  rw [hv, envAt_vIdx]
  refine (if_neg fun h => hne (BitVec.eq_of_toNat_eq h)).trans ((if_neg ?_).trans ?_)
  · simpa using hpool
  · rw [envAt_s, envAt_b, hline, hp]
    rfl

/-- CAPRB of the null name reads no line, and of another one its home slice (R352). -/
theorem caprb_ends :
    let i : IssueInfo := { len := lenExt x, mem := true, reads := true }
    let e0 := envOf s g b (lenExt x)
    let v := e0.srcU x.lit x.a
    Full 23 7 x e0 → (v = 0 ∨ s.hasPool b.owner v.toNat = true) →
    let p := if v = 0 then (1, envAt i s g b) else (envAt i s g b).namePath v.toNat
    Ends (.caprb x) i s g b
      ((p.2.setS64 (x.d.toNat - 128) (BitVec.ofNat 64 (s.caProbe b.owner v.toNat))).withPasses p.1) := by
  intro i e0 v hf hpool p
  refine ends_ext (k := _) rfl hf ?_
  have hv : (envAt i s g b).srcU x.lit x.a = v := envAt_srcU ..
  have hzero : (v.toNat = 0) = (v = 0) := by simp [BitVec.toNat_eq]
  have hpooled : v ≠ 0 → s.hasPool b.owner v.toNat = true := hpool.resolve_left
  rw [hv]
  simp only [hzero]
  refine (if_neg ?_).trans ?_
  · simpa [hzero] using hpooled
  · rfl

theorem countOp_ends {fn : Nat} {req : W64 → Request} (hx : exec n s = countOp fn x req s) :
    let i : IssueInfo := { len := lenExt x, mem := true }
    let e0 := envOf s g b (lenExt x)
    let v := e0.srcU x.lit x.a
    Full 23 fn x e0 → (v = 0 ∨ s.hasPool b.owner v.toNat = true) → (envAt i s g b).requestRoom (req v) →
    Ends n i s g b ((envAt i s g b).hold (req v) [] none false) := by
  intro i e0 v hf hpool hroom
  refine ends_ext hx hf ?_
  have hv : (envAt i s g b).srcU x.lit x.a = v := envAt_srcU ..
  rw [hv]
  exact (if_neg (pooled_passes hpool)).trans (holdEntries_of_room hroom)

theorem caswap_ends {pa : Nat} :
    let i : IssueInfo := { len := lenExt x, closing := true, mem := true, reads := true }
    let va := ((envOf s g b (lenExt x)).srcU x.lit x.a).toNat
    let r : Request := .caswap va pa (e1.srcU x.lit x.b) (e1.srcU x.lit x.c) (e1.uCode x.d)
    Full 23 5 x (envOf s g b (lenExt x)) → (envAt i s g b).placeSync true { slot := none, va, n := 8 } = .ok (pa, e1) →
    e1.requestRoom r → Ends (.caswap x) i s g b (e1.hold r [e1.uCode x.d] (some 4) false) := by
  intro i va r hf hplace hroom
  refine ends_ext (k := _) rfl hf ?_
  rw [congrArg BitVec.toNat (envAt_srcU ..)]
  simp only
  rw [hplace]
  exact holdEntries_of_room hroom

end

/-- Settles O24: each instruction's names have their pools and its request its room, so that it ends as its equation says. -/
theorem contentResult : Obligations.ContentResult := by
  unfold Obligations.ContentResult
  intro s g b x c l pa e1 ic ir im e0 kind hash free n pooled regs
  refine ⟨?_, cahash_completes, fun hf => ⟨?_, ?_⟩, ?_, ?_, caswap_ends⟩
  · exact fun hf hgather hfree hpool hroom => caput_ends hf hgather hfree hpool hroom
  · exact caget_null_ends hf
  · exact fun hne hpool hline => caget_line_ends hf hne hpool hline rfl
  · exact caprb_ends
  · simp only [List.forall_mem_cons, List.not_mem_nil, false_implies, implies_true, and_true]
    exact ⟨countOp_ends rfl, countOp_ends rfl⟩

end Sys2Proof.Machine

namespace Sys2Proof.Machine

open Sys2Proof

/-! ## Requests of the synchronisation family at issue (R382 to R388, R390) -/

section
variable {s : State} {g : Group} {b : Block} {x : Ext} {u : Usage} {pas : List Nat} {pa : Nat} {e1 : Env} {n : Instr}

theorem atom_ends :
    let ret := x.imm8.getLsbD 7
    let i : IssueInfo := { len := lenExt x, closing := ret, mem := true, reads := true }
    let e := envAt i s g b
    let e0 := envOf s g b (lenExt x)
    let scope := x.imm8.toNat / 16 % 8
    let grp := codeIsS x.d.toNat
    let w := if x.sat then 8 else 4
    let on := if grp then [0] else slots.filter fun i => e.active x i
    let slotOf (i : Nat) : Option Nat := if grp then none else some i
    let lanes := (on.zip pas).map fun p =>
      (slotOf p.1, p.2, BitVec.ofNat 64 (e1.baseAt x p.1), e1.atomArg x x.b p.1, e1.atomArg x x.c p.1)
    let dst := if grp then e1.uCode x.d else e1.vIdx x.d.toNat
    let r : Request := .atom (x.imm8.toNat % 16) x.sat scope ret lanes (if ret then some dst else none) (!grp)
    usage 24 0 x = some u → e0.blocked (srcCodes u x) (if ret then dstCodes u x else []) = none →
    e.placeSyncAll true (on.map fun i => { slot := slotOf i, va := e.baseAt x i, n := w }) = .ok (pas, e1) →
    e1.requestRoom r →
    Ends (.atom x) i s g b
      ((if ret && !grp then e1.withPasses 8 else e1).hold r (if !ret then [] else if grp then [dst] else codes dst (w / 4))
        (if ret then some scope else none) false) := by
  intro ret i e e0 scope grp w on slotOf lanes dst r hu hblocked hplaces hroom
  have hx : exec (.atom x) s = execAtom x s := rfl
  unfold execAtom at hx
  refine ends_of hx ?_
  simp only [hu]
  rw [whenFull_done ((envAt_blocked ..).trans hblocked)]
  unfold on e w slotOf grp at hplaces
  simp only [hplaces]
  have hroom' : (if ret && !grp then e1.withPasses 8 else e1).requestRoom r := by
    split
    · exact hroom
    · exact hroom
  exact holdEntries_of_room hroom'

theorem waitc_ends :
    let i : IssueInfo := { len := lenExt x, closing := true, mem := true, reads := true }
    let e := envAt i s g b
    let e0 := envOf s g b (lenExt x)
    let scope := x.imm8.toNat / 16 % 8
    let va := (e0.srcU x.lit x.a).toNat
    let timeout := if x.e = 0 then 0 else (e.srcU x.lit x.e).toNat % 2 ^ 32
    Full 24 1 x e0 → e0.blocked (if x.e = 0 then [] else [(x.e.toNat, false)]) [] = none →
    ¬(x.imm8.toNat % 8 = 7 ∧ timeout = 0) →
    e.placeSync false { slot := none, va, n := if x.imm8.getLsbD 3 then 8 else 4 } = .ok (pa, e1) →
    Ends (.waitc x) i s g b (e1.hold (.waitc va pa (x.imm8.toNat % 8) (x.imm8.getLsbD 3) scope (e1.srcU x.lit x.b)
      (e1.srcU x.lit x.c) timeout (e1.uCode x.d)) [e1.uCode x.d] (some scope) true) := by
  intro i e e0 scope va timeout hf hblocked htimeout hplace
  refine ends_ext (k := _) rfl hf ?_
  simp only
  rw [whenFull_done (by simpa using hblocked)]
  refine (if_neg ?_).trans ?_
  · simp only [Bool.and_eq_true, decide_eq_true_eq]
    exact htimeout
  · rw [congrArg BitVec.toNat (envAt_srcU ..), hplace]

theorem lockOp_ends {fn : Nat} {waiting : Bool} {req : Nat → Nat → Nat → Request} (hx : exec n s = lockOp fn x waiting req s) :
    let i : IssueInfo := { len := lenExt x, closing := true, mem := true, reads := waiting }
    let scope := x.imm8.toNat / 16 % 8
    let va := ((envOf s g b (lenExt x)).srcU x.lit x.a).toNat
    Full 24 fn x (envOf s g b (lenExt x)) → (envAt i s g b).placeSync true { slot := none, va, n := 8 } = .ok (pa, e1) →
    Ends n i s g b (e1.hold (req va pa scope) [] (some scope) waiting) := by
  intro i scope va hf hplace
  refine ends_ext hx hf ?_
  rw [congrArg BitVec.toNat (envAt_srcU ..)]
  simp only
  rw [hplace]

end

/-- Settles O25: the accesses have found their places, and the requests wait for the commit (`atom_ends`, `waitc_ends`,
`lockOp_ends`). -/
theorem syncResult : Obligations.SyncResult := by
  unfold Obligations.SyncResult
  intro s g b x u pas pa e1 ret ia ic e0 scope va
  refine ⟨atom_ends, waitc_ends, ?_⟩
  simp only [List.forall_mem_cons, List.not_mem_nil, false_implies, implies_true, and_true]
  exact ⟨lockOp_ends rfl, lockOp_ends rfl⟩

end Sys2Proof.Machine

namespace Sys2Proof.Machine

open Sys2Proof

/-! ## Order at issue: FENCE, PROMOTE, barriers and courses (R369, R371, R390 to R401) -/

section
variable {s : State} {g : Group} {b : Block} {x : Ext} {ps : List (Option Nat)} {e1 : Env} {n : Instr}

theorem envAt_relMark (i : IssueInfo) : (envAt i s g b).g.relMark = g.relMark := by
  rw [envAt_g]
  unfold Group.atIssue
  cases g.opensFor i <;> rfl

/-- The three marks of FENCE, each of them its own choice. -/
theorem fence_marks (g : Group) {rel acq : Bool} {prel pacq ar : Prop} [Decidable prel] [Decidable pacq] [Decidable ar]
    (hrel : rel = decide prel) (hacq : acq = decide pacq) (m : Nat × Nat) (scope : Nat) :
    let g1 := if rel then { g with relMark := tput g.relMark scope m } else g
    let g2 := if acq then { g1 with acqBefore := some m.1 } else g1
    (if ar then { g2 with arBefore := tput g2.arBefore scope m } else g2) =
      { g with relMark := if prel then tput g.relMark scope m else g.relMark,
               acqBefore := if pacq then some m.1 else g.acqBefore,
               arBefore := if ar then tput g.arBefore scope m else g.arBefore } := by
  subst hrel hacq
  by_cases hp : prel <;> by_cases hq : pacq <;> by_cases hr : ar <;> simp [hp, hq, hr]

theorem fence_ends :
    let i : IssueInfo := { len := lenExt x, mem := true }
    let e := envAt i s g b
    let scope := x.imm8.toNat / 16 % 8
    let kind := x.imm8.toNat % 4
    Full 24 4 x (envOf s g b (lenExt x)) →
    Ends (.fence x) i s g b { e with g := { e.g with
      relMark := if kind = 1 ∨ kind = 3 then tput g.relMark scope (s.nextId, s.gtc) else g.relMark,
      acqBefore := if kind = 2 ∨ kind = 3 then some s.nextId else g.acqBefore,
      arBefore := if kind = 3 then tput g.arBefore scope (s.nextId, s.gtc) else g.arBefore } } := by
  intro i e scope kind hf
  have hx : exec (.fence x) s = execFence x s := rfl
  unfold execFence at hx
  refine ends_ext hx hf ?_
  rw [← envAt_relMark i, ← envAt_acqBefore i s g b, ← envAt_arBefore i s g b]
  exact congrArg (fun g' => Res.done { e with g := g' })
    (fence_marks e.g (by simp [kind]) (by simp [kind]) (s.nextId, s.gtc) scope)

theorem promote_ends {p : Nat × Env} {e2 : Env} :
    let i : IssueInfo := { len := lenExt x, reads := true }
    let w := if x.imm8.getLsbD 0 then 8 else 4
    let a := ((envOf s g b (lenExt x)).srcU x.lit x.a).toNat
    Full 24 5 x (envOf s g b (lenExt x)) →
    (envAt i s g b).placeAll false false w [{ slot := none, va := a, n := w }] = .ok (ps, e1) →
    e1.behindAtom false ps w = false → e1.promoHeld ((ps.headD none).getD 0) w = false →
    e1.readPath false ps w = p →
    p.2.pendResult p.1 [.u (e1.uCode x.d - 128)
      (BitVec.ofNat 64 (e1.valueAt false (e1.ownQueue false) w (ps.headD none)))] (e1.poisonOf false ps w [a]) = e2 →
    Ends (.promote x) i s g b { e2 with g := { e2.g with stall := some p.2.s.nextId } } := by
  intro i w a hf hplaces hbehind hheld hp he
  obtain ⟨lat, e3⟩ := p
  have hx : exec (.promote x) s = execPromote x s := rfl
  unfold execPromote at hx
  refine ends_ext hx hf ?_
  rw [congrArg BitVec.toNat (envAt_srcU ..)]
  simp only
  rw [hplaces]
  refine (if_neg ?_).trans ?_
  · rw [hbehind, hheld]
    decide
  · rw [hp, ← he]

theorem barOp_ends {fn scope : Nat} {most : Env → Nat} {req : Nat → Nat → Request} {check : Env → Option Trap}
    (hx : exec n s = barOp fn x most req scope check s) :
    let i : IssueInfo := { len := lenExt x, closing := true, mem := true }
    let e := envAt i s g b
    let form := x.imm8.toNat / 16 % 4
    let count := if x.a = 0 ∨ form = 2 then 0 else ((envOf s g b (lenExt x)).srcU x.lit x.a).toNat
    Full 24 fn x (envOf s g b (lenExt x)) → check e = none → count ≤ most e →
    Ends n i s g b (e.hold (req form count) [] (some scope) (form ≠ 1)) := by
  intro i e form count hf hcheck hcount
  refine ends_ext hx hf ?_
  rw [congrArg BitVec.toNat (envAt_srcU ..)]
  simp only [Bool.or_eq_true, decide_eq_true_eq]
  rw [hcheck]
  exact if_neg (Nat.not_lt.mpr hcount)

/-- R398: the sixteen bytes of the header and eight for each stage, as CSINI writes them. -/
theorem csini_ends :
    let i : IssueInfo := { len := lenExt x, writes := true }
    let e0 := envOf s g b (lenExt x)
    let a := (e0.srcU x.lit x.a).toNat
    let v := (e0.srcU x.lit x.b).toNat
    let m := v % 32
    let arr := v / 2 ^ 8 % 256
    let rel := v / 2 ^ 16 % 256
    let o := a + e0.benchShift
    let img : List Nat := [m, arr, rel, 0xC5] ++ List.replicate 12 0 ++
      (List.range m).flatMap fun _ => [arr, rel, 0, 0, 0, 0, 0, 0]
    let ws := img.zipIdx.map fun c => (o + c.2, BitVec.ofNat 8 c.1)
    Full 24 8 x e0 → a % 16 = 0 → v = m + arr * 2 ^ 8 + rel * 2 ^ 16 → 2 ≤ m → m ≤ 16 → arr ≠ 0 → rel ≠ 0 →
    a + (16 + 8 * m) ≤ e0.kernel.benchMem → o / 524288 = (o + (16 + 8 * m) - 1) / 524288 →
    (envAt i s g b).queueRoom true ws → Ends (.csini x) i s g b ((envAt i s g b).queued true ws) := by
  intro i e0 a v m arr rel o img ws hf halign hv hm hm16 harr hrel hfits hbank hroom
  refine ends_ext (k := _) rfl hf ?_
  have ha : ((envAt i s g b).srcU x.lit x.a).toNat = a := congrArg BitVec.toNat (envAt_srcU ..)
  have hb : ((envAt i s g b).srcU x.lit x.b).toNat = v := congrArg BitVec.toNat (envAt_srcU ..)
  have ho : (envAt i s g b).benchShift = e0.benchShift := envAt_benchShift ..
  rw [ha, hb, ho]
  have hshape : ¬(decide (v ≠ m + arr * 2 ^ 8 + rel * 2 ^ 16) || decide (m < 2) || decide (16 < m) || decide (arr = 0) ||
      decide (rel = 0)) = true := by
    simp only [Bool.or_eq_true, decide_eq_true_eq]
    omega
  refine (if_neg (not_not.mpr halign)).trans ((if_neg hshape).trans ((if_neg (Nat.not_lt.mpr hfits)).trans
    ((if_neg (not_not.mpr hbank)).trans ?_)))
  exact queueWrites_of_room hroom

/-- CSARV, CSWT and CSREL of a course that is well formed. -/
theorem courseOp_ends {fn m : Nat} {i : IssueInfo} {k : Env → Nat → Nat → Nat → Res} {e : Env}
    (hx : exec n s = courseOp fn x i k s) (hf : Full 24 fn x (envOf s g b i.len)) (hcourse : (envAt i s g b).isCourse x m) 
    (hk : k (envAt i s g b) (((envOf s g b i.len).srcU x.lit x.a).toNat + (envOf s g b i.len).benchShift) m
      (((envOf s g b i.len).srcU x.lit x.b).toNat % 2 ^ 32) = .done e) : Ends n i s g b e := by
  refine ends_ext hx hf ?_
  unfold Env.isCourse at hcourse
  simp only
  rw [hcourse, envAt_srcU, envAt_srcU, envAt_benchShift]
  exact hk

end

/-- R400: a group whose phase holds passes. -/
theorem cswt_completes {m : Nat} :
    let i : IssueInfo := { len := lenExt x, reads := true }
    let e0 := envOf s g b (lenExt x)
    let e := envAt i s g b
    let r := (e0.srcU x.lit x.b).toNat % 2 ^ 32
    let q := (e0.srcU x.lit x.a).toNat + e0.benchShift + 18 + 8 * (r % m)
    let ph := e.valueAt true (e.ownQueue true) 1 (some q)
    Full 24 10 x e0 → e.isCourse x m → e.behindAtom true [some q] 1 = false →
    (if x.imm8.getLsbD 0 then ph / 2 % 2 = r / m % 2 else ph % 2 = (r / m + 1) % 2) →
    Completes (.cswt x) i s g b (g.arch.past (lenExt x)) [] := by
  intro i e0 e r q ph hf hcourse hfree hphase
  have hx : exec (.cswt x) s = execCswt x s := rfl
  unfold execCswt courseOp at hx
  refine ext_completes (e := e) hx hf ?_ rfl rfl ?_
  · unfold Env.isCourse at hcourse
    simp only
    rw [hcourse, envAt_srcU, envAt_srcU, envAt_benchShift]
    exact (if_neg (Bool.eq_false_iff.mp hfree)).trans (if_pos hphase)
  · exact envAt_wrote ..

/-- Settles O26: each instruction's checks pass, so that it ends as its equation says. -/
theorem orderResult : Obligations.OrderResult := by
  unfold Obligations.OrderResult
  intro s g b x ps e1 n len ifen ir iw ic e0 scope kind a
  refine ⟨fence_ends, ?_, ⟨?_, ?_⟩, csini_ends, ?_, ?_, cswt_completes⟩
  · intro w hf hplaces hbehind hheld p e2
    exact promote_ends (p := p) (e2 := e2) hf hplaces hbehind hheld rfl rfl
  · intro hf hcount
    exact barOp_ends (fn := 6) (scope := 1) (req := .bar (x.imm8.toNat % 16)) (most := fun e => e.b.kernel.groups)
      (check := fun _ => none) rfl hf rfl hcount
  · intro hf hresident hcount
    have href : (envAt ic s g b).g.ref = g.ref := envAt_ref ..
    refine barOp_ends (fn := 7) (most := Env.launchGroups)
      (check := fun e => if (e.s.tcb e.g.ref.task).coresident then none else some { code := 22 }) rfl hf ?_ ?_
    · exact if_pos (by rwa [href])
    · unfold Env.launchGroups
      rwa [href]
  · intro hf hcourse
    have hx : exec (.csarv x) s = execCsarv x s := rfl
    unfold execCsarv at hx
    exact courseOp_ends hx hf hcourse rfl
  · intro hf hcourse hroom
    have hx : exec (.csrel x) s = execCsrel x s := rfl
    unfold execCsrel at hx
    exact courseOp_ends hx hf hcourse (holdEntries_of_room hroom)

end Sys2Proof.Machine

namespace Sys2Proof.Machine

open Sys2Proof

/-! ## The matrix engine at issue (R259 to R281) -/

section
variable {s : State} {g : Group} {b : Block} {x : Ext} {f : MxFmt} {ps : List Nat} {e e1 : Env} {n : Instr}

theorem place_walked (e : Env) (store bm : Bool) (align : Nat) (a : Access) :
    e.s.Walked (e.placed (e.place store bm align a)).s := by
  have hwalk := placeScr_walked e.s (.core e.g.core) e.b.owner (!store) store a.va
  unfold Env.place
  simp only
  split
  · exact .refl _
  · split
    · split
      · exact .refl _
      · split <;> exact .refl _
    · split
      case h_1 x hx =>
        rw [hx] at hwalk
        exact hwalk
      case h_2 pa s' hx =>
        rw [hx] at hwalk
        split <;> exact hwalk

theorem placeAll_walked {store bm : Bool} {align : Nat} {as : List Access} {qs : List (Option Nat)}
    (h : e.placeAll store bm align as = .ok (qs, e1)) : e.s.Walked e1.s := by
  induction as generalizing e qs with
  | nil => cases h; exact .refl _
  | cons a as ih =>
    have hplace := place_walked e store bm align a
    unfold Env.placeAll at h
    split at h
    case h_1 x hx =>
      rw [hx] at hplace
      split at h
      · split at h
        · cases h
        case h_2 hrest => cases h; exact hplace.trans (ih hrest)
      · cases h
    case h_2 p e2 hx =>
      rw [hx] at hplace
      split at h
      · cases h
      case h_2 hrest => cases h; exact hplace.trans (ih hrest)

theorem placeChunks_walked {store bm : Bool} {cs : List (Nat × Nat)} (h : e.placeChunks store bm cs = .ok (ps, e1)) :
    e.s.Walked e1.s := by
  induction cs generalizing e ps with
  | nil => cases h; exact .refl _
  | cons c cs ih =>
    unfold Env.placeChunks at h
    split at h
    · cases h
    case h_2 hfirst =>
      split at h
      · cases h
      case h_2 hrest => cases h; exact (placeAll_walked hfirst).trans (ih hrest)

/-- Chunks that have found their places leave all but the state, in which their walks stand. -/
theorem placeChunks_eq {store bm : Bool} {cs : List (Nat × Nat)} (h : e.placeChunks store bm cs = .ok (ps, e1)) :
    e1 = e.setS e1.s := by
  induction cs generalizing e ps with
  | nil => cases h; rfl
  | cons c cs ih =>
    unfold Env.placeChunks at h
    split at h
    · cases h
    case h_2 hfirst =>
      split at h
      · cases h
      case h_2 hrest =>
        cases h
        rw [placeAll_eq hfirst] at hrest
        exact (ih hrest).trans rfl

theorem placeChunks_g {store bm : Bool} {cs : List (Nat × Nat)} (h : e.placeChunks store bm cs = .ok (ps, e1)) : e1.g = e.g := by
  rw [placeChunks_eq h]
  rfl

theorem walked_core {t : State} (h : s.Walked t) (k : Nat) : t.core k = s.core k := by
  rw [← h]
  rfl

theorem ofSlots_congr {f g : Nat → W32} (h : ∀ t < 32, f t = g t) : VVal.ofSlots f = VVal.ofSlots g :=
  congrArg VVal.g (List.map_congr_left fun t ht => h t (List.mem_range.mp ht))

theorem mxWrite_ready {reads writes : List Nat} {k : Core → Core} {after : Env → Res} (h : e.mxReady reads writes) :
    e.mxWrite reads writes k after = after (e.mxWrote writes k) := by
  obtain ⟨hheld, hfree⟩ := h
  unfold Env.mxWrite
  rw [hheld, hfree]
  rfl

theorem mma_ends :
    let i : IssueInfo := { len := lenExt x, role := some 1 }
    let e := envAt i s g b
    let c := s.core g.core
    let imm := x.imm8.toNat
    let reads := [8 + imm / 8 % 2, 10 + imm / 16] ++
      (if (!f.bsp && takesPair f.b.fmt f.k) = true then [11 + imm / 16] else []) ++ (if f.b.fmt = 10 then [26] else [])
    let on (r : Nat) : Bool := e.active x (r / 2)
    Full 25 0 x (envOf s g b (lenExt x)) → e.mxBlock x.a = .ok f → mmaTrap c f (imm / 8 % 2) (imm / 16) = none →
    ((slots.all fun t => !e.active x t) = true → e.mxHeld reads = false → Ends (.mma x) i s g b e.mxWorked) ∧
    ((slots.all fun t => !e.active x t) = false → e.mxHeld reads = false → e.mxReady reads [imm % 8] →
      Ends (.mma x) i s g b (e.mxWrote [imm % 8] fun c =>
        c.setTile (imm % 8) (mmaTile c s.freeCtr f (imm / 8 % 2) (imm / 16) (imm % 8) on)).mxWorked) := by
  intro i e c imm reads on hf hblock htrap
  have hx : exec (.mma x) s = execMma x s := rfl
  unfold execMma mxOp at hx
  have hslots : mmaTrap (e.s.core e.g.core) f (imm / 8 % 2) (imm / 16) = none := by
    unfold e
    rwa [envAt_core]
  have hends {e' : Env} (hheld : e.mxHeld reads = false)
      (hk : (if slots.all fun i => !e.active x i then .done e.mxWorked
        else e.mxWrite reads [imm % 8] (fun c => c.setTile (imm % 8) (mmaTile c e.s.freeCtr f (imm / 8 % 2) (imm / 16) (imm % 8) on))
          fun e => .done e.mxWorked) = .done e') : Ends (.mma x) i s g b e' := by
    refine ends_ext hx hf ?_
    simp only
    rw [hblock]
    refine (if_neg (Bool.eq_false_iff.mp hheld)).trans ?_
    rw [hslots]
    exact hk
  refine ⟨fun hall hheld => hends hheld (if_pos hall), fun hall hheld hready => hends hheld ?_⟩
  exact (if_neg (Bool.eq_false_iff.mp hall)).trans (mxWrite_ready hready)

theorem mzero_ends :
    let i : IssueInfo := { len := lenExt x, role := some 1 }
    let e := envAt i s g b
    let imm := x.imm8.toNat
    Full 25 4 x (envOf s g b (lenExt x)) → e.mxReady [] [imm % 8] →
    Ends (.mzero x) i s g b (e.mxWrote [imm % 8] fun c => c.setTile (imm % 8) []) := by
  intro i e imm hf hready
  have hx : exec (.mzero x) s = execMzero x s := rfl
  unfold execMzero mxOp at hx
  exact ends_ext hx hf (mxWrite_ready hready)

theorem mscl_ends :
    let i : IssueInfo := { len := lenExt x, role := some 1 }
    let e := envAt i s g b
    let imm := x.imm8.toNat
    Full 25 9 x (envOf s g b (lenExt x)) → e.mxReady [imm / 8 % 8] [imm % 8] →
    Ends (.mscl x) i s g b (e.mxWrote [imm % 8] fun c => c.setTile (imm % 8) (ofDense ((denseOf (c.tile (imm / 8 % 8)) 0 4096).map
      (msclElem (mxMode x.rm) (x.imm8.getLsbD 6) (e.srcS32 (.flt .f32) x.lit x.a))))) := by
  intro i e imm hf hready
  have hx : exec (.mscl x) s = execMscl x s := rfl
  unfold execMscl mxOp at hx
  exact ends_ext hx hf (mxWrite_ready hready)

theorem mwr_ends :
    let i : IssueInfo := { len := lenExt x, role := some 1 }
    let e := envAt i s g b
    let imm := x.imm8.toNat
    let on := slots.filter fun t => e.active x t
    let put (c : Core) : Core := c.setTile (imm % 8) (on.foldl (fun t r => (List.range 8).foldl (fun t k =>
      tset 0 t (64 * (2 * r + imm / 8 % 2) + 8 * (imm / 16 % 8) + k) ((e.vval (x.a.toNat + k)).slot r)) t) (c.tile (imm % 8)))
    Full 25 6 x (envOf s g b (lenExt x)) →
    (on = [] → e.mxHeld [imm % 8] = false → Ends (.mwr x) i s g b (e.withPasses 8)) ∧
    (on ≠ [] → e.mxReady [] [imm % 8] → Ends (.mwr x) i s g b ((e.mxWrote [imm % 8] put).withPasses 8)) := by
  intro i e imm on put hf
  have hx : exec (.mwr x) s = execMwr x s := rfl
  unfold execMwr mxOp at hx
  refine ⟨fun hon hheld => ends_ext hx hf ?_, fun hon hready => ends_ext hx hf ?_⟩
  · exact (if_pos (List.isEmpty_iff.mpr hon)).trans (if_neg (Bool.eq_false_iff.mp hheld))
  · exact (if_neg fun h => hon (List.isEmpty_iff.mp h)).trans (mxWrite_ready hready)

/-- What MRD's registers receive of the tile, eight elements of a row for each slot or four pairs of halves (R278). -/
theorem mrd_ends :
    let i : IssueInfo := { len := lenExt x, role := some 1 }
    let e := envAt i s g b
    let c := s.core g.core
    let imm := x.imm8.toNat
    let row (t : Nat) : List W32 := c.eight (imm % 8) (2 * t + imm / 8 % 2) (imm / 16 % 8)
    let half (t k : Nat) : Nat := mxConvert 1 (mxMode x.rm) x.sat ((row t).getD k 0)
    let val (j t : Nat) : W32 :=
      if x.imm8.getLsbD 7 then BitVec.ofNat 32 (half t (2 * j) + half t (2 * j + 1) * 65536) else (row t).getD j 0
    Full 25 5 x (envOf s g b (lenExt x)) → e.mxHeld [imm % 8] = false →
    Ends (.mrd x) i s g b ((e.pendResult 12 ((List.range (if x.imm8.getLsbD 7 then 4 else 8)).map fun j =>
      .v (e.vIdx (x.d.toNat + j)) (.ofSlots fun t =>
        if e.parts x t then val j t else (e.vOld (x.d.toNat + j)).slot t)) none).withPasses 8) := by
  intro i e c imm row half val hf hheld
  have hx : exec (.mrd x) s = execMrd x s := rfl
  unfold execMrd mxOp at hx
  refine ends_ext hx hf ((if_neg (Bool.eq_false_iff.mp hheld)).trans ?_)
  have hcore : (envAt i s g b).s.core (envAt i s g b).g.core = c := by
    rw [envAt_core]
    rfl
  rw [hcore]
  refine congrArg (fun r => Res.done ((e.pendResult 12 r none).withPasses 8)) (List.map_congr_left fun j _ => ?_)
  refine congrArg (RegVal.v _) (ofSlots_congr fun t ht => ?_)
  simp only [getD_slots_map _ _ ht]
  rfl

theorem mcmp_ends :
    let i : IssueInfo := { len := lenExt x, role := some 1 }
    let e := envAt i s g b
    let y := x.imm8.toNat % 16
    let pair := takesPair f.b.fmt f.k
    let items := (10 + y) :: (if pair then [11 + y] else [])
    let sl := (s.core g.core).slot (2 + y)
    Full 25 8 x (envOf s g b (lenExt x)) → e.mxBlock x.a = .ok f → f.bsp = true →
    sl.state = 2 → sl.fmt = f.b.fmt → sl.len32 = f.b.len32 → sl.scaled = f.b.scaled → ¬(pair = true ∧ y % 2 = 1) →
    e.mxHeld [10 + y] = false → e.mxReady [] items →
    Ends (.mcmp x) i s g b (e.mxWrote items fun c =>
      let c1 := c.setSlot (2 + y) (sl.compress s.freeCtr f.k)
      if pair then c1.setSlot (3 + y) {} else c1) := by
  intro i e y pair items sl hf hblock hbsp hstate hfmt hlen hscaled hpair hheld hready
  have hx : exec (.mcmp x) s = execMcmp x s := rfl
  unfold execMcmp mxOp at hx
  have hsl : (e.s.core e.g.core).slot (2 + y) = sl := by
    unfold e
    rw [envAt_core]
    rfl
  refine ends_ext hx hf ?_
  simp only
  rw [hblock]
  refine (if_neg (by simp [hbsp])).trans ((if_neg (Bool.eq_false_iff.mp hheld)).trans ?_)
  rw [show ((envAt i s g b).s.core (envAt i s g b).g.core).slot (2 + x.imm8.toNat % 16) = sl from hsl]
  refine (if_neg ?_).trans ((if_neg ?_).trans (mxWrite_ready hready))
  · simp only [hstate, Bool.or_eq_true, Bool.and_eq_true, decide_eq_true_eq]
    exact fun h => h.elim (by decide) hpair
  · simp [hstate, hfmt, hlen, hscaled]

theorem mst_ends :
    let i : IssueInfo := { len := lenExt x, role := some 1, writes := true }
    let e := envAt i s g b
    let imm := x.imm8.toNat
    let eb := mstBytes (imm / 16)
    let bm := !x.imm8.getLsbD 3
    let ws := (ps.flatMap fun p => codes p 16).zip ((denseOf ((s.core g.core).tile (imm % 8)) 0 4096).flatMap fun v =>
      leBytes eb (mstElem (imm / 16) (mxMode x.rm) x.sat v))
    let rows := (List.range 64).map fun m => e1.rowEntries bm ((ws.drop (64 * eb * m)).take (64 * eb))
    let c1 := e1.s.core g.core
    let st : RowStore :=
      { g := g.ref, region := (match e1.g.regions.getLast? with | some r => r.seq | none => 0), rows }
    Full 25 7 x (envOf s g b (lenExt x)) → e.eaU x % 16 = 0 → e.stride x % 16 = 0 → e.mxHeld [imm % 8] = false →
    e.placeChunks true bm (rowChunks (e.eaU x) (e.stride x) (64 * eb)) = .ok (ps, e1) →
    Ends (.mst x) i s g b (e1.setS (e1.s.setCore g.core { c1 with stores := c1.stores ++ [st] })) := by
  intro i e imm eb bm ws rows c1 st hf hbase hstride hheld hplaces
  have hx : exec (.mst x) s = execMst x s := rfl
  unfold execMst mxOp Env.mxBase at hx
  refine ends_ext hx hf ?_
  refine (if_neg ?_).trans ((if_neg (Bool.eq_false_iff.mp hheld)).trans ?_)
  · simp only [Bool.or_eq_true, decide_eq_true_eq, not_or, not_not]
    exact ⟨hbase, hstride⟩
  · simp only
    rw [hplaces]
    have hcore : e1.s.core g.core = s.core g.core := walked_core (placeChunks_walked hplaces) _
    have hg : e1.g.core = g.core ∧ e1.g.ref = g.ref := by
      rw [placeChunks_g hplaces]
      exact ⟨envAt_core .., envAt_ref ..⟩
    unfold st rows ws c1
    simp only [hg, hcore]
    rfl

end

/-- Settles O27: nothing is held and the copies are free, so that each instruction ends with what it writes. -/
theorem matrixResult : Obligations.MatrixResult := by
  unfold Obligations.MatrixResult
  intro s g b x f ps e1 i iw e0 e c imm
  refine ⟨?_, mzero_ends, mscl_ends, mrd_ends, mwr_ends, ?_, ?_⟩
  · exact fun hf hblock htrap => mma_ends hf hblock htrap
  · exact fun hf hblock hbsp hstate hfmt hlen hscaled hpair hheld hready =>
      mcmp_ends hf hblock hbsp hstate hfmt hlen hscaled hpair hheld hready
  · exact mst_ends

end Sys2Proof.Machine

namespace Sys2Proof.Machine

open Sys2Proof

/-! ## Loads of the matrix engine (R274, R275) -/

section
variable {s : State} {g : Group} {b : Block} {x : Ext} {f : MxFmt} {ps : List Nat} {e e1 : Env} {n : Instr}

/-- A matrix load whose chunks are placed and carry no poison goes on with its bytes. -/
theorem mxLoad_reads {bm : Bool} {cs ss : List (Nat × Nat)} {k : Env → List Byte → Res} {p q : Nat × Env} :
    let data := (ps.take cs.length).map some
    let scales := (ps.drop cs.length).map some
    e.placeChunks false bm (cs ++ ss) = .ok (ps, e1) → e1.behindAtom bm data 16 = false → e1.behindAtom bm scales 1 = false →
    e1.readPath bm data 16 = p → p.2.readPath bm scales 1 = q →
    q.2.poisonOf bm data 16 (cs.map (·.1)) = none → q.2.poisonOf bm scales 1 (ss.map (·.1)) = none →
    e.mxLoad bm cs ss k = k (q.2.pendResult (max p.1 q.1) [] none) (e1.readChunks bm (e1.ownQueue bm) (cs ++ ss) ps) := by
  intro data scales hplaces hdata hscales hp hq hclean hclean'
  obtain ⟨lat, e2⟩ := p
  obtain ⟨lat', e3⟩ := q
  unfold Env.mxLoad
  rw [hplaces]
  refine (if_neg ?_).trans ?_
  · rw [hdata, hscales]
    decide
  · dsimp only at hq hclean hclean'
    simp only
    rw [hp]
    simp only
    rw [hq]
    simp only
    rw [hclean, hclean']
    rfl

/-- Nothing is held, before and after the read: the engine is written (R261, R274). -/
theorem mxLoad_writes {bm : Bool} {cs ss : List (Nat × Nat)} {items : List Nat} {k : List Byte → Core → Core} :
    let data := (ps.take cs.length).map some
    let scales := (ps.drop cs.length).map some
    e.placeChunks false bm (cs ++ ss) = .ok (ps, e1) → e1.behindAtom bm data 16 = false → e1.behindAtom bm scales 1 = false →
    let p := e1.readPath bm data 16
    let q := p.2.readPath bm scales 1
    q.2.poisonOf bm data 16 (cs.map (·.1)) = none → q.2.poisonOf bm scales 1 (ss.map (·.1)) = none →
    let e2 := q.2.pendResult (max p.1 q.1) [] none
    e2.mxReady [] items →
    e.mxLoad bm cs ss (fun e bytes => e.mxWrite [] items (k bytes) .done) =
      .done (e2.mxWrote items (k (e1.readChunks bm (e1.ownQueue bm) (cs ++ ss) ps))) := by
  intro data scales hplaces hdata hscales p q hclean hclean' e2 hready
  exact (mxLoad_reads hplaces hdata hscales rfl rfl hclean hclean').trans (mxWrite_ready hready)

/-- R274: what an engine load that nothing holds leaves. -/
def LoadEnds (n : Instr) (i : IssueInfo) (s : State) (g : Group) (b : Block) (e e1 : Env) (ps : List Nat) (bm : Bool)
    (items : List Nat) (cs ss : List (Nat × Nat)) (k : List Byte → Core → Core) : Prop :=
  let data := (ps.take cs.length).map some
  let scales := (ps.drop cs.length).map some
  e.mxReady [] items → e.placeChunks false bm (cs ++ ss) = .ok (ps, e1) →
  e1.behindAtom bm data 16 = false → e1.behindAtom bm scales 1 = false →
  let p := e1.readPath bm data 16
  let q := p.2.readPath bm scales 1
  q.2.poisonOf bm data 16 (cs.map (·.1)) = none → q.2.poisonOf bm scales 1 (ss.map (·.1)) = none →
  let e2 := q.2.pendResult (max p.1 q.1) [] none
  e2.mxReady [] items →
  Ends n i s g b (e2.mxWrote items (k (e1.readChunks bm (e1.ownQueue bm) (cs ++ ss) ps)))

/-- The wait for holds and copies before a load is passed. -/
theorem load_ends {maj fn : Nat} {i : IssueInfo} {k : Env → Res} {bm : Bool} {items : List Nat} {cs ss : List (Nat × Nat)}
    {w : List Byte → Core → Core} (hx : exec n s = issueExt maj fn x i k s) (hf : Full maj fn x (envOf s g b i.len))
    (hk : k (envAt i s g b) = if (envAt i s g b).mxHeld items || !(envAt i s g b).mxFree items then .wait .empty
      else (envAt i s g b).mxLoad bm cs ss fun e bytes => e.mxWrite [] items (w bytes) .done) :
    LoadEnds n i s g b (envAt i s g b) e1 ps bm items cs ss w := by
  unfold LoadEnds
  intro data scales hready hplaces hdata hscales p q hclean hclean' e2 hready'
  obtain ⟨hheld, hfree⟩ := hready
  refine ends_ext hx hf (hk.trans ((if_neg ?_).trans (mxLoad_writes hplaces hdata hscales hclean hclean' hready')))
  rw [show (envAt i s g b).mxHeld items = false from hheld, hfree]
  decide

theorem mcbt_ends :
    let i : IssueInfo := { len := lenExt x, role := some 1, reads := true }
    let e := envAt i s g b
    let base := e.eaU x
    Full 25 3 x (envOf s g b (lenExt x)) → base % 16 = 0 →
    LoadEnds (.mcbt x) i s g b e e1 ps (!x.imm8.getLsbD 0) [26] ((List.range 128).map fun j => ((base + 16 * j) % 2 ^ 64, 16)) []
      fun bytes c => { c with codebook := ((List.range 256).map fun j =>
        (j, BitVec.ofNat 64 (leNat ((bytes.drop (8 * j)).take 8)))).filter fun q => q.2 ≠ 0 } := by
  intro i e base hf halign
  have hx : exec (.mcbt x) s = execMcbt x s := rfl
  unfold execMcbt mxOp Env.mxBase at hx
  exact load_ends hx hf (if_neg (not_not.mpr halign))

/-- What MLDA and MLDB put into their slots of the bytes of 64 rows and their scales (R267, R274). -/
def sideSlots (side : MxSide) (state : Nat) (at0 rb : Nat) (pair : Bool) (bytes : List Byte) (c : Core) : Core :=
  let sl : MxSlot := { fmt := side.fmt, len32 := side.len32, scaled := side.scaled, stride := side.stride }
  let c1 := c.setSlot at0 { sl with state, data := bytes.take (64 * rb), scale := bytes.drop (64 * rb) }
  if pair then c1.setSlot (at0 + 1) { sl with state := 4 } else c1

theorem loadSide_ends {fn : Nat} {isA : Bool} (hx : exec n s = loadSide fn x isA s) :
    let i : IssueInfo := { len := lenExt x, role := some 1, reads := true }
    let e := envAt i s g b
    let base := e.eaU x
    let imm := x.imm8.toNat
    let side := if isA then f.a else f.b
    let k := if isA then imm % 2 else imm % 16
    let bm := if isA then !x.imm8.getLsbD 1 else !x.imm8.getLsbD 4
    let at0 := if isA then k else 2 + k
    let rb := rowBytes side.fmt f.k
    let pair := !isA && takesPair side.fmt f.k
    Full 25 fn x (envOf s g b (lenExt x)) → e.mxBlock x.b = .ok f → ¬(pair = true ∧ k % 2 = 1) → side.stride % 16 = 0 →
    base % 16 = 0 →
    LoadEnds n i s g b e e1 ps bm ((8 + at0) :: (if pair then [9 + at0] else [])) (rowChunks base side.stride rb)
      (scaleChunks side base f.k) (sideSlots side (if !isA && f.bsp then 2 else 1) at0 rb pair) := by
  intro i e base imm side k bm at0 rb pair hf hblock hpair hstride halign
  unfold loadSide mxOp Env.mxBase at hx
  refine load_ends hx hf ?_
  simp only
  rw [hblock]
  refine (if_neg ?_).trans ((if_neg ?_).trans rfl)
  · simp only [Bool.and_eq_true, decide_eq_true_eq]
    exact fun h => hpair ⟨by simpa [pair] using h.1, h.2⟩
  · simp only [Bool.or_eq_true, decide_eq_true_eq, not_or, not_not]
    exact ⟨halign, hstride⟩

end

/-- Settles O28: each load reads its chunks and writes its slots or the codebook (`loadSide_ends`, `mcbt_ends`). -/
theorem matrixLoadResult : Obligations.MatrixLoadResult := by
  unfold Obligations.MatrixLoadResult
  intro s g b x f ps e1 i e0 e base imm load tile
  refine ⟨?_, ?_, ?_⟩
  · intro hf hblock hstride halign
    exact loadSide_ends (fn := 1) (isA := true) rfl hf hblock (by simp) hstride halign
  · intro hf hblock hpair hstride halign
    exact loadSide_ends (fn := 2) (isA := false) rfl hf hblock (by simpa using hpair) hstride halign
  · intro hf halign
    exact mcbt_ends hf halign

end Sys2Proof.Machine

namespace Sys2Proof.Machine

open Sys2Proof

/-! ## Pieces of a copy (R314, R318, R326, R327) -/

section
variable {s s1 s2 : State} {bench entry : Nat} {r : PieceRead} {dst : List Nat}

theorem copyPlace_walked (s : State) (owner field : Nat) (dst main : Bool) (va : Nat) :
    s.Walked (placedState (s.copyPlace owner field dst main va)) := by
  have h : s.Walked (s.translate owner field va).2 := s.translateBy_walked (.unit field) owner va
  unfold State.copyPlace
  simp only
  split
  all_goals rename_i heq; rw [heq] at h
  · exact h
  · exact h
  · exact h
  · split
    all_goals split
    · exact h
    · split <;> exact h
    · exact h
    · split <;> exact h

theorem copyPlaces_walked {owner field : Nat} {main : Bool} {va n : Nat}
    (h : s.copyPlaces owner field main va n = .ok (dst, s1)) : s.Walked s1 := by
  induction n generalizing s va dst with
  | zero => cases h; exact .refl _
  | succ n ih =>
    have hplace := copyPlace_walked s owner field true main (va % 2 ^ 64)
    unfold State.copyPlaces at h
    split at h
    · cases h
    case h_2 hfirst =>
      rw [hfirst] at hplace
      split at h
      · cases h
      case h_2 hrest => cases h; exact hplace.trans (ih hrest)

theorem readPiece_walked {c : Copy} {p : Nat × Nat × Nat} (h : s.readPiece bench c p = .ok (r, s1)) : s.Walked s1 := by
  obtain ⟨sa, da, m⟩ := p
  unfold State.readPiece at h
  by_cases h5 : c.desc.kind = 5
  · have h := (if_pos h5).symm.trans h
    cases h
    exact .refl _
  replace h := (if_neg h5).symm.trans h
  by_cases h8 : c.desc.kind = 8
  · replace h := (if_pos h8).symm.trans h
    split at h
    · cases h
    · split at h
      · cases h
      · cases h
        exact .refl _
  replace h := (if_neg h8).symm.trans h
  by_cases hspace : (!c.desc.sspace) = true
  · have h := (if_pos hspace).symm.trans h
    cases h
    exact .refl _
  replace h := (if_neg hspace).symm.trans h
  have hplace := copyPlace_walked s c.owner (fieldOfBench bench) false true sa
  split at h
  · cases h
  · rename_i pa s' hfirst
    rw [hfirst] at hplace
    by_cases hpoison : s'.poisonAt pa m = true
    · rw [if_pos hpoison] at h
      cases h
    · rw [if_neg hpoison] at h
      cases h
      exact hplace

/-- Where the bytes of a piece are to stand. -/
def State.lands (s1 : State) (bench : Nat) (x : Copy) (place : Nat × Nat × Nat) : Except (Trap × State) (List Nat × State) :=
  if x.desc.dspace then s1.copyPlaces x.owner (fieldOfBench bench) (x.desc.kind ≠ 4) place.2.1 place.2.2
  else .ok (codes place.2.1 place.2.2, s1)

theorem lands_walked {x : Copy} {place : Nat × Nat × Nat} (h : s1.lands bench x place = .ok (dst, s2)) : s1.Walked s2 := by
  unfold State.lands at h
  split at h
  · exact copyPlaces_walked h
  · cases h; exact .refl s1

/-- R318: the piece that is staged, as read from `s`. -/
def State.stagedPiece (s : State) (x : Copy) (r : PieceRead) (dst : List Nat) : Piece :=
  let p : Piece := { pos := x.spec, bytes := r.bytes, dst, firstRead := s.gtc, arrived := s.gtc + r.lat, cells := r.cells,
                     tags := r.tags.map (s.tagAt (s.gtc + r.lat)) }
  { p with due := p.dueBy s }

theorem stagePiece_ok
    (hread : s.readPiece bench (s.copy bench entry) ((s.copy bench entry).desc.pieceAt (s.copy bench entry).spec) = .ok (r, s1))
    (hland : s1.lands bench (s.copy bench entry) ((s.copy bench entry).desc.pieceAt (s.copy bench entry).spec) = .ok (dst, s2)) :
    let x := s.copy bench entry
    s.stagePiece bench entry = s2.setCopy bench entry { x with
      spec := x.spec + (x.desc.pieceAt x.spec).2.2, readAt := s.gtc + 1, pieces := x.pieces ++ [s.stagedPiece x r dst] } := by
  unfold State.stagePiece
  unfold State.lands at hland
  simp only [hread, hland]
  rfl

/-- R327: a failing read leaves its fault with the copy. -/
theorem stagePiece_error {e : Trap × State}
    (hread : s.readPiece bench (s.copy bench entry) ((s.copy bench entry).desc.pieceAt (s.copy bench entry).spec) = .error e) :
    ∃ u : Trap, u.code = e.1.code ∧ u.addr = e.1.addr ∧
      s.stagePiece bench entry = (s.walked e.2).setCopy bench entry { s.copy bench entry with fault := some u } := by
  refine ⟨{ e.1 with
    cause0 := BitVec.ofNat 64 (handleOf bench entry (s.copy bench entry).gen % 2 ^ 32), cause1 := e.1.cause1 + 256,
    site := some (s.copy bench entry).addr }, rfl, rfl, ?_⟩
  unfold State.stagePiece
  simp only [hread]

/-- A copy or fill of bench memory reads the group's own queue before the block's bytes (R324). -/
theorem readPiece_bench {c : Copy} {p : Nat × Nat × Nat} (h : s.readPiece bench c p = .ok (r, s1)) (h5 : c.desc.kind ≠ 5)
    (h8 : c.desc.kind ≠ 8) (hspace : c.desc.sspace = false) :
    r.bytes = (codes p.1 p.2.2).map fun o => (queuedByte (s.copyOwn c true) o).getD
      (match s.block? (blockOf c.g) with | some b => tget 0 b.bench o | none => 0) := by
  obtain ⟨sa, da, m⟩ := p
  unfold State.readPiece at h
  have hb := (((if_neg h5).trans ((if_neg h8).trans (if_pos (by rw [hspace]; rfl)))).symm.trans h)
  cases hb
  rfl

theorem copy_setCopy (s : State) (bench entry : Nat) (c : Copy) : (s.setCopy bench entry c).copy bench entry = c :=
  tget_tset_same _ _ _ _

end

section
variable {s : State} {bench entry : Nat}

theorem exec_copyPieceRead (hready : s.pieceReady bench entry = true) (hbehind : s.pieceBehind bench entry = false) :
    exec (.copyPieceRead bench entry) s = .next (s.stagePiece bench entry) :=
  if_pos (by rw [hready, hbehind]; rfl)

theorem exec_copyPieceDrain {c : Piece} {rest : List Piece} (hready : s.drainReady bench entry = true)
    (hpieces : (s.copy bench entry).pieces = c :: rest) :
    let x := s.copy bench entry
    exec (.copyPieceDrain bench entry) s =
      if s.pieceHold bench x c ≠ 0 && !c.sent then
        .next (s.setCopy bench entry { x with pieces := { c with sent := true, due := s.gtc + s.qwin + s.pieceHold bench x c } :: rest })
      else
        let u := (s.drainBytes x c).setCopy bench entry { x with pos := c.pos + c.bytes.length, pieces := rest }
        .next (if x.desc.size ≤ c.pos + c.bytes.length then u.finishCopy bench entry else u.copyFaults bench entry) := by
  have hx : exec (.copyPieceDrain bench entry) s = execCopyPieceDrain bench entry s := rfl
  rw [hx]
  unfold execCopyPieceDrain
  simp only [hready, hpieces]
  rfl

end

/-! ## Content-addressed requests that perform (R336 to R342, R353, R354) -/

section
variable {s : State} {id : Nat} {p : Pending}

theorem exec_caputPerform {kind : Bool} {content : List Byte} {hash : Nat} {addr : W64} {dst : Nat} (hp : s.pending? id = some p)
    (hmay : s.mayPerform p = true) (hreq : p.req = .caput kind content hash addr dst)
    {u : Except (Nat × Nat) Nat × State} (hput : (s.dropPending id).caPut (s.ownerOf p.g) kind content hash = u) :
    exec (.caputPerform id) s = .next (match u.1 with
      | .ok n => (u.2.answer p.g id (caHomePa s (hash * 256)) (uVal (uDst dst) n) none).sendReady
      | .error (code, w) => (u.2.answer p.g id (caHomePa s (hash * 256)) (uVal (uDst dst) (2 ^ 64 - 1))
          (some { code, addr, cause0 := BitVec.ofNat 64 (hash * 256 + kindNat kind), cause1 := BitVec.ofNat 64 w,
                  site := some p.addr })).sendReady) := by
  have hx : exec (.caputPerform id) s = execCaputPerform id s := rfl
  rw [hx]
  unfold execCaputPerform
  simp only [hp, hreq, hmay, hput]
  refine (if_neg (by decide)).trans ?_
  obtain ⟨r, u⟩ := u
  cases r <;> rfl

theorem exec_caCountChange (hp : s.pending? id = some p) (hmay : s.mayPerform p = true) {n : W64} (hn : n ≠ 0)
    (hpool : s.hasPool (s.ownerOf p.g) n.toNat = true) :
    (p.req = .caref n → exec (.caCountChange id) s = .next ((s.dropPending id).caInc (s.ownerOf p.g) n.toNat).sendReady) ∧
    (p.req = .carel n → exec (.caCountChange id) s = .next ((s.dropPending id).caDec (s.ownerOf p.g) n.toNat).sendReady) := by
  have hx : exec (.caCountChange id) s = execCaCountChange id s := rfl
  have hpooled : (n ≠ 0 && s.hasPool (s.ownerOf p.g) n.toNat) = true := by simpa [hpool] using hn
  rw [hx]
  unfold execCaCountChange
  simp only [hp, hmay]
  refine ⟨fun h => ?_, fun h => ?_⟩
  · simp only [h, hpooled]
    rfl
  · simp only [h, hpooled]
    rfl

theorem exec_caswapPerform {va pa : Nat} {expect new : W64} {dst : Nat} (hp : s.pending? id = some p)
    (hmay : s.mayPerform p = true) (hreq : p.req = .caswap va pa expect new dst) (hclean : s.poisonAt pa 8 = false) :
    let s0 := s.dropPending id
    let key := some (s.keyAt (s.ownerOf p.g) pa)
    let old := s.valueAt key pa 8
    exec (.caswapPerform id) s = .next
      ((if old = expect.toNat then s0.performBytes key pa (leBytes 8 new.toNat) else s0).answer p.g id pa
        (uVal (uDst dst) old) none).sendReady := by
  have hx : exec (.caswapPerform id) s = execCaswapPerform id s := rfl
  rw [hx]
  unfold execCaswapPerform
  simp only [hp, hmay, hreq, hclean]
  rfl

/-- R336: without its pool an owner has no line. -/
theorem capDisable_discards {owner : Nat} (h : (s.owner owner).capEn = true) :
    ∃ t, exec (.capDisable owner) s = .next t ∧ (t.owner owner).capEn = false ∧
      (∀ l ∈ t.caLines, l.1 ≠ owner) ∧ (∀ l ∈ s.caLines, l.1 ≠ owner → l ∈ t.caLines) := by
  refine ⟨_, if_pos h, ?_, fun l hl => ?_, fun l hl hne => ?_⟩
  · exact congrArg Owner.capEn (tget_tset_same ..)
  · exact of_decide_eq_true (List.mem_filter.mp hl).2
  · exact List.mem_filter.mpr ⟨hl, decide_eq_true hne⟩

end

/-- Settles O45: each event is its equation where its conditions hold. -/
theorem copyContentEvents : Obligations.CopyContentEvents := by
  unfold Obligations.CopyContentEvents
  intro s bench entry id owner p c rest x ready own s0 place reads lands
  refine ⟨?_, ?_, ?_, ?_, ?_, ?_, ?_, ?_, fun n more h => ?_, capDisable_discards⟩
  · intro r s1 dst s2 hreads hread hland
    have hwalk : s.Walked s2 := (readPiece_walked hread).trans (lands_walked hland)
    refine ⟨_, s.stagedPiece x r dst, exec_copyPieceRead hreads.1 hreads.2, ?_, rfl, rfl, rfl, rfl, rfl, ?_, ?_, ?_, ?_⟩
    · rw [stagePiece_ok hread hland]
      exact copy_setCopy ..
    · rw [stagePiece_ok hread hland, ← hwalk]
      rfl
    · rw [stagePiece_ok hread hland, ← hwalk]
      rfl
    · rw [stagePiece_ok hread hland, ← hwalk]
      rfl
    · exact fun h5 h8 hspace => readPiece_bench hread h5 h8 hspace
  · intro e hreads hread
    obtain ⟨u, hcode, haddr, hstage⟩ := stagePiece_error hread
    refine ⟨_, u, exec_copyPieceRead hreads.1 hreads.2, ?_, hcode, haddr, ?_, ?_⟩
    · rw [hstage]
      exact copy_setCopy ..
    · rw [hstage]
      rfl
    · rw [hstage]
      rfl
  · intro hready hpieces hhold hsent
    refine (exec_copyPieceDrain hready hpieces).trans (if_pos ?_)
    rw [hsent]
    simpa using hhold
  · intro hready hpieces hgo u
    refine (exec_copyPieceDrain hready hpieces).trans (if_neg ?_)
    rcases hgo with h | h
    · simp [x, h]
    · simp [h]
  · intro kind content hash addr dst n u hready hreq hput
    exact exec_caputPerform hready.1 hready.2 hreq hput
  · intro kind content hash addr dst code w u hready hreq hput
    exact exec_caputPerform hready.1 hready.2 hreq hput
  · exact fun n hready hn hpool => exec_caCountChange hready.1 hready.2 hn hpool
  · exact fun va pa expect new dst hready hreq hclean => exec_caswapPerform hready.1 hready.2 hreq hclean
  · have hx : exec .reclaimRelease s = execReclaimRelease s := rfl
    rw [hx]
    unfold execReclaimRelease
    rw [h]

end Sys2Proof.Machine

namespace Sys2Proof.Machine

open Sys2Proof

/-! ## What an operation leaves of memory (R286, R293)

Of all that changes the state only the writes of `State.writeByte` and a checkpoint's restore reach memory. Every other operation
is said here, once, to leave it as it was, in the order of the model. -/

@[simp] theorem State.mem_ite (c : Prop) [Decidable c] (s t : State) :
    (if c then s else t).mem = if c then s.mem else t.mem := apply_ite State.mem c s t

section
variable (s : State)

@[simp] theorem State.answerFrom_mem (r : GroupRef) (id : Nat) (pas : List Nat) (back : Bool) (vals : List RegVal)
    (fault : Option Trap) :
    (s.answerFrom r id pas back vals fault).mem = s.mem := (s.answerFrom_answered r id pas back vals fault).mem

@[simp] theorem State.answer_mem (r : GroupRef) (id pa : Nat) (vals : List RegVal) (fault : Option Trap) :
    (s.answer r id pa vals fault).mem = s.mem := Machine.answer_mem ..

@[simp] theorem State.endMonitor_mem (m : Monitor) (outcome : Nat) : (s.endMonitor m outcome).mem = s.mem := by
  unfold State.endMonitor
  simp

@[simp] theorem State.evalMonitor_mem (m : Monitor) : (s.evalMonitor m).mem = s.mem := Machine.evalMonitor_mem ..

@[simp] theorem State.settleSector_mem (sec : Nat) : (s.settleSector sec).mem = s.mem := Machine.settleSector_mem ..

@[simp] theorem State.setWindow_mem (w : Nat) : (s.setWindow w).mem = s.mem := by
  unfold State.setWindow
  split <;> rfl

@[simp] theorem State.modField_mem (f : Nat) (k : Field → Field) : (s.modField f k).mem = s.mem := rfl

@[simp] theorem State.writeFieldWord_mem (f o v : Nat) : (s.writeFieldWord f o v).mem = s.mem := by
  unfold State.writeFieldWord
  split <;> rfl

@[simp] theorem State.shoot_mem (die owner lo hi : Nat) : (s.shoot die owner lo hi).mem = s.mem := rfl

@[simp] theorem State.writeSovf_mem (die o v : Nat) : (s.writeSovf die o v).mem = s.mem := by
  unfold State.writeSovf
  repeat' split
  all_goals rfl

@[simp] theorem State.setCell_mem (c : CellRef) (x : Cell) : (s.setCell c x).mem = s.mem := rfl

@[simp] theorem State.writeOwnerEn_mem (w : Nat) (en : Bool) : (s.writeOwnerEn w en).mem = s.mem := by
  unfold State.writeOwnerEn
  simp

@[simp] theorem State.caDiscard_mem (owner : Nat) : (s.caDiscard owner).mem = s.mem := rfl

@[simp] theorem State.queueFault_mem (n code level addr : Nat) : (s.queueFault n code level addr).mem = s.mem := by
  unfold State.queueFault
  simp

@[simp] theorem State.packetDone_mem (n : Nat) (p : Packet) : (s.packetDone n p).mem = s.mem := rfl

@[simp] theorem State.record_mem (r : EventRec) : (s.record r).mem = s.mem := by
  unfold State.record
  simp

@[simp] theorem State.handOn_mem (l : Lock) : (s.handOn l).mem = s.mem := by
  unfold State.handOn
  split <;> simp

@[simp] theorem State.abandonLocks_mem (r : BlockRef) : (s.abandonLocks r).mem = s.mem := by
  unfold State.abandonLocks
  exact foldl_keeps State.mem (fun _ _ => by simp) _ _

@[simp] theorem State.dropSaved_mem (b : Block) : (s.dropSaved b).mem = s.mem := by
  unfold State.dropSaved
  simp

@[simp] theorem State.freeUnits_mem (die unit : Nat) : (s.freeUnits die unit).mem = s.mem := rfl

@[simp] theorem State.freeArea_mem (b : Block) : (s.freeArea b).mem = s.mem := by
  unfold State.freeArea
  split <;> rfl

@[simp] theorem State.unlock_mem (bench entry : Nat) (dstOnly : Bool) : (s.unlock bench entry dstOnly).mem = s.mem := rfl

@[simp] theorem State.setCopy_mem (bench entry : Nat) (c : Copy) : (s.setCopy bench entry c).mem = s.mem := rfl

@[simp] theorem State.endCopy_mem (bench entry : Nat) (st : CopyState) : (s.endCopy bench entry st).mem = s.mem := rfl

@[simp] theorem State.cancelCopies_mem (r : BlockRef) : (s.cancelCopies r).mem = s.mem := by
  unfold State.cancelCopies
  exact foldl_keeps State.mem (fun _ _ => by simp) _ _

@[simp] theorem State.dropCopies_mem (r : GroupRef) : (s.dropCopies r).mem = s.mem := by
  unfold State.dropCopies
  exact foldl_keeps State.mem (fun _ _ => by simp) _ _

@[simp] theorem State.squash_mem (r : GroupRef) : (s.squash r).mem = s.mem := by
  unfold State.squash
  split <;> simp

@[simp] theorem State.squashAll_mem (rs : List GroupRef) : (s.squashAll rs).mem = s.mem := by
  unfold State.squashAll
  exact foldl_keeps State.mem (fun _ _ => by simp) _ _

@[simp] theorem State.killBlock_mem (r : BlockRef) : (s.killBlock r).mem = s.mem := by
  unfold State.killBlock
  simp

@[simp] theorem State.toRetiring_mem (task : Nat) : (s.toRetiring task).mem = s.mem := rfl

@[simp] theorem State.clearEngines_mem (b : Block) : (s.clearEngines b).mem = s.mem := by
  unfold State.clearEngines
  exact foldl_keeps State.mem (fun _ _ => by simp) _ _

@[simp] theorem State.hold_mem (owner lead : Nat) (k : Kernel) (spill : List Nat) : (s.hold owner lead k spill).mem = s.mem := by
  unfold State.hold
  split <;> rfl

@[simp] theorem State.deliverEdge_mem (b : BlockRef) (kind cause : Nat) : (s.deliverEdge b kind cause).mem = s.mem := by
  unfold State.deliverEdge
  split <;> rfl

@[simp] theorem State.deliverPending_mem (b : BlockRef) : (s.deliverPending b).mem = s.mem := by
  unfold State.deliverPending
  split <;> simp

@[simp] theorem State.startBlock_mem (task : Nat) (k : Kernel) (lead : Nat) (spill : List Nat) :
    (s.startBlock task k lead spill).mem = s.mem := by
  unfold State.startBlock
  simp

@[simp] theorem State.modGroupsOf_mem (r : BlockRef) (f : Group → Group) : (s.modGroupsOf r f).mem = s.mem := rfl

@[simp] theorem State.rehomeCopy_mem (bench : Nat) (x : Copy × List RangeLock) : (s.rehomeCopy bench x).mem = s.mem := by
  unfold State.rehomeCopy
  simp only []
  repeat' split
  all_goals simp

@[simp] theorem State.notePassed_mem (tasks : List Nat) : (s.notePassed tasks).mem = s.mem := by
  unfold State.notePassed
  exact foldl_keeps State.mem (fun _ _ => by simp) _ _

@[simp] theorem State.returnStock_mem (task die : Nat) (leaving : BlockRef) : (s.returnStock task die leaving).mem = s.mem := by
  unfold State.returnStock
  split <;> rfl

@[simp] theorem State.unhold_mem (b : Block) : (s.unhold b).mem = s.mem := by
  unfold State.unhold
  split <;> rfl

@[simp] theorem State.decPreds_mem (cancel : Bool) (task : Nat) : (s.decPreds cancel task).mem = s.mem := rfl

@[simp] theorem State.childDone_mem (t : Tcb) : (s.childDone t).mem = s.mem := by
  unfold State.childDone
  split <;> rfl

@[simp] theorem State.pctlDone_mem (die result : Nat) : (s.pctlDone die result).mem = s.mem := rfl

@[simp] theorem State.finishPctl_mem : s.finishPctl.mem = s.mem := by
  unfold State.finishPctl
  simp

@[simp] theorem State.settleQueries_mem (b : Block) : (s.settleQueries b).mem = s.mem := rfl

@[simp] theorem State.modBench_mem (b : Nat) (k : Bench → Bench) : (s.modBench b k).mem = s.mem := rfl

@[simp] theorem State.debit_mem (bench w : Nat) : (s.debit bench w).mem = s.mem := rfl

@[simp] theorem State.fixInrush_mem (fs : List Nat) : (s.fixInrush fs).mem = s.mem := by
  unfold State.fixInrush
  exact foldl_keeps State.mem (fun _ _ => by simp) _ _

@[simp] theorem State.askRamp_mem (f : Nat) : (s.askRamp f).mem = s.mem := by
  unfold State.askRamp
  simp

@[simp] theorem State.powerRecord_mem (field type code data0 : Nat) : (s.powerRecord field type code data0).mem = s.mem := by
  unfold State.powerRecord
  simp

@[simp] theorem State.settleBench_mem (bench : Nat) : (s.settleBench bench).mem = s.mem := rfl

@[simp] theorem State.sendReady_mem : s.sendReady.mem = s.mem := rfl

@[simp] theorem State.raiseMarks_mem (r : GroupRef) (id : Nat) : (s.raiseMarks r id).mem = s.mem := rfl

@[simp] theorem State.releaseRegion_mem (r : GroupRef) (seq : Nat) : (s.releaseRegion r seq).mem = s.mem := rfl

@[simp] theorem State.stopCopy_mem (bench h : Nat) (resume : Bool) : (s.stopCopy bench h resume).mem = s.mem := by
  unfold State.stopCopy
  simp

@[simp] theorem State.copyArrives_mem (b : BlockRef) (bench h course : Nat) : (s.copyArrives b bench h course).mem = s.mem := by
  unfold State.copyArrives
  split <;> simp

@[simp] theorem State.emptyDone_mem (b : BlockRef) (bench h : Nat) (course : Option Nat) :
    (s.emptyDone b bench h course).mem = s.mem := by
  unfold State.emptyDone
  split <;> simp

@[simp] theorem State.releaseRequest_mem (g : Group) (seq : Nat) (h : Held) : (s.releaseRequest g seq h).mem = s.mem := by
  unfold State.releaseRequest
  split <;> simp

@[simp] theorem State.answerBench_mem (r : GroupRef) (id : Nat) : (s.answerBench r id).mem = s.mem := rfl

@[simp] theorem State.answerBarrier_mem (a : BarrierAt) (id : Nat) (r : GroupRef) (waited : Bool) :
    (s.answerBarrier a id r waited).mem = s.mem := by
  unfold State.answerBarrier
  split <;> simp

@[simp] theorem State.slewFrom_mem (fields : List Nat) (gen : Nat) : (s.slewFrom fields gen).mem = s.mem := by
  unfold State.slewFrom
  exact foldl_keeps State.mem (fun _ _ => by simp) _ _

@[simp] theorem State.setBarrier_mem (x : Barrier) (a : BarrierAt) : (s.setBarrier x a).mem = s.mem := by
  unfold State.setBarrier
  split <;> rfl

@[simp] theorem State.setEntry_mem (q : QEntry) : (s.setEntry q).mem = s.mem := rfl

@[simp] theorem State.strike_mem (die : Nat) (m : Message) : (s.strike die m).mem = s.mem := by
  unfold State.strike
  exact foldl_keeps State.mem (fun _ _ => by simp) _ _

@[simp] theorem State.known_mem (die : Nat) (m : Message) : (s.known die m).mem = s.mem := by
  unfold State.known
  simp

@[simp] theorem State.peerReport_mem (c : CellRef) : (s.peerReport c).mem = s.mem := by
  unfold State.peerReport
  simp

@[simp] theorem State.shootFetch_mem (die owner lo hi : Nat) : (s.shootFetch die owner lo hi).mem = s.mem := rfl

@[simp] theorem State.copyFaults_mem (bench entry : Nat) : (s.copyFaults bench entry).mem = s.mem := by
  unfold State.copyFaults
  simp only []
  repeat' split
  all_goals simp

@[simp] theorem State.finishCopy_mem (bench entry : Nat) : (s.finishCopy bench entry).mem = s.mem := by
  unfold State.finishCopy
  simp only []
  repeat' split
  all_goals simp

@[simp] theorem State.promote_mem (r : PromoRec) : (s.promote r).mem = s.mem := rfl

@[simp] theorem State.dropPending_mem (id : Nat) : (s.dropPending id).mem = s.mem := rfl

@[simp] theorem State.setPending_mem (p : Pending) : (s.setPending p).mem = s.mem := rfl

@[simp] theorem State.syncWait_mem (p : Pending) : (s.syncWait p).mem = s.mem := by
  unfold State.syncWait
  split <;> rfl

@[simp] theorem State.acknowledge_mem (r : GroupRef) (id pa : Nat) : (s.acknowledge r id pa).mem = s.mem := by
  unfold State.acknowledge
  simp

@[simp] theorem State.waitJoin_mem (p : Pending) (dst : Nat) : (s.waitJoin p dst).mem = s.mem := rfl

@[simp] theorem State.caInc_mem (owner n : Nat) : (s.caInc owner n).mem = s.mem := by
  unfold State.caInc
  repeat' split
  all_goals rfl

@[simp] theorem State.caDec_mem (owner n : Nat) : (s.caDec owner n).mem = s.mem := by
  unfold State.caDec
  repeat' split
  all_goals rfl

@[simp] theorem State.invalidate_mem (scope core : Nat) (ranges : Option (List (Nat × Nat))) :
    (s.invalidate scope core ranges).mem = s.mem := rfl

@[simp] theorem State.returnInrush_mem (f : Nat) : (s.returnInrush f).mem = s.mem := by
  unfold State.returnInrush
  simp

@[simp] theorem State.bringUpNext_mem (u : BringUp) : (s.bringUpNext u).mem = s.mem := by
  unfold State.bringUpNext
  simp

@[simp] theorem State.writeTcbByte_mem (t o : Nat) (b : Byte) : (s.writeTcbByte t o b).mem = s.mem := rfl

@[simp] theorem State.setBatch_mem (die v : Nat) : (s.setBatch die v).mem = s.mem := by
  unfold State.setBatch
  split <;> rfl

@[simp] theorem State.measure_mem (f v : Nat) : (s.measure f v).mem = s.mem := rfl

@[simp] theorem State.holdBlock_mem (owner core pa : Nat) : (s.holdBlock owner core pa).mem = s.mem := by
  unfold State.holdBlock
  simp

@[simp] theorem State.holdLine_mem (owner core pa : Nat) : (s.holdLine owner core pa).mem = s.mem := by
  unfold State.holdLine
  simp

@[simp] theorem State.setPeerWindow_mem (m w : Nat) : (s.setPeerWindow m w).mem = s.mem := by
  unfold State.setPeerWindow
  split <;> rfl

@[simp] theorem State.takeMessage_mem (d : Nat × Message) : (s.takeMessage d).mem = s.mem := by
  unfold State.takeMessage
  simp

@[simp] theorem State.takeRow_mem (core : Nat) : (s.takeRow core).mem = s.mem := by
  unfold State.takeRow
  simp only []
  repeat' split
  all_goals simp

@[simp] theorem State.settle_mem (r : GroupRef) (ws : List W32) : (s.settle r ws).mem = s.mem := by
  unfold State.settle
  split <;> simp

@[simp] theorem State.withhold_mem (bench : Nat) (os : List Offer) : (s.withhold bench os).mem = s.mem := by
  unfold State.withhold
  exact foldl_keeps State.mem (fun _ _ => by simp) _ _

@[simp] theorem State.tick_mem : s.tick.mem = s.mem := rfl

end

end Sys2Proof.Machine

namespace Sys2Proof.Machine

open Sys2Proof

/-! ## Reads that walk (R145, R290): the front end and the splice -/

theorem State.Walked.mem {s t : State} (h : s.Walked t) : t.mem = s.mem := by
  rw [← h]
  rfl

section
variable {s t : State} {n : Nat} {q q1 : Queue}

theorem unitNow_walked {unit : Nat} {bs : List (Option Byte)} (h : s.unitNow n q unit = .ok (bs, t)) : s.Walked t := by
  have hwalk := s.translateBy_walked (.unit (queueField n)) q.streamOwner (64 * unit)
  unfold State.unitNow State.translate at h
  split at h
  · rename_i e s1 heq
    rw [heq] at hwalk
    split at h
    · cases h
    · simp only at h
      split at h
      · cases h
      · split at h
        · cases h
        · cases h
          exact hwalk
  · cases h

theorem useUnit_walked {unit : Nat} (h : s.useUnit n q unit = .ok (q1, t)) : s.Walked t := by
  unfold State.useUnit at h
  split at h
  · cases h
  · rename_i hnow
    cases h
    exact unitNow_walked hnow
  · cases h
    exact .refl s
  · rename_i hnow
    cases h
    exact unitNow_walked hnow

theorem useUnits_walked {units : List Nat} (h : s.useUnits n q units = .ok (q1, t)) : s.Walked t := by
  induction units generalizing s q with
  | nil => cases h; exact .refl _
  | cons u us ih =>
    unfold State.useUnits at h
    split at h
    · cases h
    · rename_i hfirst
      exact (useUnit_walked hfirst).trans (ih h)

theorem foldl_walked {α β : Type} {op : α × State → β → α × State}
    (h : ∀ (x : α × State) (u : β), x.2.Walked (op x u).2) (l : List β)
    (x : α × State) : x.2.Walked (l.foldl op x).2 := by
  induction l generalizing x with
  | nil => exact .refl _
  | cons u l ih => exact (h x u).trans (ih _)

theorem fetchAhead_walked (s : State) (n : Nat) (q : Queue) (words : Nat) : s.Walked (s.fetchAhead n q words).2 := by
  unfold State.fetchAhead
  refine foldl_walked (fun x u => ?_) _ (q.setWindow _, s)
  split
  · exact .refl _
  · split
    · rename_i hnow
      exact unitNow_walked hnow
    · exact .refl _

theorem packetPa_walked {x : Nat × Nat × Bool × Bool} {pa : Nat} (h : s.packetPa n q x = .ok (pa, t)) : s.Walked t := by
  have hwalk := s.translateBy_walked (.unit (queueField n)) q.packetOwner x.1
  unfold State.packetPa State.translate at h
  split at h
  · rename_i e s1 heq
    rw [heq] at hwalk
    simp only at h
    split at h
    · cases h
    · cases h
      exact hwalk
  · cases h

theorem packetPas_walked {xs : List (Nat × Nat × Bool × Bool)} {pas : List Nat} (h : s.packetPas n q xs = .ok (pas, t)) :
    s.Walked t := by
  induction xs generalizing s pas with
  | nil => cases h; exact .refl _
  | cons x xs ih =>
    unfold State.packetPas at h
    split at h
    · cases h
    · rename_i hfirst
      split at h
      · cases h
      · rename_i hrest
        cases h
        exact (packetPa_walked hfirst).trans (ih hrest)

theorem bodyCheck_walked {type words : Nat} {b : List W32} {pas : List Nat} (h : s.bodyCheck n q type words b = .ok (pas, t)) :
    s.Walked t := by
  unfold State.bodyCheck at h
  simp only at h
  split at h
  · cases h
  · split at h
    · cases h
    · split at h
      · cases h
      · split at h
        · cases h
        · rename_i hpas
          split at h
          · cases h
          · cases h
            exact packetPas_walked hpas

theorem checked_walked {p p1 : Packet} (h : s.checked n q p = .packet p1 q1 t) : s.Walked t := by
  unfold State.checked at h
  split at h
  · cases h
    exact .refl _
  · split at h
    · cases h
      exact .refl _
    · rename_i hbody
      cases h
      exact bodyCheck_walked hbody

theorem nextPacket_walked {p : Packet} (h : s.nextPacket n = .packet p q t) : s.Walked t := by
  unfold State.nextPacket at h
  simp only at h
  split at h
  · cases h
  · split at h
    · exact checked_walked h
    · split at h
      · cases h
      · split at h
        · cases h
          exact .refl _
        · rename_i hhead
          have hfirst := useUnits_walked hhead
          split at h
          · cases h
            exact hfirst
          · split at h
            · split at h
              · cases h
              · cases h
                exact hfirst
            · split at h
              · cases h
                exact hfirst
              · rename_i hbody
                exact ((hfirst.trans (useUnits_walked hbody)).trans (fetchAhead_walked ..)).trans (checked_walked h)

end

section
variable {s t : State} {owner field : Nat}

theorem textWord_walked {va : Nat} {w : W32} (h : s.textWord owner field va = some (w, t)) : s.Walked t := by
  have hwalk := fetchTranslate_walked s (.unit field) owner va
  unfold State.textWord at h
  split at h
  · cases h
  · rename_i heq
    rw [heq] at hwalk
    cases h
    exact hwalk

theorem textWords_walked {k va : Nat} {ws : List W32} (h : s.textWords owner field k va = some (ws, t)) : s.Walked t := by
  induction k generalizing s va ws with
  | zero => cases h; exact .refl _
  | succ k ih =>
    unfold State.textWords at h
    split at h
    · cases h
    · rename_i hfirst
      split at h
      · cases h
      · rename_i hrest
        cases h
        exact (textWord_walked hfirst).trans (ih hrest)

theorem textIns_walked {va : Nat} {x : SIns} (h : s.textIns owner field va = some (x, t)) : s.Walked t := by
  unfold State.textIns at h
  split at h
  · cases h
  · rename_i hfirst
    split at h
    · cases h
    · rename_i hrest
      cases h
      exact (textWord_walked hfirst).trans (textWords_walked hrest)

theorem headIns_walked {p : Side} {x : SIns} (h : s.headIns p field = some (x, t)) : s.Walked t := by
  unfold State.headIns at h
  split at h
  · rename_i hins
    simp only at h
    split at h
    · cases h
      exact textIns_walked hins
    · cases h
  · cases h

theorem scan_walked {p : Side} {k : Nat} {todo : List Nat} {out out1 : Table SIns}
    (h : p.scan field k todo out s = some (out1, t)) : s.Walked t := by
  induction k generalizing s todo out with
  | zero => cases h; exact .refl _
  | succ k ih =>
    cases todo with
    | nil => cases h; exact .refl _
    | cons a todo =>
      unfold Side.scan at h
      split at h
      · exact ih h
      · split at h
        · cases h
        · split at h
          · cases h
          · rename_i hins
            split at h
            · cases h
            · exact (textIns_walked hins).trans (ih h)

theorem reached_walked {p : Side} {out : Table SIns} (h : p.reached field s = some (out, t)) : s.Walked t := by
  unfold Side.reached at h
  split at h
  · cases h
  · exact scan_walked h

theorem sitesRead_walked {sites : List Nat} (h : s.sitesRead owner field sites = some t) : s.Walked t := by
  induction sites generalizing s with
  | nil => cases h; exact .refl _
  | cons a rest ih =>
    unfold State.sitesRead at h
    obtain ⟨x, hins, hrest⟩ := Option.bind_eq_some_iff.mp h
    exact (textIns_walked hins).trans (ih hrest)

theorem matchSites_walked {p c : Side} {pc : Table SIns} {sites : List (Nat × Nat)} {m : List Match}
    (h : s.matchSites p c field pc sites = some (m, t)) : s.Walked t := by
  induction sites generalizing s m with
  | nil => cases h; exact .refl _
  | cons a rest ih =>
    unfold State.matchSites at h
    split at h
    · cases h
    · rename_i hfirst
      split at h
      · cases h
      · rename_i hsecond
        simp only at h
        split at h
        · cases h
        · obtain ⟨y, hrest, hy⟩ := Option.map_eq_some_iff.mp h
          cases hy
          exact ((textIns_walked hfirst).trans (textIns_walked hsecond)).trans (ih hrest)

theorem readSide_walked {x : Tcb} {p : Side} (h : s.readSide x field = some (p, t)) : s.Walked t := by
  unfold State.readSide at h
  have hdesc := s.readDesc_walked x.owner field x.kdesc
  split at h
  · cases h
  · rename_i hd
    rw [hd] at hdesc
    split at h
    · cases h
    · rename_i s1 _ o hsplice
      have hread := State.devRead_walked x.owner field o 80 s1
      split at h
      · cases h
      · rename_i hdata
        rw [hdata] at hread
        cases h
        exact State.Walked.trans hdesc hread

theorem spliceRead_walked {pTask cTask : Nat} {e : EdgeRec} {pl : Plan} (h : s.spliceRead pTask cTask field e = some pl) :
    s.Walked pl.s := by
  unfold State.spliceRead at h
  split at h
  · cases h
  rename_i hp
  split at h
  · cases h
  rename_i hc
  split at h
  · cases h
  rename_i hph
  split at h
  · cases h
  rename_i hch
  split at h
  · cases h
  rename_i hpr
  split at h
  · cases h
  rename_i hcr
  obtain ⟨s7, hps, h⟩ := Option.bind_eq_some_iff.mp h
  obtain ⟨s8, hcs, h⟩ := Option.map_eq_some_iff.mp h
  cases h
  have hsides := (readSide_walked hp).trans (readSide_walked hc)
  have hheads := (headIns_walked hph).trans (headIns_walked hch)
  have hreached := (reached_walked hpr).trans (reached_walked hcr)
  exact ((hsides.trans hheads).trans hreached).trans ((sitesRead_walked hps).trans (sitesRead_walked hcs))

theorem spliceTests_walked {task : Nat} {pl : Plan} (h : s.spliceTests task = .ok pl) : s.Walked pl.s := by
  unfold State.spliceTests at h
  simp only at h
  split at h
  · cases h
  split at h
  · cases h
  rename_i hread
  have hwalk := spliceRead_walked hread
  split at h
  · cases h
  split at h
  · cases h
  split at h
  · cases h
  split at h
  · cases h
  split at h
  · cases h
  rename_i hmatch
  split at h
  · cases h
  · cases h
    exact hwalk.trans (matchSites_walked hmatch)

end

end Sys2Proof.Machine

namespace Sys2Proof.Machine

open Sys2Proof

/-! ## What larger operations leave of memory -/

section
variable (s : State)

@[simp] theorem State.checkBarrier_leavesMem (a : BarrierAt) : (s.checkBarrier a).mem = s.mem := by
  unfold State.checkBarrier
  simp only
  split
  · rfl
  · exact (foldl_keeps State.mem (fun _ _ => by simp) _ _).trans (by simp)

@[simp] theorem State.performBarrier_leavesMem (a : BarrierAt) (r : GroupRef) (id form count : Nat) :
    (s.performBarrier a r id form count).mem = s.mem := by
  unfold State.performBarrier
  simp

@[simp] theorem State.leaveCounts_mem (r : GroupRef) : (s.leaveCounts r).mem = s.mem := by
  unfold State.leaveCounts
  rw [State.checkBarrier_leavesMem]
  exact foldl_keeps State.mem (fun _ _ => by simp) _ _

@[simp] theorem State.endTask_mem (task fault : Nat) : (s.endTask task fault).mem = s.mem := by
  unfold State.endTask
  dsimp only
  split
  · rfl
  · rw [State.mem_ite, State.toRetiring_mem, ite_self]
    refine (foldl_keeps State.mem (fun u b => ?_) _ _).trans (by simp)
    split <;> simp

@[simp] theorem State.trapHolds_mem (g : Group) (q : Region) : (s.trapHolds g q).mem = s.mem := by
  unfold State.trapHolds
  split
  · rfl
  · simp only
    split <;> simp

@[simp] theorem State.commit_mem (g : Group) (q : Region) : (s.commit g q).mem = s.mem := by
  unfold State.commit
  have hrequests (u : State) : (q.requests.foldl (fun s h => s.releaseRequest g q.seq h) u).mem = u.mem :=
    foldl_keeps State.mem (fun _ _ => by simp) _ _
  simp [hrequests]

@[simp] theorem State.slewBench_mem (bench start left : Nat) : (s.slewBench bench start left).1.mem = s.mem := by
  unfold State.slewBench
  exact foldl_keeps State.mem (fun _ _ => by simp) _ _

@[simp] theorem State.slewField_mem (f : Nat) : (s.slewField f).mem = s.mem := by
  unfold State.slewField
  exact (foldl_keeps (fun p : State × Nat => p.1.mem) (fun _ _ => by simp) _ _).trans (by simp)

theorem State.repattern_mem (benches : List Nat) {f : State → State} (h : ∀ u, (f u).mem = u.mem) :
    (s.repattern benches f).mem = s.mem :=
  (h _).trans (foldl_keeps State.mem (fun _ _ => by simp) _ _)

@[simp] theorem State.restoreArea_mem (b : Block) (lead : Nat) (area : List Byte) : (s.restoreArea b lead area).mem = s.mem := by
  unfold State.restoreArea
  simp only
  refine (foldl_keeps State.mem (fun _ _ => by simp) _ _).trans ?_
  exact foldl_keeps State.mem (fun _ _ => by simp) _ _

@[simp] theorem State.stagePiece_mem (bench entry : Nat) : (s.stagePiece bench entry).mem = s.mem := by
  unfold State.stagePiece
  simp only
  split
  · rfl
  · rename_i hread
    split
    · rfl
    · rename_i hland
      split at hland
      · exact ((readPiece_walked hread).trans (copyPlaces_walked hland)).mem
      · cases hland
        exact (readPiece_walked hread).mem

@[simp] theorem State.atomDone_mem (p : Pending) (wide ret slotsMode : Bool) (scope dst : Nat)
    (olds : List (AtomLane × Option Nat)) : (s.atomDone p wide ret slotsMode scope dst olds).mem = s.mem := by
  unfold State.atomDone
  split
  · rfl
  · have hpromos (f : State → AtomLane × Option Nat → PromoRec) :
        (olds.foldl (fun s o => s.promote (f s o)) s).mem = s.mem :=
      foldl_keeps (op := fun s o => s.promote (f s o)) State.mem (fun _ _ => rfl) _ _
    simp only
    split
    · simp
    · simp [hpromos]

@[simp] theorem Env.doom_s (e : Env) (code fault task orig : Nat) : (e.doom code fault task orig).s = e.s := rfl

@[simp] theorem Env.takeTrap_mem (e : Env) (t : Trap) (resume : Nat) : (e.takeTrap t resume).s.mem = e.s.mem := by
  unfold Env.takeTrap
  simp only
  repeat' split
  all_goals simp

@[simp] theorem Env.close_mem (e : Env) : e.close.mem = e.s.mem := rfl

@[simp] theorem State.enterTrap_mem (g : Group) (b : Block) (t : Trap) : (s.enterTrap g b t).mem = s.mem := by
  unfold State.enterTrap
  simp only
  split
  · rfl
  · exact Env.takeTrap_mem ..

@[simp] theorem trapAt_mem (g : Group) (b : Block) (t : Trap) : (trapAt s g b t).mem = s.mem := by
  unfold trapAt
  split
  · rfl
  · exact Env.takeTrap_mem ..

end

section
variable {s t : State}

theorem State.stopToSave_mem {r : BlockRef} {reason : Nat} (h : s.stopToSave r reason = some t) : t.mem = s.mem := by
  unfold State.stopToSave at h
  split at h
  · cases h
  · simp only at h
    split at h
    · cases h
    · cases h
      exact State.squashAll_mem ..

theorem State.stopAll_mem {reason : Nat} {rs : List BlockRef} (h : s.stopAll reason rs = some t) : t.mem = s.mem := by
  induction rs generalizing s with
  | nil => cases h; rfl
  | cons r rs ih =>
    unfold State.stopAll at h
    split at h
    · cases h
    · rename_i hfirst
      exact (ih h).trans (stopToSave_mem hfirst)

theorem State.swap_mem {core : Nat} (h : s.swap core = some t) : t.mem = s.mem := by
  unfold State.swap at h
  split at h
  · cases h
  · split at h
    · cases h; rfl
    · split at h
      · cases h; rfl
      · cases h

theorem State.forced_mem {core : Nat} (h : s.forced core = some t) : t.mem = s.mem := by
  unfold State.forced at h
  split at h
  · cases h
  · split at h
    · cases h
    · split at h
      · cases h; rfl
      · cases h

end

section
variable (s : State)

@[simp] theorem State.coresOffline_mem (cores : List Nat) : (s.coresOffline cores).mem = s.mem := by
  unfold State.coresOffline
  refine (foldl_keeps State.mem (fun u b => ?_) _ _).trans (foldl_keeps State.mem (fun _ _ => by simp) _ _)
  split
  · rfl
  · split
    · rfl
    · split
      · rename_i hstop
        exact State.stopAll_mem hstop
      · simp

@[simp] theorem State.cellLimit_mem (c : CellRef) : (s.cellLimit c).mem = s.mem := by
  unfold State.cellLimit
  simp

@[simp] theorem State.report_mem (c : CellRef) (injected : Bool) : (s.report c injected).mem = s.mem := by
  unfold State.report
  simp

end

/-! ## Instruction fetch (R147 to R151) -/

section
variable {s t : State}

theorem fetchBlock_mem (s : State) (owner core pa : Nat) : (fetchBlock s owner core pa).2.mem = s.mem :=
  State.holdLine_mem ..

theorem fetchTranslate_mem (s : State) (v : Viewer) (owner va : Nat) :
    (placedState (fetchTranslate s v owner va)).mem = s.mem := (fetchTranslate_walked s v owner va).mem

theorem fetchVirtual_mem (s : State) (owner core pc va : Nat) : (placedState (fetchVirtual s owner core pc va)).mem = s.mem := by
  have hwalk := fetchTranslate_mem s (.core core) owner va
  unfold fetchVirtual
  split
  · rfl
  · split
    · rename_i heq
      rwa [heq] at hwalk
    · rename_i pa u heq
      rw [heq] at hwalk
      exact (fetchBlock_mem u owner core _).trans hwalk

/-- The state that a fetch of one word leaves. -/
def fetchedState : Except (Trap × State) (W32 × Fetched × State) → State
  | .ok x => x.2.2
  | .error x => x.2

theorem fetchCode_mem (s : State) (b : Block) (core pc va : Nat) (held : Fetched) :
    (fetchedState (fetchCode s b core pc va held)).mem = s.mem := by
  have hvirtual := fetchVirtual_mem s b.owner core pc va
  unfold fetchCode
  split
  · rfl
  · split
    · rfl
    · split
      all_goals
        rename_i heq
        rwa [heq] at hvirtual

theorem fetchRest_mem (s : State) (b : Block) (core pc k va : Nat) (held : Fetched) :
    (placedState (fetchRest s b core pc k va held)).mem = s.mem := by
  induction k generalizing s va held with
  | zero => rfl
  | succ k ih =>
    have hfirst := fetchCode_mem s b core pc (va % 2 ^ 64) held
    unfold fetchRest
    split
    · rename_i heq
      rwa [heq] at hfirst
    · rename_i h' u heq
      rw [heq] at hfirst
      have hrest := ih u (va + 4) h'
      split
      all_goals
        rename_i heq'
        rw [heq'] at hrest
        exact hrest.trans hfirst

theorem fetchInstr_mem (s : State) (b : Block) (core pc : Nat) : (placedState (fetchInstr s b core pc)).mem = s.mem := by
  have hfirst := fetchCode_mem s b core pc pc none
  unfold fetchInstr
  split
  · rename_i heq
    rwa [heq] at hfirst
  · rename_i w held u heq
    rw [heq] at hfirst
    have hrest := fetchRest_mem u b core pc (wordsOfLen w - 1) (pc + 4) held
    split
    all_goals
      rename_i heq'
      rw [heq'] at hrest
      exact hrest.trans hfirst

end

end Sys2Proof.Machine

namespace Sys2Proof.Machine

open Sys2Proof

/-! ## Events that leave memory as it was -/

/-- Every state that the outcome goes to has `P`. -/
structure Goes (o : Host.Outcome State Fault Refusal) (P : State → Prop) : Prop where
  next : ∀ t, o = .next t → P t

@[simp] theorem goes_next (t : State) (P : State → Prop) : Goes (.next t) P ↔ P t :=
  ⟨fun h => h.next t rfl, fun h => ⟨fun _ ht => by cases ht; exact h⟩⟩

@[simp] theorem goes_fault (f : Fault) (P : State → Prop) : Goes (.fault f) P := ⟨fun _ h => by cases h⟩

@[simp] theorem goes_refused (f : Refusal) (P : State → Prop) : Goes (.refused f) P := ⟨fun _ h => by cases h⟩

@[simp] theorem goes_ite (c : Prop) [Decidable c] (o o' : Host.Outcome State Fault Refusal) (P : State → Prop) :
    Goes (if c then o else o') P ↔ if c then Goes o P else Goes o' P := by
  split <;> rfl

theorem Goes.imp {o : Host.Outcome State Fault Refusal} {P Q : State → Prop} (h : Goes o P) (hpq : ∀ t, P t → Q t) :
    Goes o Q :=
  ⟨fun t ht => hpq t (h.next t ht)⟩

section
variable (s : State)

/-! ### Writes of window 0 (R94, R100) -/

theorem State.after_mem {s : State} {f : State → Host.Outcome State Fault Refusal} (h : Goes (f s) fun t => t.mem = s.mem) :
    (s.after f).mem = s.mem := by
  unfold State.after
  split
  · rename_i heq
    exact h.next _ heq
  · rfl

theorem execQueueEnable_mem (fn n val : Nat) : Goes (execQueueEnable fn n val s) fun t => t.mem = s.mem := by
  unfold execQueueEnable
  simp

theorem execQwptrWrite_mem (x0 n val : Nat) : Goes (execQwptrWrite x0 n val s) fun t => t.mem = s.mem := by
  unfold execQwptrWrite
  simp

theorem execShootdown_mem (die : Nat) : Goes (execShootdown die s) fun t => t.mem = s.mem := by
  unfold execShootdown
  simp

theorem execCellInject_mem (fn : Nat) (c : CellRef) : Goes (execCellInject fn c s) fun t => t.mem = s.mem := by
  unfold execCellInject
  simp

theorem execKeyWrite_mem (fn off size val : Nat) : Goes (execKeyWrite fn off size val s) fun t => t.mem = s.mem := by
  unfold execKeyWrite
  simp

theorem execCapDisable_mem (owner : Nat) : Goes (execCapDisable owner s) fun t => t.mem = s.mem := by
  unfold execCapDisable
  simp

theorem execW0BadAccess_mem (write : Bool) (off size : Nat) : Goes (execW0BadAccess write off size s) fun t => t.mem = s.mem := by
  unfold execW0BadAccess
  simp

theorem execQueueHalt_mem (fn n val : Nat) : Goes (execQueueHalt fn n val s) fun t => t.mem = s.mem := by
  unfold execQueueHalt
  rw [goes_next]
  refine foldl_keeps State.mem (fun u x => ?_) (s.queue n).recent s
  split
  · exact State.freeTask_mem ..
  · rfl

theorem execCellClear_mem (fn : Nat) (c : CellRef) : Goes (execCellClear fn c s) fun t => t.mem = s.mem := by
  unfold execCellClear
  simp only
  split
  · simp
  · have hcores (u : State) :
        ((cellCores c).foldl (fun s k => s.setCore k { (s.core k) with offline := false }) u).mem = u.mem :=
      foldl_keeps State.mem (fun _ _ => by simp) _ _
    simp [hcores]

@[simp] theorem State.writeQueueWord_mem (fn n o v : Nat) : (s.writeQueueWord fn n o v).mem = s.mem := by
  have hset (c : Prop) [Decidable c] (q : Queue) : (if c then s else s.setQueue n q).mem = s.mem := by simp
  unfold State.writeQueueWord
  dsimp only
  split
  · exact hset _ _
  · exact hset _ _
  · exact hset _ _
  · refine State.after_mem ?_
    split
    · exact execQueueEnable_mem ..
    · exact execQueueHalt_mem ..
  · exact State.after_mem (execQwptrWrite_mem ..)
  · simp
  · rfl

@[simp] theorem State.writeTlbi_mem (die o v : Nat) : (s.writeTlbi die o v).mem = s.mem := by
  unfold State.writeTlbi
  simp only
  split
  · rfl
  · rfl
  · rfl
  · split
    · exact State.after_mem (execShootdown_mem _ die)
    · rfl
  · rfl

@[simp] theorem State.writeOwnerWord_mem (w o v : Nat) : (s.writeOwnerWord w o v).mem = s.mem := by
  unfold State.writeOwnerWord
  simp only
  split
  case h_1 => simp
  case h_9 =>
    split
    · exact State.after_mem (execKeyWrite_mem ..)
    · rfl
  all_goals rfl

@[simp] theorem State.writeCapWord_mem (w o v : Nat) : (s.writeCapWord w o v).mem = s.mem := by
  have hdisable : (s.after (execCapDisable w)).mem = s.mem := State.after_mem (execCapDisable_mem ..)
  unfold State.writeCapWord
  simp only
  split
  all_goals simp [hdisable]

@[simp] theorem State.writeW0_mem (fn off v : Nat) : (s.writeW0 fn off v).mem = s.mem := by
  have hclear (u : State) : (u.after (execCellClear fn (cellAt off))).mem = u.mem := State.after_mem (execCellClear_mem ..)
  have hinject (u : State) : (u.after (execCellInject fn (cellAt off))).mem = u.mem := State.after_mem (execCellInject_mem ..)
  unfold State.writeW0
  simp [hclear, hinject]

@[simp] theorem State.hostRead_mem (off size : Nat) : (s.hostRead off size).mem = s.mem := by
  unfold State.hostRead
  split
  · rfl
  · exact State.after_mem (execW0BadAccess_mem ..)

theorem execRegisterWrite_mem (fn off size val : Nat) : Goes (execRegisterWrite fn off size val s) fun t => t.mem = s.mem := by
  unfold execRegisterWrite
  split
  · rw [goes_next]
    exact foldl_keeps State.mem (fun _ _ => by simp) _ _
  · simp

/-! ### The front end -/

theorem execPacketParse_mem (die : Nat) : Goes (execPacketParse die s) fun t => t.mem = s.mem := by
  unfold execPacketParse
  split
  · simp
  · split
    · simp
    · rename_i hnext
      rw [goes_next]
      exact (nextPacket_walked hnext).mem

theorem packetEffect_mem {n type : Nat} {k : Queue → Packet → State → State} {s : State}
    (h : ∀ q p, (k q p s).mem = s.mem) : Goes (packetEffect n type k s) fun t => t.mem = s.mem := by
  unfold packetEffect
  split
  · simp
  · rw [goes_next]
    exact h _ _

theorem execNopPacket_mem (n : Nat) : Goes (execNopPacket n s) fun t => t.mem = s.mem := packetEffect_mem fun _ _ => rfl

theorem execEdge_mem (n : Nat) : Goes (execEdge n s) fun t => t.mem = s.mem := by
  refine packetEffect_mem fun q p => ?_
  simp only
  repeat' split
  all_goals simp

theorem execIb_mem (n : Nat) : Goes (execIb n s) fun t => t.mem = s.mem := packetEffect_mem fun _ _ => rfl

theorem execPred_mem (n : Nat) : Goes (execPred n s) fun t => t.mem = s.mem := packetEffect_mem fun _ _ => rfl

theorem execLoopPacket_mem (n : Nat) : Goes (execLoopPacket n s) fun t => t.mem = s.mem := packetEffect_mem fun _ _ => rfl

theorem execWait_mem (n : Nat) : Goes (execWait n s) fun t => t.mem = s.mem := by
  refine packetEffect_mem fun q p => ?_
  simp only
  repeat' split
  all_goals simp

theorem execWaitReevaluate_mem (n : Nat) : Goes (execWaitReevaluate n s) fun t => t.mem = s.mem := by
  refine packetEffect_mem fun q p => ?_
  repeat' split
  all_goals simp

theorem execWaitTimeout_mem (n : Nat) : Goes (execWaitTimeout n s) fun t => t.mem = s.mem := by
  refine packetEffect_mem fun q p => ?_
  repeat' split
  all_goals simp

theorem execFetchFence_mem (n : Nat) : Goes (execFetchFence n s) fun t => t.mem = s.mem := packetEffect_mem fun _ _ => rfl

theorem execCheckpoint_mem (n : Nat) : Goes (execCheckpoint n s) fun t => t.mem = s.mem := by
  refine packetEffect_mem fun q p => ?_
  simp only
  repeat' split
  all_goals simp

theorem execOwner_mem (n : Nat) : Goes (execOwner n s) fun t => t.mem = s.mem := packetEffect_mem fun _ _ => rfl

theorem execPacketPerform_mem (n : Nat) : Goes (execPacketPerform n s) fun t => t.mem = s.mem := by
  unfold execPacketPerform
  simp only []
  repeat' split
  all_goals simp

theorem execParserStallResume_mem (n : Nat) : Goes (execParserStallResume n s) fun t => t.mem = s.mem := by
  unfold execParserStallResume
  simp

theorem execDroneMismatch_mem : Goes (execDroneMismatch s) fun t => t.mem = s.mem := by
  unfold execDroneMismatch
  simp

theorem execDroneRecoveryEnd_mem : Goes (execDroneRecoveryEnd s) fun t => t.mem = s.mem := by
  unfold execDroneRecoveryEnd
  simp

theorem execReservation_mem (task : Nat) : Goes (execReservation task s) fun t => t.mem = s.mem := by
  unfold execReservation
  simp

theorem execDispenserRefill_mem (task die : Nat) : Goes (execDispenserRefill task die s) fun t => t.mem = s.mem := by
  unfold execDispenserRefill
  simp

theorem execBlockEnd_mem (r : BlockRef) : Goes (execBlockEnd r s) fun t => t.mem = s.mem := by
  unfold execBlockEnd
  split <;> simp

theorem execPowerUp_mem (strap pool0 pool1 failed : Nat) (signed : Bool) :
    Goes (execPowerUp strap pool0 pool1 failed signed s) fun t => t.mem = s.mem := by
  unfold execPowerUp
  simp

theorem execFieldPowerUp_mem (f : Nat) : Goes (execFieldPowerUp f s) fun t => t.mem = s.mem := by
  unfold execFieldPowerUp
  simp

theorem execFieldPowerDown_mem (f : Nat) : Goes (execFieldPowerDown f s) fun t => t.mem = s.mem := by
  unfold execFieldPowerDown
  simp

theorem execPwrWatchdog_mem (f : Nat) : Goes (execPwrWatchdog f s) fun t => t.mem = s.mem := by
  unfold execPwrWatchdog
  simp

theorem execAllowRefillWrite_mem (bench refill : Nat) : Goes (execAllowRefillWrite bench refill s) fun t => t.mem = s.mem := by
  unfold execAllowRefillWrite
  simp

theorem execSleepWake_mem (r : GroupRef) : Goes (execSleepWake r s) fun t => t.mem = s.mem := by
  unfold execSleepWake
  repeat' split
  all_goals simp

theorem execRegisterFill_mem (id : Nat) : Goes (execRegisterFill id s) fun t => t.mem = s.mem := by
  unfold execRegisterFill
  repeat' split
  all_goals simp

theorem execRegionTimeoutHead_mem (r : GroupRef) : Goes (execRegionTimeoutHead r s) fun t => t.mem = s.mem := by
  unfold execRegionTimeoutHead
  split <;> simp

theorem execRegionClose_mem (r : GroupRef) : Goes (execRegionClose r s) fun t => t.mem = s.mem := by
  unfold execRegionClose
  split <;> simp

theorem execCellCountDecay_mem (c : CellRef) : Goes (execCellCountDecay c s) fun t => t.mem = s.mem := by
  unfold execCellCountDecay
  simp

theorem execLinkEvent_mem (die link code lanes : Nat) : Goes (execLinkEvent die link code lanes s) fun t => t.mem = s.mem := by
  unfold execLinkEvent
  simp

theorem execShootdownDone_mem (die : Nat) : Goes (execShootdownDone die s) fun t => t.mem = s.mem := by
  unfold execShootdownDone
  simp

theorem execOwnerRetire_mem (owner : Nat) : Goes (execOwnerRetire owner s) fun t => t.mem = s.mem := by
  unfold execOwnerRetire
  simp

theorem execMonitorEvaluate_mem (id : Nat) : Goes (execMonitorEvaluate id s) fun t => t.mem = s.mem := by
  unfold execMonitorEvaluate
  split <;> simp

theorem execWaitcTimeout_mem (id : Nat) : Goes (execWaitcTimeout id s) fun t => t.mem = s.mem := by
  unfold execWaitcTimeout
  split <;> simp

theorem execLockPerform_mem (id : Nat) : Goes (execLockPerform id s) fun t => t.mem = s.mem := by
  unfold execLockPerform
  simp only []
  repeat' split
  all_goals simp

theorem execCourseUpdate_mem (id : Nat) : Goes (execCourseUpdate id s) fun t => t.mem = s.mem := by
  unfold execCourseUpdate
  repeat' split
  all_goals simp

theorem execSpawnPerform_mem (id : Nat) : Goes (execSpawnPerform id s) fun t => t.mem = s.mem := by
  unfold execSpawnPerform
  simp only []
  repeat' split
  all_goals simp

theorem execCaCountChange_mem (id : Nat) : Goes (execCaCountChange id s) fun t => t.mem = s.mem := by
  unfold execCaCountChange
  repeat' split
  all_goals simp

theorem execReclaimRelease_mem : Goes (execReclaimRelease s) fun t => t.mem = s.mem := by
  unfold execReclaimRelease
  split <;> simp

theorem execWaitcPerform_mem (id : Nat) : Goes (execWaitcPerform id s) fun t => t.mem = s.mem := by
  unfold execWaitcPerform
  repeat' split
  all_goals simp

theorem execIcinvDone_mem (r : GroupRef) : Goes (execIcinvDone r s) fun t => t.mem = s.mem := by
  unfold execIcinvDone
  repeat' split
  all_goals simp

theorem execFieldRampDone_mem (f : Nat) : Goes (execFieldRampDone f s) fun t => t.mem = s.mem := by
  unfold execFieldRampDone
  simp only []
  repeat' split
  all_goals simp

theorem execPeerRead_mem (owner pa len : Nat) : Goes (execPeerRead owner pa len s) fun t => t.mem = s.mem := by
  unfold execPeerRead
  simp

/-! ### Drone, power and traps -/

theorem execSpliceDecision_mem (task : Nat) : Goes (execSpliceDecision task s) fun t => t.mem = s.mem := by
  unfold execSpliceDecision
  simp only
  split
  · simp
  · split
    · simp
    · rename_i htests
      split
      all_goals
        rw [goes_next]
        exact (spliceTests_walked htests).mem

theorem execReservationPreempt_mem (task : Nat) : Goes (execReservationPreempt task s) fun t => t.mem = s.mem := by
  unfold execReservationPreempt
  split
  · simp
  · split
    · rename_i b _ _
      rw [goes_next]
      cases hstop : s.stopAll 1 (s.withCoresident b) with
      | none => rfl
      | some t => exact State.stopAll_mem hstop
    · simp

theorem execTaskRetire_mem (task : Nat) : Goes (execTaskRetire task s) fun t => t.mem = s.mem := by
  unfold execTaskRetire
  simp only
  split
  · simp
  · have hsuccs (f : Bool) (l : List Nat) (u : State) : (l.foldl (State.decPreds · f) u).mem = u.mem :=
      foldl_keeps State.mem (fun _ _ => by simp) _ _
    simp [hsuccs, State.retireTcb_mem]

theorem State.preemptTask_mem {s t : State} {task reason : Nat} (h : s.preemptTask task reason = some t) : t.mem = s.mem :=
  stopAll_mem h

theorem execPreempt_mem (die : Nat) : Goes (execPreempt die s) fun t => t.mem = s.mem := by
  unfold execPreempt
  simp only
  split
  · simp
  · split
    · simp
    · split
      · simp
      · split
        · simp
        · split
          · simp
          · split
            · simp
            · rename_i hstop
              simp [State.preemptTask_mem hstop]

theorem execKill_mem (die : Nat) : Goes (execKill die s) fun t => t.mem = s.mem := by
  unfold execKill
  simp

theorem execSupplyPath_mem (die pin fields : Nat) (drop : PathReading) :
    Goes (execSupplyPath die pin fields drop s) fun t => t.mem = s.mem := by
  unfold execSupplyPath
  split
  · simp
  · rw [goes_next, State.powerRecord_mem]
    exact foldl_keeps State.mem (fun _ _ => by rfl) _ _

theorem execFieldTrip_mem (f : Nat) : Goes (execFieldTrip f s) fun t => t.mem = s.mem := by
  unfold execFieldTrip
  split
  · rw [goes_next, State.powerRecord_mem]
    exact State.repattern_mem _ _ fun _ => rfl
  · simp

theorem execFieldTripRelease_mem (f : Nat) : Goes (execFieldTripRelease f s) fun t => t.mem = s.mem := by
  unfold execFieldTripRelease
  split
  · rw [goes_next]
    exact State.repattern_mem _ _ fun _ => rfl
  · simp

theorem execModtrip_mem (current : Nat) : Goes (execModtrip current s) fun t => t.mem = s.mem := by
  unfold execModtrip
  rw [goes_next, State.powerRecord_mem]
  exact State.repattern_mem _ _ fun _ => foldl_keeps State.mem (fun _ _ => by rfl) _ _

theorem execPwrUpdate_mem (pattern : BitVec 16) : Goes (execPwrUpdate pattern s) fun t => t.mem = s.mem := by
  unfold execPwrUpdate
  split
  · rw [goes_next, State.powerRecord_mem]
    exact State.repattern_mem _ _ fun _ => (foldl_keeps State.mem (fun _ _ => State.modBench_mem ..) allBenches _).trans rfl
  · simp

theorem execPwrUpdateEnd_mem : Goes (execPwrUpdateEnd s) fun t => t.mem = s.mem := by
  unfold execPwrUpdateEnd
  split
  · rw [goes_next]
    exact State.repattern_mem _ _ fun _ => (foldl_keeps State.mem (fun _ _ => State.modBench_mem ..) allBenches _).trans rfl
  · simp

theorem execThermal_mem (f sensor temp : Nat) : Goes (execThermal f sensor temp s) fun t => t.mem = s.mem := by
  unfold execThermal
  split
  · rw [goes_next, State.powerRecord_mem]
    exact State.repattern_mem _ _ fun _ => rfl
  · simp

theorem execThermalRelease_mem (f : SensorReading) : Goes (execThermalRelease f s) fun t => t.mem = s.mem := by
  unfold execThermalRelease
  split
  · rw [goes_next]
    exact State.repattern_mem _ _ fun _ => rfl
  · simp

theorem execStrumWrite_mem (bench : Nat) (pattern : BitVec 16) :
    Goes (execStrumWrite bench pattern s) fun t => t.mem = s.mem := by
  unfold execStrumWrite
  split
  · simp
  · split
    · rw [goes_next]
      exact State.repattern_mem _ _ fun _ => rfl
    · simp

theorem execSlewStep_mem : Goes (execSlewStep s) fun t => t.mem = s.mem := by
  unfold execSlewStep
  split
  · rw [goes_next]
    dsimp only
    exact foldl_keeps State.mem State.slewField_mem _ _
  · simp

theorem execThrottleEdge_mem (bench : Nat) : Goes (execThrottleEdge bench s) fun t => t.mem = s.mem := by
  unfold execThrottleEdge
  split
  · simp
  · rw [goes_next]
    exact (foldl_keeps State.mem (fun _ _ => by simp) _ _).trans (by simp)

theorem getD_mem {s : State} {o : Option State} (h : ∀ t, o = some t → t.mem = s.mem) : (o.getD s).mem = s.mem := by
  cases o with
  | none => rfl
  | some t => exact h t rfl

theorem execGroupSwap_mem (core : Nat) : Goes (execGroupSwap core s) fun t => t.mem = s.mem :=
  (goes_next _ _).mpr (getD_mem fun _ => State.swap_mem)

theorem execForcedSwap_mem (core : Nat) : Goes (execForcedSwap core s) fun t => t.mem = s.mem :=
  (goes_next _ _).mpr (getD_mem fun _ => State.forced_mem)

theorem execTrapEntry_mem (r : GroupRef) : Goes (execTrapEntry r s) fun t => t.mem = s.mem := by
  unfold execTrapEntry
  repeat' split
  all_goals simp

theorem execRegionCommit_mem (r : GroupRef) : Goes (execRegionCommit r s) fun t => t.mem = s.mem := by
  unfold execRegionCommit
  repeat' split
  all_goals simp

theorem execSensorReport_mem (c : CellRef) : Goes (execSensorReport c s) fun t => t.mem = s.mem := by
  unfold execSensorReport
  simp

theorem execEccCorr_mem (die array row : Nat) (spare : Bool) :
    Goes (execEccCorr die array row spare s) fun t => t.mem = s.mem := by
  unfold execEccCorr
  simp only
  repeat' split
  all_goals simp

theorem execPoison_mem (site : PoisonSite) : Goes (execPoison site s) fun t => t.mem = s.mem := by
  unfold execPoison
  split
  · simp
  · have hdefer (gs : List Group) : (gs.foldl
        (fun s g => if g.exited then s else s.modGroup g.ref fun g => g.deferFault none { code := 30 }) s).mem = s.mem :=
      foldl_keeps State.mem (fun u g => by simp) _ _
    simp only [goes_ite, goes_next, hdefer, State.report_mem, ite_self]

theorem execPageWalk_mem (owner die field va : Nat) : Goes (execPageWalk owner die field va s) fun t => t.mem = s.mem := by
  unfold execPageWalk
  split
  · rw [goes_next]
    exact (s.translateBy_walked (.unit field) owner va).mem
  · simp

theorem execCopyPieceRead_mem (bench entry : Nat) : Goes (execCopyPieceRead bench entry s) fun t => t.mem = s.mem := by
  unfold execCopyPieceRead
  simp

theorem execBarrierArrival_mem (id : Nat) : Goes (execBarrierArrival id s) fun t => t.mem = s.mem := by
  unfold execBarrierArrival
  repeat' split
  all_goals simp

theorem execJoinPerform_mem (id : Nat) : Goes (execJoinPerform id s) fun t => t.mem = s.mem := by
  unfold execJoinPerform
  split
  · split
    · split
      · simp
      · split
        · simp
        · split
          · simp
          · split
            · rename_i hstop
              simp [State.stopToSave_mem hstop]
            · simp
    · simp
  · simp

end

end Sys2Proof.Machine

namespace Sys2Proof.Machine

open Sys2Proof

/-! ## Writes keep memory canonical (log 107) -/

/-- The memory of `s` is in its canonical form. -/
def State.Canonical (s : State) : Prop := Memory.wf s.mem = true

namespace State.Canonical

section
variable {s t : State}

theorem of_mem (h : s.Canonical) (hm : t.mem = s.mem) : t.Canonical := by
  unfold State.Canonical
  rw [hm]
  exact h

theorem foldl {β : Type} {op : State → β → State} (h : s.Canonical) (hop : ∀ u x, u.Canonical → (op u x).Canonical)
    (l : List β) : (l.foldl op s).Canonical := List.foldlRecOn l op h fun u hu x _ => hop u x hu

theorem performWrite (h : s.Canonical) (key : Option KeyVal) (ws : List (Nat × Byte)) : (s.performWrite key ws).Canonical :=
  performWrite_wf s key ws h

theorem performBytes (h : s.Canonical) (key : Option KeyVal) (pa : Nat) (bs : List Byte) : (s.performBytes key pa bs).Canonical :=
  performBytes_wf s key pa bs h

theorem drainBytes (h : s.Canonical) (c : Copy) (p : Piece) : (s.drainBytes c p).Canonical := drainBytes_wf s c p h

theorem ite (c : Prop) [Decidable c] (hs : s.Canonical) (ht : t.Canonical) : (if c then s else t).Canonical := by
  split
  · exact hs
  · exact ht

end

/-! ### Loading an object (R448 to R455) -/

section
variable {s t : State}

theorem mapLeaf {die va pte table : Nat} {levels : List (Nat × Nat × Nat)} {frames left : List Nat} (h : s.Canonical)
    (hmap : s.mapLeaf die va pte levels table frames = some (t, left)) : t.Canonical := by
  induction levels generalizing s table frames with
  | nil => cases hmap
  | cons level rest ih =>
    obtain ⟨sh, w, name⟩ := level
    unfold State.mapLeaf at hmap
    simp only at hmap
    split at hmap
    · split at hmap
      · cases hmap
      · cases hmap
        exact h.performBytes ..
    · split at hmap
      · split at hmap
        · cases hmap
        · exact ih h hmap
      · split at hmap
        · cases hmap
        · exact ih ((h.performBytes ..).performBytes ..) hmap

theorem mapObject {o : Obj} {owner base die pa n : Nat} {frames left : List Nat} (h : s.Canonical)
    (hmap : s.mapObject o owner base die pa n frames = some (t, left)) : t.Canonical := by
  induction n generalizing t left with
  | zero => cases hmap; exact h
  | succ n ih =>
    unfold State.mapObject at hmap
    split at hmap
    · cases hmap
    · rename_i hfirst
      exact (ih hfirst).mapLeaf hmap

theorem mapBoth {o : Obj} {owner base pa0 pa1 : Nat} {frames : List Nat} (h : s.Canonical)
    (hmap : s.mapBoth o owner base pa0 pa1 frames = some t) : t.Canonical := by
  unfold State.mapBoth at hmap
  split at hmap
  · cases hmap
  · split at hmap
    · cases hmap
    · rename_i s1 fs hdie0
      obtain ⟨⟨u, left⟩, hdie1, rfl⟩ := Option.map_eq_some_iff.mp hmap
      exact (h.mapObject hdie0).mapObject hdie1

theorem writeCopy (h : s.Canonical) (o : Obj) (owner pa : Nat) (m : Image) : (s.writeCopy o owner pa m).Canonical :=
  h.foldl (fun _ _ hu => hu.performBytes ..) _

theorem except_bind_ok {ε α β : Type} {x : Except ε α} {f : α → Except ε β} {b : β} (h : x >>= f = .ok b) :
    ∃ a, x = .ok a ∧ f a = .ok b := by
  cases x with
  | error e => cases h
  | ok a => exact ⟨a, rfl, h⟩

theorem load {owner base pa0 pa1 : Nat} {frames : List Nat} {b : List Byte} (h : s.Canonical)
    (hload : s.load owner base pa0 pa1 frames b = .ok t) : t.Canonical := by
  unfold State.load at hload
  iterate 8 obtain ⟨_, -, hload⟩ := except_bind_ok hload
  split at hload
  · cases hload
  · rename_i hmap
    obtain ⟨m, -, hload⟩ := except_bind_ok hload
    cases hload
    exact ((h.mapBoth hmap).writeCopy ..).writeCopy ..

end

/-! ### Packets that write (R112, R127, R131 to R133) -/

section
variable {s : State}

theorem writesOf (h : s.Canonical) {k : State} (hk : k.Canonical) (n : Nat) (q : Queue) (p : Packet) :
    (s.writesOf n q p k).Canonical := by
  unfold State.writesOf
  split
  · exact .ite _ h hk
  · exact .ite _ hk (h.of_mem rfl)

theorem addSucc (h : s.Canonical) (task id : Nat) : (s.addSucc task id).Canonical := by
  have hcount (t : Tcb) : (s.setTcb task t).Canonical := h.of_mem (State.setTcb_mem ..)
  have hchunk (t : Tcb) (n : Nat) (d : Die) : ((s.setTcb task t).setDie n d).Canonical := (hcount t).of_mem (State.setDie_mem ..)
  unfold State.addSucc
  dsimp only
  split
  · exact (hcount _).performBytes ..
  · split
    · exact ((hchunk ..).performBytes ..).performBytes ..
    · exact ((hchunk ..).performBytes ..).of_mem (State.setTcb_mem ..)

end

/-! ### Checkpoints (R120 to R126) -/

section
variable {s : State}

theorem restoreRun (h : s.Canonical) (r : SinkRun) : (s.restoreRun r).Canonical :=
  sorted_foldl_tput (fun c => c) _ _ (sorted_filter _ _ h)

theorem restoreRuns (h : s.Canonical) (runs : List SinkRun) : (s.restoreRuns runs).1.Canonical := by
  induction runs generalizing s with
  | nil => exact h
  | cons r rest ih =>
    unfold State.restoreRuns
    split
    · exact ih h
    · split
      · exact h
      · exact ih (h.restoreRun r)

theorem checkpointEnd (h : s.Canonical) (c : Checkpoint) : (s.checkpointEnd c).2.2.Canonical := by
  unfold State.checkpointEnd
  dsimp only
  split
  · split
    · exact h.restoreRuns _
    · exact h.restoreRuns _
  · split
    · exact h.of_mem rfl
    · split
      · exact h.of_mem rfl
      · exact h.of_mem rfl

theorem performAt (h : s.Canonical) (owner : Nat) (bs : List (Nat × Byte)) : (s.performAt owner bs).Canonical :=
  h.foldl (fun _ _ hu => hu.performBytes ..) _

end

/-! ### Spill slots of saved and resumed blocks (R434, R440) -/

section
variable {s : State}

theorem writeSpill (h : s.Canonical) (owner field va : Nat) (bs : List Byte) : (s.writeSpill owner field va bs).Canonical := by
  induction bs generalizing s va with
  | nil => exact h
  | cons b bs ih =>
    have hwalk := placeScr_walked s (.unit field) owner false true va
    unfold State.writeSpill
    split
    all_goals
      rename_i heq
      rw [heq] at hwalk
    · exact ih ((h.of_mem hwalk.mem).performBytes ..) _
    · exact ih (h.of_mem hwalk.mem) _

theorem resumeBlock (h : s.Canonical) (b : Block) (lead : Nat) (spill : List Nat) : (s.resumeBlock b lead spill).Canonical := by
  unfold State.resumeBlock
  refine of_mem ?_ (State.deliverPending_mem ..)
  have hspill (f : Nat × Nat → List Byte) {u : State} (hu : u.Canonical) : (spill.zipIdx.foldl (fun s va =>
      s.writeSpill b.owner (fieldOfCore lead) va.1 (f va)) u).Canonical := hu.foldl (fun _ _ hu => hu.writeSpill ..) _
  have hcopies {u : State} (hu : u.Canonical) :
      (b.copiesSaved.foldl (fun s x => s.rehomeCopy (benchOfCore lead) x) u).Canonical :=
    hu.of_mem (foldl_keeps State.mem (fun _ _ => State.rehomeCopy_mem ..) _ _)
  refine .ite _ ?_ ?_
  · refine of_mem (of_mem (hcopies (hspill _ (of_mem h ?_))) (foldl_keeps State.mem (fun _ _ => State.answer_mem ..) _ _))
      (State.modBlock_mem ..)
    rw [State.modGroupsOf_mem, State.modBlock_mem, State.restoreArea_mem, State.setTcb_mem, State.hold_mem, State.freeUnits_mem]
  · refine hcopies (hspill _ (of_mem h ?_))
    rw [State.modGroupsOf_mem, State.modBlock_mem, State.restoreArea_mem, State.setTcb_mem, State.hold_mem, State.freeUnits_mem]

theorem finishSave (h : s.Canonical) (b : Block) (reason unit units : Nat) : (s.finishSave b reason unit units).Canonical := by
  have hslots : (s.readSlots b b.spillSlots).2.Canonical := h.of_mem (s.readSlots_walked b b.spillSlots).mem
  unfold State.finishSave
  dsimp only
  refine of_mem ?_ ((State.finishPctl_mem _).trans ((State.modGroupsOf_mem ..).trans ((State.modBlock_mem ..).trans
    ((State.returnStock_mem ..).trans ((State.clearEngines_mem ..).trans ((State.unhold_mem ..).trans
      (foldl_keeps State.mem (fun _ _ => State.endCopy_mem ..) _ _)))))))
  exact performBytes (of_mem hslots (State.settleQueries_mem ..)) ..

end

/-! ### Stores, atomics and content (R293, R311, R349, R383) -/

section
variable {s : State}

theorem performEntry (h : s.Canonical) (q : QEntry) : (s.performEntry q).Canonical := by
  have hset (q' : QEntry) : (s.setEntry q').Canonical := h.of_mem (State.setEntry_mem ..)
  unfold State.performEntry
  exact .ite _ ((hset _).of_mem (State.modBlock_mem ..)) ((hset _).performWrite ..)

theorem atomStep (h : s.Canonical) (owner op w : Nat) (l : AtomLane) : (s.atomStep owner op w l).2.Canonical := by
  obtain ⟨i, pa, c, b, d⟩ := l
  unfold State.atomStep
  dsimp only
  split
  · exact h
  · exact h.performBytes ..

theorem atomSteps (h : s.Canonical) (owner op w : Nat) (ls : List AtomLane) : (s.atomSteps owner op w ls).2.Canonical := by
  induction ls generalizing s with
  | nil => exact h
  | cons l ls ih => exact ih (h.atomStep owner op w l)

theorem caPut (h : s.Canonical) (owner : Nat) (kind : Bool) (c : List Byte) (hash : Nat) :
    (s.caPut owner kind c hash).2.Canonical := by
  have hchildren {u : State} (hu : u.Canonical) : ((caChildren c).foldl (fun s m => s.caInc owner m) u).Canonical :=
    hu.of_mem (foldl_keeps State.mem (fun _ _ => State.caInc_mem ..) _ _)
  have hlines (ls : List (Nat × W64 × CaLine)) : ({ s with caLines := ls } : State).Canonical := h
  unfold State.caPut
  split
  · exact h
  · split
    · exact h
    · split
      · exact h.of_mem (State.caInc_mem ..)
      · split
        · exact h
        · refine iteInduction (motive := fun r : Except (Nat × Nat) Nat × State => r.2.Canonical) (fun _ => ?_) fun _ => ?_
          · exact h.of_mem (State.setOwner_mem ..)
          · exact .ite _ (hchildren ((hlines _).performBytes ..)) ((hlines _).performBytes ..)

theorem hostWrite (h : s.Canonical) (pa : Nat) (bytes : List Byte) : (s.hostWrite pa bytes).Canonical := by
  unfold State.hostWrite
  split
  · exact h
  · split
    · exact h.foldl (fun _ _ hu => .ite _ (hu.of_mem (State.writeTcbByte_mem ..)) hu) _
    · exact h.performBytes ..

theorem peerWrite (h : s.Canonical) (owner pa : Nat) (bytes : List Byte) : (s.peerWrite owner pa bytes).Canonical := by
  unfold State.peerWrite
  exact .ite _ h (h.performBytes ..)

end

end State.Canonical

end Sys2Proof.Machine

namespace Sys2Proof.Machine

open Sys2Proof

/-! ## Events that write memory -/

theorem Goes.canonical {o : Host.Outcome State Fault Refusal} {s : State} (h : Goes o fun t => t.mem = s.mem) (hs : s.Canonical) :
    Goes o State.Canonical := h.imp fun _ hm => hs.of_mem hm

section
variable {s : State}

theorem execLoadObject_canonical (h : s.Canonical) (owner base pa0 pa1 : Nat) (frames : List Nat) (bytes : List Byte) :
    Goes (execLoadObject owner base pa0 pa1 frames bytes s) State.Canonical := by
  unfold execLoadObject
  split
  · rename_i hload
    exact (goes_next ..).mpr (h.load hload)
  · exact (goes_next ..).mpr (h.of_mem rfl)

/-! ### Packets -/

theorem packetEffect_canonical {n type : Nat} {k : Queue → Packet → State → State} (h : s.Canonical)
    (hk : ∀ q p, (k q p s).Canonical) : Goes (packetEffect n type k s) State.Canonical := by
  unfold packetEffect
  split
  · exact (goes_next ..).mpr h
  · exact (goes_next ..).mpr (hk _ _)

theorem execWrite_canonical (h : s.Canonical) (n : Nat) : Goes (execWrite n s) State.Canonical :=
  packetEffect_canonical h fun q p => h.writesOf
    (State.Canonical.of_mem (h.foldl (fun _ _ hu => hu.performBytes ..) _) (State.packetDone_mem _ n p)) n q p

theorem execTimestamp_canonical (h : s.Canonical) (n : Nat) : Goes (execTimestamp n s) State.Canonical :=
  packetEffect_canonical h fun q p => h.writesOf ((h.performBytes ..).of_mem (State.packetDone_mem _ n p)) n q p

theorem State.Canonical.msix (h : s.Canonical) (vs : List Nat) : ({ s with msix := vs } : State).Canonical := h

theorem execSignal_canonical (h : s.Canonical) (n : Nat) : Goes (execSignal n s) State.Canonical := by
  refine packetEffect_canonical h fun q p => ?_
  dsimp only
  refine .ite _ h (h.writesOf ?_ n q p)
  exact ((h.performBytes ..).msix _).of_mem (State.packetDone_mem ..)

theorem execLaunch_canonical (h : s.Canonical) (n : Nat) : Goes (execLaunch n s) State.Canonical := by
  refine packetEffect_canonical h fun q p => ?_
  have hsuccs (id : Nat) (l : List Nat) : (l.foldl (State.addSucc · · id) s).Canonical := h.foldl (fun _ _ hu => hu.addSucc ..) _
  have hnext {u : State} (hu : u.Canonical) (k id : Nat) (t : Tcb) : (({ u with nextId := k } : State).setTcb id t).Canonical :=
    hu.of_mem rfl
  refine .ite _ (h.of_mem (State.setQueue_mem ..)) ?_
  split
  · exact h
  · dsimp only
    refine State.Canonical.of_mem ?_ ((State.packetDone_mem ..).trans (State.setQueue_mem ..))
    split
    · exact .ite _ ((hnext (hsuccs ..) ..).of_mem (State.freeTask_mem ..)) (hnext (hsuccs ..) ..)
    · exact hnext (hsuccs ..) ..

theorem execCheckpointDone_canonical (h : s.Canonical) (n : Nat) : Goes (execCheckpointDone n s) State.Canonical := by
  unfold execCheckpointDone
  split
  · split
    · exact (goes_next ..).mpr h
    · refine (goes_next ..).mpr (h.writesOf ?_ ..)
      exact State.Canonical.of_mem (.performAt (h.checkpointEnd _) ..) rfl
  · exact (goes_next ..).mpr h

/-! ### Stores, atomics, records -/

theorem execStoreDrain_canonical (h : s.Canonical) (id : Nat) : Goes (execStoreDrain id s) State.Canonical := by
  unfold execStoreDrain
  split
  · exact (goes_next ..).mpr h
  · split
    · exact (goes_next ..).mpr h
    · split
      · exact (goes_next ..).mpr (h.of_mem rfl)
      · split
        · exact (goes_next ..).mpr (h.of_mem rfl)
        · split
          · exact (goes_next ..).mpr (h.performEntry _)
          · exact (goes_next ..).mpr h

theorem execTaggedHoldEnd_canonical (h : s.Canonical) (id : Nat) : Goes (execTaggedHoldEnd id s) State.Canonical := by
  unfold execTaggedHoldEnd
  split
  · exact (goes_next ..).mpr h
  · split
    · exact (goes_next ..).mpr (h.performEntry _)
    · exact (goes_next ..).mpr h

theorem execEventRecordWrite_canonical (h : s.Canonical) (die : Nat) : Goes (execEventRecordWrite die s) State.Canonical := by
  have hevents (es : List EventRec) : ({ s with events := es } : State).Canonical := h
  unfold execEventRecordWrite
  split
  · exact (goes_next ..).mpr h
  · split
    · exact (goes_next ..).mpr h
    · dsimp only
      split
      · exact (goes_next ..).mpr ((hevents _).of_mem (State.setDie_mem ..))
      · refine (goes_next ..).mpr (.ite _ ?_ ?_)
        · exact (((hevents _).performBytes ..).of_mem (State.setDie_mem ..)).msix _
        · exact ((hevents _).performBytes ..).of_mem (State.setDie_mem ..)

theorem execCopyPieceDrain_canonical (h : s.Canonical) (bench entry : Nat) :
    Goes (execCopyPieceDrain bench entry s) State.Canonical := by
  unfold execCopyPieceDrain
  dsimp only
  split
  · exact (goes_next ..).mpr h
  · split
    · exact (goes_next ..).mpr (h.of_mem (State.copyFaults_mem ..))
    · split
      · exact (goes_next ..).mpr (h.of_mem (State.setCopy_mem ..))
      · refine (goes_next ..).mpr (.ite _ ?_ ?_)
        · exact ((h.drainBytes ..).of_mem (State.setCopy_mem ..)).of_mem (State.finishCopy_mem ..)
        · exact ((h.drainBytes ..).of_mem (State.setCopy_mem ..)).of_mem (State.copyFaults_mem ..)

theorem execAtomicPerform_canonical (h : s.Canonical) (id : Nat) : Goes (execAtomicPerform id s) State.Canonical := by
  unfold execAtomicPerform
  split
  · split
    · split
      · exact (goes_next ..).mpr h
      · dsimp only
        split
        · exact (goes_next ..).mpr (((h.atomSteps ..).of_mem (State.dropPending_mem ..)).of_mem
            ((State.sendReady_mem _).trans (State.atomDone_mem ..)))
        · exact (goes_next ..).mpr ((h.atomSteps ..).of_mem ((State.sendReady_mem _).trans (State.setPending_mem ..)))
    · exact (goes_next ..).mpr h
  · exact (goes_next ..).mpr h

theorem execCaputPerform_canonical (h : s.Canonical) (id : Nat) : Goes (execCaputPerform id s) State.Canonical := by
  unfold execCaputPerform
  split
  · split
    · split
      · exact (goes_next ..).mpr h
      · have hput := (h.of_mem (State.dropPending_mem s id)).caPut
        dsimp only
        split
        · exact (goes_next ..).mpr ((hput ..).of_mem ((State.sendReady_mem _).trans (State.answer_mem ..)))
        · exact (goes_next ..).mpr ((hput ..).of_mem ((State.sendReady_mem _).trans (State.answer_mem ..)))
    · exact (goes_next ..).mpr h
  · exact (goes_next ..).mpr h

theorem execCaswapPerform_canonical (h : s.Canonical) (id : Nat) : Goes (execCaswapPerform id s) State.Canonical := by
  have hdrop : (s.dropPending id).Canonical := h.of_mem (State.dropPending_mem ..)
  unfold execCaswapPerform
  split
  · split
    · split
      · exact (goes_next ..).mpr h
      · dsimp only
        split
        · exact (goes_next ..).mpr (hdrop.of_mem ((State.sendReady_mem _).trans (State.answer_mem ..)))
        · refine (goes_next ..).mpr (State.Canonical.of_mem ?_ ((State.sendReady_mem _).trans (State.answer_mem ..)))
          exact .ite _ (hdrop.performBytes ..) hdrop
    · exact (goes_next ..).mpr h
  · exact (goes_next ..).mpr h

theorem execSaveComplete_canonical (h : s.Canonical) (r : BlockRef) : Goes (execSaveComplete r s) State.Canonical := by
  unfold execSaveComplete
  split
  · split
    · exact (goes_next ..).mpr (.ite _ (h.finishSave ..) h)
    · exact (goes_next ..).mpr h
  · exact (goes_next ..).mpr h

end

/-! ### The dispatcher (R102, R434, R440) -/

section
variable {s t : State}

theorem State.taskKernel_mem (s : State) (task : Nat) : (placedState (s.taskKernel task)).mem = s.mem := by
  have hread := s.readKernel_walked (s.tcb task).owner (4 * dieOfTask task) (s.tcb task).kdesc (s.tcb task).args
  unfold State.taskKernel
  dsimp only
  split
  · rfl
  · split
    · rename_i heq
      rw [heq] at hread
      exact hread.mem
    · rename_i k s1 heq
      rw [heq] at hread
      split
      · split
        · exact hread.mem
        · have hchild := s1.readKernel_walked (s.tcb (s.tcb task).fusedWith).owner (4 * dieOfTask task)
            (s.tcb (s.tcb task).fusedWith).kdesc (s.tcb (s.tcb task).fusedWith).args
          split
          all_goals
            rename_i heq'
            rw [heq'] at hchild
          · exact (hread.trans hchild).mem
          · exact (hread.trans hchild).mem
      · exact hread.mem

theorem State.fixBlocks_mem (s : State) (task : Nat) (k : Kernel) : (s.fixBlocks task k).1.mem = s.mem := by
  unfold State.fixBlocks
  dsimp only
  split
  · rfl
  · exact State.setTcb_mem ..

theorem State.placeOne_mem {task mask : Nat} {k : Kernel} (h : s.placeOne task k mask = some t) : t.mem = s.mem := by
  unfold State.placeOne at h
  split at h
  · cases h
    exact State.startBlock_mem ..
  · cases h

theorem State.placeMany_mem {task mask n : Nat} {k : Kernel} (h : s.placeMany task k mask n = some t) : t.mem = s.mem := by
  induction n generalizing s with
  | zero => cases h; rfl
  | succ n ih =>
    unfold State.placeMany at h
    split at h
    · cases h
    · rename_i hfirst
      exact (ih h).trans (placeOne_mem hfirst)

theorem State.Canonical.resumeOne {mask : Nat} {b : Block} (h : s.Canonical) (hresume : s.resumeOne mask b = some t) :
    t.Canonical := by
  unfold State.resumeOne at hresume
  split at hresume
  · cases hresume
    exact h.resumeBlock ..
  · cases hresume

theorem State.Canonical.resumeMany {mask : Nat} {bs : List Block} (h : s.Canonical) (hresume : s.resumeMany mask bs = some t) :
    t.Canonical := by
  induction bs generalizing s with
  | nil => cases hresume; exact h
  | cons b bs ih =>
    unfold State.resumeMany at hresume
    split at hresume
    · cases hresume
    · rename_i hfirst
      exact ih (h.resumeOne hfirst) hresume

/-- The state that a candidate's chance leaves. -/
def Chance.state : Chance → State
  | .ends s => s
  | .places s => s
  | .passed s => s

theorem State.Canonical.tryResume (h : s.Canonical) (r : BlockRef) (mask : Nat) : (s.tryResume r mask).state.Canonical := by
  unfold State.tryResume
  dsimp only
  split
  · exact h
  · split
    · split
      · exact h.of_mem (State.endTask_mem ..)
      · split
        · split
          · rename_i hresume
            exact h.resumeMany hresume
          · exact h
        · exact h
    · split
      · rename_i hresume
        exact h.resumeOne hresume
      · exact h

theorem State.tryTask_mem (s : State) (task mask : Nat) : (s.tryTask task mask).state.mem = s.mem := by
  have hkernel := s.taskKernel_mem task
  unfold State.tryTask
  dsimp only
  split
  · exact State.endTask_mem ..
  · split
    · exact State.toRetiring_mem ..
    · split
      · rename_i heq
        rw [heq] at hkernel
        exact (State.endTask_mem ..).trans hkernel
      · rename_i k s1 heq
        rw [heq] at hkernel
        have hfix := (s1.fixBlocks_mem task k).trans hkernel
        split
        · exact (State.endTask_mem ..).trans hfix
        · split
          · rename_i hplace
            split at hplace
            · exact (placeMany_mem hplace).trans hfix
            · exact (placeOne_mem hplace).trans hfix
          · exact hfix

theorem State.Canonical.tryCandidate (h : s.Canonical) (c : Candidate) (mask : Nat) : (s.tryCandidate c mask).state.Canonical := by
  unfold State.tryCandidate
  split
  · exact h.of_mem (State.tryTask_mem ..)
  · exact h.tryResume ..

theorem State.Canonical.dispatch (h : s.Canonical) (cs : List Candidate) (mask : Nat) (passed : List Nat) :
    (s.dispatch cs mask passed).2.2.Canonical ∧ ∀ x, (s.dispatch cs mask passed).1 = some x → x.2.Canonical := by
  induction cs generalizing s mask passed with
  | nil => exact ⟨h, fun _ hx => by cases hx⟩
  | cons c cs ih =>
    have hchance := h.tryCandidate c mask
    unfold State.dispatch
    split
    all_goals
      rename_i s1 heq
      rw [heq] at hchance
    · exact ⟨h, fun _ hx => by cases hx; exact hchance⟩
    · exact ⟨h, fun _ hx => by cases hx; exact hchance⟩
    · exact ih hchance _ _

theorem State.Canonical.dispatchDie (h : s.Canonical) (die : Nat) :
    (s.dispatchDie die).2.2.Canonical ∧ ∀ x, (s.dispatchDie die).1 = some x → x.2.Canonical := by
  unfold State.dispatchDie
  split
  · exact h.dispatch ..
  · exact ⟨h, fun _ hx => by cases hx⟩

theorem execPlaceBlock_canonical (h : s.Canonical) (die : Nat) : Goes (execPlaceBlock die s) State.Canonical := by
  obtain ⟨hrest, hpick⟩ := h.dispatchDie die
  unfold execPlaceBlock
  split
  rename_i pick passed s0 heq
  rw [heq] at hrest hpick
  split
  · exact (goes_next ..).mpr (State.Canonical.of_mem (.ite _ (hpick _ rfl) hrest) (State.notePassed_mem ..))
  · exact (goes_next ..).mpr (hrest.of_mem (State.notePassed_mem ..))

theorem execBlockResume_canonical (h : s.Canonical) (r : BlockRef) : Goes (execBlockResume r s) State.Canonical := by
  obtain ⟨-, hpick⟩ := h.dispatchDie (dieOfTask r.task)
  unfold execBlockResume
  split
  · rename_i heq
    exact (goes_next ..).mpr (.ite _ (hpick _ heq) h)
  · exact (goes_next ..).mpr h

end

end Sys2Proof.Machine

namespace Sys2Proof.Machine

open Sys2Proof

/-! ## Every instruction and event keeps memory canonical -/

theorem exec_canonical_of_encode {i : Instr} {s : State} (h : s.Canonical) (hcoded : encode i ≠ []) :
    Goes (exec i s) State.Canonical := by
  refine ⟨fun t ht => ?_⟩
  obtain ⟨r, -, hout⟩ := exec_keepsOutside hcoded s t ht
  exact h.of_mem (congrArg Outside.mem hout)

theorem exec_canonical {i : Instr} {s : State} (h : s.Canonical) : Goes (exec i s) State.Canonical := by
  by_cases hcoded : encode i ≠ []
  · exact exec_canonical_of_encode h hcoded
  replace hcoded := not_not.mp hcoded
  cases i with simp only [exec.eq_def]
  | loadObject => exact execLoadObject_canonical h ..
  | write => exact execWrite_canonical h ..
  | launch => exact execLaunch_canonical h ..
  | signal => exact execSignal_canonical h ..
  | timestamp => exact execTimestamp_canonical h ..
  | checkpointDone => exact execCheckpointDone_canonical h ..
  | placeBlock => exact execPlaceBlock_canonical h ..
  | blockResume => exact execBlockResume_canonical h ..
  | saveComplete => exact execSaveComplete_canonical h ..
  | storeDrain => exact execStoreDrain_canonical h ..
  | taggedHoldEnd => exact execTaggedHoldEnd_canonical h ..
  | eventRecordWrite => exact execEventRecordWrite_canonical h ..
  | copyPieceDrain => exact execCopyPieceDrain_canonical h ..
  | atomicPerform => exact execAtomicPerform_canonical h ..
  | caputPerform => exact execCaputPerform_canonical h ..
  | caswapPerform => exact execCaswapPerform_canonical h ..
  | registerWrite => exact (execRegisterWrite_mem ..).canonical h
  | w0BadAccess => exact (execW0BadAccess_mem ..).canonical h
  | qwptrWrite => exact (execQwptrWrite_mem ..).canonical h
  | queueEnable => exact (execQueueEnable_mem ..).canonical h
  | queueHalt => exact (execQueueHalt_mem ..).canonical h
  | packetParse => exact (execPacketParse_mem ..).canonical h
  | packetPerform => exact (execPacketPerform_mem ..).canonical h
  | nopPacket => exact (execNopPacket_mem ..).canonical h
  | edge => exact (execEdge_mem ..).canonical h
  | ib => exact (execIb_mem ..).canonical h
  | pred => exact (execPred_mem ..).canonical h
  | loopPacket => exact (execLoopPacket_mem ..).canonical h
  | wait => exact (execWait_mem ..).canonical h
  | waitReevaluate => exact (execWaitReevaluate_mem ..).canonical h
  | waitTimeout => exact (execWaitTimeout_mem ..).canonical h
  | fetchFence => exact (execFetchFence_mem ..).canonical h
  | checkpoint => exact (execCheckpoint_mem ..).canonical h
  | owner => exact (execOwner_mem ..).canonical h
  | parserStallResume => exact (execParserStallResume_mem ..).canonical h
  | droneMismatch => exact (execDroneMismatch_mem ..).canonical h
  | droneRecoveryEnd => exact (execDroneRecoveryEnd_mem ..).canonical h
  | spliceDecision => exact (execSpliceDecision_mem ..).canonical h
  | reservation => exact (execReservation_mem ..).canonical h
  | reservationPreempt => exact (execReservationPreempt_mem ..).canonical h
  | dispenserRefill => exact (execDispenserRefill_mem ..).canonical h
  | blockEnd => exact (execBlockEnd_mem ..).canonical h
  | taskRetire => exact (execTaskRetire_mem ..).canonical h
  | preempt => exact (execPreempt_mem ..).canonical h
  | kill => exact (execKill_mem ..).canonical h
  | powerUp => exact (execPowerUp_mem ..).canonical h
  | fieldPowerUp => exact (execFieldPowerUp_mem ..).canonical h
  | fieldPowerDown => exact (execFieldPowerDown_mem ..).canonical h
  | supplyPath => exact (execSupplyPath_mem ..).canonical h
  | fieldTrip => exact (execFieldTrip_mem ..).canonical h
  | fieldTripRelease => exact (execFieldTripRelease_mem ..).canonical h
  | modtrip => exact (execModtrip_mem ..).canonical h
  | pwrWatchdog => exact (execPwrWatchdog_mem ..).canonical h
  | pwrUpdate => exact (execPwrUpdate_mem ..).canonical h
  | thermal => exact (execThermal_mem ..).canonical h
  | thermalRelease => exact (execThermalRelease_mem ..).canonical h
  | strumWrite => exact (execStrumWrite_mem ..).canonical h
  | allowRefillWrite => exact (execAllowRefillWrite_mem ..).canonical h
  | slewStep => exact (execSlewStep_mem ..).canonical h
  | throttleEdge => exact (execThrottleEdge_mem ..).canonical h
  | groupSwap => exact (execGroupSwap_mem ..).canonical h
  | forcedSwap => exact (execForcedSwap_mem ..).canonical h
  | sleepWake => exact (execSleepWake_mem ..).canonical h
  | registerFill => exact (execRegisterFill_mem ..).canonical h
  | trapEntry => exact (execTrapEntry_mem ..).canonical h
  | regionTimeoutHead => exact (execRegionTimeoutHead_mem ..).canonical h
  | regionClose => exact (execRegionClose_mem ..).canonical h
  | regionCommit => exact (execRegionCommit_mem ..).canonical h
  | sensorReport => exact (execSensorReport_mem ..).canonical h
  | cellCountDecay => exact (execCellCountDecay_mem ..).canonical h
  | cellInject => exact (execCellInject_mem ..).canonical h
  | cellClear => exact (execCellClear_mem ..).canonical h
  | eccCorr => exact (execEccCorr_mem ..).canonical h
  | poison => exact (execPoison_mem ..).canonical h
  | linkEvent => exact (execLinkEvent_mem ..).canonical h
  | pageWalk => exact (execPageWalk_mem ..).canonical h
  | shootdown => exact (execShootdown_mem ..).canonical h
  | shootdownDone => exact (execShootdownDone_mem ..).canonical h
  | ownerRetire => exact (execOwnerRetire_mem ..).canonical h
  | capDisable => exact (execCapDisable_mem ..).canonical h
  | copyPieceRead => exact (execCopyPieceRead_mem ..).canonical h
  | monitorEvaluate => exact (execMonitorEvaluate_mem ..).canonical h
  | waitcTimeout => exact (execWaitcTimeout_mem ..).canonical h
  | lockPerform => exact (execLockPerform_mem ..).canonical h
  | barrierArrival => exact (execBarrierArrival_mem ..).canonical h
  | courseUpdate => exact (execCourseUpdate_mem ..).canonical h
  | spawnPerform => exact (execSpawnPerform_mem ..).canonical h
  | joinPerform => exact (execJoinPerform_mem ..).canonical h
  | caCountChange => exact (execCaCountChange_mem ..).canonical h
  | reclaimRelease => exact (execReclaimRelease_mem ..).canonical h
  | waitcPerform => exact (execWaitcPerform_mem ..).canonical h
  | icinvDone => exact (execIcinvDone_mem ..).canonical h
  | fieldRampDone => exact (execFieldRampDone_mem ..).canonical h
  | pwrUpdateEnd => exact (execPwrUpdateEnd_mem ..).canonical h
  | keyWrite => exact (execKeyWrite_mem ..).canonical h
  | peerRead => exact (execPeerRead_mem ..).canonical h
  | _ => exact absurd hcoded (List.cons_ne_nil _ _)

end Sys2Proof.Machine

namespace Sys2Proof.Machine

open Sys2Proof

/-! ## What the schedule goes to leaves memory as it was -/

/-- The state that a choice starts from. -/
def Choice.state : Choice → State
  | .event _ s => s
  | .issue _ _ _ s => s
  | .done s => s

/-- Where an attempt comes to a choice, memory is that of `s` there. -/
def LeavesMem (s : State) (o : Option Choice) : Prop := ∀ c, o = some c → c.state.mem = s.mem

section
variable {s : State}

theorem leavesMem_none : LeavesMem s none := fun _ h => nomatch h

theorem leavesMem_some {c : Choice} (h : c.state.mem = s.mem) : LeavesMem s (some c) := fun _ hc => by cases hc; exact h

theorem leavesMem_ite {p : Prop} [Decidable p] {a b : Option Choice} (ha : LeavesMem s a) (hb : LeavesMem s b) :
    LeavesMem s (if p then a else b) := by
  split
  · exact ha
  · exact hb

theorem leavesMem_map {α : Type} {o : Option α} {f : α → Choice} (h : ∀ a, (f a).state.mem = s.mem) :
    LeavesMem s (o.map f) := by
  cases o with
  | none => exact leavesMem_none
  | some a => exact leavesMem_some (h a)

theorem leavesMem_orElse {o : Option Choice} {p : Unit → Option Choice} (ho : LeavesMem s o) (hp : LeavesMem s (p ())) :
    LeavesMem s (o.orElse p) := by
  cases o with
  | none => exact hp
  | some c => exact ho

theorem leavesMem_findSome? {α : Type} {l : List α} {f : α → Option Choice} (h : ∀ a, LeavesMem s (f a)) :
    LeavesMem s (l.findSome? f) := by
  intro c hc
  obtain ⟨a, -, ha⟩ := List.exists_of_findSome?_eq_some hc
  exact h a c ha

theorem leavesMem_firstOf {fs : List (Unit → Option Choice)} (h : fs.Forall fun f => LeavesMem s (f ())) :
    LeavesMem s (firstOf fs) := by
  induction fs with
  | nil => exact leavesMem_none
  | cons f fs ih =>
    obtain ⟨hf, hfs⟩ := (List.forall_cons _ _ _).mp h
    unfold firstOf
    split
    · rename_i c hc
      exact leavesMem_some (hf c hc)
    · exact ih hfs

theorem leavesMem_dueAt {l : List Nat} {p : Nat → Bool} {i : Nat → Instr} : LeavesMem s (dueAt l p i s) :=
  leavesMem_map fun _ => rfl

theorem leavesMem_when {a : Bool} {c : Choice} (h : c.state.mem = s.mem) : LeavesMem s (when a c) :=
  leavesMem_ite (leavesMem_some h) leavesMem_none

end

/-! ### What is due -/

section
variable (s : State)

theorem dueReport_leavesMem : LeavesMem s s.dueReport :=
  leavesMem_firstOf ⟨leavesMem_map fun _ => State.takeMessage_mem .., leavesMem_map fun _ => rfl⟩

theorem duePower_leavesMem : LeavesMem s s.duePower :=
  leavesMem_firstOf ⟨leavesMem_dueAt, leavesMem_dueAt, leavesMem_map fun _ => State.returnInrush_mem .., leavesMem_dueAt,
    leavesMem_dueAt, leavesMem_dueAt, leavesMem_map fun _ => rfl⟩

theorem dueWaits_leavesMem : LeavesMem s s.dueWaits := by
  refine leavesMem_findSome? fun g => leavesMem_orElse ?_ (leavesMem_when rfl)
  split
  · exact leavesMem_when rfl
  · exact leavesMem_when rfl
  · exact leavesMem_none

theorem dueRegions_leavesMem : LeavesMem s s.dueRegions :=
  leavesMem_firstOf ⟨leavesMem_map fun _ => rfl, leavesMem_map fun _ => rfl, leavesMem_map fun _ => rfl,
    leavesMem_map fun _ => State.takeRow_mem .., leavesMem_map fun _ => rfl⟩

theorem Pending.choice_mem (p : Pending) : (p.choice s).state.mem = s.mem := by
  unfold Pending.choice
  split <;> rfl

theorem dueRequests_leavesMem : LeavesMem s s.dueRequests :=
  leavesMem_firstOf ⟨leavesMem_map fun p => p.choice_mem s, leavesMem_map fun _ => rfl,
    leavesMem_when (State.after_mem (execReclaimRelease_mem s))⟩

theorem dueTimeouts_leavesMem : LeavesMem s s.dueTimeouts := leavesMem_map fun _ => rfl

theorem dueCopies_leavesMem : LeavesMem s s.dueCopies := leavesMem_firstOf ⟨leavesMem_dueAt, leavesMem_dueAt⟩

theorem duePacket_leavesMem (n : Nat) : LeavesMem s (s.duePacket n) := by
  intro c hc
  unfold State.duePacket at hc
  repeat' split at hc
  all_goals cases hc <;> rfl

theorem dueFront_leavesMem : LeavesMem s s.dueFront :=
  leavesMem_firstOf ⟨leavesMem_when rfl, leavesMem_findSome? fun q => duePacket_leavesMem s q.1, leavesMem_dueAt⟩

theorem duePlace_leavesMem (die : Nat) : LeavesMem s (s.duePlace die) := by
  unfold State.duePlace
  split
  split
  · split
    · exact leavesMem_some rfl
    · exact leavesMem_some rfl
  · exact leavesMem_when rfl

theorem duePctl_leavesMem (die : Nat) : LeavesMem s (s.duePctl die) :=
  leavesMem_ite leavesMem_none (leavesMem_ite (leavesMem_when rfl) (leavesMem_when rfl))

theorem dueStops_leavesMem : LeavesMem s s.dueStops :=
  leavesMem_firstOf ⟨leavesMem_orElse (duePctl_leavesMem s 0) (duePctl_leavesMem s 1), leavesMem_map fun _ => rfl,
    leavesMem_map fun p => p.choice_mem s⟩

theorem dueTasks_leavesMem : LeavesMem s s.dueTasks :=
  leavesMem_firstOf ⟨leavesMem_map fun _ => rfl, leavesMem_map fun _ => rfl, leavesMem_map fun _ => rfl,
    leavesMem_map fun _ => rfl, leavesMem_map fun _ => rfl, leavesMem_orElse (duePlace_leavesMem s 0) (duePlace_leavesMem s 1),
    leavesMem_findSome? fun _ => leavesMem_map fun _ => rfl⟩

theorem dueSystem_leavesMem : LeavesMem s s.dueSystem := leavesMem_firstOf ⟨leavesMem_dueAt, leavesMem_dueAt, leavesMem_dueAt⟩

theorem dueSwaps_leavesMem : LeavesMem s s.dueSwaps :=
  leavesMem_firstOf ⟨leavesMem_map fun _ => State.modGroup_mem .., leavesMem_dueAt, leavesMem_dueAt⟩

theorem dueTraps_leavesMem : LeavesMem s s.dueTraps := leavesMem_map fun _ => rfl

theorem dueEvent_leavesMem : LeavesMem s s.dueEvent :=
  leavesMem_firstOf ⟨dueReport_leavesMem s, dueStops_leavesMem s, duePower_leavesMem s, dueWaits_leavesMem s,
    dueRegions_leavesMem s, dueRequests_leavesMem s, dueCopies_leavesMem s, dueFront_leavesMem s, dueTimeouts_leavesMem s,
    dueTasks_leavesMem s, dueSystem_leavesMem s, dueSwaps_leavesMem s, dueTraps_leavesMem s⟩

theorem dueSlew_leavesMem : LeavesMem s s.dueSlew := leavesMem_when rfl

theorem dueStrike_leavesMem : LeavesMem s s.dueStrike := leavesMem_map fun _ => State.strike_mem ..

end

/-! ### Issue (R166, R170) -/

/-- The state of a group's turn. -/
def Turn.state : Turn → State
  | .trap s => s
  | .run _ _ s => s

section
variable (s : State)

theorem turn_mem (g : Group) (b : Block) : (s.turn g b).state.mem = s.mem := by
  have hfetch := fetchInstr_mem s b g.core g.arch.pc
  unfold State.turn
  split
  · rename_i heq
    rw [heq] at hfetch
    exact (trapAt_mem ..).trans hfetch
  · rename_i heq
    rw [heq] at hfetch
    split
    · exact (trapAt_mem ..).trans hfetch
    · exact hfetch

theorem choice_offer_mem (g : Group) (b : Block) : (s.offer g b).choice.state.mem = s.mem := by
  have hturn := turn_mem s g b
  unfold Offer.choice
  rw [offer_turn]
  split
  all_goals
    rename_i heq
    rw [heq] at hturn
  · exact (State.settle_mem ..).trans hturn
  · exact hturn

theorem pay_leavesMem {bench : Nat} {os : List Offer} (h : ∀ o ∈ os, o.choice.state.mem = s.mem) :
    LeavesMem s (s.pay bench os) := by
  unfold State.pay
  split
  · rename_i hwaits
    exact leavesMem_some (h _ (List.mem_of_find?_eq_some hwaits))
  · split
    · exact leavesMem_none
    · rename_i hsort
      have hmem := mem_of_mem_sortBy (hsort ▸ List.mem_cons_self)
      exact leavesMem_ite (leavesMem_some (h _ hmem)) (leavesMem_some (State.withhold_mem ..))

theorem dueIssue_leavesMem : LeavesMem s s.dueIssue := by
  refine leavesMem_findSome? fun bench => pay_leavesMem s fun o ho => ?_
  obtain ⟨g, b, rfl, -⟩ := mem_offers ho
  exact choice_offer_mem s g b

end

/-! ### Inputs, and the step -/

section
variable {s : State}

@[simp] theorem State.prefetch_mem (s : State) (r : GroupRef) (va : Nat) : (s.prefetch r va).mem = s.mem := by
  unfold State.prefetch
  split
  · rename_i g b _ _
    have hplace := fetchTranslate_mem s (.core g.core) b.owner (va / 32 * 32)
    split
    all_goals
      rename_i heq
      rw [heq] at hplace
    · exact (State.holdLine_mem ..).trans hplace
    · exact hplace
  · rfl

theorem State.Canonical.move (h : s.Canonical) (m : Move) : (s.move m).Canonical := by
  cases m with
  | hostWrite pa bytes => exact h.hostWrite pa bytes
  | peerWrite owner pa bytes => exact h.peerWrite owner pa bytes
  | hostRead fn off size => exact h.of_mem (State.hostRead_mem ..)
  | firmwareBatch die v => exact h.of_mem (State.setBatch_mem ..)
  | measureCurrent f v => exact h.of_mem (State.measure_mem ..)
  | prefetch g va => exact h.of_mem (State.prefetch_mem ..)
  | peerWindow m w => exact h.of_mem (State.setPeerWindow_mem ..)
  | firmwareWindow w => exact h.of_mem (State.setWindow_mem ..)
  | updateEnd => exact h.of_mem (State.after_mem (execPwrUpdateEnd_mem s))
  | event | hostReadPa | measureInput | absent | peerKey | evict | hostLink | serveWatchdog => exact h

theorem State.Canonical.input {c : Choice} (h : s.Canonical) (hc : s.input = some c) : c.state.Canonical := by
  obtain ⟨⟨m, rest⟩, -, rfl⟩ := Option.map_eq_some_iff.mp hc
  have hagenda : ({ s with agenda := rest } : State).Canonical := h
  dsimp only
  split
  · split
    · exact hagenda
    · exact hagenda
  · exact hagenda.move _

theorem State.Canonical.choose (h : s.Canonical) : s.choose.state.Canonical := by
  have hdue : LeavesMem s (s.dueEvent.orElse fun _ => s.dueIssue.orElse fun _ => s.dueSlew.orElse fun _ => s.dueStrike) :=
    leavesMem_orElse (dueEvent_leavesMem s) <| leavesMem_orElse (dueIssue_leavesMem s) <|
      leavesMem_orElse (dueSlew_leavesMem s) (dueStrike_leavesMem s)
  unfold State.choose
  cases hin : s.input with
  | some c => exact h.input hin
  | none =>
    cases hnext : s.dueEvent.orElse fun _ => s.dueIssue.orElse fun _ => s.dueSlew.orElse fun _ => s.dueStrike with
    | some c => exact h.of_mem (hdue c hnext)
    | none => exact h.of_mem s.tick_mem

theorem goes_andThen {o : Host.Outcome State Fault Refusal} {f : State → State} (h : Goes o State.Canonical)
    (hf : ∀ u, (f u).mem = u.mem) : Goes (andThen o f) State.Canonical := by
  cases o with
  | next u => exact (goes_next ..).mpr (((goes_next ..).mp h).of_mem (hf u))
  | fault r => exact goes_fault ..
  | refused r => exact goes_refused ..

theorem step_canonical (h : s.Canonical) : Goes (step s) State.Canonical := by
  have hchoice := h.choose
  unfold step
  split
  all_goals
    rename_i heq
    rw [heq] at hchoice
  · exact goes_andThen (exec_canonical hchoice) fun _ => rfl
  · exact goes_andThen (exec_canonical hchoice) fun u => State.settle_mem ..
  · exact (goes_next ..).mpr hchoice

end

/-- Settles O55: what the schedule chooses starts from canonical memory, and every instruction and event keeps it. -/
theorem stepKeepsMemory : Obligations.StepKeepsMemory := by
  unfold Obligations.StepKeepsMemory
  intro s t hmem hstep
  exact (step_canonical hmem).next t hstep

end Sys2Proof.Machine

namespace Sys2Proof.Machine

open Sys2Proof

/-! ## A released entry that performs (R293, R311)

What O57 says of an entry, but for one thing: the other bytes of a sector of scratchpad, read under a key that the sector does not
stand under. -/

theorem sorted_pairwise {α : Type} {t : Table α} (h : Table.sorted t = true) : t.Pairwise fun p q => p.1 < q.1 := by
  induction t with
  | nil => exact .nil
  | cons p t ih =>
    obtain ⟨hlt, hrest⟩ := (sorted_cons_iff p t).mp h
    exact .cons hlt (ih hrest)

/-! ### Writes that perform together -/

theorem readByte_congr {s t : State} (hm : t.mem = s.mem) (hk : t.keys = s.keys) (k : Option KeyVal) (a : Nat) :
    t.readByte k a = s.readByte k a := by
  have hplain : t.plainByte = s.plainByte := by
    funext x
    unfold State.plainByte
    rw [hm, hk]
  unfold State.readByte State.keyFits State.untouched
  rw [hplain, hm, hk]

/-- Bytes that are written one by one under one key. -/
def State.writeEach (s : State) (key : Option KeyVal) (ws : List (Nat × Byte)) : State :=
  ws.foldl (fun s w => s.writeByte key w.1 w.2) s

section
variable (s : State) (key : Option KeyVal)

theorem writeEach_kept {ws : List (Nat × Byte)} {a : Nat} (h : ∀ w ∈ ws, a ≠ w.1) :
    (s.writeEach key ws).readByte key a = s.readByte key a := by
  induction ws generalizing s with
  | nil => rfl
  | cons w ws ih =>
    obtain ⟨hfirst, hrest⟩ := List.forall_mem_cons.mp h
    exact (ih (s.writeByte key w.1 w.2) hrest).trans ((readByte_writeByte s key w.1 a w.2).2.1 hfirst)

theorem writeEach_written {ws : List (Nat × Byte)} (h : ws.Pairwise fun v w => v.1 < w.1) {w : Nat × Byte} (hw : w ∈ ws) :
    (s.writeEach key ws).readByte key w.1 = w.2 := by
  induction ws generalizing s with
  | nil => cases hw
  | cons v ws ih =>
    obtain ⟨hlt, hrest⟩ := List.pairwise_cons.mp h
    obtain rfl | hw := List.mem_cons.mp hw
    · exact (writeEach_kept (s.writeByte key w.1 w.2) key fun x hx => (hlt x hx).ne).trans
        (readByte_writeByte s key w.1 w.1 w.2).1
    · exact ih (s.writeByte key v.1 v.2) hrest hw

theorem writeEach_otherSector {ws : List (Nat × Byte)} {a : Nat} (h : ∀ w ∈ ws, a / 64 ≠ w.1 / 64) (k : Option KeyVal) :
    (s.writeEach key ws).readByte k a = s.readByte k a := by
  induction ws generalizing s with
  | nil => rfl
  | cons w ws ih =>
    obtain ⟨hfirst, hrest⟩ := List.forall_mem_cons.mp h
    exact (ih (s.writeByte key w.1 w.2) hrest).trans ((readByte_writeByte s key w.1 a w.2).2.2 hfirst k)

theorem writeEach_keys {ws : List (Nat × Byte)} (h : ∀ w ∈ ws, s.keyFits key w.1 = true) : (s.writeEach key ws).keys = s.keys := by
  induction ws generalizing s with
  | nil => rfl
  | cons w ws ih =>
    obtain ⟨hfirst, hrest⟩ := List.forall_mem_cons.mp h
    have hwrite : s.writeByte key w.1 w.2 = { s with mem := tput s.mem w.1 w.2 } := by
      unfold State.writeByte
      rw [if_pos hfirst]
    unfold State.writeEach
    rw [List.foldl_cons, hwrite]
    exact ih { s with mem := tput s.mem w.1 w.2 } hrest

theorem settleSector_keys (sec : Nat) : (s.settleSector sec).keys = s.keys := by
  refine foldl_keeps State.keys (fun u m => ?_) _ _
  unfold State.evalMonitor State.endMonitor
  split
  · obtain ⟨fs, hfs⟩ := State.answer_answered { u with monitors := u.monitors.filter fun n => n.id ≠ m.id } m.g m.id m.pa
      (uVal (uDst m.dst) 0) none
    rw [hfs]
  · rfl

/-- What the writes make of memory, they make of a state with the same bytes under the same keys. -/
theorem performWrite_writeEach (ws : List (Nat × Byte)) : ∃ u : State, u.mem = s.mem ∧ u.keys = s.keys ∧
    (s.performWrite key ws).mem = (u.writeEach key ws).mem ∧ (s.performWrite key ws).keys = (u.writeEach key ws).keys := by
  unfold State.performWrite
  split
  · exact ⟨s, rfl, rfl, rfl, rfl⟩
  · rename_i w rest
    refine ⟨s.settleSector (w.1 / 64), settleSector_mem .., settleSector_keys .., ?_⟩
    dsimp only
    split
    · exact ⟨rfl, rfl⟩
    · exact ⟨rfl, rfl⟩

end

/-! ### Entries of scratchpad -/

/-- The writes of an entry. -/
def QEntry.writes (q : QEntry) : List (Nat × Byte) := q.bytes.map fun w => (q.pa + w.1, w.2)

/-- The key an entry writes under. -/
def State.entryKey (s : State) (q : QEntry) : Option KeyVal := some (s.keyAt q.owner q.pa)

section
variable (s : State) {q : QEntry}

theorem performEntry_scratch (h : q.bench = false) : ∃ u : State, u.mem = s.mem ∧ u.keys = s.keys ∧
    (s.performEntry q).mem = (u.writeEach (s.entryKey q) q.writes).mem ∧
    (s.performEntry q).keys = (u.writeEach (s.entryKey q) q.writes).keys := by
  unfold State.performEntry
  rw [if_neg (by simp [h])]
  exact performWrite_writeEach (s.setEntry _) (s.entryKey q) q.writes

theorem performEntry_performed (h : q.bench = false) : ∃ due : Nat,
    (s.setEntry { q with phase := 2, due := due }).Performed (s.performEntry q) := by
  unfold State.performEntry
  rw [if_neg (by simp [h])]
  exact ⟨_, State.performWrite_performed ..⟩

theorem performEntry_groups (q : QEntry) : (s.performEntry q).groups = s.groups := by
  cases hb : q.bench with
  | true =>
    unfold State.performEntry
    rw [if_pos hb]
    rfl
  | false =>
    obtain ⟨due, _, _, _, _, _, _, _, hperf⟩ := performEntry_performed s hb
    rw [hperf]
    rfl

theorem performEntry_blocks (h : q.bench = false) : (s.performEntry q).blocks = s.blocks := by
  obtain ⟨due, _, _, _, _, _, _, _, hperf⟩ := performEntry_performed s h
  rw [hperf]
  rfl

theorem performEntry_stored (h : q.bench = false) (hsorted : Table.sorted q.bytes = true) {w : Nat × Byte} (hw : w ∈ q.bytes) :
    (s.performEntry q).readByte (s.entryKey q) (q.pa + w.1) = w.2 := by
  obtain ⟨u, -, -, hmem, hkeys⟩ := performEntry_scratch s h
  rw [readByte_congr hmem hkeys]
  refine writeEach_written u _ ?_ (List.mem_map_of_mem hw)
  exact List.pairwise_map.mpr ((sorted_pairwise hsorted).imp fun hlt => Nat.add_lt_add_left hlt _)

/-- Under its key no other byte changes. -/
theorem performEntry_kept (h : q.bench = false) {a : Nat} (ha : ¬∃ w ∈ q.bytes, a = q.pa + w.1) :
    (s.performEntry q).readByte (s.entryKey q) a = s.readByte (s.entryKey q) a := by
  obtain ⟨u, hm, hk, hmem, hkeys⟩ := performEntry_scratch s h
  rw [readByte_congr hmem hkeys, ← readByte_congr hm hk]
  refine writeEach_kept u _ fun w hw he => ha ?_
  obtain ⟨v, hv, rfl⟩ := List.mem_map.mp hw
  exact ⟨v, hv, he⟩

theorem performEntry_otherSector (h : q.bench = false) (hsector : ∀ w ∈ q.bytes, (q.pa + w.1) / 64 = q.pa / 64) {a : Nat}
    (ha : a / 64 ≠ q.pa / 64) (k : Option KeyVal) : (s.performEntry q).readByte k a = s.readByte k a := by
  obtain ⟨u, hm, hk, hmem, hkeys⟩ := performEntry_scratch s h
  rw [readByte_congr hmem hkeys, ← readByte_congr hm hk]
  refine writeEach_otherSector u _ (fun w hw => ?_) k
  obtain ⟨v, hv, rfl⟩ := List.mem_map.mp hw
  exact fun he => ha (he.trans (hsector v hv))

theorem performEntry_keys (h : q.bench = false) (hsector : ∀ w ∈ q.bytes, (q.pa + w.1) / 64 = q.pa / 64)
    (hfits : s.keyFits (s.entryKey q) q.pa = true) : (s.performEntry q).keys = s.keys := by
  obtain ⟨u, -, hk, -, hkeys⟩ := performEntry_scratch s h
  refine (hkeys.trans (writeEach_keys u _ fun w hw => ?_)).trans hk
  obtain ⟨v, hv, rfl⟩ := List.mem_map.mp hw
  refine (keyFits_sector u _ (hsector v hv)).trans ?_
  unfold State.keyFits at hfits ⊢
  rwa [hk]

end

/-! ### Entries of bench memory -/

section
variable (s : State) {q : QEntry}

theorem foldl_tset_kept {ws : Table Byte} {m : Table Byte} {pa a : Nat} (h : ∀ w ∈ ws, a ≠ pa + w.1) :
    tget 0 (ws.foldl (fun m w => tset 0 m (pa + w.1) w.2) m) a = tget 0 m a := by
  induction ws generalizing m with
  | nil => rfl
  | cons w ws ih =>
    obtain ⟨hfirst, hrest⟩ := List.forall_mem_cons.mp h
    exact (ih hrest).trans (tget_tset_other _ _ _ hfirst.symm)

theorem foldl_tset_written {ws : Table Byte} (h : ws.Pairwise fun v w => v.1 < w.1) {m : Table Byte} {pa : Nat} {w : Nat × Byte}
    (hw : w ∈ ws) : tget 0 (ws.foldl (fun m w => tset 0 m (pa + w.1) w.2) m) (pa + w.1) = w.2 := by
  induction ws generalizing m with
  | nil => cases hw
  | cons v ws ih =>
    obtain ⟨hlt, hrest⟩ := List.pairwise_cons.mp h
    obtain rfl | hw := List.mem_cons.mp hw
    · exact (foldl_tset_kept fun x hx => (Nat.add_lt_add_left (hlt x hx) pa).ne).trans (tget_tset_same ..)
    · exact ih hrest hw

/-- An entry of bench memory writes its block's, and no other part of memory. -/
theorem performEntry_bench (h : q.bench = true) : ∃ due : Nat,
    s.performEntry q = (s.setEntry { q with phase := 2, due := due }).modBlock (blockOf q.g) fun b =>
      { b with bench := q.bytes.foldl (fun m w => tset 0 m (q.pa + w.1) w.2) b.bench } := by
  unfold State.performEntry
  rw [if_pos h]
  exact ⟨_, rfl⟩

end

/-! ### The event that performs it -/

theorem exec_performEntry {s : State} {q : QEntry} (hfind : s.entries.find? (fun o => o.id = q.id) = some q)
    (hdue : s.drainDue q = true) (hphase : q.phase ≤ 1) (hhold : q.phase = 0 → s.entryHold q = 0) :
    exec (if q.phase = 0 then .storeDrain q.id else .taggedHoldEnd q.id) s = .next (s.performEntry q) := by
  by_cases h0 : q.phase = 0
  · rw [if_pos h0]
    show execStoreDrain q.id s = _
    unfold execStoreDrain
    simp [hfind, hdue, h0, hhold h0]
  · have h1 : q.phase = 1 := by omega
    rw [if_neg h0]
    show execTaggedHoldEnd q.id s = _
    unfold execTaggedHoldEnd
    simp [hfind, hdue, h1]

/-! ### What O57 comes to

`Config.foreignByte` is opaque: the model fixes nothing of its values. O57 lets no byte of the sector change under any key,
where the sector stands under the writer's; under another key the byte is `Config.foreignByte` of all of the sector's bytes, the
written ones too. So O57 holds if and only if that function is blind to the sector's other bytes. -/

/-- What a byte reads as under a key that its sector does not stand under depends on no other byte of the sector. -/
def ForeignByteBlind : Prop :=
  ∀ (l l' : List Byte) (key : KeyVal) (k : Option KeyVal) (pa : Nat), l.length = 64 → l'.length = 64 →
    l[pa % 64]? = l'[pa % 64]? → paClass pa ≠ 2 → k ≠ some key →
    Config.foreignByte l (keyNums (some key) pa).1 (keyNums (some key) pa).2 (keyNums k pa).1 (keyNums k pa).2 pa =
      Config.foreignByte l' (keyNums (some key) pa).1 (keyNums (some key) pa).2 (keyNums k pa).1 (keyNums k pa).2 pa

/-- The bytes of the sector of an address. -/
def State.sectorBytes (s : State) (pa : Nat) : List Byte := (codes (pa / 64 * 64) 64).map s.plainByte

theorem sectorBytes_length (s : State) (pa : Nat) : (s.sectorBytes pa).length = 64 := by simp [State.sectorBytes, codes]

theorem sectorBytes_at (s : State) (pa : Nat) {i : Nat} (h : i < 64) :
    (s.sectorBytes pa)[i]? = some (s.plainByte (pa / 64 * 64 + i)) := by
  simp [State.sectorBytes, codes, h]

theorem sectorBytes_own (s : State) (pa : Nat) : (s.sectorBytes pa)[pa % 64]? = some (s.plainByte pa) := by
  rw [sectorBytes_at s pa (by omega), show pa / 64 * 64 + pa % 64 = pa by omega]

/-- A byte of a sector that stands under `key`, read under another. -/
theorem readByte_foreign {s : State} {key : KeyVal} {k : Option KeyVal} {pa : Nat} (hown : tfind s.keys (pa / 64) = some key)
    (hclass : paClass pa ≠ 2) (hk : k ≠ some key) :
    s.readByte k pa = Config.foreignByte (s.sectorBytes pa) (keyNums (some key) pa).1 (keyNums (some key) pa).2 (keyNums k pa).1
      (keyNums k pa).2 pa := by
  have hfits : s.keyFits k pa = false := by simp [State.keyFits, hown, hclass, hk.symm]
  have htouched : s.untouched pa = false := by simp [State.untouched, hown]
  unfold State.readByte
  rw [hfits, htouched, hown]
  rfl

theorem readByte_fits {s : State} {key : Option KeyVal} {pa : Nat} (h : s.keyFits key pa = true) :
    s.readByte key pa = s.plainByte pa := by
  unfold State.readByte
  rw [if_pos h]

/-- Where the sector stands under the entry's key, and foreign bytes depend on no other byte, no byte changes but those written. -/
theorem performEntry_foreign (hblind : ForeignByteBlind) (s : State) {q : QEntry} (h : q.bench = false)
    (hsector : ∀ w ∈ q.bytes, (q.pa + w.1) / 64 = q.pa / 64) (hfits : s.keyFits (s.entryKey q) q.pa = true) {a : Nat}
    (ha : ¬∃ w ∈ q.bytes, a = q.pa + w.1) (hin : a / 64 = q.pa / 64) (k : Option KeyVal) :
    (s.performEntry q).readByte k a = s.readByte k a := by
  have hkeys := performEntry_keys s h hsector hfits
  have hfits' (u : State) (hu : u.keys = s.keys) : u.keyFits (s.entryKey q) a = true := by
    refine (keyFits_sector u _ hin).trans ?_
    unfold State.keyFits at hfits ⊢
    rwa [hu]
  have hplain : (s.performEntry q).plainByte a = s.plainByte a := by
    rw [← readByte_fits (hfits' _ hkeys), ← readByte_fits (hfits' _ rfl)]
    exact performEntry_kept s h ha
  by_cases hclass : paClass a = 2
  · have hany (u : State) : u.keyFits k a = true := by simp [State.keyFits, hclass]
    rw [readByte_fits (hany _), readByte_fits (hany _), hplain]
  by_cases hk : k = s.entryKey q
  · rw [hk]
    exact performEntry_kept s h ha
  have hown : tfind s.keys (a / 64) = s.entryKey q := by
    have := hfits' s rfl
    simpa [State.keyFits, hclass] using this
  rw [readByte_foreign hown hclass hk, readByte_foreign (hkeys ▸ hown) hclass hk]
  refine hblind _ _ _ k a (sectorBytes_length ..) (sectorBytes_length ..) ?_ hclass hk
  rw [sectorBytes_own, sectorBytes_own, hplain]

theorem drainFrame_of_blind (hblind : ForeignByteBlind) : Obligations.DrainFrame := by
  unfold Obligations.DrainFrame
  intro s q key stored hfind hdue hsorted hsector hphase hhold
  refine ⟨s.performEntry q, exec_performEntry hfind hdue hphase hhold, performEntry_groups s q, fun hb => ?_, fun hb => ?_⟩
  · refine ⟨performEntry_blocks s hb, fun w hw => performEntry_stored s hb hsorted hw, fun k a ha hor => ?_⟩
    by_cases hin : a / 64 = q.pa / 64
    · exact performEntry_foreign hblind s hb hsector (hor.resolve_left fun hne => hne hin) ha hin k
    · exact performEntry_otherSector s hb hsector hin k
  · obtain ⟨due, hperf⟩ := performEntry_bench s hb
    rw [hperf]
    refine ⟨rfl, rfl, fun r hr => ?_, fun b hblock => ?_⟩
    · rw [State.block?_modBlock _ _ _ fun _ => by rfl]
      show (s.block? r).map _ = _
      cases hr' : s.block? r with
      | none => rfl
      | some b => rw [Option.map_some, if_neg (by rw [State.block?_ref hr']; exact hr)]
    · refine ⟨_, State.block?_modBlock_same hblock fun _ => rfl, fun w hw => ?_, fun a ha => ?_⟩
      · exact foldl_tset_written (sorted_pairwise hsorted) hw
      · exact foldl_tset_kept fun w hw he => ha ⟨w, hw, he⟩

/-! ### The states that show it -/

/-- The number of a byte in its sector, with a byte for it. -/
def offsetsOf (l : List Byte) : Table Byte := (List.range 64).map fun i => (i, l.getD i 0)

/-- An entry that writes the bytes `l` to the sector of `pa`, but for the byte at `pa`. -/
def blindEntry (l : List Byte) (pa : Nat) : QEntry :=
  { id := 0, g := ⟨0, 0, 0⟩, region := 0, bench := false, owner := 0, pa := pa / 64 * 64,
    bytes := (offsetsOf l).filter fun w => w.1 ≠ pa % 64, released := true, phase := 1 }

/-- The entry is due, and its sector holds `l` under the key of its owner. -/
def blindState (l : List Byte) (key : KeyVal) (pa : Nat) (q : QEntry) : State :=
  { domid := paModule pa
    owners := [(0, { mkeyData := key.data, mkeyTweak := key.tweak })]
    mem := (codes (pa / 64 * 64) 64).foldl (fun m a => tput m a (l.getD (a % 64) 0)) []
    keys := [(pa / 64, key)]
    entries := [q] }

section
variable (l : List Byte) (key : KeyVal) (pa : Nat)

theorem sorted_offsetsOf : Table.sorted (offsetsOf l) = true := rfl

theorem mem_blindEntry {w : Nat × Byte} :
    w ∈ (blindEntry l pa).bytes ↔ (w.1 < 64 ∧ w.2 = l.getD w.1 0) ∧ w.1 ≠ pa % 64 := by
  obtain ⟨i, b⟩ := w
  unfold blindEntry
  dsimp only
  rw [List.mem_filter, decide_eq_true_eq]
  refine and_congr_left fun _ => ?_
  unfold offsetsOf
  constructor
  · intro h
    obtain ⟨j, hj, hpair⟩ := List.mem_map.mp h
    cases hpair
    exact ⟨List.mem_range.mp hj, rfl⟩
  · rintro ⟨hi, rfl⟩
    exact List.mem_map.mpr ⟨i, List.mem_range.mpr hi, rfl⟩

theorem blindEntry_sector : ∀ w ∈ (blindEntry l pa).bytes, ((blindEntry l pa).pa + w.1) / 64 = (blindEntry l pa).pa / 64 := by
  intro w hw
  obtain ⟨⟨hlt, -⟩, -⟩ := (mem_blindEntry l pa).mp hw
  show (pa / 64 * 64 + w.1) / 64 = pa / 64 * 64 / 64
  omega

theorem blindState_entryKey (q : QEntry) (hq : q.owner = 0 ∧ q.pa = pa / 64 * 64) :
    (blindState l key pa q).entryKey q = some key := by
  obtain ⟨ho, hpa⟩ := hq
  have hmodule : paModule q.pa = paModule pa := by
    rw [hpa]
    unfold paModule
    omega
  unfold State.entryKey State.keyAt
  rw [if_pos (show paModule q.pa = (blindState l key pa q).domid from hmodule), ho]
  rfl

theorem blindState_plainByte (q : QEntry) {a : Nat} (ha : a / 64 = pa / 64) :
    (blindState l key pa q).plainByte a = l.getD (a % 64) 0 := by
  unfold State.plainByte blindState
  dsimp only
  rw [tfind_foldl_tput, if_pos ((mem_sector pa a).mpr ha)]
  rfl

theorem blindState_keyFits (q : QEntry) {a : Nat} (ha : a / 64 = pa / 64) :
    (blindState l key pa q).keyFits (some key) a = true := by
  unfold State.keyFits blindState
  simp [tfind, ha]

end

theorem blindState_due (l l' : List Byte) (key : KeyVal) (pa : Nat) :
    (blindState l key pa (blindEntry l' pa)).drainDue (blindEntry l' pa) = true := by
  simp [State.drainDue, State.drainBehind, State.writeBefore, blindState, blindEntry]

section
variable {l l' : List Byte} (key : KeyVal) (pa : Nat)

theorem blindEntry_spares : ¬∃ w ∈ (blindEntry l' pa).bytes, pa = (blindEntry l' pa).pa + w.1 := by
  rintro ⟨w, hw, hpa⟩
  obtain ⟨⟨hlt, -⟩, hne⟩ := (mem_blindEntry l' pa).mp hw
  have : pa = pa / 64 * 64 + w.1 := hpa
  omega

/-- The state that the entry leaves. -/
def blindDone (l l' : List Byte) (key : KeyVal) (pa : Nat) : State :=
  (blindState l key pa (blindEntry l' pa)).performEntry (blindEntry l' pa)

theorem blindDone_keys : (blindDone l l' key pa).keys = [(pa / 64, key)] := by
  refine performEntry_keys _ (q := blindEntry l' pa) rfl (blindEntry_sector l' pa) ?_
  rw [blindState_entryKey l key pa _ ⟨rfl, rfl⟩]
  refine blindState_keyFits l key pa _ ?_
  show pa / 64 * 64 / 64 = pa / 64
  omega

/-- It has written `l'` in place of `l`, but for the byte at `pa`, which was the same. -/
theorem blindDone_plainByte (hown : l.getD (pa % 64) 0 = l'.getD (pa % 64) 0) {a : Nat} (ha : a / 64 = pa / 64) :
    (blindDone l l' key pa).plainByte a = l'.getD (a % 64) 0 := by
  have hkey := blindState_entryKey l key pa (blindEntry l' pa) ⟨rfl, rfl⟩
  have hfits : (blindDone l l' key pa).keyFits (some key) a = true := by
    simp [State.keyFits, blindDone_keys, tfind, ha]
  rw [← readByte_fits hfits, ← hkey]
  by_cases hpa : a = pa
  · rw [hpa]
    refine (performEntry_kept _ (q := blindEntry l' pa) rfl (blindEntry_spares pa)).trans ?_
    rw [hkey, readByte_fits (blindState_keyFits l key pa _ rfl), blindState_plainByte l key pa _ rfl, hown]
  · have hw : (a % 64, l'.getD (a % 64) 0) ∈ (blindEntry l' pa).bytes :=
      (mem_blindEntry l' pa).mpr ⟨⟨by omega, rfl⟩, by show a % 64 ≠ pa % 64; omega⟩
    have hstored := performEntry_stored (blindState l key pa (blindEntry l' pa)) (q := blindEntry l' pa) rfl
      (sorted_filter _ _ (sorted_offsetsOf l')) hw
    rwa [show (blindEntry l' pa).pa + a % 64 = a by show pa / 64 * 64 + a % 64 = a; omega] at hstored

theorem sectorBytes_eq {s : State} (hl : l.length = 64) (h : ∀ a, a / 64 = pa / 64 → s.plainByte a = l.getD (a % 64) 0) :
    s.sectorBytes pa = l := by
  refine List.ext_getElem? fun i => ?_
  by_cases hi : i < 64
  · rw [sectorBytes_at _ pa hi, h _ (by omega), show (pa / 64 * 64 + i) % 64 = i by omega]
    simp [hl, hi]
  · rw [List.getElem?_eq_none (by rw [sectorBytes_length]; omega), List.getElem?_eq_none (by omega)]

end

theorem blind_of_drainFrame (h : Obligations.DrainFrame) : ForeignByteBlind := by
  intro l l' key k pa hl hl' hown hclass hk
  have hexec := exec_performEntry (s := blindState l key pa (blindEntry l' pa)) (q := blindEntry l' pa) rfl
    (blindState_due l l' key pa) le_rfl fun h0 => absurd h0 Nat.one_ne_zero
  have hfits : (blindState l key pa (blindEntry l' pa)).keyFits
      ((blindState l key pa (blindEntry l' pa)).entryKey (blindEntry l' pa)) (blindEntry l' pa).pa = true := by
    rw [blindState_entryKey l key pa _ ⟨rfl, rfl⟩]
    refine blindState_keyFits l key pa _ ?_
    show pa / 64 * 64 / 64 = pa / 64
    omega
  unfold Obligations.DrainFrame at h
  obtain ⟨t, ht, -, hscratch, -⟩ := h (blindState l key pa (blindEntry l' pa)) (blindEntry l' pa) rfl
    (blindState_due l l' key pa) (sorted_filter _ _ (sorted_offsetsOf l')) (blindEntry_sector l' pa) le_rfl
    fun h0 => absurd h0 Nat.one_ne_zero
  cases hexec.symm.trans ht
  obtain ⟨-, -, hframe⟩ := hscratch rfl
  have hsame : (blindDone l l' key pa).readByte k pa = (blindState l key pa (blindEntry l' pa)).readByte k pa :=
    hframe k pa (blindEntry_spares pa) (.inr hfits)
  have hfind : tfind [(pa / 64, key)] (pa / 64) = some key := by simp [tfind]
  have hbyte : l.getD (pa % 64) 0 = l'.getD (pa % 64) 0 := by
    rw [List.getD_eq_getElem?_getD, List.getD_eq_getElem?_getD, hown]
  rw [readByte_foreign ((blindDone_keys key pa).symm ▸ hfind) hclass hk, readByte_foreign hfind hclass hk,
    sectorBytes_eq pa hl fun a => blindState_plainByte l key pa _,
    sectorBytes_eq pa hl' fun a => blindDone_plainByte key pa hbyte] at hsame
  exact hsame.symm

/-- What O57 says beyond the rules above is a property of the opaque `Config.foreignByte`, which the model leaves open (log 8). -/
theorem drainFrame_iff_foreignByteBlind : Obligations.DrainFrame ↔ ForeignByteBlind := ⟨blind_of_drainFrame, drainFrame_of_blind⟩

end Sys2Proof.Machine
